-- ==== Sys2Proof/Word.lean ====
section
/-! DEFINITION. The words of the machine: bytes, 64-bit registers and the plain bit arithmetic on them (02_words.md R2, R69). -/

namespace Sys2Proof

/-- One byte. -/
abbrev Byte := BitVec 8
/-- A 32-bit element of a lane register, or a Beam word. -/
abbrev W32 := BitVec 32
/-- A 64-bit register or instruction word. -/
abbrev W64 := BitVec 64
/-- The lanes of a group, bit `l` for lane `l`; a group of width W uses bits W - 1 to 0 (R10). -/
abbrev Mask := BitVec 128

/-- Bits `hi` down to `lo` of a natural number (R2, R7). -/
def bits (x hi lo : Nat) : Nat := (x >>> lo) % 2 ^ (hi + 1 - lo)

/-- One bit of a natural number. -/
def bitOf (x i : Nat) : Bool := x.testBit i

/-- A Boolean as the number 0 or 1. -/
def b2n (b : Bool) : Nat := if b then 1 else 0

/-- The integer whose `n`-bit two's-complement form is `x mod 2^n` (R69, SignExtend). -/
def sext (x n : Nat) : Int :=
  let y := x % 2 ^ n
  if n = 0 then 0 else if y < 2 ^ (n - 1) then (y : Int) else (y : Int) - 2 ^ n

/-- An integer taken modulo `2^n` (R123). -/
def wrap (n : Nat) (x : Int) : Nat := (x % (2 ^ n : Int)).toNat

/-- The bitwise complement of the low `n` bits (R69, BitNot). -/
def bitNot (x n : Nat) : Nat := (2 ^ n - 1) - x % 2 ^ n

/-- `x` rounded up to a multiple of `m`. -/
def roundUp (x m : Nat) : Nat := (x + m - 1) / m * m

end Sys2Proof
end

