-- ==== Sys2Proof/Machine/Sha.lean ====
section
/-! DEFINITION. SHA-256, which 15_isolation.md R428 and R429 name without stating it (PRESUMED, log 26: FIPS 180-4). -/

namespace Sys2Proof.Machine

/-- Bytes as a number, the first one least significant, and back. -/
def ofBytes : List Byte → Nat
  | [] => 0
  | b :: bs => b.toNat + 256 * ofBytes bs
def toBytes : Nat → Nat → List Byte
  | 0, _ => []
  | n + 1, x => BitVec.ofNat 8 x :: toBytes n (x / 256)

/-! The constants are the leading fraction bits of roots of primes. -/

/-- The greatest number below 2^bits whose k-th power is at most n. -/
def rootFloor (k n : Nat) : Nat → Nat
  | 0 => 0
  | i + 1 =>
    let r := rootFloor k (n / 2 ^ k) i
    if (2 * r + 1) ^ k ≤ n then 2 * r + 1 else 2 * r

/-- The first 32 fraction bits of the k-th root of p. -/
def rootWord (k p : Nat) : W32 := BitVec.ofNat 32 (rootFloor k (p * 2 ^ (32 * k)) 40)

/-- The primes below a bound. -/
def primesBelow (n : Nat) : List Nat :=
  (List.range n).filter fun p => 2 ≤ p && (List.range p).all fun d => d < 2 || p % d != 0

/-- What the 64 rounds add, and what the eight words start from. -/
def shaAdded : List W32 := (primesBelow 312).map (rootWord 3)
def shaFirst : List W32 := (primesBelow 20).map (rootWord 2)

/-! The words of a block: the latest 4 of the a-words and of the e-words are kept, the newest first. -/

/-- The exclusive or of a word's rotations and, where `drop` is not 0, of its shift by it. -/
def shaMix (turns : List Nat) (drop : Nat) (x : W32) : W32 :=
  turns.foldl (fun y r => x.rotateRight r ^^^ y) (if drop = 0 then 0 else x >>> drop)

/-- Message words, the newest first, with `n` more from the 1st, 6th, 14th and 15th before. -/
def shaGrow (ws : List W32) : Nat → List W32
  | 0 => ws
  | n + 1 => shaGrow (([shaMix [17, 19] 10 (ws.getD 1 0), ws.getD 6 0, shaMix [7, 18] 3 (ws.getD 14 0), ws.getD 15 0].foldl (· + ·) 0) :: ws) n

/-- Where the bits of x are set those of y, elsewhere those of z; and the bits that most of three words have. -/
def shaPick (x y z : W32) : W32 := z ^^^ (x &&& (y ^^^ z))
def shaMost (xs : List W32) : W32 := (xs.headD 0 &&& xs.getD 1 0) ||| (xs.getD 2 0 &&& (xs.headD 0 ||| xs.getD 1 0))

/-- A round's new a-word and e-word from the four of each and from what is added. -/
def shaStir (x : List W32 × List W32) (add : W32) : List W32 × List W32 :=
  let e := x.2.headD 0
  let inner := [x.2.getD 3 0, shaMix [6, 11, 25] 0 e, shaPick e (x.2.getD 1 0) (x.2.getD 2 0)].foldl (· + ·) add
  ((inner + shaMix [2, 13, 22] 0 (x.1.headD 0) + shaMost x.1) :: x.1.take 3, (inner + x.1.getD 3 0) :: x.2.take 3)

/-- A block of sixteen words stirred into the eight words of the digest. -/
def shaInto (h block : List W32) : List W32 :=
  let y := (List.zipWith (· + ·) shaAdded (shaGrow block.reverse 48).reverse).foldl shaStir (h.take 4, h.drop 4)
  List.zipWith (· + ·) h (y.1 ++ y.2)

/-- Bytes in groups of `n`. -/
def groupsOf {α : Type} (n : Nat) (bs : List α) : List (List α) := (List.range (bs.length / n)).map fun i => (bs.drop (n * i)).take n

/-- The digest of a message, 32 bytes: the message, a one bit, zeros, and its length in bits fill blocks of 64 bytes; words are big-endian. -/
def sha256 (msg : List Byte) : List Byte :=
  let tail := 128#8 :: List.replicate (63 - (msg.length + 8) % 64) 0#8 ++ (toBytes 8 (8 * msg.length)).reverse
  let words := (groupsOf 4 (msg ++ tail)).map fun b => BitVec.ofNat 32 (ofBytes b.reverse)
  ((groupsOf 16 words).foldl shaInto shaFirst).flatMap fun w => (toBytes 4 w.toNat).reverse

end Sys2Proof.Machine
end

