-- ==== Sys2Proof/Config.lean ====
section
/-! DEFINITION. What one implementation fixes (the stepping, the figures of 00_scope.md R1) and the free values: constants with no body for every value the spec leaves open. -/

namespace Sys2Proof.Config

/-- Compute dies of the package (00_scope.md R1). -/
def dies : Nat := 8
/-- Quads of a die (R1). -/
def quadsPerDie : Nat := 44
/-- Cores of a quad (R1). -/
def coresPerQuad : Nat := 4
/-- Cores of a die (R1). -/
def coresPerDie : Nat := 176
/-- Granules of a core store (R1): 1 MiB in granules of 64 bytes. -/
def granulesPerCore : Nat := 16384
/-- L2 slices of a die (R1). -/
def slicesPerDie : Nat := 32
/-- Home slices of the package (R1). -/
def homeSlices : Nat := 256
/-- Tile directory entries of a home slice (R1). -/
def tilesPerSlice : Nat := 4096
/-- HBM channels of the package (R1). -/
def channels : Nat := 384
/-- Bytes of HBM in the package (R1): 768 GiB. -/
def hbmBytes : Nat := 768 * 2 ^ 30

/-! Free values: nothing constrains them, so what is proved holds for each choice of them. -/

/-- The result of a correctly rounded function whose enclosures at 1,024 bits still disagree (log 12);
no argument is known to reach it. -/
opaque undecided : Nat → Nat → Nat

/-- The SHA-256 digest of the device's identity public key (15_isolation.md R429), as a number whose low byte comes first. -/
opaque identityDigest : Nat
/-- Whether an image carries a valid signature (R428): of Nisyn's root key, and under the key of the trusted firmware. -/
opaque rootSigned : List Byte → Bool
opaque trustedSigned : List Byte → Bool
/-- Where a granule of an L2 slice's die-store part lies among the granules of its die's stores (17_host_fabric.md R473), by slice
and granule number. -/
opaque carvePos : Nat → Nat → Nat

/-- The bank of a core store, 0 to 31, that holds a granule (01_machine.md gives 32 banks and no mapping; log 79). -/
opaque bankOf : Nat → Nat

/-- The set of a line of 128 bytes in an L1 or L2, and the ways of a set (the spec gives neither; log 81). -/
opaque setOf : Nat → Nat
opaque ways : Nat

/-- The `n`-th value that the spec leaves open (log 13). -/
opaque freeWord : Nat → W64

end Sys2Proof.Config
end

