-- ==== Sys2Proof/Machine/Flags.lean ====
section
/-! DEFINITION. The arithmetic events of an instruction and the saturating counters that count them (04_numbers.md R117). -/

namespace Sys2Proof

/-- The events an instruction met in at least one element (R117): a NaN from inputs none of which was
NaN, a finite overflow, an integer conversion clamped or of a NaN, a saturated block. -/
structure Ev where
  nv : Bool := false
  of : Bool := false
  ic : Bool := false
  sb : Bool := false
deriving DecidableEq, Repr

def Ev.none : Ev := {}

/-- Events of two parts of one instruction. -/
def Ev.or (a b : Ev) : Ev := ⟨a.nv || b.nv, a.of || b.of, a.ic || b.ic, a.sb || b.sb⟩

/-- A result with its events. -/
abbrev Res := Nat × Ev

/-- Events that another part has not met. -/
def Ev.less (a b : Ev) : Ev := ⟨a.nv && !b.nv, a.of && !b.of, a.ic && !b.ic, a.sb && !b.sb⟩

/-- The events of a list of results. -/
def evsOf (rs : List Res) : Ev := rs.foldl (fun e r => e.or r.2) .none

/-- A 48-bit counter that saturates (R117, 13_control_sync_ops.md R360). -/
def sat48 (x : Nat) : Nat := min x (2 ^ 48 - 1)

/-- The four counters of a core (R117). -/
structure Events where
  nv : Nat := 0
  of : Nat := 0
  ic : Nat := 0
  sb : Nat := 0
deriving DecidableEq, Repr

/-- An instruction adds at most 1 to each counter (R117). -/
def Events.count (c : Events) (e : Ev) : Events :=
  ⟨sat48 (c.nv + b2n e.nv), sat48 (c.of + b2n e.of), sat48 (c.ic + b2n e.ic), sat48 (c.sb + b2n e.sb)⟩

end Sys2Proof
end

