-- ==== Sys2Proof/Syntax.lean ====
section
/-! DEFINITION. The instruction set of the Z9 as abstract syntax: one constructor of `Instr` for each row of opcode_table.json, device words first, then Beam words, then the events of the machine. -/

namespace Sys2Proof

/-! Operands of device words -/

/-- Floating-point formats of the F words (04_numbers.md R97, 03_opcode_map.md R74). -/
inductive Fmt | d | s | h | bf | h2 | bf2
deriving DecidableEq, Repr

/-- Crossbar patterns 000 to 110 (02_words.md R41). -/
inductive Pat | ident | keep | rotate | broadcast | butterfly | mirror | octet
deriving DecidableEq, Repr

/-- A legal 12-bit source field (R39): a lane register with its pattern, a scalar register, or
the inline constant of index 64 + `i` (R40). -/
inductive Src
  | lane (v : BitVec 8) (p : Pat)
  | sreg (m : BitVec 6)
  | const (i : BitVec 6)
deriving DecidableEq, Repr

/-- A legal destination of an F word (R37, R38). -/
inductive Dst
  | lane (v : BitVec 8)
  | sreg (m : BitVec 6)
deriving DecidableEq, Repr

/-- A legal 9-bit register field of an M or K word (R53, R342). -/
inductive Reg
  | lane (v : BitVec 8)
  | sreg (m : BitVec 6)
  | const (i : BitVec 6)
deriving DecidableEq, Repr

/-- A scalar-class source: a register or an inline constant. -/
inductive SArg
  | sreg (m : BitVec 6)
  | const (i : BitVec 6)
deriving DecidableEq, Repr

/-- Sources of an F word, or of an FI word whose immediate stands for the last source read (R37, R44, R76).
A source that the opcode does not read is `Src.lane 0 .ident`, the field of zeros (R122). -/
inductive FArgs
  | reg (a b c : Src) (par : BitVec 5)
  | imm (a b : Src) (i : BitVec 17)
deriving DecidableEq, Repr

/-- Predicate and sources of an F or FI word. -/
structure FSrc where
  pred : BitVec 3
  args : FArgs
deriving DecidableEq, Repr

/-- An F or FI word with its destination (R37, R44). -/
structure FWord where
  pred : BitVec 3
  dst  : Dst
  args : FArgs
deriving DecidableEq, Repr

/-- An F word that reads source A alone beside a mode field (R122). -/
structure FMode where
  pred : BitVec 3
  dst  : Dst
  a    : Src
  par  : BitVec 5
deriving DecidableEq, Repr

/-- Rounding codes 0 to 3 (04_numbers.md R105); code 4, stochastic, is CVTS alone. -/
inductive Rm | rne | rz | ru | rd
deriving DecidableEq, Repr

/-- Modes of LVOTE (05_lane_scalar_ops.md R143). -/
inductive Vote | ballot | any | all | count
deriving DecidableEq, Repr

/-- Operations of LSCAN and LRED (R144). -/
inductive ScanOp | add | min | minu | max | maxu | and | or | xor | fadd | fmin | fmax
deriving DecidableEq, Repr

/-- Number formats of CVT and CVTS, codes 1 to 9 of R104 (06_sweep_quantise.md R156). -/
inductive NumFmt | f64 | f32 | f16 | bf16 | e4m3 | e5m2 | i8 | i32 | i64
deriving DecidableEq, Repr

/-- Block formats of QSCL and QUNP (R162). -/
inductive BlkFmt | z4 | e4 | e5
deriving DecidableEq, Repr

/-- Elementwise floating operations with one opcode per format (03_opcode_map.md R74, R75). -/
inductive FpOp | fadd | fsub | fmul | ffma | fmin | fmax
deriving DecidableEq, Repr

/-- Correctly rounded functions (R74, R75). -/
inductive FuOp | frcp | frsq | fsqrt | fdiv | fex2 | flg2 | fsin | fcos
deriving DecidableEq, Repr

/-- Integer operations that have a 32-bit and a .L opcode, in the order of R74. -/
inductive IntOp
  | iadd | isub | imul | imulh | imulhUs | imad | imin | iminUs | imax | imaxUs | iabs
  | and | or | xor | andn | shl | shr | sar | rotl | popc | clz | brev
deriving DecidableEq, Repr

/-- An operation that an F opcode computes lane by lane from the values of its sources
(R74, R75); `.L` forms carry `true`. The pairable ones stand in P halves (R77). -/
inductive LaneOp
  | fp (j : FpOp) (f : Fmt)
  | fu (j : FuOp) (f : Fmt)
  | int (j : IntOp) (l : Bool)
  | prmt
  | mov (l : Bool)
  | lea (l : Bool)
  | idx2
  | fldx (f : Fmt)
  | div (rem l us : Bool)
  | bfx (l us : Bool)
  | bfi (l : Bool)
  | icmp (l us : Bool)
  | fcmp (f : Fmt)
  | fcls (f : Fmt)
  | sel (l : Bool)
deriving DecidableEq, Repr

/-- One half of a P word (02_words.md R48). -/
structure Half where
  op : LaneOp
  d  : BitVec 8
  a  : BitVec 8
  b  : BitVec 8
deriving DecidableEq, Repr

/-- Ordering field of an M word (R52). -/
inductive Ord | rlx | acq | rel | ar
deriving DecidableEq, Repr

/-- Scopes 0 to 6 (01_machine.md R8, R52). -/
inductive Scope | group | core | quad | die | package | pod | system
deriving DecidableEq, Repr

/-- Access sizes of an M word: 1, 2, 4, 8 or 16 bytes (R53). -/
inductive Size | b | h | w | d | q
deriving DecidableEq, Repr

/-- The fields of an M word (R51). A field that the opcode does not use holds zeros:
`Reg.lane 0` in a register field. -/
structure MWord where
  pred  : BitVec 3
  la    : BitVec 4
  ord   : Ord
  scope : Scope
  evict : BitVec 3
  data  : Reg
  base  : Reg
  index : Reg
  off   : BitVec 12
deriving DecidableEq, Repr

/-- Element formats of the X opcodes 0xC0 to 0xC8 (07_matrix.md R169). -/
inductive XFmt | d | bf | h | e4 | e5 | i8 | z4 | e4sc | e5sc
deriving DecidableEq, Repr

/-- The fields of an X word but for its opcode and sparse flag (02_words.md R55). -/
structure XWord where
  pred   : BitVec 3
  la     : BitVec 4
  desc   : BitVec 6
  scale  : BitVec 8
  selA   : BitVec 2
  selB   : BitVec 2
  kcount : BitVec 12
  split  : BitVec 5
  rm     : Bool
  tb     : Bool
  ta     : Bool
  det    : Bool
  chain  : Bool
deriving DecidableEq, Repr

/-- Fields of MZERO and MCFG (07_matrix.md R187, R188). -/
structure XCfg where
  pred  : BitVec 3
  la    : BitVec 4
  desc  : BitVec 6
  kind  : BitVec 2
  split : BitVec 5
  rm    : Bool
deriving DecidableEq, Repr

/-- The fields of an S word (02_words.md R56). -/
structure SWord where
  pred  : BitVec 3
  la    : BitVec 4
  r0    : BitVec 6
  r1    : BitVec 6
  r2    : BitVec 6
  count : BitVec 12
  step0 : BitVec 5
  step1 : BitVec 5
  step2 : BitVec 5
  sub   : BitVec 2
deriving DecidableEq, Repr

/-- Where QBIND takes its entry from (13_control_sync_ops.md R341, R356). -/
inductive QEntry
  | imm (e : BitVec 32)
  | reg (m : BitVec 6)
deriving DecidableEq, Repr

/-- Counters of RDCT (R360). -/
inductive Ctr | cycles | issued | sleep | lclock | nv | of | ic | sb
deriving DecidableEq, Repr

/-- Barrier levels (R355). -/
inductive BarLevel | block | cluster | die | package | pod
deriving DecidableEq, Repr

/-! Operands of Beam words -/

/-- A Beam register operand b0 to b15 (14_dispatch_lanterns.md R387). -/
abbrev BReg := BitVec 4

/-- Operand x of a Beam word: a register, or a 17-bit signed immediate (R387). -/
inductive BArg
  | reg (r : BReg)
  | imm (i : BitVec 17)
deriving DecidableEq, Repr

/-! Instructions and events -/

/-- The instruction set: every row of opcode_table.json is one constructor, in the table's order.
Rows 0 to 155 are device words of 64 bits, rows 156 to 178 are Beam words of 32 bits, and the
others are the steps of the machine that no word causes; those have no encoding. -/
inductive Instr
  -- device words: P and F (chapters 2, 3, 5, 6)
  | pairWord (h0 h1 : Half)
  | iadd (l : Bool) (o : FWord)
  | isub (l : Bool) (o : FWord)
  | imul (l : Bool) (o : FWord)
  | imulh (us l : Bool) (o : FWord)
  | imad (l : Bool) (o : FWord)
  | imin (us l : Bool) (o : FWord)
  | imax (us l : Bool) (o : FWord)
  | iabs (l : Bool) (o : FWord)
  | idiv (l us : Bool) (o : FWord)
  | irem (l us : Bool) (o : FWord)
  | and (l : Bool) (o : FWord)
  | or (l : Bool) (o : FWord)
  | xor (l : Bool) (o : FWord)
  | andn (l : Bool) (o : FWord)
  | shl (l : Bool) (o : FWord)
  | shr (l : Bool) (o : FWord)
  | sar (l : Bool) (o : FWord)
  | rotl (l : Bool) (o : FWord)
  | popc (l : Bool) (o : FWord)
  | clz (l : Bool) (o : FWord)
  | brev (l : Bool) (o : FWord)
  | bfx (l us : Bool) (o : FWord)
  | bfi (l : Bool) (o : FWord)
  | prmt (o : FWord)
  | mov (l : Bool) (o : FWord)
  | movi (l : Bool) (pred : BitVec 3) (dst : Dst) (imm : BitVec 17)
  | movh (pred : BitVec 3) (dst : Dst) (a : Src) (imm : BitVec 16)
  | lea (l : Bool) (o : FWord)
  | idx2 (o : FWord)
  | icmp (l us : Bool) (o : FWord)
  | icmpK (l us : Bool) (k : BitVec 3) (o : FSrc)
  | sel (l : Bool) (o : FWord)
  | fadd (f : Fmt) (o : FWord)
  | fsub (f : Fmt) (o : FWord)
  | fmul (f : Fmt) (o : FWord)
  | ffma (f : Fmt) (o : FWord)
  | fmin (f : Fmt) (o : FWord)
  | fmax (f : Fmt) (o : FWord)
  | frcp (f : Fmt) (o : FWord)
  | frsq (f : Fmt) (o : FWord)
  | fsqrt (f : Fmt) (o : FWord)
  | fdiv (f : Fmt) (o : FWord)
  | fex2 (f : Fmt) (o : FWord)
  | flg2 (f : Fmt) (o : FWord)
  | fsin (f : Fmt) (o : FWord)
  | fcos (f : Fmt) (o : FWord)
  | fldx (f : Fmt) (o : FWord)
  | frnd (f : Fmt) (rm : Rm) (o : FMode)
  | fcmp (f : Fmt) (o : FWord)
  | fcmpK (f : Fmt) (k : BitVec 3) (o : FSrc)
  | fcls (f : Fmt) (o : FWord)
  | lshfl (o : FWord)
  | lvote (m : Vote) (o : FMode)
  | lscan (l : Bool) (op : ScanOp) (excl : Bool) (o : FMode)
  | lred (l : Bool) (op : ScanOp) (o : FMode)
  | cvt (src dst : NumFmt) (rm : Rm) (us : Bool) (o : FMode)
  | cvts (src dst : NumFmt) (o : FMode) (c : Src)
  | qseed (pred : BitVec 3) (a : SArg)
  | qscl (f : BlkFmt) (o : FMode)
  | qpk4 (o : FWord)
  | qpk8 (e5 : Bool) (o : FWord)
  | qunp (f : BlkFmt) (o : FWord)
  | qhad (n : BitVec 2) (inv : Bool) (o : FMode) (c : SArg)
  -- S words (chapter 6)
  | swadd (o : SWord)
  | swmul (o : SWord)
  | swfma (o : SWord)
  | swmax (o : SWord)
  | swmin (o : SWord)
  | swcvt (o : SWord)
  | swexp (o : SWord)
  | swsum (o : SWord)
  | swcpy (o : SWord)
  | swset (o : SWord)
  -- M words (chapter 10)
  | ld (z : Size) (sx : Bool) (o : MWord)
  | st (z : Size) (o : MWord)
  | ldp (z : Size) (sx : Bool) (o : MWord)
  | stp (z : Size) (o : MWord)
  | pref (o : MWord)
  | wb (o : MWord)
  | inv (o : MWord)
  | fence (o : MWord)
  | wsig (d : Bool) (o : MWord)
  | waitln (o : MWord)
  | aadd (d : Bool) (o : MWord)
  | amin (us d : Bool) (o : MWord)
  | amax (us d : Bool) (o : MWord)
  | aand (d : Bool) (o : MWord)
  | aor (d : Bool) (o : MWord)
  | axor (d : Bool) (o : MWord)
  | axch (d : Bool) (o : MWord)
  | acas (d : Bool) (o : MWord)
  | acasQ (o : MWord)
  | ainc (d : Bool) (o : MWord)
  | afadd (f : Fmt) (o : MWord)
  | redAdd (d : Bool) (o : MWord)
  | redMin (us d : Bool) (o : MWord)
  | redMax (us d : Bool) (o : MWord)
  | redAnd (d : Bool) (o : MWord)
  | redOr (d : Bool) (o : MWord)
  | redXor (d : Bool) (o : MWord)
  | redInc (d : Bool) (o : MWord)
  | redFadd (f : Fmt) (o : MWord)
  | topen (o : MWord)
  | tacqR (o : MWord)
  | tacqW (o : MWord)
  | trel (o : MWord)
  | tsplit (o : MWord)
  | tjoin (o : MWord)
  | tclose (o : MWord)
  | tqry (o : MWord)
  -- engine words (chapter 11)
  | cpy (o : MWord)
  | gath (o : MWord)
  | scat (o : MWord)
  | coll (o : MWord)
  | ftst (o : MWord)
  | fwt (o : MWord)
  | fcan (o : MWord)
  -- X words (chapter 7)
  | mma (f : XFmt) (o : XWord)
  | mmsp (f : XFmt) (o : XWord)
  | mzero (o : XCfg)
  | mcfg (o : XCfg)
  | mres (sparse : Bool) (o : XWord)
  -- K words (chapter 13)
  | bra (target : BitVec 32)
  | brc (p : BitVec 3) (neg : Bool) (join : BitVec 18) (target : BitVec 32)
  | jtbl (p : BitVec 3) (idx : Reg) (tb : BitVec 6) (join count : BitVec 16)
  | call (link : BitVec 6) (target : BitVec 32)
  | ret (a : BitVec 6)
  | join
  | loopb (c : BitVec 6) (target : BitVec 32)
  | exit (p : BitVec 3)
  | idem (mask : BitVec 32)
  | nop (p : BitVec 3)
  | ipref (p : BitVec 3) (lines : BitVec 4) (target : BitVec 32)
  | bara (p : BitVec 3) (lvl : BarLevel) (i : BitVec 4)
  | barw (p : BitVec 3) (lvl : BarLevel) (i : BitVec 4)
  | bars (p : BitVec 3) (lvl : BarLevel) (i : BitVec 4)
  | qbind (p : BitVec 3) (q : BitVec 3) (e : QEntry)
  | qclose (p : BitVec 3) (q : BitVec 3)
  | qstat (p : BitVec 3) (d : BitVec 6) (q : BitVec 3)
  | queuePush (p : BitVec 3) (q : BitVec 3) (src : Reg)
  | queuePop (p : BitVec 3) (dst : Dst) (q : BitVec 3)
  | yield (p : BitVec 3) (n : BitVec 16)
  | trap (p : BitVec 3) (code : BitVec 16)
  | bkpt (p : BitVec 3) (code : BitVec 16)
  | svc (p : BitVec 3) (d a : BitVec 6) (service : BitVec 16)
  | pagesync (p : BitVec 3) (d a : BitVec 6)
  | rdsr (p : BitVec 3) (dst : Dst) (num : BitVec 8)
  | wrsr (p : BitVec 3) (num : BitVec 8) (src : SArg)
  | resume (p : BitVec 3) (src : BitVec 6)
  | abort (p : BitVec 3) (src : BitVec 6)
  | rdct (p : BitVec 3) (d : BitVec 6) (c : Ctr)
  | launch (p : BitVec 3) (dst : Dst) (base : BitVec 6) (idx : Reg)
  | quotaGive (p : BitVec 3) (n : BitVec 5)
  | quotaTake (p : BitVec 3) (n : BitVec 5)
  | isync (p : BitVec 3)
  -- Beam words (chapter 14)
  | beamLdi (d : BReg) (i : BitVec 22)
  | beamMov (d a : BReg)
  | beamAdd (d a : BReg) (x : BArg)
  | beamSub (d a : BReg) (x : BArg)
  | beamMul (d a : BReg) (x : BArg)
  | beamAnd (d a : BReg) (x : BArg)
  | beamOr (d a : BReg) (x : BArg)
  | beamXor (d a : BReg) (x : BArg)
  | beamShl (d a : BReg) (x : BArg)
  | beamShr (d a : BReg) (x : BArg)
  | beamMin (d a : BReg) (x : BArg)
  | beamMax (d a : BReg) (x : BArg)
  | beamClt (d a : BReg) (x : BArg)
  | beamCeq (d a : BReg) (x : BArg)
  | beamBf (a : BReg) (f : BitVec 8)
  | beamJf (f : BitVec 8)
  | beamLoop (n : BitVec 8)
  | beamEndl
  | beamCtr (d a : BReg) (c : BitVec 17)
  | beamMrd (d a : BReg) (x : BArg)
  | beamMwr (d a : BReg) (x : BArg)
  | beamDec (d : BReg)
  | beamRet
  -- events of groups and cores; a group is named by its key (Machine/State.lean)
  | trapEntry (g : Nat)
  | longLatencyComplete (g id : Nat)
  | coreClockGate (core : Nat)
  | yieldExpire (g : Nat)
  | waitlnTimeout (g : Nat)
  | logicalClockTick
  | podFloor (largest : BitVec 16)
  | ageingSweep (sector : Nat)
  | pageReclassify (tenant va : Nat)
  | pageSyncSweep (id : Nat)
  | tableWalk (die tenant va : Nat) (acc : BitVec 3)
  | matrixContributionArrival (id : Nat)
  | jobCardArrival (die slot : Nat)
  | jobDispatch (die slot engine : Nat)
  | jobEnd (die slot : Nat)
  | scrubGranule (store : Nat)
  -- events of dispatch
  | qsubmit (tenant queue : Nat) (v : BitVec 64)
  | submitAppend (tenant queue : Nat)
  | headerCheck (tenant queue : Nat)
  | lanternPick (sector : Nat)
  | blockRelease (place : Nat)
  | lanternBlock (sector tenant queue : Nat)
  | sliceEnd (part : Nat)
  | epochEnd (part : Nat)
  | drainDeadline (tenant queue : Nat)
  | preemptionTimeout (place : Nat)
  | shrinkDeadline (part : Nat)
  | switchSequencer (part : Nat)
  | gridRetire (tenant queue : Nat)
  | qgridAbort (tenant queue : Nat)
  -- events of policy and of partitions
  | lnload (fn : Nat) (v : BitVec 64)
  | lnloadUnload (fn point : Nat)
  | opbelCheckDone (fn : Nat)
  | pdmoorWrite (part : Nat) (v : BitVec 64)
  | tdpartWrite (tenant : Nat) (v : BitVec 64)
  | hvMooringAccess (word : Nat) (w : Option W32)
  | commit (part : Nat)
  | commitApply (part : Nat)
  | channelZeroingDone (channel : Nat)
  | featureMaskApply (part : Nat)
  | tds2inv (tenant : Nat) (v : BitVec 64)
  | tlbinv (tenant : Nat) (v : BitVec 64)
  | invalidationComplete (fn : Nat)
  | fqrespResolve (fn id : Nat)
  | fqrespFail (fn id : Nat)
  -- events of firmware and debug
  | attest (fn buf : Nat)
  | counters (fn buf : Nat)
  | clear (fn buf : Nat)
  | extend (fn buf : Nat)
  | debugRead (fn : Nat)
  | debugWrite (fn : Nat)
  | debugRelease (g : Nat)
  | registerWrite (fn off : Nat) (v : BitVec 64)
  -- events of the package
  | coldReset
  | warmReset
  | packageReset
  | vfFlr (tenant : Nat)
  | bootRomVerify (image : List Byte) (version : Nat)
  | serviceFirmwareVerify (image : List Byte) (version : Nat)
  | serviceBringup (failed : List Nat)
  | d3hotEntry
  | packageCut (cut : Nat)
  | thermalCutRaise
  | thermalCutLower
  | thermalHalt
  | tdispError (tenant : Nat)
  | atsInvalidation (page size : Nat)
  | priResponse (id : Nat) (ok : Bool)
  | hostWrite (addr : Nat) (data : List Byte)
  | hostRead (addr n : Nat)
  | flitRetry (port : Nat) (good : Bool)
  | writebackError (sector : Nat)
  | tagParityError (unit idx : Nat) (dir : Bool)
  | tdispRequest (tenant msg : Nat)
  | d3hotExit
  | d3coldEntry
  | qctlWrite (tenant queue : Nat) (v : BitVec 64)
  | fqctlHeadWrite (fn head : Nat)
  | poolChange (word : Nat) (v : BitVec 64)
  | vfEnable (tenant : Nat)
deriving DecidableEq, Repr

end Sys2Proof
end

