-- ==== Sys2Proof/Machine/Numbers.lean ====
section
/-! DEFINITION. The numbers of 04_numbers.md: formats, exact values, rounding, conversion, classes, the keyed sign generator and the Hadamard transform (R94 to R116), with the correctly rounded functions of 05_lane_scalar_ops.md R137. Values are exact: a dyadic number, an infinity or NaN. -/

namespace Sys2Proof

/-- The floating formats of R97. -/
inductive NF | f64 | f32 | f16 | bf16 | e5m2 | e4m3 | e2m1
deriving DecidableEq, Repr

/-- Mantissa width m (R97). -/
def NF.man : NF → Nat
  | .f64 => 52 | .f32 => 23 | .f16 => 10 | .bf16 => 7 | .e5m2 => 2 | .e4m3 => 3 | .e2m1 => 1
/-- Exponent width (R97). -/
def NF.expBits : NF → Nat
  | .f64 => 11 | .f32 => 8 | .f16 => 5 | .bf16 => 8 | .e5m2 => 5 | .e4m3 => 4 | .e2m1 => 2
/-- Bias (R97). -/
def NF.bias : NF → Int
  | .f64 => 1023 | .f32 => 127 | .f16 => 15 | .bf16 => 127 | .e5m2 => 15 | .e4m3 => 7 | .e2m1 => 1
/-- Width in bits. -/
def NF.width (f : NF) : Nat := 1 + f.expBits + f.man
/-- EMin = 1 - bias (R106). -/
def NF.emin (f : NF) : Int := 1 - f.bias
/-- Formats with infinities (R97). -/
def NF.hasInf : NF → Bool
  | .e4m3 | .e2m1 => false
  | _ => true
/-- The magnitude code of +infinity in a format that has one. -/
def NF.infCode (f : NF) : Nat := (2 ^ f.expBits - 1) * 2 ^ f.man
/-- The magnitude code of the largest finite value (R97, R98). -/
def NF.maxCode (f : NF) : Nat := if f.hasInf then f.infCode - 1 else 2 ^ (f.expBits + f.man) - 1
/-- Canonical NaN (R110); E2M1 has none and its place is never written. -/
def NF.nanCode : NF → Nat
  | .f64 => 0x7FF8000000000000 | .f32 => 0x7FC00000 | .f16 => 0x7E00 | .bf16 => 0x7FC0
  | .e5m2 => 0x7E | .e4m3 => 0x80 | .e2m1 => 0
/-- Formats without a code for -0 (R106). -/
def NF.noNegZero : NF → Bool
  | .e4m3 | .e2m1 => true
  | _ => false

/-- An exact value: NaN, an infinity, or (-1)^neg * m * 2^e; a zero keeps its sign. -/
inductive FVal
  | nan
  | inf (neg : Bool)
  | fin (neg : Bool) (m : Nat) (e : Int)
deriving DecidableEq, Repr

def FVal.isNan : FVal → Bool
  | .nan => true
  | _ => false
def FVal.isInf : FVal → Bool
  | .inf _ => true
  | _ => false
def FVal.isZero : FVal → Bool
  | .fin _ 0 _ => true
  | _ => false
def FVal.neg? : FVal → Bool
  | .nan => false
  | .inf n => n
  | .fin n _ _ => n
def FVal.negate : FVal → FVal
  | .nan => .nan
  | .inf n => .inf (!n)
  | .fin n m e => .fin (!n) m e
def FVal.abs : FVal → FVal
  | .nan => .nan
  | .inf _ => .inf false
  | .fin _ m e => .fin false m e
/-- Multiplication by a power of two, exact. -/
def FVal.scale (k : Int) : FVal → FVal
  | .fin n m e => .fin n m (e + k)
  | v => v
def FVal.ofInt (x : Int) : FVal := .fin (x < 0) x.natAbs 0

/-- Decode(fmt, code) (R97, R98, R121). -/
def fdec (f : NF) (code : Nat) : FVal :=
  let neg := code.testBit (f.expBits + f.man)
  let mag := code % 2 ^ (f.expBits + f.man)
  let E := mag / 2 ^ f.man
  let M := mag % 2 ^ f.man
  if f.hasInf && E = 2 ^ f.expBits - 1 then if M = 0 then .inf neg else .nan
  else if f.noNegZero && neg && mag = 0 then .nan
  else if E = 0 then .fin neg M (f.emin - f.man)
  else .fin neg (2 ^ f.man + M) (E - f.bias - f.man)

/-- A rounded code with its overflow event. -/
structure Rnd where
  code : Nat
  of   : Bool := false
deriving DecidableEq, Repr

/-- A code from a sign and a magnitude code (R106, Encode). -/
def signed (f : NF) (neg : Bool) (mag : Nat) : Nat :=
  if neg && !(f.noNegZero && mag = 0) then 2 ^ (f.expBits + f.man) + mag else mag

/-- Overflow(fmt, rm, sgn) (R107). -/
def overflow (f : NF) (rm : Rm) (neg : Bool) : Rnd :=
  let toInf := match f with
    | .e5m2 | .e4m3 | .e2m1 => false
    | _ => match rm with
      | .rne => true
      | .rz => false
      | .ru => !neg
      | .rd => neg
  ⟨signed f neg (if toInf then f.infCode else f.maxCode), true⟩

/-- The magnitude of `m * 2^e`, `m ≠ 0`, in units in the last place of `f`: exponent of the binade,
whole units, and twice the remaining fraction compared with one unit (R106: e, lo, and a - lo). -/
structure Units where
  ex   : Int
  lo   : Nat
  exact : Bool
  half : Ordering
deriving DecidableEq, Repr

def unitsOf (f : NF) (m : Nat) (e : Int) : Units :=
  let l : Nat := m.log2
  let ex := max (l + e) f.emin
  let sh := e - (ex - f.man)
  if 0 ≤ sh then ⟨ex, m <<< sh.toNat, true, .lt⟩
  else
    let k := (-sh).toNat
    if l + 1 < k then ⟨ex, 0, false, .lt⟩
    else
      let lo := m >>> k
      let r := m % 2 ^ k
      ⟨ex, lo, r = 0, compare (2 * r) (2 ^ k)⟩

/-- The magnitude code of `v` units at exponent `ex`. -/
def unitsCode (f : NF) (ex : Int) (v : Nat) : Nat := (ex - f.emin).toNat * 2 ^ f.man + v

/-- Round(x, fmt, rm) (R106). -/
def fround (f : NF) (rm : Rm) : FVal → Rnd
  | .nan => ⟨f.nanCode, false⟩
  | .inf neg =>
    if f.hasInf then ⟨signed f neg f.infCode, false⟩
    else if f = .e4m3 then ⟨f.nanCode, false⟩
    else ⟨signed f neg f.maxCode, false⟩
  | .fin neg m e =>
    if m = 0 then ⟨signed f neg 0, false⟩
    else
      let u := unitsOf f m e
      let up := !u.exact && (match rm with
        | .rne => (match u.half with
          | .lt => false
          | .gt => true
          | .eq => u.lo % 2 = 1)
        | .rz => false
        | .ru => !neg
        | .rd => neg)
      let v := if up then u.lo + 1 else u.lo
      let c := unitsCode f u.ex v
      if f.maxCode < c then overflow f rm neg else ⟨signed f neg c, false⟩

/-! The keyed sign generator -/

/-- Mix64(seed, idx) (R113). -/
def mix64 (seed idx : Nat) : Nat :=
  let z := (seed + (idx + 1) * 0x8D3C51F72E96B0A3) % 2 ^ 64
  let z := Nat.xor z (z >>> 31)
  let z := (z * 0xC6A13E5B79D24F8B) % 2 ^ 64
  let z := Nat.xor z (z >>> 29)
  let z := (z * 0x5F17E2C9A04BD365) % 2 ^ 64
  Nat.xor z (z >>> 32)

/-- SignBit(seed, i) (R114). -/
def signBit (seed i : Nat) : Bool := (mix64 seed (i / 64)).testBit (i % 64)

/-- SRound(x, fmt, seed, idx) (R108). -/
def sround (f : NF) (x : FVal) (seed idx : Nat) : Rnd :=
  match x with
  | .fin neg m e =>
    if m = 0 then fround f .rz x
    else
      let l : Nat := m.log2
      let ex := max (l + e) f.emin
      let sh := e - (ex - f.man)
      let lo := if 0 ≤ sh then m <<< sh.toNat else if l + 1 < (-sh).toNat then 0 else m >>> (-sh).toNat
      let t :=
        if 0 ≤ sh then 0
        else if l + 40 < (-sh).toNat then 0
        else ((m % 2 ^ (-sh).toNat) * 2 ^ 32) >>> (-sh).toNat
      let u := mix64 seed idx % 2 ^ 32
      let v := if u < t then lo + 1 else lo
      let c := unitsCode f ex v
      if f.maxCode < c then ⟨signed f neg f.maxCode, true⟩ else ⟨signed f neg c, false⟩
  | _ => fround f .rz x

/-! Exact arithmetic -/

/-- The exact value of a finite dyadic as an integer at exponent `e0 ≤ e`. -/
def atExp (neg : Bool) (m : Nat) (e e0 : Int) : Int :=
  let v : Int := ((m <<< (e - e0).toNat : Nat) : Int)
  if neg then -v else v

/-- The sum of two finite values, with the sign of a zero given by `nz`. -/
def finAdd (n1 : Bool) (m1 : Nat) (e1 : Int) (n2 : Bool) (m2 : Nat) (e2 : Int) : FVal :=
  if m1 = 0 && m2 = 0 then .fin (n1 && n2) 0 0
  else if m1 = 0 then .fin n2 m2 e2
  else if m2 = 0 then .fin n1 m1 e1
  else
    let e0 := min e1 e2
    let s := atExp n1 m1 e1 e0 + atExp n2 m2 e2 e0
    .fin (s < 0) s.natAbs e0

/-- The ExactSum of two terms (R115): +0 for a zero sum unless both terms are -0. -/
def FVal.add : FVal → FVal → FVal
  | .nan, _ | _, .nan => .nan
  | .inf a, .inf b => if a = b then .inf a else .nan
  | .inf a, _ | _, .inf a => .inf a
  | .fin n1 m1 e1, .fin n2 m2 e2 => finAdd n1 m1 e1 n2 m2 e2

/-- The exact product (07_matrix.md R177; R111). -/
def FVal.mul : FVal → FVal → FVal
  | .nan, _ | _, .nan => .nan
  | .inf a, .inf b => .inf (a != b)
  | .inf a, .fin b m _ | .fin b m _, .inf a => if m = 0 then .nan else .inf (a != b)
  | .fin n1 m1 e1, .fin n2 m2 e2 => .fin (n1 != n2) (m1 * m2) (e1 + e2)

/-- The ExactSum of a list of terms (R115). -/
def exactSum (ts : List FVal) : FVal :=
  if ts.any FVal.isNan || (ts.any (· == .inf true) && ts.any (· == .inf false)) then .nan
  else if ts.any FVal.isInf then .inf (ts.any (· == .inf true))
  else
    let fins := ts.filter (fun t => !t.isZero)
    match fins with
    | [] => .fin (!ts.isEmpty && ts.all FVal.neg?) 0 0
    | f :: fs => match fs.foldl FVal.add f with
      | .fin n m e => if m = 0 then .fin false 0 0 else .fin n m e
      | v => v

/-- The order of two values that are not NaN; zeros of both signs are equal (R132). -/
def FVal.cmp : FVal → FVal → Ordering
  | .inf a, .inf b => if a = b then .eq else if a then .lt else .gt
  | .inf a, _ => if a then .lt else .gt
  | _, .inf b => if b then .gt else .lt
  | .fin n1 m1 e1, .fin n2 m2 e2 =>
    let e0 := min e1 e2
    compare (atExp n1 m1 e1 e0) (atExp n2 m2 e2 e0)
  | _, _ => .eq

/-- A value with the same rounding as `num / den * 2^e` in every format: a quotient of 130 bits or
more and a sticky bit. -/
def quotient (neg : Bool) (num den : Nat) (e : Int) : FVal :=
  let k := 132 + den.log2
  let q := (num <<< k) / den
  let r := (num <<< k) % den
  .fin neg (2 * q + (if r = 0 then 0 else 1)) (e - k - 1)

/-- FDIV's value (05_lane_scalar_ops.md R137). -/
def FVal.div : FVal → FVal → FVal
  | .nan, _ | _, .nan => .nan
  | .inf _, .inf _ => .nan
  | .inf a, .fin b _ _ => .inf (a != b)
  | .fin a _ _, .inf b => .fin (a != b) 0 0
  | .fin n1 m1 e1, .fin n2 m2 e2 =>
    if m2 = 0 then if m1 = 0 then .nan else .inf (n1 != n2)
    else if m1 = 0 then .fin (n1 != n2) 0 0
    else quotient (n1 != n2) m1 m2 (e1 - e2)

/-- Integer square root by Newton's iteration from above. -/
def isqrtAux (n : Nat) : Nat → Nat → Nat
  | 0, x => x
  | fuel + 1, x =>
    let y := (x + n / x) / 2
    if x ≤ y then x else isqrtAux n fuel y

/-- The greatest integer whose square is at most `n`. -/
def isqrt (n : Nat) : Nat := if n = 0 then 0 else isqrtAux n (n.log2 + 8) (2 ^ (n.log2 / 2 + 1))

/-- FSQRT's value for a positive `m * 2^e`, with a sticky bit. -/
def sqrtPos (m : Nat) (e : Int) : FVal :=
  let odd : Nat := (e % 2).toNat
  let m' := m <<< (odd + 264)
  let r := isqrt m'
  .fin false (2 * r + (if r * r = m' then 0 else 1)) ((e - odd) / 2 - 132 - 1)

/-- FRSQ's value for a positive `m * 2^e`, with a sticky bit. -/
def rsqrtPos (m : Nat) (e : Int) : FVal :=
  let odd : Nat := (e % 2).toNat
  let m1 := m <<< odd
  let k := 132 + m1.log2
  let y := isqrt (2 ^ (2 * k) / m1)
  .fin false (2 * y + (if y * y * m1 = 2 ^ (2 * k) then 0 else 1)) (-((e - odd) / 2) - k - 1)

/-! Enclosures for the functions that are irrational off a few exact points. All values are integers
in units of `2^-p`; each computed value is below the true one by less than the stated error. -/

/-- Sum of the series of atanh(1/n) or atan(1/n): terms `t / (2k+1)`, `t` divided by `n²` each time. -/
def recipSeries (alt : Bool) (n2 : Nat) : Nat → Nat → Nat → Int → Int
  | 0, _, _, acc => acc
  | fuel + 1, k, t, acc =>
    let d : Int := (t / (2 * k + 1) : Nat)
    recipSeries alt n2 fuel (k + 1) (t / n2) (if alt && k % 2 = 1 then acc - d else acc + d)

/-- ln 2 within `2 p` units. -/
def ln2At (p : Nat) : Nat := (2 * recipSeries false 9 p 0 (2 ^ p / 3) 0).toNat

/-- π within `40 p` units, by Machin's formula. -/
def piAt (p : Nat) : Nat :=
  (16 * recipSeries true 25 p 0 (2 ^ p / 5) 0 - 4 * recipSeries true 57121 p 0 (2 ^ p / 239) 0).toNat

/-- The exponential series of `z` in units `2^-p`. -/
def expSeries (p z : Nat) : Nat → Nat → Nat → Nat → Nat
  | 0, _, _, acc => acc
  | fuel + 1, k, t, acc =>
    if t = 0 then acc else expSeries p z fuel (k + 1) (t * z / 2 ^ p / (k + 1)) (acc + t)

/-- sin or cos by its series from the term `t` of index `k`. -/
def trigSeries (p z2 : Nat) : Nat → Nat → Nat → Bool → Int → Int
  | 0, _, _, _, acc => acc
  | fuel + 1, k, t, neg, acc =>
    if t = 0 then acc
    else trigSeries p z2 fuel (k + 2) (t * z2 / 2 ^ p / ((k + 1) * (k + 2))) (!neg)
      (if neg then acc - t else acc + t)

/-- atanh(u) for `|u| ≤ 1/5`, by its series; `u` and its square in units `2^-p`. -/
def atanhSeries (p : Nat) (u2 : Nat) : Nat → Nat → Nat → Nat → Nat
  | 0, _, _, acc => acc
  | fuel + 1, k, t, acc =>
    if t = 0 then acc else atanhSeries p u2 fuel (k + 1) (t * u2 / 2 ^ p) (acc + t / (2 * k + 1))

/-- The rounding that both ends of an enclosure share, if they share one. -/
def agree (f : NF) (neg : Bool) (lo hi : Nat) (e : Int) : Option Rnd :=
  let a := fround f .rne (.fin neg lo e)
  if a = fround f .rne (.fin neg hi e) then some a else none

/-- The integer part of `m * 2^e` and its fraction in units `2^-p` (truncated). -/
def splitInt (m : Nat) (e : Int) (p : Nat) : Nat × Nat :=
  if 0 ≤ e then (m <<< e.toNat, 0)
  else
    let k := (-e).toNat
    (m >>> k, ((m % 2 ^ k) <<< p) >>> k)

/-- 2^x for finite nonzero x whose value is no integer, at precision `p`. -/
def exp2Try (f : NF) (neg : Bool) (m : Nat) (e : Int) (p : Nat) : Option Rnd :=
  let (n, fr) := splitInt m e p
  let z := fr * ln2At p / 2 ^ p
  -- for a negative x, 2^(-fr) = 1 / 2^fr
  let y := expSeries p z (4 * p) 0 (2 ^ p) 0
  let err := 32 * p
  if neg then agree f false (2 ^ (2 * p) / (y + err)) (2 ^ (2 * p) / y + 1) (-(n : Int) - p)
  else agree f false y (y + err) ((n : Int) - p)

/-- Whether `m * 2^e` is an integer multiple of `2^-j`. -/
def isMultiple (m : Nat) (e : Int) (j : Nat) : Bool :=
  if 0 ≤ e + j then true
  else if m.log2 < (-(e + j)).toNat then m = 0
  else m % 2 ^ (-(e + j)).toNat = 0

/-- Try growing precisions; the last resort is a value that nothing constrains (log 12). -/
def zivLoop (f : NF) (tag code : Nat) (try' : Nat → Option Rnd) : List Nat → Rnd
  | [] => ⟨Config.undecided tag code % 2 ^ f.width, false⟩
  | p :: ps => match try' p with
    | some r => r
    | none => zivLoop f tag code try' ps

/-- Precisions tried. -/
def precisions : List Nat := [128, 256, 512, 1024]

/-- Round(2^x, fmt, RNE) with x exact (R137, FEX2; 06_sweep_quantise.md R148, SWEXP). -/
def fexp2 (f : NF) (code : Nat) : FVal → Rnd
  | .nan => ⟨f.nanCode, false⟩
  | .inf true => ⟨0, false⟩
  | .inf false => ⟨f.infCode, false⟩
  | .fin neg m e =>
    if m = 0 then fround f .rne (.fin false 1 0)
    else if 13 ≤ (m.log2 : Int) + e then fround f .rne (.fin false 1 (if neg then -8192 else 8192))
    else if (m.log2 : Int) + e < -140 then fround f .rne (.fin false 1 0)
    else if isMultiple m e 0 then
      let n := (splitInt m e 0).1
      fround f .rne (.fin false 1 (if neg then -(n : Int) else n))
    else zivLoop f 0 code (exp2Try f neg m e) precisions

/-- log2 of a positive `m * 2^e` that is no power of two, at precision `p`. -/
def log2Try (f : NF) (m : Nat) (e : Int) (p : Nat) : Option Rnd :=
  let l := m.log2
  -- m = 2^l * (1 + ...); take mantissas from 3/4 to 3/2
  let big := 3 * 2 ^ l ≤ 2 * m
  let l' := if big then l + 1 else l
  let n : Int := l' + e
  -- u = (x - 1) / (x + 1) with x = m / 2^l'
  let neg := m < 2 ^ l'
  let num := if neg then 2 ^ l' - m else m - 2 ^ l'
  let p := p + (if num = 0 then 0 else l' - num.log2)
  let u := (num <<< p) / (m + 2 ^ l')
  let a := 2 * atanhSeries p (u * u / 2 ^ p) (4 * p) 0 u 0
  let err := 64 * p
  let ln := ln2At p
  -- log2 lies in [a / (ln + err), (a + err) / ln]
  let lo := (a <<< p) / (ln + err)
  let hi := ((a + err) <<< p) / ln + 1
  let s : Int := n * 2 ^ p
  let (x, y) : Int × Int := if neg then (s - hi, s - lo) else (s + lo, s + hi)
  if x < 0 && y < 0 then agree f true y.natAbs x.natAbs (-(p : Int))
  else if 0 < x then agree f false x.toNat y.toNat (-(p : Int))
  else none

/-- FLG2 (R137). -/
def flog2 (f : NF) (code : Nat) : FVal → Rnd
  | .nan => ⟨f.nanCode, false⟩
  | .inf neg => ⟨if neg then f.nanCode else f.infCode, false⟩
  | .fin neg m e =>
    if m = 0 then ⟨signed f true f.infCode, false⟩
    else if neg then ⟨f.nanCode, false⟩
    else if m = 2 ^ m.log2 then fround f .rne (FVal.ofInt ((m.log2 : Int) + e))
    else zivLoop f 1 code (log2Try f m e) precisions

/-- sin (or cos) of 2π s for `0 < s ≤ 1/8`, `s = m * 2^e`, with sign `neg`, at precision `p`. -/
def trigTry (f : NF) (cos neg : Bool) (m : Nat) (e : Int) (p : Nat) : Option Rnd :=
  let small := (-((m.log2 : Int) + e)).toNat
  let p := p + small
  let s := if 0 ≤ e + p then m <<< (e + p).toNat else m >>> (-(e + p)).toNat
  let z := 2 * s * piAt p / 2 ^ p
  let z2 := z * z / 2 ^ p
  let v := if cos then trigSeries p z2 (4 * p) 0 (2 ^ p) false 0 else trigSeries p z2 (4 * p) 1 z false 0
  let err := 128 * p
  if v ≤ err then none else agree f neg (v - err).toNat (v + err).toNat (-(p : Int))

/-- FSIN and FCOS in turns (R137). -/
def ftrig (f : NF) (cos : Bool) (code : Nat) : FVal → Rnd
  | .nan => ⟨f.nanCode, false⟩
  | .inf _ => ⟨f.nanCode, false⟩
  | .fin neg m e =>
    if m = 0 then
      if cos then fround f .rne (.fin false 1 0) else ⟨signed f neg 0, false⟩
    else
      -- the fraction of |x| as a multiple of 2^-k
      let k := (-e).toNat
      let fr := if 0 ≤ e then 0 else m % 2 ^ k
      -- in quarters of a turn: q, and the rest r * 2^-k below 1/4
      let k := k + 2
      let fr := fr * 4
      let q := fr / 2 ^ (k - 2)
      let r := fr % 2 ^ (k - 2)
      -- sine: sign of |x| turned by the sign of x; cosine is even
      let q' := if cos then (q + 1) % 4 else q
      let flip := (q' / 2 = 1) != (!cos && neg)
      if r = 0 then
        if q' % 2 = 0 then ⟨0, false⟩ else fround f .rne (.fin flip 1 0)
      else
        -- value = ± sin(2π r) for q' even, ± cos(2π r) for q' odd; beyond 1/8 use the complement
        let isCos := q' % 2 = 1
        let (isCos, r) := if 2 ^ (k - 3) < r then (!isCos, 2 ^ (k - 2) - r) else (isCos, r)
        zivLoop f (if cos then 3 else 2) code (trigTry f isCos flip r (-(k : Int))) precisions

/-! Integers, classes, blocks -/

/-- An integer conversion with its IC event. -/
structure IntRnd where
  val : Int
  ic  : Bool := false
deriving DecidableEq, Repr

/-- The range of an integer format (R99). -/
def intMin (n : Nat) (sg : Bool) : Int := if sg then -(2 ^ (n - 1) : Int) else 0
def intMax (n : Nat) (sg : Bool) : Int := if sg then (2 ^ (n - 1) : Int) - 1 else (2 ^ n : Int) - 1

/-- An integer clamped to a format's range; a clamp is an IC event. -/
def clampInt (x : Int) (n : Nat) (sg : Bool) : IntRnd :=
  if x < intMin n sg then ⟨intMin n sg, true⟩
  else if intMax n sg < x then ⟨intMax n sg, true⟩
  else ⟨x, false⟩

/-- The integer nearest to `m * 2^e` (sign `neg`) in the direction of `rm` (R109, R139). -/
def toInteger (rm : Rm) (neg : Bool) (m : Nat) (e : Int) : Int :=
  let mag : Nat :=
    if 0 ≤ e then m <<< e.toNat
    else
      let k := (-e).toNat
      if m.log2 + 1 < k then
        (match rm with
         | .ru => if !neg && m != 0 then 1 else 0
         | .rd => if neg && m != 0 then 1 else 0
         | _ => 0)
      else
        let lo := m >>> k
        let r := m % 2 ^ k
        let up := r != 0 && (match rm with
          | .rne => (match compare (2 * r) (2 ^ k) with
            | .lt => false
            | .gt => true
            | .eq => lo % 2 = 1)
          | .rz => false
          | .ru => !neg
          | .rd => neg)
        if up then lo + 1 else lo
  if neg then -(mag : Int) else mag

/-- RoundInt(x, n, signed, rm) (R109). Magnitudes beyond 2^70 clamp without being computed. -/
def roundInt (x : FVal) (n : Nat) (sg : Bool) (rm : Rm) : IntRnd :=
  match x with
  | .nan => ⟨0, true⟩
  | .inf neg => ⟨if neg then intMin n sg else intMax n sg, true⟩
  | .fin neg m e =>
    if m != 0 && 70 < (m.log2 : Int) + e then ⟨if neg then intMin n sg else intMax n sg, true⟩
    else clampInt (toInteger rm neg m e) n sg

/-- FClass(fmt, code) (R112). -/
def fclass (f : NF) (code : Nat) : Nat :=
  match fdec f code with
  | .nan =>
    if f = .e4m3 then 2 ^ 8
    else if code.testBit (f.man - 1) then 2 ^ 8 else 2 ^ 9
  | .inf neg => if neg then 2 ^ 0 else 2 ^ 7
  | .fin neg m e =>
    if m = 0 then if neg then 2 ^ 3 else 2 ^ 4
    else if m < 2 ^ f.man && e = f.emin - f.man then if neg then 2 ^ 2 else 2 ^ 5
    else if neg then 2 ^ 1 else 2 ^ 6

/-- DecodeZ4(c, X, Y) (R101). -/
def decodeZ4 (c x y : Nat) : FVal :=
  if x = 0xFF then .nan
  else if c = 8 then (if y = 0x80 then .nan else (fdec .e4m3 y).scale ((x : Int) - 127))
  else (fdec .e2m1 c).scale ((x : Int) - 127)

/-- A block-scaled 8-bit element (R102). -/
def decodeBlk (f : NF) (c x : Nat) : FVal :=
  if x = 0xFF then .nan else (fdec f c).scale ((x : Int) - 127)

/-- HadC(n) for n = 32 and 128 (R115). -/
def hadC (n : Nat) : FVal := fdec .f32 (if n = 32 then 0x3E3504F3 else 0x3DB504F3)

def popCount : Nat → Nat → Nat
  | 0, _ => 0
  | n + 1, x => x % 2 + popCount n (x / 2)

/-- Row `i` of Hadamard(x, n, seed, i0) (R115): its code and its events; `sign j` is the sign bit of element j. -/
def hadRow (n : Nat) (sign : Nat → Bool) (xs : List FVal) (i : Nat) : Rnd :=
  let terms := xs.zipIdx.map fun (x, j) =>
    let s := sign j != ((popCount 7 (Nat.land i j)) % 2 = 1)
    if s then x.negate else x
  let acc := exactSum terms
  if n = 16 then fround .f32 .rne (acc.scale (-2))
  else if n = 64 then fround .f32 .rne (acc.scale (-3))
  else
    let r := fround .f32 .rne acc
    let s := fround .f32 .rne ((fdec .f32 r.code).mul (hadC n))
    ⟨s.code, r.of || s.of⟩

end Sys2Proof
end

