-- ==== Sys2Proof/Machine/Tab.lean ====
section
/-! DEFINITION. Tables of plain data: lists of (key, value) pairs in one canonical form, keys strictly rising and no entry equal to what an unlisted key reads as. Memory is such a table of bytes. -/

namespace Sys2Proof.Machine

/-- A table keyed by numbers. -/
abbrev Tab (α : Type) := List (Nat × α)

variable {α : Type}

/-- The listed value at a key. -/
def tlook (k : Nat) : Tab α → Option α
  | [] => none
  | (j, v) :: t => if j = k then some v else if k < j then none else tlook k t

/-- The value at a key; an unlisted key reads as `d`. -/
def tget (d : α) (t : Tab α) (k : Nat) : α := (tlook k t).getD d

/-- The table without a key. -/
def tdel (k : Nat) : Tab α → Tab α
  | [] => []
  | (j, v) :: t => if j = k then t else if k < j then (j, v) :: t else (j, v) :: tdel k t

/-- The table with a value listed at a key. -/
def tset (k : Nat) (x : α) : Tab α → Tab α
  | [] => [(k, x)]
  | (j, v) :: t =>
    if j = k then (k, x) :: t else if k < j then (k, x) :: (j, v) :: t else (j, v) :: tset k x t

/-- A write where unlisted keys read as `d`: writing `d` removes the entry. -/
def tput [DecidableEq α] (d : α) (t : Tab α) (k : Nat) (x : α) : Tab α :=
  if x = d then tdel k t else tset k x t

/-- Whether a key is listed. -/
def thas (t : Tab α) (k : Nat) : Bool := (tlook k t).isSome

/-- The entries with keys from `lo` up to `hi`, `hi` excluded. -/
def trange (t : Tab α) (lo hi : Nat) : Tab α := t.filter fun e => lo ≤ e.1 && e.1 < hi

/-- Keys strictly rising, all above `lo` where `lo` is given. -/
def tsorted : Option Nat → Tab α → Bool
  | _, [] => true
  | lo, (k, _) :: t => (match lo with
    | none => true
    | some l => decide (l < k)) && tsorted (some k) t

/-- The canonical form. -/
def tcanon [DecidableEq α] (d : α) (t : Tab α) : Bool :=
  tsorted none t && t.all fun e => decide (e.2 ≠ d)

end Sys2Proof.Machine
end

