-- ==== Sys2Proof/Machine/Parts.lean ====
section
/-! DEFINITION. The parts of the state that belong to groups, blocks, quads and cores: slots, traps, outstanding instructions, barriers, rings, quota, the instruction buffer and the copies a core keeps. -/

namespace Sys2Proof.Machine

/-- A granule of a core store or of a die store: 64 bytes and a 12-bit tag (15_isolation.md R419). -/
structure Granule where
  tag  : Nat
  data : BitVec 512
deriving DecidableEq, Repr

/-- After reset every tag is 0 and every granule holds zeros (R419). -/
def Granule.clean : Granule := ⟨0, 0⟩

/-- A program-counter slot (12_groups_progress.md R321). -/
structure Slot where
  pc   : W64 := 0
  mask : Mask := 0
  join : Option Nat := none
deriving DecidableEq, Repr

/-- What a trap reports (16_recovery.md R433, R438). -/
structure TrapInfo where
  cause : Nat
  sub   : Nat := 0
  addr  : W64 := 0
  perf  : Bool := false
  part  : Bool := false
deriving DecidableEq, Repr

/-- A recorded instruction: its address, slot and lanes (R439, R442). -/
structure Recorded where
  pc    : W64
  slotB : Bool
  mask  : Mask
  /-- number of the outstanding word that it was; none for a word that had not issued -/
  num   : Option Nat := none
deriving DecidableEq, Repr

/-- What an asleep group waits for (12_groups_progress.md R339). -/
inductive Wait
  /-- the phase of a barrier: its level, key and index, and whether the word has arrived and is outstanding (BARS) -/
  | phase (lvl key idx : Nat) (out : Bool)
  /-- a step of the ring with this key -/
  | ring (key : Nat)
  /-- a job's end: die and slot of its future; an FWT's destination (a future hold has none) -/
  | future (die slot : Nat) (dst : Option Nat)
  /-- WAITLN: the line (address over 128), whether of a local space, the result register, the cycle of the timeout,
  the sectors (1, 2 or 3 for both) whose leases it watches, 0 where ticks of the clock are its events, and the line's virtual
  address over 128 -/
  | line (pa : Nat) (localLine : Bool) (dst : Nat) (till : Nat) (watch : Nat) (va : Nat)
  /-- the answer of a pending fault: its function and ID, and the virtual page of the access that waits -/
  | fault (fn id page : Nat)
  /-- tenure, or a tile under request -/
  | tile (slice entry : Nat)
  /-- the reply of a service call -/
  | reply (dst : Nat) (arg : W64) (service : Nat)
  /-- room in a queue of the tenant -/
  | room (queue : Nat)
  /-- units of the block's quota pool -/
  | units
  /-- the completion of its other outstanding instructions -/
  | drain
  /-- release by the debugger -/
  | debug
  /-- an L2 slice's matrix record or buffer -/
  | matrix
  /-- an event of a home slice: floor, reclassification, synchronisation -/
  | home
deriving DecidableEq, Repr

/-- An asleep group: what it waits for, since when. -/
structure Sleep where
  on    : Wait
  since : Nat
deriving DecidableEq, Repr

/-- The WAKEWHY cause of a sleep that its event ended (R23, R339). -/
def Wait.cause : Wait → Nat
  | .phase _ _ _ _ => 2
  | .ring _ => 3
  | .future _ _ _ => 4
  | .line _ _ _ _ _ _ => 5
  | .fault _ _ _ => 7
  | .tile _ _ => 8
  | .debug => 10
  | _ => 1

/-- Whether the word that waits is outstanding: its wait ends with its completion. The word of any other wait issues
again when the sleep ends. -/
def Wait.out : Wait → Bool
  | .phase _ _ _ out => out
  | .future _ _ dst => dst.isSome
  | .ring _ | .line _ _ _ _ _ _ | .reply _ _ _ | .units => true
  | _ => false

/-- A register of a group, as the scoreboard names it (02_words.md R63). -/
inductive RKey | v (n : Nat) | s (m : Nat) | k (j : Nat)
deriving DecidableEq, Repr

/-- Bytes that an access names: address, length, whether it writes (02_words.md R64). -/
structure Span where
  addr : Nat
  len  : Nat
  wr   : Bool
deriving DecidableEq, Repr

/-- What an outstanding word holds back of its group's later accesses (08_ordering_model.md R216, R218, R223): nothing, their writes
(a release fence), all of them (an acquire), all of them and its completion acts as an acquire of all that came before (an acquire fence,
and the accesses that preceded one). -/
inductive Fence | no | writes | all | acquire
deriving DecidableEq, Repr

/-- An outstanding long-latency word (02_words.md R62 to R67): its address, slot, lanes, the operand
values it read at issue, how many more words may issue before it completes, the bytes it names, the registers it is still to
write, those held against writing (06_sweep_quantise.md R152), what it holds back of later accesses, and whether it is a
release, which waits for the accesses before it (R216). -/
structure Pend where
  id    : Nat
  pc    : W64
  slotB : Bool
  mask  : Mask
  instr : Instr
  vals  : List (List Nat)
  left  : Nat
  spans : List Span := []
  wr    : List RKey := []
  kept  : List RKey := []
  fence : Fence := .no
  after : Bool := false
  /-- done but for the delivery of the chain that it closed (07_matrix.md R486) -/
  fin   : Bool := false
deriving DecidableEq, Repr

/-- The generations and stale-read modes of a group (01_machine.md R24). -/
structure Gens where
  rw  : Nat := 0
  sp  : Nat := 0
  qm  : Nat := 0
  ds  : Nat := 0
  trw : Bool := false
  tsp : Bool := false
  tqm : Bool := false
  tds : Bool := false
deriving DecidableEq, Repr

/-- A matrix chain or a word's partial (07_matrix.md R174, R178, R181): format, split, merge order, the latest word's
snapshot (descriptor, scales, row mask) and the partial's elements, element (r, c) at 128 r + c; the elements of
rows not started are not listed. -/
structure Chain where
  fmt    : XFmt
  split  : Nat
  det    : Bool
  desc   : List Nat
  scales : List Nat
  rows   : Mask
  elems  : Tab Nat
deriving DecidableEq, Repr

/-- What the matrix save area of a group holds (R198, R444), whether it is a pending delivery (R486), and the events that the interrupted
instruction has counted (R180). -/
structure MxSave where
  chain   : Option Chain := none
  deliver : Bool := false
  ev      : Ev := {}
deriving DecidableEq, Repr

/-- What governs an MMA or MMSP: the opcode's format, the flags and fields, and its snapshot (07_matrix.md R170 to R174). -/
structure MatWord where
  f      : XFmt
  sparse : Bool
  ta     : Bool
  tb     : Bool
  kcount : Nat
  selA   : Nat
  selB   : Nat
  desc   : List Nat
  scales : List Nat
deriving DecidableEq, Repr

/-- A word in the queue of a core's matrix unit (07_matrix.md R184, R197): the group, the number of its outstanding word, the word as
encoded, the rows still to perform and the whole row mask, whether the unit has begun it, the chain that it found, its partial so
far, the values of B once they have been read (by K-block, column and k), the events it has met, whether it resumes from ROWPROG, and
the fault that it waits for. -/
structure XWork where
  gk      : Nat
  pid     : Nat
  word    : Nat
  w       : MatWord
  rows    : List Nat
  all     : Mask
  split   : Nat
  det     : Bool
  chain   : Bool
  begun   : Bool := false
  base    : Option Chain := none
  part    : Tab Nat := []
  bvals   : Option (List (List (List FVal))) := none
  ev      : Ev := {}
  resumed : Bool := false
  stuck   : Option (Nat × Nat × Nat) := none
deriving DecidableEq, Repr

/-- An operand of a sweep (06_sweep_quantise.md R146): base, byte step, bytes of a segment, segments, whether it is written. -/
structure Foot where
  base  : Nat
  step  : Nat
  size  : Nat
  count : Nat
  write : Bool
deriving DecidableEq, Repr

/-- A sweep in a core's sweep unit (06_sweep_quantise.md R152 to R155): the group, the number of its outstanding word, opcode and
sub-format, operands D, A and B, the value that SWSET writes, the next iteration and their number, SWSUM's sum so far, the
events met and those counted before, whether the unit has begun it, and whether it resumes from ROWPROG. -/
structure SWork where
  gk    : Nat
  pid   : Nat
  op    : Nat
  sub   : Nat
  d     : Foot
  a     : Foot
  b     : Foot
  v     : Nat
  next  : Nat
  count : Nat
  sum   : Option Nat := none
  ev    : Ev := {}
  had   : Ev := {}
  begun : Bool := false
  again : Bool := false
deriving DecidableEq, Repr

/-- What an interrupted sweep has done besides its writes (06_sweep_quantise.md R148, R154): the sum of an SWSUM's iterations (log 83), and
the events that it has counted. -/
structure SwSave where
  sum : Option Nat := none
  ev  : Ev := {}
deriving DecidableEq, Repr

/-- A reference of a slot to a line of the instruction buffer (R328), with the old copy where the buffer has fetched the
line afresh since (R329). -/
structure Ref where
  slotB : Bool
  line  : Nat
  old   : Option (BitVec 1024) := none
deriving DecidableEq, Repr

/-- A resident group (01_machine.md R9 to R35). -/
structure Group where
  width    : Nat
  a        : Slot := {}
  b        : Slot := {}
  /-- divergence-stack depth SP -/
  sp       : Nat := 0
  /-- first granules, in the core store, of its units of eight registers (R19, R337) -/
  units    : List Nat := []
  gens     : Gens := {}
  /-- the control area as 256 words of 64 bits: scalars 0 to 63, predicate j at 64 + 2j, binding of q j at
  80 + 2j, trap frame at 96, divergence-stack entry i at 128 + 4i (R27) -/
  ctl      : Tab W64 := []
  seed     : W64 := 0
  trapPc   : W64 := 0
  trapAddr : W64 := 0
  trapCause : W64 := 0
  rowprog  : W64 := 0
  wakewhy  : W64 := 0
  /-- SP held at trap entry, in handler mode (16_recovery.md R436) -/
  handler  : Option Nat := none
  ended    : Bool := false
  regionOpen : Bool := true
  /-- outstanding long-latency words in program order -/
  pend     : List Pend := []
  nextId   : Nat := 0
  /-- recorded entries to re-issue after RESUME, in order (R440) -/
  replay   : List Recorded := []
  /-- the replay masks of the frame's list (16_recovery.md R442) -/
  masks    : List Mask := []
  /-- a trap that waits for the other outstanding words, with its instruction first and the held ones after (R435) -/
  trapping : Option (TrapInfo × List Recorded) := none
  asleep   : Option Sleep := none
  /-- YIELD: not ready before this cycle; not kept (R358) -/
  yieldTill : Nat := 0
  yielded  : Bool := false
  age      : Nat := 0
  lastB    : Bool := false
  readyAt  : Nat := 0
  issued   : Nat := 0
  slept    : Nat := 0
  futures  : Nat := 0
  /-- scalar registers under a future hold: register, die, slot (11_engines_futures.md R297) -/
  holds    : List (Nat × Nat × Nat) := []
  /-- for each barrier (level * 16 + index) the phase of its last arrival (12_groups_progress.md R336) -/
  arrived  : Tab Bool := []
  chain    : Option Chain := none
  mx       : MxSave := {}
  /-- a chain that a trap found open: one with DET = 1, to restore, or one whose flush was refused (07_matrix.md R182, R198) -/
  kept     : Option Chain := none
  swept    : SwSave := {}
  /-- writes of the hardware into the group's part of the save region that are still to perform: offset, words (16_recovery.md R442) -/
  due      : List (Nat × List Nat) := []
  /-- debug stop armed off for the next BKPT after a release (13_control_sync_ops.md R361) -/
  released : Bool := false
  /-- lanes of a waiting LAUNCH already served (R363) -/
  launched : Mask := 0
  /-- the record that a waiting LAUNCH has read -/
  launchRec : List Nat := []
  /-- a pre-emption request is in force and the group has stopped (16_recovery.md R449) -/
  stopped  : Bool := false
  preempt  : Bool := false
  /-- references of the slots, and the loops that they are in: slot, first and last address (R328) -/
  refs     : List Ref := []
  loops    : List (Bool × Nat × Nat) := []
  /-- failed faults: virtual pages whose answer was FAIL, met by the next check (15_isolation.md R418) -/
  failed   : List Nat := []
deriving DecidableEq, Repr

/-- A waiting queue step (R331): 0 push, 1 pop or 2 close, its group, its word's address and slot, its active lanes, its
destination or its data, and the binding entry of its queue register. -/
structure RingWait where
  gk    : Nat
  kind  : Nat
  pc    : W64
  slotB : Bool
  mask  : Mask
  dst   : Option Dst := none
  data  : Nat := 0
  entry : Nat := 0
deriving DecidableEq, Repr

/-- A barrier: the groups arrived at the current phase and the phase bit (R335). -/
structure Barrier where
  arrived : List Nat := []
  phase   : Bool := false
deriving DecidableEq, Repr

/-- The kernel header, decoded (01_machine.md R32, R33). -/
structure Hdr where
  width     : Nat
  regs      : Nat
  groups    : Nat
  cluster   : Nat
  stale     : Nat
  scratch   : Nat
  lp        : Nat
  qmem      : Nat
  dstore    : Nat
  barriers  : List Nat
  bindings  : List Nat
  trap      : Nat
  entry     : Nat
  classes   : Nat
  stepping  : Nat
  fallback  : Nat
deriving DecidableEq, Repr

/-- Pre-emption of a block in force: the cycle it began, and whether a shrink caused it (16_recovery.md R449, R452). -/
structure Preempt where
  since  : Nat
  shrink : Bool
deriving DecidableEq, Repr

/-- A placed block (01_machine.md R15, R17, R22). -/
structure Block where
  /-- queue key of its grid -/
  grid    : Nat
  blk     : Nat
  clu     : Nat
  pos     : Nat
  /-- first granule of its place in the core store -/
  base    : Nat
  gsp     : Nat
  gpool   : Nat
  /-- the quad-memory slot of its cluster -/
  slot    : Nat := 0
  live    : List Nat := []
  /-- control areas of ended groups: the register window still reaches them (R27) -/
  areas   : Tab (Tab W64) := []
  /-- quota pool: first granules of its units (12_groups_progress.md R337) -/
  pool    : List Nat := []
  takes   : List (Nat × Nat) := []
  bars    : Tab Barrier := []
  placedAt : Nat := 0
  /-- the cycle from which it may be released, until it is (14_dispatch_lanterns.md R380) -/
  releaseAt : Option Nat := none
  /-- address of its block slot (16_recovery.md R442) -/
  save    : Nat := 0
  preempt : Option Preempt := none
deriving DecidableEq, Repr

/-- A cluster in a quad: its grid, number, quad-memory slot and generation, barriers (R30, R335). -/
structure Cluster where
  grid : Nat
  clu  : Nat
  slot : Nat
  gqm  : Nat
  bars : Tab Barrier := []
  ended : List Nat := []
deriving DecidableEq, Repr

/-- A leased or untracked copy of a sector (08_ordering_model.md R208; 09_tiles_leases.md R254). -/
structure Copy where
  data  : BitVec 512
  wts   : Nat
  lend  : Nat
  dirty : BitVec 64
  sm    : Bool
  evp   : Nat
  /-- the lease has ended: a copy stays expired, however far the clock moves (R254) -/
  ended : Bool
deriving DecidableEq, Repr

/-- A generation counter (15_isolation.md R419, R422): the next value, the values held, and for each value
last held, the passes that the scrubber of each store had begun when it ended. -/
structure GenCtr where
  next  : Nat := 1
  held  : List Nat := []
  ended : Tab (List Nat) := []
deriving DecidableEq, Repr

/-- A quad: clusters, quad-unit copies and clock, generation counter. -/
structure Quad where
  clusters : List Cluster := []
  copies   : Tab Copy := []
  qc       : Nat := 0
  gen      : GenCtr := {}
deriving DecidableEq, Repr

/-- A line of an instruction buffer (R328, R329): the copy, its tenant, and whether it is stale. -/
structure Line where
  tenant : Nat
  data   : BitVec 1024
  pa     : Nat
  stale  : Bool
deriving DecidableEq, Repr

/-- A TLB entry: a page of a tenant, its mapping and attributes (R414, R416). -/
structure Tlb where
  tenant : Nat
  vpn    : Nat
  log2   : Nat
  pa     : Nat
  perm   : Nat
  w1     : Nat
  gpa    : Nat
deriving DecidableEq, Repr

/-- What a pass asks a shared port for (02_words.md R68): the bank of a granule of the core's store, or the matrix,
engine or sweep port. -/
inductive Want | granule (k : Nat) | matrix | engine | sweep
deriving DecidableEq, Repr

/-- The request of a quadrant that stands at the ports of its core (R68): the word's group and slot, the cycle in which it
arrived, what this pass asks for and the later passes ask for, the issue cycles of a pass, whether the word has begun (if
not, it lost a port and replays), whether the request was granted in this cycle, and the cycle in which it was last made. -/
structure Ask where
  gk      : Nat
  slotB   : Bool
  arrived : Nat
  wants   : List Want
  later   : List (List Want) := []
  every   : Nat := 1
  begun   : Bool := true
  won     : Bool := true
  tried   : Nat := 0
deriving DecidableEq, Repr

/-- A core: its grid's places, clock offset, copies, counters, instruction buffer, TLB. -/
structure Core where
  /-- the grid it is configured for, and its number of places (R15) -/
  grid    : Option Nat := none
  places  : Nat := 0
  lc      : Nat := 0
  /-- the latest WTS of a value that its loads have read, as an offset like its clock (log 22) -/
  seen    : Nat := 0
  copies  : Tab Copy := []
  events  : Events := {}
  ibuf    : Tab Line := []
  tlb     : List Tlb := []
  gated   : Bool := false
  /-- the cycle from which the core has been idle: no group of it ready, no work in its units and ports (12_groups_progress.md R340) -/
  idle    : Nat := 0
  /-- rotating port pointer P (02_words.md R68) -/
  port    : Nat := 0
  /-- the requests of its quadrants at the ports (R68) -/
  asks    : Tab Ask := []
  /-- the cycle in which a wake last started its clock, with the cause and the group recorded (01_machine.md R23) -/
  woke    : Option (Nat × Nat × Nat) := none
  /-- last group to begin a word in each quadrant -/
  last    : Tab Nat := []
  /-- operand-reuse latches (12_groups_progress.md R319): by 3 * quadrant + source position, the group and register -/
  latches : Tab (Nat × Nat) := []
  /-- scrubber: next granule and passes begun (R422) -/
  scrub   : Nat := 0
  passes  : Nat := 0
  /-- the queues of its matrix unit (07_matrix.md R184) and of its sweep unit (06_sweep_quantise.md R155) -/
  mx      : List XWork := []
  sw      : List SWork := []
deriving DecidableEq, Repr

end Sys2Proof.Machine
end

