-- ==== Sys2Proof/Machine/Units.lean ====
section
/-! DEFINITION. The parts of the state that belong to home slices, dies, dispatch, Lanterns, partitions, functions and the package. -/

namespace Sys2Proof.Machine

/-- Write and read timestamps of a sector at its home (09_tiles_leases.md R253). -/
structure Stamps where
  wts : Nat
  rts : Nat
  /-- the home slice that holds the sector -/
  home : Nat
deriving DecidableEq, Repr

/-- An agent's identity (R238): a group, or the job of a die's future slot, with its grid's queue key and sequence number. -/
inductive Who
  | group (gk : Nat)
  | job (die slot : Nat)
deriving DecidableEq, Repr

structure Agent where
  who  : Who
  grid : Nat
  seq  : Nat
deriving DecidableEq, Repr

/-- A tile descriptor (R234): base, element size, rank, extents, strides S1 to S3. -/
structure TileDesc where
  base : Nat
  z    : Nat
  rank : Nat
  ext  : List Nat
  str  : List Nat
deriving DecidableEq, Repr

/-- States of a directory entry (R238); a free entry is not listed. -/
inductive TState | opened | read | write | splitR | splitW
deriving DecidableEq, Repr

/-- A directory entry in use (R238). -/
structure Entry where
  desc    : TileDesc
  tenant  : Nat
  grid    : Nat
  seq     : Nat
  rights  : Nat
  state   : TState
  holders : List Agent := []
  /-- the agent that split it, in a SPLIT state (R247) -/
  splitter : Option Agent := none
  parent  : Option (Nat × Nat) := none
  level   : Nat := 0
  reserved : Nat := 0
  /-- saved sectors by virtual address over 64, and where their bytes lie -/
  saved   : Tab (BitVec 512) := []
  savedPa : Tab Nat := []
deriving DecidableEq, Repr

/-- A waiting tenure request or join (R241, R249). -/
structure TReq where
  entry : Nat
  pid   : Nat
  who   : Agent
  write : Bool
  join  : Bool
  gk    : Nat
  dst   : Nat
deriving DecidableEq, Repr

/-- A home slice: clock offset, MAXEV, counters, directory. -/
structure Home where
  hc       : Nat := 0
  maxev    : Nat := 0
  retry    : Nat := 0
  tenwait  : Nat := 0
  merge    : Nat := 0
  renew    : Nat := 0
  aged     : Nat := 0
  /-- one more than the cycle in which a request was last taken (R263) -/
  taken    : Nat := 0
  entries  : Tab Entry := []
  gens     : Tab Nat := []
  /-- entries freed, in order, after those never taken from `fresh` on (R250) -/
  fresh    : Nat := 0
  freed    : List Nat := []
  waiting  : List TReq := []
deriving DecidableEq, Repr

/-- A job's card and progress (11_engines_futures.md R292): kind (0 CPY, 1 GATH, 2 SCAT, 3 COLL), mode, register
block, eviction priority, group, core, destination register, agent, die-store generation and mode, place in the order
of issue; once arrived, its footprint (write flag and 256-byte units), dependences and place in the order of arrival;
once started, its engine, the rows taken from its tiles, and COUNT so far; the status it ends with. -/
structure Job where
  kind    : Nat
  mode    : Nat
  regs    : List Nat
  evict   : Nat
  gk      : Nat
  core    : Nat
  dst     : Nat
  agent   : Agent
  tenant  : Nat
  gds     : Nat
  tds     : Bool
  num     : Nat
  arrived : Option Nat := none
  stale   : Bool := false
  feet    : List (Bool × Nat × Nat) := []
  deps    : List (Nat × Nat) := []
  engine  : Option Nat := none
  stile   : Option TileDesc := none
  dtile   : Option TileDesc := none
  count   : Nat := 0
  ev      : Ev := {}
  paused  : Bool := false
  waits   : Option (Nat × Nat × Nat) := none
  failed  : List Nat := []
  status  : Option Nat := none
  /-- numbers of the words of its group that were outstanding at its issue and access memory (08_ordering_model.md R227) -/
  before  : List Nat := []
deriving DecidableEq, Repr

/-- A future slot (R298): generation, completion value of its last job, whether it is free, the grid that took it last. -/
structure FSlot where
  gen   : Nat := 0
  value : Option Nat := none
  free  : Bool := true
  grid  : Option (Nat × Nat) := none
deriving DecidableEq, Repr

/-- A compute die: shared TLB, future table, jobs in flight, generation counter and scrubber of its die stores. -/
structure Die where
  tlb     : List Tlb := []
  slots   : Tab FSlot := []
  fresh   : Nat := 0
  freed   : List Nat := []
  jobs    : Tab Job := []
  issues  : Nat := 0
  arrivals : Nat := 0
  gen     : GenCtr := {}
  scrub   : Nat := 0
  passes  : Nat := 0
deriving DecidableEq, Repr

/-- A contribution on its way to its L2 slice, or held there (07_matrix.md R185, R189, R190): its group and the
outstanding word that made it, its partial, whether it is held, in a merge buffer or in the spill area; the outstanding word that
closed its chain (R486), the word as encoded, the events that the word has counted, the chain that it found, whether it
resumed from ROWPROG, and the fault that the contribution waits for. -/
structure Contrib where
  gk      : Nat
  tenant  : Nat
  pid     : Option Nat := none
  chain   : Chain
  held    : Bool := false
  spilled : Bool := false
  closes  : Option Nat := none
  word    : Nat := 0
  ev      : Ev := {}
  base    : Option Chain := none
  resumed : Bool := false
  stuck   : Option (Nat × Nat × Nat) := none
deriving DecidableEq, Repr

/-- An accumulator record (R188): its grid, kind, S, next index e, spill address, held contributions by index. -/
structure AccRec where
  tenant : Nat
  caddr  : Nat
  grid   : Nat
  seq    : Nat
  kind   : Nat
  splits : Nat
  next   : Nat
  spill  : Nat
  held   : Tab Nat := []
deriving DecidableEq, Repr

/-- States of a grid (14_dispatch_lanterns.md R375, 16_recovery.md R453). -/
inductive GState | waiting | ready | running | draining | saved
deriving DecidableEq, Repr

/-- A launch record (14_dispatch_lanterns.md R371): its 64 bytes as words, and its sequence number. -/
structure LRec where
  words : List Nat
  seq   : Nat
  /-- the priority that ENQ or WAKE has written (R383) -/
  prio  : Option Nat := none
  /-- the cause with which a kill or a reset of its function retires it (16_recovery.md R455, 17_host_fabric.md R469) -/
  doom  : Option Nat := none
deriving DecidableEq, Repr

/-- The active grid of a queue. -/
structure Grid where
  record  : LRec
  state   : GState
  hdr     : Option Hdr := none
  hdrAt   : Nat := 0
  fb      : Bool := false
  pre     : Bool := false
  /-- dependences not yet satisfied, as their record entries (R373) -/
  deps    : List Nat := []
  nextBlk : Nat := 0
  endedBlks : Nat := 0
  placedBlks : Nat := 0
  /-- the dies on which its blocks have been placed: block and die (12_groups_progress.md R335) -/
  placedOn : List (Nat × Nat) := []
  savedBlks : List (Nat × Nat × Nat) := []
  dieSel  : Option Nat := none
  firstAt : Option Nat := none
  age     : Nat := 0
  retiring : Option (Nat × Nat) := none
  waitq   : Bool := false
  shrunk  : Bool := false
  drainAt : Option Nat := none
  slotsUsed : List Nat := []
  /-- generation of the grid's die store on each die (01_machine.md R31), and the dies whose image the save region holds -/
  dieGens : Tab Nat := []
  images  : List Nat := []
  dieBars : Tab Barrier := []
  pkgBars : Tab Barrier := []
  endedGroups : List Nat := []
  /-- words issued and cycles slept in the current epoch, and the cycle at which it began (R390) -/
  issuedE : Nat := 0
  waitE   : Nat := 0
  epochAt : Nat := 0
deriving DecidableEq, Repr

/-- A hardware queue of a tenant (R369, R370). -/
structure Queue where
  recs    : List LRec := []
  nextSeq : Nat := 0
  save    : W64 := 0
  saveSz  : W64 := 0
  errLast : Nat := 0
  refused : Nat := 0
  active  : Option Grid := none
  /-- sequence number and status of the last 1,023 retired grids, latest first (R373) -/
  done    : List (Nat × Nat) := []
  /-- record addresses written to QSUBMIT and not yet read, in order (R369) -/
  submits : List Nat := []
  /-- the fault that the front end waits on for this queue, and pages answered with FAIL (R369, R372, R374) -/
  waits   : Option (Nat × Nat × Nat) := none
  failed  : List Nat := []
deriving DecidableEq, Repr

/-- The usage counters of a tenant (15_isolation.md R430). -/
structure Usage where
  qcyc    : Nat := 0
  energy  : Nat := 0
  clear   : Nat := 0
  issued  : Nat := 0
  hbmb    : Nat := 0
  mergeconf : Nat := 0
  overrun : Nat := 0
  epoch   : Nat := 0
  /-- ticks since TICK last chose the tenant (14_dispatch_lanterns.md R390), and its issue cut (R398) -/
  age     : Nat := 0
  cut     : Nat := 0
deriving DecidableEq, Repr

/-- The resources of a partition, by their numbers (15_isolation.md R404). -/
structure Own where
  quads  : List Nat := []
  l2     : List Nat := []
  homes  : List Nat := []
  chans  : List Nat := []
  engs   : List Nat := []
deriving DecidableEq, Repr

/-- A partition (15_isolation.md R404 to R408): what it owns, the sets of a commit that waits, whether a further commit is held. -/
structure Part where
  own     : Own := {}
  pending : Option Own := none
  held    : Bool := false
  ctl     : W64 := 0
  feat    : Nat := 0
  reveal  : Bool := false
  featPending : Bool := false
  stat    : Nat := 0
  zeroing : List Nat := []
  leaving : List Nat := []
  shrinkAt : Option Nat := none
  /-- current tenant, the tenant whose state the partition's units still hold and whether its switch sequence is to
  come, slice end, epoch (14_dispatch_lanterns.md R381; 15_isolation.md R424) -/
  tenant  : Option Nat := none
  lastTenant : Option Nat := none
  switching : Bool := false
  sliceEnd : Nat := 0
  epochLen : Nat := 0
  epochEnd : Nat := 0
  switchTill : Option Nat := none
deriving DecidableEq, Repr

/-- A loaded routine (R394 to R396): header words and code. -/
structure Routine where
  tenant  : Option Nat
  point   : Nat
  win     : Nat
  winlog  : Nat
  code    : List W32
deriving DecidableEq, Repr

/-- A Lantern call (R384, R392): its routine, window and allowance; pc, registers, open loops (address of LOOP, passes
left, inner first), charge; the counters of each candidate (R390); 0 while it runs, 1 after RET, 2 after an overrun. -/
structure Call where
  routine : List W32
  pc      : Nat := 0
  regs    : List W32
  loops   : List (Nat × Nat) := []
  charge  : Nat := 0
  allow   : Nat
  win     : Nat := 0
  winlog  : Nat := 0
  cands   : List (List Nat) := []
  ended   : Nat := 0
deriving DecidableEq, Repr

/-- A Lantern: sector dispatchers 0 to 31, head 32 (R368). -/
structure Lantern where
  call    : Option Call := none
  /-- the queue picked last in this sector and in how many consecutive PICK calls (R386); the grid picked last (R384) -/
  lastQ   : Option Nat := none
  sameQ   : Nat := 0
  lastG   : Option (Nat × Nat) := none
  /-- the partition served last; PICK is not called before this cycle (R379) -/
  lastPart : Nat := 0
  nextPick : Nat := 0
deriving DecidableEq, Repr

/-- A pending fault of a function (15_isolation.md R418): ID, tenant, page, kind and bits. -/
structure PFault where
  id     : Nat
  tenant : Nat
  page   : Nat
  bits   : Nat
deriving DecidableEq, Repr

/-- A function: 0 to 1,023 the virtual functions, 1,024 the physical function. -/
structure Fn where
  faults  : List PFault := []
  nextFid : Nat := 0
  fqTail  : Nat := 0
  /-- faults that wait for room in the queue -/
  fqWait  : List (PFault × Nat × Nat) := []
  invals  : List (Nat × Nat × Nat) := []
  invLost : Bool := false
  /-- LOST of the tenant's stage-2 invalidations, which the physical function queues as (tenant, page, size) -/
  inv2Lost : Bool := false
  smStat  : Nat := 0
  tdisp   : Nat := 0
  /-- routines of a tenant, or of the hypervisor in the physical function -/
  routines : List Routine := []
  checking : Option Nat := none
  lnstat  : Nat := 0
  lncnt   : Nat := 0
  /-- a function-level reset that waits for the end of a switch sequence (R426) -/
  flr     : Bool := false
deriving DecidableEq, Repr

/-- An error record (16_recovery.md R458): physical address, unit number, unit, kind, tenant killed, action, mask of partitions. -/
structure ErrRec where
  pa     : Nat
  num    : Nat
  unit   : Nat
  kind   : Nat
  tenant : Nat := 0xFFFF
  action : Nat := 0
  parts  : Nat := 0
deriving DecidableEq, Repr

/-- An error met whose record is still to be written: one known whole, a word of memory, or the address that an
Uncorrectable Data trap reports, with its core and tenant. -/
inductive Noted
  | whole (e : ErrRec)
  | word (pa action : Nat)
  | trapped (core tenant addr : Nat)
deriving DecidableEq, Repr

/-- The package (17_host_fabric.md R470 to R472). -/
structure Dev where
  state   : Nat := 1
  err     : Nat := 0
  cut     : Nat := 0
  thermal : Nat := 0
  power   : Nat := 0
  /-- the package start time; the base of every clock (09_tiles_leases.md R253); the pod floor M. MAXEV, clock
  offsets and M are kept relative: a clock is base + offset, MAXEV is start + offset -/
  start   : Nat := 0
  base    : Nat := 0
  floor   : Nat := 0
  stepping : Nat
  /-- ticks of the logical clocks and floors of the pod made so far (09_tiles_leases.md R258) -/
  ticks   : Nat := 0
  floors  : Nat := 0
  seq     : Nat := 0
  meas    : List Nat := []
  /-- mailbox requests to serve, in order of arrival: function, operation, buffer (15_isolation.md R429) -/
  mail    : List (Nat × Nat × Nat) := []
  podaper : Nat := 0
  pkg     : Nat := 0
  /-- failed attempts at a flit by port, and ports taken down (17_host_fabric.md R464) -/
  retries : Tab Nat := []
  down    : List Nat := []
  /-- the cycle of the last reset -/
  resetAt : Nat := 0
  badChans : List Nat := []
  /-- the pool in effect, and whether a change of it waits (15_isolation.md R405) -/
  poolL2  : List Nat := []
  poolHomes : List Nat := []
  poolPending : Bool := false
  bootVer : Nat := 0
  svcVer  : Nat := 0
  fused   : Nat := 0
  eqTail  : Nat := 0
  eqLost  : Bool := false
  noted   : List Noted := []
  /-- host pages that are not present; PRI page requests without a response: number and host page (R462) -/
  absent  : List Nat := []
  pri     : List (Nat × Nat) := []
  nextPri : Nat := 0
  ue      : Nat := 0
  ce      : Nat := 0
  moving  : List (Nat × Nat) := []
  syncs   : List (Nat × Nat × Nat) := []
  /-- pages that stay tile-class after a synchronisation was answered with TILES_OPEN: tenant and page (09_tiles_leases.md R262) -/
  tileKept : List (Nat × Nat) := []
deriving DecidableEq, Repr

/-- A message signalled: function and vector (17_host_fabric.md R461). -/
structure Irq where
  fn  : Nat
  vec : Nat
deriving DecidableEq, Repr

/-- Uncorrectable words, as 32-byte unit numbers (16_recovery.md R456): of memory, core stores, die stores; Mooring
words; granules whose tag fails its parity; groups whose control area is lost. -/
structure Poison where
  mem   : List Nat := []
  store : List Nat := []
  dstore : List Nat := []
  moor  : List Nat := []
  tags  : List Nat := []
  ctl   : List Nat := []
deriving DecidableEq, Repr

end Sys2Proof.Machine
end

