-- ==== Sys2Proof/Machine/State.lean ====
section
/-! DEFINITION. The state of the Z9 as plain data, the reasons a step can stop, and the state right after reset. -/

namespace Sys2Proof.Machine

/-- Why the machine stops: an access the spec gives no place to. -/
inductive Fault
  /-- Raised by an event whose argument names a unit the package does not have. Safe: the hardware has no such event. -/
  | noSuchUnit
deriving DecidableEq, Repr

/-- Why the model gives no next state. -/
inductive Refusal
  /-- Raised by `exec` for an instruction without a meaning in this model. Safe. -/
  | notModelled (mnemonic : String)
deriving DecidableEq, Repr

/-- The issue in progress: the group, its slot, the word's address, the lanes of a re-issued word, and
whether the word may stay outstanding, its ActiveMask, whether the group's region was open, whether the word is an
outstanding one that is being performed, whether it counts as begun, and the bytes that it names; and the Lantern whose Beam word runs. -/
structure Ctx where
  gk    : Nat := 0
  slotB : Bool := false
  pc    : W64 := 0
  only  : Option Mask := none
  defer : Bool := false
  act   : Mask := 0
  wasOpen : Bool := false
  held  : Bool := false
  counted : Bool := false
  spans : List Span := []
  lan   : Nat := 0
deriving DecidableEq, Repr

/-- What moves next (log 2): an event of the machine, the issue of a slot's next word, a word of a Lantern's call,
the eviction of a copy (of a core's L1, a quad unit, an L2 slice, the memory-side cache, a buffer line, a TLB entry), a unit
of a job's work, the work of a core's matrix unit or sweep unit, cycles in which a group is not ready because its word is still
being fetched or reads a result that is still pending (05_lane_scalar_ops.md R125), or nothing but time. -/
inductive Act
  | event (i : Instr)
  | issue (gk : Nat) (slotB defer : Bool)
  | lantern (n : Nat)
  | dropL1 (core sector : Nat)
  | dropQuad (quad sector : Nat)
  | dropL2 (die sector : Nat)
  | dropHome (sector : Nat)
  | dropLine (core line : Nat)
  | dropTlb (core n : Nat)
  | jobUnit (die slot : Nat)
  | matrixUnit (core : Nat)
  | sweepUnit (core : Nat)
  | hold (gk cycles : Nat)
  | idle
deriving DecidableEq, Repr

/-- A turn: the cycles that pass before it, and the act. -/
structure Turn where
  dt  : Nat
  act : Act
deriving DecidableEq, Repr

/-- The whole machine. -/
structure State where
  /-- turns that the timing of the hardware orders; when empty, `autoTurn` picks (log 2) -/
  agenda  : List Turn
  /-- cycles of the 1.5 GHz clock since reset -/
  cycle   : Nat
  cur     : Ctx
  /-- the model's own: counts the free values taken (log 13) -/
  freeCtr : Nat
  /-- groups by block key * 64 + number; block key = core * 16 + place; core = die * 176 + quad * 4 + core -/
  groups  : Tab Group
  blocks  : Tab Block
  cores   : Tab Core
  quads   : Tab Quad
  dies    : Tab Die
  homes   : Tab Home
  /-- granules of core stores, by core * 16,384 + granule -/
  store   : Tab Granule
  /-- granules of die stores, by die * 2^40 + grid's queue key * 2^20 + granule of its die store -/
  dstore  : Tab Granule
  /-- bytes by 52-bit physical address -/
  mem     : List Host.Cell
  sects   : Tab Stamps
  l2      : Tab Copy
  /-- accumulator records, by L2 slice of the package (die * 32 + slice) -/
  accs    : Tab (List AccRec)
  /-- contributions on their way to an L2 slice -/
  contribs : Tab Contrib
  rings   : Tab (List RingWait)
  queues  : Tab Queue
  usage   : Tab Usage
  parts   : Tab Part
  lanterns : Tab Lantern
  mooring : Tab W32
  fns     : Tab Fn
  /-- host registers that hold what was written, by function * 2^20 + offset -/
  regs    : Tab W64
  dev     : Dev
  poison  : Poison
  /-- last writer's tenant of dirty sectors (16_recovery.md R456) -/
  writers : Tab Nat
  irqs    : List Irq
  /-- vectors whose MSI-X table entry is masked, and whose pending bit is set (17_host_fabric.md R461) -/
  irqMask : List Irq
  irqPend : List Irq
  /-- what host reads returned, latest first -/
  out     : List (List Byte)
deriving DecidableEq, Repr

/-- Memory: what an unlisted address reads as (15_isolation.md R407; log 7). -/
def memDefault : Byte := 0

/-- The canonical form of memory. -/
def Memory.wf (m : List Host.Cell) : Bool := tcanon memDefault m

/-- The machine after a cold reset (17_host_fabric.md R468, R470): the boot ROM runs, nothing is placed, loaded or owned. -/
def State.reset : State where
  agenda := []
  cycle := 0
  cur := {}
  freeCtr := 0
  groups := []
  blocks := []
  cores := []
  quads := []
  dies := []
  homes := []
  store := []
  dstore := []
  mem := []
  sects := []
  l2 := []
  accs := []
  contribs := []
  rings := []
  queues := []
  usage := []
  parts := []
  lanterns := []
  mooring := []
  fns := []
  regs := []
  dev := { stepping := 0x0B01 }
  poison := {}
  writers := []
  irqs := []
  irqMask := []
  irqPend := []
  out := []

end Sys2Proof.Machine
end

