-- ==== Sys2Proof/Machine/Ops.lean ====
section
/-! DEFINITION. Named operations over the state: the monad of a step, access to groups, blocks and registers, the taking of a trap and the abort of a grid. -/

namespace Sys2Proof.Machine

/-- Why a step's work ends before its last operation: nothing more to do, or a trap to take. -/
inductive Stop
  | done
  | trap (t : TrapInfo)
deriving DecidableEq, Repr

/-- The operations of a step. What was done before a stop stays done. -/
abbrev Op (α : Type) := EStateM Stop State α

/-- End the step here: the instruction waits or has nothing left to do. -/
def finish {α : Type} : Op α := throw .done

/-- A trap of the instruction in progress (16_recovery.md R433). -/
def raise {α : Type} (cause : Nat) (addr : W64) (sub : Nat := 0) : Op α :=
  throw (.trap { cause := cause, sub := sub, addr := addr })

/-- An event that is not enabled does nothing (log 3). -/
def require (b : Bool) : Op Unit := if b then pure () else finish

/-- A listed value, or the end of the step. -/
def need {α : Type} (o : Option α) : Op α :=
  match o with
  | some x => pure x
  | none => finish

/-- A value that the spec leaves open: nothing constrains it (log 13). -/
def freeValue : Op W64 := do
  let s ← get
  set { s with freeCtr := s.freeCtr + 1 }
  return Config.freeWord s.freeCtr

/-! Units by key -/

/-- The core of a block key or of a group key. -/
def coreOfBlk (bk : Nat) : Nat := bk / 16
def blkOfGrp (gk : Nat) : Nat := gk / 64
def coreOfGrp (gk : Nat) : Nat := gk / 1024
def dieOfCore (c : Nat) : Nat := c / Config.coresPerDie
def quadOfCore (c : Nat) : Nat := c / 4
def dieOfQuad (q : Nat) : Nat := q / Config.quadsPerDie

/-- PLACE of a core (01_machine.md R22). -/
def placeOf (pkg c : Nat) : Nat :=
  pkg * 2048 + dieOfCore c * 256 + (quadOfCore c % Config.quadsPerDie) * 4 + c % 4

/-- How many cores, quads the package has. -/
def cores : Nat := Config.dies * Config.coresPerDie
def quadCount : Nat := Config.dies * Config.quadsPerDie

/-! Access to the parts of the state -/

def groupAt (gk : Nat) : Op Group := do need (tlook gk (← get).groups)
def blockAt (bk : Nat) : Op Block := do need (tlook bk (← get).blocks)
def putGroup (gk : Nat) (g : Group) : Op Unit := modify fun s => { s with groups := tset gk g s.groups }
def putBlock (bk : Nat) (b : Block) : Op Unit := modify fun s => { s with blocks := tset bk b s.blocks }
def modGroup (gk : Nat) (f : Group → Group) : Op Unit := do
  match tlook gk (← get).groups with
  | some g => putGroup gk (f g)
  | none => pure ()
def modBlock (bk : Nat) (f : Block → Block) : Op Unit := do
  match tlook bk (← get).blocks with
  | some b => putBlock bk (f b)
  | none => pure ()

def State.core (s : State) (c : Nat) : Core := tget {} s.cores c
def State.quad (s : State) (q : Nat) : Quad := tget {} s.quads q
def State.die (s : State) (d : Nat) : Die := tget {} s.dies d
def State.home (s : State) (h : Nat) : Home := tget {} s.homes h
def State.queue (s : State) (q : Nat) : Queue := tget {} s.queues q
def State.fn (s : State) (f : Nat) : Fn := tget {} s.fns f
def State.part (s : State) (p : Nat) : Part := tget {} s.parts p
def State.lantern (s : State) (n : Nat) : Lantern := tget {} s.lanterns n
def State.use (s : State) (t : Nat) : Usage := tget {} s.usage t

def modCore (c : Nat) (f : Core → Core) : Op Unit :=
  modify fun s => { s with cores := tput {} s.cores c (f (s.core c)) }
def modQuad (q : Nat) (f : Quad → Quad) : Op Unit :=
  modify fun s => { s with quads := tput {} s.quads q (f (s.quad q)) }
def modDie (d : Nat) (f : Die → Die) : Op Unit :=
  modify fun s => { s with dies := tput {} s.dies d (f (s.die d)) }
def modHome (h : Nat) (f : Home → Home) : Op Unit :=
  modify fun s => { s with homes := tput {} s.homes h (f (s.home h)) }
def modQueue (q : Nat) (f : Queue → Queue) : Op Unit :=
  modify fun s => { s with queues := tput {} s.queues q (f (s.queue q)) }
def modFn (n : Nat) (f : Fn → Fn) : Op Unit :=
  modify fun s => { s with fns := tput {} s.fns n (f (s.fn n)) }
def modPart (p : Nat) (f : Part → Part) : Op Unit :=
  modify fun s => { s with parts := tput {} s.parts p (f (s.part p)) }
def modLantern (n : Nat) (f : Lantern → Lantern) : Op Unit :=
  modify fun s => { s with lanterns := tput {} s.lanterns n (f (s.lantern n)) }
def modUse (t : Nat) (f : Usage → Usage) : Op Unit :=
  modify fun s => { s with usage := tput {} s.usage t (f (s.use t)) }
def modDev (f : Dev → Dev) : Op Unit := modify fun s => { s with dev := f s.dev }

/-- The physical function's number among the functions. -/
def pfn : Nat := 1024

/-- A host register's contents; `off` is the offset in BAR 0 of a function. -/
def State.reg (s : State) (fn off : Nat) (reset : W64 := 0) : W64 := tget reset s.regs (fn * 2 ^ 20 + off)
def setReg (fn off : Nat) (v : W64) (reset : W64 := 0) : Op Unit :=
  modify fun s => { s with regs := tput reset s.regs (fn * 2 ^ 20 + off) v }

/-- The group of the issue in progress. -/
def self : Op Group := do groupAt (← get).cur.gk
def modSelf (f : Group → Group) : Op Unit := do modGroup (← get).cur.gk f
def selfBlock : Op Block := do blockAt (blkOfGrp (← get).cur.gk)

/-- The grid of a block's queue key. -/
def State.gridOf (s : State) (qk : Nat) : Option Grid := (s.queue qk).active
def modGrid (qk : Nat) (f : Grid → Grid) : Op Unit :=
  modQueue qk fun q => { q with active := q.active.map f }
def selfHdr : Op Hdr := do
  let b ← selfBlock
  let g ← need ((← get).gridOf b.grid)
  need g.hdr

/-- The tenant of a queue key, and of the issuing group. -/
def tenantOf (qk : Nat) : Nat := qk / 64
def selfTenant : Op Nat := do return tenantOf (← selfBlock).grid

/-! Slots and lanes -/

def Group.slot (g : Group) (b : Bool) : Slot := if b then g.b else g.a
def Group.setSlot (g : Group) (b : Bool) (x : Slot) : Group := if b then { g with b := x } else { g with a := x }

/-- The mask of lanes 0 to W - 1. -/
def allLanes (w : Nat) : Mask := BitVec.ofNat 128 (2 ^ w - 1)

/-- The lanes of a mask in ascending order. -/
def lanesOf (w : Nat) (m : Mask) : List Nat := (List.range w).filter fun l => m.getLsbD l

/-- Number of lanes of a mask. -/
def laneCount (w : Nat) (m : Mask) : Nat := (lanesOf w m).length

/-- Scalar register s m. -/
def Group.scalar (g : Group) (m : Nat) : W64 := tget 0 g.ctl m
def Group.setScalar (g : Group) (m : Nat) (v : W64) : Group := { g with ctl := tput 0 g.ctl m v }

/-- Predicate k j; k0 reads as 1 in every lane (01_machine.md R18). -/
def Group.pred (g : Group) (j : Nat) : Mask :=
  if j = 0 then allLanes g.width
  else BitVec.ofNat 128 ((tget 0 g.ctl (64 + 2 * j)).toNat + (tget 0 g.ctl (65 + 2 * j)).toNat * 2 ^ 64)

/-- A write to k0 is discarded (R18). -/
def Group.setPred (g : Group) (j : Nat) (m : Mask) : Group :=
  if j = 0 then g
  else
    let x := m &&& allLanes g.width
    { g with ctl := tput 0 (tput 0 g.ctl (64 + 2 * j) (x.extractLsb' 0 64)) (65 + 2 * j) (x.extractLsb' 64 64) }

/-- Lane register elements held: eight for each unit (R19). -/
def Group.nreg (g : Group) : Nat := 8 * g.units.length

/-- ActiveMask (02_words.md R46); a re-issued word uses its replay mask (16_recovery.md R440). -/
def activeMask (p : Nat) : Op Mask := do
  let s ← get
  let g ← self
  match s.cur.only with
  | some m => return m
  | none => return (g.slot s.cur.slotB).mask &&& g.pred p

/-! Lane registers in the core store -/

/-- The granule and the element in it of register n, lane l: units are of W/2 granules (R14, R27). -/
def Group.place (g : Group) (core n l : Nat) : Nat × Nat :=
  let off := (n % 8) * 4 * g.width + 4 * l
  (core * Config.granulesPerCore + g.units.getD (n / 8) 0 + off / 64, off % 64 / 4)

/-- The window address of register n, lane l of group number `gi` (R27). -/
def windowAddr (w gi n l : Nat) : Nat := 2 ^ 56 + gi * 0x20000 + n * 4 * w + 4 * l

/-- The 32-bit element of a register; a stale granule reads as zero (R420). -/
def elemAt (s : State) (gk : Nat) (g : Group) (n l : Nat) : Nat :=
  let (k, e) := g.place (coreOfGrp gk) n l
  let x := tget Granule.clean s.store k
  if x.tag = g.gens.rw then (x.data.extractLsb' (32 * e) 32).toNat else 0

/-- The granule after a write of bytes through an allocation of generation `gen`: stale bytes become zero (R421).
`v` holds the bytes of `m` in place. -/
def Granule.write (x : Granule) (gen : Nat) (m v : BitVec 512) : Granule :=
  let d := if x.tag = gen then x.data else 0
  ⟨gen, (d &&& ~~~m) ||| (v &&& m)⟩

/-- A mask of `n` bits at bit `i`. -/
def bitsAt (i n : Nat) : BitVec 512 := BitVec.ofNat 512 ((2 ^ n - 1) * 2 ^ i)

/-- A write stamps a granule whose tag failed its parity (R457). -/
def Poison.stamp (p : Poison) (k : Nat) : Poison :=
  if p.tags.isEmpty then p else { p with tags := p.tags.filter (· != k) }

def setElem (gk n l : Nat) (x : Nat) : Op Unit := do
  let g ← groupAt gk
  let (k, e) := g.place (coreOfGrp gk) n l
  modify fun s =>
    let y := (tget Granule.clean s.store k).write g.gens.rw (bitsAt (32 * e) 32)
      (BitVec.ofNat 512 (x % 2 ^ 32 * 2 ^ (32 * e)))
    { s with store := tput Granule.clean s.store k y, poison := s.poison.stamp k }

/-- Whether a read of an element meets a granule of an older generation, and whether it meets an
uncorrectable word or a tag parity error (R420, R457). -/
def elemStale (s : State) (gk : Nat) (g : Group) (n l : Nat) : Bool :=
  (tget Granule.clean s.store (g.place (coreOfGrp gk) n l).1).tag != g.gens.rw
def elemBad (s : State) (gk : Nat) (g : Group) (n l : Nat) : Bool :=
  let (k, e) := g.place (coreOfGrp gk) n l
  s.poison.tags.contains k || (!elemStale s gk g n l && s.poison.store.contains (2 * k + e / 8))

/-- The lowest number of a list. -/
def lowest (xs : List Nat) : Option Nat := xs.foldl (fun m x => some (match m with
  | none => x
  | some y => min x y)) none

/-- The traps of a register operand's elements: Stale Read where GENCTL selects it (R24, R420), then
Uncorrectable Data (R457), each at the lowest address. -/
def checkElems (elems : List (Nat × Nat)) : Op Unit := do
  let s ← get
  let gk := s.cur.gk
  let g ← self
  let addr (e : Nat × Nat) := windowAddr g.width (gk % 64) e.1 e.2
  if g.gens.trw then
    match lowest ((elems.filter fun e => elemStale s gk g e.1 e.2).map addr) with
    | some a => raise 0x05 (BitVec.ofNat 64 a)
    | none => pure ()
  match lowest ((elems.filter fun e => elemBad s gk g e.1 e.2).map addr) with
  | some a => raise 0x08 (BitVec.ofNat 64 a)
  | none => pure ()

/-- Register v n, or the pair v n, v n + 1, of a lane. -/
def laneVal (s : State) (gk : Nat) (g : Group) (wide : Bool) (n l : Nat) : Nat :=
  elemAt s gk g n l + if wide then elemAt s gk g (n + 1) l * 2 ^ 32 else 0

def setLane (gk : Nat) (wide : Bool) (n l x : Nat) : Op Unit := do
  setElem gk n l (x % 2 ^ 32)
  if wide then setElem gk (n + 1) l (x / 2 ^ 32)

/-! Waiting -/

/-- A word counts as begun (R360; 14_dispatch_lanterns.md R390; 15_isolation.md R430): one of the words that the lookahead of an
outstanding word lets issue (02_words.md R62). -/
def Pend.closer (p : Pend) : Pend := { p with left := p.left - 1 }
def countWord : Op Unit := do
  modify fun s => { s with cur := { s.cur with counted := true } }
  modSelf fun g => { g with issued := sat48 (g.issued + 1), pend := g.pend.map Pend.closer }
  let b ← selfBlock
  modGrid b.grid fun x => { x with issuedE := x.issuedE + 1 }
  modUse (tenantOf b.grid) fun u => { u with issued := u.issued + 1 }

/-- A word that has not begun after all: it waits and will issue again, or it is no instruction (R60). A word that a trap
of its fetch or of its encoding stops has not been counted. -/
def Pend.further (p : Pend) : Pend := { p with left := p.left + 1 }
def uncountWord : Op Unit := do
  if (← get).cur.counted then
    modify fun s => { s with cur := { s.cur with counted := false } }
    modSelf fun g => { g with issued := g.issued - 1, pend := g.pend.map Pend.further }
    let b ← selfBlock
    modGrid b.grid fun x => { x with issuedE := x.issuedE - 1 }
    modUse (tenantOf b.grid) fun u => { u with issued := u.issued - 1 }

/-- The group's slot (or its list of recorded entries) as before the word in progress, which will issue again. -/
def Group.unissued (g : Group) (c : Ctx) : Group :=
  match c.only with
  | some m => { g with replay := ⟨c.pc, c.slotB, m, none⟩ :: g.replay }
  | none => g.setSlot c.slotB { g.slot c.slotB with pc := c.pc }
def unissue : Op Unit := do
  let c := (← get).cur
  if !c.held then
    modSelf fun g => g.unissued c
    uncountWord

/-- The group sleeps (R339). -/
def sleepOn (w : Wait) : Op Unit := do
  let t := (← get).cycle
  modSelf fun g => { g with asleep := some ⟨w, (g.asleep.map (·.since)).getD t⟩ }

/-- The word in progress waits and is issued again when the sleep ends. -/
def waitFor {α : Type} (w : Wait) : Op α := do
  unissue
  sleepOn w
  finish

/-! Taking a trap and returning from one -/

/-- The word of a slot's JOIN or SP field: none is all ones. -/
def joinWord (j : Option Nat) : Nat := j.getD 0xFFFFFFFF

/-- Write 64-bit words into the control area from word `i` on. -/
def putWords (ctl : Tab W64) : Nat → List Nat → Tab W64
  | _, [] => ctl
  | i, x :: xs => putWords (tput 0 ctl i (BitVec.ofNat 64 x)) (i + 1) xs

/-- The trap frame of R438, as its 32 words. 06_sweep_quantise.md R159 says that it holds the quantisation seed, for which this layout has no
field: the model writes none (log 91). -/
def frameWords (g : Group) (t : TrapInfo) (list : List Recorded) : List Nat :=
  let slot (x : Slot) (live : Bool) : List Nat :=
    [if live then x.pc.toNat else 0, x.mask.toNat % 2 ^ 64, x.mask.toNat / 2 ^ 64]
  let flags := b2n t.perf + 2 * b2n t.part + 16 * list.length
  slot g.a true ++ [joinWord g.a.join + g.sp * 2 ^ 32] ++
  slot g.b (g.b.mask != 0) ++ [joinWord g.b.join + flags * 2 ^ 32] ++
  [t.sub * 2 ^ 16 + t.cause * 2 ^ 8, t.addr.toNat, g.rowprog.toNat, 0] ++
  (list.take 16).map (fun r => r.pc.toNat / 8 * 8 + b2n r.slotB) ++
  List.replicate (16 - list.length) 0 ++ [0, 0, 0, 0]

/-- Lanes that have not ended: those of the slots and of the stack's entries. -/
def Group.live (g : Group) : Mask :=
  (List.range (min g.sp 32)).foldl (fun m i =>
    m ||| BitVec.ofNat 128 ((tget 0 g.ctl (128 + 4 * i + 1)).toNat + (tget 0 g.ctl (128 + 4 * i + 2)).toNat * 2 ^ 64))
    (g.a.mask ||| g.b.mask)

/-- Words of the group's part of the save region: the replay masks (R442). -/
def replayWords (masks : List Mask) : List Nat :=
  masks.flatMap fun m => [m.toNat % 2 ^ 64, m.toNat / 2 ^ 64]

/-- Enter handler mode (R435, R436, R438): the frame and the trap registers are written, slot A holds every live
lane at the trap entry, slot B is empty. `list` is I followed by the held instructions. -/
def enterHandler (gk : Nat) (entry : W64) (t : TrapInfo) (list : List Recorded) : Op Unit := do
  let now := (← get).cycle
  modGroup gk fun g =>
    { g with
      ctl := putWords g.ctl 96 (frameWords g t list)
      masks := list.map (·.mask)
      due := g.due ++ [(0x1000, replayWords (list.map (·.mask)))]
      trapPc := (list.head?.map (·.pc)).getD 0 &&& ~~~7
      trapAddr := t.addr
      trapCause := BitVec.ofNat 64 (t.sub * 2 ^ 16 + t.cause * 2 ^ 8)
      handler := some g.sp
      trapping := none
      replay := []
      readyAt := now + 24
      a := { pc := entry, mask := g.live, join := none }
      b := {} }

/-- The address of a grid's code and of its trap entry (01_machine.md R32, R34; 14_dispatch_lanterns.md R371). -/
def codeStart (g : Grid) : Nat := g.hdrAt + 128
def trapEntry? (g : Grid) : Option W64 := do
  let h ← g.hdr
  if h.trap = 0xFFFFFFFF then none else some (BitVec.ofNat 64 (codeStart g + 8 * h.trap))

/-! Partials (07_matrix.md R169, R178, R444) -/

/-- Rows M, which is also the number of columns N. -/
def matM (f : XFmt) : Nat := if f = .d then 64 else 128
/-- Accumulator kind: 0 FP32, 1 FP64, 2 INT32. -/
def matKind (f : XFmt) : Nat :=
  match f with
  | .d => 1
  | .i8 => 2
  | _ => 0
/-- Rows, and bytes of an element, of an accumulator kind. -/
def kindRows (k : Nat) : Nat := if k = 1 then 64 else 128
def kindBytes (k : Nat) : Nat := if k = 1 then 8 else 4

/-- The words of the matrix save area (R444): partial, scales, descriptor, X word, row mask. -/
def saveImage (ch : Chain) (word : Nat) : List (Nat × List Nat) :=
  let z := kindBytes (matKind ch.fmt)
  let n := matM ch.fmt
  let elem (i : Nat) : Nat := tget 0 ch.elems (128 * (i / n) + i % n)
  let partialWords := if z = 8 then (List.range (n * n)).map elem
    else (List.range (n * n / 2)).map fun i => elem (2 * i) + elem (2 * i + 1) * 2 ^ 32
  [(0x9000, partialWords),
   (0x19000, (List.range 256).map fun i => ch.scales.getD (2 * i) 0 + ch.scales.getD (2 * i + 1) 0 * 2 ^ 32),
   (0x19800, ch.desc ++ [word, ch.rows.toNat % 2 ^ 64, ch.rows.toNat / 2 ^ 64])]

/-- A contribution leaves for its L2 slice (07_matrix.md R185); its number. -/
def sendContrib (c : Contrib) : Op Nat := do
  let id := match (← get).contribs.getLast? with
    | some e => e.1 + 1
    | none => 0
  modify fun s => { s with contribs := tset id c s.contribs }
  return id

/-- A chain leaves as a contribution that belongs to no word. -/
def flushChain (gk : Nat) (ch : Chain) : Op Nat := do
  let t := ((tlook (blkOfGrp gk) (← get).blocks).map fun b => tenantOf b.grid).getD 0
  sendContrib { gk := gk, tenant := t, chain := ch }

/-- A trap's effect on an open chain (07_matrix.md R182): with DET = 0 it is on its way to its slice before the
handler runs; with DET = 1 it is saved until the handler returns. -/
def trapChain (gk : Nat) : Op Unit := do
  match (tlook gk (← get).groups).bind (·.chain) with
  | none => pure ()
  | some ch =>
    modGroup gk fun g => { g with chain := none }
    if ch.det then modGroup gk fun g => { g with kept := some ch, due := g.due ++ saveImage ch 0 }
    else
      let _ ← flushChain gk ch

/-- Whether nothing of a group is outstanding that a handler waits for (R435 step 1). -/
def quiet (s : State) (gk : Nat) (g : Group) : Bool :=
  g.pend.isEmpty && !(s.contribs.any fun e => e.2.gk = gk) &&
  (match g.asleep with
  | some z => !z.on.out
  | none => true)

/-- The handler is entered when the group's other words have completed or are held (R435), and its open chain has gone. -/
def tryEnter (gk : Nat) : Op Unit := do
  let s ← get
  let entry := ((tlook (blkOfGrp gk) s.blocks).bind fun b => s.gridOf b.grid).bind trapEntry?
  match tlook gk s.groups, entry with
  | some g, some entry =>
    match g.trapping with
    | some (t, list) =>
      if quiet s gk g then
        trapChain gk
        if quiet (← get) gk g then enterHandler gk entry t list
    | none => pure ()
  | _, _ => pure ()

/-- An error is met: its record follows the step (R457, R458). An Access Violation uses up the answers of FAIL that led to it
(15_isolation.md R418). -/
def note (x : Noted) : Op Unit := modDev fun d => { d with noted := d.noted ++ [x] }
def noteTrap (gk : Nat) (t : TrapInfo) : Op Unit := do
  if t.cause = 4 then modGroup gk fun g => { g with failed := [] }
  if t.cause = 8 then
    let n := ((tlook (blkOfGrp gk) (← get).blocks).map fun b => tenantOf b.grid).getD 0
    note (.trapped (coreOfGrp gk) n t.addr.toNat)

/-- A trap or pre-emption of a group empties its operand-reuse latches (12_groups_progress.md R320). -/
def dropLatches (gk : Nat) : Op Unit :=
  modCore (coreOfGrp gk) fun k => { k with latches := k.latches.filter fun e => e.2.1 != gk }

/-! Waking -/

/-- A group of core `c` as its clock starts again. -/
def ungated (c : Nat) (v : W64) (till : Nat) (e : Nat × Group) : Nat × Group :=
  if coreOfGrp e.1 = c then (e.1, { e.2 with wakewhy := v, readyAt := till }) else e

/-- Whether a wake is the one to record: it starts the clock, or it falls in the cycle in which a wake started it and has
the lower cause, or the same cause and the lower group number (01_machine.md R23). -/
def Core.records (k : Core) (t cause grp : Nat) : Bool :=
  k.gated || (match k.woke with
  | some (u, c, g) => u = t && (cause < c || (cause = c && grp < g))
  | none => false)

/-- WAKEWHY of every resident group of a core whose clock a wake ungates (R23; 12_groups_progress.md R340). -/
def coreWakes (c cause grp : Nat) : Op Unit := do
  let s ← get
  if (s.core c).records s.cycle cause grp then
    modCore c fun k => { k with gated := false, idle := s.cycle, woke := some (s.cycle, cause, grp) }
    let v := BitVec.ofNat 64 (grp * 1024 + cause)
    let till := s.cycle + 24
    modify fun s => { s with groups := s.groups.map (ungated c v till) }
  else modCore c fun k => { k with idle := s.cycle }

/-- A sleeping group wakes with a cause (R339, R340, R360). -/
def wake (gk : Nat) (cause : Nat) : Op Unit := do
  let s ← get
  match tlook gk s.groups with
  | none => pure ()
  | some g =>
    match g.asleep with
    | none => pure ()
    | some z =>
      putGroup gk { g with asleep := none, slept := sat48 (g.slept + (s.cycle - z.since)) }
      match tlook (blkOfGrp gk) s.blocks with
      | some b => modGrid b.grid fun x => { x with waitE := x.waitE + (s.cycle - max z.since x.epochAt) }
      | none => pure ()
      coreWakes (coreOfGrp gk) cause (gk % 64)
      if g.trapping.isSome then tryEnter gk

/-- A stalled group looks again when one of its outstanding words completes: with both slots occupied, one may stall on a
future and the other on the word. -/
def wakeStalled (gk : Nat) (cause : Nat) : Op Unit := do
  match tlook gk (← get).groups with
  | none => pure ()
  | some g =>
    match g.asleep with
    | some ⟨.drain, _⟩ => wake gk cause
    | some ⟨.future _ _ none, _⟩ => if g.a.mask != 0 && g.b.mask != 0 then wake gk cause else pure ()
    | _ => pure ()

/-- Every group that sleeps on a matching wait wakes with its cause. -/
def wakeAll (f : Nat → Group → Wait → Bool) : Op Unit := do
  let s ← get
  s.groups.forM fun (gk, g) =>
    match g.asleep with
    | some z => if f gk g z.on then wake gk z.on.cause else pure ()
    | none => pure ()

/-- What stands for the wait on a home slice's event where a fault could stand. -/
def homeFault : Nat × Nat × Nat := (4096, 0, 0)
def Wait.stuck : Wait → Nat × Nat × Nat
  | .fault fn id page => (fn, id, page)
  | _ => homeFault

/-- Matrix words, contributions and jobs that wait for something look again. -/
def unstick (p : Nat × Nat × Nat → Bool) : Op Unit :=
  modify fun s => { s with
    contribs := s.contribs.map fun (i, c) => (i, { c with stuck := c.stuck.filter fun x => !p x })
    cores := s.cores.map fun (i, k) => (i, { k with mx := k.mx.map fun w => { w with stuck := w.stuck.filter fun x => !p x } })
    dies := s.dies.map fun (i, d) => (i, { d with jobs := d.jobs.map fun (n, j) => (n, { j with waits := j.waits.filter fun x => !p x }) }) }

/-- An event of a home slice: a floor, a reclassification, a synchronisation (09_tiles_leases.md R258, R260, R261). -/
def homeEvent : Op Unit := do
  wakeAll fun _ _ w => w == .home
  unstick (· == homeFault)

/-! Generations that end (15_isolation.md R422) -/

/-- The scrub passes that the stores of a quad's cores have begun. -/
def quadPasses (s : State) (q : Nat) : List Nat := (List.range 4).map fun i => (s.core (4 * q + i)).passes

/-- An allocation of generation `v` ends: the counter notes the passes that have begun. -/
def GenCtr.drop (c : GenCtr) (passes : List Nat) (v : Nat) : GenCtr :=
  if c.held.contains v then { c with held := c.held.erase v, ended := tset v passes c.ended } else c

/-- The generations that the blocks and clusters of a grid hold in a quad (R419). -/
def gensHeld (s : State) (qk q : Nat) : List Nat :=
  let bs := s.blocks.filter fun e => e.2.grid = qk && quadOfCore (coreOfBlk e.1) = q
  bs.flatMap (fun e => [e.2.gsp, e.2.gpool]) ++
  (s.groups.filter fun e => bs.any fun b => b.1 = blkOfGrp e.1).map (fun e => e.2.gens.rw) ++
  ((s.quad q).clusters.filter fun c => c.grid = qk).map (·.gqm)

/-- A quad without a grid: its clusters are gone and its generations have ended. -/
def Quad.without (x : Quad) (s : State) (qk q : Nat) : Quad :=
  { x with
    clusters := x.clusters.filter fun c => c.grid != qk
    gen := (gensHeld s qk q).foldl (fun c v => c.drop (quadPasses s q) v) x.gen }

/-! Aborting a grid -/

/-- Statuses of completion records (14_dispatch_lanterns.md R374). -/
def statusAborted : Nat := 6

/-- The work of some groups leaves a core's units and ports. -/
def Core.without (k : Core) (f : Nat → Bool) : Core :=
  { k with
    mx := k.mx.filter fun w => !f w.gk
    sw := k.sw.filter fun w => !f w.gk
    asks := k.asks.filter fun a => !f a.2.gk }

/-- A grid abort (R454): its groups stop, its places are freed, what is outstanding is discarded; the grid
retires ABORTED with the cause, and its jobs, tenures and records end in the step of its retirement. -/
def abortGrid (qk cause : Nat) : Op Unit := do
  let s ← get
  match s.gridOf qk with
  | none => pure ()
  | some g =>
    if (match g.retiring with
      | some (st, _) => st == statusAborted
      | none => false) then pure ()
    else
      let bks := (s.blocks.filter fun e => e.2.grid = qk).map (·.1)
      modify fun s =>
        { s with
          groups := s.groups.filter fun e => !bks.contains (blkOfGrp e.1)
          blocks := s.blocks.filter fun e => e.2.grid != qk
          rings := (s.rings.map fun (k, ws) => (k, ws.filter fun w => !bks.contains (blkOfGrp w.gk))).filter
            fun e => !e.2.isEmpty
          contribs := s.contribs.filter fun e => !bks.contains (blkOfGrp e.2.gk)
          quads := s.quads.map fun (q, x) => (q, x.without s qk q)
          cores := s.cores.map fun (c, x) => (c, (if x.grid = some qk then { x with grid := none, places := 0 } else x).without
            fun gk => bks.contains (blkOfGrp gk)) }
      let left := (← get).contribs.map (·.1)
      modify fun s => { s with accs := s.accs.map fun (k, rs) => (k, rs.map fun r =>
        { r with held := r.held.filter fun h => left.contains h.2 }) }
      wakeAll fun _ _ w => w == .matrix
      modGrid qk fun g => { g with retiring := some (statusAborted, cause), savedBlks := [], waitq := false }

/-- Taking a trap (R435 to R437): Nested Trap in handler mode; the abort of a grid without a trap entry, but for
Breakpoint; otherwise the instruction is recorded, followed by the entries `rest` still to re-issue, and the handler
is entered as soon as nothing else of the group is outstanding. -/
def takeTrapOf (gk : Nat) (t : TrapInfo) (first : Recorded) (rest : List Recorded) : Op Unit := do
  noteTrap gk t
  let s ← get
  let g ← groupAt gk
  let b ← blockAt (blkOfGrp gk)
  let grid ← need (s.gridOf b.grid)
  if g.handler.isSome then abortGrid b.grid 0x21
  else match trapEntry? grid with
    | none => if t.cause = 0x11 then pure () else abortGrid b.grid t.cause
    | some _ =>
      dropLatches gk
      modGroup gk fun g => { g with
        trapping := some (t, first :: rest)
        replay := []
        asleep := g.asleep.filter fun z => z.on.out }
      tryEnter gk

/-- The trap of the word in progress. -/
def takeTrap (t : TrapInfo) : Op Unit := do
  let c := (← get).cur
  if t.cause = 1 then uncountWord
  let g ← self
  takeTrapOf c.gk t ⟨c.pc, c.slotB, c.act, none⟩ g.replay

/-! Words that trap after others have issued (02_words.md R67) -/

/-- A held word among those of the list, in program order: before later outstanding words and before words that had
not issued (02_words.md R67). -/
def holdIn (r : Recorded) : List Recorded → List Recorded
  | [] => [r]
  | x :: xs =>
    if (match r.num, x.num with
      | some a, some b => decide (b < a)
      | _, _ => false) then x :: holdIn r xs else r :: x :: xs

/-- An outstanding word is held without effect, behind the trap that its group takes. -/
def holdPend (gk id : Nat) : Op Unit := do
  let g ← groupAt gk
  match g.pend.find? (fun p => p.id = id), g.trapping with
  | some p, some (t, list) =>
    putGroup gk { g with
      pend := g.pend.filter fun p => p.id != id
      trapping := some (t, list.take 1 ++ holdIn ⟨p.pc, p.slotB, p.mask, some id⟩ (list.drop 1)) }
    tryEnter gk
  | _, _ => pure ()

/-- An outstanding word ends with a trap (02_words.md R67): the first such word's trap is taken, a later one is held. -/
def trapPend (gk id : Nat) (t : TrapInfo) : Op Unit := do
  let g ← groupAt gk
  match g.pend.find? (fun p => p.id = id) with
  | none => pure ()
  | some p =>
    match g.trapping with
    | none =>
      putGroup gk { g with pend := g.pend.filter fun p => p.id != id }
      takeTrapOf gk t ⟨p.pc, p.slotB, p.mask, some id⟩ g.replay
    | some _ =>
      noteTrap gk t
      holdPend gk id

/-- The outcome of an instruction's operations, its trap taken. -/
def runOp (m : Op Unit) (s : State) : Host.Outcome State Fault Refusal :=
  match m s with
  | .ok _ t => .next t
  | .error .done t => .next t
  | .error (.trap x) t =>
    match takeTrap x t with
    | .ok _ u | .error _ u => .next u

/-- The outcome of operations on a unit that an argument names: one that the package does not have is the model's only fault. -/
def onUnit (absent : Bool) (m : Op Unit) (s : State) : Host.Outcome State Fault Refusal :=
  if absent then .fault .noSuchUnit else runOp m s

/-- The pc and lanes that a return from the handler gives a slot (R438, R440); bits 2:0 of a PC are always 0 (02_words.md R36). -/
def frameSlot (w : Nat) (ctl : Tab W64) (i : Nat) : Slot :=
  let j := (tget 0 ctl (i + 3)).toNat % 2 ^ 32
  { pc := tget 0 ctl i &&& ~~~7
    mask := BitVec.ofNat 128 ((tget 0 ctl (i + 1)).toNat + (tget 0 ctl (i + 2)).toNat * 2 ^ 64) &&& allLanes w
    join := if j = 0xFFFFFFFF then none else some j }

/-- The entries that a return re-issues (R440 step 3): from the list, without those that SKIP removes and
without entry 0 when PERF is set; their lanes from the replay masks. -/
def frameList (ctl : Tab W64) (masks : List Mask) : List Recorded :=
  let flags := (tget 0 ctl 103).toNat / 2 ^ 32
  let n := min 16 (flags / 16 % 32)
  ((List.range n).filter fun i =>
    !(i = 0 && flags % 2 = 1) && !(tget 0 ctl (108 + i)).getLsbD 1).map fun i =>
    let e := tget 0 ctl (108 + i)
    ⟨e &&& ~~~7, e.getLsbD 0, masks.getD i 0, none⟩

/-- The return from a handler (R440): slots and SP from the frame, handler mode left, recorded entries re-issued
first. An SP above 1,024 aborts the grid with Frame Lost. -/
def returnFromTrap : Op Unit := do
  let s ← get
  let g ← self
  let b ← selfBlock
  let sp := (tget 0 g.ctl 99).toNat / 2 ^ 32
  if 1024 < sp then
    abortGrid b.grid 0x22
    finish
  else
    putGroup s.cur.gk
      { g with
        a := frameSlot g.width g.ctl 96
        b := frameSlot g.width g.ctl 100
        sp := sp
        handler := none
        replay := frameList g.ctl g.masks }

/-- Words that raise Illegal Instruction (R60, R61). -/
def illegal {α : Type} (sub : Nat) : Op α := raise 0x01 0 sub

end Sys2Proof.Machine
end

