-- ==== Sys2Proof/Machine/OpTable.lean ====
section
/-! DEFINITION. What each opcode reads and accepts: sources and immediates of F opcodes (05_lane_scalar_ops.md R122), fields of M opcodes (10_memory_ops.md R266, R267, 11_engines_futures.md R300, R307), formats of sweeps (06_sweep_quantise.md R148). -/

namespace Sys2Proof

/-- How many of the sources A, B, C an F opcode reads (R122). -/
def LaneOp.reads : LaneOp → Nat
  | .fp .ffma _ => 3
  | .fp _ _ => 2
  | .fu .fdiv _ => 2
  | .fu _ _ => 1
  | .int .imad _ => 3
  | .int .iabs _ | .int .popc _ | .int .clz _ | .int .brev _ => 1
  | .int _ _ => 2
  | .prmt | .lea _ | .idx2 | .bfi _ | .icmp _ _ | .fcmp _ | .sel _ => 3
  | .mov _ | .fcls _ => 1
  | .fldx _ | .div _ _ _ | .bfx _ _ => 2

/-- The immediate types of FI opcodes (R45, R76). -/
inductive ImmType | signed | unsigned | float (f : Fmt) | compare (us : Bool)
deriving DecidableEq, Repr

/-- The immediate type of an F opcode's FI form, if it has one (R74 to R76). -/
def LaneOp.immType : LaneOp → Option ImmType
  | .fp _ f => some (.float f)
  | .fu _ _ => none
  | .int j _ =>
    match j with
    | .iadd | .isub | .imul | .imad | .imin | .imax => some .signed
    | .iminUs | .imaxUs | .and | .or | .xor | .andn | .shl | .shr | .sar | .rotl => some .unsigned
    | .imulh | .imulhUs | .iabs | .popc | .clz | .brev => none
  | .prmt => some .unsigned
  | .mov _ | .lea _ | .fldx _ => some .signed
  | .bfx _ _ | .bfi _ => some .unsigned
  | .icmp _ us => some (.compare us)
  | .idx2 | .div _ _ _ | .fcmp _ | .fcls _ | .sel _ => none

/-- How many source fields the FI form reads: the immediate stands for the last source, and for
B and C of a compare (R76). -/
def LaneOp.immReads (op : LaneOp) : Nat :=
  match op.immType with
  | some (.compare _) => 1
  | _ => op.reads - 1

/-- Bit 16 of the immediate is reserved in the 16-bit float types (R45). -/
def ImmType.wide : ImmType → Bool
  | .float .h | .float .bf | .float .h2 | .float .bf2 => false
  | _ => true

/-- 64-bit operand forms (R20, R123): .L and .D. -/
def LaneOp.wide : LaneOp → Bool
  | .fp _ f | .fu _ f | .fldx f | .fcmp f | .fcls f => f == .d
  | .int _ l | .mov l | .lea l | .bfi l | .sel l => l
  | .div _ l _ | .bfx l _ | .icmp l _ => l
  | .prmt | .idx2 => false

/-- Pairable opcodes: those below 0x80 (R74, R77). -/
def LaneOp.pairable : LaneOp → Bool
  | .fp _ f => f != .d
  | .fu _ f => f == .s || f == .h
  | .int _ l | .mov l | .lea l => !l
  | .prmt | .idx2 => true
  | .fldx f => f == .s || f == .h
  | .div _ _ _ | .bfx _ _ | .bfi _ | .icmp _ _ | .fcmp _ | .fcls _ | .sel _ => false

/-- The formats an F opcode exists in (R74, R75). -/
def LaneOp.exists? : LaneOp → Bool
  | .fu _ f | .fldx f => f == .s || f == .h || f == .d
  | _ => true

/-- A register field's use in an M opcode (R266, R267). -/
inductive Role
  /-- reserved: zeros -/
  | unused
  /-- lane or scalar register, or inline constant -/
  | any
  /-- lane or scalar register written: no inline constant -/
  | out
  /-- a scalar register, no constant -/
  | sreg
  /-- a scalar register or an inline constant -/
  | sarg
  /-- a block of four scalar registers, number at most 60 -/
  | block
deriving DecidableEq, Repr

/-- Use of bits 11:0 of an M word. -/
inductive OffUse | address | none | split | mode (bits : Nat)
deriving DecidableEq, Repr

/-- What an M opcode accepts (R266). -/
structure MSpec where
  ords   : List Ord
  scopes : List Scope
  evict  : Bool
  data   : Role
  base   : Role
  index  : Role
  off    : OffUse
deriving DecidableEq, Repr

def allScopes : List Scope := [.group, .core, .quad, .die, .package, .pod, .system]
def allOrds : List Ord := [.rlx, .acq, .rel, .ar]

/-- Rows of the table of R266, with R300 and R307 for the engine words. -/
inductive MClass
  | ld | st | ldp | stp | pref | wbinv | fence | wsig | waitln | atom | xchg | red
  | topen | tacq | trel | tsplit | tquery | cpy | gath | scat | coll | future
deriving DecidableEq, Repr

def MClass.spec : MClass → MSpec
  | .ld     => ⟨[.rlx, .acq], allScopes, true, .out, .any, .any, .address⟩
  | .st     => ⟨[.rlx, .rel], allScopes, true, .any, .any, .any, .address⟩
  | .ldp    => ⟨[.rlx], [.group], false, .out, .any, .any, .address⟩
  | .stp    => ⟨[.rlx], [.group], false, .any, .any, .any, .address⟩
  | .pref   => ⟨[.rlx], [.core, .die, .package], true, .unused, .any, .any, .address⟩
  | .wbinv  => ⟨[.rlx], allScopes, false, .unused, .any, .any, .address⟩
  | .fence  => ⟨[.acq, .rel, .ar], allScopes, false, .unused, .unused, .unused, .none⟩
  | .wsig   => ⟨[.rlx, .rel, .ar], allScopes, true, .any, .any, .sreg, .address⟩
  | .waitln => ⟨[.rlx], [.group], false, .sreg, .sreg, .unused, .address⟩
  | .atom   => ⟨allOrds, allScopes, true, .out, .any, .any, .address⟩
  | .xchg   => ⟨allOrds, allScopes, true, .out, .any, .any, .address⟩
  | .red    => ⟨[.rlx, .rel], allScopes, true, .any, .any, .any, .address⟩
  | .topen  => ⟨[.rlx], allScopes, false, .sreg, .sarg, .unused, .none⟩
  | .tacq   => ⟨[.rlx, .acq, .ar], allScopes, false, .sreg, .sarg, .unused, .none⟩
  | .trel   => ⟨[.rlx, .rel, .ar], allScopes, false, .sreg, .sarg, .unused, .none⟩
  | .tsplit => ⟨[.rlx, .rel, .ar], allScopes, false, .sreg, .sarg, .sreg, .split⟩
  | .tquery => ⟨[.rlx], allScopes, false, .sreg, .sarg, .unused, .none⟩
  | .cpy    => ⟨[.rlx], [.group], true, .sreg, .block, .unused, .mode 2⟩
  | .gath   => ⟨[.rlx], [.group], true, .sreg, .block, .unused, .mode 0⟩
  | .scat   => ⟨[.rlx], [.group], true, .sreg, .block, .unused, .mode 2⟩
  | .coll   => ⟨[.rlx], [.group], true, .sreg, .block, .unused, .mode 1⟩
  | .future => ⟨[.rlx], [.group], false, .sreg, .sreg, .unused, .none⟩

/-- Bytes of an access size (R53). -/
def Size.bytes : Size → Nat
  | .b => 1 | .h => 2 | .w => 4 | .d => 8 | .q => 16

/-- Size of the .W and .D forms of atomics. -/
def wd (d : Bool) : Size := if d then .d else .w

/-- Sub-formats each sweep lists (06_sweep_quantise.md R148, R150, R151). -/
def sweepSubs (op : Nat) : List Nat :=
  match op with
  | 2 | 6 => [0, 1, 2]
  | 5 => [0, 1, 2, 3]
  | 8 => [0]
  | 9 => [0, 1]
  | _ => [0, 1, 2, 3]

/-- How many of the bases D, A, B a sweep uses (R148). -/
def sweepUses (op : Nat) : Nat :=
  match op with
  | 5 | 7 | 8 | 9 => 2
  | _ => 3

/-- Whether an X form reads scale registers (07_matrix.md R169). -/
def XFmt.scaled : XFmt → Bool
  | .z4 | .e4sc | .e5sc => true
  | _ => false

/-- Whether an X form accepts the sparse flag (R169). -/
def XFmt.sparseOk : XFmt → Bool
  | .bf | .h | .e4 | .e5 | .i8 => true
  | _ => false

/-- The barrier level's code (13_control_sync_ops.md R355). -/
def BarLevel.code : BarLevel → Nat
  | .block => 0 | .cluster => 1 | .die => 2 | .package => 3 | .pod => 4

end Sys2Proof
end

