-- ==== Sys2Proof/Machine/Alu.lean ====
section
/-! DEFINITION. What a lane operation computes from the values of its sources (05_lane_scalar_ops.md R126 to R140): operands and results are n-bit patterns as natural numbers (R123). -/

namespace Sys2Proof

/-- The format of one element (half of a packed format). -/
def Fmt.nf : Fmt → NF
  | .d => .f64
  | .s => .f32
  | .h | .h2 => .f16
  | .bf | .bf2 => .bf16

def Fmt.packed : Fmt → Bool
  | .h2 | .bf2 => true
  | _ => false

/-- The operand width n (R123). -/
def LaneOp.n (op : LaneOp) : Nat := if op.wide then 64 else 32

/-- One element operation over the halves of a packed format, or over the low bits of another (R103, R123). -/
def onFmt (f : Fmt) (g : Nat → Nat → Nat → Res) (a b c : Nat) : Res :=
  let w := f.nf.width
  let r0 := g (a % 2 ^ w) (b % 2 ^ w) (c % 2 ^ w)
  if f.packed then
    let r1 := g (a / 2 ^ 16 % 2 ^ 16) (b / 2 ^ 16 % 2 ^ 16) (c / 2 ^ 16 % 2 ^ 16)
    (r1.1 * 2 ^ 16 + r0.1, r0.2.or r1.2)
  else r0

/-- A value rounded to nearest even, counting NV when it is a NaN from inputs that are not (R111, R117, R135). -/
def roundRes (f : NF) (ins : List FVal) (v : FVal) : Res :=
  let r := fround f .rne v
  (r.code, { nv := v.isNan && !ins.any FVal.isNan, of := r.of })

/-- FMIN and FMAX on codes (R136): -0 is smaller than +0. -/
def minMax (f : NF) (max : Bool) (a b : Nat) : Res :=
  let x := fdec f a
  let y := fdec f b
  match x.isNan, y.isNan with
  | true, true => (f.nanCode, .none)
  | true, false => (b, .none)
  | false, true => (a, .none)
  | false, false =>
    let less := match x.cmp y with
      | .lt => true
      | .gt => false
      | .eq => x.neg? || !y.neg?
    (if less != max then a else b, .none)

/-- FADD to FMAX on codes of one format (R135, R136). -/
def FpOp.eval (j : FpOp) (f : NF) (a b c : Nat) : Res :=
  let x := fdec f a
  let y := fdec f b
  match j with
  | .fadd => roundRes f [x, y] (x.add y)
  | .fsub => roundRes f [x, y] (x.add y.negate)
  | .fmul => roundRes f [x, y] (x.mul y)
  | .ffma =>
    let z := fdec f c
    roundRes f [x, y, z] ((x.mul y).add z)
  | .fmin => minMax f false a b
  | .fmax => minMax f true a b

/-- The special and exact cases of FRSQ and FSQRT (R137). -/
def rootVal (recip : Bool) : FVal → FVal
  | .nan => .nan
  | .inf true => .nan
  | .inf false => if recip then .fin false 0 0 else .inf false
  | .fin n m e =>
    if m = 0 then if recip then .inf n else .fin n 0 0
    else if n then .nan
    else if recip then rsqrtPos m e else sqrtPos m e

/-- FRCP to FCOS on codes (R137). -/
def FuOp.eval (j : FuOp) (f : NF) (a b : Nat) : Res :=
  let x := fdec f a
  let fin (r : Rnd) : Res := (r.code, { nv := r.code = f.nanCode && !x.isNan, of := r.of })
  match j with
  | .frcp => roundRes f [x] ((FVal.fin false 1 0).div x)
  | .frsq => roundRes f [x] (rootVal true x)
  | .fsqrt => roundRes f [x] (rootVal false x)
  | .fdiv => roundRes f [x, fdec f b] (x.div (fdec f b))
  | .fex2 => fin (fexp2 f a x)
  | .flg2 => fin (flog2 f a x)
  | .fsin => fin (ftrig f false a x)
  | .fcos => fin (ftrig f true a x)

/-- ShiftR and ShiftL (02_words.md R69). -/
def shiftL (n x c : Nat) : Nat := if n ≤ c then 0 else (x <<< c) % 2 ^ n
def shiftR (n x c : Nat) : Nat := if n ≤ c then 0 else (x % 2 ^ n) >>> c

/-- Bit `i` moved to bit `n - 1 - i` (R128). -/
def bitRev : Nat → Nat → Nat
  | 0, _ => 0
  | n + 1, x => (x % 2) * 2 ^ n + bitRev n (x / 2)

/-- Integer arithmetic, logic, shifts and counts (R126, R128). -/
def IntOp.eval (j : IntOp) (n a b c : Nat) : Nat :=
  let sa := sext a n
  let sb := sext b n
  match j with
  | .iadd => (a + b) % 2 ^ n
  | .isub => wrap n ((a : Int) - b)
  | .imul => (a * b) % 2 ^ n
  | .imulh => wrap n ((sa * sb) / (2 ^ n : Int))
  | .imulhUs => a * b / 2 ^ n
  | .imad => (a * b + c) % 2 ^ n
  | .imin => wrap n (min sa sb)
  | .iminUs => min a b
  | .imax => wrap n (max sa sb)
  | .imaxUs => max a b
  | .iabs => sa.natAbs % 2 ^ n
  | .and => Nat.land a b
  | .or => Nat.lor a b
  | .xor => Nat.xor a b
  | .andn => Nat.land a (bitNot b n)
  | .shl => shiftL n a b
  | .shr => shiftR n a b
  | .sar => wrap n (sa / (2 ^ (if n ≤ b then n - 1 else b) : Int))
  | .rotl =>
    let k := b % n
    Nat.lor (shiftL n a k) (shiftR n a (n - k))
  | .popc => popCount n a
  | .clz => if a = 0 then n else n - 1 - a.log2
  | .brev => bitRev n a

/-- IDIV and IREM (R127). -/
def divEval (rem us : Bool) (n a b : Nat) : Nat :=
  if b = 0 then if rem then a else 2 ^ n - 1
  else if us then if rem then a % b else a / b
  else
    let q := (sext a n).tdiv (sext b n)
    wrap n (if rem then sext a n - q * sext b n else q)

/-- The position and the length of a bit field after clipping (R129). -/
def fieldOf (n ctl : Nat) : Nat × Nat :=
  let pos := bits ctl 7 0
  let len := bits ctl 15 8
  if n ≤ pos then (pos, 0) else if n < pos + len then (pos, n - pos) else (pos, len)

/-- BFX and BFX.US (R129). -/
def bfxEval (us : Bool) (n a ctl : Nat) : Nat :=
  let (pos, len) := fieldOf n ctl
  let f := shiftR n a pos % 2 ^ len
  if us then f else wrap n (sext f len)

/-- BFI (R129). -/
def bfiEval (n a b ctl : Nat) : Nat :=
  let (pos, len) := fieldOf n ctl
  let m := shiftL n (2 ^ len - 1) pos
  Nat.lor (Nat.land a (bitNot m n)) (Nat.land (shiftL n b pos) m)

/-- Result byte `j` of PRMT below which `r` is already built (R130). -/
def prmtByte (x c r j : Nat) : Nat :=
  if bitOf c (12 + j) then
    if bitOf c 16 && j != 0 && bitOf r (8 * j - 1) then 0xFF else 0
  else (x >>> (8 * bits c (3 * j + 2) (3 * j))) % 256

/-- PRMT (R130). -/
def prmtEval (a b c : Nat) : Nat :=
  let x := a + b * 2 ^ 32
  let r0 := prmtByte x c 0 0
  let r1 := r0 + prmtByte x c r0 1 * 2 ^ 8
  let r2 := r1 + prmtByte x c r1 2 * 2 ^ 16
  r2 + prmtByte x c r2 3 * 2 ^ 24

/-- IDX2 (R131). -/
def idx2Eval (a b c : Nat) : Nat :=
  (a % 2 ^ 16 * (b % 2 ^ 16) + a / 2 ^ 16 * (b / 2 ^ 16) + c) % 2 ^ 32

/-- ICMP's condition (R132). -/
def icmpCond (us : Bool) (n a b c : Nat) : Bool :=
  let lt := if us then decide (a < b) else decide (sext a n < sext b n)
  match c % 8 with
  | 0 => a == b
  | 1 => a != b
  | 2 => lt
  | 3 => lt || a == b
  | 4 => !(lt || a == b)
  | 5 => !lt
  | 6 => Nat.land a b == 0
  | _ => Nat.land a b != 0

/-- FCMP's condition on one element (R132). -/
def fcmpCond (f : NF) (a b c : Nat) : Bool :=
  let x := fdec f a
  let y := fdec f b
  let un := x.isNan || y.isNan
  let o := x.cmp y
  match c % 8 with
  | 0 => !un && o == .eq
  | 1 => un || o != .eq
  | 2 => !un && o == .lt
  | 3 => !un && o != .gt
  | 4 => !un && o == .gt
  | 5 => !un && o != .lt
  | 6 => un
  | _ => !un

/-- The condition of a compare, over both halves of a packed format (R133). -/
def LaneOp.cond (op : LaneOp) (a b c : Nat) : Bool :=
  match op with
  | .icmp l us => icmpCond us (if l then 64 else 32) a b c
  | .fcmp f =>
    let w := f.nf.width
    fcmpCond f.nf (a % 2 ^ w) (b % 2 ^ w) c &&
    (!f.packed || fcmpCond f.nf (a / 2 ^ 16 % 2 ^ 16) (b / 2 ^ 16 % 2 ^ 16) c)
  | _ => false

/-- FRND on a code (R139). -/
def frndEval (f : NF) (rm : Rm) (a : Nat) : Nat :=
  match fdec f a with
  | .nan => f.nanCode
  | .inf _ => a
  | .fin n m e =>
    let x := toInteger rm n m e
    (fround f .rz (.fin n x.natAbs 0)).code

/-- A mask of `n` ones when `b` holds. -/
def onesIf (n : Nat) (b : Bool) : Nat := if b then 2 ^ n - 1 else 0

/-- What a lane operation computes from its sources (R126 to R140). FLDX beyond 2^±8192 rounds as at that bound. -/
def LaneOp.eval (op : LaneOp) (a b c : Nat) : Res :=
  match op with
  | .fp j f => onFmt f (j.eval f.nf) a b c
  | .fu j f => onFmt f (fun x y _ => j.eval f.nf x y) a b c
  | .int j _ => (j.eval op.n a b c, .none)
  | .prmt => (prmtEval a b c, .none)
  | .mov _ => (a, .none)
  | .lea _ => ((a + b * 2 ^ (c % 16)) % 2 ^ op.n, .none)
  | .idx2 => (idx2Eval a b c, .none)
  | .fldx f =>
    let x := fdec f.nf (a % 2 ^ f.nf.width)
    roundRes f.nf [x] (x.scale (max (-8192) (min 8192 (sext b op.n))))
  | .div rem _ us => (divEval rem us op.n a b, .none)
  | .bfx _ us => (bfxEval us op.n a b, .none)
  | .bfi _ => (bfiEval op.n a b c, .none)
  | .icmp _ us => (onesIf op.n (icmpCond us op.n a b c), .none)
  | .fcmp f => onFmt f (fun x y _ => (onesIf f.nf.width (fcmpCond f.nf x y c), .none)) a b 0
  | .fcls f =>
    if f.packed then
      (fclass f.nf (a / 2 ^ 16 % 2 ^ 16) * 2 ^ 16 + fclass f.nf (a % 2 ^ 16), .none)
    else (fclass f.nf (a % 2 ^ f.nf.width), .none)
  | .sel _ => (if c != 0 then a else b, .none)

/-- FRND in every format (R139); no event is counted. -/
def frndFmt (f : Fmt) (rm : Rm) (a : Nat) : Res :=
  onFmt f (fun x _ _ => (frndEval f.nf rm x, .none)) a 0 0

/-- Whether source `i` of a lane operation is a floating-point operand, and in which format (R123). -/
def LaneOp.floatSrc (op : LaneOp) (i : Nat) : Option Fmt :=
  match op with
  | .fp _ f | .fu _ f | .fcls f => some f
  | .fldx f => if i = 0 then some f else none
  | .fcmp f => if i < 2 then some f else none
  | _ => none

/-- The FP32 codes of the inline constants 112 to 127 (02_words.md R40). -/
def constF32 : List Nat :=
  [0x3F000000, 0xBF000000, 0x3F800000, 0xBF800000, 0x40000000, 0xC0000000, 0x40800000, 0xC0800000,
   0x3E800000, 0xBE800000, 0x40490FDB, 0x3E22F983, 0x3F317218, 0x3FB8AA3B, 0x7F800000, 0xFF800000]

/-- The inline constant of index 64 + `i` in an integer operation of width `n` (R40). -/
def constInt (n i : Nat) : Nat :=
  if i < 32 then i else if i < 48 then wrap n ((i : Int) - 48) else constF32.getD (i - 48) 0

/-- A code in both halves of a packed format. -/
def Fmt.both (f : Fmt) (x : Nat) : Nat := if f.packed then x * 2 ^ 16 + x else x

/-- π, 1/(2π), ln 2 and log2 e times 2^110, to the nearest integer, by index less 64 (R40): no rounding of them to a format
of the machine falls within their error. -/
def irrational : List (Nat × Nat) :=
  [(58, 0xC90FDAA22168C234C4C6628B80DC), (59, 0xA2F9836E4E441529FC2757D1F53), (60, 0x2C5C85FDF473DE6AF278ECE600FD),
   (61, 0x5C551D94AE0BF85DDF43FF68348F)]

/-- The inline constant of index 64 + `i` in a floating-point operation, before its rounding to the operand's format (R40). -/
def constReal (i : Nat) : FVal :=
  if i < 32 then .ofInt i else if i < 48 then .ofInt ((i : Int) - 48)
  else match irrational.lookup i with
    | some m => .fin false m (-110)
    | none => fdec .f32 (constF32.getD (i - 48) 0)

/-- The constant in the operand's format (R40). -/
def constFloat (f : Fmt) (i : Nat) : Nat := f.both (fround f.nf .rne (constReal i)).code

/-- ImmValue (R45, R76): the 17-bit immediate `i` in the operand width; a compare's immediate stands for
B in bits 16:3 and for the condition in bits 2:0. -/
def LaneOp.immVal (op : LaneOp) (i : Nat) : Nat :=
  match op.immType with
  | some .signed => wrap op.n (sext i 17)
  | some .unsigned => i
  | some (.float f) =>
    match f with
    | .s => i * 2 ^ 15
    | .d => (fround .f64 .rne (fdec .f32 (i * 2 ^ 15))).code
    | _ => f.both (i % 2 ^ 16)
  | some (.compare us) => if us then i / 8 else wrap op.n (sext (i / 8) 14)
  | none => 0

end Sys2Proof
end

