-- ==== Sys2Proof/Machine/Quant.lean ====
section
/-! DEFINITION. What conversion, quantisation and sweep elements compute (06_sweep_quantise.md R147 to R151, R156 to R167). Values of lanes and words are natural numbers. -/

namespace Sys2Proof

/-- A number format of CVT: a floating format, or an integer of so many bits. -/
def NumFmt.kind : NumFmt → NF ⊕ Nat
  | .f64 => .inl .f64
  | .f32 => .inl .f32
  | .f16 => .inl .f16
  | .bf16 => .inl .bf16
  | .e4m3 => .inl .e4m3
  | .e5m2 => .inl .e5m2
  | .i8 => .inr 8
  | .i32 => .inr 32
  | .i64 => .inr 64

/-- 64-bit formats are read from and written to register pairs (R156). -/
def NumFmt.wide : NumFmt → Bool
  | .f64 | .i64 => true
  | _ => false

/-- CVT (R157). -/
def cvtEval (src dst : NumFmt) (rm : Rm) (us : Bool) (a : Nat) : Res :=
  let int (n : Nat) : Int := if us then (a % 2 ^ n : Nat) else sext a n
  match src.kind, dst.kind with
  | .inl f, .inl g =>
    let x := fdec f (a % 2 ^ f.width)
    let r := fround g rm x
    (r.code, { nv := !x.isNan && (fdec g r.code).isNan, of := r.of })
  | .inl f, .inr n =>
    let r := roundInt (fdec f (a % 2 ^ f.width)) n (!us) rm
    (wrap n r.val, { ic := r.ic })
  | .inr n, .inl g =>
    let r := fround g rm (FVal.ofInt (int n))
    (r.code, { of := r.of })
  | .inr n, .inr k =>
    let r := clampInt (int n) k (!us)
    (wrap k r.val, { ic := r.ic })

/-- CVTS (R158): `idx` is the value of source C. -/
def cvtsEval (src dst : NumFmt) (seed idx a : Nat) : Res :=
  match src.kind, dst.kind with
  | .inl f, .inl g =>
    let x := fdec f (a % 2 ^ f.width)
    let r := sround g x seed idx
    (r.code, { nv := !x.isNan && (fdec g r.code).isNan, of := r.of })
  | _, _ => (0, .none)

/-- The element format of a block format (R161, R162). -/
def BlkFmt.nf : BlkFmt → NF
  | .z4 => .e2m1
  | .e4 => .e4m3
  | .e5 => .e5m2

/-- Whether a value is NaN or an infinity. -/
def FVal.special (x : FVal) : Bool := x.isNan || x.isInf

/-- The largest magnitude of a list of finite values. -/
def maxAbs (xs : List FVal) : FVal :=
  xs.foldl (fun m x => if m.cmp x.abs == .lt then x.abs else m) (.fin false 0 0)

/-- The smallest scale byte not below `e` that brings `amax` within `lim`, or 254 (R163). -/
def scaleFrom (amax lim : FVal) : Nat → Nat → Nat
  | 0, _ => 254
  | fuel + 1, e =>
    if (amax.scale (127 - (e : Int))).cmp lim != .gt then e else scaleFrom amax lim fuel (e + 1)

/-- QSCL on the 32 FP32 values of a block (R163): the side word. -/
def qsclEval (f : BlkFmt) (xs : List FVal) : Res :=
  let amax := maxAbs xs
  if xs.any FVal.special then (0xFF00, { nv := !xs.any FVal.isNan })
  else if amax.isZero then (127 * 256, .none)
  else
    let lim := fdec f.nf f.nf.maxCode
    (scaleFrom amax lim 255 0 * 256, .none)

/-- |x - y| for finite values. -/
def FVal.dist (x y : FVal) : FVal := (x.add y.negate).abs

/-- Packed codes of `w` bits, element 0 lowest (R103). -/
def packCodes (w : Nat) : List Nat → Nat
  | [] => 0
  | c :: cs => c + packCodes w cs * 2 ^ w

/-- The words of 32 bits of packed codes. -/
def elems32 (n x : Nat) : List Nat := (List.range n).map fun m => x / 2 ^ (32 * m) % 2 ^ 32

/-- The index of the first largest element of a list of magnitudes. -/
def firstMax (ds : List FVal) : Nat :=
  ((ds.zipIdx.foldl (fun (m : FVal × Nat) (d, i) => if m.1.cmp d == .lt then (d, i) else m))
    (ds.headD (.fin false 0 0), 0)).2

/-- QPK4 on a block with scale byte `x` (R164): four packed words and the side word. -/
def qpk4Eval (x : Nat) (xs : List FVal) : List Nat × Ev :=
  if x = 0xFF || xs.any FVal.special then
    ([0, 0, 0, 0, 0xFF00], { nv := x != 0xFF && !xs.any FVal.isNan })
  else
    let ys := xs.map (FVal.scale (127 - (x : Int)))
    let qs := ys.map (fround .e2m1 .rne)
    let errs := (ys.zip qs).map fun (y, q) => y.dist (fdec .e2m1 q.code)
    let k := firstMax errs
    let ev : Ev := { of := qs.any (·.of) }
    if (errs.getD k .nan).isZero then
      (elems32 4 (packCodes 4 (qs.map (·.code))) ++ [x * 256], ev)
    else
      let y := fround .e4m3 .rne (ys.getD k .nan)
      let v := fdec .e4m3 y.code
      let codes := (ys.zip (qs.zip errs)).map fun (yi, q, e) =>
        if (yi.dist v).cmp e == .lt then 8 else q.code
      (elems32 4 (packCodes 4 codes) ++ [x * 256 + y.code], ev.or { of := y.of })

/-- QPK8 on a block with scale byte `x` (R165): eight packed words. -/
def qpk8Eval (e5 : Bool) (x : Nat) (xs : List FVal) : List Nat × Ev :=
  let g : NF := if e5 then .e5m2 else .e4m3
  let rs : List Res := xs.map fun v =>
    if x = 0xFF then (g.nanCode, .none)
    else
      let r := fround g .rne (v.scale (127 - (x : Int)))
      (r.code, { nv := !v.isNan && (fdec g r.code).isNan, of := r.of })
  (elems32 8 (packCodes 8 (rs.map (·.1))), evsOf rs)

/-- QUNP's element of code `c` (R166). -/
def qunpEval (f : BlkFmt) (x y c : Nat) : Res :=
  let v := match f with
    | .z4 => decodeZ4 c x y
    | _ => decodeBlk f.nf c x
  let r := fround .f32 .rne v
  (r.code, { of := r.of, sb := x = 0xFF })

/-- QHAD's segment (R167): the values at lanes tn to tn + n - 1, the first at position `i0`. -/
def qhadEval (n : Nat) (inv : Bool) (seed i0 : Nat) (xs : List FVal) : List Res :=
  (List.range n).map fun i =>
    let r := hadRow n (fun j => !inv && signBit seed (i0 + j)) xs i
    let v := fdec .f32 r.code
    let code := if inv && signBit seed (i0 + i) && !v.isNan then Nat.xor r.code 0x80000000 else r.code
    (code, { nv := v.isNan && !xs.any FVal.isNan, of := r.of })

/-! Elements of sweeps -/

/-- The lane operation that computes one 32-bit word of SWADD, SWMUL, SWFMA, SWMAX and SWMIN (R148). -/
def sweepOp (op sub : Nat) : LaneOp :=
  let f : Fmt := if sub = 0 then .s else if sub = 1 then .h2 else .bf2
  if sub = 3 then
    .int (match op with
      | 0 => .iadd
      | 1 => .imul
      | 3 => .imax
      | 4 => .imin
      | _ => .iadd) false
  else .fp (match op with
    | 0 => .fadd
    | 1 => .fmul
    | 2 => .ffma
    | 3 => .fmax
    | 4 => .fmin
    | _ => .fadd) f

/-- SWEXP's element: 2^t of the exact difference (R148). -/
def swexpElem (f : NF) (a b : Nat) : Res :=
  let x := fdec f a
  let y := fdec f b
  let t := exactSum [x, y.negate]
  let r := fexp2 f (a * 2 ^ 32 + b) t
  (r.code, { nv := t.isNan && !x.isNan && !y.isNan, of := r.of })

/-- One 32-bit word of SWEXP. -/
def swexpWord (sub a b : Nat) : Res :=
  onFmt (if sub = 0 then .s else if sub = 1 then .h2 else .bf2)
    (fun x y _ => swexpElem (if sub = 0 then .f32 else if sub = 1 then .f16 else .bf16) x y) a b 0

/-- One element of SWCVT (R150). -/
def swcvtElem (sub a : Nat) : Res :=
  let s : NumFmt := if sub < 2 then .f32 else if sub = 2 then .bf16 else .f16
  let d : NumFmt := if sub = 0 then .bf16 else if sub = 1 then .f16 else .f32
  cvtEval s d .rne false a

end Sys2Proof
end

