-- ==== Sys2Proof/WellFormed.lean ====
section
/-! DEFINITION. Well-formed instructions: those that the encodings of the spec can express, with every check on a word that needs neither the group's state nor the partition's (02_words.md R60, R61 subcodes 3 to 5). -/

namespace Sys2Proof

/-- The source field of zeros. -/
def Src.zero : Src := .lane 0 .ident
/-- The register field of zeros. -/
def Reg.zero : Reg := .lane 0

def Src.isLane : Src → Bool
  | .lane _ _ => true
  | _ => false

def Reg.isLane : Reg → Bool
  | .lane _ => true
  | _ => false

def Dst.isLane : Dst → Bool
  | .lane _ => true
  | _ => false

/-- Patterns 010 to 110 use the crossbar parameter (R122). -/
def Src.usesPar : Src → Bool
  | .lane _ .rotate | .lane _ .broadcast | .lane _ .butterfly | .lane _ .mirror
  | .lane _ .octet => true
  | _ => false

/-- Sources of an FI word: patterns 000, 001 and 101 (R44). -/
def Src.immOk : Src → Bool
  | .lane _ .ident | .lane _ .keep | .lane _ .mirror => true
  | .lane _ _ => false
  | _ => true

/-- Source `i` of an F word. -/
def FArgs.src : FArgs → Nat → Src
  | .reg a _ _ _, 0 => a
  | .reg _ b _ _, 1 => b
  | .reg _ _ c _, _ => c
  | .imm a _ _, 0 => a
  | .imm _ b _, _ => b

/-- Source fields of an F or FI word of an opcode that reads `n` sources, and `ni` in its FI form of
immediate type `ty`: unread fields zero, the parameter only where a pattern uses it. -/
def FArgs.wf (n ni : Nat) (ty : Option ImmType) : FArgs → Bool
  | .reg a b c par =>
    (2 ≤ n || b == .zero) && (3 ≤ n || c == .zero) &&
    (par == 0 || a.usesPar || (2 ≤ n && b.usesPar) || (3 ≤ n && c.usesPar))
  | .imm a b i =>
    match ty with
    | none => false
    | some t => (1 ≤ ni || a == .zero) && (2 ≤ ni || b == .zero) && a.immOk && b.immOk &&
        (t.wide || i.getLsbD 16 == false)

/-- A scalar destination takes no lane-class source (R43). -/
def FArgs.noLane (n ni : Nat) : FArgs → Bool
  | .reg a b c _ => !(1 ≤ n && a.isLane) && !(2 ≤ n && b.isLane) && !(3 ≤ n && c.isLane)
  | .imm a b _ => !(1 ≤ ni && a.isLane) && !(2 ≤ ni && b.isLane)

/-- A well-formed F or FI word of a lane operation. -/
def FWord.wf (op : LaneOp) (o : FWord) : Bool :=
  op.exists? && o.args.wf op.reads op.immReads op.immType &&
  (o.dst.isLane || o.args.noLane op.reads op.immReads)

/-- A well-formed F word of `n` sources that has no FI form. -/
def FWord.wfReg (n : Nat) (o : FWord) : Bool := o.args.wf n 0 none

/-- A well-formed F or FI word that writes a predicate (R133). -/
def FSrc.wf (op : LaneOp) (o : FSrc) : Bool := o.args.wf op.reads op.immReads op.immType

/-- A well-formed F word with a mode field. -/
def FMode.wf (scalarOk : Bool) (o : FMode) : Bool :=
  (o.par == 0 || o.a.usesPar) && (o.dst.isLane || scalarOk || !o.a.isLane)

/-- A register field in its role (R267). -/
def Role.ok : Role → Reg → Bool
  | .unused, r => r == .zero
  | .any, _ => true
  | .out, .const _ => false
  | .out, _ => true
  | .sreg, .sreg _ => true
  | .sreg, _ => false
  | .sarg, .lane _ => false
  | .sarg, _ => true
  | .block, .sreg m => m.toNat ≤ 60
  | .block, _ => false

/-- Bits 11:0 in their use. -/
def OffUse.ok : OffUse → BitVec 12 → Bool
  | .address, _ => true
  | .none, x => x == 0
  | .split, x => x.extractLsb' 2 2 == 0 && x.extractLsb' 8 4 == 0
  | .mode n, x => x.toNat < 2 ^ n

/-- Per-lane accesses (R267): one of the address and data fields is lane-class. -/
def MWord.lanes (o : MWord) (data index : Bool) : Bool :=
  (data && o.data.isLane) || o.base.isLane || (index && o.index.isLane)

/-- A well-formed M word of a class (R266, R267): every field in its role, and no scalar destination
in a per-lane access. -/
def MWord.wf (c : MClass) (o : MWord) : Bool :=
  let s := c.spec
  s.ords.contains o.ord && s.scopes.contains o.scope && (s.evict || o.evict == 0) &&
  s.data.ok o.data && s.base.ok o.base && s.index.ok o.index && s.off.ok o.off &&
  !(s.data == .out && !o.data.isLane && (c == .ldp || o.base.isLane || o.index.isLane)) &&
  !(c == .scat && o.off == 3)

/-- A well-formed X word of a product form (R170). -/
def XWord.wf (f : XFmt) (sparse : Bool) (o : XWord) : Bool :=
  o.desc.toNat ≤ 60 && o.kcount != 0 &&
  (if f.scaled then o.selA.toNat + o.kcount.toNat ≤ 4 && o.selB.toNat + o.kcount.toNat ≤ 4
   else o.scale == 0 && o.selA == 0 && o.selB == 0) &&
  !(f == .z4 && (o.ta || o.tb)) && (!sparse || (f.sparseOk && !o.ta))

/-- A well-formed S word of sweep `op` (0xE0 + `op`) (R145, R148, R149, R151). -/
def SWord.wf (op : Nat) (o : SWord) : Bool :=
  o.count != 0 && (sweepSubs op).contains o.sub.toNat &&
  (3 ≤ sweepUses op || (o.r2 == 0 && o.step2 == 0)) &&
  !(op == 7 && o.step0 != 0) && !(op == 9 && o.step1 != 0)

/-- A well-formed half of a P word (R48, R60): an unread B field is zero. -/
def Half.wf (h : Half) : Bool := h.op.exists? && h.op.pairable && (2 ≤ h.op.reads || h.b == 0)

/-- The registers a half reads: A, B, and its destination read as C (R49). -/
def Half.readRegs (h : Half) : List (BitVec 8) :=
  if h.op.reads = 1 then [h.a] else if h.op.reads = 2 then [h.a, h.b] else [h.a, h.b, h.d]

/-- The bank of a lane register (R50). -/
def bank (v : BitVec 8) : Nat := v.toNat % 4

/-- The pairing rules on destinations, reads and order (R50). -/
def pairOk (h0 h1 : Half) : Bool :=
  bank h0.d != bank h1.d &&
  (List.range 4).all (fun b => ((h0.readRegs ++ h1.readRegs).filter (fun v => bank v == b)).length ≤ 2) &&
  !h1.readRegs.contains h0.d

/-- CVTS pairs (06_sweep_quantise.md R158). -/
def cvtsOk (src dst : NumFmt) : Bool :=
  match src with
  | .f64 => dst == .f32 || dst == .f16 || dst == .bf16 || dst == .e4m3 || dst == .e5m2
  | .f32 => dst == .f16 || dst == .bf16 || dst == .e4m3 || dst == .e5m2
  | .f16 | .bf16 => dst == .e4m3 || dst == .e5m2
  | _ => false

def NumFmt.isInt : NumFmt → Bool
  | .i8 | .i32 | .i64 => true
  | _ => false

/-- Bits 1:0 of the word that an inline constant writes to TRAPCAUSE (16_recovery.md R440, R441):
integer constants by their value, indices 112 to 127 by the low bits of their FP32 code. -/
def trapcauseBits (i : BitVec 6) : Nat :=
  match i.toNat with
  | 58 => 3  -- pi, 0x4049_0FDB
  | 59 => 3  -- 1/(2 pi), 0x3E22_F983
  | 60 => 0  -- ln 2, 0x3F31_7218
  | 61 => 3  -- log2 e, 0x3FB8_AA3B
  | n => if n < 48 then n % 4 else 0

/-- Every well-formed instruction (WellFormed says what an encoding can express; the arguments of an
event are names of units, bounded by the package's figures where the step reads them). -/
def Instr.wf : Instr → Bool
  | .pairWord h0 h1 => h0.wf && h1.wf && pairOk h0 h1
  | .iadd l o => o.wf (.int .iadd l)
  | .isub l o => o.wf (.int .isub l)
  | .imul l o => o.wf (.int .imul l)
  | .imulh us l o => o.wf (.int (if us then .imulhUs else .imulh) l)
  | .imad l o => o.wf (.int .imad l)
  | .imin us l o => o.wf (.int (if us then .iminUs else .imin) l)
  | .imax us l o => o.wf (.int (if us then .imaxUs else .imax) l)
  | .iabs l o => o.wf (.int .iabs l)
  | .idiv l us o => o.wf (.div false l us)
  | .irem l us o => o.wf (.div true l us)
  | .and l o => o.wf (.int .and l)
  | .or l o => o.wf (.int .or l)
  | .xor l o => o.wf (.int .xor l)
  | .andn l o => o.wf (.int .andn l)
  | .shl l o => o.wf (.int .shl l)
  | .shr l o => o.wf (.int .shr l)
  | .sar l o => o.wf (.int .sar l)
  | .rotl l o => o.wf (.int .rotl l)
  | .popc l o => o.wf (.int .popc l)
  | .clz l o => o.wf (.int .clz l)
  | .brev l o => o.wf (.int .brev l)
  | .bfx l us o => o.wf (.bfx l us)
  | .bfi l o => o.wf (.bfi l)
  | .prmt o => o.wf .prmt
  | .mov _ o => o.wfReg 1 && (o.dst.isLane || o.args.noLane 1 0)
  | .movi _ _ _ _ => true
  | .movh _ dst a _ => a.immOk && (dst.isLane || !a.isLane)
  | .lea l o => o.wf (.lea l)
  | .idx2 o => o.wf .idx2
  | .icmp l us o => o.wf (.icmp l us)
  | .icmpK l us _ o => o.wf (.icmp l us)
  | .sel l o => o.wf (.sel l)
  | .fadd f o => o.wf (.fp .fadd f)
  | .fsub f o => o.wf (.fp .fsub f)
  | .fmul f o => o.wf (.fp .fmul f)
  | .ffma f o => o.wf (.fp .ffma f)
  | .fmin f o => o.wf (.fp .fmin f)
  | .fmax f o => o.wf (.fp .fmax f)
  | .frcp f o => o.wf (.fu .frcp f)
  | .frsq f o => o.wf (.fu .frsq f)
  | .fsqrt f o => o.wf (.fu .fsqrt f)
  | .fdiv f o => o.wf (.fu .fdiv f)
  | .fex2 f o => o.wf (.fu .fex2 f)
  | .flg2 f o => o.wf (.fu .flg2 f)
  | .fsin f o => o.wf (.fu .fsin f)
  | .fcos f o => o.wf (.fu .fcos f)
  | .fldx f o => o.wf (.fldx f)
  | .frnd _ _ o => o.wf false
  | .fcmp f o => o.wf (.fcmp f)
  | .fcmpK f _ o => o.wf (.fcmp f)
  | .fcls f o => o.wf (.fcls f)
  | .lshfl o => o.wfReg 2 && (o.dst.isLane || o.args.noLane 2 0)
  | .lvote _ o => o.wf true
  | .lscan _ _ excl o => o.wf true && (o.dst.isLane || !excl)
  | .lred _ _ o => o.wf true
  | .cvt src dst _ us o => o.wf false && (!us || src.isInt || dst.isInt)
  | .cvts src dst o c =>
    cvtsOk src dst && (o.par == 0 || o.a.usesPar || c.usesPar) &&
    (o.dst.isLane || (!o.a.isLane && !c.isLane))
  | .qseed _ _ => true
  | .qscl _ o => o.wf false && o.dst.isLane
  | .qpk4 o => o.wfReg 2 && o.dst.isLane
  | .qpk8 _ o => o.wfReg 2 && o.dst.isLane
  | .qunp _ o => o.wfReg 2 && o.dst.isLane
  | .qhad _ _ o _ => o.wf false && o.dst.isLane
  | .swadd o => o.wf 0
  | .swmul o => o.wf 1
  | .swfma o => o.wf 2
  | .swmax o => o.wf 3
  | .swmin o => o.wf 4
  | .swcvt o => o.wf 5
  | .swexp o => o.wf 6
  | .swsum o => o.wf 7
  | .swcpy o => o.wf 8
  | .swset o => o.wf 9
  | .ld z sx o => o.wf .ld && (!sx || z == .b || z == .h)
  | .st _ o => o.wf .st
  | .ldp z sx o => o.wf .ldp && (!sx || z == .b || z == .h)
  | .stp _ o => o.wf .stp
  | .pref o => o.wf .pref
  | .wb o => o.wf .wbinv
  | .inv o => o.wf .wbinv
  | .fence o => o.wf .fence
  | .wsig _ o => o.wf .wsig
  | .waitln o => o.wf .waitln
  | .aadd _ o => o.wf .atom
  | .amin _ _ o => o.wf .atom
  | .amax _ _ o => o.wf .atom
  | .aand _ o => o.wf .atom
  | .aor _ o => o.wf .atom
  | .axor _ o => o.wf .atom
  | .axch _ o => o.wf .xchg
  | .acas _ o => o.wf .xchg
  | .acasQ o => o.wf .xchg
  | .ainc _ o => o.wf .atom
  | .afadd f o => o.wf .atom && (f == .s || f == .d || f == .h2 || f == .bf2)
  | .redAdd _ o => o.wf .red
  | .redMin _ _ o => o.wf .red
  | .redMax _ _ o => o.wf .red
  | .redAnd _ o => o.wf .red
  | .redOr _ o => o.wf .red
  | .redXor _ o => o.wf .red
  | .redInc _ o => o.wf .red
  | .redFadd f o => o.wf .red && (f == .s || f == .d || f == .h2 || f == .bf2)
  | .topen o => o.wf .topen
  | .tacqR o => o.wf .tacq
  | .tacqW o => o.wf .tacq
  | .trel o => o.wf .trel
  | .tsplit o => o.wf .tsplit
  | .tjoin o => o.wf .tacq
  | .tclose o => o.wf .tquery
  | .tqry o => o.wf .tquery
  | .cpy o => o.wf .cpy
  | .gath o => o.wf .gath
  | .scat o => o.wf .scat
  | .coll o => o.wf .coll
  | .ftst o => o.wf .future
  | .fwt o => o.wf .future
  | .fcan o => o.wf .future
  | .mma f o => o.wf f false
  | .mmsp f o => o.wf f true
  | .mzero o => o.desc.toNat ≤ 60 && o.kind.toNat ≤ 2 && o.split == 0
  | .mcfg o => o.desc.toNat ≤ 60 && !o.rm
  | .mres _ o => o.desc == 0 && o.scale == 0
  | .jtbl _ _ _ _ count => count != 0
  | .loopb _ t => !(0 < t.toInt)
  | .qbind _ _ (.imm e) => e.extractLsb' 10 6 != 0 && e.extractLsb' 0 5 == 0
  | .svc _ _ _ service => service != 0x8000
  | .wrsr _ num src =>
    !(num == 0x09 && (match src with | .const i => trapcauseBits i != 0 | _ => false))
  | .resume _ i => trapcauseBits i == 1
  | .abort _ i => 2 ≤ trapcauseBits i
  | .quotaGive _ n => n != 0
  | .quotaTake _ n => n != 0
  | .beamCtr _ _ c => c.toNat < 12
  | _ => true

end Sys2Proof
end

