-- ==== Sys2Proof/Machine/Operands.lean ====
section
/-! DEFINITION. Operand forms: which registers a word reads and writes (02_words.md R63), the checks of R61 that depend on the group (subcodes 5 to 7), sources with their crossbar patterns (R39 to R41), and destinations. -/

namespace Sys2Proof.Machine

/-- The registers a word reads and writes, and whether a field breaks a pair rule (R20, R54). -/
structure Uses where
  rd  : List RKey := []
  wr  : List RKey := []
  odd : Bool := false
deriving DecidableEq, Repr

def Uses.and (a b : Uses) : Uses := ⟨a.rd ++ b.rd, a.wr ++ b.wr, a.odd || b.odd⟩

/-- The same registers, written instead of read. -/
def Uses.written (a : Uses) : Uses := ⟨[], a.rd ++ a.wr, a.odd⟩

/-- `c` lane registers from v n on; a value of `c` registers stands at a multiple of `c` (R20, R54). -/
def laneUse (n c : Nat) : Uses := { rd := (List.range c).map fun i => .v (n + i), odd := n % c != 0 }
def scalUse (n c : Nat) : Uses := { rd := (List.range c).map fun i => .s (n + i), odd := n % c != 0 }

/-- A predicate read; k0 is no register of the scoreboard. -/
def predUse (p : BitVec 3) : Uses := if p = 0 then {} else { rd := [.k p.toNat] }

/-- A source field that is read at a width. -/
def srcUse (wide : Bool) : Src → Uses
  | .lane v _ => laneUse v.toNat (if wide then 2 else 1)
  | .sreg m => scalUse m.toNat 1
  | .const _ => {}

def dstUse (wide : Bool) : Dst → Uses
  | .lane v => (laneUse v.toNat (if wide then 2 else 1)).written
  | .sreg m => (scalUse m.toNat 1).written

/-- A register field of an M or K word that holds `size` bytes (R54, 10_memory_ops.md R268). -/
def regUse (size : Nat) : Reg → Uses
  | .lane v => laneUse v.toNat (if size ≤ 4 then 1 else size / 4)
  | .sreg m => scalUse m.toNat (if size ≤ 8 then 1 else 2)
  | .const _ => {}

def sargUse : SArg → Uses
  | .sreg m => scalUse m.toNat 1
  | .const _ => {}

def sreg (m : BitVec 6) : Uses := scalUse m.toNat 1

/-- The sources an F or FI word reads: `n` of them in F, `ni` in FI. -/
def argsUse (wide : Bool) (n ni : Nat) : FArgs → Uses
  | .reg a b c _ =>
    (if 1 ≤ n then srcUse wide a else {}).and ((if 2 ≤ n then srcUse wide b else {}).and
      (if 3 ≤ n then srcUse wide c else {}))
  | .imm a b _ => (if 1 ≤ ni then srcUse wide a else {}).and (if 2 ≤ ni then srcUse wide b else {})

/-- An F or FI word of a lane operation (R122, R123). -/
def laneOpUse (op : LaneOp) (o : FWord) : Uses :=
  (predUse o.pred).and ((argsUse op.wide op.reads op.immReads o.args).and (dstUse op.wide o.dst))

def laneOpKUse (op : LaneOp) (k : BitVec 3) (o : FSrc) : Uses :=
  (predUse o.pred).and ((argsUse op.wide op.reads op.immReads o.args).and
    (if k = 0 then {} else { wr := [.k k.toNat] }))

def modeUse (wa wd : Bool) (o : FMode) : Uses :=
  (predUse o.pred).and ((srcUse wa o.a).and (dstUse wd o.dst))

def halfUse (h : Half) : Uses :=
  { rd := h.readRegs.map fun v => .v v.toNat, wr := [.v h.d.toNat] }

/-- An M word: data read or written at a size, base and index at 4 bytes a lane (R53). -/
def memUse (dataIn dataOut : Bool) (size idx : Nat) (o : MWord) : Uses :=
  (predUse o.pred).and ((if dataIn then regUse size o.data else {}).and
    ((if dataOut then (regUse size o.data).written else {}).and
      ((regUse 4 o.base).and (regUse idx o.index))))

/-- Tile, engine and future words: data written, base (and index) read. -/
def handleUse (o : MWord) (base : Nat) : Uses :=
  (predUse o.pred).and ((regUse 4 o.data).written.and
    ((match o.base with
      | .sreg m => (List.range base).foldl (fun (u : Uses) i => u.and (scalUse (m.toNat + i) 1)) {}
      | _ => {}).and (match o.index with
      | .sreg m => scalUse m.toNat 1
      | _ => {})))

/-- Four descriptor registers from s n on (02_words.md R55). -/
def descUse (n : BitVec 6) : Uses := { rd := (List.range 4).map fun i => .s (n.toNat + i) }

def xUse (scaled : Bool) (o : XWord) : Uses :=
  (predUse o.pred).and ((descUse o.desc).and
    (if scaled then { rd := (List.range 16).map fun i => .v (o.scale.toNat + i) } else {}))

def sweepUse (op : Nat) (o : SWord) : Uses :=
  (predUse o.pred).and ((sreg o.r0).and ((sreg o.r1).and (if 3 ≤ sweepUses op then sreg o.r2 else {})))

/-- The registers that a word reads and writes (R63). -/
def uses : Instr → Uses
  | .pairWord h0 h1 => (halfUse h0).and (halfUse h1)
  | .iadd l o => laneOpUse (.int .iadd l) o
  | .isub l o => laneOpUse (.int .isub l) o
  | .imul l o => laneOpUse (.int .imul l) o
  | .imulh us l o => laneOpUse (.int (if us then .imulhUs else .imulh) l) o
  | .imad l o => laneOpUse (.int .imad l) o
  | .imin us l o => laneOpUse (.int (if us then .iminUs else .imin) l) o
  | .imax us l o => laneOpUse (.int (if us then .imaxUs else .imax) l) o
  | .iabs l o => laneOpUse (.int .iabs l) o
  | .idiv l us o => laneOpUse (.div false l us) o
  | .irem l us o => laneOpUse (.div true l us) o
  | .and l o => laneOpUse (.int .and l) o
  | .or l o => laneOpUse (.int .or l) o
  | .xor l o => laneOpUse (.int .xor l) o
  | .andn l o => laneOpUse (.int .andn l) o
  | .shl l o => laneOpUse (.int .shl l) o
  | .shr l o => laneOpUse (.int .shr l) o
  | .sar l o => laneOpUse (.int .sar l) o
  | .rotl l o => laneOpUse (.int .rotl l) o
  | .popc l o => laneOpUse (.int .popc l) o
  | .clz l o => laneOpUse (.int .clz l) o
  | .brev l o => laneOpUse (.int .brev l) o
  | .bfx l us o => laneOpUse (.bfx l us) o
  | .bfi l o => laneOpUse (.bfi l) o
  | .prmt o => laneOpUse .prmt o
  | .mov l o => laneOpUse (.mov l) o
  | .movi l p d _ => (predUse p).and (dstUse l d)
  | .movh p d a _ => (predUse p).and ((srcUse false a).and (dstUse false d))
  | .lea l o => laneOpUse (.lea l) o
  | .idx2 o => laneOpUse .idx2 o
  | .icmp l us o => laneOpUse (.icmp l us) o
  | .icmpK l us k o => laneOpKUse (.icmp l us) k o
  | .sel l o => laneOpUse (.sel l) o
  | .fadd f o => laneOpUse (.fp .fadd f) o
  | .fsub f o => laneOpUse (.fp .fsub f) o
  | .fmul f o => laneOpUse (.fp .fmul f) o
  | .ffma f o => laneOpUse (.fp .ffma f) o
  | .fmin f o => laneOpUse (.fp .fmin f) o
  | .fmax f o => laneOpUse (.fp .fmax f) o
  | .frcp f o => laneOpUse (.fu .frcp f) o
  | .frsq f o => laneOpUse (.fu .frsq f) o
  | .fsqrt f o => laneOpUse (.fu .fsqrt f) o
  | .fdiv f o => laneOpUse (.fu .fdiv f) o
  | .fex2 f o => laneOpUse (.fu .fex2 f) o
  | .flg2 f o => laneOpUse (.fu .flg2 f) o
  | .fsin f o => laneOpUse (.fu .fsin f) o
  | .fcos f o => laneOpUse (.fu .fcos f) o
  | .fldx f o => laneOpUse (.fldx f) o
  | .frnd f _ o => modeUse (f == .d) (f == .d) o
  | .fcmp f o => laneOpUse (.fcmp f) o
  | .fcmpK f k o => laneOpKUse (.fcmp f) k o
  | .fcls f o => laneOpUse (.fcls f) o
  | .lshfl o => (predUse o.pred).and ((argsUse false 2 0 o.args).and (dstUse false o.dst))
  | .lvote _ o => modeUse false false o
  | .lscan l _ _ o => modeUse l l o
  | .lred l _ o => modeUse l l o
  | .cvt s d _ _ o => modeUse s.wide d.wide o
  | .cvts s d o c => (modeUse s.wide d.wide o).and (srcUse false c)
  | .qseed p a => (predUse p).and (sargUse a)
  | .qscl _ o => modeUse false false o
  | .qpk4 o => (predUse o.pred).and ((argsUse false 2 0 o.args).and (dstUse false o.dst))
  | .qpk8 _ o => (predUse o.pred).and ((argsUse false 2 0 o.args).and (dstUse false o.dst))
  | .qunp _ o => (predUse o.pred).and ((argsUse false 2 0 o.args).and (dstUse false o.dst))
  | .qhad _ _ o c => (modeUse false false o).and (sargUse c)
  | .swadd o => sweepUse 0 o
  | .swmul o => sweepUse 1 o
  | .swfma o => sweepUse 2 o
  | .swmax o => sweepUse 3 o
  | .swmin o => sweepUse 4 o
  | .swcvt o => sweepUse 5 o
  | .swexp o => sweepUse 6 o
  | .swsum o => sweepUse 7 o
  | .swcpy o => sweepUse 8 o
  | .swset o => sweepUse 9 o
  | .ld z _ o => memUse false true z.bytes 4 o
  | .st z o => memUse true false z.bytes 4 o
  | .ldp z _ o => memUse false true z.bytes 4 o
  | .stp z o => memUse true false z.bytes 4 o
  | .pref o => memUse false false 4 4 o
  | .wb o => memUse false false 4 4 o
  | .inv o => memUse false false 4 4 o
  | .fence o => predUse o.pred
  | .wsig d o => memUse true false (wd d).bytes 4 o
  | .waitln o => (predUse o.pred).and ((regUse 4 o.data).and ((regUse 4 o.data).written.and (regUse 4 o.base)))
  | .aadd d o => memUse true true (wd d).bytes 4 o
  | .amin _ d o => memUse true true (wd d).bytes 4 o
  | .amax _ d o => memUse true true (wd d).bytes 4 o
  | .aand d o => memUse true true (wd d).bytes 4 o
  | .aor d o => memUse true true (wd d).bytes 4 o
  | .axor d o => memUse true true (wd d).bytes 4 o
  | .axch d o => memUse false true (wd d).bytes (wd d).bytes o
  | .acas d o => memUse true true (wd d).bytes (wd d).bytes o
  | .acasQ o => memUse true true 16 16 o
  | .ainc d o => memUse true true (wd d).bytes 4 o
  | .afadd f o => memUse true true (wd (f == .d)).bytes 4 o
  | .redAdd d o => memUse true false (wd d).bytes 4 o
  | .redMin _ d o => memUse true false (wd d).bytes 4 o
  | .redMax _ d o => memUse true false (wd d).bytes 4 o
  | .redAnd d o => memUse true false (wd d).bytes 4 o
  | .redOr d o => memUse true false (wd d).bytes 4 o
  | .redXor d o => memUse true false (wd d).bytes 4 o
  | .redInc d o => memUse true false (wd d).bytes 4 o
  | .redFadd f o => memUse true false (wd (f == .d)).bytes 4 o
  | .topen o => handleUse o 1
  | .tacqR o => handleUse o 1
  | .tacqW o => handleUse o 1
  | .trel o => handleUse o 1
  | .tsplit o => handleUse o 1
  | .tjoin o => handleUse o 1
  | .tclose o => handleUse o 1
  | .tqry o => handleUse o 1
  | .cpy o => handleUse o 4
  | .gath o => handleUse o 4
  | .scat o => handleUse o 4
  | .coll o => handleUse o 4
  | .ftst o => handleUse o 1
  | .fwt o => handleUse o 1
  | .fcan o => handleUse o 1
  | .mma f o => xUse f.scaled o
  | .mmsp f o => xUse f.scaled o
  | .mzero o => (predUse o.pred).and (descUse o.desc)
  | .mcfg o => (predUse o.pred).and (descUse o.desc)
  | .mres _ o => predUse o.pred
  | .bra _ => {}
  | .brc p _ _ _ => predUse p
  | .jtbl p idx tb _ _ => (predUse p).and ((regUse 4 idx).and (sreg tb))
  | .call link _ => (sreg link).written
  | .ret a => sreg a
  | .join => {}
  | .loopb c _ => (sreg c).and (sreg c).written
  | .exit p => predUse p
  | .idem _ => {}
  | .nop p => predUse p
  | .ipref p _ _ => predUse p
  | .bara p _ _ => predUse p
  | .barw p _ _ => predUse p
  | .bars p _ _ => predUse p
  | .qbind p _ e => (predUse p).and (match e with
    | .imm _ => {}
    | .reg m => sreg m)
  | .qclose p _ => predUse p
  | .qstat p d _ => (predUse p).and (sreg d).written
  | .queuePush p _ r => (predUse p).and (regUse 4 r)
  | .queuePop p d _ => (predUse p).and ((dstUse false d).and { wr := [.k 7] })
  | .yield p _ => predUse p
  | .trap p _ => predUse p
  | .bkpt p _ => predUse p
  | .svc p d a _ => (predUse p).and ((sreg d).written.and (sreg a))
  | .pagesync p d a => (predUse p).and ((sreg d).written.and (sreg a))
  | .rdsr p d _ => (predUse p).and (dstUse false d)
  | .wrsr p _ a => (predUse p).and (sargUse a)
  | .resume p _ => predUse p
  | .abort p _ => predUse p
  | .rdct p d _ => (predUse p).and (sreg d).written
  | .launch p d b idx => (predUse p).and ((dstUse false d).and ((sreg b).and (regUse 4 idx)))
  | .quotaGive p _ => predUse p
  | .quotaTake p _ => predUse p
  | .isync p => predUse p
  | _ => {}

/-! Checks at issue -/

/-- A pattern whose parameter does not fit the width (R41). -/
def patBad (w par : Nat) : Src → Bool
  | .lane _ .broadcast | .lane _ .butterfly => w ≤ par
  | .lane _ .mirror => w < 2 ^ par
  | _ => false

/-- The patterns of an F word against the width; FI's mirror takes no parameter (R44). -/
def argsBad (w n : Nat) : FArgs → Bool
  | .reg a b c par => (1 ≤ n && patBad w par.toNat a) || (2 ≤ n && patBad w par.toNat b) ||
      (3 ≤ n && patBad w par.toNat c)
  | .imm _ _ _ => false

/-- The F opcode's sources whose patterns are checked. -/
def patsOf : Instr → List (Nat × FArgs)
  | .iadd _ o | .isub _ o | .imul _ o | .imulh _ _ o | .imin _ _ o | .imax _ _ o | .idiv _ _ o | .irem _ _ o
  | .and _ o | .or _ o | .xor _ o | .andn _ o | .shl _ o | .shr _ o | .sar _ o | .rotl _ o | .bfx _ _ o
  | .fadd _ o | .fsub _ o | .fmul _ o | .fmin _ o | .fmax _ o | .fdiv _ o | .fldx _ o | .lshfl o | .qpk4 o
  | .qpk8 _ o | .qunp _ o => [(2, o.args)]
  | .iabs _ o | .popc _ o | .clz _ o | .brev _ o | .mov _ o | .frcp _ o | .frsq _ o | .fsqrt _ o | .fex2 _ o
  | .flg2 _ o | .fsin _ o | .fcos _ o | .fcls _ o => [(1, o.args)]
  | .imad _ o | .bfi _ o | .prmt o | .lea _ o | .idx2 o | .icmp _ _ o | .sel _ o | .ffma _ o | .fcmp _ o => [(3, o.args)]
  | .icmpK _ _ _ o | .fcmpK _ _ o => [(3, o.args)]
  | .frnd _ _ o | .lvote _ o | .lscan _ _ _ o | .lred _ _ o | .cvt _ _ _ _ o | .qscl _ o | .qhad _ _ o _ =>
    [(1, .reg o.a o.a o.a o.par)]
  | .cvts _ _ o c => [(2, .reg o.a c c o.par)]
  | _ => []

/-- The length of QHAD (06_sweep_quantise.md R162). -/
def hadLen (n : BitVec 2) : Nat := 16 * 2 ^ n.toNat

/-- Illegal operand encodings that are checked at issue: they depend on the group's width and register count,
its header or a register (R41, R143, R160, R167; 13_control_sync_ops.md R353, R355, R356, R365). -/
def operandBad (g : Group) (h : Hdr) (i : Instr) : Bool :=
  (patsOf i).any (fun (n, a) => argsBad g.width n a) ||
  (match i with
  | .lvote .ballot o => !o.dst.isLane && g.width = 128
  | .qscl _ _ | .qpk4 _ | .qpk8 _ _ | .qunp _ _ => g.width < 32
  | .qhad n _ _ _ => g.width < hadLen n
  | .mma f _ | .mmsp f _ => f.scaled && g.width = 16
  | .idem m => (List.range 32).any fun u => m.getLsbD u && g.nreg ≤ 8 * u
  | .bara _ lvl x | .barw _ lvl x | .bars _ lvl x => h.barriers.getD lvl.code 0 ≤ x.toNat
  | .qbind _ _ (.reg m) =>
    let e := (g.scalar m.toNat).toNat
    bits e 15 10 = 0 || bits e 4 0 != 0
  | .quotaGive _ n => g.nreg < 8 * n.toNat + 8
  | .quotaTake _ n => 256 < g.nreg + 8 * n.toNat
  | _ => false)

/-- A lane register at or above the current count (R19). -/
def rangeBad (g : Group) (u : Uses) : Bool :=
  (u.rd ++ u.wr).any fun k => match k with
    | .v n => decide (g.nreg ≤ n)
    | _ => false

/-- The predicate of a word; words without one act under k0. -/
def predOf : Instr → Nat
  | .iadd _ o | .isub _ o | .imul _ o | .imulh _ _ o | .imad _ o | .imin _ _ o | .imax _ _ o | .iabs _ o
  | .idiv _ _ o | .irem _ _ o | .and _ o | .or _ o | .xor _ o | .andn _ o | .shl _ o | .shr _ o | .sar _ o
  | .rotl _ o | .popc _ o | .clz _ o | .brev _ o | .bfx _ _ o | .bfi _ o | .prmt o | .mov _ o | .lea _ o | .idx2 o
  | .icmp _ _ o | .icmpK _ _ _ o | .sel _ o | .fadd _ o | .fsub _ o | .fmul _ o | .ffma _ o | .fmin _ o
  | .fmax _ o | .frcp _ o | .frsq _ o | .fsqrt _ o | .fdiv _ o | .fex2 _ o | .flg2 _ o | .fsin _ o | .fcos _ o
  | .fldx _ o | .frnd _ _ o | .fcmp _ o | .fcmpK _ _ o | .fcls _ o | .lshfl o | .lvote _ o | .lscan _ _ _ o
  | .lred _ _ o | .cvt _ _ _ _ o | .cvts _ _ o _ | .qscl _ o | .qpk4 o | .qpk8 _ o | .qunp _ o | .qhad _ _ o _
  | .swadd o | .swmul o | .swfma o | .swmax o | .swmin o | .swcvt o | .swexp o | .swsum o | .swcpy o | .swset o
  | .ld _ _ o | .st _ o | .ldp _ _ o | .stp _ o | .pref o | .wb o | .inv o | .fence o | .wsig _ o | .waitln o
  | .aadd _ o | .amin _ _ o | .amax _ _ o | .aand _ o | .aor _ o | .axor _ o | .axch _ o | .acas _ o | .acasQ o
  | .ainc _ o | .afadd _ o | .redAdd _ o | .redMin _ _ o | .redMax _ _ o | .redAnd _ o | .redOr _ o | .redXor _ o
  | .redInc _ o | .redFadd _ o | .topen o | .tacqR o | .tacqW o | .trel o | .tsplit o | .tjoin o | .tclose o
  | .tqry o | .cpy o | .gath o | .scat o | .coll o | .ftst o | .fwt o | .fcan o | .mma _ o | .mmsp _ o | .mzero o
  | .mcfg o | .mres _ o => o.pred.toNat
  | .movi _ p _ _ | .movh p _ _ _ | .qseed p _ | .exit p | .nop p | .ipref p _ _ | .bara p _ _ | .barw p _ _
  | .bars p _ _ | .qbind p _ _ | .qclose p _ | .qstat p _ _ | .queuePush p _ _ | .queuePop p _ _ | .yield p _
  | .trap p _ | .bkpt p _ | .svc p _ _ _ | .pagesync p _ _ | .rdsr p _ _ | .wrsr p _ _ | .resume p _ | .abort p _
  | .rdct p _ _ | .launch p _ _ _ | .quotaGive p _ | .quotaTake p _ | .isync p => p.toNat
  | .jtbl p _ _ _ _ => p.toNat
  | _ => 0

/-- The words that end an idempotent region when they issue (13_control_sync_ops.md R354). -/
def endsRegion : Instr → Bool
  | .aadd _ _ | .amin _ _ _ | .amax _ _ _ | .aand _ _ | .aor _ _ | .axor _ _ | .axch _ _ | .acas _ _ | .acasQ _
  | .ainc _ _ | .afadd _ _ | .redAdd _ _ | .redMin _ _ _ | .redMax _ _ _ | .redAnd _ _ | .redOr _ _ | .redXor _ _
  | .redInc _ _ | .redFadd _ _ | .wsig _ _ | .qbind _ _ _ | .qclose _ _ | .queuePush _ _ _ | .queuePop _ _ _
  | .bara _ _ _ | .bars _ _ _ | .launch _ _ _ _ | .svc _ _ _ _ | .pagesync _ _ _ | .quotaGive _ _ | .quotaTake _ _
  | .cpy _ | .gath _ | .scat _ | .coll _ | .fcan _ | .topen _ | .tacqR _ | .tacqW _ | .trel _ | .tsplit _ | .tjoin _
  | .tclose _ | .mma _ _ | .mmsp _ _ | .mres _ _ => true
  | _ => false

/-- The checks of R61 that depend on the group: subcodes 5, 6 and 7, in this order. The word's ActiveMask is noted for
the trap frame. -/
def legal (i : Instr) : Op Unit := do
  let g ← self
  let h ← selfHdr
  let m ← activeMask (predOf i)
  modify fun s => { s with cur := { s.cur with act := m, wasOpen := g.regionOpen } }
  if endsRegion i then modSelf fun g => { g with regionOpen := false }
  if operandBad g h i then illegal 5
  if rangeBad g (uses i) then illegal 6
  if (uses i).odd then illegal 7

/-! Sources -/

/-- SourceLane (R41). -/
def sourceLane (p : Pat) (par l w : Nat) : Nat :=
  match p with
  | .ident | .keep => l
  | .rotate => (l + par) % w
  | .broadcast => par
  | .butterfly => Nat.xor l par
  | .mirror => Nat.xor l (2 ^ par - 1)
  | .octet => (l - l % 8) + (l % 8 + par % 8) % 8

/-- The crossbar parameter of an F word's sources, and the mirror of FI (R41, R44). -/
def argsPar (w : Nat) : FArgs → Nat
  | .reg _ _ _ par => par.toNat
  | .imm _ _ _ => w.log2

/-- The value of an inline constant as an operand of `n` bits, in the floating column where `f` is given (R40, R123). -/
def constVal (f : Option Fmt) (n i : Nat) : Nat :=
  match f with
  | some f => constFloat f i
  | none => constInt n i

/-- ReadSource (R39, R69): the value delivered to lane l; `wide` operands have 64 bits. -/
def readSrc (s : State) (gk : Nat) (g : Group) (wide : Bool) (f : Option Fmt) (par l : Nat) : Src → Nat
  | .lane v p => laneVal s gk g wide v.toNat (sourceLane p par l g.width)
  | .sreg m => (g.scalar m.toNat).toNat % 2 ^ (if wide then 64 else 32)
  | .const i => constVal f (if wide then 64 else 32) i.toNat

/-- The register elements a source reads for a lane. -/
def srcElems (w : Nat) (wide : Bool) (par l : Nat) : Src → List (Nat × Nat)
  | .lane v p =>
    let x := sourceLane p par l w
    if wide then [(v.toNat, x), (v.toNat + 1, x)] else [(v.toNat, x)]
  | _ => []

/-- WriteDest for a lane, or once for a scalar destination, zero-extended (R69, R123). -/
def writeDst (wide : Bool) (l x : Nat) (d : Dst) : Op Unit := do
  let gk := (← get).cur.gk
  match d with
  | .lane v => setLane gk wide v.toNat l x
  | .sreg m => modGroup gk fun g => g.setScalar m.toNat (BitVec.ofNat 64 x)

/-- The lanes that an instruction computes: every active lane, or lane 0 once for a scalar destination (R43, R47). -/
def workLanes (w : Nat) (d : Dst) (m : Mask) : List Nat :=
  if m = 0 then [] else if d.isLane then lanesOf w m else [0]

/-- An instruction adds at most 1 to each counter of its core (04_numbers.md R117). -/
def countEvents (e : Ev) : Op Unit := do
  let c := coreOfGrp (← get).cur.gk
  if e = .none then pure () else modCore c fun k => { k with events := k.events.count e }

/-- RegValue64 of a base: a lane register's 32 bits zero-extended; of an index: sign-extended (R53). -/
def baseVal (s : State) (gk : Nat) (g : Group) (l : Nat) : Reg → Nat
  | .lane v => elemAt s gk g v.toNat l
  | .sreg m => (g.scalar m.toNat).toNat
  | .const i => constInt 64 i.toNat
def indexVal (s : State) (gk : Nat) (g : Group) (l : Nat) : Reg → Nat
  | .lane v => wrap 64 (sext (elemAt s gk g v.toNat l) 32)
  | .sreg m => (g.scalar m.toNat).toNat
  | .const i => constInt 64 i.toNat

/-- EffAddr (R53). -/
def effAddr (s : State) (gk : Nat) (g : Group) (l size : Nat) (o : MWord) : Nat :=
  wrap 64 ((baseVal s gk g l o.base : Int) + indexVal s gk g l o.index + o.off.toInt * size)

/-- The value of a data register of `size` bytes (10_memory_ops.md R268). -/
def dataVal (s : State) (gk : Nat) (g : Group) (f : Option Fmt) (l size : Nat) : Reg → Nat
  | .lane v =>
    ((List.range (if size ≤ 4 then 1 else size / 4)).foldl
      (fun acc i => acc + elemAt s gk g (v.toNat + i) l * 2 ^ (32 * i)) 0) % 2 ^ (8 * size)
  | .sreg m =>
    ((g.scalar m.toNat).toNat + (if size = 16 then (g.scalar (m.toNat + 1)).toNat * 2 ^ 64 else 0)) % 2 ^ (8 * size)
  | .const i => match f with
    | some f => constFloat f i.toNat
    | none => if size = 16 then wrap 128 (sext (constInt 64 i.toNat) 64) else constInt 64 i.toNat % 2 ^ (8 * size)

/-- The elements that a lane-class register field reads for a lane. -/
def regElems (size l : Nat) : Reg → List (Nat × Nat)
  | .lane v => (List.range (if size ≤ 4 then 1 else size / 4)).map fun i => (v.toNat + i, l)
  | _ => []

/-- Write a loaded value of `size` bytes: zero-extended, or sign-extended by .SX, to the register (R268). -/
def writeData (gk : Nat) (size : Nat) (sx : Bool) (l x : Nat) : Reg → Op Unit
  | .lane v =>
    let y := if sx then wrap 32 (sext x (8 * size)) else x
    (List.range (if size ≤ 4 then 1 else size / 4)).forM fun i => setElem gk (v.toNat + i) l (y / 2 ^ (32 * i))
  | .sreg m => do
    let y := if sx then wrap 64 (sext x (8 * size)) else x
    modGroup gk fun g => g.setScalar m.toNat (BitVec.ofNat 64 y)
    if size = 16 then modGroup gk fun g => g.setScalar (m.toNat + 1) (BitVec.ofNat 64 (x / 2 ^ 64))
  | .const _ => pure ()

end Sys2Proof.Machine
end

