-- ==== Sys2Proof/Machine/Translate.lean ====
section
/-! DEFINITION. Memory as bytes, translation by two stages of tables (15_isolation.md R411 to R414), TLBs (R416), ownership of what an address reaches (R408, 17_host_fabric.md R465), and fault records (R418). -/

namespace Sys2Proof.Machine

/-! Bytes of memory -/

/-- A byte at a physical address. -/
def rdByte (m : List Host.Cell) (a : Nat) : Byte := tget memDefault m a
/-- `n` bytes from `a` on, little-endian. -/
def rdBytes (m : List Host.Cell) : Nat → Nat → Nat
  | 0, _ => 0
  | n + 1, a => (rdByte m a).toNat + rdBytes m n (a + 1) * 256
/-- Write `n` bytes from `a` on. -/
def wrBytes (m : List Host.Cell) : Nat → Nat → Nat → List Host.Cell
  | 0, _, _ => m
  | n + 1, a, x => wrBytes (tput memDefault m a (BitVec.ofNat 8 x)) n (a + 1) (x / 256)

/-- Write `n` bytes of memory; the uncorrectable marks of words that it covers whole are lifted (16_recovery.md R457). -/
def putMem (n a x : Nat) : Op Unit :=
  modify fun s => { s with
    mem := wrBytes s.mem n a x
    poison := if s.poison.mem.isEmpty then s.poison else
      { s.poison with mem := s.poison.mem.filter fun w => !(a ≤ 32 * w && 32 * w + 32 ≤ a + n) } }

/-! Tables -/

/-- Why a walk fails: the stage, the address that stage could not translate, an invalid (0) or malformed (1) entry,
and whether stage 2 failed on a stage-1 table read (R418). -/
structure XFault where
  s2   : Bool
  addr : Nat
  kind : Nat
  read : Bool := false
deriving DecidableEq, Repr

/-- An entry's words at a physical address. -/
def tableEntry (m : List Host.Cell) (table idx : Nat) : Nat × Nat :=
  (rdBytes m 8 (table + 16 * idx), rdBytes m 8 (table + 16 * idx + 8))

/-- The index of an address at a level (R412). -/
def tableIdx (level va top : Nat) : Nat :=
  if level = 4 then bits va top 48 else bits va (12 + 9 * level + 8) (12 + 9 * level)

/-- Whether a table entry or leaf is malformed (R413). `s1` entries carry attributes in word 1. -/
def malformed (s1 moving : Bool) (level w0 w1 : Nat) : Bool :=
  let t := bitOf w0 1
  bits w0 63 52 != 0 || bits w0 11 8 != 0 || bitOf w0 5 ||
  (if t then
    level = 0 || bitOf w0 12 || w1 != 0 || bitOf w0 6
  else
    3 ≤ level || (level = 1 && bits w0 20 12 != 0) || (level = 2 && bits w0 29 12 != 0) ||
    (bitOf w0 6 && level != 0) ||
    (if s1 then
      bits w1 63 46 != 0 || bitOf w1 11 || bits w1 1 0 = 3 || (bits w1 10 9 = 2 && !bitOf w1 4) ||
      (bits w1 10 9 = 3 && !moving)
     else bits w1 63 5 != 0 || bits w1 1 0 != 0))

/-- A leaf found: the page's frame, log2 of its size, permissions R W X as bits 0 1 2, word 1, where it stands. -/
structure Leaf where
  frame : Nat
  log2  : Nat
  perm  : Nat
  w1    : Nat
  at'   : Nat
deriving DecidableEq, Repr

/-- A walk of one stage from a level down: `fetch` gives the physical address of a table (R412). -/
def walkFrom (m : List Host.Cell) (s1 moving : Bool) (top va : Nat) (fetch : Nat → Except XFault Nat) (err : Nat → XFault) :
    Nat → Nat → Except XFault Leaf
  | fuel, table => do
    let level := fuel
    let p ← fetch (table + 16 * tableIdx level va top)
    let (w0, w1) := (rdBytes m 8 p, rdBytes m 8 (p + 8))
    if !bitOf w0 0 then throw (err 0)
    else if malformed s1 moving level w0 w1 then throw (err 1)
    else if bitOf w0 1 then
      match fuel with
      | 0 => throw (err 1)
      | f + 1 => walkFrom m s1 moving top va fetch err f (bits w0 51 12 * 4096)
    else .ok ⟨bits w0 51 12 * 4096, 12 + 9 * level, bits w0 4 2, w1, p⟩

/-- Offsets of TDPART, TDS2 and TDPOD of a tenant (R409, 17_host_fabric.md R465). -/
def tdOff (t k : Nat) : Nat := 0x80000 + 0x40 * t + k
def State.tdpart (s : State) (t : Nat) : W64 := s.reg pfn (tdOff t 0)
/-- A tenant's partition and whether it may submit (R409). -/
def State.partOf (s : State) (t : Nat) : Nat := (s.tdpart t).toNat % 64
def State.enabled (s : State) (t : Nat) : Bool := (s.tdpart t).getLsbD 31

/-- Stage 2 (R411, R412): guest-physical to physical. -/
def walk2 (s : State) (t gpa : Nat) (rd : Bool) : Except XFault Leaf :=
  if 2 ^ 52 ≤ gpa then .error ⟨true, gpa, 0, rd⟩
  else walkFrom s.mem false false 51 gpa .ok (fun k => ⟨true, gpa, k, rd⟩) 4
    ((s.reg pfn (tdOff t 8)).toNat / 8192 * 8192)

/-- The physical address of a guest-physical address, for a table read: needs R at stage 2 (R412; log 95 says the kind of its fault). -/
def gpaTo (s : State) (t gpa : Nat) : Except XFault Nat := do
  let l ← walk2 s t gpa true
  if bitOf l.perm 0 then .ok (l.frame + gpa % 2 ^ l.log2) else .error ⟨true, gpa, 0, true⟩

/-- Stage 1 (R411, R412); `moving` admits the class of a page that is being reclassified. -/
def walkOne (s : State) (t va : Nat) (moving : Bool) : Except XFault Leaf :=
  walkFrom s.mem true moving 55 va (gpaTo s t) (fun k => ⟨false, va, k, false⟩) 4
    ((s.reg t 0xD000).toNat / 8192 * 8192)

/-- Whether an address lies in the page, of whatever size, that holds the page of 4 KiB number `p` of a tenant. -/
def inPageOf (s : State) (t p va : Nat) : Bool :=
  p = va / 4096 || (match walkOne s t (4096 * p) true with
    | .ok l => 4096 * p / 2 ^ l.log2 = va / 2 ^ l.log2
    | .error _ => false)

/-- Whether an address lies in a page on the move (09_tiles_leases.md R260). -/
def onTheMove (s : State) (t va : Nat) : Bool := s.dev.moving.any fun x => x.1 = t && inPageOf s t x.2 va

/-- Stage 1 as the walker performs it. -/
def walk1 (s : State) (t va : Nat) : Except XFault Leaf := walkOne s t va (onTheMove s t va)

/-- Both stages (R414): permissions and CACHE are ANDed, the page is the smaller one. -/
def walkPages (s : State) (t va : Nat) : Except XFault (Tlb × Leaf × Leaf) := do
  let l1 ← walk1 s t va
  let gpa := l1.frame + va % 2 ^ l1.log2
  let l2 ← walk2 s t gpa false
  let k := min l1.log2 l2.log2
  let pa := l2.frame + gpa % 2 ^ l2.log2
  let w1 := Nat.land l1.w1 (Nat.xor (2 ^ 64 - 1) 0x1C) + Nat.land (Nat.land l1.w1 l2.w1) 0x1C
  .ok (⟨t, va / 2 ^ k, k, pa / 2 ^ k * 2 ^ k, Nat.land l1.perm l2.perm, w1, gpa / 2 ^ k * 2 ^ k⟩, l1, l2)

/-- Whether a page stays tile-class although its entry names another class (09_tiles_leases.md R262). -/
def keptTile (s : State) (t va : Nat) : Bool := s.dev.tileKept.any fun x => x.1 = t && inPageOf s t x.2 va

/-- A mapping under another class state. -/
def Tlb.under (e : Tlb) (cls : Nat) : Tlb := { e with w1 := e.w1 - bits e.w1 10 9 * 512 + cls * 512 }

/-- The mapping of an address, under the class by which the device tracks its page (R415). -/
def walkBoth (s : State) (t va : Nat) : Except XFault (Tlb × Leaf × Leaf) := do
  let x ← walkPages s t va
  .ok (if keptTile s t va then (x.1.under 2, x.2) else x)

/-- The mappings of the addresses from `va` to `hi`: a page of stage 1 may lie on several of stage 2 (R414). -/
def pageMaps (s : State) (t hi : Nat) : Nat → Nat → List Tlb
  | 0, _ => []
  | n + 1, va =>
    if hi ≤ va then []
    else match walkPages s t va with
      | .ok (e, _, _) => e :: pageMaps s t hi n ((e.vpn + 1) * 2 ^ e.log2)
      | .error _ => pageMaps s t hi n ((va / 4096 + 1) * 4096)

def Tlb.hits (e : Tlb) (t va : Nat) : Bool := e.tenant = t && e.vpn = va / 2 ^ e.log2

/-- Fields of word 1 (R413). -/
def Tlb.lease (e : Tlb) : Nat := if bits e.w1 19 12 = 0 then 10 else bits e.w1 19 12
def Tlb.cls (e : Tlb) : Nat := bits e.w1 10 9
def Tlb.evp (e : Tlb) : Nat := if bits e.w1 8 6 = 0 then 2 else bits e.w1 8 6
def Tlb.pol (e : Tlb) : Nat := bits e.w1 1 0
def Tlb.l1 (e : Tlb) : Bool := bitOf e.w1 2
def Tlb.l2 (e : Tlb) : Bool := bitOf e.w1 3
def Tlb.readable (e : Tlb) : Bool := bitOf e.perm 0
def Tlb.writable (e : Tlb) : Bool := bitOf e.perm 1 && bitOf e.perm 0
def Tlb.runnable (e : Tlb) : Bool := bitOf e.perm 2
def Tlb.phys (e : Tlb) (va : Nat) : Nat := e.pa + va % 2 ^ e.log2

/-- The owner field that a core writes into a private page's word 1: OWNV and OWNER (R413). -/
def ownerBits (pkg c : Nat) : Nat :=
  2 ^ 20 + (pkg + (dieOfCore c) * 2 ^ 14 + (quadOfCore c % Config.quadsPerDie) * 2 ^ 17 + (c % 4) * 2 ^ 23) * 2 ^ 21

/-- The A bit of the entry at an address (R413). -/
def setUsed (m : List Host.Cell) (p : Nat) : List Host.Cell := tput memDefault m p (rdByte m p ||| 0x80)

/-- Whether an address lies in a page whose synchronisation has not completed (09_tiles_leases.md R261). -/
def syncing (s : State) (t va : Nat) : Bool := s.dev.syncs.any fun x => x.1 = t && inPageOf s t x.2.1 va

/-- The walker's writes to a leaf: A of word 0, and for a private page the first core (R260, R413). -/
def walkerMarks (l1 l2 : Leaf) (owner : Option Nat) : Op Unit := do
  modify fun s => { s with mem := setUsed (setUsed s.mem l1.at') l2.at' }
  match owner with
  | none => pure ()
  | some o => modify fun s => { s with mem := wrBytes s.mem 8 (l1.at' + 8) (rdBytes s.mem 8 (l1.at' + 8) % 2 ^ 20 + o) }

/-- What a translation gives an agent: a mapping, a fault of a stage, or a wait for a page on the move (R260). -/
inductive Xlate
  | ok (e : Tlb)
  | bad (f : XFault)
  | wait
deriving DecidableEq, Repr

/-- Whether a leaf's page is a private one of a core, as its owner field says. -/
def ownedBy (s : State) (l : Leaf) (c : Nat) : Bool := bits l.w1 45 20 * 2 ^ 20 = ownerBits s.dev.pkg c

/-- A walk to a page on the move (09_tiles_leases.md R260): it waits, but for the outstanding accesses of the core that owns the page. -/
def walkMoving (s : State) (core : Option Nat) (t va : Nat) : Xlate :=
  match core, walkBoth s t va with
  | some c, .ok (e, l1, _) => if ownedBy s l1 c then .ok (e.under 0) else .wait
  | _, _ => .wait

/-- The translation of a page for a core of a die, through the core's TLB, the shared TLB and a walk (R416). A
private page that another core owns becomes reclassifying, and the walk waits (R260). `core` is none for engines. -/
def xlate (die : Nat) (core : Option Nat) (t va : Nat) : Op Xlate := do
  let s ← get
  let mine : Option Tlb := match core with
    | some c => (s.core c).tlb.find? (fun e => e.hits t va)
    | none => none
  match mine with
  | some e => return .ok e
  | none =>
    let shared : Option Tlb := (s.die die).tlb.find? fun e => e.hits t va && e.cls != 0
    match shared with
    | some e =>
      match core with
      | some c => modCore c fun k => { k with tlb := (e :: k.tlb).take 256 }
      | none => pure ()
      return .ok e
    | none =>
      if onTheMove s t va then return walkMoving s core t va
      else match walkBoth s t va with
      | .error f => return .bad f
      | .ok (e, l1, l2) =>
        let me := match core with
          | some c => ownerBits s.dev.pkg c
          | none => 0
        let old : Nat := bits l1.w1 45 20 * 2 ^ 20
        if e.cls = 0 && core.isSome && bitOf l1.w1 20 && old != me then
          modify fun s => { s with mem := wrBytes s.mem 8 (l1.at' + 8) (Nat.lor l1.w1 0x600) }
          modDev fun d => { d with moving := d.moving ++ [(t, va / 4096)] }
          return .wait
        else
          walkerMarks l1 l2 (if e.cls = 0 && core.isSome && !bitOf l1.w1 20 then some me else none)
          match core with
          | some c => modCore c fun k => { k with tlb := (e :: k.tlb).take 256 }
          | none => pure ()
          modDie die fun d => { d with tlb := (e :: d.tlb).take 8192 }
          return .ok e

/-! What an address reaches -/

/-- The device address range (R411). -/
def devTop : Nat := Config.hbmBytes

/-- Whether the partition owns the channel of a device address; channels being zeroed wait (R407, R408). -/
def channelOf (g : Nat) : Nat := g / 4096 % Config.channels

inductive Reach
  /-- device memory at an address, under a partition -/
  | dev (pa part : Nat)
  /-- host memory -/
  | host (pa : Nat)
  /-- access violation -/
  | none
  /-- the channel is being zeroed -/
  | zeroing
  /-- a host page that is not present (17_host_fabric.md R462) -/
  | absent (pa : Nat)
deriving DecidableEq, Repr

def reachDev (s : State) (g part : Nat) : Reach :=
  if devTop ≤ g then .none
  else if !(s.part part).own.chans.contains (channelOf g) then .none
  else if (s.part part).zeroing.contains (channelOf g) then .zeroing
  else .dev g part

/-- What a physical address reaches for a tenant (R411, R408, R465). Another package of the pod has no route (log 20). -/
def reach (s : State) (t pa : Nat) : Reach :=
  match pa / 2 ^ 50 with
  | 0 => reachDev s pa (s.partOf t)
  | 1 =>
    let r := s.reg pfn 0xB100
    if bits pa 49 36 != s.dev.pkg || !r.getLsbD 63 || bits r.toNat 31 16 != (s.reg pfn (tdOff t 0x20)).toNat % 2 ^ 16 then .none
    else reachDev s ((r.toNat % 16) * 2 ^ 36 + pa % 2 ^ 36) (s.partOf (bits r.toNat 41 32))
  | 2 => if s.dev.absent.contains (pa % 2 ^ 50 / 4096) then .absent pa else .host pa
  | _ => .none

/-! Fault records -/

/-- An event of an MSI-X vector of a function (17_host_fabric.md R461): the vector fires, or its pending bit is set. -/
def fire (fn vec : Nat) : Op Unit := modify fun s =>
  if s.irqMask.contains ⟨fn, vec⟩ then { s with irqPend := (⟨fn, vec⟩ :: s.irqPend).eraseDups }
  else { s with irqs := ⟨fn, vec⟩ :: s.irqs }

/-- The physical address behind a function's queue base: guest-physical for a virtual function (R417). -/
def fqAddr (s : State) (fn a : Nat) : Option Nat :=
  if fn = pfn then some a
  else match walk2 s fn a false with
    | .ok l => some (l.frame + a % 2 ^ l.log2)
    | .error _ => none

/-- Write one fault record, then TAIL, then the fault vector (R418). -/
def writeFault (fn : Nat) (f : PFault) (addr place : Nat) : Op Unit := do
  let s ← get
  let n := 2 ^ max 4 (min 16 ((s.reg fn 0xD020 4).toNat % 32))
  let tail := (s.fn fn).fqTail
  let base := (s.reg fn 0xD018).toNat / 32 * 32
  match fqAddr s fn (base + 32 * (tail % n)) with
  | some p =>
    putMem 8 p addr
    putMem 8 (p + 8) (f.tenant + f.bits * 2 ^ 16 + f.id * 2 ^ 32)
    putMem 8 (p + 16) place
    putMem 8 (p + 24) 0
  | none => pure ()
  modFn fn fun x => { x with fqTail := (tail + 1) % 2 ^ 32 }
  fire fn 0

/-- Whether a function's fault queue is full. -/
def fqFull (s : State) (fn : Nat) : Bool :=
  let n := 2 ^ max 4 (min 16 ((s.reg fn 0xD020 4).toNat % 32))
  let head := (s.reg fn 0xD020 4).toNat / 2 ^ 32
  n ≤ ((s.fn fn).fqTail + 2 ^ 32 - head) % 2 ^ 32

/-- The function number under which an agent sleeps on a PRI page request (17_host_fabric.md R462). -/
def hostFn : Nat := 1025

/-- Raise a PRI page request for a host page, or join the one that is unanswered. -/
def askHost (pa va : Nat) : Op (Nat × Nat × Nat) := do
  let d := (← get).dev
  let page := pa % 2 ^ 50 / 4096
  match d.pri.find? fun x => x.2 = page with
  | some x => return (hostFn, x.1, va / 4096)
  | none =>
    modDev fun d => { d with pri := d.pri ++ [(d.nextPri, page)], nextPri := d.nextPri + 1 }
    return (hostFn, d.nextPri, va / 4096)

/-- Report a translation fault (R418): a fault already unanswered for the same tenant, stage and page is joined;
while the queue is full the fault waits for room. The function and the ID to wait on, and the page of the access. -/
def reportFault (t va : Nat) (f : XFault) (bits place : Nat) : Op (Nat × Nat × Nat) := do
  let s ← get
  let fn := if f.s2 then pfn else t
  let page := f.addr / 4096
  match (s.fn fn).faults.find? (fun p => p.tenant = t && p.page = page) with
  | some p => return (fn, p.id, va / 4096)
  | none =>
    let id := (s.fn fn).nextFid
    let rec' : PFault := ⟨id, t, page, f.kind + (bits + (if f.read then 32 else 0)) * 256⟩
    modFn fn fun x => { x with faults := x.faults ++ [rec'], nextFid := (id + 1) % 2 ^ 32 }
    if fqFull s fn then modFn fn fun x => { x with fqWait := x.fqWait ++ [(rec', f.addr, place)] }
    else writeFault fn rec' f.addr place
    return (fn, id, va / 4096)

end Sys2Proof.Machine
end

