-- ==== Sys2Proof/Machine/Local.lean ====
section
/-! DEFINITION. The local spaces of 01_machine.md R26 to R31: where an offset lies, what a read of it returns under the generation rules (15_isolation.md R420, R421), and writes. -/

namespace Sys2Proof.Machine

/-- Granules of a unit of eight registers, and of the parts of a block's allocation, which stand in this order
(R14; the order within the allocation is log 21). -/
def unitGranules (w : Nat) : Nat := w / 2
def Hdr.w (h : Hdr) : Nat := h.width
def regGranules (h : Hdr) : Nat := h.groups * h.regs * unitGranules h.width
def ctlGranules (h : Hdr) : Nat := h.groups * 32
def lpGranules (h : Hdr) : Nat := h.groups * (h.lp * 16 * h.width / 64)
def scratchGranules (h : Hdr) : Nat := h.scratch * 64

/-- A block's allocation in granules, a multiple of 16 KiB (R14). -/
def allocGranules (h : Hdr) : Nat :=
  roundUp (regGranules h + ctlGranules h + lpGranules h + scratchGranules h) 256

/-- Granules of a share of quad memory (R30). -/
def shareGranules (h : Hdr) : Nat := h.qmem * 256

/-- Where a piece of at most 8 bytes lies: a granule of a core store or of a die store with the generation of its
allocation and its stale-read mode, or a word of a group's control area. -/
inductive Loc
  | gran (die : Bool) (key byte gen : Nat) (trap : Bool)
  | ctl (gk word byte : Nat)
deriving DecidableEq, Repr

/-- The place of a window offset (R27): a lane-register element, or a byte of a control area. -/
def windowLoc (s : State) (gk off groups : Nat) : Option Loc :=
  let bk := blkOfGrp gk
  if off < 0x800000 then do
    let gi := off / 0x20000
    let t ← tlook (bk * 64 + gi) s.groups
    let rem := off % 0x20000
    let n := rem / (4 * t.width)
    if n < t.nreg then
      let (k, e) := t.place (coreOfBlk bk) n (rem % (4 * t.width) / 4)
      some (.gran false k (4 * e + off % 4) t.gens.rw t.gens.trw)
    else none
  else do
    let gi := (off - 0x800000) / 0x800
    if groups ≤ gi then none
    else
      let o := (off - 0x800000) % 0x800
      some (.ctl (bk * 64 + gi) (o / 8) (o % 8))

/-- The place of a byte in a space, for a lane of a group; none where R26 or R27 makes the offset invalid. -/
def locate (s : State) (gk : Nat) (g : Group) (b : Block) (h : Hdr) (space off lane : Nat) : Option Loc :=
  let core := coreOfGrp gk
  let base := core * Config.granulesPerCore + b.base
  match space with
  | 1 => windowLoc s gk off h.groups
  | 2 =>
    if off < h.scratch * 4096 then
      some (.gran false (base + regGranules h + ctlGranules h + lpGranules h + off / 64) (off % 64) b.gsp g.gens.tsp)
    else none
  | 3 =>
    if off < 4 * h.qmem * 16384 then
      let c := core / 4 * 4 + off / 256 % 4
      let o := off / 1024 * 256 + off % 256
      some (.gran false (c * Config.granulesPerCore + (s.core core).places * allocGranules h +
        b.slot * shareGranules h + o / 64) (o % 64) g.gens.qm g.gens.tqm)
    else none
  | 4 =>
    if off < h.dstore * 2 ^ 23 then
      some (.gran true (dieOfCore core * 2 ^ 40 + b.grid * 2 ^ 20 + off / 64) (off % 64) g.gens.ds g.gens.tds)
    else none
  | 5 =>
    if off < h.lp * 16 then
      let o := (off / 4 * h.width + lane) * 4 + off % 4 + (gk % 64) * (h.lp * 16 * h.width)
      some (.gran false (base + regGranules h + ctlGranules h + o / 64) (o % 64) b.gsp g.gens.tsp)
    else none
  | _ => none

def State.gran (s : State) (die : Bool) (k : Nat) : Granule :=
  tget Granule.clean (if die then s.dstore else s.store) k

/-- The control area that an ended group has left (R27), and all ones for its k0. -/
def leftArea (s : State) (gk : Nat) : Tab W64 :=
  match tlook (blkOfGrp gk) s.blocks with
  | some b => tget [] b.areas (gk % 64)
  | none => []
def leftWidth (s : State) (gk : Nat) : Nat :=
  match (tlook (blkOfGrp gk) s.blocks).bind fun b => (s.gridOf b.grid).bind (·.hdr) with
  | some h => h.width
  | none => 0

/-- A word of a control area as the window shows it: k0 reads ones (R18). -/
def areaWord (ctl : Tab W64) (width w : Nat) : Nat :=
  if w = 64 || w = 65 then ((allLanes width).toNat / 2 ^ (64 * (w - 64))) % 2 ^ 64 else (tget 0 ctl w).toNat

/-- Bytes of a piece as a number; stale bytes read zero (R420). -/
def readLoc (s : State) (n : Nat) : Loc → Nat
  | .gran die k byte gen _ =>
    let x := s.gran die k
    if x.tag = gen then (x.data.toNat / 2 ^ (8 * byte)) % 2 ^ (8 * n) else 0
  | .ctl gk w byte =>
    let v := match tlook gk s.groups with
      | none => areaWord (leftArea s gk) (leftWidth s gk) w
      | some t => areaWord t.ctl t.width w
    (v / 2 ^ (8 * byte)) % 2 ^ (8 * n)

/-- Whether the read meets a stale granule whose mode traps; whether an uncorrectable word (R24, R457). -/
def locStale (s : State) : Loc → Bool
  | .gran die k _ gen trap => trap && (s.gran die k).tag != gen
  | .ctl _ _ _ => false
def locBad (s : State) : Loc → Bool
  | .gran die k byte gen _ =>
    (s.gran die k).tag = gen && (if die then s.poison.dstore else s.poison.store).contains (2 * k + byte / 32) ||
    (!die && s.poison.tags.contains k)
  | .ctl _ _ _ => false

/-- Whether a store may write a piece: the binding state is read-only, and the divergence stack belongs to the
group's own handler (R27, 12_groups_progress.md R326). -/
def locWritable (s : State) (gk : Nat) : Loc → Bool
  | .gran _ _ _ _ _ => true
  | .ctl t w _ =>
    if 80 ≤ w && w < 96 then false
    else if 128 ≤ w then t = gk && (match tlook t s.groups with
      | some g => g.handler.isSome
      | none => false)
    else true

/-- A control area after a store of `n` bytes to a word of it; bits of a predicate above W stay 0. -/
def areaPut (ctl : Tab W64) (width w byte n x : Nat) : Tab W64 :=
  let m := BitVec.ofNat 64 ((2 ^ (8 * n) - 1) * 2 ^ (8 * byte))
  let v := (tget 0 ctl w &&& ~~~m) ||| (BitVec.ofNat 64 (x % 2 ^ (8 * n) * 2 ^ (8 * byte)) &&& m)
  let v := if 66 ≤ w && w < 80 then
      v &&& (if w % 2 = 0 then (allLanes width).extractLsb' 0 64 else (allLanes width).extractLsb' 64 64)
    else v
  tput 0 ctl w v

/-- Operand-reuse latches of a register with lanes in a granule are invalid once it is written (12_groups_progress.md R320). -/
def latchesIn (s : State) (k : Nat) (x : Nat × Nat) : Bool :=
  match tlook x.1 s.groups with
  | some g => (List.range g.width).any fun l => (g.place (coreOfGrp x.1) x.2 l).1 = k
  | none => true
def unlatch (k : Nat) : Op Unit := do
  let s ← get
  let c := k / Config.granulesPerCore
  if !(s.core c).latches.isEmpty then
    modCore c fun x => { x with latches := x.latches.filter fun e => !latchesIn s k e.2 }

/-- Write the low `n` bytes of `x` to a piece (R421); a store to k0 is discarded, bits of a predicate above W stay 0. -/
def writeLoc (n x : Nat) : Loc → Op Unit
  | .gran die k byte gen _ => do
    if !die then unlatch k
    modify fun s =>
      let y := (s.gran die k).write gen (bitsAt (8 * byte) (8 * n)) (BitVec.ofNat 512 (x % 2 ^ (8 * n) * 2 ^ (8 * byte)))
      if die then { s with dstore := tput Granule.clean s.dstore k y }
      else { s with store := tput Granule.clean s.store k y, poison := s.poison.stamp k }
  | .ctl gk w byte =>
    if w = 64 || w = 65 then pure ()
    else do
      let s ← get
      match tlook gk s.groups with
      | some t => putGroup gk { t with ctl := areaPut t.ctl t.width w byte n x }
      | none => modBlock (blkOfGrp gk) fun b => { b with
          areas := tset (gk % 64) (areaPut (tget [] b.areas (gk % 64)) (leftWidth s gk) w byte n x) b.areas }

/-- An access of `size` bytes cut into pieces of at most 4 bytes: offset in the access and length. -/
def pieces (size : Nat) : List (Nat × Nat) :=
  if size ≤ 4 then [(0, size)] else (List.range (size / 4)).map fun i => (4 * i, 4)

/-- The space of an address and its offset (R26). -/
def spaceOf (a : Nat) : Nat := a / 2 ^ 56
def offOf (a : Nat) : Nat := a % 2 ^ 56

/-- A local access for the group in progress. -/
structure LocalCtx where
  gk : Nat
  g  : Group
  b  : Block
  h  : Hdr

def localCtx (gk : Nat) : Op LocalCtx := do
  let g ← groupAt gk
  let b ← blockAt (blkOfGrp gk)
  let grid ← need ((← get).gridOf b.grid)
  let h ← need grid.hdr
  return ⟨gk, g, b, h⟩

def LocalCtx.loc (c : LocalCtx) (s : State) (a lane : Nat) : Option Loc :=
  locate s c.gk c.g c.b c.h (spaceOf a) (offOf a) lane

/-- Whether every byte of an access lies in its space. -/
def LocalCtx.valid (c : LocalCtx) (s : State) (a size lane : Nat) : Bool :=
  (c.loc s a lane).isSome && (c.loc s (a + size - 1) lane).isSome && spaceOf (a + size - 1) = spaceOf a

/-- Read `size` bytes at a valid local address. -/
def LocalCtx.read (c : LocalCtx) (s : State) (a size lane : Nat) : Nat :=
  (pieces size).foldl (fun acc (o, n) => acc + (match c.loc s (a + o) lane with
    | some l => readLoc s n l
    | none => 0) * 2 ^ (8 * o)) 0

def LocalCtx.stale (c : LocalCtx) (s : State) (a size lane : Nat) : Bool :=
  (pieces size).any fun (o, _) => match c.loc s (a + o) lane with
    | some l => locStale s l
    | none => false

def LocalCtx.bad (c : LocalCtx) (s : State) (a size lane : Nat) : Bool :=
  (pieces size).any fun (o, _) => match c.loc s (a + o) lane with
    | some l => locBad s l
    | none => false

def LocalCtx.writable (c : LocalCtx) (s : State) (a size lane : Nat) : Bool :=
  (pieces size).all fun (o, _) => match c.loc s (a + o) lane with
    | some l => locWritable s c.gk l
    | none => false

/-- Write `size` bytes at a valid local address. -/
def LocalCtx.write (c : LocalCtx) (a size lane x : Nat) : Op Unit := do
  let s ← get
  (pieces size).forM fun (o, n) => match c.loc s (a + o) lane with
    | some l => writeLoc n (x / 2 ^ (8 * o)) l
    | none => pure ()

end Sys2Proof.Machine
end

