-- ==== Sys2Proof/Machine/MemSys.lean ====
section
/-! DEFINITION. The memory system: clocks and stamps (09_tiles_leases.md R253 to R259), homes (R233; 15_isolation.md R408), tile bytes (R235, R244), copies of sectors and the performing of loads, stores and read-modify-writes (08_ordering_model.md R208, R219). -/

namespace Sys2Proof.Machine

/-! Clocks -/

/-- `a` is earlier than `b` in the half-window (R253). -/
def earlier (a b : Nat) : Bool :=
  let d := (b + 65536 - a) % 65536
  1 ≤ d && d ≤ 32767
/-- The later of two times. -/
def later (a b : Nat) : Nat := if earlier a b then b else a

def State.lc (s : State) (c : Nat) : Nat := (s.dev.base + (s.core c).lc) % 65536
def State.qc (s : State) (q : Nat) : Nat := (s.dev.base + (s.quad q).qc) % 65536
def State.hc (s : State) (h : Nat) : Nat := (s.dev.base + (s.home h).hc) % 65536
/-- A clock as its offset from the base. -/
def offset (s : State) (t : Nat) : Nat := (t + 65536 - s.dev.base % 65536) % 65536

/-- Copies whose lease ends before a clock have expired, and stay so however far the clock moves (R254). -/
def Copy.expire (t : Nat) (x : Copy) : Copy := if !x.sm && earlier x.lend t then { x with ended := true } else x
def expireAll (t : Nat) (cs : Tab Copy) : Tab Copy := cs.map fun e => (e.1, e.2.expire t)
def Core.raiseTo (s : State) (t : Nat) (k : Core) : Core := { k with lc := offset s t, copies := expireAll t k.copies }
def Quad.raiseTo (s : State) (t : Nat) (k : Quad) : Quad := { k with qc := offset s t, copies := expireAll t k.copies }
def raiseLc (c t : Nat) : Op Unit := do
  let s ← get
  modCore c (Core.raiseTo s (later (s.lc c) t))
def raiseQc (q t : Nat) : Op Unit := do
  let s ← get
  modQuad q (Quad.raiseTo s (later (s.qc q) t))
def raiseHc (h t : Nat) : Op Unit := do
  let s ← get
  modHome h fun k => { k with hc := offset s (later (s.hc h) t) }
/-- The package's largest clock. -/
def largestClock (s : State) : Nat :=
  let c := s.cores.foldl (fun m e => later m (s.lc e.1)) s.dev.base
  let q := s.quads.foldl (fun m e => later m (s.qc e.1)) c
  s.homes.foldl (fun m e => later m (s.hc e.1)) q

/-- A request is taken at a home slice: one that is not the first of its cycle there counts (R263, R264; log 80). -/
def atHome (h : Nat) : Op Unit := do
  let t := (← get).cycle + 1
  modHome h fun k => if k.taken = t then { k with retry := sat48 (k.retry + 1) } else { k with taken := t }

/-- MAXEV of a slice (R259) and the pod floor M (R258), relative to the start time. -/
def State.maxev (s : State) (h : Nat) : Nat := (s.dev.start + (s.home h).maxev) % 65536
def State.floorM (s : State) : Nat := (s.dev.start + s.dev.floor) % 65536

/-- The stamps of a sector; one that its slice does not hold starts at MAXEV (R259). -/
def State.stamps (s : State) (h sec : Nat) : Stamps :=
  match tlook sec s.sects with
  | some x => x
  | none => ⟨s.maxev h, s.maxev h, h⟩

/-! Homes -/

/-- USEPOOL of a partition (R405). -/
def usePool (s : State) (p : Nat) : Bool := (s.reg pfn (0x60000 + 0x200 * p + 0xC0)).getLsbD 16
/-- The home set of a partition: its slices, with the pool's when USEPOOL is 1 (R408). -/
def homeSet (s : State) (p : Nat) : List Nat :=
  let own := (s.part p).own.homes
  if usePool s p then (List.range 256).filter fun h => own.contains h || s.dev.poolHomes.contains h
  else own

/-- The arena slice (R233). -/
def arenaSlice (s : State) (p t va : Nat) : Nat :=
  let hs := (s.part p).own.homes
  hs.getD ((bits va 55 26 + 97 * t) % max 1 hs.length) 0

/-- A resolved access to virtual memory: its address, mapping, physical address, partition, whether it reaches the host, tenant. -/
structure VRef where
  va     : Nat
  e      : Tlb
  pa     : Nat
  part   : Nat
  host   : Bool
  tenant : Nat
deriving DecidableEq, Repr

/-- The home slice of an access (R233, R408). -/
def homeOf (s : State) (r : VRef) : Nat :=
  if r.e.cls = 2 then arenaSlice s r.part r.tenant r.va
  else
    let hs := homeSet s r.part
    hs.getD (r.pa / 256 % max 1 hs.length) 0

/-! Tiles -/

/-- Whether an offset from a tile's base is one of its bytes (R235). -/
def TileDesc.has (d : TileDesc) (va : Nat) : Bool :=
  let step (d : TileDesc) (k : Nat) (x : Option Nat) : Option Nat := do
    let o ← x
    if d.rank ≤ k then some o
    else
      let st := d.str.getD (k - 1) 1
      if o / st < d.ext.getD k 1 then some (o % st) else none
  if va < d.base then false
  else
    match step d 1 (step d 2 (step d 3 (some (va - d.base)))) with
    | some o => o < d.ext.getD 0 1 * d.z
    | none => false

/-- The first bytes of a tile's rows in ascending (i1, i2, i3), i1 fastest (R235). -/
def TileDesc.rows (d : TileDesc) : List Nat :=
  (List.range (d.ext.getD 3 1)).flatMap fun i3 => (List.range (d.ext.getD 2 1)).flatMap fun i2 =>
    (List.range (d.ext.getD 1 1)).map fun i1 =>
      d.base + i1 * d.str.getD 0 0 + i2 * d.str.getD 1 0 + i3 * d.str.getD 2 0
def TileDesc.rowBytes (d : TileDesc) : Nat := d.ext.getD 0 1 * d.z

/-- The units of `n` bytes that a tile's rows meet, as ranges (R235). -/
def TileDesc.ranges (d : TileDesc) (n : Nat) : List (Nat × Nat) :=
  d.rows.map fun a => (a / n, (a + d.rowBytes - 1) / n)

/-- Whether two tiles' footprints share a 256-byte unit (R239). -/
def footMeets (a b : TileDesc) : Bool :=
  (a.ranges 256).any fun x => (b.ranges 256).any fun y => x.1 ≤ y.2 && y.1 ≤ x.2

/-- The number of 64-byte sectors of a tile (R235): rows come in ascending order. -/
def TileDesc.sectors (d : TileDesc) : Nat :=
  ((d.ranges 64).foldl (fun (m : Nat × Nat) (lo, hi) =>
    let lo' := max lo m.2
    if hi < lo' then m else (m.1 + (hi + 1 - lo'), hi + 1)) (0, 0)).1

/-- Whether a byte of an access of `n` bytes is a byte of the tile; the lowest such. -/
def tileByte (d : TileDesc) (va n : Nat) : Option Nat :=
  ((List.range n).map (va + ·)).find? d.has

/-- An agent's identity names its grid and that grid's sequence number (R238). -/
def Entry.holds (x : Entry) (a : Agent) : Bool := x.holders.contains a

/-- The agent that a resident group is (R238). -/
def agentAt (s : State) (gk : Nat) : Option Agent := do
  let b ← tlook (blkOfGrp gk) s.blocks
  let g ← s.gridOf b.grid
  some ⟨.group gk, b.grid, g.record.seq⟩
/-- The agents that a group stands for in tile checks: itself. -/
def selfWho (s : State) (gk : Nat) : List Agent := (agentAt s gk).toList

/-- Whether an agent's write to bytes whose innermost tenure is this one meets it (R222, R244, R248): under a split, bytes of a
part that nobody holds are the splitter's to write when the split is of write tenure. -/
def Entry.blocks (x : Entry) (whos : List Agent) : Bool :=
  match x.state with
  | .opened => false
  | .read | .splitR => true
  | .write | .splitW => !whos.any x.holds

/-- The tenure that governs a byte: that of the deepest sub-tile with tenure on it. -/
def innermost (es : List (Nat × Entry)) (va : Nat) : Option Entry :=
  es.foldl (fun m e => if e.2.state = .opened || !e.2.desc.has va then m else match m with
    | some x => if x.level < e.2.level then some e.2 else m
    | none => some e.2) none

/-- The tenures of an arena slice under a tenant. -/
def entriesOf (s : State) (h t : Nat) : List (Nat × Entry) :=
  ((s.home h).entries).filter fun e => e.2.tenant = t

/-- The lowest byte of a write that meets tenure (R244, R248). A job acts as the holder where its group holds (R306): `whos` lists the
agents it acts for. -/
def tenureConflict (s : State) (r : VRef) (whos : List Agent) (n : Nat) : Option Nat :=
  if r.e.cls != 2 then none
  else
    let es := (entriesOf s (homeOf s r) r.tenant).filter fun e => e.2.state != .opened && (tileByte e.2.desc r.va n).isSome
    if es.isEmpty then none
    else ((List.range n).map (r.va + ·)).find? fun a => (innermost es a).any (·.blocks whos)

/-- The byte that a reader sees at a virtual address whose byte in place is `x`: a saved byte unless it holds the write
tenure (R222, R244). -/
def tileView (es : List (Nat × Entry)) (whos : List Agent) (va : Nat) (x : Nat) : Nat :=
  match es.find? (fun (_, t) => (tlook (va / 64) t.saved).isSome && !whos.any t.holds && t.desc.has va) with
  | some (_, t) => (tget 0 t.saved (va / 64)).toNat / 2 ^ (8 * (va % 64)) % 256
  | none => x

/-- The bytes of an access as its reader sees them at the home. -/
def homeRead (s : State) (r : VRef) (whos : List Agent) (n : Nat) : Nat :=
  if r.e.cls != 2 then rdBytes s.mem n r.pa
  else
    let es := (entriesOf s (homeOf s r) r.tenant).filter fun e => !e.2.saved.isEmpty
    (List.range n).foldl (fun acc i =>
      acc + tileView es whos (r.va + i) (rdByte s.mem (r.pa + i)).toNat * 2 ^ (8 * i)) 0

/-- The write holder's first write of `n` bytes to a sector saves it (R244). -/
def saveSector (r : VRef) (n : Nat) : Op Unit := do
  if r.e.cls = 2 then
    let s ← get
    let h := homeOf s r
    let old := BitVec.ofNat 512 (rdBytes s.mem 64 (r.pa / 64 * 64))
    modHome h fun x => { x with entries := x.entries.map fun (i, e) =>
      if e.tenant = r.tenant && e.state = .write && (tileByte e.desc r.va n).isSome && !thas e.saved (r.va / 64)
      then (i, { e with saved := tset (r.va / 64) old e.saved, savedPa := tset (r.va / 64) (r.pa / 64) e.savedPa }) else (i, e) }

/-! Writing at the home -/

/-- Whether a page is software-managed: its copies are untracked (R208). Every store to a tile-class page is written through,
whatever its policy (R244). -/
def VRef.loose (r : VRef) : Bool := !r.host && r.e.cls != 0 && r.e.cls != 2 && r.e.pol = 2
/-- Whether a page's sectors carry stamps: shared-lease and tile pages that are not software-managed, in device
memory (R259). -/
def VRef.stamped (r : VRef) : Bool := !r.host && r.e.cls != 0 && !r.loose

/-- The writer's jump (R255): the sector's new stamps for a writer with clock `t`. -/
def jump (x : Stamps) (t : Nat) : Nat := later ((x.rts + 1) % 65536) t

/-- Perform a write of `n` bytes at the home with the writer's clock; the new WTS. The jump cap of R258 is
checked before (`capped`). -/
def homeWrite (r : VRef) (n x clock : Nat) : Op Nat := do
  let s ← get
  putMem n r.pa x
  modify fun s => { s with writers := tset (r.pa / 64) r.tenant s.writers }
  if r.stamped then
    let h := homeOf s r
    let w := jump (s.stamps h (r.pa / 64)) clock
    atHome h
    modify fun s => { s with sects := tset (r.pa / 64) ⟨w, w, h⟩ s.sects }
    raiseHc h (later w clock)
    return w
  else return clock

/-- A write that the jump cap holds at its home (R258). -/
def capped (s : State) (r : VRef) (clock : Nat) : Bool :=
  r.stamped && earlier ((s.floorM + 16384) % 65536) (jump (s.stamps (homeOf s r) (r.pa / 64)) clock)

/-- Every mark of stale instruction-buffer lines: a write by an agent of the core to a line's bytes (12_groups_progress.md R329). -/
def staleLines (c pa n : Nat) : Op Unit := do
  let k := (← get).core c
  if k.ibuf.isEmpty then pure ()
  else modCore c fun k => { k with ibuf := k.ibuf.map fun (i, l) =>
    if pa < l.pa + 128 && l.pa < pa + n then (i, { l with stale := true }) else (i, l) }

/-! Copies -/

/-- Where copies of sectors are kept: a core's L1, a quad unit, an L2 slice of a die. -/
inductive Pt | l1 (c : Nat) | quad (q : Nat) | l2 (d : Nat)
deriving DecidableEq, Repr

/-- The copies at a point, by sector. -/
def State.copiesAt (s : State) (p : Pt) : Tab Copy :=
  match p with
  | .l1 c => (s.core c).copies
  | .quad q => (s.quad q).copies
  | .l2 d => (s.l2.filter fun e => e.1 / 2 ^ 46 = d).map fun e => (e.1 % 2 ^ 46, e.2)
def copyAt (s : State) (p : Pt) (sec : Nat) : Option Copy :=
  match p with
  | .l1 c => tlook sec (s.core c).copies
  | .quad q => tlook sec (s.quad q).copies
  | .l2 d => tlook (d * 2 ^ 46 + sec) s.l2
def putCopy (p : Pt) (sec : Nat) (x : Copy) : Op Unit :=
  match p with
  | .l1 c => modCore c fun k => { k with copies := tset sec x k.copies }
  | .quad q => modQuad q fun k => { k with copies := tset sec x k.copies }
  | .l2 d => modify fun s => { s with l2 := tset (d * 2 ^ 46 + sec) x s.l2 }
def dropCopy (p : Pt) (sec : Nat) : Op Unit :=
  match p with
  | .l1 c => modCore c fun k => { k with copies := tdel sec k.copies }
  | .quad q => modQuad q fun k => { k with copies := tdel sec k.copies }
  | .l2 d => modify fun s => { s with l2 := tdel (d * 2 ^ 46 + sec) s.l2 }
def clockAt (s : State) (p : Pt) : Nat :=
  match p with
  | .l1 c => s.lc c
  | .quad q => s.qc q
  | .l2 _ => s.dev.base
def raiseAt (p : Pt) (t : Nat) : Op Unit :=
  match p with
  | .l1 c => raiseLc c t
  | .quad q => raiseQc q t
  | .l2 _ => pure ()

/-- Bytes of a sector's copy from an offset. -/
def Copy.bytes (x : Copy) (o n : Nat) : Nat := x.data.toNat / 2 ^ (8 * o) % 2 ^ (8 * n)
def Copy.set (x : Copy) (o n v : Nat) : Copy :=
  { x with data := (x.data &&& ~~~(bitsAt (8 * o) (8 * n))) ||| BitVec.ofNat 512 (v % 2 ^ (8 * n) * 2 ^ (8 * o)) }

/-- The sector of an access. -/
def VRef.sec (r : VRef) : Nat := r.pa / 64
def VRef.sector (r : VRef) : VRef := { r with va := r.va / 64 * 64, pa := r.pa / 64 * 64 }

/-- A reply of a home slice reaches the clock of a point that asked (R258). -/
def homeReply (p : Pt) (h : Nat) : Op Unit := do
  raiseAt p (((← get).hc h + 65536 - 16384) % 65536)

/-! Room in the caches, and eviction (10_memory_ops.md R274) -/

/-- The eviction priority that an access leaves (R52, R274). -/
def evpOf (r : VRef) (evict : Nat) : Nat := if evict = 0 then r.e.evp else evict

/-- The other lines of 128 bytes that stand at a point in the set of a line, by sector (the sets are not the spec's: log 81). -/
def rivals (s : State) (p : Pt) (sec : Nat) : Tab Copy :=
  (s.copiesAt p).filter fun e => e.1 / 2 != sec / 2 && Config.setOf (e.1 / 2) = Config.setOf (sec / 2)

/-- At most half the ways of a set hold lines at level 7; a further access sets level 6. -/
def levelAt (s : State) (p : Pt) (sec lvl : Nat) : Nat :=
  if lvl != 7 then lvl
  else if 2 * (((rivals s p sec).filter fun e => e.2.evp = 7).map (·.1 / 2)).eraseDups.length + 2 ≤ Config.ways then 7 else 6

/-- An access touches a line: both sectors take its priority. -/
def touch (p : Pt) (sec lvl : Nat) : Op Unit := do
  let v := levelAt (← get) p sec lvl
  let f (k : Nat) : Op Unit := do
    match copyAt (← get) p k with
    | some x => if x.evp = v then pure () else putCopy p k { x with evp := v }
    | none => pure ()
  f (sec / 2 * 2)
  f (sec / 2 * 2 + 1)

/-- A line may be chosen for eviction: none of a lower level is present in its set. -/
def mayEvict (s : State) (p : Pt) (sec : Nat) : Bool :=
  match copyAt s p sec with
  | some x => !(rivals s p sec).any fun e => e.2.evp < x.evp
  | none => false

/-- Merge a copy's dirty bytes into the level above: an L2 copy, or the home (R276). -/
def mergeDirty (sec : Nat) (x : Copy) (up : Option Pt) : Op Unit := do
  let s ← get
  let bytesOf := (List.range 64).filter fun i => x.dirty.getLsbD i
  match up with
  | some p =>
    let old : Copy := (copyAt s p sec).getD ⟨BitVec.ofNat 512 (rdBytes s.mem 64 (sec * 64)), 0, 0, 0, true, x.evp, false⟩
    let y := bytesOf.foldl (fun (c : Copy) i => c.set i 1 (x.bytes i 1)) old
    if !bytesOf.isEmpty then putCopy p sec { y with dirty := y.dirty ||| x.dirty }
  | none => bytesOf.forM fun i => putMem 1 (sec * 64 + i) (x.bytes i 1)

/-- Write back a copy: its dirty bytes go up, the copy stays clean. -/
def writeBack (p : Pt) (sec : Nat) (up : Option Pt) : Op Unit := do
  match copyAt (← get) p sec with
  | some x =>
    if x.dirty != 0 then
      mergeDirty sec x up
      putCopy p sec { x with dirty := 0 }
  | none => pure ()

/-- An eviction loses no byte. -/
def evict (p : Pt) (sec : Nat) : Op Unit := do
  match p with
  | .l1 c =>
    writeBack p sec (if (copyAt (← get) (.l2 (dieOfCore c)) sec).isSome then some (.l2 (dieOfCore c)) else none)
  | _ => writeBack p sec none
  dropCopy p sec

/-- Lines that a cache has room for: the L1 takes what the places and the quad-memory shares of its core leave of 1 MiB (01_machine.md
R15, R30), the L2 of a die what its stores leave of 128 MiB (R1, R31). -/
def lineRoom (s : State) : Pt → Option Nat
  | .l1 c =>
    let k := s.core c
    match (k.grid.bind s.gridOf).bind (·.hdr) with
    | some h => some ((Config.granulesPerCore - k.places * (allocGranules h + shareGranules h)) / 2)
    | none => some (Config.granulesPerCore / 2)
  | .quad _ => none
  | .l2 d => some (2 ^ 20 - (s.queues.foldl (fun n q => n + (match q.2.active with
      | some g => if thas g.dieGens d then ((g.hdr.map (·.dstore)).getD 0) * 2 ^ 16 else 0
      | none => 0)) 0))

/-- A line that comes into a full cache takes the place of one of the lowest level (R274; log 81: of several, that with the lowest
address). -/
def makeRoom (p : Pt) (sec : Nat) : Op Unit := do
  let s ← get
  let cs := s.copiesAt p
  match lineRoom s p with
  | some n =>
    let lines := ((cs.map (·.1 / 2)).eraseDups).filter (· != sec / 2)
    if n ≤ lines.length then
      match (cs.filter fun e => e.1 / 2 != sec / 2).foldl (fun (m : Option (Nat × Nat)) e => match m with
        | some (_, v) => if e.2.evp < v then some (e.1, e.2.evp) else m
        | none => some (e.1, e.2.evp)) none with
      | some (x, _) =>
        evict p (x / 2 * 2)
        evict p (x / 2 * 2 + 1)
      | none => pure ()
  | none => pure ()

/-- A cache whose room has shrunk gives up lines of the lowest level until the rest fits (01_machine.md R15). -/
def trimLines (p : Pt) : Nat → Op Unit
  | 0 => pure ()
  | n + 1 => do
    let s ← get
    match lineRoom s p, (s.copiesAt p).head? with
    | some k, some (sec, _) =>
      let lines := ((s.copiesAt p).map (·.1 / 2)).eraseDups.length
      if k < lines then
        match (s.copiesAt p).find? fun e => !(s.copiesAt p).any fun f => f.2.evp < e.2.evp with
        | some (x, _) =>
          evict p (x / 2 * 2)
          evict p (x / 2 * 2 + 1)
        | none => dropCopy p sec
        trimLines p n
    | _, _ => pure ()

/-! Copies of coherent and of software-managed pages -/

/-- A leased fill or renewal of a copy (R254, R257): the home's RTS covers the new lease end. A tile sector's copy holds the
published bytes (R244). -/
def leaseFill (p : Pt) (r : VRef) (evp : Nat) : Op Copy := do
  makeRoom p r.sec
  let s ← get
  let h := homeOf s r
  let st := s.stamps h r.sec
  let t := clockAt s p
  let e := (t + r.e.lease) % 65536
  atHome h
  modify fun s => { s with sects := tset r.sec ⟨st.wts, later st.rts e, h⟩ s.sects }
  raiseHc h (later e t)
  let fresh : Copy := ⟨BitVec.ofNat 512 (homeRead s r.sector [] 64), st.wts, e, 0, false, evp, false⟩
  let x : Copy ← (match copyAt s p r.sec with
    | some old =>
      if old.wts = st.wts && !old.sm then do
        modHome h fun k => { k with renew := sat48 (k.renew + 1) }
        return { old with lend := e, ended := false }
      else return fresh
    | none => return fresh)
  putCopy p r.sec x
  touch p r.sec evp
  return x

/-- A copy that serves the reader now: valid while the clock is not later than its lease end (R254). -/
def liveCopy (s : State) (p : Pt) (sec : Nat) : Option Copy :=
  match copyAt s p sec with
  | some x => if x.sm || !(x.ended || earlier x.lend (clockAt s p)) then some x else none
  | none => none

/-- An untracked copy of a software-managed page (R208): from the level above, which keeps one too where the page allows. -/
def plainFill (p : Pt) (die : Nat) (r : VRef) (evp : Nat) : Op Copy := do
  let s ← get
  match copyAt s p r.sec with
  | some x =>
    touch p r.sec evp
    return x
  | none =>
    let home : Copy := ⟨BitVec.ofNat 512 (rdBytes s.mem 64 (r.pa / 64 * 64)), 0, 0, 0, true, evp, false⟩
    if r.e.l2 then
      if (copyAt s (.l2 die) r.sec).isNone then
        makeRoom (.l2 die) r.sec
        putCopy (.l2 die) r.sec home
      touch (.l2 die) r.sec evp
    let x := { (if r.e.l2 then (copyAt s (.l2 die) r.sec).getD home else home) with dirty := 0 }
    if p != .l2 die || !r.e.l2 then
      makeRoom p r.sec
      putCopy p r.sec x
      touch p r.sec evp
    return x

/-- The quad unit's copy of a sector gives way when a core of the quad has read or written another version of it (R214; log 22). -/
def quadYields (core : Nat) (r : VRef) (w : Nat) : Op Unit := do
  let q := Pt.quad (quadOfCore core)
  match copyAt (← get) q r.sec with
  | some x => if !x.sm && x.wts != w then dropCopy q r.sec
  | none => pure ()

/-- An acquire of a value with timestamp `w` by a core: its clock reaches it (R256), and so does the clock of its quad unit, whose
copies the core's later atomics read (R214; log 22). -/
def acquireAt (core w : Nat) : Op Unit := do
  raiseLc core w
  raiseQc (quadOfCore core) w

/-- What a load returns: its bytes, the WTS of the value, and the home that replied, if one did. -/
structure Got where
  val  : Nat
  wts  : Nat
  home : Option Nat
deriving DecidableEq, Repr

/-- A load's bytes as a group's core sees them (R215, R244, R254). No clock is raised before the whole word has its
values (R205, R256). -/
def loadAt (core : Nat) (r : VRef) (whos : List Agent) (n evict : Nat) : Op Got := do
  let s ← get
  let p := Pt.l1 core
  let o := r.pa % 64
  if r.host || r.e.cls = 0 then return ⟨rdBytes s.mem n r.pa, s.lc core, none⟩
  else if r.loose then
    if r.e.l1 then
      let x ← plainFill p (dieOfCore core) r (evpOf r evict)
      return ⟨x.bytes o n, s.lc core, none⟩
    else if r.e.l2 then
      let x ← plainFill (.l2 (dieOfCore core)) (dieOfCore core) r (evpOf r evict)
      return ⟨x.bytes o n, s.lc core, none⟩
    else return ⟨rdBytes s.mem n r.pa, s.lc core, none⟩
  else
    let h := homeOf s r
    let own := r.e.cls = 2 && (entriesOf s h r.tenant).any fun (_, t) =>
      whos.any t.holds && t.state = .write && thas t.saved (r.va / 64)
    if own || !r.e.l1 then
      let w := (s.stamps h r.sec).wts
      atHome h
      quadYields core r w
      return ⟨homeRead s r whos n, w, some h⟩
    else
      match liveCopy s p r.sec with
      | some x =>
        touch p r.sec (evpOf r evict)
        return ⟨x.bytes o n, x.wts, none⟩
      | none =>
        let x ← leaseFill p r (evpOf r evict)
        quadYields core r x.wts
        return ⟨x.bytes o n, x.wts, some h⟩

/-- What a core's loads have read goes into the timestamp of its next release (R214, R216; log 22). -/
def noteSeen (core w : Nat) : Op Unit := do
  let s ← get
  modCore core fun k => { k with seen := offset s (later ((s.dev.base + k.seen) % 65536) w) }

/-- A word's loads are complete: an acquire raises the clock to the WTS of each value that it read (R256), and every home that
replied raises it too (R258). -/
def loadsDone (core : Nat) (acq : Bool) (gs : List (VRef × Got)) : Op Unit :=
  gs.forM fun (r, g) => do
    if r.stamped then
      noteSeen core g.wts
      if acq then acquireAt core g.wts
    match g.home with
    | some h => homeReply (.l1 core) h
    | none => pure ()

/-- One load that no other of its word is compared with. -/
def loadOne (core : Nat) (r : VRef) (whos : List Agent) (n evict : Nat) : Op Nat := do
  let g ← loadAt core r whos n evict
  loadsDone core false [(r, g)]
  return g.val

/-- Before a release's write: the clock of its core covers all that the core has read and written (R214, R216; log 22), and that of
the quad unit too where the write is stamped with it. How narrow the scope is limits nothing (R212; log 94). -/
def releaseCore (core : Nat) (sc : Scope) : Op Unit := do
  let s ← get
  raiseLc core ((s.dev.base + (s.core core).seen) % 65536)
  if sc = .quad then raiseQc (quadOfCore core) ((← get).lc core)

/-- The acquire side of a synchronisation that no timestamp carries (fences, barriers, rings, tenure, launches, futures, local
spaces): the core's clock and that of its quad unit reach the package's largest, so that every lease granted before a
write that has been performed has ended (log 22). -/
def acquireCore (c : Nat) : Op Unit := do
  acquireAt c (largestClock (← get))

/-- A store's effect on the copy its writer holds, after it was performed at the home (R255). -/
def refresh (p : Pt) (r : VRef) (w : Nat) : Op Unit := do
  let s ← get
  match copyAt s p r.sec with
  | some x =>
    let held := r.e.cls = 2 && (entriesOf s (homeOf s r) r.tenant).any fun (_, t) => thas t.saved (r.va / 64)
    if held || x.sm then pure ()
    else putCopy p r.sec { x with
      data := BitVec.ofNat 512 (rdBytes s.mem 64 (r.pa / 64 * 64))
      wts := w
      lend := w
      ended := false }
  | none => pure ()

/-- Write into an untracked copy and mark its bytes dirty (R208). -/
def dirtyWrite (p : Pt) (die : Nat) (r : VRef) (n x evp : Nat) : Op Unit := do
  let c ← plainFill p die r evp
  let y := c.set (r.pa % 64) n x
  putCopy p r.sec { y with dirty := y.dirty ||| BitVec.ofNat 64 ((2 ^ n - 1) * 2 ^ (r.pa % 64)) }

/-- The reply of a home to a write (R255, R258): the writer's clock reaches the WTS, its own copy takes the sector. -/
def written (core : Nat) (r : VRef) (w : Nat) : Op Unit := do
  if r.stamped then
    let h := homeOf (← get) r
    raiseLc core w
    homeReply (.l1 core) h
    refresh (.l1 core) r w
    quadYields core r w

/-- Perform a store of a group's core (R208, R244, R255). -/
def storeAt (core : Nat) (r : VRef) (n x evict : Nat) : Op Unit := do
  let s ← get
  let die := dieOfCore core
  staleLines core r.pa n
  if r.loose && (r.e.l1 || r.e.l2) then
    dirtyWrite (if r.e.l1 then .l1 core else .l2 die) die r n x (evpOf r evict)
  else
    saveSector r n
    let w ← homeWrite r n x (s.lc core)
    written core r w

/-- Where an atomic of a scope executes in virtual memory (R219, R281): at a copy, or at the home. -/
def atomicPoint (core : Nat) (r : VRef) (sc : Scope) : Option Pt :=
  if r.host || r.e.cls = 0 then none
  else
    let l2 : Option Pt := if r.loose && r.e.l2 then some (.l2 (dieOfCore core)) else none
    match sc with
    | .group | .core => if r.e.l1 then some (.l1 core) else l2
    | .quad => if r.e.l1 || !r.loose then some (.quad (quadOfCore core)) else l2
    | .die => l2
    | _ => none

/-- The clock that an atomic of a core writes with (R255, R487). -/
def atomClock (s : State) (core : Nat) (r : VRef) (sc : Scope) : Nat :=
  match atomicPoint core r sc with
  | some p => if r.loose then s.lc core else clockAt s p
  | none => s.lc core

/-- The level to which a copy of a software-managed page is written back: the die's L2 where the page allows it, or the home. -/
def upOf (die : Nat) (r : VRef) : Option Pt := if r.e.l2 then some (.l2 die) else none

/-- Before an atomic of a core executes beyond its L1 on a software-managed page: the bytes that the core has written reach that
point, and older copies on the way give way, so that the core's groups see their accesses coherently (R206, R208, R214; log 22). -/
def bringUp (core : Nat) (r : VRef) (p : Option Pt) : Op Unit := do
  let die := dieOfCore core
  let q := Pt.quad (quadOfCore core)
  if p != some (.l1 core) then
    match copyAt (← get) (.l1 core) r.sec with
    | some x =>
      if x.dirty != 0 && (copyAt (← get) q r.sec).isSome then mergeDirty r.sec x (some q)
      writeBack (.l1 core) r.sec (upOf die r)
      dropCopy (.l1 core) r.sec
    | none => pure ()
    if p != some q then
      writeBack q r.sec (upOf die r)
      dropCopy q r.sec
      if p = none then
        writeBack (.l2 die) r.sec none
        dropCopy (.l2 die) r.sec

/-- One read-modify-write step (R219, R220, R280): `f` gives the new value from the old. The old value, and the WTS
of the value read. -/
def rmwAt (core : Nat) (r : VRef) (whos : List Agent) (sc : Scope) (n evict : Nat) (f : Nat → Nat) : Op (Nat × Nat) := do
  let s ← get
  let die := dieOfCore core
  let o := r.pa % 64
  staleLines core r.pa n
  match atomicPoint core r sc with
  | some p =>
    if r.loose then
      bringUp core r (some p)
      let c ← plainFill p die r (evpOf r evict)
      let m := c.bytes o n
      dirtyWrite p die r n (f m) (evpOf r evict)
      if p = .quad (quadOfCore core) then writeBack p r.sec (upOf die r)
      return (m, s.lc core)
    else
      let own := r.e.cls = 2
      let h := homeOf s r
      let c : Copy ← (match liveCopy s p r.sec with
        | some x => do
          touch p r.sec (evpOf r evict)
          return x
        | none => do
          let x ← leaseFill p r (evpOf r evict)
          homeReply p h
          return x)
      let m := if own then homeRead s r whos n else c.bytes o n
      saveSector r n
      let w ← homeWrite r n (f m) (clockAt (← get) p)
      raiseAt p w
      homeReply p h
      refresh p r w
      (match p with
        | .l1 _ => quadYields core r w
        | _ => refresh (.l1 core) r w)
      noteSeen core w
      return (m, c.wts)
  | none =>
    if r.loose then bringUp core r none
    let s ← get
    let m := homeRead s r whos n
    let w0 := (s.stamps (homeOf s r) r.sec).wts
    saveSector r n
    let w ← homeWrite r n (f m) (s.lc core)
    written core r w
    return (m, w0)

end Sys2Proof.Machine
end

