-- ==== Sys2Proof/Machine/Access.lean ====
section
/-! DEFINITION. How a memory word is checked and performed: conditions 1 to 6 in their order (10_memory_ops.md R269, R270), waits on translation (15_isolation.md R418), uncorrectable data (R271), line events (R279), and words that stay outstanding (02_words.md R62 to R67). -/

namespace Sys2Proof.Machine

/-! Feature masks -/

/-- The trap of a word of a masked feature group, seen at issue (03_opcode_map.md R73, R84). -/
def needFeature (g : Nat) : Op Unit := do
  let s ← get
  let p := s.part (s.partOf (← selfTenant))
  if bitOf p.feat g then illegal (if p.reveal then 2 else 1)

/-! Line monitors -/

/-- A group's WAITLN ends with a result (R279). -/
def endWait (gk : Nat) (result cause : Nat) : Op Unit := do
  match tlook gk (← get).groups with
  | some g =>
    match g.asleep with
    | some ⟨.line _ _ dst _ _ _, _⟩ =>
      putGroup gk (g.setScalar dst (BitVec.ofNat 64 result))
      wake gk cause
    | _ => pure ()
  | none => pure ()

/-- Line events of the groups whose monitor a test selects. -/
def lineEvents (p : Nat → Wait → Bool) : Op Unit := do
  let s ← get
  s.groups.forM fun (gk, g) => match g.asleep with
    | some z => match z.on with
      | .line _ _ _ _ _ _ => if p gk z.on then endWait gk 1 5 else pure ()
      | _ => pure ()
    | none => pure ()

/-- A write by an agent of a core to bytes of physical memory (R279). -/
def lineWritten (core pa n : Nat) : Op Unit :=
  lineEvents fun gk w => match w with
    | .line l false _ _ _ _ => coreOfGrp gk = core && pa < l * 128 + 128 && l * 128 < pa + n
    | _ => false

/-- The line number of a granule of a core store or of a die store. -/
def localLineNo (die : Bool) (k : Nat) : Nat := k / 2 + (if die then 2 ^ 60 else 0)

/-- A write to a granule of a local space (R279). -/
def localWritten (die : Bool) (k : Nat) : Op Unit :=
  lineEvents fun _ w => match w with
    | .line l true _ _ _ _ => l = localLineNo die k
    | _ => false

/-- The sectors of a line with a copy under a valid lease at a core (R279): 1 the first, 2 the second. -/
def liveSectors (s : State) (core l : Nat) : Nat :=
  b2n (liveCopy s (.l1 core) (2 * l)).isSome + 2 * b2n (liveCopy s (.l1 core) (2 * l + 1)).isSome

/-- Monitors of a line with a watched sector whose lease has ended, or whose copy is gone (R279): checked after each step. -/
def expireLines : Op Unit := do
  let s ← get
  lineEvents fun gk w => match w with
    | .line l false _ _ watch _ => Nat.land watch (liveSectors s (coreOfGrp gk) l) != watch
    | _ => false

/-! Checks -/

/-- What an access needs (R269, R270): the spaces it may name, whether it reads and writes, its size. -/
structure Need where
  spaces : List Nat
  reads  : Bool
  writes : Bool
  size   : Nat
  lp     : Bool := false
  /-- the scope of an atomic, which says whose clock its write carries (R255, R487) -/
  atom   : Option Scope := none
deriving DecidableEq, Repr

/-- A checked lane access. -/
inductive Tgt
  | loc (a lane : Nat)
  | virt (r : VRef)
deriving DecidableEq, Repr

/-- The address of a lane-private access: the offset in space 0x05 (R270, R273). -/
def lpAddr (n : Need) (a : Nat) : Nat := if n.lp && spaceOf a = 0 then 5 * 2 ^ 56 + offOf a else a

/-- Condition 1 (R269). -/
def badSpace (c : LocalCtx) (s : State) (n : Need) (a lane : Nat) : Bool :=
  let x := lpAddr n a
  !n.spaces.contains (spaceOf a) ||
  (if spaceOf x = 0 then 2 ^ 56 < offOf x + n.size
   else !c.valid s x n.size lane || (n.writes && !c.writable s x n.size lane))

/-- The place and group of an agent in a fault record (R418). -/
def agentWord (s : State) (gk : Nat) : Nat := placeOf s.dev.pkg (coreOfGrp gk) + gk % 64 * 2 ^ 25

/-- Condition 3: a lane's mapping, or the wait that resolving it needs; a page answered with FAIL counts as condition 4, until the
trap that it leads to is taken (`noteTrap`). -/
inductive Mapped
  | ok (r : VRef)
  | denied
  | sleep (w : Wait)
deriving DecidableEq, Repr

/-- Map a virtual address for a group (R269 condition 3, R407, R408, R418). -/
def mapLane (gk t va : Nat) (n : Need) (bits' : Nat) : Op Mapped := do
  let s ← get
  let g ← groupAt gk
  let core := coreOfGrp gk
  if g.failed.contains (va / 4096) then return .denied
  else if syncing s t va then return .sleep .home
  else match ← xlate (dieOfCore core) (some core) t va with
    | .wait => return .sleep .home
    | .bad f =>
      let (fn, id, page) ← reportFault t va f bits' (agentWord s gk)
      return .sleep (.fault fn id page)
    | .ok e =>
      let s ← get
      let fits := e.readable && (!n.writes || e.writable)
      match reach s t (e.phys va) with
      | .dev pa part => return if fits then .ok ⟨va, e, pa, part, false, t⟩ else .denied
      | .host pa => return if fits then .ok ⟨va, e, pa, s.partOf t, true, t⟩ else .denied
      | .none => return .denied
      | .zeroing => return if fits then .sleep .home else .denied
      | .absent pa =>
        if fits then
          let (fn, id, page) ← askHost pa va
          return .sleep (.fault fn id page)
        else return .denied

/-- The bits of a fault record for an access (R418). -/
def accBits (n : Need) : Nat := b2n n.reads + 2 * b2n n.writes

/-- The checked accesses of a word's lanes, in order (R269): the first condition that any lane meets is acted on,
at the lowest lane that meets it. -/
def checkLanes (n : Need) (xs : List (Nat × Nat)) : Op (List Tgt) := do
  let s ← get
  let gk := s.cur.gk
  let c ← localCtx gk
  let t ← selfTenant
  match xs.find? (fun x => badSpace c s n x.2 x.1) with
  | some x => raise 0x02 (BitVec.ofNat 64 (lpAddr n x.2))
  | none => pure ()
  match xs.find? (fun x => x.2 % n.size != 0) with
  | some x => raise 0x03 (BitVec.ofNat 64 (lpAddr n x.2))
  | none => pure ()
  let ms : List (Nat × Option Tgt × Option Wait) ← xs.mapM fun (lane, a) => do
    let a' := lpAddr n a
    if spaceOf a' = 0 then
      match ← mapLane gk t a' n (accBits n) with
      | .ok r => return (a, some (Tgt.virt r), none)
      | .denied => return (a, none, none)
      | .sleep w => return (a, none, some w)
    else return (a, some (Tgt.loc a' lane), none)
  match ms.find? (fun m => m.2.2.isSome) with
  | some (_, _, some w) => waitFor w
  | _ => pure ()
  match ms.find? (fun m => m.2.1.isNone) with
  | some m => raise 0x04 (BitVec.ofNat 64 m.1)
  | none => pure ()
  let ts : List Tgt := ms.filterMap fun m => m.2.1
  let s ← get
  if n.reads then
    match ts.find? (fun x => match x with
      | .loc a lane => c.stale s a n.size lane
      | .virt _ => false) with
    | some (.loc a _) => raise 0x05 (BitVec.ofNat 64 a)
    | _ => pure ()
  if n.writes then
    match (ts.filterMap fun x => match x with
      | .virt r => tenureConflict s r (selfWho s gk) n.size
      | .loc _ _ => none).head? with
    | some a => raise 0x06 (BitVec.ofNat 64 a)
    | none => pure ()
    if ts.any (fun x => match x with
      | .virt r => capped s r (match n.atom with
        | some sc => atomClock s (coreOfGrp gk) r sc
        | none => s.lc (coreOfGrp gk))
      | .loc _ _ => false) then waitFor .home
  return ts

/-- Whether a location holds an uncorrectable word (R271). -/
def tgtBad (c : LocalCtx) (s : State) (n : Nat) : Tgt → Bool
  | .loc a lane => c.bad s a n lane
  | .virt r => s.poison.mem.any fun w => r.pa < 32 * w + 32 && 32 * w < r.pa + n

def tgtAddr : Tgt → Nat
  | .loc a _ => a
  | .virt r => r.va

/-! Performing -/

/-- The bytes of a lane's load, before the clocks are raised. -/
def loadTgt (c : LocalCtx) (n evict : Nat) : Tgt → Op Got
  | .loc a lane => do return ⟨c.read (← get) a n lane, 0, none⟩
  | .virt r => do loadAt (coreOfGrp c.gk) r (selfWho (← get) c.gk) n evict

/-- The values that one word's lanes load: lanes that name one location get one value (R205, R272). -/
def loadValues (c : LocalCtx) (n evict : Nat) : List Tgt → Tab Got → Op (List Got)
  | [], _ => pure []
  | .virt r :: ts, memo => do
    match tlook r.pa memo with
    | some g => return g :: (← loadValues c n evict ts memo)
    | none =>
      let g ← loadTgt c n evict (.virt r)
      return g :: (← loadValues c n evict ts (tset r.pa g memo))
  | t :: ts, memo => do return (← loadTgt c n evict t) :: (← loadValues c n evict ts memo)

/-- Where an acquire cannot rely on the timestamp of what it read (R209, R214): a location that carries none. -/
def Tgt.plain : Tgt → Bool
  | .loc _ _ => true
  | .virt r => !r.stamped

/-- One word's loads: their values, and the clocks raised as they complete (R256, R258). -/
def loadAll (c : LocalCtx) (n evict : Nat) (acq : Bool) (ts : List Tgt) : Op (List Nat) := do
  let core := coreOfGrp c.gk
  let gs ← loadValues c n evict ts []
  loadsDone core acq ((ts.zip gs).filterMap fun x => match x.1 with
    | .virt r => some (r, x.2)
    | .loc _ _ => none)
  if acq && ts.any Tgt.plain then acquireCore core
  return gs.map (·.val)

/-- Store one lane's bytes, with the line events it makes. -/
def storeTgt (c : LocalCtx) (n x evict : Nat) : Tgt → Op Unit
  | .loc a lane => do
    c.write a n lane x
    match c.loc (← get) a lane with
    | some (.gran die k _ _ _) => localWritten die k
    | _ => pure ()
  | .virt r => do
    storeAt (coreOfGrp c.gk) r n x evict
    lineWritten (coreOfGrp c.gk) r.pa n

/-- One read-modify-write; the old value. An acquire raises the clocks (R256, R487). -/
def rmwTgt (c : LocalCtx) (sc : Scope) (n evict : Nat) (acq : Bool) (f : Nat → Nat) (t : Tgt) : Op Nat := do
  let core := coreOfGrp c.gk
  let m : Nat ← (match t with
    | .loc a lane => do
      let m := c.read (← get) a n lane
      storeTgt c n (f m) evict (.loc a lane)
      return m
    | .virt r => do
      let (m, w) ← rmwAt core r (selfWho (← get) c.gk) sc n evict f
      noteSeen core w
      if acq && r.stamped then acquireAt core w
      lineWritten core r.pa n
      return m)
  if acq && t.plain then acquireCore core
  return m

/-- The words of 32 bytes that a list of accesses covers whole, among some words. -/
def uncovered (n : Nat) (starts : List Nat) (ws : List Nat) : List Nat :=
  ws.filter fun w => !((List.range 32).all fun i => starts.any fun a => a ≤ 32 * w + i && 32 * w + i < a + n)

/-- Marks of words that the lanes of one instruction wrote whole are lifted (R271). -/
def healMarks (c : LocalCtx) (n : Nat) (ts : List Tgt) : Op Unit := do
  let s ← get
  let grans (die : Bool) : List Nat := ts.flatMap fun t => match t with
    | .loc a lane => (pieces n).filterMap fun p => match c.loc s (a + p.1) lane with
      | some (.gran d k byte _ _) => if d = die then some (64 * k + byte) else none
      | _ => none
    | .virt _ => []
  if s.poison.mem.isEmpty && s.poison.store.isEmpty && s.poison.dstore.isEmpty then pure ()
  else modify fun s => { s with poison := { s.poison with
    mem := uncovered n (ts.filterMap fun t => match t with
      | .virt r => some r.pa
      | .loc _ _ => none) s.poison.mem
    store := uncovered (min 4 n) (grans false) s.poison.store
    dstore := uncovered (min 4 n) (grans true) s.poison.dstore } }

/-! Bytes that accesses share (02_words.md R64) -/

/-- Ranges of addresses that share a byte. -/
def rangesMeet (a n b m : Nat) : Bool := a < b + m && b < a + n

/-- A range cut at pages of 4 KiB. -/
def pageParts (a n : Nat) : List (Nat × Nat) :=
  (List.range ((a % 4096 + n + 4095) / 4096)).map fun i =>
    let lo := max a ((a / 4096 + i) * 4096)
    (lo, min (a + n) ((a / 4096 + i + 1) * 4096) - lo)

/-- The physical address of a virtual one, as a core's next access to it would find it. -/
def physOf (s : State) (core t va : Nat) : Option Nat :=
  match (s.core core).tlb.find? (·.hits t va) with
  | some e => some (e.phys va)
  | none => match (s.die (dieOfCore core)).tlb.find? (·.hits t va) with
    | some e => some (e.phys va)
    | none => match walkBoth s t va with
      | .ok (e, _, _) => some (e.phys va)
      | .error _ => none

/-- Whether two ranges of different pages that may map the same bytes do: their places in a page meet, and their pages' frames are one. -/
def aliased (s : State) (core t : Nat) (x y : Nat × Nat) : Bool :=
  x.1 / 4096 != y.1 / 4096 && rangesMeet (x.1 % 4096) x.2 (y.1 % 4096) y.2 &&
  (match physOf s core t x.1, physOf s core t y.1 with
  | some p, some q => rangesMeet p x.2 q y.2
  | _, _ => false)

/-- Whether two accesses of a group share a byte: by their addresses, or through two virtual addresses of one location. -/
def spansMeet (s : State) (core t : Nat) (x y : Span) : Bool :=
  rangesMeet x.addr x.len y.addr y.len ||
  (spaceOf x.addr = 0 && spaceOf y.addr = 0 &&
    (pageParts x.addr x.len).any fun a => (pageParts y.addr y.len).any fun b => aliased s core t a b)

/-- The registers of the group itself that a range of the register window covers (01_machine.md R27). -/
def windowKeys (gk : Nat) (g : Group) (x : Span) : List RKey :=
  let gi := gk % 64
  let touch (lo n : Nat) : Bool := lo < offOf x.addr + x.len && offOf x.addr < lo + n
  if spaceOf x.addr != 1 then []
  else
    (((List.range g.nreg).filter fun n => touch (gi * 0x20000 + n * 4 * g.width) (4 * g.width)).map RKey.v) ++
    (if touch (0x800000 + gi * 0x800) 0x280 then
      (((List.range 64).filter fun m => touch (0x800000 + gi * 0x800 + 8 * m) 8).map RKey.s) ++
      (((List.range 8).filter fun j => touch (0x800000 + gi * 0x800 + 0x200 + 16 * j) 16).map RKey.k)
    else [])

/-- The registers that a word writes through the window (R28), and those that it reads there. -/
def windowWrites (gk : Nat) (g : Group) (xs : List Span) : List RKey :=
  (xs.filter (·.wr)).flatMap (windowKeys gk g)
def windowReads (gk : Nat) (g : Group) (xs : List Span) : List RKey :=
  (xs.filter fun x => !x.wr).flatMap (windowKeys gk g)

/-! Words that stay outstanding -/

/-- The word's turn is lost: it issues later, after an outstanding word of the group completes (12_groups_progress.md R339). -/
def loseTurn {α : Type} : Op α := do
  let w := (← get).cur.wasOpen
  modSelf fun g => { g with regionOpen := w }
  if (← self).pend.isEmpty then
    unissue
    finish
  else waitFor .drain

/-- The word in progress cannot be taken by its port: it replays, and holds its quadrant until the port has room
(R68; 07_matrix.md R184; 11_engines_futures.md R291). -/
def portStall {α : Type} : Op α := do
  let c := (← get).cur
  unissue
  modCore (coreOfGrp c.gk) fun k => match tlook (c.gk % 64 % 4) k.asks with
    | some a => { k with asks := tset (c.gk % 64 % 4) { a with begun := false, won := false } k.asks }
    | none => k
  finish

/-- A word waits for the group's other outstanding words. -/
def awaitPending : Op Unit := do
  if (← self).pend.isEmpty then pure () else loseTurn

/-- A word waits for the group's outstanding accesses (R216, R344). -/
def Group.accessing (g : Group) : Bool := g.pend.any fun p => !p.spans.isEmpty
def awaitAccesses : Op Unit := do
  if (← self).accessing then loseTurn

/-- Whether an outstanding word waits to be performed: a release or a fence for the accesses before it (R216, R218), an access for those before
it that share a byte (R64, R206). `qs` are the words before it. -/
def waitsFor (s : State) (core t : Nat) (qs : List Pend) (p : Pend) : Bool :=
  qs.any fun q => !q.spans.isEmpty &&
    (p.after || q.spans.any fun x => p.spans.any fun y => spansMeet s core t x y)

/-- The words of a group that stand before an outstanding one. -/
def earlierPend (g : Group) (id : Nat) : List Pend := g.pend.takeWhile fun q => q.id != id

/-- The tenant of a resident group. -/
def tenantAt (s : State) (gk : Nat) : Nat :=
  match tlook (blkOfGrp gk) s.blocks with
  | some b => tenantOf b.grid
  | none => 0

/-- Whether a field's ordering acquires, releases (R216). -/
def acquires (o : Ord) : Bool := o == .acq || o == .ar
def releases (o : Ord) : Bool := o == .rel || o == .ar

/-- The word in progress as an outstanding one with the values it read (R62, R65): its number in the group. A re-issued word
lets no other issue before it completes (16_recovery.md R440). -/
def newPend (s : State) (g : Group) (i : Instr) (m : Mask) (la : Nat) (vals : List (List Nat)) : Pend :=
  let c := s.cur
  { id := g.nextId
    pc := c.pc
    slotB := c.slotB
    mask := m
    instr := i
    vals := vals
    left := if c.only.isSome then 0 else la
    spans := c.spans
    wr := (uses i).wr ++ windowWrites c.gk g c.spans }
def putPend (p : Pend) : Op Unit :=
  modSelf fun g => { g with pend := g.pend ++ [p], nextId := g.nextId + 1 }

/-- Keep the word outstanding (R62, R65), or perform it now where nothing before it makes it wait. -/
def performOr (i : Instr) (o : MWord) (m : Mask) (vals : List (List Nat)) (now : Op Unit) : Op Unit := do
  let s ← get
  let g ← self
  let p : Pend := { newPend s g i m o.la.toNat vals with
    fence := if acquires o.ord then .all else .no
    after := releases o.ord }
  if s.cur.defer || waitsFor s (coreOfGrp s.cur.gk) (tenantAt s s.cur.gk) g.pend p then putPend p
  else now

/-- An acquire fence of a group: the accesses before it that are still outstanding come before every later one, and each completes
as an acquire (R217, R218, R223). -/
def fenceEarlier (gk : Nat) : Op Unit :=
  modGroup gk fun g => { g with pend := g.pend.map fun p => if p.spans.isEmpty then p else { p with fence := .acquire } }

end Sys2Proof.Machine
end

