-- ==== Sys2Proof/Machine/Memory.lean ====
section
/-! DEFINITION. Loads, stores, prefetch, write-back, invalidate, fences, WSIG and WAITLN (10_memory_ops.md R272 to R279). -/

namespace Sys2Proof.Machine

/-- The lanes of an M word: every active lane, or once when every register field is scalar (R267). -/
def memLanes (w : Nat) (perLane : Bool) (m : Mask) : List Nat :=
  if m = 0 then [] else if perLane then lanesOf w m else [0]

/-- The operand values of an M word, read at issue: size, addresses, lanes, data, second data. -/
structure MVals where
  size  : Nat
  addrs : List Nat
  lanes : List Nat
  data  : List Nat
  data2 : List Nat
deriving DecidableEq, Repr

def MVals.list (v : MVals) : List (List Nat) := [[v.size], v.addrs, v.lanes, v.data, v.data2]

/-- What a word kept outstanding read at issue. -/
def valsOf (p : Pend) : MVals :=
  ⟨(p.vals.getD 0 []).headD 1, p.vals.getD 1 [], p.vals.getD 2 [], p.vals.getD 3 [], p.vals.getD 4 []⟩

def MVals.pairs (v : MVals) : List (Nat × Nat) := v.lanes.zip v.addrs

/-- How an M word uses its registers: data in, second data in (its index field is no address). -/
structure MShape where
  size    : Nat
  dataIn  : Bool
  dataOut : Bool
  second  : Bool
  f       : Option Fmt := none
  lp      : Bool := false
deriving DecidableEq, Repr

def MShape.perLane (h : MShape) (o : MWord) : Bool := h.lp || o.lanes (h.dataIn || h.dataOut) true

/-- Read the operands of an M word for its lanes (R53, R267, R268). -/
def readOperands (h : MShape) (o : MWord) (m : Mask) : Op MVals := do
  let s ← get
  let gk := s.cur.gk
  let g ← self
  let ls := memLanes g.width (h.perLane o) m
  checkElems (ls.flatMap fun l =>
    (if h.dataIn then regElems h.size l o.data else []) ++ regElems 4 l o.base ++
    regElems (if h.second then h.size else 4) l o.index)
  let o' : MWord := if h.second then { o with index := .const 0 } else o
  return {
    size := h.size
    addrs := ls.map fun l => effAddr s gk g l h.size o'
    lanes := ls
    data := if h.dataIn then ls.map fun l => dataVal s gk g h.f l h.size o.data else []
    data2 := if h.second then ls.map fun l => dataVal s gk g none l h.size o.index else [] }

/-- The common start of an M word: checks, active lanes, operands; with no lane active it has no effect (R47). -/
def memStart (i : Instr) (h : MShape) (o : MWord) : Op (Mask × MVals) := do
  legal i
  let m ← activeMask o.pred.toNat
  if m = 0 then finish
  let v ← readOperands h o m
  return (m, v)

/-! Loads and stores -/

def spacesData : List Nat := [0, 1, 2, 3, 4]

/-- The performing of LD and LDP (R272). -/
def doLoad (n : Need) (sx : Bool) (o : MWord) (v : MVals) : Op Unit := do
  let ts ← checkLanes n v.pairs
  let c ← localCtx (← get).cur.gk
  match ts.find? (tgtBad c (← get) n.size) with
  | some t => raise 0x08 (BitVec.ofNat 64 (tgtAddr t))
  | none => pure ()
  let xs ← loadAll c n.size o.evict.toNat (acquires o.ord) ts
  (v.lanes.zip xs).forM fun (l, x) => writeData c.gk n.size sx l x o.data

/-- The performing of ST and STP (R272): the highest lane prevails (R205). A release's timestamp covers what the core has read
and written (R214). -/
def doStore (n : Need) (o : MWord) (v : MVals) : Op Unit := do
  if releases o.ord then releaseCore (coreOfGrp (← get).cur.gk) .core
  let ts ← checkLanes n v.pairs
  let c ← localCtx (← get).cur.gk
  (ts.zip v.data).forM fun (t, x) => storeTgt c n.size x o.evict.toNat t
  healMarks c n.size ts

def needLd (z : Nat) : Need := ⟨spacesData, true, false, z, false, none⟩
def needSt (z : Nat) : Need := ⟨spacesData, false, true, z, false, none⟩
def needLdp (z : Nat) : Need := ⟨[0, 5], true, false, z, true, none⟩
def needStp (z : Nat) : Need := ⟨[0, 5], false, true, z, true, none⟩

/-- LD (R272). -/
def execLd (z : Size) (sx : Bool) (o : MWord) : State → Host.Outcome State Fault Refusal :=
  runOp do
    let (m, v) ← memStart (.ld z sx o) ⟨z.bytes, false, true, false, none, false⟩ o
    performOr (.ld z sx o) o m v.list (doLoad (needLd z.bytes) sx o v)

/-- ST (R272). -/
def execSt (z : Size) (o : MWord) : State → Host.Outcome State Fault Refusal :=
  runOp do
    let (m, v) ← memStart (.st z o) ⟨z.bytes, true, false, false, none, false⟩ o
    performOr (.st z o) o m v.list (doStore (needSt z.bytes) o v)

/-- LDP (R273). -/
def execLdp (z : Size) (sx : Bool) (o : MWord) : State → Host.Outcome State Fault Refusal :=
  runOp do
    let (m, v) ← memStart (.ldp z sx o) ⟨z.bytes, false, true, false, none, true⟩ o
    performOr (.ldp z sx o) o m v.list (doLoad (needLdp z.bytes) sx o v)

/-- STP (R273). -/
def execStp (z : Size) (o : MWord) : State → Host.Outcome State Fault Refusal :=
  runOp do
    let (m, v) ← memStart (.stp z o) ⟨z.bytes, true, false, false, none, true⟩ o
    performOr (.stp z o) o m v.list (doStore (needStp z.bytes) o v)

/-! Prefetch, write-back, invalidate -/

/-- The two sectors of the 128-byte line of an address, as accesses. -/
def lineSectors (r : VRef) : List VRef :=
  [{ r with va := r.va / 128 * 128, pa := r.pa / 128 * 128 },
   { r with va := r.va / 128 * 128 + 64, pa := r.pa / 128 * 128 + 64 }]

/-- The mapping of a prefetched line; a lane that would meet a condition is dropped without a fault (R269, R275). -/
def quietMap (core t va : Nat) : Op (Option VRef) := do
  match ← xlate (dieOfCore core) (some core) t va with
  | .ok e =>
    let s ← get
    return match reach s t (e.phys va) with
      | .dev pa part => if e.readable then some ⟨va, e, pa, part, false, t⟩ else none
      | .host pa => if e.readable then some ⟨va, e, pa, s.partOf t, true, t⟩ else none
      | _ => none
  | _ => return none

/-- A sector is brought into the memory-side cache (09_tiles_leases.md R259). -/
def presentAt (r : VRef) : Op Unit := do
  let s ← get
  let h := homeOf s r
  atHome h
  if r.stamped && !thas s.sects r.sec then modify fun s => { s with sects := tset r.sec (s.stamps h r.sec) s.sects }

/-- The performing of PREF (R275): core scope keeps the line in the L1, die scope in the L2 slice (where the model keeps only lines of
software-managed pages: log 22), package scope in the memory-side cache of the home; a page that the level may not cache is dropped. -/
def doPref (o : MWord) (v : MVals) : Op Unit := do
  let gk := (← get).cur.gk
  let core := coreOfGrp gk
  let t ← selfTenant
  v.addrs.forM fun a => do
    if spaceOf a = 0 then
      match ← quietMap core t a with
      | some r =>
        (lineSectors r).forM fun x => do
          if x.host then pure ()
          else if o.scope == .core then
            if x.e.l1 && x.e.cls != 0 then
              let _ ← loadOne core x (selfWho (← get) gk) 1 o.evict.toNat
          else if o.scope == .die then
            if x.e.l2 then
              if x.loose then
                let _ ← plainFill (.l2 (dieOfCore core)) (dieOfCore core) x (evpOf x o.evict.toNat)
              else presentAt x
          else presentAt x
      | none => pure ()

/-- PREF (R275). -/
def execPref (o : MWord) : State → Host.Outcome State Fault Refusal :=
  runOp do
    let (m, v) ← memStart (.pref o) ⟨1, false, false, false, none, false⟩ o
    performOr (.pref o) o m v.list (doPref o v)

/-- The performing of WB and INV on a line (R276). The quad unit's copy, which holds no dirty bytes, goes with the L1's (R208; log 22). -/
def lineBack (core : Nat) (sc : Scope) (drop : Bool) (r : VRef) : Op Unit := do
  let d := dieOfCore core
  match sc with
  | .group | .core => pure ()
  | .quad | .die =>
    writeBack (.l1 core) r.sec (upOf d r)
    if drop then
      dropCopy (.l1 core) r.sec
      dropCopy (.quad (quadOfCore core)) r.sec
  | _ =>
    writeBack (.l1 core) r.sec (upOf d r)
    writeBack (.l2 d) r.sec none
    if drop then
      dropCopy (.l1 core) r.sec
      dropCopy (.quad (quadOfCore core)) r.sec
      dropCopy (.l2 d) r.sec

def spacesAll : List Nat := [0, 1, 2, 3, 4, 5]

/-- Checks of WB and INV: conditions 1, 3 and 4 with read permission (R269); then their lines. -/
def doBack (o : MWord) (drop : Bool) (v : MVals) : Op Unit := do
  let ts ← checkLanes ⟨spacesAll, false, false, 1, false, none⟩ v.pairs
  let core := coreOfGrp (← get).cur.gk
  ts.forM fun t => match t with
    | .loc _ _ => pure ()
    | .virt r => (lineSectors r).forM (lineBack core o.scope drop)

/-- WB (R276): for R64 and R216 a write to its line. -/
def execWb (o : MWord) : State → Host.Outcome State Fault Refusal :=
  runOp do
    let (m, v) ← memStart (.wb o) ⟨1, false, false, false, none, false⟩ o
    performOr (.wb o) o m v.list (doBack o false v)

/-- INV (R276). -/
def execInv (o : MWord) : State → Host.Outcome State Fault Refusal :=
  runOp do
    let (m, v) ← memStart (.inv o) ⟨1, false, false, false, none, false⟩ o
    performOr (.inv o) o m v.list (doBack o true v)

/-! Fences -/

/-- A fence's ordering obligations are met (R217, R218, R277): a release fence's later writes carry what the core has read, an acquire
fence acts on every read before it. -/
def doFence (o : MWord) : Op Unit := do
  let core := coreOfGrp (← get).cur.gk
  if releases o.ord then releaseCore core .quad
  if acquires o.ord then acquireCore core

/-- FENCE (R277): it completes when the accesses before it have been performed; in this model an access that is
not outstanding has been performed at every level that its page's class keeps coherent. -/
def execFence (o : MWord) : State → Host.Outcome State Fault Refusal :=
  runOp do
    legal (.fence o)
    let m ← activeMask o.pred.toNat
    if m = 0 then finish
    let s ← get
    let g ← self
    if acquires o.ord then fenceEarlier s.cur.gk
    if s.cur.defer || g.accessing then
      putPend { newPend s g (.fence o) m o.la.toNat [[0]] with
        fence := if acquires o.ord then .acquire else .writes
        after := true }
    else doFence o

/-! WSIG and WAITLN -/

def spacesSig : List Nat := [0, 2, 3, 4]

/-- The performing of WSIG (R225, R278): the payload's writes, then the flag's advance by their count, as one atomic of the scope. The
flag is a release that covers the payload, and under release what went before; its errors are met before the payload is stored (log 82). -/
def doWsig (z : Nat) (o : MWord) (v : MVals) : Op Unit := do
  let gk := (← get).cur.gk
  let n : Need := ⟨spacesSig, false, true, z, false, none⟩
  let ts ← checkLanes n v.pairs
  let fs ← checkLanes { n with reads := true, atom := some o.scope } (v.data2.map fun f => (0, f))
  let c ← localCtx gk
  match fs.find? (tgtBad c (← get) z) with
  | some t => raise 0x08 (BitVec.ofNat 64 (tgtAddr t))
  | none => pure ()
  (ts.zip v.data).forM fun (t, x) => storeTgt c z x o.evict.toNat t
  healMarks c z ts
  releaseCore (coreOfGrp gk) o.scope
  fs.forM fun t => do
    let _ ← rmwTgt c o.scope z 0 (acquires o.ord) (fun x => (x + v.lanes.length) % 2 ^ (8 * z)) t

/-- WSIG (R278). -/
def execWsig (d : Bool) (o : MWord) : State → Host.Outcome State Fault Refusal :=
  runOp do
    let z := (wd d).bytes
    legal (.wsig d o)
    let m ← activeMask o.pred.toNat
    if m = 0 then finish
    let s ← get
    let gk := s.cur.gk
    let g ← self
    let o' : MWord := { o with index := .const 0 }
    let ls := memLanes g.width (o.lanes true false) m
    checkElems (ls.flatMap fun l => regElems z l o.data ++ regElems 4 l o.base)
    let v : MVals := {
      size := z
      addrs := ls.map fun l => effAddr s gk g l z o'
      lanes := ls
      data := ls.map fun l => dataVal s gk g none l z o.data
      data2 := [baseVal s gk g 0 o.index] }
    performOr (.wsig d o) o m v.list (doWsig z o v)

/-- WAITLN (R279): the timeout is read at issue, the result written at completion; nothing is read of the line. -/
def execWaitln (o : MWord) : State → Host.Outcome State Fault Refusal :=
  runOp do
    legal (.waitln o)
    let m ← activeMask o.pred.toNat
    if m = 0 then finish
    let s ← get
    let gk := s.cur.gk
    let g ← self
    let core := coreOfGrp gk
    let a := effAddr s gk g 0 1 o
    let dst := match o.data with
      | .sreg r => r.toNat
      | _ => 0
    let ts ← checkLanes ⟨spacesSig, false, false, 1, false, none⟩ [(0, a)]
    let t := min (g.scalar dst).toNat (2 ^ 32 - 1)
    let done (x : Nat) : Op Unit := modSelf fun g => g.setScalar dst (BitVec.ofNat 64 x)
    let till := (← get).cycle + t
    match ts with
    | [.virt r] =>
      let s ← get
      let l := r.pa / 128
      let cached := r.e.l1 && !r.host
      let watch := if cached then liveSectors s core l else 0
      if t = 0 then done 2
      else if cached && watch = 0 then done 1
      else sleepOn (.line l false dst till watch (r.va / 128))
    | [.loc a lane] =>
      let c ← localCtx gk
      if t = 0 then done 2
      else match c.loc (← get) a lane with
        | some (.gran die k _ _ _) => sleepOn (.line (localLineNo die k) true dst till 0 0)
        | _ => done 2
    | _ => pure ()

end Sys2Proof.Machine
end

