-- ==== Sys2Proof/Machine/Atomics.lean ====
section
/-! DEFINITION. Atomics and reductions (10_memory_ops.md R271, R280 to R282). -/

namespace Sys2Proof.Machine

/-- An atomic: its size, whether it has a data register in, returns the old value, has a second data register, the
format of an inline constant, and the new value from the old one, the data and the second data. -/
structure Atom where
  size   : Nat
  dataIn : Bool
  ret    : Bool
  second : Bool
  fmt    : Option Fmt
  new    : Nat → Nat → Nat → Res

/-- The integer forms' new values for `n` bits (R280). -/
def atomMin (us max : Bool) (n m d : Nat) : Nat :=
  let lt := if us then decide (m < d) else decide (sext m n < sext d n)
  if lt != max then m else d
def atomInc (m d : Nat) : Nat := if d ≤ m then 0 else m + 1

def intAtom (d ret : Bool) (f : Nat → Nat → Nat → Nat) : Atom :=
  let z := (wd d).bytes
  ⟨z, true, ret, false, none, fun m x _ => (f (8 * z) m x % 2 ^ (8 * z), .none)⟩
def addAtom (d ret : Bool) : Atom := intAtom d ret fun n m x => (m + x) % 2 ^ n
def minAtom (us d ret : Bool) : Atom := intAtom d ret (atomMin us false)
def maxAtom (us d ret : Bool) : Atom := intAtom d ret (atomMin us true)
def andAtom (d ret : Bool) : Atom := intAtom d ret fun _ m x => Nat.land m x
def orAtom (d ret : Bool) : Atom := intAtom d ret fun _ m x => Nat.lor m x
def xorAtom (d ret : Bool) : Atom := intAtom d ret fun _ m x => Nat.xor m x
def incAtom (d ret : Bool) : Atom := intAtom d ret fun _ m x => atomInc m x
def faddAtom (f : Fmt) (ret : Bool) : Atom :=
  ⟨(wd (f == .d)).bytes, true, ret, false, some f, fun m x _ => onFmt f (FpOp.eval .fadd f.nf) m x 0⟩
def exchAtom (d : Bool) : Atom := ⟨(wd d).bytes, false, true, true, none, fun _ _ y => (y, .none)⟩
def casAtom (z : Nat) : Atom := ⟨z, true, true, true, none, fun m c y => (if m = c then y else m, .none)⟩

/-- The atomic or RED of an instruction. -/
def atomOf : Instr → Option (Atom × MWord)
  | .aadd d o => some (addAtom d true, o)
  | .amin us d o => some (minAtom us d true, o)
  | .amax us d o => some (maxAtom us d true, o)
  | .aand d o => some (andAtom d true, o)
  | .aor d o => some (orAtom d true, o)
  | .axor d o => some (xorAtom d true, o)
  | .axch d o => some (exchAtom d, o)
  | .acas d o => some (casAtom (wd d).bytes, o)
  | .acasQ o => some (casAtom 16, o)
  | .ainc d o => some (incAtom d true, o)
  | .afadd f o => some (faddAtom f true, o)
  | .redAdd d o => some (addAtom d false, o)
  | .redMin us d o => some (minAtom us d false, o)
  | .redMax us d o => some (maxAtom us d false, o)
  | .redAnd d o => some (andAtom d false, o)
  | .redOr d o => some (orAtom d false, o)
  | .redXor d o => some (xorAtom d false, o)
  | .redInc d o => some (incAtom d false, o)
  | .redFadd f o => some (faddAtom f false, o)
  | _ => none

/-- One lane's step (R280, R281): the old value goes to the destination. -/
def atomLane (c : LocalCtx) (a : Atom) (o : MWord) (t : Tgt) (l d y : Nat) : Op Ev := do
  let m ← rmwTgt c o.scope a.size o.evict.toNat (acquires o.ord) (fun m => (a.new m d y).1) t
  if a.ret then writeData c.gk a.size false l m o.data
  return (a.new m d y).2

/-- The performing of an atomic or RED: lanes in ascending order; a lane whose location holds an uncorrectable word does
nothing, and the trap is taken on an instruction performed in part (R271, R281). -/
def doAtom (a : Atom) (o : MWord) (v : MVals) : Op Unit := do
  if releases o.ord then releaseCore (coreOfGrp (← get).cur.gk) o.scope
  let ts ← checkLanes ⟨spacesData, true, true, a.size, false, some o.scope⟩ v.pairs
  let c ← localCtx (← get).cur.gk
  let s ← get
  let work := (ts.zip v.lanes).zipIdx
  let es ← (work.filter fun x => !tgtBad c s a.size x.1.1).mapM fun x =>
    atomLane c a o x.1.1 x.1.2 (v.data.getD x.2 0) (v.data2.getD x.2 0)
  countEvents (es.foldl Ev.or .none)
  match ts.find? (tgtBad c s a.size) with
  | some t => throw (.trap { cause := 0x08, addr := BitVec.ofNat 64 (tgtAddr t), perf := true, part := true })
  | none => pure ()

/-- An atomic or RED word (R216, R282). -/
def atomWord (i : Instr) (a : Atom) (o : MWord) : Op Unit := do
  let (m, v) ← memStart i ⟨a.size, a.dataIn, a.ret, a.second, a.fmt, false⟩ o
  performOr i o m v.list (doAtom a o v)

/-- AADD (R280). -/
def execAadd (d : Bool) (o : MWord) : State → Host.Outcome State Fault Refusal :=
  runOp (atomWord (.aadd d o) (addAtom d true) o)

/-- AMIN (R280). -/
def execAmin (us d : Bool) (o : MWord) : State → Host.Outcome State Fault Refusal :=
  runOp (atomWord (.amin us d o) (minAtom us d true) o)

/-- AMAX (R280). -/
def execAmax (us d : Bool) (o : MWord) : State → Host.Outcome State Fault Refusal :=
  runOp (atomWord (.amax us d o) (maxAtom us d true) o)

/-- AAND (R280). -/
def execAand (d : Bool) (o : MWord) : State → Host.Outcome State Fault Refusal :=
  runOp (atomWord (.aand d o) (andAtom d true) o)

/-- AOR (R280). -/
def execAor (d : Bool) (o : MWord) : State → Host.Outcome State Fault Refusal :=
  runOp (atomWord (.aor d o) (orAtom d true) o)

/-- AXOR (R280). -/
def execAxor (d : Bool) (o : MWord) : State → Host.Outcome State Fault Refusal :=
  runOp (atomWord (.axor d o) (xorAtom d true) o)

/-- AXCH (R280). -/
def execAxch (d : Bool) (o : MWord) : State → Host.Outcome State Fault Refusal :=
  runOp (atomWord (.axch d o) (exchAtom d) o)

/-- ACAS (R280). -/
def execAcas (d : Bool) (o : MWord) : State → Host.Outcome State Fault Refusal :=
  runOp (atomWord (.acas d o) (casAtom (wd d).bytes) o)

/-- ACAS.Q (R280). -/
def execAcasQ (o : MWord) : State → Host.Outcome State Fault Refusal :=
  runOp (atomWord (.acasQ o) (casAtom 16) o)

/-- AINC (R280). -/
def execAinc (d : Bool) (o : MWord) : State → Host.Outcome State Fault Refusal :=
  runOp (atomWord (.ainc d o) (incAtom d true) o)

/-- AFADD (R280). -/
def execAfadd (f : Fmt) (o : MWord) : State → Host.Outcome State Fault Refusal :=
  runOp (atomWord (.afadd f o) (faddAtom f true) o)

/-- RED.ADD (R280). -/
def execRedAdd (d : Bool) (o : MWord) : State → Host.Outcome State Fault Refusal :=
  runOp (atomWord (.redAdd d o) (addAtom d false) o)

/-- RED.MIN (R280). -/
def execRedMin (us d : Bool) (o : MWord) : State → Host.Outcome State Fault Refusal :=
  runOp (atomWord (.redMin us d o) (minAtom us d false) o)

/-- RED.MAX (R280). -/
def execRedMax (us d : Bool) (o : MWord) : State → Host.Outcome State Fault Refusal :=
  runOp (atomWord (.redMax us d o) (maxAtom us d false) o)

/-- RED.AND (R280). -/
def execRedAnd (d : Bool) (o : MWord) : State → Host.Outcome State Fault Refusal :=
  runOp (atomWord (.redAnd d o) (andAtom d false) o)

/-- RED.OR (R280). -/
def execRedOr (d : Bool) (o : MWord) : State → Host.Outcome State Fault Refusal :=
  runOp (atomWord (.redOr d o) (orAtom d false) o)

/-- RED.XOR (R280). -/
def execRedXor (d : Bool) (o : MWord) : State → Host.Outcome State Fault Refusal :=
  runOp (atomWord (.redXor d o) (xorAtom d false) o)

/-- RED.INC (R280). -/
def execRedInc (d : Bool) (o : MWord) : State → Host.Outcome State Fault Refusal :=
  runOp (atomWord (.redInc d o) (incAtom d false) o)

/-- RED.FADD (R280). -/
def execRedFadd (f : Fmt) (o : MWord) : State → Host.Outcome State Fault Refusal :=
  runOp (atomWord (.redFadd f o) (faddAtom f false) o)

end Sys2Proof.Machine
end

