-- ==== Sys2Proof/Machine/Tiles.lean ====
section
/-! DEFINITION. Tiles: handles, directory entries, tenure, splits and joins (09_tiles_leases.md R232 to R252; 10_memory_ops.md R283 to R288). -/

namespace Sys2Proof.Machine

/-- The statuses of R243. -/
def tsOk : Nat := 0
def tsFull : Nat := 1
def tsBadDesc : Nat := 2
def tsArena : Nat := 3
def tsClass : Nat := 4
def tsSelf : Nat := 5
def tsNoRight : Nat := 6
def tsNotHolder : Nat := 7
def tsBusy : Nat := 8
def tsTooBig : Nat := 9
def tsBadSplit : Nat := 10

/-- Rights bits of a handle's bits 15:12 (R236): RD, WR, SP, CL. -/
def rightRd : Nat := 8
def rightWr : Nat := 4
def rightSp : Nat := 2
def rightCl : Nat := 1

/-- Handles of a slice's entries start at generation 1 (log 6). -/
def entryGen (h : Home) (e : Nat) : Nat := tget 1 h.gens e

/-- A handle (R236). -/
def tileHandle (s : State) (slice e gen rights : Nat) : Nat :=
  slice * 2 ^ 56 + e * 2 ^ 44 + gen * 2 ^ 32 + s.dev.pkg * 2 ^ 18 + rights * 2 ^ 12

/-- The agent that a group is (R238). -/
def agentOf (gk : Nat) : Op Agent := do need (agentAt (← get) gk)

/-- A valid handle: slice, entry number, entry, the rights it carries; a stale one is none (R237). -/
def openHandle (s : State) (t x : Nat) : Option (Nat × Nat × Entry × Nat) := do
  let slice := bits x 63 56
  let e := bits x 55 44
  let h := s.home slice
  let y ← tlook e h.entries
  let r := bits x 15 12
  if bits x 17 16 != 0 || bits x 11 0 != 0 || bits x 31 18 != s.dev.pkg || bits x 43 32 != entryGen h e ||
    y.tenant != t || Nat.land r y.rights != r then none
  else some (slice, e, y, r)

/-- The handle of a tile instruction; a stale one raises Stale Handle (R237). -/
def needHandle (x : Nat) : Op (Nat × Nat × Entry × Nat) := do
  match openHandle (← get) (← selfTenant) x with
  | some r => return r
  | none => raise 0x07 (BitVec.ofNat 64 x) 1

/-! Directories -/

def modEntry (slice e : Nat) (f : Entry → Entry) : Op Unit :=
  modHome slice fun h => match tlook e h.entries with
    | some x => { h with entries := tset e (f x) h.entries }
    | none => h

def freeCount (h : Home) : Nat := Config.tilesPerSlice - h.fresh + h.freed.length

/-- The head of the free list (R250): entries never taken stand before those freed. -/
def takeEntry (slice : Nat) (x : Entry) : Op (Option Nat) := do
  let h := (← get).home slice
  if h.fresh < Config.tilesPerSlice then
    modHome slice fun h => { h with fresh := h.fresh + 1, entries := tset h.fresh x h.entries }
    return some h.fresh
  else match h.freed with
    | e :: rest =>
      modHome slice fun h => { h with freed := rest, entries := tset e x h.entries }
      return some e
    | [] => return none

/-- The holding of a tenure: reading or writing. -/
def Entry.writes (x : Entry) : Bool := x.state == .write || x.state == .splitW
def Entry.isSplit (x : Entry) : Bool := x.state == .splitR || x.state == .splitW

/-- Whether entry `e` descends from entry `p` (R249); sub-tiles are at most three levels down. -/
def descends (h : Home) (p : Nat) : Nat → Nat → Bool
  | 0, _ => false
  | fuel + 1, e => match tlook e h.entries with
    | some x => match x.parent with
      | some (q, _) => q = p || descends h p fuel q
      | none => false
    | none => false

/-- The descendants of an entry. -/
def descendants (h : Home) (p : Nat) : List (Nat × Entry) := h.entries.filter fun x => descends h p 4 x.1

/-- Whether a request for tenure on entry `e` conflicts with the tenure held on entry `k` (R239). -/
def conflicts (h : Home) (e : Nat) (write : Bool) (k : Nat) (x : Entry) : Bool :=
  match tlook e h.entries with
  | none => false
  | some y =>
    !x.holders.isEmpty && x.tenant = y.tenant && (write || x.writes) && footMeets x.desc y.desc &&
      !(x.isSplit && descends h k 4 e)

/-- Whether two requests conflict, by the same test (R239). -/
def reqConflicts (h : Home) (a b : TReq) : Bool :=
  match tlook a.entry h.entries, tlook b.entry h.entries with
  | some x, some y => (a.write || b.write) && x.tenant = y.tenant && footMeets x.desc y.desc &&
      !(y.isSplit && descends h b.entry 4 a.entry) && !(x.isSplit && descends h a.entry 4 b.entry)
  | _, _ => false

/-- Sectors of the tenure buffer of a slice, and of the partition's spill area (R242). -/
def bufferSectors : Nat := 16384
def spillSectors (s : State) (p : Nat) : Nat := 64 * (s.reg pfn (0x60000 + 0x200 * p + 0xD8)).toNat
/-- Rows of a slice's read-holder table, and those in use (R238). A read request waits for a row (log 33). -/
def readRows : Nat := 16384
def usedRows (h : Home) : Nat :=
  h.entries.foldl (fun n x => if x.2.state = .read || x.2.state = .splitR then n + x.2.holders.length else n) 0
def usedSectors (h : Home) : Nat := h.entries.foldl (fun n x => n + x.2.reserved) 0

/-- Room of a slice for a reservation (R242): what its buffer leaves, then what the partition's slices leave of the spill area. -/
def roomFor (s : State) (slice n : Nat) (p : Nat) : Bool :=
  let more := ((s.part p).own.homes).foldl (fun m k =>
    if k = slice then m else m + (usedSectors (s.home k) - bufferSectors)) 0
  usedSectors (s.home slice) + n ≤ bufferSectors + (spillSectors s p - more)

/-! Releasing -/

/-- A sector treated as written (R245, R255): the jump with the slice's clock. -/
def touchSector (slice sec : Nat) : Op Unit := do
  let s ← get
  let w := jump (s.stamps slice sec) (s.hc slice)
  modify fun s => { s with sects := tset sec ⟨w, w, slice⟩ s.sects }
  raiseHc slice w

/-- The publication of a write tenure (R245): saved copies are discarded and their sectors count as written; the
holder's core loses its copies of them (log 22). -/
def publish (slice e : Nat) : Op Unit := do
  match tlook e ((← get).home slice).entries with
  | none => pure ()
  | some x =>
    x.savedPa.forM fun (_, sec) => touchSector slice sec
    x.holders.forM fun a => match a.who with
      | .group gk => x.savedPa.forM fun (_, sec) => dropCopy (.l1 (coreOfGrp gk)) sec
      | .job _ _ => pure ()
    modEntry slice e fun x => { x with saved := [], savedPa := [] }

/-- The in-extent bytes of a sector in place, with those of a saved copy put back (R246). -/
def restoreBytes (m : List Host.Cell) (d : TileDesc) (va pa : Nat) (old : BitVec 512) : List Host.Cell :=
  (List.range 64).foldl (fun m i =>
    if d.has (64 * va + i) then tput memDefault m (64 * pa + i) (BitVec.ofNat 8 (old.toNat / 2 ^ (8 * i))) else m) m

/-- The end of a write tenure without publication (R246). -/
def unpublish (slice e : Nat) : Op Unit := do
  match tlook e ((← get).home slice).entries with
  | none => pure ()
  | some x =>
    x.saved.forM fun (va, old) => do
      let pa := tget 0 x.savedPa va
      modify fun s => { s with mem := restoreBytes s.mem x.desc va pa old }
      touchSector slice pa
    modEntry slice e fun x => { x with saved := [], savedPa := [] }

/-- The line events of a tenure granted to or released by a group: monitors of its core on lines that the footprint meets (R279). -/
def tenureLines (gk : Nat) (d : TileDesc) : Op Unit :=
  lineEvents fun g w => match w with
    | .line _ false _ _ _ va => coreOfGrp g = coreOfGrp gk && (d.ranges 256).any fun r => r.1 ≤ va / 2 && va / 2 ≤ r.2
    | _ => false

/-- An agent's tenure on an entry ends: published when it wrote, and OPEN when nobody is left. -/
def dropTenure (slice e : Nat) (w : Agent) : Op Unit := do
  match tlook e ((← get).home slice).entries with
  | none => pure ()
  | some x =>
    if x.writes then publish slice e
    let left := x.holders.filter (· != w)
    modEntry slice e fun x => { x with
      holders := left
      state := if left.isEmpty then .opened else x.state
      reserved := if left.isEmpty then 0 else x.reserved }
    match w.who with
    | .group gk => tenureLines gk x.desc
    | .job _ _ => pure ()

/-- A waiting request ends: its status goes to its register, its word completes and its group wakes. -/
def answer (q : TReq) (status : Nat) (cause : Nat) : Op Unit := do
  match tlook q.gk (← get).groups with
  | none => pure ()
  | some g =>
    let g := g.setScalar q.dst (BitVec.ofNat 64 status)
    putGroup q.gk { g with pend := g.pend.filter fun p => p.id != q.pid }
    match g.asleep with
    | some ⟨.tile _ _, _⟩ => wake q.gk cause
    | _ => wakeStalled q.gk cause
    tryEnter q.gk

/-- A waiting request fails with Stale Handle (R250). -/
def failStale (slice : Nat) (q : TReq) (handle : Nat) : Op Unit := do
  modHome slice fun h => { h with waiting := h.waiting.filter fun r => r.pid != q.pid || r.gk != q.gk }
  match (tlook q.gk (← get).groups).bind (·.asleep) with
  | some ⟨.tile _ _, _⟩ => wake q.gk 8
  | _ => wakeStalled q.gk 8
  trapPend q.gk q.pid { cause := 0x07, sub := 1, addr := BitVec.ofNat 64 handle }

/-- The handle that a waiting request's word presented. -/
def reqHandle (s : State) (q : TReq) : Nat :=
  match (tlook q.gk s.groups).bind fun g => g.pend.find? fun p => p.id = q.pid with
  | some p => (p.vals.getD 0 []).headD 0
  | none => 0

/-- The generation after another: 1 to 4,095, then 1 again (R252). -/
def nextEntryGen (gen : Nat) : Nat := if gen = 4095 then 1 else gen + 1

/-- An entry is closed (R250): its generation advances, it goes to the tail of the free list, its requests fail. -/
def closeEntry (slice e : Nat) : Op Unit := do
  let h := (← get).home slice
  if thas h.entries e then
    let gen := entryGen h e
    modHome slice fun h => { h with
      entries := tdel e h.entries
      gens := tset e (nextEntryGen gen) h.gens
      freed := h.freed ++ [e] }
    h.waiting.forM fun q => if q.entry = e then do failStale slice q (reqHandle (← get) q) else pure ()

/-- Every tenure on an entry is released with publication. -/
def releaseAll (slice e : Nat) : Op Unit := do
  match tlook e ((← get).home slice).entries with
  | some x => x.holders.forM fun a => dropTenure slice e a
  | none => pure ()

/-! Granting -/

/-- Whether a waiting request, after those before it, can be granted (R241, R249). -/
def grantable (s : State) (slice : Nat) (before : List TReq) (q : TReq) : Bool :=
  let h := s.home slice
  match tlook q.entry h.entries with
  | none => false
  | some x =>
    let behindJoin := before.any fun r => r.join && descends h r.entry 4 q.entry
    if q.join then
      let ds := (descendants h q.entry).filter fun d => !d.2.isSplit
      ds.all (fun d => d.2.holders.all (· = q.who)) &&
      !before.any (fun r => descends h q.entry 4 r.entry)
    else
      !behindJoin && !h.entries.any (fun k => conflicts h q.entry q.write k.1 k.2) &&
      !before.any (fun r => !r.join && reqConflicts h q r) &&
      (if q.write then roomFor s slice x.desc.sectors (s.partOf x.tenant) else usedRows h < readRows)

/-- The bytes that a join keeps unpublished for a sector: each descendant's own saved bytes, the others in place (R249). -/
def joinedCopy (m : List Host.Cell) (ds : List (Nat × Entry)) (va pa : Nat) : BitVec 512 :=
  BitVec.ofNat 512 ((List.range 64).foldl (fun acc i =>
    let b := match ds.find? (fun d => thas d.2.saved va && d.2.desc.has (64 * va + i)) with
      | some d => (tget 0 d.2.saved va).toNat / 2 ^ (8 * i) % 256
      | none => (rdByte m (64 * pa + i)).toNat
    acc + b * 2 ^ (8 * i)) 0)

/-- A join takes effect (R249). -/
def doJoin (slice e : Nat) (who : Agent) : Op Unit := do
  let s ← get
  let h := s.home slice
  let ds := (descendants h e).filter fun d => d.2.writes && d.2.holds who
  let pas : Tab Nat := ds.foldl (fun t d => d.2.savedPa.foldl (fun t x => tset x.1 x.2 t) t) []
  let saved : Tab (BitVec 512) := pas.map fun x => (x.1, joinedCopy s.mem ds x.1 x.2)
  (descendants h e).forM fun d => closeEntry slice d.1
  modEntry slice e fun x => { x with
    state := if x.state = .splitW then .write else .read
    splitter := none
    reserved := if x.state = .splitW then x.desc.sectors else 0
    saved := saved
    savedPa := pas }

/-- Whether a request of an agent conflicts with a tenure of its own, or asks for a tile that it holds (R240). -/
def selfConflict (h : Home) (who : Agent) (e : Nat) (write : Bool) : Bool :=
  (match tlook e h.entries with
  | some x => x.holds who
  | none => false) || h.entries.any fun k => k.2.holds who && conflicts h e write k.1 k.2

/-- Take a request off the queue of its slice. -/
def unqueue (slice : Nat) (q : TReq) : Op Unit :=
  modHome slice fun h => { h with waiting := h.waiting.filter fun r => r.pid != q.pid || r.gk != q.gk }

/-- Waiting requests of an agent that now conflict with its own tenure complete with SELF (R240). -/
def endSelf (slice : Nat) (who : Agent) : Op Unit := do
  ((← get).home slice).waiting.forM fun q => do
    if !q.join && q.who = who && selfConflict ((← get).home slice) who q.entry q.write then
      unqueue slice q
      answer q tsSelf 8

/-- A grant takes effect (R241). -/
def doGrant (slice : Nat) (q : TReq) : Op Unit := do
  unqueue slice q
  acquireCore (coreOfGrp q.gk)
  if q.join then doJoin slice q.entry q.who
  else
    modEntry slice q.entry fun x => { x with
      state := if q.write then .write else if x.state = .splitR then .splitR else .read
      holders := x.holders ++ [q.who]
      reserved := if q.write then x.desc.sectors else 0 }
    match tlook q.entry ((← get).home slice).entries with
    | some x => tenureLines q.gk x.desc
    | none => pure ()
  answer q tsOk 8
  endSelf slice q.who

/-- The first request that can be granted, in the order of arrival. -/
def nextGrant (s : State) (slice : Nat) : List TReq → List TReq → Option TReq
  | _, [] => none
  | before, q :: rest => if grantable s slice before q then some q else nextGrant s slice (before ++ [q]) rest

/-- The places of a slice's queue; further requests wait in their ports, in the order of their arrival (R241). -/
def queuePlaces : Nat := 1024

/-- The grants that a step of a slice makes possible (R241). -/
def grantAll (slice : Nat) : Nat → Op Unit
  | 0 => pure ()
  | fuel + 1 => do
    let s ← get
    match nextGrant s slice [] ((s.home slice).waiting.take queuePlaces) with
    | some q =>
      doGrant slice q
      grantAll slice fuel
    | none => pure ()

def grants (slice : Nat) : Op Unit := do
  grantAll slice (((← get).home slice).waiting.length + 1)
  ((← get).homes.filter fun e => e.1 != slice && !e.2.waiting.isEmpty).forM fun (k, h) => grantAll k (h.waiting.length + 1)

/-! The instructions -/

/-- The scalar destination of a tile instruction, and the value of its base register. -/
def regNum : Reg → Nat
  | .sreg m => m.toNat
  | _ => 0
def tileReply (o : MWord) (x : Nat) : Op Unit := modSelf fun g => g.setScalar (regNum o.data) (BitVec.ofNat 64 x)

/-- The common start: checks, active lanes, and the release fence that the ordering field asks for (R284, R285). -/
def tileStart (i : Instr) (o : MWord) : Op Nat := do
  legal i
  let m ← activeMask o.pred.toNat
  if m = 0 then finish
  if releases o.ord then
    awaitAccesses
    releaseCore (coreOfGrp (← get).cur.gk) .quad
  let s ← get
  return baseVal s s.cur.gk (← self) 0 o.base

/-- Whether a descriptor is legal (R234, R235). -/
def descBad (d : List Nat) : Bool :=
  let b i n := (d.getD (i / 8) 0) / 2 ^ (8 * (i % 8)) % 2 ^ (8 * n)
  let z := 2 ^ b 8 1
  let rank := b 9 1
  let e (k : Nat) := b (0x10 + 4 * k) 4
  let st (k : Nat) := b (0x20 + 8 * (k - 1)) 8
  d.getD 0 0 / 2 ^ 56 != 0 || 3 < b 8 1 || rank < 1 || 4 < rank || b 0x0A 6 != 0 || d.getD 7 0 != 0 ||
  (List.range 4).any (fun k => e k < 1 || 2 ^ 24 < e k || (rank ≤ k && e k != 1)) ||
  [1, 2, 3].any (fun k =>
    if rank ≤ k then st k != 0
    else st k % z != 0 || (if k = 1 then st 1 < e 0 * z else st k < e (k - 1) * st (k - 1))) ||
  65536 < e 1 * e 2 * e 3

def descOf (d : List Nat) : TileDesc :=
  let b i n := (d.getD (i / 8) 0) / 2 ^ (8 * (i % 8)) % 2 ^ (8 * n)
  { base := d.getD 0 0
    z := 2 ^ b 8 1
    rank := b 9 1
    ext := (List.range 4).map fun k => b (0x10 + 4 * k) 4
    str := (List.range 3).map fun k => b (0x20 + 8 * k) 8 }

/-- The pages of a tile, each with the lowest tile byte on it. -/
def tilePages (d : TileDesc) : List (Nat × Nat) :=
  (d.rows.flatMap fun a =>
    (List.range ((a + d.rowBytes - 1) / 4096 + 1 - a / 4096)).map fun i =>
      let p := a / 4096 + i
      (p, max a (4096 * p))).foldl (fun (acc : List (Nat × Nat)) x =>
        if (acc.getLast?.map (·.1)) = some x.1 then acc else acc ++ [x]) []

/-- The lowest address of a word list, and 64 bytes as eight words. -/
def wordsOf (x n : Nat) : List Nat := (List.range n).map fun i => x / 2 ^ (64 * i) % 2 ^ 64

/-- Translate every page of a tile as for a read (R283, check 2): a fault sleeps; a page without read permission or
with a FAIL answer raises Access Violation. The class of each page, and whether it is device memory. -/
def mapTile (d : TileDesc) : Op (List (Nat × Bool)) := do
  let gk := (← get).cur.gk
  let t ← selfTenant
  let ms : List (Nat × Mapped) ← (tilePages d).mapM fun (_, a) => do
    return (a, ← mapLane gk t a ⟨[0], true, false, 1, false, none⟩ 1)
  match ms.findSome? (fun m => match m.2 with
    | .sleep w => some w
    | _ => none) with
  | some w => waitFor w
  | none => pure ()
  match ms.find? (fun m => match m.2 with
    | .denied => true
    | _ => false) with
  | some (a, _) => raise 0x04 (BitVec.ofNat 64 a)
  | none => pure ()
  return ms.filterMap fun m => match m.2 with
    | .ok r => some (r.e.cls, !r.host)
    | _ => none

/-- TOPEN (R283). -/
def execTopen (o : MWord) : State → Host.Outcome State Fault Refusal :=
  runOp do
    let a ← tileStart (.topen o) o
    let ts ← checkLanes ⟨spacesSig, true, false, 64, false, none⟩ [(0, a)]
    let c ← localCtx (← get).cur.gk
    match ts.find? (tgtBad c (← get) 64) with
    | some _ => raise 0x08 (BitVec.ofNat 64 a)
    | none => pure ()
    let xs ← loadAll c 64 0 false ts
    let d := wordsOf (xs.headD 0) 8
    if descBad d then tileReply o tsBadDesc
    else
      let t ← selfTenant
      let desc := descOf d
      let last := (desc.rows.getLast?.getD desc.base) + desc.rowBytes - 1
      let ps ← mapTile desc
      let s ← get
      if desc.base / 2 ^ 26 != last / 2 ^ 26 then tileReply o tsArena
      else if ps.any (fun p => p.1 != 2 || !p.2) then tileReply o tsClass
      else
        let me ← agentOf s.cur.gk
        let slice := arenaSlice s (s.partOf t) t desc.base
        match ← takeEntry slice ⟨desc, t, me.grid, me.seq, 15, .opened, [], none, none, 0, 0, [], []⟩ with
        | none => tileReply o tsFull
        | some e =>
          let s ← get
          tileReply o (tileHandle s slice e (entryGen (s.home slice) e) 15)

/-- A tile word completes: its status is written, and an acquire-release word acts as an acquire fence (R285, R286). -/
def tileDone (o : MWord) (status : Nat) : Op Unit := do
  if acquires o.ord then acquireCore (coreOfGrp (← get).cur.gk)
  tileReply o status

/-- Whether an outstanding word of the group is still to write bytes of a tile (R245). -/
def Group.writesTile (g : Group) (d : TileDesc) : Bool :=
  g.pend.any fun p => p.spans.any fun x => x.wr && spaceOf x.addr = 0 && (tileByte d x.addr x.len).isSome

/-- A request that joins the slice's queue: the word stays outstanding until it is granted (R241, R249). -/
def enqueue (i : Instr) (o : MWord) (slice e x : Nat) (write join : Bool) : Op Unit := do
  let s ← get
  let me ← agentOf s.cur.gk
  if acquires o.ord then fenceEarlier s.cur.gk
  let g ← self
  putPend { newPend s g i s.cur.act o.la.toNat [[x]] with
    fence := if acquires o.ord then .acquire else .no }
  modHome slice fun h => { h with waiting := h.waiting ++ [⟨e, g.nextId, me, write, join, s.cur.gk, regNum o.data⟩] }
  grants slice
  if ((← get).home slice).waiting.any (fun q => q.gk = s.cur.gk && q.pid = g.nextId) then
    modHome slice fun h => { h with tenwait := sat48 (h.tenwait + 1) }

/-- TACQ.R and TACQ.W (R240 to R242, R284). -/
def tacq (i : Instr) (write : Bool) (o : MWord) : Op Unit := do
  let x ← tileStart i o
  let (slice, e, y, r) ← needHandle x
  let s ← get
  let h := s.home slice
  let me ← agentOf s.cur.gk
  if Nat.land r (if write then rightWr else rightRd) = 0 then tileReply o tsNoRight
  else if selfConflict h me e write then tileReply o tsSelf
  else if write && bufferSectors + spillSectors s (s.partOf y.tenant) < y.desc.sectors then tileReply o tsTooBig
  else enqueue i o slice e x write false

/-- TACQ.R (R284). -/
def execTacqR (o : MWord) : State → Host.Outcome State Fault Refusal := runOp (tacq (.tacqR o) false o)
/-- TACQ.W (R284). -/
def execTacqW (o : MWord) : State → Host.Outcome State Fault Refusal := runOp (tacq (.tacqW o) true o)

/-- TREL (R285): it takes effect after the group's earlier writes to the tile (R245). -/
def execTrel (o : MWord) : State → Host.Outcome State Fault Refusal :=
  runOp do
    let x ← tileStart (.trel o) o
    let (slice, e, y, r) ← needHandle x
    if (← self).writesTile y.desc then loseTurn
    let me ← agentOf (← get).cur.gk
    if !y.holds me || y.isSplit then tileReply o tsNotHolder
    else if Nat.land r (if y.writes then rightWr else rightRd) = 0 then tileReply o tsNoRight
    else
      dropTenure slice e me
      tileDone o tsOk
      grants slice

/-- A part of a split (R247). -/
def partDesc (d : TileDesc) (dim n i : Nat) : TileDesc :=
  let e := d.ext.getD dim 1 / n
  { d with
    ext := d.ext.set dim e
    base := d.base + i * e * (if dim = 0 then d.z else d.str.getD (dim - 1) 0) }

/-- Take the parts' entries one after another; each part's reservation is carved from what its parent has left. -/
def takeParts (slice : Nat) (mk : Nat → Nat → Entry) : List Nat → Nat → Op (List Nat)
  | [], _ => pure []
  | i :: is, left => do
    let x := mk i left
    match ← takeEntry slice x with
    | some e => do return e :: (← takeParts slice mk is (left - x.reserved))
    | none => return []

/-- TSPLIT (R247, R286). -/
def execTsplit (o : MWord) : State → Host.Outcome State Fault Refusal :=
  runOp do
    let x ← tileStart (.tsplit o) o
    let s ← get
    let gk := s.cur.gk
    let vec := baseVal s gk (← self) 0 o.index
    let dim := bits o.off.toNat 1 0
    let n := bits o.off.toNat 7 4 + 1
    let ts : List Tgt ← tryCatch (checkLanes ⟨spacesSig, false, true, 8, false, none⟩
        ((List.range n).map fun i => (0, vec + 8 * i))) fun e => match e with
      | .trap t => throw (.trap (if t.cause = 0x06 then t else { t with addr := BitVec.ofNat 64 vec }))
      | e => throw e
    let (slice, e, y, r) ← needHandle x
    if (← self).writesTile y.desc then loseTurn
    let me ← agentOf gk
    let s ← get
    if Nat.land r rightSp = 0 then tileReply o tsNoRight
    else if !y.holds me || y.isSplit then tileReply o tsNotHolder
    else if n < 2 || y.desc.rank ≤ dim || y.desc.ext.getD dim 1 % n != 0 || 3 ≤ y.level then tileReply o tsBadSplit
    else if freeCount (s.home slice) < n then tileReply o tsFull
    else
      if y.writes then publish slice e
      let mk (i left : Nat) : Entry :=
        let d := partDesc y.desc dim n i
        { desc := d, tenant := y.tenant, grid := y.grid, seq := y.seq
          rights := Nat.land r 14
          state := if y.writes then .write else .read
          holders := [me]
          parent := some (e, i)
          level := y.level + 1
          reserved := if y.writes then min d.sectors left else 0 }
      let parts ← takeParts slice mk (List.range n) y.reserved
      modEntry slice e fun x => { x with
        state := if y.writes then .splitW else .splitR
        splitter := some me
        reserved := 0 }
      let s ← get
      let c ← localCtx gk
      (ts.zip parts).forM fun (t, k) =>
        storeTgt c 8 (tileHandle s slice k (entryGen (s.home slice) k) (Nat.land r 14)) 0 t
      tileDone o tsOk
      grants slice

/-- TJOIN (R249, R287). -/
def execTjoin (o : MWord) : State → Host.Outcome State Fault Refusal :=
  runOp do
    let x ← tileStart (.tjoin o) o
    let (slice, e, y, r) ← needHandle x
    let me ← agentOf (← get).cur.gk
    if Nat.land r rightSp = 0 then tileReply o tsNoRight
    else if !y.isSplit || y.splitter != some me then tileReply o tsNotHolder
    else enqueue (.tjoin o) o slice e x y.writes true

/-- TCLOSE (R250, R287). -/
def execTclose (o : MWord) : State → Host.Outcome State Fault Refusal :=
  runOp do
    let x ← tileStart (.tclose o) o
    let (slice, e, y, r) ← needHandle x
    let me ← agentOf (← get).cur.gk
    if Nat.land r rightCl = 0 then tileReply o tsNoRight
    else if y.isSplit || y.holders.any (· != me) then tileReply o tsBusy
    else
      if y.holds me then
        if (← self).writesTile y.desc then loseTurn
        dropTenure slice e me
      tileDone o tsOk
      closeEntry slice e
      grants slice

/-- The state code of a snapshot (R288). -/
def stateCode : TState → Nat
  | .opened => 0
  | .read => 1
  | .write => 2
  | .splitR => 3
  | .splitW => 4

/-- TQRY (R288). -/
def execTqry (o : MWord) : State → Host.Outcome State Fault Refusal :=
  runOp do
    let x ← tileStart (.tqry o) o
    let (slice, e, y, _) ← needHandle x
    let s ← get
    let me ← agentOf s.cur.gk
    let wait := min 65535 ((s.home slice).waiting.filter fun q => q.entry = e).length
    let readers := if y.state = .read || y.state = .splitR then min 255 y.holders.length else 0
    tileReply o (y.rights * 2 ^ 36 + wait * 2 ^ 20 + readers * 2 ^ 12 +
      b2n (y.holds me) * 2 ^ 8 + y.level * 2 ^ 4 + stateCode y.state)

/-! The end of a grid -/

/-- Whether an agent belongs to a grid. -/
def Agent.of (a : Agent) (qk seq : Nat) : Bool := a.grid = qk && a.seq = seq

/-- Retirement (R251) or abort (R246, then R251) of a grid at one slice. -/
def retireSlice (slice qk seq : Nat) (aborted : Bool) : Op Unit := do
  modHome slice fun h => { h with waiting := h.waiting.filter fun q => !q.who.of qk seq }
  let h := (← get).home slice
  if aborted then
    h.entries.forM fun (e, x) => if x.writes && x.holders.any (fun a => a.of qk seq) then unpublish slice e else pure ()
  h.entries.forM fun (e, x) => do
    if x.isSplit && (x.splitter.any (fun a => a.of qk seq) || x.grid = qk && x.seq = seq) then
      (descendants h e).forM fun d => releaseAll slice d.1
      (descendants h e).forM fun d => closeEntry slice d.1
      modEntry slice e fun x => { x with state := .opened, holders := [], splitter := none, reserved := 0 }
  ((← get).home slice).entries.forM fun (e, x) => do
    if x.grid = qk && x.seq = seq then
      releaseAll slice e
      closeEntry slice e
    else x.holders.forM fun a => if a.of qk seq then dropTenure slice e a else pure ()
  grants slice

/-- The end of a grid's tiles in every slice. -/
def retireTiles (qk seq : Nat) (aborted : Bool) : Op Unit := do
  let s ← get
  s.homes.forM fun (k, h) => if h.entries.isEmpty && h.waiting.isEmpty then pure () else retireSlice k qk seq aborted

end Sys2Proof.Machine
end

