-- ==== Sys2Proof/Machine/Engines.lean ====
section
/-! DEFINITION. Engines and futures: job cards, footprints, the task scheduler, the jobs' units of work, FTST, FWT and FCAN (chapter 11, R290 to R310). -/

namespace Sys2Proof.Machine

/-! Statuses of completion values (R296) -/

def jsDone : Nat := 0
def jsCancelled : Nat := 1
def jsAborted : Nat := 2
def jsFault : Nat := 3
def jsTenure : Nat := 4
def jsStale : Nat := 5
def jsStaleRead : Nat := 6
def jsUncorr : Nat := 7
def jsRange : Nat := 8
def jsBadCard : Nat := 9
def jsExpired : Nat := 10

def completion (status count : Nat) : Nat := status * 2 ^ 56 + count % 2 ^ 56

/-- A future handle (R295). -/
def futureHandle (s : State) (die slot gen t : Nat) : Nat :=
  2 ^ 63 + s.dev.pkg * 2 ^ 49 + die * 2 ^ 46 + slot * 2 ^ 32 + gen * 2 ^ 20 + t * 2 ^ 10

/-- Whether a partition owns anything of a compute die (R299). -/
def ownsDie (s : State) (p die : Nat) : Bool :=
  let o := (s.part p).own
  o.quads.any (fun q => q / Config.quadsPerDie = die) || o.l2.any (fun x => x / Config.slicesPerDie = die) ||
  o.engs.any (fun e => e / 20 = die)

/-- Whether a handle is foreign to a tenant (R299). -/
def foreign (s : State) (t v : Nat) : Bool :=
  bits v 19 10 != t || bits v 9 0 != 0 || bits v 62 49 != s.dev.pkg || !ownsDie s (s.partOf t) (bits v 48 46)

/-- What a handle names: none when expired, else the slot and its completion value if the job has ended. -/
def futureOf (s : State) (v : Nat) : Option (Nat × Nat × Option Nat) :=
  let die := bits v 48 46
  let slot := bits v 45 32
  let x := tget {} (s.die die).slots slot
  if bits v 31 20 != x.gen || x.gen = 0 then none else some (die, slot, x.value)

/-! Engines of a kind -/

/-- The first engine number and the count of a kind of job (R290, R404). -/
def enginesOf (kind : Nat) : Nat × Nat :=
  match kind with
  | 0 => (0, 8)
  | 3 => (16, 4)
  | _ => (8, 8)
def ownedEngines (s : State) (p die kind : Nat) : List Nat :=
  (s.part p).own.engs.filter fun e => e / 20 = die && (enginesOf kind).1 ≤ e % 20 &&
    e % 20 < (enginesOf kind).1 + (enginesOf kind).2

/-! Register blocks (R301 to R305) -/

/-- Element size of a reduction (R305). -/
def collBytes (op : Nat) : Nat :=
  match op with
  | 0 => 1
  | 2 | 4 => 8
  | _ => 4

/-- The register block's fields, by kind. -/
structure Block4 where
  kind : Nat
  mode : Nat
  a    : Nat
  b    : Nat
  c    : Nat
  d    : Nat

def Block4.sh (x : Block4) : Bool := x.kind = 0 && bitOf x.mode 0
def Block4.dh (x : Block4) : Bool := x.kind = 0 && bitOf x.mode 1
def Block4.rows (x : Block4) : Nat := bits x.c 55 32
def Block4.rowB (x : Block4) : Nat := bits x.c 31 0
def Block4.dpitch (x : Block4) : Nat := bits x.d 63 32
def Block4.spitch (x : Block4) : Nat := bits x.d 31 0
def Block4.bound (x : Block4) : Nat := bits x.d 63 24
def Block4.isz (x : Block4) : Nat := if bitOf x.d 23 then 8 else 4
def Block4.esz (x : Block4) : Nat := 2 ^ bits x.d 22 20
def Block4.elems (x : Block4) : Nat := bits x.d 19 0
def Block4.op (x : Block4) : Nat := bits x.d 39 36
def Block4.n (x : Block4) : Nat := bits x.d 35 32 + 1
def Block4.len (x : Block4) : Nat := bits x.d 31 0
/-- The address i of COLL's strided side. -/
def Block4.strided (x : Block4) (base i : Nat) : Nat := wrap 64 ((base : Int) + i * sext x.b 64)

/-- The address ranges of a job: written flag, first address, length in bytes. The table and the index array of
GATH and SCAT stand in s b + 1 and s b + 2. -/
def Block4.ranges (x : Block4) : List (Bool × Nat × Nat) :=
  match x.kind with
  | 0 =>
    (if x.sh then [] else [(false, x.a, if x.dh then 1 else (x.rows - 1) * x.spitch + x.rowB)]) ++
    (if x.dh then [] else [(true, x.b, if x.sh then 1 else (x.rows - 1) * x.dpitch + x.rowB)])
  | 1 => [(true, x.a, x.elems * x.esz), (false, x.b, x.bound * x.esz), (false, x.c, x.elems * x.isz)]
  | 2 => [(false, x.a, x.elems * x.esz), (true, x.b, x.bound * x.esz), (false, x.c, x.elems * x.isz)]
  | _ =>
    if x.op = 0 then (false, x.a, x.len) :: (List.range x.n).map fun i => (true, x.strided x.c i, x.len)
    else (List.range x.n).map (fun i => (false, x.strided x.a i, x.len)) ++ [(true, x.c, x.len)]

/-- Whether a row of `w` bytes at `d` meets one of `n` rows from `s` on, `p` bytes apart. -/
def rowMeets (s n p w d : Nat) : Bool :=
  if d + w ≤ s then false
  else
    let k := min (n - 1) ((d + w - 1 - s) / p)
    decide (d < s + k * p + w)

/-- Whether the exact bytes of CPY's two sides overlap (R302). -/
def cpyOverlap (x : Block4) : Bool :=
  (List.range x.rows).any fun r => rowMeets x.a x.rows x.spitch x.rowB (x.b + r * x.dpitch)

def meets (a b : Nat × Nat) : Bool := decide (a.1 < b.1 + b.2) && decide (b.1 < a.1 + a.2)

/-- A register of the block that breaks R302 to R305; the register whose value the trap reports. -/
def Block4.bad (x : Block4) : Option Nat :=
  match x.kind with
  | 0 =>
    if bits x.c 63 56 != 0 then some x.c
    else if x.sh || x.dh then
      if x.rows != 0 || x.rowB != 0 then some x.c
      else if (x.sh && x.spitch != 0) || (x.dh && x.dpitch != 0) then some x.d
      else none
    else if x.rows = 0 || x.rowB = 0 then some x.c
    else if 2 ≤ x.rows && (x.spitch < x.rowB || x.dpitch < x.rowB) then some x.d
    else if cpyOverlap x then some x.b
    else none
  | 3 =>
    if bits x.d 63 40 != 0 || 8 ≤ x.op || x.len = 0 || x.len % collBytes x.op != 0 then some x.d
    else
      let rs := x.ranges
      let w := rs.filter (·.1)
      let overlaps := w.any fun y => rs.any fun z => !z.1 && meets y.2 z.2
      let twice := w.zipIdx.any fun (y, i) => w.zipIdx.any fun (z, j) => decide (i < j) && meets y.2 z.2
      if overlaps || twice then some x.c else none
  | _ =>
    if x.bound = 0 || x.elems = 0 || (x.kind = 2 && x.mode != 0 && bits x.d 22 20 != 2) then some x.d
    else
      let rs := x.ranges
      if (rs.filter (·.1)).any (fun y => rs.any fun z => !z.1 && meets y.2 z.2) then
        some (if x.kind = 1 then x.a else x.b)
      else none

/-- An address range that no job may name (R301, check 2). -/
def rangeInvalid (h : Hdr) (a n : Nat) : Bool :=
  if spaceOf a = 0 then 2 ^ 56 < offOf a + n
  else if spaceOf a = 4 then h.dstore * 2 ^ 23 < offOf a + n
  else true

/-- Alignment of an address (R301, check 3). -/
def Block4.aligns (x : Block4) : List (Nat × Nat) :=
  match x.kind with
  | 0 => []
  | 3 => x.ranges.map fun r => (r.2.1, collBytes x.op)
  | _ => [(x.a, x.esz), (x.b, x.esz), (x.c, x.isz)]

/-! Footprints (R293, R294) -/

/-- A 256-byte unit of an address, told apart by its space: virtual per tenant, die store per grid. -/
def unitOf (j : Job) (a : Nat) : Nat :=
  (if spaceOf a = 4 then 2 * j.agent.grid + 1 else 2 * j.tenant) * 2 ^ 64 + a / 256

def Job.block (j : Job) : Block4 :=
  ⟨j.kind, j.mode, j.regs.getD 0 0, j.regs.getD 1 0, j.regs.getD 2 0, j.regs.getD 3 0⟩

/-- The handles of a card: written flag and value. -/
def Job.handles (j : Job) : List (Bool × Nat) :=
  (if j.block.sh then [(false, j.block.a)] else []) ++ (if j.block.dh then [(true, j.block.b)] else [])

/-- The entries of a card; none where a handle is stale. An address side of a CPY whose rows come from a tile takes the
tile's rows. -/
def footOf (s : State) (j : Job) : List (Bool × Nat × Nat) :=
  let x := j.block
  let tiles := j.handles.filterMap fun h => (openHandle s j.tenant h.2).map fun y => (h.1, y.2.2.1.desc)
  let rows := (tiles.head?.map fun d => (d.2.rows.length, d.2.rowBytes)).getD (1, 1)
  let span (p : Nat) := (rows.1 - 1) * p + rows.2
  let ranges := if x.sh || x.dh then
      (if x.sh then [] else [(false, x.a, span x.spitch)]) ++ (if x.dh then [] else [(true, x.b, span x.dpitch)])
    else x.ranges
  ranges.map (fun r => (r.1, unitOf j r.2.1, unitOf j (r.2.1 + r.2.2 - 1))) ++
  tiles.flatMap fun d => (d.2.ranges 256).map fun u => (d.1, 2 * j.tenant * 2 ^ 64 + u.1, 2 * j.tenant * 2 ^ 64 + u.2)

/-- Whether two cards have an edge (R294). -/
def feetMeet (a b : List (Bool × Nat × Nat)) : Bool :=
  a.any fun x => b.any fun y => (x.1 || y.1) && x.2.1 ≤ y.2.2 && y.2.1 ≤ x.2.2

/-! Slots -/

/-- The head of the free list of slots (R298). -/
def takeSlot (die : Nat) (grid : Nat × Nat) : Op (Option (Nat × Nat)) := do
  let d := (← get).die die
  let pick : Option Nat := if d.fresh < 16384 then some d.fresh else d.freed.head?
  match pick with
  | none => return none
  | some slot =>
    let g := (tget {} d.slots slot).gen
    let gen := if g = 4095 then 1 else g + 1
    modDie die fun d => { d with
      fresh := if d.fresh < 16384 then d.fresh + 1 else d.fresh
      freed := if d.fresh < 16384 then d.freed else d.freed.tail
      slots := tset slot ⟨gen, none, false, some grid⟩ d.slots }
    return some (slot, gen)

def modJob (die slot : Nat) (f : Job → Job) : Op Unit :=
  modDie die fun d => match tlook slot d.jobs with
    | some j => { d with jobs := tset slot (f j) d.jobs }
    | none => d

/-- The end of a job (R296 to R298, R305, R307, R309): its completion value goes to its slot, to the issuing register if
it is still held, and to every waiting FWT, with whose cores the completion synchronises (08_ordering_model.md R229); the slot goes to the
tail of the free list. -/
def endJob (die slot status : Nat) : Op Unit := do
  match tlook slot ((← get).die die).jobs with
  | none => pure ()
  | some j =>
    let v := completion status j.count
    modDie die fun d => { d with
      jobs := tdel slot d.jobs
      slots := tset slot { tget {} d.slots slot with value := some v, free := true } d.slots
      freed := d.freed ++ [slot] }
    match tlook j.gk (← get).groups with
    | some g =>
      if g.holds.contains (j.dst, die, slot) then
        let g := g.setScalar j.dst (BitVec.ofNat 64 v)
        putGroup j.gk { g with holds := g.holds.filter (· != (j.dst, die, slot)), futures := g.futures - 1 }
        acquireCore j.core
    | none => pure ()
    if j.ev = .none then pure () else modCore j.core fun k => { k with events := k.events.count j.ev }
    let s ← get
    s.groups.forM fun (gk, g) => match g.asleep with
      | some ⟨.future d x dst, _⟩ =>
        if d = die && x = slot then do
          match dst with
          | some r =>
            modGroup gk fun g => g.setScalar r (BitVec.ofNat 64 v)
            acquireCore (coreOfGrp gk)
          | none => pure ()
          wake gk 4
        else pure ()
      | _ => pure ()

/-- The end of a grid's jobs (R310) and of its slots (R298). -/
def abortJobs (qk seq : Nat) : Op Unit := do
  let s ← get
  s.dies.forM fun (d, x) => x.jobs.forM fun (k, j) =>
    if j.agent.of qk seq then endJob d k jsAborted else pure ()

def nextGen (g : Nat) : Nat := if g = 4095 then 1 else g + 1
def freeSlots (qk seq : Nat) : Op Unit :=
  modify fun s => { s with dies := s.dies.map fun (d, x) => (d, { x with
    slots := x.slots.map fun (k, y) =>
      if y.grid = some (qk, seq) then (k, { y with gen := nextGen y.gen, value := none, grid := none }) else (k, y) }) }

/-! Issue -/

/-- The scheduler of a die holds 1,024 cards, each from its arrival to the end of its job (R291). -/
def cardsFull (s : State) (die : Nat) : Bool := 1024 ≤ ((s.die die).jobs.filter fun k => k.2.arrived.isSome).length

/-- The feature group of a COLL whose OP, in the register block, is FADDD (03_opcode_map.md R73, R84). -/
def collFeature (b : Nat) : Op Unit := do
  if b ≤ 60 && bits ((← self).scalar (b + 3)).toNat 39 36 = 4 then needFeature 1

/-- CPY, GATH, SCAT and COLL (R300, R301). Where the scheduler has no room for the card, or the die no slot, the port stalls (R291). -/
def engineWord (i : Instr) (kind : Nat) (o : MWord) : Op Unit := do
  let m ← activeMask o.pred.toNat
  if kind = 3 && m != 0 then collFeature (regNum o.base)
  legal i
  if m = 0 then finish
  let s ← get
  let gk := s.cur.gk
  let g ← self
  let h ← selfHdr
  let t ← selfTenant
  let b := regNum o.base
  let regs := (List.range 4).map fun i => (g.scalar (b + i)).toNat
  let x : Block4 := ⟨kind, o.off.toNat, regs.getD 0 0, regs.getD 1 0, regs.getD 2 0, regs.getD 3 0⟩
  let die := dieOfCore (coreOfGrp gk)
  if kind = 3 && x.op = 0 && bitOf x.mode 0 then illegal 3
  match x.bad with
  | some v => raise 0x0B (BitVec.ofNat 64 v)
  | none => pure ()
  if (ownedEngines s (s.partOf t) die kind).isEmpty then raise 0x0B 0
  match x.ranges.find? (fun r => rangeInvalid h r.2.1 r.2.2) with
  | some r => raise 0x02 (BitVec.ofNat 64 r.2.1)
  | none => pure ()
  match x.aligns.find? (fun r => r.1 % r.2 != 0) with
  | some r => raise 0x03 (BitVec.ofNat 64 r.1)
  | none => pure ()
  if 64 ≤ g.futures then
    unissue
    finish
  if cardsFull s die then portStall
  let me ← agentOf gk
  match ← takeSlot die (me.grid, me.seq) with
  | none => portStall
  | some (slot, gen) =>
    let dst := regNum o.data
    let job : Job :=
      { kind := kind, mode := o.off.toNat, regs := regs, evict := o.evict.toNat, gk := gk, core := coreOfGrp gk
        dst := dst, agent := me, tenant := t, gds := g.gens.ds, tds := g.gens.tds, num := (s.die die).issues
        before := (g.pend.filter fun p => !p.spans.isEmpty).map (·.id) }
    modDie die fun d => { d with jobs := tset slot job d.jobs, issues := d.issues + 1 }
    modSelf fun g =>
      let g := g.setScalar dst (BitVec.ofNat 64 (futureHandle s die slot gen t))
      { g with holds := (dst, die, slot) :: g.holds, futures := g.futures + 1 }

/-- CPY (R302). -/
def execCpy (o : MWord) : State → Host.Outcome State Fault Refusal := runOp (engineWord (.cpy o) 0 o)
/-- GATH (R303). -/
def execGath (o : MWord) : State → Host.Outcome State Fault Refusal := runOp (engineWord (.gath o) 1 o)
/-- SCAT (R303, R304). -/
def execScat (o : MWord) : State → Host.Outcome State Fault Refusal := runOp (engineWord (.scat o) 2 o)
/-- COLL (R305). -/
def execColl (o : MWord) : State → Host.Outcome State Fault Refusal := runOp (engineWord (.coll o) 3 o)

/-! Futures -/

/-- The common part of FTST, FWT and FCAN (R307): a value without bit 63 is copied; a foreign handle raises Stale Handle;
an expired one gives EXPIRED; otherwise `act` is given the slot and its completion value. -/
def futureWord (i : Instr) (o : MWord) (act : Nat → Nat → Nat → Option Nat → Op Unit) : Op Unit := do
  legal i
  let m ← activeMask o.pred.toNat
  if m = 0 then finish
  let s ← get
  let g ← self
  let v := (g.scalar (regNum o.base)).toNat
  if v < 2 ^ 63 then tileReply o v
  else if foreign s (← selfTenant) v then raise 0x07 (BitVec.ofNat 64 v) 2
  else match futureOf s v with
    | none => tileReply o (completion jsExpired 0)
    | some (die, slot, x) => act v die slot x

/-- FTST (R307). -/
def execFtst (o : MWord) : State → Host.Outcome State Fault Refusal :=
  runOp (futureWord (.ftst o) o fun v _ _ x => do
    if x.isSome then acquireCore (coreOfGrp (← get).cur.gk)
    tileReply o (x.getD v))

/-- FWT (R307): the group sleeps until the job ends. -/
def execFwt (o : MWord) : State → Host.Outcome State Fault Refusal :=
  runOp (futureWord (.fwt o) o fun _ die slot x => match x with
    | some y => do
      acquireCore (coreOfGrp (← get).cur.gk)
      tileReply o y
    | none => sleepOn (.future die slot (some (regNum o.data))))

/-- FCAN (R309): units are whole in this model, so a running job stops where it stands. -/
def execFcan (o : MWord) : State → Host.Outcome State Fault Refusal :=
  runOp (futureWord (.fcan o) o fun _ die slot x => do
    match x with
    | some y => tileReply o y
    | none =>
      match tlook slot ((← get).die die).jobs with
      | none => tileReply o (completion jsExpired 0)
      | some j =>
        let st := j.status.getD jsCancelled
        endJob die slot st
        tileReply o (completion st j.count))

/-! The scheduler -/

/-- The card of a job reaches the scheduler (R291, R293, R294): after those of its group that were issued before. -/
def execJobCardArrival (die slot : Nat) : State → Host.Outcome State Fault Refusal :=
  runOp do
    let s ← get
    let j ← need (tlook slot (s.die die).jobs)
    require (j.arrived.isNone && !cardsFull s die && !(s.die die).jobs.any fun k => k.2.gk = j.gk && k.2.arrived.isNone && decide (k.2.num < j.num))
    let stale := j.handles.any fun h => (openHandle s j.tenant h.2).isNone
    let feet := footOf s j
    let deps := ((s.die die).jobs.filter fun k => k.2.arrived.isSome && feetMeet k.2.feet feet).map fun k => (k.1, k.2.num)
    modJob die slot fun j => { j with arrived := some (s.die die).arrivals, stale := stale, feet := feet, deps := deps }
    modDie die fun d => { d with arrivals := d.arrivals + 1 }

/-- The grid of a job has been aborted: the job stops at its next unit boundary (R310). -/
def jobAborted (s : State) (j : Job) : Bool :=
  match s.gridOf j.agent.grid with
  | some g => g.record.seq != j.agent.seq || g.retiring.any fun r => r.1 == statusAborted
  | none => true

/-- The accesses that its group had outstanding when it issued the job have been performed (08_ordering_model.md R227). -/
def issuedBefore (s : State) (j : Job) : Bool :=
  match tlook j.gk s.groups with
  | some g => !g.pend.any fun p => j.before.contains p.id
  | none => true

/-- Whether the jobs a card depends on have ended (R291), and nothing that happens before its issue is still to be performed. -/
def jobReady (s : State) (die : Nat) (j : Job) : Bool :=
  j.arrived.isSome && j.engine.isNone && j.status.isNone && !jobAborted s j && issuedBefore s j &&
  j.deps.all fun d => match tlook d.1 (s.die die).jobs with
    | some k => k.num != d.2
    | none => true

/-- Whether the tile sides of a CPY break R302 at job start. `s1` and `d1` are the entries with their rights. -/
def cpyBadCard (h : Option Hdr) (j : Job) (src dst : Option (TileDesc × Nat)) : Bool :=
  let x := j.block
  (match src with
    | some (_, r) => Nat.land r rightRd = 0
    | none => false) ||
  (match dst with
    | some (_, r) => Nat.land r rightWr = 0
    | none => false) ||
  (match src, dst with
    | some (a, _), some (b, _) =>
      a.rowBytes != b.rowBytes || a.rows.length != b.rows.length ||
        a.rows.any fun p => b.rows.any fun q => meets (p, a.rowBytes) (q, b.rowBytes)
    | some (a, _), none =>
      let n := a.rows.length
      (h.any fun h => rangeInvalid h x.b ((n - 1) * x.dpitch + a.rowBytes)) ||
        a.rows.any fun p => (List.range n).any fun r => meets (p, a.rowBytes) (x.b + r * x.dpitch, a.rowBytes)
    | none, some (b, _) =>
      let n := b.rows.length
      (h.any fun h => rangeInvalid h x.a ((n - 1) * x.spitch + b.rowBytes)) ||
        b.rows.any fun p => (List.range n).any fun r => meets (p, b.rowBytes) (x.a + r * x.spitch, b.rowBytes)
    | none, none => false)

/-- A ready job starts on an idle engine of its kind that its partition owns, in the order of arrival (R291, R302). -/
def execJobDispatch (die slot engine : Nat) : State → Host.Outcome State Fault Refusal :=
  runOp do
    let s ← get
    let jobs := (s.die die).jobs
    let j ← need (tlook slot jobs)
    let p := s.partOf j.tenant
    require (jobReady s die j && (ownedEngines s p die j.kind).contains (20 * die + engine) &&
      !jobs.any (fun k => k.2.engine = some engine) &&
      !jobs.any fun k => jobReady s die k.2 && (enginesOf k.2.kind).1 = (enginesOf j.kind).1 &&
        s.partOf k.2.tenant = p && decide (k.2.arrived.getD 0 < j.arrived.getD 0))
    let x := j.block
    let hdr := (s.gridOf j.agent.grid).bind (·.hdr)
    let src := if x.sh then (openHandle s j.tenant x.a).map fun y => (y.2.2.1.desc, y.2.2.2) else none
    let dst := if x.dh then (openHandle s j.tenant x.b).map fun y => (y.2.2.1.desc, y.2.2.2) else none
    let stale := j.stale || (x.sh && src.isNone) || (x.dh && dst.isNone)
    modJob die slot fun j => { j with
      engine := some engine
      stile := src.map (·.1)
      dtile := dst.map (·.1)
      status := if stale then some jsStale else if cpyBadCard hdr j src dst then some jsBadCard else none }

/-! The accesses of a job (R306) -/

/-- Why a unit is not performed: the job pauses, or ends with a status. -/
inductive JStop
  | pause (w : Option (Nat × Nat × Nat))
  | ends (status : Nat)
deriving DecidableEq, Repr

/-- The issuing group as an agent. -/
def Job.issuer (j : Job) : Agent := ⟨.group j.gk, j.agent.grid, j.agent.seq⟩

/-- The tiles that the card names and the issuing group holds (R306): their entries are those a job acts as holder of. -/
def ownTiles (s : State) (j : Job) : List (Nat × Nat) :=
  j.handles.filterMap fun h => match openHandle s j.tenant h.2 with
    | some (slice, e, y, _) => if y.holds j.issuer then some (slice, e) else none
    | none => none

/-- A mapped piece of a job's access within one sector: a granule of a die store, or virtual memory. -/
inductive JTgt
  | gran (key byte : Nat)
  | virt (r : VRef)
deriving DecidableEq, Repr

/-- Map a piece for a job. -/
def mapJob (die : Nat) (j : Job) (a : Nat) (write : Bool) : Op (Except JStop JTgt) := do
  if spaceOf a = 4 then
    return .ok (.gran (die * 2 ^ 40 + j.agent.grid * 2 ^ 20 + offOf a / 64) (offOf a % 64))
  else
    let s ← get
    let home : JStop := .pause (some homeFault)
    if j.failed.contains (a / 4096) then return .error (.ends jsFault)
    else if s.dev.syncs.any (fun (t, p, _) => t = j.tenant && inPageOf s t p a) then return .error home
    else match ← xlate die none j.tenant a with
      | .wait => return .error home
      | .bad f =>
        let w ← reportFault j.tenant a f (8 + (if write then 2 else 1)) (agentWord s j.gk + 2 ^ 31)
        return .error (.pause (some w))
      | .ok e =>
        let s ← get
        if !(if write then e.writable else e.readable) then return .error (.ends jsFault)
        else match reach s j.tenant (e.phys a) with
          | .dev pa part => return .ok (.virt ⟨a, e, pa, part, false, j.tenant⟩)
          | .host pa => return .ok (.virt ⟨a, e, pa, s.partOf j.tenant, true, j.tenant⟩)
          | .none => return .error (.ends jsFault)
          | .zeroing => return .error home
          | .absent pa => return .error (.pause (some (← askHost pa a)))

/-- An access cut at 64-byte boundaries: offset and length. -/
def cuts (a n : Nat) : List (Nat × Nat) :=
  ((List.range (n / 64 + 2)).filterMap fun i =>
    let lo := max a ((a / 64 + i) * 64)
    let hi := min (a + n) ((a / 64 + i + 1) * 64)
    if lo < hi then some (lo - a, hi - lo) else none)

/-- The tenures of a page's slice as a job meets them: the issuing group holds only the tiles that the card names. -/
def jobTiles (s : State) (j : Job) (r : VRef) : List (Nat × Entry) :=
  let h := homeOf s r
  (entriesOf s h r.tenant).map fun e =>
    if (ownTiles s j).contains (h, e.1) then e else (e.1, { e.2 with holders := e.2.holders.filter (· != j.issuer) })

/-- Read a piece: published bytes of other tenures, zero or STALEREAD for a stale granule, UNCORR (R306). -/
def jobGet (j : Job) (n : Nat) : JTgt → Op (Except JStop Nat)
  | .gran k b => do
    let s ← get
    let x := tget Granule.clean s.dstore k
    if x.tag != j.gds then return (if j.tds then .error (.ends jsStaleRead) else .ok 0)
    else if s.poison.dstore.any (fun w => 2 * k + b / 32 ≤ w && w ≤ 2 * k + (b + n - 1) / 32) then
      let n := (← freeValue).toNat % 2 ^ 16
      note (.whole ⟨0, n, 1, 1, 0xFFFF, 0, 0⟩)
      return .error (.ends jsUncorr)
    else return .ok (x.data.toNat / 2 ^ (8 * b) % 2 ^ (8 * n))
  | .virt r => do
    let s ← get
    if s.poison.mem.any (fun w => r.pa < 32 * w + 32 && 32 * w < r.pa + n) then
      note (.word r.pa 0)
      return .error (.ends jsUncorr)
    else if r.e.cls != 2 then return .ok (rdBytes s.mem n r.pa)
    else
      let es := (jobTiles s j r).filter fun e => !e.2.saved.isEmpty
      return .ok ((List.range n).foldl (fun acc i =>
        acc + tileView es [j.issuer] (r.va + i) (rdByte s.mem (r.pa + i)).toNat * 2 ^ (8 * i)) 0)

/-- Read bytes of a job's address. -/
def jobRead (die : Nat) (j : Job) (a n : Nat) : Op (Except JStop Nat) :=
  (cuts a n).foldlM (fun (acc : Except JStop Nat) (o, k) => do
    match acc with
    | .error e => return .error e
    | .ok x =>
      match ← mapJob die j (a + o) false with
      | .error e => return .error e
      | .ok t =>
        match ← jobGet j k t with
        | .error e => return .error e
        | .ok y => return .ok (x + y * 2 ^ (8 * o))) (.ok 0)

/-- The pieces of a write, all checked before any is performed: nothing of a unit is written when one fails (R296, R306). -/
def jobTargets (die : Nat) (j : Job) (a n : Nat) : Op (Except JStop (List (JTgt × Nat × Nat))) :=
  (cuts a n).foldlM (fun (acc : Except JStop (List (JTgt × Nat × Nat))) (o, k) => do
    match acc with
    | .error e => return .error e
    | .ok ts =>
      match ← mapJob die j (a + o) true with
      | .error e => return .error e
      | .ok t =>
        let s ← get
        let meetsTenure : Bool := match t with
          | .virt r => r.e.cls = 2 && ((List.range k).any fun i =>
              (innermost (jobTiles s j r) (r.va + i)).any (·.blocks [j.issuer]))
          | .gran _ _ => false
        let waits : Bool := match t with
          | .virt r => capped s r (s.hc (homeOf s r))
          | .gran _ _ => false
        if meetsTenure then return .error (.ends jsTenure)
        else if waits then return .error (.pause (some homeFault))
        else return .ok (ts ++ [(t, o, k)])) (.ok [])

/-- Perform the write of one piece (R255, R292, R306), with the clock of its home slice (log 22). -/
def jobPut (j : Job) (n x : Nat) : JTgt → Op Unit
  | .gran k b => do
    modify fun s =>
      let y := (tget Granule.clean s.dstore k).write j.gds (bitsAt (8 * b) (8 * n))
        (BitVec.ofNat 512 (x % 2 ^ (8 * n) * 2 ^ (8 * b)))
      { s with dstore := tput Granule.clean s.dstore k y }
    localWritten true k
  | .virt r => do
    staleLines j.core r.pa n
    saveSector r n
    let s ← get
    let _ ← homeWrite r n (x % 2 ^ (8 * n)) (s.hc (homeOf s r))
    touch (.l2 (dieOfCore j.core)) r.sec (evpOf r j.evict)
    lineWritten j.core r.pa n

/-- Write bytes of a job's address. -/
def jobWrite (die : Nat) (j : Job) (a n x : Nat) : Op (Except JStop Unit) := do
  match ← jobTargets die j a n with
  | .error e => return .error e
  | .ok ts =>
    ts.forM fun (t, o, k) => jobPut j k (x / 2 ^ (8 * o)) t
    return .ok ()

/-! Units of work -/

/-- The start of row r of a side. -/
def rowAt (t : Option TileDesc) (a p r : Nat) : Nat :=
  match t with
  | some d => d.rows.getD r 0
  | none => a + r * p

/-- Bytes of a row, and rows, of a started CPY. -/
def cpyShape (j : Job) : Nat × Nat :=
  match j.stile, j.dtile with
  | some d, _ => (d.rowBytes, d.rows.length)
  | none, some d => (d.rowBytes, d.rows.length)
  | none, none => (j.block.rowB, j.block.rows)

/-- Elementwise reduction of COLL (R305). -/
def collOp (op a b : Nat) : Res :=
  match op with
  | 1 => ((a + b) % 2 ^ 32, .none)
  | 2 => ((a + b) % 2 ^ 64, .none)
  | 3 => FpOp.eval .fadd .f32 a b 0
  | 4 => FpOp.eval .fadd .f64 a b 0
  | 5 => FpOp.eval .fmax .f32 a b 0
  | 6 => FpOp.eval .fmin .f32 a b 0
  | _ => onFmt .bf2 (FpOp.eval .fadd .bf16) a b 0

/-- A reduction over the elements of `n` bytes: accumulator first. -/
def collUnit (op es n : Nat) (acc x : Nat) : Res :=
  let rs := (List.range (n / es)).map fun i =>
    collOp op (acc / 2 ^ (8 * es * i) % 2 ^ (8 * es)) (x / 2 ^ (8 * es * i) % 2 ^ (8 * es))
  ((rs.zipIdx.foldl (fun (v : Nat) r => v + r.1.1 * 2 ^ (8 * es * r.2)) 0), evsOf rs)

/-- The total COUNT of a job (R296). -/
def jobTotal (j : Job) : Nat :=
  let x := j.block
  match j.kind with
  | 0 => (cpyShape j).1 * (cpyShape j).2
  | 1 | 2 => x.elems
  | _ => if x.op = 0 then x.len * x.n else x.len

/-- One unit of a CPY: bytes done. -/
def cpyUnit (die : Nat) (j : Job) : Op (Except JStop (Nat × Ev)) := do
  let x := j.block
  let (w, _) := cpyShape j
  let r := j.count / w
  let k := j.count % w
  let d := rowAt j.dtile x.b x.dpitch r + k
  let n := min (w - k) (256 - d % 256)
  match ← jobRead die j (rowAt j.stile x.a x.spitch r + k) n with
  | .error e => return .error e
  | .ok v =>
    match ← jobWrite die j d n v with
    | .error e => return .error e
    | .ok _ => return .ok (n, .none)

/-- One element of GATH or SCAT (R303, R304). -/
def gathUnit (die : Nat) (j : Job) : Op (Except JStop (Nat × Ev)) := do
  let x := j.block
  let z := x.esz
  match ← jobRead die j (x.c + j.count * x.isz) x.isz with
  | .error e => return .error e
  | .ok i =>
    if x.bound ≤ i then return .error (.ends jsRange)
    else
      let here := x.a + j.count * z
      let entry := x.b + i * z
      match ← jobRead die j (if j.kind = 1 then entry else here) z with
      | .error e => return .error e
      | .ok v =>
        if j.kind = 1 || x.mode = 0 then
          match ← jobWrite die j (if j.kind = 1 then here else entry) z v with
          | .error e => return .error e
          | .ok _ => return .ok (1, .none)
        else
          match ← jobRead die j entry z with
          | .error e => return .error e
          | .ok m =>
            let r : Res := if x.mode = 1 then ((m + v) % 2 ^ 32, .none) else FpOp.eval .fadd .f32 m v 0
            match ← jobWrite die j entry z r.1 with
            | .error e => return .error e
            | .ok _ => return .ok (1, r.2)

/-- The sources of a reduction's unit, folded in their order. -/
def collFold (die : Nat) (j : Job) (k n : Nat) (acc : Res) : List Nat → Op (Except JStop Res)
  | [] => pure (.ok acc)
  | i :: is => do
    match ← jobRead die j (j.block.strided j.block.a i + k) n with
    | .error e => return .error e
    | .ok v =>
      let r := collUnit j.block.op (collBytes j.block.op) n acc.1 v
      collFold die j k n (r.1, acc.2.or r.2) is

/-- One unit of a COLL (R305). -/
def collStep (die : Nat) (j : Job) : Op (Except JStop (Nat × Ev)) := do
  let x := j.block
  let k := j.count % x.len
  let n := min 256 (x.len - k)
  match ← jobRead die j (x.a + k) n with
  | .error e => return .error e
  | .ok v =>
    if x.op = 0 then
      match ← jobWrite die j (x.strided x.c (j.count / x.len) + k) n v with
      | .error e => return .error e
      | .ok _ => return .ok (n, .none)
    else
      let first : Except JStop Res ← (if bitOf x.mode 0 then do
          match ← jobRead die j (x.c + k) n with
          | .error e => return .error e
          | .ok d => return .ok (collUnit x.op (collBytes x.op) n d v)
        else return .ok (v, .none))
      match first with
      | .error e => return .error e
      | .ok acc =>
        match ← collFold die j k n acc ((List.range (x.n - 1)).map (· + 1)) with
        | .error e => return .error e
        | .ok r =>
          match ← jobWrite die j (x.c + k) n r.1 with
          | .error e => return .error e
          | .ok _ => return .ok (n, r.2)

/-- A running job performs its next unit (R296, R302 to R306). -/
def jobUnit (die slot : Nat) : Op Unit := do
  let s ← get
  let j ← need (tlook slot (s.die die).jobs)
  require (j.engine.isSome && j.status.isNone && j.waits.isNone)
  if jobAborted s j then modJob die slot fun j => { j with status := some jsAborted }
  else if jobTotal j ≤ j.count then modJob die slot fun j => { j with status := some jsDone }
  else
    let r : Except JStop (Nat × Ev) ← (match j.kind with
      | 0 => cpyUnit die j
      | 1 | 2 => gathUnit die j
      | _ => collStep die j)
    match r with
    | .error (.pause w) => modJob die slot fun j => { j with waits := w, paused := true }
    | .error (.ends st) => modJob die slot fun j => { j with status := some st }
    | .ok (n, e) => modJob die slot fun j => { j with count := j.count + n, ev := j.ev.or e, paused := false }

end Sys2Proof.Machine
end

