-- ==== Sys2Proof/Decode.lean ====
section
/-! DEFINITION. Decoding and encoding: the tables of 03_opcode_map.md (R74 to R81), the layouts of 02_words.md (R36 to R61) and 13_control_sync_ops.md (R341), and the Beam words of 14_dispatch_lanterns.md (R387, R388). The decoder is total: it answers an instruction, or the name of the condition under which the word is none. -/

namespace Sys2Proof

/-- The conditions of Illegal Instruction, in the order of R61, with the subcodes of R83. -/
inductive Illegal
  | unassigned | masked | reserved | pairing | operand | range | pair | special
deriving DecidableEq, Repr

/-- Subcodes (R83). -/
def Illegal.code : Illegal → Nat
  | .unassigned => 1 | .masked => 2 | .reserved => 3 | .pairing => 4
  | .operand => 5 | .range => 6 | .pair => 7 | .special => 8

/-- Refuse with `e` unless `c`. -/
def need (c : Bool) (e : Illegal) : Except Illegal Unit := if c then .ok () else .error e

/-- The value of an optional parse, or an illegal operand encoding. -/
def operand {α : Type} : Option α → Except Illegal α
  | some x => .ok x
  | none => .error .operand

/-- A field of a word: `n` bits from bit `lo` up. -/
def fld (w : W64) (lo n : Nat) : BitVec n := w.extractLsb' lo n

/-! Opcode tables -/

/-- Every entry of a list with its place, from `base` in steps of `step`. -/
def place {α β : Type} (base step : Nat) (f : α → β) : List α → List (Nat × β)
  | [] => []
  | x :: xs => (base, f x) :: place (base + step) step f xs

def fpOps : List FpOp := [.fadd, .fsub, .fmul, .ffma, .fmin, .fmax]
def fuOps : List FuOp := [.frcp, .frsq, .fsqrt, .fdiv, .fex2, .flg2, .fsin, .fcos]
def intOps : List IntOp :=
  [.iadd, .isub, .imul, .imulh, .imulhUs, .imad, .imin, .iminUs, .imax, .imaxUs, .iabs,
   .and, .or, .xor, .andn, .shl, .shr, .sar, .rotl, .popc, .clz, .brev]
/-- Formats in the order of the FCMP and FCLS rows (R75). -/
def cmpFmts : List Fmt := [.d, .s, .h, .bf, .h2, .bf2]

/-- Floating-point rows of the F table, the 32-bit, 16-bit and packed formats (R74, R75). -/
def floatRows : List (Nat × LaneOp) :=
  List.flatten [place 0x01 5 (.fp · .s) fpOps, place 0x02 5 (.fp · .h) fpOps,
    place 0x03 5 (.fp · .bf) fpOps, place 0x04 5 (.fp · .h2) fpOps, place 0x05 5 (.fp · .bf2) fpOps,
    place 0x20 2 (.fu · .s) fuOps, place 0x21 2 (.fu · .h) fuOps]

/-- Moves and field operations of the 32-bit F rows (R75). -/
def moveRows : List (Nat × LaneOp) :=
  [(0x46, .prmt), (0x47, .mov false), (0x48, .lea false), (0x49, .idx2),
   (0x4A, .fldx .s), (0x4B, .fldx .h)]

/-- 64-bit rows of the F table (R75). -/
def wideRows : List (Nat × LaneOp) :=
  List.flatten [place 0x80 1 (.fp · .d) fpOps, place 0x86 1 (.fu · .d) fuOps, [(0x8E, .fldx .d)],
    place 0x95 1 .fcmp cmpFmts, place 0xA1 1 .fcls cmpFmts, place 0xA8 1 (.int · true) intOps,
    [(0xBE, .mov true), (0xBF, .lea true)]]

/-- Divisions, bit fields, compares and selects of the F table (R75). -/
def restRows : List (Nat × LaneOp) :=
  [(0xC0, .div false false false), (0xC1, .div false false true),
   (0xC2, .div true false false), (0xC3, .div true false true),
   (0xC4, .div false true false), (0xC5, .div false true true),
   (0xC6, .div true true false), (0xC7, .div true true true),
   (0xC8, .bfx false false), (0xC9, .bfx false true), (0xCA, .bfi false),
   (0xCB, .bfx true false), (0xCC, .bfx true true), (0xCD, .bfi true),
   (0xCE, .icmp false false), (0xCF, .icmp false true),
   (0xD0, .icmp true false), (0xD1, .icmp true true),
   (0xD6, .sel false), (0xD7, .sel true)]

/-- F opcodes that compute lane by lane from their sources (R74, R75). -/
def laneOpTable : List (Nat × LaneOp) :=
  floatRows ++ place 0x30 1 (.int · false) intOps ++ moveRows ++ wideRows ++ restRows

/-- The lane operation of an F opcode. -/
def laneOpOf (x : Nat) : Option LaneOp := (laneOpTable.find? (·.1 == x)).map (·.2)

/-- The F opcode of a lane operation; 0, which is unassigned, for a form that does not exist. -/
def LaneOp.code (op : LaneOp) : Nat := ((laneOpTable.find? (·.2 == op)).map (·.1)).getD 0

/-- Opcodes 0xD2 to 0xD5, the predicate-writing integer compares (R75). -/
def icmpKTable : List (Nat × Bool × Bool) :=
  [(0xD2, false, false), (0xD3, false, true), (0xD4, true, false), (0xD5, true, true)]
/-- Opcodes 0x9B to 0xA0, the predicate-writing float compares (R75). -/
def fcmpKTable : List (Nat × Fmt) := place 0x9B 1 id cmpFmts
/-- Opcodes 0x8F to 0x94, FRND (R75). -/
def frndTable : List (Nat × Fmt) := place 0x8F 1 id cmpFmts

/-! Operand fields -/

def patTable : List (BitVec 3 × Pat) :=
  [(0, .ident), (1, .keep), (2, .rotate), (3, .broadcast), (4, .butterfly), (5, .mirror), (6, .octet)]

def patOf (x : BitVec 3) : Option Pat := (patTable.find? (·.1 == x)).map (·.2)
def Pat.code (p : Pat) : BitVec 3 := ((patTable.find? (·.2 == p)).map (·.1)).getD 0

/-- A 12-bit source field (R39). -/
def srcOf (x : BitVec 12) : Option Src :=
  if x.getLsbD 11 then
    if x.extractLsb' 0 3 != 0 then none
    else if x.getLsbD 10 then none
    else if x.getLsbD 9 then some (.const (x.extractLsb' 3 6))
    else some (.sreg (x.extractLsb' 3 6))
  else (patOf (x.extractLsb' 0 3)).map (.lane (x.extractLsb' 3 8))

def Src.enc : Src → BitVec 12
  | .lane v p => 0#1 ++ v ++ p.code
  | .sreg m => 0b100#3 ++ m ++ 0#3
  | .const i => 0b101#3 ++ i ++ 0#3

/-- A 9-bit destination field (R37, R38). -/
def dstOf (x : BitVec 9) : Option Dst :=
  if x.getLsbD 8 then
    if x.extractLsb' 6 2 != 0 then none else some (.sreg (x.extractLsb' 0 6))
  else some (.lane (x.extractLsb' 0 8))

def Dst.enc : Dst → BitVec 9
  | .lane v => 0#1 ++ v
  | .sreg m => 0b100#3 ++ m

/-- A 9-bit register field (R53, R342). -/
def regOf (x : BitVec 9) : Option Reg :=
  if x.getLsbD 8 then
    if x.getLsbD 7 then none
    else if x.getLsbD 6 then some (.const (x.extractLsb' 0 6))
    else some (.sreg (x.extractLsb' 0 6))
  else some (.lane (x.extractLsb' 0 8))

def Reg.enc : Reg → BitVec 9
  | .lane v => 0#1 ++ v
  | .sreg m => 0b100#3 ++ m
  | .const i => 0b101#3 ++ i

def sregOf (x : BitVec 9) : Option (BitVec 6) :=
  match regOf x with
  | some (.sreg m) => some m
  | _ => none

def sargOf (x : BitVec 9) : Option SArg :=
  match regOf x with
  | some (.sreg m) => some (.sreg m)
  | some (.const i) => some (.const i)
  | _ => none

def SArg.enc : SArg → BitVec 9
  | .sreg m => 0b100#3 ++ m
  | .const i => 0b101#3 ++ i

def SArg.enc12 : SArg → BitVec 12
  | .sreg m => 0b100#3 ++ m ++ 0#3
  | .const i => 0b101#3 ++ i ++ 0#3

/-- A scalar-class 12-bit source. -/
def sarg12 (x : BitVec 12) : Option SArg :=
  match srcOf x with
  | some (.sreg m) => some (.sreg m)
  | some (.const i) => some (.const i)
  | _ => none

/-- A queue register field: class 1, index 128 + j (R331). -/
def queueOf (x : BitVec 9) : Option (BitVec 3) :=
  if x.extractLsb' 3 6 == 0b110000#6 then some (x.extractLsb' 0 3) else none

def queueEnc (q : BitVec 3) : BitVec 9 := 0b110000#6 ++ q

/-- A source field with a pattern from 010 to 110, which makes the crossbar parameter no reserved field (R122). A scalar-class source with such
a pattern, itself illegal, does not count here: the model's choice (log 90). -/
def rawUsesPar (x : BitVec 12) : Bool :=
  !x.getLsbD 11 && (match x.extractLsb' 0 3 with
    | 0 | 1 | 7 => false
    | _ => true)

/-! F and FI words -/

/-- The instruction of a lane operation in an F or FI word; MOV's FI form is MOVI. -/
def LaneOp.toInstr : LaneOp → FWord → Instr
  | .fp .fadd f, o => .fadd f o
  | .fp .fsub f, o => .fsub f o
  | .fp .fmul f, o => .fmul f o
  | .fp .ffma f, o => .ffma f o
  | .fp .fmin f, o => .fmin f o
  | .fp .fmax f, o => .fmax f o
  | .fu .frcp f, o => .frcp f o
  | .fu .frsq f, o => .frsq f o
  | .fu .fsqrt f, o => .fsqrt f o
  | .fu .fdiv f, o => .fdiv f o
  | .fu .fex2 f, o => .fex2 f o
  | .fu .flg2 f, o => .flg2 f o
  | .fu .fsin f, o => .fsin f o
  | .fu .fcos f, o => .fcos f o
  | .int .iadd l, o => .iadd l o
  | .int .isub l, o => .isub l o
  | .int .imul l, o => .imul l o
  | .int .imulh l, o => .imulh false l o
  | .int .imulhUs l, o => .imulh true l o
  | .int .imad l, o => .imad l o
  | .int .imin l, o => .imin false l o
  | .int .iminUs l, o => .imin true l o
  | .int .imax l, o => .imax false l o
  | .int .imaxUs l, o => .imax true l o
  | .int .iabs l, o => .iabs l o
  | .int .and l, o => .and l o
  | .int .or l, o => .or l o
  | .int .xor l, o => .xor l o
  | .int .andn l, o => .andn l o
  | .int .shl l, o => .shl l o
  | .int .shr l, o => .shr l o
  | .int .sar l, o => .sar l o
  | .int .rotl l, o => .rotl l o
  | .int .popc l, o => .popc l o
  | .int .clz l, o => .clz l o
  | .int .brev l, o => .brev l o
  | .prmt, o => .prmt o
  | .mov l, o =>
    match o.args with
    | .imm _ _ i => .movi l o.pred o.dst i
    | .reg _ _ _ _ => .mov l o
  | .lea l, o => .lea l o
  | .idx2, o => .idx2 o
  | .fldx f, o => .fldx f o
  | .div false l us, o => .idiv l us o
  | .div true l us, o => .irem l us o
  | .bfx l us, o => .bfx l us o
  | .bfi l, o => .bfi l o
  | .icmp l us, o => .icmp l us o
  | .fcmp f, o => .fcmp f o
  | .fcls f, o => .fcls f o
  | .sel l, o => .sel l o

/-- The sources of an F word that reads `n` of them (R39, R122). -/
def decSrcs (n : Nat) (w : W64) : Except Illegal FArgs := do
  let a := fld w 29 12
  let b := fld w 17 12
  let c := fld w 5 12
  let par := fld w 0 5
  need ((2 ≤ n || b == 0) && (3 ≤ n || c == 0)) .reserved
  need (par == 0 || rawUsesPar a || (2 ≤ n && rawUsesPar b) || (3 ≤ n && rawUsesPar c)) .reserved
  let a ← operand (srcOf a)
  let b ← operand (srcOf b)
  let c ← operand (srcOf c)
  pure (.reg a b c par)

/-- The sources of an FI word that reads `n` source fields beside its immediate (R44, R76). -/
def decImm (n : Nat) (wide : Bool) (w : W64) : Except Illegal FArgs := do
  let a := fld w 29 12
  let b := fld w 17 12
  let i := fld w 0 17
  need ((1 ≤ n || a == 0) && (2 ≤ n || b == 0)) .reserved
  need (wide || i.getLsbD 16 == false) .reserved
  let a ← operand (srcOf a)
  let b ← operand (srcOf b)
  need (a.immOk && b.immOk) .operand
  pure (.imm a b i)

/-- The sources of an F or FI word of a lane operation. -/
def decArgs (op : LaneOp) (fi : Bool) (w : W64) : Except Illegal FArgs :=
  if fi then
    match op.immType with
    | none => .error .unassigned
    | some t => decImm op.immReads t.wide w
  else decSrcs op.reads w

/-- An F or FI word of a lane operation (R37, R43, R44). -/
def decLane (op : LaneOp) (fi : Bool) (w : W64) : Except Illegal Instr := do
  let args ← decArgs op fi w
  let dst ← operand (dstOf (fld w 41 9))
  need (dst.isLane || args.noLane op.reads op.immReads) .operand
  pure (op.toInstr ⟨fld w 50 3, dst, args⟩)

/-- The predicate destination of a .K form (R75, R133). -/
def decK (w : W64) : Except Illegal (BitVec 3) :=
  if fld w 44 6 == 0 then .ok (fld w 41 3) else .error .operand

/-- An F word that reads source A alone beside a mode field in B, and C where `readsC`. -/
def decMode (scalarOk : Bool) (w : W64) : Except Illegal FMode := do
  let a ← operand (srcOf (fld w 29 12))
  let dst ← operand (dstOf (fld w 41 9))
  need (dst.isLane || scalarOk || !a.isLane) .operand
  pure ⟨fld w 50 3, dst, a, fld w 0 5⟩

/-- The reserved fields of a word with source A, a mode field B of `bits` used bits, and no C. -/
def modeReserved (bits : Nat) (w : W64) : Except Illegal Unit := do
  need ((fld w 17 12).toNat < 2 ^ bits && fld w 5 12 == 0) .reserved
  need (fld w 0 5 == 0 || rawUsesPar (fld w 29 12)) .reserved

def rmOf (x : Nat) : Option Rm :=
  match x with
  | 0 => some .rne | 1 => some .rz | 2 => some .ru | 3 => some .rd | _ => none

def Rm.code : Rm → Nat
  | .rne => 0 | .rz => 1 | .ru => 2 | .rd => 3

def voteOf (x : BitVec 2) : Vote :=
  match x with
  | 0 => .ballot | 1 => .any | 2 => .all | _ => .count

def Vote.code : Vote → Nat
  | .ballot => 0 | .any => 1 | .all => 2 | .count => 3

def scanTable : List (Nat × ScanOp) :=
  place 0 1 id [.add, .min, .minu, .max, .maxu, .and, .or, .xor, .fadd, .fmin, .fmax]
def scanOf (x : Nat) : Option ScanOp := (scanTable.find? (·.1 == x)).map (·.2)
def ScanOp.code (o : ScanOp) : Nat := ((scanTable.find? (·.2 == o)).map (·.1)).getD 0

def numFmtTable : List (Nat × NumFmt) :=
  place 1 1 id [.f64, .f32, .f16, .bf16, .e4m3, .e5m2, .i8, .i32, .i64]
def numFmtOf (x : Nat) : Option NumFmt := (numFmtTable.find? (·.1 == x)).map (·.2)
def NumFmt.code (f : NumFmt) : Nat := ((numFmtTable.find? (·.2 == f)).map (·.1)).getD 0

def blkOf (x : Nat) : Option BlkFmt :=
  match x with
  | 0 => some .z4 | 1 => some .e4 | 2 => some .e5 | _ => none
def BlkFmt.code : BlkFmt → Nat
  | .z4 => 0 | .e4 => 1 | .e5 => 2

def decFrnd (f : Fmt) (w : W64) : Except Illegal Instr := do
  modeReserved 3 w
  let rm ← operand (rmOf (fld w 17 3).toNat)
  pure (.frnd f rm (← decMode false w))

def decVote (w : W64) : Except Illegal Instr := do
  modeReserved 2 w
  pure (.lvote (voteOf (fld w 17 2)) (← decMode true w))

def decScan (l : Bool) (w : W64) : Except Illegal Instr := do
  modeReserved 5 w
  let op ← operand (scanOf (fld w 17 4).toNat)
  let o ← decMode true w
  let excl := w.getLsbD 21
  need (o.dst.isLane || !excl) .operand
  pure (.lscan l op excl o)

def decRed (l : Bool) (w : W64) : Except Illegal Instr := do
  modeReserved 5 w
  let op ← operand (scanOf (fld w 17 4).toNat)
  let o ← decMode true w
  need (!w.getLsbD 21) .operand
  pure (.lred l op o)

/-- CVT (R156). Bit 11 of the mode field is reserved when neither format is an integer. -/
def decCvt (w : W64) : Except Illegal Instr := do
  let src := numFmtOf (fld w 17 4).toNat
  let dst := numFmtOf (fld w 21 4).toNat
  let us := w.getLsbD 28
  let int := (match src with | some f => f.isInt | none => false) ||
    (match dst with | some f => f.isInt | none => false)
  need (fld w 5 12 == 0 && (fld w 0 5 == 0 || rawUsesPar (fld w 29 12))) .reserved
  need (!us || int) .reserved
  let rm ← operand (rmOf (fld w 25 3).toNat)
  let s ← operand src
  let d ← operand dst
  pure (.cvt s d rm us (← decMode false w))

/-- CVTS (R158): C is the index, RM is reserved. -/
def decCvts (w : W64) : Except Illegal Instr := do
  need (fld w 25 3 == 0) .reserved
  let src := numFmtOf (fld w 17 4).toNat
  let dst := numFmtOf (fld w 21 4).toNat
  let int := (match src with | some f => f.isInt | none => false) ||
    (match dst with | some f => f.isInt | none => false)
  need (!w.getLsbD 28 || int) .reserved
  need (fld w 0 5 == 0 || rawUsesPar (fld w 29 12) || rawUsesPar (fld w 5 12)) .reserved
  let s ← operand src
  let d ← operand dst
  need (cvtsOk s d) .operand
  need (!w.getLsbD 28) .operand
  let o ← decMode true w
  let c ← operand (srcOf (fld w 5 12))
  need (o.dst.isLane || (!o.a.isLane && !c.isLane)) .operand
  pure (.cvts s d o c)

def decQscl (w : W64) : Except Illegal Instr := do
  modeReserved 2 w
  let f ← operand (blkOf (fld w 17 2).toNat)
  let o ← decMode false w
  need o.dst.isLane .operand
  pure (.qscl f o)

/-- QPK4, QPK8 and QUNP: A and B are read, C is a mode field of `bits` used bits (R162). -/
def decQAB (bits : Nat) (w : W64) : Except Illegal FWord := do
  need ((fld w 5 12).toNat < 2 ^ bits) .reserved
  need (fld w 0 5 == 0 || rawUsesPar (fld w 29 12) || rawUsesPar (fld w 17 12)) .reserved
  let a ← operand (srcOf (fld w 29 12))
  let b ← operand (srcOf (fld w 17 12))
  let dst ← operand (dstOf (fld w 41 9))
  need dst.isLane .operand
  pure ⟨fld w 50 3, dst, .reg a b Src.zero (fld w 0 5)⟩

def decQunp (w : W64) : Except Illegal Instr := do
  let o ← decQAB 2 w
  let f ← operand (blkOf (fld w 5 2).toNat)
  pure (.qunp f o)

def decQhad (w : W64) : Except Illegal Instr := do
  need ((fld w 17 12).toNat < 8) .reserved
  need (fld w 0 5 == 0 || rawUsesPar (fld w 29 12) || rawUsesPar (fld w 5 12)) .reserved
  let c ← operand (sarg12 (fld w 5 12))
  let o ← decMode false w
  need o.dst.isLane .operand
  need (o.par == 0 || o.a.usesPar) .operand
  pure (.qhad (fld w 17 2) (w.getLsbD 19) o c)

def decQseed (w : W64) : Except Illegal Instr := do
  need (fld w 41 9 == 0 && fld w 17 12 == 0 && fld w 5 12 == 0) .reserved
  need (fld w 0 5 == 0 || rawUsesPar (fld w 29 12)) .reserved
  let a ← operand (sarg12 (fld w 29 12))
  need (fld w 0 5 == 0) .operand
  pure (.qseed (fld w 50 3) a)

def decLshfl (w : W64) : Except Illegal Instr := do
  let args ← decSrcs 2 w
  let dst ← operand (dstOf (fld w 41 9))
  need (dst.isLane || args.noLane 2 0) .operand
  pure (.lshfl ⟨fld w 50 3, dst, args⟩)

/-- MOVH (R76, R131): FI opcode 0x1F0. -/
def decMovh (w : W64) : Except Illegal Instr := do
  need (fld w 17 12 == 0 && !w.getLsbD 16) .reserved
  let a ← operand (srcOf (fld w 29 12))
  need a.immOk .operand
  let dst ← operand (dstOf (fld w 41 9))
  need (dst.isLane || !a.isLane) .operand
  pure (.movh (fld w 50 3) dst a (fld w 0 16))

/-- F words that are no lane operation (R75). -/
def decFOther (x : Nat) (w : W64) : Except Illegal Instr :=
  match (icmpKTable.find? (·.1 == x)) with
  | some (_, l, us) => do
    let args ← decArgs (.icmp l us) false w
    pure (.icmpK l us (← decK w) ⟨fld w 50 3, args⟩)
  | none =>
  match (fcmpKTable.find? (·.1 == x)) with
  | some (_, f) => do
    let args ← decArgs (.fcmp f) false w
    pure (.fcmpK f (← decK w) ⟨fld w 50 3, args⟩)
  | none =>
  match (frndTable.find? (·.1 == x)) with
  | some (_, f) => decFrnd f w
  | none =>
  match x with
  | 0xD8 => decLshfl w
  | 0xD9 => decVote w
  | 0xDA => decScan false w
  | 0xDB => decRed false w
  | 0xDC => decScan true w
  | 0xDD => decRed true w
  | 0xE0 => decCvt w
  | 0xE1 => decCvts w
  | 0xE8 => decQscl w
  | 0xE9 => do pure (.qpk4 (← decQAB 0 w))
  | 0xEA => do pure (.qpk8 (w.getLsbD 5) (← decQAB 1 w))
  | 0xEB => decQunp w
  | 0xEC => decQhad w
  | 0xED => decQseed w
  | _ => .error .unassigned

/-- FI words that are no lane operation: MOVH and the immediate .K compares (R76). -/
def decFIOther (x : Nat) (w : W64) : Except Illegal Instr :=
  match (icmpKTable.find? (·.1 == x)) with
  | some (_, l, us) => do
    let args ← decArgs (.icmp l us) true w
    pure (.icmpK l us (← decK w) ⟨fld w 50 3, args⟩)
  | none => if x = 0xF0 then decMovh w else .error .unassigned

/-- A word of kind 00 (R36, R37). -/
def decodeF (w : W64) : Except Illegal Instr :=
  let x := (fld w 53 8).toNat
  match laneOpOf x with
  | some op => decLane op (w.getLsbD 61) w
  | none => if w.getLsbD 61 then decFIOther x w else decFOther x w

/-! P words -/

/-- One half from its opcode and its three register fields. -/
def halfOf (x d a b : Nat) : Option Half :=
  (laneOpOf x).map fun op => ⟨op, BitVec.ofNat 8 d, BitVec.ofNat 8 a, BitVec.ofNat 8 b⟩

/-- A word of kind 01 (R48 to R50, R77). -/
def decodeP (w : W64) : Except Illegal Instr :=
  match laneOpOf (fld w 55 7).toNat, laneOpOf (fld w 24 7).toNat with
  | some p, some q => do
    let h0 : Half := ⟨p, fld w 47 8, fld w 39 8, fld w 31 8⟩
    let h1 : Half := ⟨q, fld w 16 8, fld w 8 8, fld w 0 8⟩
    need (h0.wf && h1.wf) .reserved
    need (pairOk h0 h1) .pairing
    pure (.pairWord h0 h1)
  | _, _ => .error .unassigned

/-! M words -/

def ordOf (x : BitVec 2) : Ord :=
  match x with
  | 0 => .rlx | 1 => .acq | 2 => .rel | _ => .ar
def Ord.code : Ord → BitVec 2
  | .rlx => 0 | .acq => 1 | .rel => 2 | .ar => 3

def scopeOf (x : BitVec 3) : Option Scope :=
  match x with
  | 0 => some .group | 1 => some .core | 2 => some .quad | 3 => some .die
  | 4 => some .package | 5 => some .pod | 6 => some .system | _ => none
def Scope.code : Scope → BitVec 3
  | .group => 0 | .core => 1 | .quad => 2 | .die => 3 | .package => 4 | .pod => 5 | .system => 6

/-- Loads, stores and cache words of the M table (R78). -/
def accessRows : List (Nat × MClass × (MWord → Instr)) :=
  [(0x00, .ld, .ld .b false), (0x01, .ld, .ld .h false), (0x02, .ld, .ld .w false),
   (0x03, .ld, .ld .d false), (0x04, .ld, .ld .q false), (0x05, .ld, .ld .b true),
   (0x06, .ld, .ld .h true),
   (0x08, .st, .st .b), (0x09, .st, .st .h), (0x0A, .st, .st .w), (0x0B, .st, .st .d),
   (0x0C, .st, .st .q),
   (0x10, .ldp, .ldp .b false), (0x11, .ldp, .ldp .h false), (0x12, .ldp, .ldp .w false),
   (0x13, .ldp, .ldp .d false), (0x14, .ldp, .ldp .q false), (0x15, .ldp, .ldp .b true),
   (0x16, .ldp, .ldp .h true),
   (0x18, .stp, .stp .b), (0x19, .stp, .stp .h), (0x1A, .stp, .stp .w), (0x1B, .stp, .stp .d),
   (0x1C, .stp, .stp .q),
   (0x20, .pref, .pref), (0x21, .wbinv, .wb), (0x22, .wbinv, .inv), (0x23, .fence, .fence),
   (0x24, .wsig, .wsig false), (0x25, .wsig, .wsig true), (0x26, .waitln, .waitln)]

/-- Atomics of the M table (R78). -/
def atomicRows : List (Nat × MClass × (MWord → Instr)) :=
  [(0x40, .atom, .aadd false), (0x41, .atom, .aadd true),
   (0x42, .atom, .amin false false), (0x43, .atom, .amin false true),
   (0x44, .atom, .amin true false), (0x45, .atom, .amin true true),
   (0x46, .atom, .amax false false), (0x47, .atom, .amax false true),
   (0x48, .atom, .amax true false), (0x49, .atom, .amax true true),
   (0x4A, .atom, .aand false), (0x4B, .atom, .aand true),
   (0x4C, .atom, .aor false), (0x4D, .atom, .aor true),
   (0x4E, .atom, .axor false), (0x4F, .atom, .axor true),
   (0x50, .xchg, .axch false), (0x51, .xchg, .axch true),
   (0x52, .xchg, .acas false), (0x53, .xchg, .acas true),
   (0x54, .atom, .ainc false), (0x55, .atom, .ainc true),
   (0x56, .atom, .afadd .s), (0x57, .atom, .afadd .d),
   (0x58, .atom, .afadd .h2), (0x59, .atom, .afadd .bf2), (0x5A, .xchg, .acasQ)]

/-- Reductions of the M table (R78). -/
def reduceRows : List (Nat × MClass × (MWord → Instr)) :=
  [(0x60, .red, .redAdd false), (0x61, .red, .redAdd true),
   (0x62, .red, .redMin false false), (0x63, .red, .redMin false true),
   (0x64, .red, .redMin true false), (0x65, .red, .redMin true true),
   (0x66, .red, .redMax false false), (0x67, .red, .redMax false true),
   (0x68, .red, .redMax true false), (0x69, .red, .redMax true true),
   (0x6A, .red, .redAnd false), (0x6B, .red, .redAnd true),
   (0x6C, .red, .redOr false), (0x6D, .red, .redOr true),
   (0x6E, .red, .redXor false), (0x6F, .red, .redXor true),
   (0x74, .red, .redInc false), (0x75, .red, .redInc true),
   (0x76, .red, .redFadd .s), (0x77, .red, .redFadd .d),
   (0x78, .red, .redFadd .h2), (0x79, .red, .redFadd .bf2)]

/-- Tile, engine and future words of the M table (R78). -/
def tileRows : List (Nat × MClass × (MWord → Instr)) :=
  [(0x80, .topen, .topen), (0x81, .tacq, .tacqR), (0x82, .tacq, .tacqW), (0x83, .trel, .trel),
   (0x84, .tsplit, .tsplit), (0x85, .tacq, .tjoin), (0x86, .tquery, .tclose),
   (0x87, .tquery, .tqry),
   (0xA0, .cpy, .cpy), (0xA1, .gath, .gath), (0xA2, .scat, .scat), (0xA3, .coll, .coll),
   (0xA8, .future, .ftst), (0xA9, .future, .fwt), (0xAA, .future, .fcan)]

/-- M opcodes (R78): opcode, row of R266, instruction. -/
def mTable : List (Nat × MClass × (MWord → Instr)) :=
  accessRows ++ atomicRows ++ reduceRows ++ tileRows

/-- An M word of an opcode row (R51, R266, R267): reserved fields first, then operands. -/
def decM (c : MClass) (f : MWord → Instr) (w : W64) : Except Illegal Instr := do
  let s := c.spec
  let data := fld w 30 9
  let base := fld w 21 9
  let index := fld w 12 9
  let off := fld w 0 12
  need ((s.data != .unused || data == 0) && (s.base != .unused || base == 0) &&
    (s.index != .unused || index == 0) && s.off.ok off) .reserved
  let scope ← operand (scopeOf (fld w 42 3))
  let data ← operand (regOf data)
  let base ← operand (regOf base)
  let index ← operand (regOf index)
  let o : MWord := ⟨fld w 51 3, fld w 47 4, ordOf (fld w 45 2), scope, fld w 39 3,
    data, base, index, off⟩
  need (o.wf c) .operand
  pure (f o)

/-- A word of kind 10 with an opcode to 0xBF. -/
def decodeM (w : W64) : Except Illegal Instr :=
  match mTable.find? (·.1 == (fld w 54 8).toNat) with
  | some (_, c, f) => decM c f w
  | none => .error .unassigned

/-! X words -/

def xfmtTable : List (Nat × XFmt) :=
  place 0xC0 1 id [.d, .bf, .h, .e4, .e5, .i8, .z4, .e4sc, .e5sc]
def xfmtOf (x : Nat) : Option XFmt := (xfmtTable.find? (·.1 == x)).map (·.2)
def XFmt.code (f : XFmt) : Nat := ((xfmtTable.find? (·.2 == f)).map (·.1)).getD 0

/-- A descriptor base field: class 1, number at most 60 (R55). -/
def descOf (w : W64) : Except Illegal (BitVec 6) :=
  if fld w 44 3 == 0b100#3 then .ok (fld w 38 6) else .error .operand

/-- The fields of an X word beside the sparse flag. -/
def xwordOf (desc : BitVec 6) (scale : BitVec 8) (w : W64) : XWord :=
  ⟨fld w 51 3, fld w 47 4, desc, scale, fld w 27 2, fld w 25 2, fld w 13 12, fld w 8 5,
   w.getLsbD 4, w.getLsbD 3, w.getLsbD 2, w.getLsbD 1, w.getLsbD 0⟩

def decMma (f : XFmt) (w : W64) : Except Illegal Instr := do
  need (fld w 6 2 == 0 && (f.scaled || fld w 25 13 == 0)) .reserved
  let desc ← descOf w
  need (!w.getLsbD 37) .operand
  let o := xwordOf desc (fld w 29 8) w
  need (o.wf f (w.getLsbD 5)) .operand
  pure (if w.getLsbD 5 then .mmsp f o else .mma f o)

/-- MZERO and MCFG (R187, R188). -/
def decCfg (zero : Bool) (w : W64) : Except Illegal Instr := do
  need (fld w 25 13 == 0 && fld w 5 3 == 0 && fld w 0 4 == 0) .reserved
  need (if zero then fld w 8 5 == 0 else !w.getLsbD 4) .reserved
  let desc ← descOf w
  need (desc.toNat ≤ 60) .operand
  need ((fld w 13 12).toNat ≤ (if zero then 2 else 3)) .operand
  let o : XCfg := ⟨fld w 51 3, fld w 47 4, desc, fld w 13 2, fld w 8 5, w.getLsbD 4⟩
  pure (if zero then .mzero o else .mcfg o)

/-- MRES (R199). -/
def decMres (w : W64) : Except Illegal Instr := do
  need (fld w 29 18 == 0 && fld w 6 2 == 0) .reserved
  pure (.mres (w.getLsbD 5) (xwordOf 0 0 w))

def decodeX (w : W64) : Except Illegal Instr :=
  match xfmtOf (fld w 54 8).toNat with
  | some f => decMma f w
  | none =>
    match (fld w 54 8).toNat with
    | 0xD0 => decCfg true w
    | 0xD1 => decCfg false w
    | 0xD2 => decMres w
    | _ => .error .unassigned

/-! S words -/

/-- The sweep 0xE0 + `op` (R80). -/
def sweepInstr (op : Nat) (o : SWord) : Option Instr :=
  match op with
  | 0 => some (.swadd o) | 1 => some (.swmul o) | 2 => some (.swfma o) | 3 => some (.swmax o)
  | 4 => some (.swmin o) | 5 => some (.swcvt o) | 6 => some (.swexp o) | 7 => some (.swsum o)
  | 8 => some (.swcpy o) | 9 => some (.swset o) | _ => none

def decodeS (w : W64) : Except Illegal Instr :=
  let op := (fld w 54 5).toNat
  let o : SWord := ⟨fld w 51 3, fld w 47 4, fld w 41 6, fld w 35 6, fld w 29 6, fld w 17 12,
    fld w 12 5, fld w 7 5, fld w 2 5, fld w 0 2⟩
  match sweepInstr op o with
  | none => .error .unassigned
  | some i => do
    need (3 ≤ sweepUses op || (o.r2 == 0 && o.step2 == 0)) .reserved
    need (o.wf op) .operand
    pure i

/-! K words -/

def ctrTable : List (Nat × Ctr) :=
  [(0, .cycles), (1, .issued), (2, .sleep), (3, .lclock), (0x10, .nv), (0x11, .of), (0x12, .ic),
   (0x13, .sb)]
def ctrOf (x : Nat) : Option Ctr := (ctrTable.find? (·.1 == x)).map (·.2)
def Ctr.code (c : Ctr) : Nat := ((ctrTable.find? (·.2 == c)).map (·.1)).getD 0

def levelOf (x : Nat) : Option BarLevel :=
  match x with
  | 0 => some .block | 1 => some .cluster | 2 => some .die | 3 => some .package | 4 => some .pod
  | _ => none

/-- A field of a K word that the opcode does not use is zero (R57). `a` and `b` are fields A and B,
`m` the modifier, `n` the number of low bits of the immediate that are used. -/
def kReserved (a b m : Bool) (n : Nat) (w : W64) : Except Illegal Unit :=
  need ((a || fld w 42 9 == 0) && (b || fld w 33 9 == 0) && (m || !w.getLsbD 32) &&
    (fld w 0 32).toNat < 2 ^ n) .reserved

/-- The predicate field of a word that takes none must be 0 (R341). -/
def noPred (w : W64) : Except Illegal Unit := need (fld w 51 3 == 0) .operand

def decBar (f : BitVec 3 → BarLevel → BitVec 4 → Instr) (w : W64) : Except Illegal Instr := do
  kReserved false false false 8 w
  need (!w.getLsbD 3) .reserved
  let lvl ← operand (levelOf (fld w 0 3).toNat)
  pure (f (fld w 51 3) lvl (fld w 4 4))

/-- RDSR and its queue form, the pop (R331, R341). A field B that is no queue is the special form,
whose field B must be 0. -/
def decRdsr (w : W64) : Except Illegal Instr :=
  match queueOf (fld w 33 9) with
  | some q => do
    kReserved true true false 0 w
    let d ← operand (dstOf (fld w 42 9))
    pure (.queuePop (fld w 51 3) d q)
  | none => do
    kReserved true true false 8 w
    need (fld w 33 9 == 0) .operand
    let d ← operand (dstOf (fld w 42 9))
    pure (.rdsr (fld w 51 3) d (fld w 0 8))

/-- WRSR, its queue form, the push (R331, R341), and the two forms that a constant written to
TRAPCAUSE names: RESUME and ABORT (16_recovery.md R440, R441). -/
def decWrsr (w : W64) : Except Illegal Instr :=
  match queueOf (fld w 42 9) with
  | some q => do
    kReserved true true false 0 w
    let s ← operand (regOf (fld w 33 9))
    pure (.queuePush (fld w 51 3) q s)
  | none => do
    kReserved true true false 8 w
    need (fld w 42 9 == 0) .operand
    let s ← operand (sargOf (fld w 33 9))
    let num := fld w 0 8
    match s with
    | .const i =>
      if num == 0x09 && trapcauseBits i == 1 then pure (.resume (fld w 51 3) i)
      else if num == 0x09 && 2 ≤ trapcauseBits i then pure (.abort (fld w 51 3) i)
      else pure (.wrsr (fld w 51 3) num s)
    | .sreg _ => pure (.wrsr (fld w 51 3) num s)

def decQbind (w : W64) : Except Illegal Instr := do
  let m := w.getLsbD 32
  kReserved true m true (if m then 0 else 32) w
  let q ← operand (queueOf (fld w 42 9))
  if m then
    let e ← operand (sregOf (fld w 33 9))
    pure (.qbind (fld w 51 3) q (.reg e))
  else
    let e := fld w 0 32
    need (e.extractLsb' 10 6 != 0 && e.extractLsb' 0 5 == 0) .operand
    pure (.qbind (fld w 51 3) q (.imm e))

def decSvc (w : W64) : Except Illegal Instr := do
  kReserved true true false 16 w
  let d ← operand (sregOf (fld w 42 9))
  let a ← operand (sregOf (fld w 33 9))
  let n := fld w 0 16
  pure (if n == 0x8000 then .pagesync (fld w 51 3) d a else .svc (fld w 51 3) d a n)

def decLaunch (w : W64) : Except Illegal Instr := do
  kReserved true true false 9 w
  let d ← operand (dstOf (fld w 42 9))
  let b ← operand (sregOf (fld w 33 9))
  let i ← operand (regOf (fld w 0 9))
  pure (.launch (fld w 51 3) d b i)

/-- Control words 0x00 to 0x0A (R81, R341). -/
def decodeKBranch (x : Nat) (w : W64) : Except Illegal Instr :=
  let p := fld w 51 3
  let imm := fld w 0 32
  match x with
  | 0x00 => do kReserved false false false 32 w; noPred w; pure (.bra imm)
  | 0x01 => do pure (.brc p (w.getLsbD 32) (fld w 33 18) imm)
  | 0x02 => do
    kReserved true true false 32 w
    let i ← operand (regOf (fld w 42 9))
    let t ← operand (sregOf (fld w 33 9))
    need (fld w 0 16 != 0) .operand
    pure (.jtbl p i t (fld w 16 16) (fld w 0 16))
  | 0x03 => do
    kReserved true false false 32 w
    noPred w
    pure (.call (← operand (sregOf (fld w 42 9))) imm)
  | 0x04 => do
    kReserved true false false 0 w
    noPred w
    pure (.ret (← operand (sregOf (fld w 42 9))))
  | 0x05 => do kReserved false false false 0 w; noPred w; pure .join
  | 0x06 => do
    kReserved true false false 32 w
    noPred w
    let c ← operand (sregOf (fld w 42 9))
    need (!(0 < imm.toInt)) .operand
    pure (.loopb c imm)
  | 0x07 => do kReserved false false false 0 w; pure (.exit p)
  | 0x08 => do kReserved false false false 32 w; noPred w; pure (.idem imm)
  | 0x09 => do kReserved false false false 0 w; pure (.nop p)
  | 0x0A => do
    kReserved true false false 32 w
    need (fld w 46 5 == 0) .reserved
    pure (.ipref p (fld w 42 4) imm)
  | _ => .error .unassigned

/-- Synchronisation words 0x20 to 0x26. -/
def decodeKSync (x : Nat) (w : W64) : Except Illegal Instr :=
  let p := fld w 51 3
  match x with
  | 0x20 => decBar .bara w
  | 0x21 => decBar .barw w
  | 0x22 => decBar .bars w
  | 0x23 => decQbind w
  | 0x24 => do
    kReserved true false false 0 w
    pure (.qclose p (← operand (queueOf (fld w 42 9))))
  | 0x25 => do
    kReserved true true false 0 w
    let d ← operand (sregOf (fld w 42 9))
    pure (.qstat p d (← operand (queueOf (fld w 33 9))))
  | 0x26 => do kReserved false false false 16 w; pure (.yield p (fld w 0 16))
  | _ => .error .unassigned

/-- System words 0x40 to 0x49. -/
def decodeKSystem (x : Nat) (w : W64) : Except Illegal Instr :=
  let p := fld w 51 3
  match x with
  | 0x40 => do kReserved false false false 16 w; pure (.trap p (fld w 0 16))
  | 0x41 => decSvc w
  | 0x42 => decRdsr w
  | 0x43 => decWrsr w
  | 0x44 => do
    kReserved true false false 8 w
    let d ← operand (sregOf (fld w 42 9))
    pure (.rdct p d (← operand (ctrOf (fld w 0 8).toNat)))
  | 0x45 => decLaunch w
  | 0x46 => do
    kReserved false false false 5 w
    need (fld w 0 5 != 0) .operand
    pure (.quotaGive p (fld w 0 5))
  | 0x47 => do
    kReserved false false false 5 w
    need (fld w 0 5 != 0) .operand
    pure (.quotaTake p (fld w 0 5))
  | 0x48 => do kReserved false false false 0 w; pure (.isync p)
  | 0x49 => do kReserved false false false 16 w; pure (.bkpt p (fld w 0 16))
  | _ => .error .unassigned

def decodeK (w : W64) : Except Illegal Instr :=
  let x := (fld w 54 8).toNat
  if x < 0x20 then decodeKBranch x w
  else if x < 0x40 then decodeKSync x w
  else decodeKSystem x w

/-- The instruction of a 64-bit device word, or the condition under which it is none (R36, R61). -/
def decode (w : W64) : Except Illegal Instr :=
  match fld w 62 2 with
  | 0 => decodeF w
  | 1 => decodeP w
  | 2 =>
    if (fld w 54 8).toNat < 0xC0 then decodeM w
    else if (fld w 54 8).toNat < 0xE0 then decodeX w
    else decodeS w
  | _ => decodeK w

/-- Whether the opcode of a device word is assigned (R74 to R82), which R61 puts before every other
condition; a word whose decoding fails for another reason has an assigned opcode. -/
def opcodeAssigned (w : W64) : Bool :=
  match decode w with
  | .error .unassigned => false
  | _ => true

/-! Beam words -/

/-- Why a Beam word is none (14_dispatch_lanterns.md R395, BADOP). -/
inductive BeamIllegal | badop
deriving DecidableEq, Repr

def bfld (w : W32) (lo n : Nat) : BitVec n := w.extractLsb' lo n

/-- Operand x (R387). -/
def bargOf (x : BitVec 18) : Option BArg :=
  if x.getLsbD 17 then some (.imm (x.extractLsb' 0 17))
  else if x.extractLsb' 4 13 == 0 then some (.reg (x.extractLsb' 0 4)) else none

def BArg.enc : BArg → BitVec 18
  | .reg r => 0#14 ++ r
  | .imm i => 1#1 ++ i

/-- The three-operand Beam opcodes 0x03 to 0x0E, 0x14, 0x15 (R388). -/
def beamAlu (op : Nat) (d a : BReg) (x : BArg) : Option Instr :=
  match op with
  | 0x03 => some (.beamAdd d a x) | 0x04 => some (.beamSub d a x) | 0x05 => some (.beamMul d a x)
  | 0x06 => some (.beamAnd d a x) | 0x07 => some (.beamOr d a x) | 0x08 => some (.beamXor d a x)
  | 0x09 => some (.beamShl d a x) | 0x0A => some (.beamShr d a x) | 0x0B => some (.beamMin d a x)
  | 0x0C => some (.beamMax d a x) | 0x0D => some (.beamClt d a x) | 0x0E => some (.beamCeq d a x)
  | 0x14 => some (.beamMrd d a x) | 0x15 => some (.beamMwr d a x)
  | _ => none

/-- The instruction of a Beam word, or BADOP (R387, R388, R395). -/
def decodeBeam (w : W32) : Except BeamIllegal Instr :=
  let op := (bfld w 26 6).toNat
  let d := bfld w 22 4
  let a := bfld w 18 4
  let x := bfld w 0 18
  let zero (c : Bool) (i : Instr) : Except BeamIllegal Instr := if c then .ok i else .error .badop
  match op with
  | 0x01 => .ok (.beamLdi d (bfld w 0 22))
  | 0x02 => zero (x == 0) (.beamMov d a)
  | 0x0F => zero (d == 0 && x.extractLsb' 8 10 == 0) (.beamBf a (bfld w 0 8))
  | 0x10 => zero (bfld w 8 18 == 0) (.beamJf (bfld w 0 8))
  | 0x11 => zero (bfld w 8 18 == 0) (.beamLoop (bfld w 0 8))
  | 0x12 => zero (bfld w 0 26 == 0) .beamEndl
  | 0x13 => zero (w.getLsbD 17 && (bfld w 0 17).toNat < 12) (.beamCtr d a (bfld w 0 17))
  | 0x16 => zero (bfld w 0 22 == 0) (.beamDec d)
  | 0x17 => zero (bfld w 0 26 == 0) .beamRet
  | _ =>
    match bargOf x with
    | none => .error .badop
    | some x =>
      match beamAlu op d a x with
      | some i => .ok i
      | none => .error .badop

/-! Encoding, from the same tables -/

/-- An F word (R37). -/
def fw (x : Nat) (p : BitVec 3) (d : BitVec 9) (a b c : BitVec 12) (par : BitVec 5) : W64 :=
  0#2 ++ BitVec.ofNat 9 x ++ p ++ d ++ a ++ b ++ c ++ par

/-- An FI word (R44). -/
def fiw (x : Nat) (p : BitVec 3) (d : BitVec 9) (a b : BitVec 12) (i : BitVec 17) : W64 :=
  0#2 ++ BitVec.ofNat 9 (0x100 + x) ++ p ++ d ++ a ++ b ++ i

/-- An F or FI word of opcode `x` by its sources. -/
def encArgs (x : Nat) (p : BitVec 3) (d : BitVec 9) : FArgs → W64
  | .reg a b c par => fw x p d a.enc b.enc c.enc par
  | .imm a b i => fiw x p d a.enc b.enc i

def encLane (op : LaneOp) (o : FWord) : W64 := encArgs op.code o.pred o.dst.enc o.args

/-- An F word with a mode field in B and `c` in C. -/
def encMode (x : Nat) (o : FMode) (b c : BitVec 12) : W64 := fw x o.pred o.dst.enc o.a.enc b c o.par

def Half.enc (h : Half) : BitVec 31 := BitVec.ofNat 7 h.op.code ++ h.d ++ h.a ++ h.b

/-- An M word (R51). -/
def encM (x : Nat) (o : MWord) : W64 :=
  2#2 ++ BitVec.ofNat 8 x ++ o.pred ++ o.la ++ o.ord.code ++ o.scope.code ++ o.evict ++
    o.data.enc ++ o.base.enc ++ o.index.enc ++ o.off

/-- An X word (R55) with its descriptor and scale fields given. -/
def encX (x : Nat) (desc scale : BitVec 9) (sparse : Bool) (o : XWord) : W64 :=
  2#2 ++ BitVec.ofNat 8 x ++ o.pred ++ o.la ++ desc ++ scale ++ o.selA ++ o.selB ++ o.kcount ++
    o.split ++ 0#2 ++ BitVec.ofBool sparse ++ BitVec.ofBool o.rm ++ BitVec.ofBool o.tb ++
    BitVec.ofBool o.ta ++ BitVec.ofBool o.det ++ BitVec.ofBool o.chain

def encCfg (x : Nat) (o : XCfg) : W64 :=
  2#2 ++ BitVec.ofNat 8 x ++ o.pred ++ o.la ++ 0b100#3 ++ o.desc ++ 0#13 ++ 0#10 ++ o.kind ++
    o.split ++ 0#3 ++ BitVec.ofBool o.rm ++ 0#4

/-- An S word (R56). -/
def encS (op : Nat) (o : SWord) : W64 :=
  2#2 ++ BitVec.ofNat 8 (0xE0 + op) ++ o.pred ++ o.la ++ o.r0 ++ o.r1 ++ o.r2 ++ o.count ++
    o.step0 ++ o.step1 ++ o.step2 ++ o.sub

/-- A K word (R57). -/
def encK (x : Nat) (p : BitVec 3) (a b : BitVec 9) (m : Bool) (i : BitVec 32) : W64 :=
  3#2 ++ BitVec.ofNat 8 x ++ p ++ a ++ b ++ BitVec.ofBool m ++ i

def encBar (x : Nat) (p : BitVec 3) (l : BarLevel) (i : BitVec 4) : W64 :=
  encK x p 0 0 false (0#24 ++ i ++ BitVec.ofNat 4 l.code)

/-- The opcode of a predicate-writing integer compare. -/
def icmpKCode (l us : Bool) : Nat := 0xD2 + 2 * b2n l + b2n us
def fcmpKCode (f : Fmt) : Nat := ((fcmpKTable.find? (·.2 == f)).map (·.1)).getD 0
def frndCode (f : Fmt) : Nat := ((frndTable.find? (·.2 == f)).map (·.1)).getD 0

/-- Opcode of an access size within LD, ST, LDP and STP rows (R78). -/
def Size.code : Size → Nat
  | .b => 0 | .h => 1 | .w => 2 | .d => 3 | .q => 4

/-- Opcode of a load row of base `x` (R78). -/
def ldCode (x : Nat) (z : Size) (sx : Bool) : Nat := if sx then x + 5 + z.code else x + z.code

/-- Opcode of a floating atomic from its base (R78). -/
def afCode (x : Nat) : Fmt → Nat
  | .s => x | .d => x + 1 | .h2 => x + 2 | _ => x + 3

/-- F words. -/
def encodeF : Instr → Option W64
  | .iadd l o => some (encLane (.int .iadd l) o)
  | .isub l o => some (encLane (.int .isub l) o)
  | .imul l o => some (encLane (.int .imul l) o)
  | .imulh us l o => some (encLane (.int (if us then .imulhUs else .imulh) l) o)
  | .imad l o => some (encLane (.int .imad l) o)
  | .imin us l o => some (encLane (.int (if us then .iminUs else .imin) l) o)
  | .imax us l o => some (encLane (.int (if us then .imaxUs else .imax) l) o)
  | .iabs l o => some (encLane (.int .iabs l) o)
  | .idiv l us o => some (encLane (.div false l us) o)
  | .irem l us o => some (encLane (.div true l us) o)
  | .and l o => some (encLane (.int .and l) o)
  | .or l o => some (encLane (.int .or l) o)
  | .xor l o => some (encLane (.int .xor l) o)
  | .andn l o => some (encLane (.int .andn l) o)
  | .shl l o => some (encLane (.int .shl l) o)
  | .shr l o => some (encLane (.int .shr l) o)
  | .sar l o => some (encLane (.int .sar l) o)
  | .rotl l o => some (encLane (.int .rotl l) o)
  | .popc l o => some (encLane (.int .popc l) o)
  | .clz l o => some (encLane (.int .clz l) o)
  | .brev l o => some (encLane (.int .brev l) o)
  | .bfx l us o => some (encLane (.bfx l us) o)
  | .bfi l o => some (encLane (.bfi l) o)
  | .prmt o => some (encLane .prmt o)
  | .mov l o => some (encLane (.mov l) o)
  | .movi l p d i => some (fiw (LaneOp.code (.mov l)) p d.enc 0 0 i)
  | .movh p d a i => some (fiw 0xF0 p d.enc a.enc 0 (0#1 ++ i))
  | .lea l o => some (encLane (.lea l) o)
  | .idx2 o => some (encLane .idx2 o)
  | .icmp l us o => some (encLane (.icmp l us) o)
  | .icmpK l us k o => some (encArgs (icmpKCode l us) o.pred (0#6 ++ k) o.args)
  | .sel l o => some (encLane (.sel l) o)
  | .fadd f o => some (encLane (.fp .fadd f) o)
  | .fsub f o => some (encLane (.fp .fsub f) o)
  | .fmul f o => some (encLane (.fp .fmul f) o)
  | .ffma f o => some (encLane (.fp .ffma f) o)
  | .fmin f o => some (encLane (.fp .fmin f) o)
  | .fmax f o => some (encLane (.fp .fmax f) o)
  | .frcp f o => some (encLane (.fu .frcp f) o)
  | .frsq f o => some (encLane (.fu .frsq f) o)
  | .fsqrt f o => some (encLane (.fu .fsqrt f) o)
  | .fdiv f o => some (encLane (.fu .fdiv f) o)
  | .fex2 f o => some (encLane (.fu .fex2 f) o)
  | .flg2 f o => some (encLane (.fu .flg2 f) o)
  | .fsin f o => some (encLane (.fu .fsin f) o)
  | .fcos f o => some (encLane (.fu .fcos f) o)
  | .fldx f o => some (encLane (.fldx f) o)
  | .frnd f rm o => some (encMode (frndCode f) o (BitVec.ofNat 12 rm.code) 0)
  | .fcmp f o => some (encLane (.fcmp f) o)
  | .fcmpK f k o => some (encArgs (fcmpKCode f) o.pred (0#6 ++ k) o.args)
  | .fcls f o => some (encLane (.fcls f) o)
  | .lshfl o => some (encArgs 0xD8 o.pred o.dst.enc o.args)
  | .lvote m o => some (encMode 0xD9 o (BitVec.ofNat 12 m.code) 0)
  | .lscan l op excl o =>
    some (encMode (if l then 0xDC else 0xDA) o (BitVec.ofNat 12 (op.code + 16 * b2n excl)) 0)
  | .lred l op o => some (encMode (if l then 0xDD else 0xDB) o (BitVec.ofNat 12 op.code) 0)
  | .cvt src dst rm us o =>
    some (encMode 0xE0 o (BitVec.ofBool us ++ BitVec.ofNat 3 rm.code ++ BitVec.ofNat 4 dst.code ++
      BitVec.ofNat 4 src.code) 0)
  | .cvts src dst o c =>
    some (encMode 0xE1 o (0#4 ++ BitVec.ofNat 4 dst.code ++ BitVec.ofNat 4 src.code) c.enc)
  | .qseed p a => some (fw 0xED p 0 a.enc12 0 0 0)
  | .qscl f o => some (encMode 0xE8 o (BitVec.ofNat 12 f.code) 0)
  | .qpk4 o => some (encArgs 0xE9 o.pred o.dst.enc o.args)
  | .qpk8 e5 o => some (encArgs 0xEA o.pred o.dst.enc o.args ||| BitVec.ofNat 64 (32 * b2n e5))
  | .qunp f o => some (encArgs 0xEB o.pred o.dst.enc o.args ||| BitVec.ofNat 64 (32 * f.code))
  | .qhad n inv o c => some (encMode 0xEC o (0#9 ++ BitVec.ofBool inv ++ n) c.enc12)
  | _ => none

/-- M words and S words. -/
def encodeM : Instr → Option W64
  | .swadd o => some (encS 0 o)
  | .swmul o => some (encS 1 o)
  | .swfma o => some (encS 2 o)
  | .swmax o => some (encS 3 o)
  | .swmin o => some (encS 4 o)
  | .swcvt o => some (encS 5 o)
  | .swexp o => some (encS 6 o)
  | .swsum o => some (encS 7 o)
  | .swcpy o => some (encS 8 o)
  | .swset o => some (encS 9 o)
  | .ld z sx o => some (encM (ldCode 0x00 z sx) o)
  | .st z o => some (encM (0x08 + z.code) o)
  | .ldp z sx o => some (encM (ldCode 0x10 z sx) o)
  | .stp z o => some (encM (0x18 + z.code) o)
  | .pref o => some (encM 0x20 o)
  | .wb o => some (encM 0x21 o)
  | .inv o => some (encM 0x22 o)
  | .fence o => some (encM 0x23 o)
  | .wsig d o => some (encM (0x24 + b2n d) o)
  | .waitln o => some (encM 0x26 o)
  | .aadd d o => some (encM (0x40 + b2n d) o)
  | .amin us d o => some (encM (0x42 + 2 * b2n us + b2n d) o)
  | .amax us d o => some (encM (0x46 + 2 * b2n us + b2n d) o)
  | .aand d o => some (encM (0x4A + b2n d) o)
  | .aor d o => some (encM (0x4C + b2n d) o)
  | .axor d o => some (encM (0x4E + b2n d) o)
  | .axch d o => some (encM (0x50 + b2n d) o)
  | .acas d o => some (encM (0x52 + b2n d) o)
  | .acasQ o => some (encM 0x5A o)
  | .ainc d o => some (encM (0x54 + b2n d) o)
  | .afadd f o => some (encM (afCode 0x56 f) o)
  | .redAdd d o => some (encM (0x60 + b2n d) o)
  | .redMin us d o => some (encM (0x62 + 2 * b2n us + b2n d) o)
  | .redMax us d o => some (encM (0x66 + 2 * b2n us + b2n d) o)
  | .redAnd d o => some (encM (0x6A + b2n d) o)
  | .redOr d o => some (encM (0x6C + b2n d) o)
  | .redXor d o => some (encM (0x6E + b2n d) o)
  | .redInc d o => some (encM (0x74 + b2n d) o)
  | .redFadd f o => some (encM (afCode 0x76 f) o)
  | .topen o => some (encM 0x80 o)
  | .tacqR o => some (encM 0x81 o)
  | .tacqW o => some (encM 0x82 o)
  | .trel o => some (encM 0x83 o)
  | .tsplit o => some (encM 0x84 o)
  | .tjoin o => some (encM 0x85 o)
  | .tclose o => some (encM 0x86 o)
  | .tqry o => some (encM 0x87 o)
  | .cpy o => some (encM 0xA0 o)
  | .gath o => some (encM 0xA1 o)
  | .scat o => some (encM 0xA2 o)
  | .coll o => some (encM 0xA3 o)
  | .ftst o => some (encM 0xA8 o)
  | .fwt o => some (encM 0xA9 o)
  | .fcan o => some (encM 0xAA o)
  | _ => none

/-- P, X and K words. -/
def encodeK : Instr → Option W64
  | .pairWord h0 h1 => some (1#2 ++ h0.enc ++ h1.enc)
  | .mma f o => some (encX f.code (0b100#3 ++ o.desc) (0#1 ++ o.scale) false o)
  | .mmsp f o => some (encX f.code (0b100#3 ++ o.desc) (0#1 ++ o.scale) true o)
  | .mzero o => some (encCfg 0xD0 o)
  | .mcfg o => some (encCfg 0xD1 o)
  | .mres sp o => some (encX 0xD2 0 0 sp o)
  | .bra t => some (encK 0x00 0 0 0 false t)
  | .brc p neg j t => some (encK 0x01 p (j.extractLsb' 9 9) (j.extractLsb' 0 9) neg t)
  | .jtbl p i tb j n => some (encK 0x02 p i.enc (Reg.enc (.sreg tb)) false (j ++ n))
  | .call l t => some (encK 0x03 0 (Reg.enc (.sreg l)) 0 false t)
  | .ret a => some (encK 0x04 0 (Reg.enc (.sreg a)) 0 false 0)
  | .join => some (encK 0x05 0 0 0 false 0)
  | .loopb c t => some (encK 0x06 0 (Reg.enc (.sreg c)) 0 false t)
  | .exit p => some (encK 0x07 p 0 0 false 0)
  | .idem m => some (encK 0x08 0 0 0 false m)
  | .nop p => some (encK 0x09 p 0 0 false 0)
  | .ipref p n t => some (encK 0x0A p (0#5 ++ n) 0 false t)
  | .bara p l i => some (encBar 0x20 p l i)
  | .barw p l i => some (encBar 0x21 p l i)
  | .bars p l i => some (encBar 0x22 p l i)
  | .qbind p q (.imm e) => some (encK 0x23 p (queueEnc q) 0 false e)
  | .qbind p q (.reg m) => some (encK 0x23 p (queueEnc q) (Reg.enc (.sreg m)) true 0)
  | .qclose p q => some (encK 0x24 p (queueEnc q) 0 false 0)
  | .qstat p d q => some (encK 0x25 p (Reg.enc (.sreg d)) (queueEnc q) false 0)
  | .queuePush p q s => some (encK 0x43 p (queueEnc q) s.enc false 0)
  | .queuePop p d q => some (encK 0x42 p d.enc (queueEnc q) false 0)
  | .yield p n => some (encK 0x26 p 0 0 false (0#16 ++ n))
  | .trap p c => some (encK 0x40 p 0 0 false (0#16 ++ c))
  | .bkpt p c => some (encK 0x49 p 0 0 false (0#16 ++ c))
  | .svc p d a n => some (encK 0x41 p (Reg.enc (.sreg d)) (Reg.enc (.sreg a)) false (0#16 ++ n))
  | .pagesync p d a => some (encK 0x41 p (Reg.enc (.sreg d)) (Reg.enc (.sreg a)) false 0x8000)
  | .rdsr p d n => some (encK 0x42 p d.enc 0 false (0#24 ++ n))
  | .wrsr p n s => some (encK 0x43 p 0 s.enc false (0#24 ++ n))
  | .resume p i => some (encK 0x43 p 0 (Reg.enc (.const i)) false 9)
  | .abort p i => some (encK 0x43 p 0 (Reg.enc (.const i)) false 9)
  | .rdct p d c => some (encK 0x44 p (Reg.enc (.sreg d)) 0 false (BitVec.ofNat 32 c.code))
  | .launch p d b i => some (encK 0x45 p d.enc (Reg.enc (.sreg b)) false (0#23 ++ i.enc))
  | .quotaGive p n => some (encK 0x46 p 0 0 false (0#27 ++ n))
  | .quotaTake p n => some (encK 0x47 p 0 0 false (0#27 ++ n))
  | .isync p => some (encK 0x48 p 0 0 false 0)
  | _ => none

/-- The word of a device instruction; none for a Beam instruction or an event. -/
def encode (i : Instr) : Option W64 :=
  match encodeF i with
  | some w => some w
  | none =>
    match encodeM i with
    | some w => some w
    | none => encodeK i

/-- A Beam word (R387). -/
def bw (op : Nat) (d a : BReg) (x : BitVec 18) : W32 := BitVec.ofNat 6 op ++ d ++ a ++ x

/-- The word of a Beam instruction; none for a device instruction or an event. -/
def encodeBeam : Instr → Option W32
  | .beamLdi d i => some (BitVec.ofNat 6 0x01 ++ d ++ i)
  | .beamMov d a => some (bw 0x02 d a 0)
  | .beamAdd d a x => some (bw 0x03 d a x.enc)
  | .beamSub d a x => some (bw 0x04 d a x.enc)
  | .beamMul d a x => some (bw 0x05 d a x.enc)
  | .beamAnd d a x => some (bw 0x06 d a x.enc)
  | .beamOr d a x => some (bw 0x07 d a x.enc)
  | .beamXor d a x => some (bw 0x08 d a x.enc)
  | .beamShl d a x => some (bw 0x09 d a x.enc)
  | .beamShr d a x => some (bw 0x0A d a x.enc)
  | .beamMin d a x => some (bw 0x0B d a x.enc)
  | .beamMax d a x => some (bw 0x0C d a x.enc)
  | .beamClt d a x => some (bw 0x0D d a x.enc)
  | .beamCeq d a x => some (bw 0x0E d a x.enc)
  | .beamBf a f => some (bw 0x0F 0 a (0#10 ++ f))
  | .beamJf f => some (bw 0x10 0 0 (0#10 ++ f))
  | .beamLoop n => some (bw 0x11 0 0 (0#10 ++ n))
  | .beamEndl => some (bw 0x12 0 0 0)
  | .beamCtr d a c => some (bw 0x13 d a (1#1 ++ c))
  | .beamMrd d a x => some (bw 0x14 d a x.enc)
  | .beamMwr d a x => some (bw 0x15 d a x.enc)
  | .beamDec d => some (bw 0x16 d 0 0)
  | .beamRet => some (bw 0x17 0 0 0)
  | _ => none

/-! The host's probe -/

/-- The words of spec/opcode_table.json: 32 bits are a Beam word, 64 bits a device word. -/
def decodeTableWord (nbits w : Nat) : Option Instr :=
  if nbits = 32 then
    match decodeBeam (BitVec.ofNat 32 w) with
    | .ok i => some i
    | .error _ => none
  else if nbits = 64 then
    match decode (BitVec.ofNat 64 w) with
    | .ok i => some i
    | .error _ => none
  else none

end Sys2Proof
end

