-- ==== Sys2Proof/Machine/Save.lean ====
section
/-! DEFINITION. The save region of a queue (14_dispatch_lanterns.md R377; 16_recovery.md R442): where a group's part lies, and the hardware's reads and writes of it under the tenant's translation. -/

namespace Sys2Proof.Machine

/-- Rq: the largest number of lane registers one group of a block can hold (R377). -/
def Hdr.rq (h : Hdr) : Nat := min 256 (h.groups * (8 * h.regs))

/-- The size of a group's part, and of a block slot, in bytes (R377, R442). -/
def partBytes (h : Hdr) : Nat := 104 * 1024 + 4 * h.width * h.rq + h.lp * 16 * h.width
def slotBytes (h : Hdr) : Nat :=
  roundUp (16 * 1024 + h.groups * partBytes h + h.scratch * 4096 + 4 * (h.qmem * 16384)) 4096

/-- The grid area of a save region (R377). -/
def gridArea (h : Hdr) : Nat := 64 * 1024 + 8 * (h.dstore * 2 ^ 23)

/-- The address of a group's part of its block's slot (R442). -/
def partAt (h : Hdr) (slot gi : Nat) : Nat := slot + 16 * 1024 + gi * partBytes h
/-- The scratchpad image, and the quad memory image, of a slot (R442). -/
def scratchAt (h : Hdr) (slot : Nat) : Nat := partAt h slot h.groups
def qmemAt (h : Hdr) (slot : Nat) : Nat := scratchAt h slot + h.scratch * 4096

/-- Map one access of the save region for a group; a translation fault sleeps, any other fault aborts the grid with
Save Fault (R442). -/
def mapSave (gk va : Nat) (write : Bool) : Op VRef := do
  let b ← blockAt (blkOfGrp gk)
  let s ← get
  match ← mapLane gk (tenantOf b.grid) va ⟨[0], !write, write, 8, false, none⟩ (if write then 2 else 1) with
  | .ok r =>
    if write && (tenureConflict s r (selfWho s gk) 8).isSome then
      abortGrid b.grid 0x23
      finish
    else return r
  | .denied =>
    abortGrid b.grid 0x23
    finish
  | .sleep w =>
    let t := (← get).cycle
    modGroup gk fun g => { g with asleep := some ⟨w, t⟩ }
    finish

/-- Write one word of the save region, a relaxed store of group scope (R442). -/
def saveWord (gk va x : Nat) : Op Unit := do
  let r ← mapSave gk va true
  storeAt (coreOfGrp gk) r 8 x 0

def saveByte (gk va x : Nat) : Op Unit := do
  let r ← mapSave gk va true
  storeAt (coreOfGrp gk) r 1 x 0

/-- Read one word; an uncorrectable error aborts the grid with Save Fault (R451). -/
def loadWord (gk va : Nat) : Op Nat := do
  let r ← mapSave gk va false
  let s ← get
  if s.poison.mem.any (fun w => r.pa < 32 * w + 32 && 32 * w < r.pa + 8) then
    let b ← blockAt (blkOfGrp gk)
    note (.word r.pa 0)
    abortGrid b.grid 0x23
    finish
  else
    loadOne (coreOfGrp gk) r (selfWho s gk) 8 0

/-- Write words from an address on. -/
def saveWords (gk va : Nat) (xs : List Nat) : Op Unit :=
  xs.zipIdx.forM fun (x, i) => saveWord gk (va + 8 * i) x

def loadWords (gk va n : Nat) : Op (List Nat) :=
  (List.range n).mapM fun i => loadWord gk (va + 8 * i)

/-- The address of the group's part of the save region. -/
def myPart (gk : Nat) : Op Nat := do
  let b ← blockAt (blkOfGrp gk)
  let grid ← need ((← get).gridOf b.grid)
  let h ← need grid.hdr
  return partAt h b.save (gk % 64)

/-- Perform the hardware's waiting writes of a group's part (words, or one byte at an offset that is no multiple of 8), before the group's
next word. An uncorrectable error in the group's control area aborts the grid with Frame Lost (R442, R457). -/
def flushDue (gk : Nat) : Op Unit := do
  let g ← groupAt gk
  if (← get).poison.ctl.contains gk then
    let b ← blockAt (blkOfGrp gk)
    note (.whole ⟨0, coreOfGrp gk, 3, 1, 0xFFFF, 0, 0⟩)
    abortGrid b.grid 0x22
    finish
  else if g.due.isEmpty then pure ()
  else
    let p ← myPart gk
    g.due.forM fun (o, xs) => if o % 8 = 0 then saveWords gk (p + o) xs else saveByte gk (p + o) (xs.headD 0)
    modGroup gk fun g => { g with due := [] }

/-! The divergence stack (12_groups_progress.md R326, R327) -/

/-- A stack entry. -/
structure DivEntry where
  pc      : Nat
  mask    : Mask
  link    : Option Nat
  pending : Nat
  path    : Bool
deriving DecidableEq, Repr

/-- The four words of an entry (R326). -/
def DivEntry.words (e : DivEntry) : List Nat :=
  [e.pc, e.mask.toNat % 2 ^ 64, e.mask.toNat / 2 ^ 64,
   joinWord e.link + e.pending * 2 ^ 32 + (if e.path then 2 else 1) * 2 ^ 48]
def DivEntry.ofWords (xs : List Nat) : DivEntry :=
  let w := xs.getD 3 0
  { pc := xs.getD 0 0
    mask := BitVec.ofNat 128 (xs.getD 1 0 + xs.getD 2 0 * 2 ^ 64)
    link := if w % 2 ^ 32 = 0xFFFFFFFF then none else some (w % 2 ^ 32)
    pending := bits w 47 32
    path := bits w 55 48 = 2 }

/-- The address of an entry; bits 2:0 of a program counter are 0 (02_words.md R36; log 42). -/
def DivEntry.at (e : DivEntry) : W64 := BitVec.ofNat 64 e.pc &&& ~~~7

/-- Entry i: in the control area, or in the overflow area (R327). -/
def getEntry (gk i : Nat) : Op DivEntry := do
  if i < 32 then
    let g ← groupAt gk
    return DivEntry.ofWords ((List.range 4).map fun j => (tget 0 g.ctl (128 + 4 * i + j)).toNat)
  else
    let p ← myPart gk
    return DivEntry.ofWords (← loadWords gk (p + 0x1400 + 32 * (i - 32)) 4)

def setEntry (gk i : Nat) (e : DivEntry) : Op Unit := do
  if i < 32 then modGroup gk fun g => { g with ctl := putWords g.ctl (128 + 4 * i) e.words }
  else
    let p ← myPart gk
    saveWords gk (p + 0x1400 + 32 * (i - 32)) e.words

end Sys2Proof.Machine
end

