-- ==== Sys2Proof/Machine/MatUnit.lean ====
section
/-! DEFINITION. The matrix unit and the accumulators of the L2 slices: tile shapes, operand values, block sums and partials (07_matrix.md R169 to R180, R193 to R195), contributions and their merging (R185 to R191). -/

namespace Sys2Proof.Machine

/-! Shapes (R169, R172) -/

/-- The K-block. -/
def matKB (f : XFmt) : Nat := if f = .d then 8 else 32
/-- Bits of an operand element. -/
def matBits (f : XFmt) : Nat :=
  match f with
  | .d => 64
  | .bf | .h => 16
  | .z4 => 4
  | _ => 8
/-- Fields of the fourth descriptor register, in bytes (R171). -/
def cstrOf (d : List Nat) : Nat := 16 * bits (d.getD 3 0) 59 40
def bstrOf (d : List Nat) : Nat := 16 * bits (d.getD 3 0) 39 20
def astrOf (d : List Nat) : Nat := 16 * bits (d.getD 3 0) 19 0

/-- The address of an operand element and its nibble: `r` the row of A or the column of B (R172). -/
def elemAddr (f : XFmt) (base str : Nat) (trans : Bool) (r k : Nat) : Nat :=
  if f = .z4 then base + r * str + k / 2
  else if trans then base + k * str + r * (matBits f / 8) else base + r * str + k * (matBits f / 8)

/-! Reading operands -/

/-- Why the unit stops before a row: the group sleeps, or a trap. -/
inductive XStop
  | sleep (w : Wait)
  | trap (t : TrapInfo)
deriving DecidableEq, Repr

/-- One operand access of at most 16 bytes (R192, R197, R198). -/
def xRead (c : LocalCtx) (a n : Nat) : Op (Except XStop Nat) := do
  let s ← get
  let trap (k : Nat) : XStop := .trap { cause := k, addr := BitVec.ofNat 64 a }
  if spaceOf a = 0 then
    match ← mapLane c.gk (tenantOf c.b.grid) a ⟨spacesSig, true, false, n, false, none⟩ 17 with
    | .sleep w => return .error (.sleep w)
    | .denied => return .error (trap 0x04)
    | .ok r =>
      if (← get).poison.mem.any (fun w => r.pa < 32 * w + 32 && 32 * w < r.pa + n) then return .error (trap 0x08)
      else
        return .ok (← loadOne (coreOfGrp c.gk) r (selfWho (← get) c.gk) n 0)
  else if !c.valid s a n 0 then return .error (trap 0x02)
  else if c.stale s a n 0 then return .error (trap 0x05)
  else if c.bad s a n 0 then return .error (trap 0x08)
  else return .ok (c.read s a n 0)

/-- Operations that may stop, in order. -/
def xList {α β : Type} (f : α → Op (Except XStop β)) : List α → Op (Except XStop (List β))
  | [] => pure (.ok [])
  | x :: xs => do
    match ← f x with
    | .error e => return .error e
    | .ok y =>
      match ← xList f xs with
      | .error e => return .error e
      | .ok ys => return .ok (y :: ys)

/-- Scale bytes and special bytes of the snapshot (R175): register `b + q`, lane l, byte j. -/
def scaleByte (scales : List Nat) (q l j : Nat) : Nat := scales.getD (32 * q + l) 0 / 2 ^ (8 * j) % 256

/-- The decoded value of an element code (R177): X and Y its scale and special byte. -/
def matVal (f : XFmt) (code x y : Nat) : FVal :=
  match f with
  | .d => fdec .f64 code
  | .bf => fdec .bf16 code
  | .h => fdec .f16 code
  | .e4 => fdec .e4m3 code
  | .e5 => fdec .e5m2 code
  | .i8 => .ofInt (sext code 8)
  | .z4 => decodeZ4 code x y
  | .e4sc => decodeBlk .e4m3 code x
  | .e5sc => decodeBlk .e5m2 code x

/-- The code of an element at an address. -/
def elemCode (f : XFmt) (k x : Nat) : Nat := if f = .z4 then x / 2 ^ (4 * (k % 2)) % 16 else x

/-- The K-block `kb` of A's row, or B's column, number r: pairs of k in the block and value. -/
def denseBlock (c : LocalCtx) (w : MatWord) (isA : Bool) (r kb : Nat) : Op (Except XStop (List (Nat × FVal))) :=
  let n := max 1 (matBits w.f / 8)
  let q0 := if isA then 0 else 8
  let j := (if isA then w.selA else w.selB) + kb
  let x := scaleByte w.scales (q0 + r / 32) (r % 32) j
  let y := scaleByte w.scales (q0 + 4 + r / 32) (r % 32) j
  xList (fun i => do
    let k := kb * matKB w.f + i
    let a := if isA then elemAddr w.f (w.desc.getD 0 0) (astrOf w.desc) w.ta r k
      else elemAddr w.f (w.desc.getD 1 0) (bstrOf w.desc) w.tb r k
    match ← xRead c a n with
    | .error e => return .error e
    | .ok v => return .ok (i, matVal w.f (elemCode w.f k v) x y)) (List.range (matKB w.f))

/-- The live columns of a span, and the address of a column's record (R194). -/
def liveBefore (bitmap j : Nat) : Nat := ((List.range j).filter fun i => bitOf bitmap i).length
def recordAt (w : MatWord) (span bitmap j : Nat) : Nat :=
  w.desc.getD 0 0 + span * astrOf w.desc + 16 + liveBefore bitmap j * (16 + 64 * (matBits w.f / 8))

/-- A row of sparse A in one K-block (R194, R195): none where every column of the block is dead. -/
def sparseBlock (c : LocalCtx) (w : MatWord) (r kb : Nat) : Op (Except XStop (Option (List (Nat × FVal)))) := do
  let span := kb / 4
  let z := matBits w.f / 8
  match ← xRead c (w.desc.getD 0 0 + span * astrOf w.desc) 16 with
  | .error e => return .error e
  | .ok bitmap =>
    let cols := (List.range 32).filter fun i => bitOf bitmap (kb % 4 * 32 + i)
    if cols.isEmpty then return .ok none
    else
      let got ← xList (fun i => do
        let p := recordAt w span bitmap (kb % 4 * 32 + i)
        match ← xRead c p 16 with
        | .error e => return .error e
        | .ok idx =>
          let ts := [2 * (r / 4), 2 * (r / 4) + 1].filter fun t => idx / 2 ^ (2 * t) % 4 = r % 4
          xList (fun t => do
            match ← xRead c (p + 16 + t * z) z with
            | .error e => return .error e
            | .ok v => return .ok (i, matVal w.f v 0 0)) ts) cols
      match got with
      | .error e => return .error e
      | .ok vs => return .ok (some vs.flatten)

/-- A row of A over all K-blocks. -/
def rowOfA (c : LocalCtx) (w : MatWord) (r : Nat) : Op (Except XStop (List (Option (List (Nat × FVal))))) :=
  xList (fun kb => do
    if w.sparse then sparseBlock c w r kb
    else match ← denseBlock c w true r kb with
      | .error e => return .error e
      | .ok x => return .ok (some x)) (List.range w.kcount)

/-- All of B: by K-block, then by column, then by k. -/
def allOfB (c : LocalCtx) (w : MatWord) : Op (Except XStop (List (List (List FVal)))) :=
  xList (fun kb => xList (fun col => do
    match ← denseBlock c w false col kb with
    | .error e => return .error e
    | .ok x => return .ok (x.map (·.2))) (List.range (matM w.f))) (List.range w.kcount)

/-! Sums (R178 to R180) -/

/-- An accumulation step: `a` is none where nothing stands there yet. NV when a NaN comes of operands that are not. -/
def accStep (kind : Nat) (a : Option Nat) (b : Nat) : Res :=
  match a with
  | none => (b, .none)
  | some a =>
    if kind = 2 then ((a + b) % 2 ^ 32, .none)
    else
      let f : NF := if kind = 1 then .f64 else .f32
      let x := fdec f a
      let y := fdec f b
      roundRes f [x, y] (exactSum [x, y])

/-- The value of an integer element. -/
def intVal : FVal → Int
  | .fin n m _ => if n then -(m : Int) else m
  | _ => 0

/-- One block sum from the products' factors: NV when a product, or else the sum, is the first NaN of its operands (R180). -/
def blockSum (kind : Nat) (ps : List (FVal × FVal)) : Res :=
  if kind = 2 then (wrap 32 ((ps.map fun p => intVal p.1 * intVal p.2).foldl (· + ·) 0), .none)
  else
    let f : NF := if kind = 1 then .f64 else .f32
    let ts := ps.map fun p => p.1.mul p.2
    let t := exactSum ts
    let r := fround f .rne t
    let fresh := (ps.zip ts).any fun x => x.2.isNan && !x.1.1.isNan && !x.1.2.isNan
    (r.code, { nv := fresh || (t.isNan && !ts.any (·.isNan)), of := r.of })

/-- One element of a row over the K-blocks (R178): `as` the row of A, `b` B's values. -/
def elemSum (kind : Nat) (col : Nat) : List (Option (List (Nat × FVal))) → List (List (List FVal)) → Option Nat → Option Nat × Ev
  | some a :: as, b :: bs, p =>
    let bc := b.getD col []
    let s := blockSum kind (a.map fun x => (x.2, bc.getD x.1 .nan))
    let q := accStep kind p s.1
    let rest := elemSum kind col as bs (some q.1)
    (rest.1, s.2.or (q.2.or rest.2))
  | none :: as, _ :: bs, p => elemSum kind col as bs p
  | _, _, p => (p, .none)

/-- A row's products enter the partial. -/
def addRow (kind : Nat) (n r : Nat) (as : List (Option (List (Nat × FVal)))) (bs : List (List (List FVal))) (p : Tab Nat) :
    Tab Nat × Ev :=
  (List.range n).foldl (fun (acc : Tab Nat × Ev) col =>
    match elemSum kind col as bs (tlook (128 * r + col) acc.1) with
    | (some x, e) => (tset (128 * r + col) x acc.1, acc.2.or e)
    | (none, e) => (acc.1, acc.2.or e)) (p, .none)

/-- SB: a scale byte of 0xFF among those a row of a word reads (R180). -/
def scaleBad (w : MatWord) (r : Nat) : Bool :=
  w.f.scaled && (List.range w.kcount).any fun k =>
    scaleByte w.scales (r / 32) (r % 32) (w.selA + k) = 0xFF ||
    (List.range 128).any fun col => scaleByte w.scales (8 + col / 32) (col % 32) (w.selB + k) = 0xFF

/-! The slice -/

/-- The L2 slices that a partition owns on a die (R185). -/
def l2Of (s : State) (p die : Nat) : List Nat := (s.part p).own.l2.filter fun x => x / Config.slicesPerDie = die

/-- The owning slice of an accumulator at a physical address (R185). -/
def owningSlice (s : State) (t die pa : Nat) : Option Nat :=
  let ls := l2Of s (s.partOf t) die
  if ls.isEmpty then none else ls[pa / 256 % ls.length]?

/-- The pieces of an accumulator row that lie in one page: address and length (R186). -/
def rowPieces (caddr cstr r : Nat) : List Nat := [caddr + r * cstr, caddr + r * cstr + 256]

/-- The checks of R186 on one piece of 256 bytes, and its mapping; an addition reads the piece, MZERO only writes it (R187,
10_memory_ops.md R271). A write past the jump cap waits (09_tiles_leases.md R258). -/
def accMap (gk t a : Nat) (reads : Bool) : Op (Except XStop VRef) := do
  let trap (k x : Nat) : XStop := .trap { cause := k, addr := BitVec.ofNat 64 x }
  match ← mapLane gk t a ⟨[0], reads, true, 256, false, none⟩ (if reads then 19 else 2) with
  | .sleep w => return .error (.sleep w)
  | .denied => return .error (trap 0x04 a)
  | .ok r =>
    if !r.e.l2 || r.e.pol = 2 then return .error (trap 0x0A a)
    else
      let s ← get
      match tenureConflict s r (selfWho s gk) 256 with
      | some x => return .error (trap 0x06 x)
      | none =>
        if reads && s.poison.mem.any (fun w => r.pa < 32 * w + 32 && 32 * w < r.pa + 256) then return .error (trap 0x08 a)
        else if (List.range 4).any fun i => capped s { r with va := r.va + 64 * i, pa := r.pa + 64 * i } (s.lc (coreOfGrp gk)) then
          return .error (.sleep .home)
        else return .ok r

/-- The started rows of a partial. -/
def startedRows (p : Tab Nat) : List Nat :=
  (List.range 128).filter fun r => p.any fun e => e.1 / 128 = r

/-- The new bytes of a sector of an accumulator: `f` gives the new value of the element of `z` bytes at an offset from its old one. -/
def sectorSum (z : Nat) (old : Nat → Nat) (f : Nat → Nat → Option Res) : Nat × Ev :=
  (List.range (64 / z)).foldl (fun (acc : Nat × Ev) i =>
    let v := (f (z * i) (old (z * i))).getD (old (z * i), .none)
    (acc.1 + v.1 * 2 ^ (8 * z * i), acc.2.or v.2)) (0, .none)

/-- Write the elements of an accumulator piece, each one read-modify-write at the slice with the clock of the core that delivered it,
which the reply raises as it does for that core's other reductions (R185, R192; 09_tiles_leases.md R255). -/
def accPiece (core : Nat) (r : VRef) (z : Nat) (f : Nat → Nat → Option Res) : Op Ev := do
  let e ← (List.range 4).foldlM (fun (e : Ev) i => do
    let x : VRef := { r with va := r.va + 64 * i, pa := r.pa + 64 * i }
    let s ← get
    let v := sectorSum z (fun o => rdBytes s.mem z (x.pa + o)) fun o old => f (64 * i + o) old
    saveSector x 64
    let w ← homeWrite x 64 v.1 (s.lc core)
    written core x w
    return e.or v.2) .none
  staleLines core r.pa 256
  lineWritten core r.pa 256
  return e

/-- Events of an instruction count once, on the core that delivers it (R180, 04_numbers.md R117). -/
def countFresh (core : Nat) (new had : Ev) : Op Unit :=
  if new.less had = .none then pure () else modCore core fun k => { k with events := k.events.count (new.less had) }

/-- Add a partial to its accumulator, all of it or nothing (R185, R186); `had` are the events that its word has counted. -/
def addPartial (gk t kind caddr cstr : Nat) (p : Tab Nat) (had : Ev) : Op (Except XStop Unit) := do
  let z := kindBytes kind
  let core := coreOfGrp gk
  let pieces := (startedRows p).flatMap fun r => (rowPieces caddr cstr r).zipIdx.map fun (a, h) => (r, h, a)
  match ← xList (fun (x : Nat × Nat × Nat) => accMap gk t x.2.2 true) pieces with
  | .error e => return .error e
  | .ok refs =>
    let ev ← (pieces.zip refs).foldlM (fun (e : Ev) (x, r) => do
      let v ← accPiece core r z fun o old =>
        (tlook (128 * x.1 + (256 * x.2.1 + o) / z) p).map fun b => accStep kind (some old) b
      return e.or v) .none
    countFresh core ev had
    return .ok ()

/-! Records and merging -/

def recsAt (s : State) (slice : Nat) : List AccRec := tget [] s.accs slice
def recAt (s : State) (slice t caddr : Nat) : Option AccRec :=
  (recsAt s slice).find? fun r => r.tenant = t && r.caddr = caddr
def modRec (slice t caddr : Nat) (f : AccRec → AccRec) : Op Unit :=
  modify fun s => { s with accs := tput [] s.accs slice ((recsAt s slice).map fun r =>
    if r.tenant = t && r.caddr = caddr then f r else r) }

/-- Held contributions of a slice that stand in its merge buffers (R190). -/
def buffersUsed (s : State) (slice : Nat) : Nat :=
  ((recsAt s slice).flatMap fun r => r.held.filter fun h =>
    match tlook h.2 s.contribs with
    | some c => !c.spilled
    | none => false).length

/-- The spill area's bytes of a contribution (R190): one word of the tile after another. -/
def spillAddr (r : AccRec) (j : Nat) : Nat := r.spill + (j - 1) * (if r.kind = 1 then 32768 else 65536)

/-- One access of the slice to 256 bytes of a spill area, a relaxed access of die scope (R190); none where the page has no mapping, or
another agent's tenure forbids the write (log 39). -/
def spillMap (gk t a : Nat) (write : Bool) : Op (Option VRef) := do
  match ← mapLane gk t a ⟨[0], !write, write, 256, false, none⟩ (if write then 2 else 1) with
  | .ok r =>
    let s ← get
    return if write && (tenureConflict s r (selfWho s gk) 256).isSome then none else some r
  | _ => return none
def spillPut (core : Nat) (r : VRef) (x : Nat) : Op Unit := do
  let die := dieOfCore core
  if r.loose && r.e.l2 then dirtyWrite (.l2 die) die r 64 x r.e.evp
  else
    saveSector r 64
    let w ← homeWrite r 64 x ((← get).lc core)
    written core r w
def spillGet (core : Nat) (whos : List Agent) (r : VRef) : Op Nat := do
  let s ← get
  if r.loose && r.e.l2 then return (← plainFill (.l2 (dieOfCore core)) (dieOfCore core) r r.e.evp).bytes 0 64
  else return homeRead s r whos 64

/-- All of some accesses, or none of them. -/
def allMapped {α β : Type} (f : α → Op (Option β)) : List α → Op (Option (List β))
  | [] => pure (some [])
  | x :: xs => do
    match ← f x with
    | none => return none
    | some y => return (← allMapped f xs).map (y :: ·)

/-- Move a held contribution's elements to the spill area, or read them back; without a mapping for all of it the contribution
stays in the slice (log 39). -/
def spillOut (gk t : Nat) (r : AccRec) (j : Nat) (p : Tab Nat) : Op Bool := do
  let z := kindBytes r.kind
  let a (i : Nat) : Nat := spillAddr r j + 256 * i
  match ← allMapped (fun (i : Nat) => spillMap gk t (a i) true) (List.range (kindRows r.kind * 2)) with
  | none => return false
  | some rs =>
    rs.zipIdx.forM fun (x, i) => (List.range 4).forM fun j => do
      let v := (sectorSum z (fun _ => 0) fun o _ =>
        (tlook (128 * (i / 2) + (256 * (i % 2) + 64 * j + o) / z) p).map fun v => (v, .none)).1
      spillPut (coreOfGrp gk) { x with va := x.va + 64 * j, pa := x.pa + 64 * j } v
    return true

def spillBack (gk t : Nat) (r : AccRec) (j : Nat) (p : Tab Nat) : Op (Tab Nat) := do
  let z := kindBytes r.kind
  let a (i : Nat) : Nat := spillAddr r j + 256 * i
  match ← allMapped (fun (i : Nat) => spillMap gk t (a i) false) (List.range (kindRows r.kind * 2)) with
  | none => return p
  | some rs =>
    let whos := selfWho (← get) gk
    let secs ← rs.mapM fun x => (List.range 4).mapM fun j =>
      spillGet (coreOfGrp gk) whos { x with va := x.va + 64 * j, pa := x.pa + 64 * j }
    return p.map fun (k, v) =>
      let o := k % 128 * z
      match secs[k / 128 * 2 + o / 256]? with
      | some x => (k, x.getD (o % 256 / 64) 0 / 2 ^ (8 * (o % 64)) % 2 ^ (8 * z))
      | none => (k, v)

/-! Progress, saved partials and the end of a word -/

/-- ROWPROG after a trap of an X word (R196, R198). -/
def rowprogX (old : W64) (f : XFmt) (rows : Nat) : W64 :=
  BitVec.ofNat 64 (2 ^ 63 + f.code * 2 ^ 48 + rows * 2 ^ 32 + old.toNat % 2 ^ 32)
def rowprogXDone (old : W64) : W64 := old &&& ~~~(BitVec.ofNat 64 (2 ^ 63))

/-- Whether a re-executed word of a format goes on from ROWPROG (R199). -/
def resumes (g : Group) (f : XFmt) : Bool :=
  g.rowprog.getLsbD 63 && bits g.rowprog.toNat 55 48 = f.code

/-- The unit records progress and saves the snapshot, and the partial (R198, R486). -/
def saveMatrix (gk : Nat) (ch : Chain) (word rows : Nat) (deliver : Bool) (ev : Ev) : Op Unit :=
  modGroup gk fun g => { g with
    rowprog := rowprogX g.rowprog ch.fmt rows
    mx := { chain := some ch, deliver := deliver, ev := ev }
    due := g.due ++ saveImage ch word }

/-- XV becomes 0 when a resumed word completes (R199). -/
def clearSaved (gk : Nat) : Op Unit :=
  modGroup gk fun g => { g with mx := {}, rowprog := rowprogXDone g.rowprog }

/-- An operation on the save region that waits un-issues the word in progress. -/
def savedFor {α : Type} (m : Op α) : Op α :=
  tryCatch m fun e => do
    if e = .done then unissue
    throw e

/-- What the matrix save area of a group holds (R199, R444): the snapshot, and the elements of the saved partial's started rows, which
are the ones that were saved (log 73). -/
def restoreMatrix (gk : Nat) (f : XFmt) : Op Chain := do
  let g ← groupAt gk
  let p ← myPart gk
  let z := kindBytes (matKind f)
  let n := matM f
  let halves (xs : List Nat) : List Nat := xs.flatMap fun x => [x % 2 ^ 32, x / 2 ^ 32]
  let scales ← (if f.scaled then loadWords gk (p + 0x19000) 256 else pure [])
  let snap ← loadWords gk (p + 0x19800) 7
  let listed := ((g.mx.chain.map (·.elems)).getD []).map (·.1)
  let elems ← listed.mapM fun k => do
    let o := (k / 128 * n + k % 128) * z
    let x ← loadWord gk (p + 0x9000 + o / 8 * 8)
    return (k, if z = 8 then x else x / 2 ^ (8 * (o % 8)) % 2 ^ 32)
  return {
    fmt := f
    split := (g.mx.chain.map (·.split)).getD 0
    det := (g.mx.chain.map (·.det)).getD false
    desc := snap.take 4
    scales := halves scales
    rows := BitVec.ofNat 128 (snap.getD 5 0 + snap.getD 6 0 * 2 ^ 64)
    elems := elems }

/-- The chain that a group's next X word finds open: its own, or the one with DET = 1 that a trap saved and the return restores (R182). -/
def Group.openChain (g : Group) : Option Chain :=
  match g.chain with
  | some ch => some ch
  | none => if g.handler.isNone then g.kept.filter (·.det) else none
def dropChain (gk : Nat) : Op Unit :=
  modGroup gk fun g => { g with
    chain := none
    kept := if g.chain.isNone && g.handler.isNone then g.kept.filter (!·.det) else g.kept }

/-- Whether a chain that a word closed is still on its way, or held. -/
def closing (s : State) (gk pid : Nat) : Bool := s.contribs.any fun e => e.2.gk = gk && e.2.closes = some pid

/-- A word of the matrix unit completes (R65), once the chain that it closed has been added (R486). -/
def completePend (gk id cause : Nat) : Op Unit := do
  let s ← get
  match tlook gk s.groups with
  | none => pure ()
  | some g =>
    if closing s gk id then
      putGroup gk { g with pend := g.pend.map fun p => if p.id = id then { p with fin := true } else p }
    else
      let fence := g.pend.any fun p => p.id = id && p.fence == .acquire
      putGroup gk { g with pend := g.pend.filter fun p => p.id != id }
      if fence then acquireCore (coreOfGrp gk)
      wakeStalled gk cause
      tryEnter gk

/-- A contribution leaves the slice: added, or discarded by MZERO (R187); its word completes, and what it wrote precedes a later release
of its group (R192). -/
def retireContrib (id : Nat) : Op Unit := do
  match tlook id (← get).contribs with
  | none => pure ()
  | some c =>
    modify fun s => { s with contribs := tdel id s.contribs }
    wakeAll fun _ _ w => w == .matrix
    if (tlook c.gk (← get).groups).isSome then
      if c.resumed then clearSaved c.gk
      match c.pid, c.closes with
      | some p, _ => completePend c.gk p 1
      | none, some p =>
        if (← groupAt c.gk).pend.any fun x => x.id = p && x.fin then completePend c.gk p 1
      | none, none => tryEnter c.gk

/-! Refused contributions -/

/-- The words of a group in its core's matrix unit that have not begun, from outstanding word `p` on. -/
def unbegun (s : State) (gk p : Nat) : List Nat :=
  ((s.core (coreOfGrp gk)).mx.filter fun w => w.gk = gk && p ≤ w.pid && !w.begun).map (·.pid)

/-- Words leave the matrix unit without effect; those behind a trapping one are held (R198). -/
def dropWorks (gk : Nat) (ps : List Nat) : Op Unit :=
  modCore (coreOfGrp gk) fun k => { k with mx := k.mx.filter fun w => !(w.gk = gk && ps.contains w.pid) }
def holdWorks (gk : Nat) (ps : List Nat) : Op Unit := do
  dropWorks gk ps
  ps.forM fun p => holdPend gk p

/-- The trap of an outstanding X word at a row boundary, or at its delivery: the words queued behind it have not started (R198). -/
def trapWork (gk p : Nat) (t : TrapInfo) : Op Unit := do
  let later := (unbegun (← get) gk p).filter (· != p)
  dropWorks gk (p :: later)
  trapPend gk p t
  if (tlook gk (← get).groups).isSome then holdWorks gk later

/-- A word is held without effect (02_words.md R67): the chain that it found stands again. -/
def holdWork (gk p : Nat) (base : Option Chain) : Op Unit := do
  let g ← groupAt gk
  match base, g.chain with
  | some ch, none => putGroup gk { g with chain := some ch }
  | some ch, some _ =>
    if ch.det then putGroup gk { g with kept := some ch }
    else
      let _ ← flushChain gk ch
  | none, _ => pure ()
  let later := (unbegun (← get) gk p).filter (· != p)
  dropWorks gk (p :: later)
  holdPend gk p
  if (tlook gk (← get).groups).isSome then holdWorks gk later

/-- A delivery that belongs to no word is refused (R486): it is made again before the group's next word, from the matrix save area, or from
the unit where the trap being taken has saved its own word there. A pre-empted group that would stop takes the trap on its next word. -/
def keepRefused (gk : Nat) (ch : Chain) (word : Nat) (ev : Ev) (t : TrapInfo) : Op Unit := do
  let g ← groupAt gk
  if g.mx.chain.isSome then putGroup gk { g with kept := some ch }
  else saveMatrix gk ch word (matM ch.fmt) true ev
  if g.preempt && g.trapping.isNone && g.handler.isNone && !g.stopped then
    let b := g.a.mask = 0
    let x := g.slot b
    modGroup gk fun g => g.setSlot b { x with pc := x.pc + 8 }
    takeTrapOf gk t ⟨x.pc, b, x.mask, none⟩ []
  else tryEnter gk

/-- The word that closed a chain whose delivery is refused (R486): the trap is precise on it, and the chain is saved as a pending delivery;
where the word had been performed when the refusal came, the trap says so (log 84). -/
def refuseClosing (c : Contrib) (p : Nat) (t : TrapInfo) : Op Unit := do
  let gk := c.gk
  let s ← get
  let g ← groupAt gk
  let waiting := (s.core (coreOfGrp gk)).mx.any fun w => w.gk = gk && w.pid = p
  let save : Op Unit := if g.mx.chain.isSome then modGroup gk fun g => { g with kept := some c.chain }
    else saveMatrix gk c.chain c.word (matM c.chain.fmt) true c.ev
  if g.trapping.isSome then
    save
    if waiting then holdWork gk p none
    else if g.pend.any fun x => x.id = p && x.fin then completePend gk p 1
  else
    save
    if waiting then trapWork gk p t
    else
      modify fun s => { s with contribs := s.contribs.map fun (i, x) =>
        (i, if x.gk = gk && x.pid = some p then { x with pid := none } else x) }
      trapWork gk p { t with perf := true }

/-- A refused contribution (R189, R198): nothing is added, the partial is saved, and the trap is taken on its word. -/
def refuse (id : Nat) (t : TrapInfo) : Op Unit := do
  let s ← get
  match tlook id s.contribs with
  | none => pure ()
  | some c =>
    modify fun s => { s with contribs := tdel id s.contribs }
    wakeAll fun _ _ w => w == .matrix
    match tlook c.gk (← get).groups with
    | none => pure ()
    | some g => match c.pid, c.closes with
      | some p, _ =>
        if g.trapping.isSome then
          noteTrap c.gk t
          holdWork c.gk p c.base
        else
          saveMatrix c.gk c.chain c.word (matM c.chain.fmt) false c.ev
          trapWork c.gk p t
      | none, some p => refuseClosing c p t
      | none, none => keepRefused c.gk c.chain c.word c.ev t

/-! Arrival -/

/-- A fault on C keeps the contribution until it is resolved; its group sleeps, unless it sleeps already (R197). -/
def stickContrib (id : Nat) (w : Wait) : Op Unit := do
  let s ← get
  match tlook id s.contribs with
  | none => pure ()
  | some c =>
    modify fun s => { s with contribs := tset id { c with stuck := some w.stuck } s.contribs }
    match tlook c.gk s.groups with
    | some g => if g.asleep.isNone then putGroup c.gk { g with asleep := some ⟨w, s.cycle⟩ }
    | none => pure ()

/-- Try to add one contribution. -/
def tryAdd (id : Nat) (c : Contrib) (r : Option AccRec) : Op (Except XStop Unit) := do
  let ch := c.chain
  let p ← (match r with
    | some r => if c.spilled then spillBack c.gk c.tenant r ch.split ch.elems else pure ch.elems
    | none => pure ch.elems)
  match ← addPartial c.gk c.tenant (matKind ch.fmt) (ch.desc.getD 2 0) (cstrOf ch.desc) p c.ev with
  | .error e => return .error e
  | .ok _ =>
    retireContrib id
    return .ok ()

/-- After index e is added: e advances, held contributions follow, the round ends at S (R189). -/
def drainRec (slice t caddr : Nat) : Nat → Op Unit
  | 0 => pure ()
  | fuel + 1 => do
    let s ← get
    match recAt s slice t caddr with
    | none => pure ()
    | some r =>
      if r.next = r.splits then modRec slice t caddr fun r => { r with next := 0 }
      else match tlook r.next r.held with
        | none => pure ()
        | some id =>
          match tlook id s.contribs with
          | none => modRec slice t caddr fun r => { r with held := tdel r.next r.held }
          | some c =>
            match ← tryAdd id c (some r) with
            | .ok _ =>
              modRec slice t caddr fun r => { r with held := tdel r.next r.held, next := r.next + 1 }
              drainRec slice t caddr fuel
            | .error (.sleep w) => stickContrib id w
            | .error (.trap x) =>
              modRec slice t caddr fun r => { r with held := tdel r.next r.held }
              refuse id x

/-- A contribution reaches its slice (R185, R186, R189): added, held, or refused with the trap's cause. -/
def arrive (id : Nat) : Op (Except XStop Unit) := do
  let s ← get
  let c ← need (tlook id s.contribs)
  let ch := c.chain
  let caddr := ch.desc.getD 2 0
  let bad : XStop := .trap { cause := 0x0A, addr := BitVec.ofNat 64 caddr }
  match ← mapLane c.gk c.tenant caddr ⟨[0], true, true, 4, false, none⟩ 19 with
  | .sleep w => return .error (.sleep w)
  | .denied => return .error (.trap { cause := 0x04, addr := BitVec.ofNat 64 caddr })
  | .ok ref =>
    let s ← get
    match owningSlice s c.tenant (dieOfCore (coreOfGrp c.gk)) ref.pa with
    | none => return .error bad
    | some slice =>
      if !ch.det then tryAdd id c none
      else match recAt s slice c.tenant caddr with
        | none => return .error bad
        | some r =>
          if r.kind != matKind ch.fmt || r.splits ≤ ch.split || ch.split < r.next || thas r.held ch.split then
            return .error bad
          else if ch.split != r.next then
            let spill ← if 8 ≤ buffersUsed s slice then spillOut c.gk c.tenant r ch.split ch.elems else pure false
            modify fun s => { s with contribs := tset id { c with held := true, spilled := spill } s.contribs }
            modRec slice c.tenant caddr fun r => { r with held := tset ch.split id r.held }
            return .ok ()
          else
            match ← tryAdd id c none with
            | .error e => return .error e
            | .ok _ =>
              modRec slice c.tenant caddr fun r => { r with next := r.next + 1 }
              drainRec slice c.tenant caddr 33
              return .ok ()

/-- An arrival whose failure is the trap of its own word, or of the word that closed its chain, or of nobody; a translation fault
puts the group to sleep (R197). -/
def arriveNow (id : Nat) : Op Unit := do
  match ← arrive id with
  | .ok _ => pure ()
  | .error (.sleep w) => stickContrib id w
  | .error (.trap t) => refuse id t

/-! The queue of the unit -/

/-- The chains that take the partial buffers of a core's unit, without the group's own (R184). -/
def bufferBusy (s : State) (gk : Nat) : Bool :=
  2 ≤ (s.groups.filter fun e => coreOfGrp e.1 = coreOfGrp gk && e.1 != gk && e.2.chain.isSome).length

/-- Whether a word continues the open chain (R181). -/
def continues (ch : Chain) (w : XWork) : Bool :=
  !w.resumed && ch.fmt = w.w.f && ch.split = w.split && ch.det = w.det && ch.desc.getD 2 0 = w.w.desc.getD 2 0 &&
  cstrOf ch.desc = cstrOf w.w.desc

/-- What a word leaves: its partial, with the latest snapshot. -/
def XWork.left (x : XWork) : Chain := ⟨x.w.f, x.split, x.det, x.w.desc, x.w.scales, x.all, x.part⟩

/-- Put back the head of a core's queue. -/
def putHead (core : Nat) (x : XWork) : Op Unit :=
  modCore core fun k => { k with mx := x :: k.mx.tail }
def dropHead (core : Nat) : Op Unit :=
  modCore core fun k => { k with mx := k.mx.tail }

/-- The head of the queue begins: a chain that it does not continue is delivered first (R182), and it takes a partial buffer (R184). -/
def matrixBegin (core : Nat) (x : XWork) : Op Unit := do
  let gk := x.gk
  let s ← get
  let g ← groupAt gk
  match g.openChain with
  | some ch =>
    if continues ch x then
      require (g.chain.isSome || !bufferBusy s gk)
      dropChain gk
      modGroup gk fun g => { g with chain := some ch }
      putHead core { x with begun := true, base := some ch, part := ch.elems }
    else
      dropChain gk
      let b ← blockAt (blkOfGrp gk)
      let id ← sendContrib { gk := gk, tenant := tenantOf b.grid, chain := ch, closes := some x.pid }
      arriveNow id
  | none =>
    require (!(s.contribs.any fun e => e.2.gk = gk && e.2.closes = some x.pid && !e.2.held) && !bufferBusy s gk)
    putHead core { x with begun := true }

/-- The head stops before a row (R197, R198): its group sleeps on a translation fault, or the word traps at the row boundary. -/
def matrixStop (core : Nat) (x : XWork) (r : Nat) (e : XStop) : Op Unit := do
  let gk := x.gk
  let s ← get
  let g ← groupAt gk
  match e with
  | .sleep w =>
    putHead core { x with stuck := some w.stuck }
    if g.asleep.isNone then putGroup gk { g with asleep := some ⟨w, s.cycle⟩ }
  | .trap t =>
    modGroup gk fun g => { g with chain := none }
    if g.trapping.isSome then
      noteTrap gk t
      holdWork gk x.pid x.base
    else
      let had := if x.resumed then g.mx.ev else {}
      countFresh core x.ev had
      if x.det then saveMatrix gk x.left x.word r false (x.ev.or had)
      else
        saveMatrix gk { x.left with elems := [] } x.word r false (x.ev.or had)
        if !x.part.isEmpty then
          let _ ← flushChain gk x.left
      trapWork gk x.pid t

/-- The rows of the head are done: its partial stays in the unit, or leaves for its slice (R181, R185). -/
def matrixDone (core : Nat) (x : XWork) : Op Unit := do
  let gk := x.gk
  let g ← groupAt gk
  let had := if x.resumed then g.mx.ev else {}
  countFresh core x.ev had
  dropHead core
  if x.chain then
    modGroup gk fun g => { g with chain := some x.left }
    if x.resumed then clearSaved gk
    completePend gk x.pid 1
  else
    modGroup gk fun g => { g with chain := none }
    let b ← blockAt (blkOfGrp gk)
    let _ ← sendContrib {
      gk := gk
      tenant := tenantOf b.grid
      pid := some x.pid
      chain := x.left
      word := x.word
      ev := x.ev.or had
      base := x.base
      resumed := x.resumed }

/-- One step of a core's matrix unit (R184, R197): the head of its queue begins, reads B, performs its next row, or is done. -/
def matrixStep (core : Nat) : Op Unit := do
  match ((← get).core core).mx with
  | [] => finish
  | x :: _ =>
    require x.stuck.isNone
    if !x.begun then matrixBegin core x
    else match x.rows with
      | [] => matrixDone core x
      | r :: rs =>
        let c ← localCtx x.gk
        match x.bvals with
        | none =>
          match ← allOfB c x.w with
          | .error e => matrixStop core x r e
          | .ok bs => putHead core { x with bvals := some bs }
        | some bs =>
          match ← rowOfA c x.w r with
          | .error e => matrixStop core x r e
          | .ok as =>
            let q := addRow (matKind x.w.f) (matM x.w.f) r as bs x.part
            putHead core { x with rows := rs, part := q.1, ev := x.ev.or (q.2.or { sb := scaleBad x.w r }) }

/-- Whether the unit of a core can take a step. -/
def matrixReady (s : State) (core : Nat) : Bool :=
  match (s.core core).mx with
  | [] => false
  | x :: _ => x.stuck.isNone && (x.begun || (match (tlook x.gk s.groups).bind Group.openChain with
    | some ch => !continues ch x || !bufferBusy s x.gk || (tlook x.gk s.groups).any fun g => g.chain.isSome
    | none => !(s.contribs.any fun e => e.2.gk = x.gk && e.2.closes = some x.pid && !e.2.held) && !bufferBusy s x.gk))

/-- Steps of a core's unit while the head is an outstanding word of a group and goes on. -/
def matrixRun (core gk pid : Nat) : Nat → Op Unit
  | 0 => pure ()
  | n + 1 => do
    let s ← get
    if matrixReady s core && ((s.core core).mx.head?.any fun x => x.gk = gk && x.pid = pid) then
      matrixStep core
      matrixRun core gk pid n

/-! Chains that other words close -/

/-- Whether the matrix unit still holds X words of a group. -/
def queuedWorks (s : State) (gk : Nat) : Bool := (s.core (coreOfGrp gk)).mx.any fun w => w.gk = gk

/-- The closing of an open chain by the word in progress, which is no product (R182, R486): a failed delivery is its trap. The number of
a delivery that its slice holds. -/
def closeChain : Op (Option Nat) := do
  let s ← get
  let gk := s.cur.gk
  if queuedWorks s gk then loseTurn
  match (← self).openChain with
  | none => return none
  | some ch =>
    let id ← flushChain gk ch
    match ← arrive id with
    | .ok _ =>
      dropChain gk
      return if (tlook id (← get).contribs).isSome then some id else none
    | .error (.sleep w) =>
      modify fun s => { s with contribs := tdel id s.contribs }
      waitFor w
    | .error (.trap t) =>
      dropChain gk
      modify fun s => { s with contribs := tdel id s.contribs }
      saveMatrix gk ch 0 (matM ch.fmt) true {}
      throw (.trap t)

/-- A word that closed a chain which its slice holds stays outstanding, performed, until the chain has been added (R486). -/
def awaitClosed (i : Instr) (m : Mask) : Option Nat → Op Unit
  | none => pure ()
  | some id => do
    let s ← get
    match tlook id s.contribs with
    | none => pure ()
    | some c =>
      let g ← self
      putPend { newPend s g i m 0 [] with fin := true, spans := [], wr := [] }
      modify fun s => { s with contribs := tset id { c with closes := some g.nextId } s.contribs }

/-- The pending delivery of R486 and the chain kept in the unit, made before the words of a return re-issue. -/
def deliverPending : Op Unit := do
  let g ← self
  let gk := (← get).cur.gk
  if g.mx.deliver then
    if g.rowprog.getLsbD 63 then
      match g.mx.chain with
      | none => pure ()
      | some old =>
        let ch ← savedFor (restoreMatrix gk old.fmt)
        let b ← selfBlock
        let id ← sendContrib { gk := gk, tenant := tenantOf b.grid, chain := ch, ev := g.mx.ev }
        match ← arrive id with
        | .ok _ => clearSaved gk
        | .error (.sleep w) =>
          modify fun s => { s with contribs := tdel id s.contribs }
          waitFor w
        | .error (.trap t) =>
          modify fun s => { s with contribs := tdel id s.contribs }
          throw (.trap t)
    else modSelf fun g => { g with mx := {} }
  match (← self).kept with
  | some ch =>
    if !ch.det then
      let id ← flushChain gk ch
      match ← arrive id with
      | .ok _ => modSelf fun g => { g with kept := none }
      | .error (.sleep w) =>
        modify fun s => { s with contribs := tdel id s.contribs }
        waitFor w
      | .error (.trap t) =>
        modify fun s => { s with contribs := tdel id s.contribs }
        throw (.trap t)
  | none => pure ()

/-- The arrival of a contribution (R185), or another try of one that is due (R189). -/
def execMatrixContributionArrival (id : Nat) : State → Host.Outcome State Fault Refusal :=
  runOp do
    let s ← get
    let c ← need (tlook id s.contribs)
    require (c.stuck.isNone && (tlook c.gk s.groups).isSome)
    if c.held then
      s.accs.forM fun (slice, rs) => rs.forM fun r =>
        if r.held.any (fun h => h.2 = id && h.1 = r.next) then drainRec slice r.tenant r.caddr 33 else pure ()
    else arriveNow id

end Sys2Proof.Machine
end

