-- ==== Sys2Proof/Machine/Matrix.lean ====
section
/-! DEFINITION. The X words: MMA, MMSP, MZERO, MCFG and MRES (07_matrix.md R170 to R174, R181, R184, R187, R188, R196 to R199). -/

namespace Sys2Proof.Machine

/-- The rows that a word updates (R176). -/
def rowMask (w m : Nat) (rm : Bool) (act : Mask) : List Nat :=
  (List.range m).filter fun r => !rm || act.getLsbD (r % w)
def rowsOf (m : Nat) (x : Mask) : List Nat := (List.range m).filter fun r => x.getLsbD r
def maskOf (rows : List Nat) : Mask := BitVec.ofNat 128 (rows.foldl (fun a r => a + 2 ^ r) 0)

/-- The rows of an operand in memory: first byte and length (R172, R193). Of sparse A these are the bitmaps: its column records stand where the
bitmaps say, so the check of R173 does not reach them (log 93). -/
def operandRows (w : MatWord) (isA : Bool) : List (Nat × Nat) :=
  let n := matM w.f
  let k := w.kcount * matKB w.f
  let base := w.desc.getD (if isA then 0 else 1) 0
  let str := if isA then astrOf w.desc else bstrOf w.desc
  if isA && w.sparse then (List.range ((w.kcount + 3) / 4)).map fun s => (base + s * str, 16)
  else if (if isA then w.ta else w.tb) then (List.range k).map fun i => (base + i * str, n * (matBits w.f / 8))
  else (List.range n).map fun r => (base + r * str, k * matBits w.f / 8)

/-- The lowest invalid address of an operand in a local space (R173, check 3). -/
def operandBadAt (c : LocalCtx) (s : State) (w : MatWord) (isA : Bool) : Option Nat :=
  if spaceOf (w.desc.getD (if isA then 0 else 1) 0) = 0 then none
  else lowest ((operandRows w isA).filterMap fun (a, n) =>
    ((List.range ((n + 15) / 16)).map fun i => a + 16 * i).find? fun x => !c.valid s x 1 0)

/-- The checks of R173 on a descriptor; `ab` asks for those of A and B. -/
def checkDesc (d : List Nat) (ab : Bool) : Op Unit := do
  let v (i : Nat) := d.getD i 0
  let bad (i : Nat) : Op Unit := raise 0x0A (BitVec.ofNat 64 (v i))
  if ab && !spacesSig.contains (spaceOf (v 0)) then bad 0
  if ab && !spacesSig.contains (spaceOf (v 1)) then bad 1
  if spaceOf (v 2) != 0 then bad 2
  if bits (v 3) 63 60 != 0 || cstrOf d < 512 || cstrOf d % 256 != 0 then bad 3
  if ab && v 0 % 16 != 0 then raise 0x03 (BitVec.ofNat 64 (v 0))
  if ab && v 1 % 16 != 0 then raise 0x03 (BitVec.ofNat 64 (v 1))
  if v 2 % 256 != 0 then raise 0x03 (BitVec.ofNat 64 (v 2))

/-- The descriptor registers, and the scale registers v b to v b + 15 in lanes 0 to 31 (R174, R175). -/
def snapDesc (g : Group) (n : BitVec 6) : List Nat := (List.range 4).map fun i => (g.scalar (n.toNat + i)).toNat
def snapScales (s : State) (gk : Nat) (g : Group) (scaled : Bool) (b : BitVec 8) : List Nat :=
  if scaled then (List.range 16).flatMap fun q => (List.range 32).map fun l => elemAt s gk g (b.toNat + q) l else []

/-- Scale registers that a form reads (R175): .SC forms leave the special bytes. -/
def scaleElems (f : XFmt) (b : Nat) : List (Nat × Nat) :=
  if !f.scaled then []
  else ((List.range 16).filter fun q => f = .z4 || q / 4 % 2 = 0).flatMap fun q =>
    (List.range 32).map fun l => (b + q, l)

/-- The rows of sparse A whose records a word reads, as its bitmaps stand (R193, R194): spans of a footprint (02_words.md R64). -/
def bitmapAt (s : State) (gk : Nat) (g : Group) (a : Nat) : Nat :=
  if spaceOf a = 0 then match physOf s (coreOfGrp gk) (tenantAt s gk) a with
    | some pa => rdBytes s.mem 16 pa
    | none => 0
  else match tlook (blkOfGrp gk) s.blocks with
    | none => 0
    | some b => match (s.gridOf b.grid).bind (·.hdr) with
      | none => 0
      | some h => (⟨gk, g, b, h⟩ : LocalCtx).read s a 16 0
def sparseRows (s : State) (gk : Nat) (g : Group) (w : MatWord) : List (Nat × Nat) :=
  if !w.sparse then []
  else (List.range ((w.kcount + 3) / 4)).flatMap fun span =>
    let bitmap := bitmapAt s gk g (w.desc.getD 0 0 + span * astrOf w.desc)
    ((List.range (min 128 (32 * w.kcount - 128 * span))).filter fun j => bitOf bitmap j).map fun j =>
      (recordAt w span bitmap j, 16 + 64 * (matBits w.f / 8))

/-- A word in the unit's queue, outstanding; where it may be performed at once, it is (R62, R184). -/
def enqueueWork (i : Instr) (la : Nat) (m : Mask) (mk : Nat → XWork) : Op Unit := do
  let s ← get
  let gk := s.cur.gk
  let core := coreOfGrp gk
  let g ← self
  putPend (newPend s g i m la [])
  modCore core fun k => { k with mx := k.mx ++ [mk g.nextId] }
  if !s.cur.defer then
    matrixRun core gk g.nextId 200
    match (← get).contribs.find? fun e => e.2.gk = gk && e.2.pid = some g.nextId with
    | some e => arriveNow e.1
    | none => pure ()

/-- The port takes an X word while the unit holds fewer than eight (R184). -/
def matrixPort : Op Unit := do
  let s ← get
  if 8 ≤ (s.core (coreOfGrp s.cur.gk)).mx.length then portStall

/-- A word that goes on from ROWPROG with the saved snapshot and partial (R199). -/
def resumeWord (i : Instr) (f : XFmt) (sparse : Bool) (o : XWord) (m : Mask) : Op Unit := do
  let gk := (← get).cur.gk
  let g ← self
  let ch ← savedFor (restoreMatrix gk f)
  let start := bits g.rowprog.toNat 39 32
  enqueueWork i o.la.toNat m fun pid => {
    gk := gk
    pid := pid
    word := ((encode i).map BitVec.toNat).getD 0
    w := ⟨f, sparse, o.ta, o.tb, o.kcount.toNat, o.selA.toNat, o.selB.toNat, ch.desc, ch.scales⟩
    rows := (rowsOf (matM f) ch.rows).filter (start ≤ ·)
    all := ch.rows
    split := o.split.toNat
    det := o.det
    chain := o.chain
    part := ch.elems
    resumed := true }

/-- MMA and MMSP (R170 to R176, R181, R199). -/
def productWord (i : Instr) (f : XFmt) (sparse : Bool) (o : XWord) : Op Unit := do
  legal i
  let m ← activeMask o.pred.toNat
  if m = 0 then finish
  matrixPort
  let s ← get
  let gk := s.cur.gk
  let g ← self
  if s.cur.only.isSome && resumes g f then resumeWord i f sparse o m
  else
    let d := snapDesc g o.desc
    checkDesc d true
    let w : MatWord := ⟨f, sparse, o.ta, o.tb, o.kcount.toNat, o.selA.toNat, o.selB.toNat, d, snapScales s gk g f.scaled o.scale⟩
    let c ← localCtx gk
    match operandBadAt c s w true, operandBadAt c s w false with
    | some a, some b => raise 0x02 (BitVec.ofNat 64 (min a b))
    | some a, none | none, some a => raise 0x02 (BitVec.ofNat 64 a)
    | none, none => pure ()
    checkElems (scaleElems f o.scale.toNat)
    let rows := rowMask g.width (matM f) o.rm m
    enqueueWork i o.la.toNat m fun pid => {
      gk := gk
      pid := pid
      word := ((encode i).map BitVec.toNat).getD 0
      w := w
      rows := rows
      all := maskOf rows
      split := o.split.toNat
      det := o.det
      chain := o.chain }

/-- MMA (R169 to R181). -/
def execMma (f : XFmt) (o : XWord) : State → Host.Outcome State Fault Refusal := runOp (productWord (.mma f o) f false o)
/-- MMSP (R193 to R195). -/
def execMmsp (f : XFmt) (o : XWord) : State → Host.Outcome State Fault Refusal := runOp (productWord (.mmsp f o) f true o)

/-- The feature group of the opcode that MRES resumes (R199; 03_opcode_map.md R73). -/
def savedFeature : Op Unit := do
  let g ← self
  if g.rowprog.getLsbD 63 then
    match xfmtOf (bits g.rowprog.toNat 55 48) with
    | none => pure ()
    | some f =>
      if f = .d then needFeature 1
      if f != .d && f != .bf && f != .h then needFeature 2

/-- MRES (R199): nothing when XV is 0; else XOP from row XROWS with the saved snapshot and partial. A masked XOP comes before what its
fields are reserved for (03_opcode_map.md R84). -/
def execMres (sparse : Bool) (o : XWord) : State → Host.Outcome State Fault Refusal :=
  runOp do
    let m ← activeMask o.pred.toNat
    if m != 0 then savedFeature
    legal (.mres sparse o)
    if m = 0 then finish
    let g ← self
    if g.rowprog.getLsbD 63 then
      match xfmtOf (bits g.rowprog.toNat 55 48) with
      | none => pure ()
      | some f =>
        if !({ o with scale := 0 } : XWord).wf f sparse then illegal 5
        matrixPort
        resumeWord (.mres sparse o) f sparse o m

/-- The start of MZERO and MCFG: their lanes and their descriptor. -/
def cfgStart (i : Instr) (o : XCfg) : Op (Mask × List Nat) := do
  legal i
  let m ← activeMask o.pred.toNat
  if m = 0 then finish
  return (m, snapDesc (← self) o.desc)

/-- The owning slice of CADDR for the group in progress (R185). -/
def sliceOf (caddr : Nat) (w : Bool) : Op Nat := do
  let s ← get
  let gk := s.cur.gk
  let t ← selfTenant
  match ← mapLane gk t caddr ⟨[0], !w, w, 4, false, none⟩ (if w then 2 else 1) with
  | .sleep v => waitFor v
  | .denied => raise 0x04 (BitVec.ofNat 64 caddr)
  | .ok r =>
    match owningSlice (← get) t (dieOfCore (coreOfGrp gk)) r.pa with
    | some x => return x
    | none => raise 0x0A (BitVec.ofNat 64 caddr)

/-- Uncorrectable marks of memory that a write of `n` bytes covers whole are lifted (10_memory_ops.md R271). -/
def healBytes (pa n : Nat) : Op Unit :=
  modify fun s => if s.poison.mem.isEmpty then s
    else { s with poison := { s.poison with mem := s.poison.mem.filter fun w => !(pa ≤ 32 * w && 32 * w + 32 ≤ pa + n) } }

/-- MZERO (R187). -/
def execMzero (o : XCfg) : State → Host.Outcome State Fault Refusal :=
  runOp do
    let (m, d) ← cfgStart (.mzero o) o
    checkDesc d false
    let closed ← closeChain
    let gk := (← get).cur.gk
    let t ← selfTenant
    let g ← self
    let caddr := d.getD 2 0
    let kind := o.kind.toNat
    let rows := rowMask g.width (kindRows kind) o.rm m
    let slice ← sliceOf caddr true
    let pieces := rows.flatMap fun r => rowPieces caddr (cstrOf d) r
    match ← xList (fun a => accMap gk t a false) pieces with
    | .error (.sleep v) => waitFor v
    | .error (.trap x) => throw (.trap x)
    | .ok refs =>
      refs.forM fun r => do
        let _ ← accPiece (coreOfGrp gk) r (kindBytes kind) fun _ _ => some (0, .none)
        healBytes r.pa 256
      match recAt (← get) slice t caddr with
      | some r =>
        modRec slice t caddr fun r => { r with next := 0, held := [] }
        r.held.forM fun h => retireContrib h.2
      | none => pure ()
      awaitClosed (.mzero o) m closed

/-- MCFG (R188): it waits while the record holds a contribution. CADDR and CSTR are not held to the checks of R173, on which R188 is
silent (log 40). -/
def execMcfg (o : XCfg) : State → Host.Outcome State Fault Refusal :=
  runOp do
    let (m, d) ← cfgStart (.mcfg o) o
    let t ← selfTenant
    let caddr := d.getD 2 0
    let splits := o.split.toNat + 1
    if o.kind != 3 && 2 ≤ splits && (spaceOf (d.getD 0 0) != 0 || d.getD 0 0 % 256 != 0) then
      raise 0x0A (BitVec.ofNat 64 (d.getD 0 0))
    let closed ← closeChain
    let slice ← sliceOf caddr false
    let s ← get
    let old := recAt s slice t caddr
    if old.any (fun r => !r.held.isEmpty) then waitFor .matrix
    else if o.kind = 3 then
      modify fun s => { s with accs := tput [] s.accs slice ((recsAt s slice).filter fun r =>
        !(r.tenant = t && r.caddr = caddr)) }
    else
      if old.isNone && 64 ≤ (recsAt s slice).length then raise 0x0A (BitVec.ofNat 64 caddr)
      let b ← selfBlock
      let grid ← need (s.gridOf b.grid)
      let r : AccRec := ⟨t, caddr, b.grid, grid.record.seq, o.kind.toNat, splits, 0, d.getD 0 0, []⟩
      modify fun s => { s with accs := tput [] s.accs slice (((recsAt s slice).filter fun r =>
        !(r.tenant = t && r.caddr = caddr)) ++ [r]) }
    awaitClosed (.mcfg o) m closed

/-- The records of a grid are released when it retires (R188). -/
def freeRecords (qk seq : Nat) : Op Unit :=
  modify fun s => { s with
    accs := (s.accs.map fun (k, rs) => (k, rs.filter fun r => !(r.grid = qk && r.seq = seq))).filter fun e => !e.2.isEmpty }

end Sys2Proof.Machine
end

