-- ==== Sys2Proof/Machine/Groups.lean ====
section
/-! DEFINITION. What the words of chapter 13 share: divergence (12_groups_progress.md R321 to R327), generations of allocations (15_isolation.md R419, R422), quota pools (R337, R338), barriers (R335, R336), and the end of groups and blocks (R325, R351). -/

namespace Sys2Proof.Machine

/-! Divergence -/

/-- Target(w, pc) (02_words.md R58). -/
def target (pc : W64) (off : BitVec 32) : W64 := pc + off.signExtend 64 * 8

/-- The issuing slot goes on at an address. -/
def setPc (a : W64) : Op Unit := do
  let b := (← get).cur.slotB
  modSelf fun g => g.setSlot b { g.slot b with pc := a }

/-- Resolve the overflow entries from `i` up to `j` before anything changes: a translation fault sleeps and the word is
repeated (R327). -/
def touchEntries (i j : Nat) : Op Unit := do
  if 32 < j then
    let gk := (← get).cur.gk
    let p ← myPart gk
    let b ← blockAt (blkOfGrp gk)
    (List.range (j - max i 32)).forM fun k => do
      let a := p + 0x1400 + 32 * (max i 32 + k - 32)
      match ← mapLane gk (tenantOf b.grid) a ⟨[0], true, true, 8, false, none⟩ 3 with
      | .sleep w => waitFor w
      | _ => pure ()

/-- The split of the issuing slot (R322): paths in ascending order of address, each with its lanes. -/
def divide (j : W64) (paths : List (W64 × Mask)) : Op Unit := do
  let c := (← get).cur
  let g ← self
  let sl := g.slot c.slotB
  match paths with
  | [] => pure ()
  | [(a, _)] => setPc a
  | (a0, m0) :: (a1, m1) :: rest =>
    let free := (g.slot (!c.slotB)).mask = 0
    let pushed := if free then rest else (a1, m1) :: rest
    let top := g.sp + 1 + pushed.length
    if 1024 < top then raise 0x0D 1024
    touchEntries g.sp top
    setEntry c.gk g.sp ⟨j.toNat, sl.mask, sl.join, paths.length, false⟩
    pushed.reverse.zipIdx.forM fun (p, t) => setEntry c.gk (g.sp + 1 + t) ⟨p.1.toNat, p.2, some g.sp, 0, true⟩
    modSelf fun h => { h.setSlot c.slotB ⟨a0, m0, some g.sp⟩ with sp := top }
    if free then modSelf fun h => h.setSlot (!c.slotB) ⟨a1, m1, some g.sp⟩

/-- An arrival at the slot's JOIN entry (R323); an entry without lanes continues as an empty slot (R325). -/
def arriveJoin (j : Nat) : Op Unit := do
  let c := (← get).cur
  let e ← getEntry c.gk j
  setEntry c.gk j { e with pending := (e.pending + 65535) % 65536 }
  if e.pending = 1 then
    modSelf fun g => { g.setSlot c.slotB ⟨e.at + 8, e.mask, e.link⟩ with sp := g.sp - 1 }
  else modSelf fun g => g.setSlot c.slotB { g.slot c.slotB with mask := 0 }

/-- An empty slot takes the top entry of kind PATH (R324), in handler mode only one that the handler pushed. -/
def pickup (gk : Nat) : Nat → Op Unit
  | 0 => pure ()
  | fuel + 1 => do
    let g ← groupAt gk
    let floor := g.handler.getD 0
    if (g.a.mask = 0 || g.b.mask = 0) && floor < g.sp then
      let e ← getEntry gk (g.sp - 1)
      if e.path then
        let slotB := g.a.mask != 0
        modGroup gk fun g => { g.setSlot slotB ⟨e.at, e.mask, e.link⟩ with sp := g.sp - 1 }
        pickup gk fuel

/-- Take lanes out of an entry and of its link chain (R325). -/
def dropLanes (gk : Nat) (x : Mask) : Nat → Option Nat → Op Unit
  | 0, _ => pure ()
  | _, none => pure ()
  | fuel + 1, some j => do
    let e ← getEntry gk j
    setEntry gk j { e with mask := e.mask &&& ~~~x }
    dropLanes gk x fuel e.link

/-! Generations -/

/-- Whether a counter may issue a value (15_isolation.md R422): no allocation holds it, and every store has begun and
ended a pass since the last one ended. -/
def GenCtr.free (c : GenCtr) (passes : List Nat) (v : Nat) : Bool :=
  !c.held.contains v && (match tlook v c.ended with
  | none => true
  | some ps => (ps.zip passes).all fun (a, b) => a + 2 ≤ b)

def GenCtr.take (c : GenCtr) : GenCtr :=
  { c with next := if c.next = 4095 then 1 else c.next + 1, held := c.next :: c.held, ended := tdel c.next c.ended }

/-- The next generation of a quad's counter, or of a die's; the step waits while it is not free. -/
def quadGen (q : Nat) : Op Nat := do
  let s ← get
  let c := (s.quad q).gen
  require (c.free (quadPasses s q) c.next)
  modQuad q fun x => { x with gen := c.take }
  return c.next
def dieGen (d : Nat) : Op Nat := do
  let s ← get
  let c := (s.die d).gen
  require (c.free [(s.die d).passes] c.next)
  modDie d fun x => { x with gen := c.take }
  return c.next

/-- Allocations of these generations end. -/
def endQuadGens (q : Nat) (vs : List Nat) : Op Unit := do
  let ps := quadPasses (← get) q
  modQuad q fun x => { x with gen := vs.foldl (fun c v => c.drop ps v) x.gen }
def endDieGen (d v : Nat) : Op Unit := do
  let ps := [((← get).die d).passes]
  modDie d fun x => { x with gen := x.gen.drop ps v }

/-! Quota pools -/

/-- The granules of a unit take the pool's generation (R337). -/
def restamp (core w gen : Nat) (us : List Nat) : Op Unit :=
  us.forM fun u => (List.range (unitGranules w)).forM fun i => do
    let k := core * Config.granulesPerCore + u + i
    modify fun s => { s with store := tput Granule.clean s.store k ⟨gen, (tget Granule.clean s.store k).data⟩ }

/-- Units enter the pool of a block. -/
def poolUnits (bk w : Nat) (us : List Nat) : Op Unit := do
  let b ← blockAt bk
  restamp (coreOfBlk bk) w b.gpool us
  putBlock bk { b with pool := b.pool ++ us }

/-- The first waiting TAKE completes when the pool holds its units, or when every other live group of the block also
waits in a TAKE (R338). -/
def serveTakes (bk : Nat) : Nat → Op Unit
  | 0 => pure ()
  | fuel + 1 => do
    match tlook bk (← get).blocks with
    | none => pure ()
    | some b =>
      match b.takes with
      | [] => pure ()
      | (gi, n) :: rest =>
        if n ≤ b.pool.length || b.live.all (fun x => b.takes.any fun t => t.1 = x) then
          putBlock bk { b with pool := b.pool.drop n, takes := rest }
          modGroup (bk * 64 + gi) fun g => { g with units := g.units ++ b.pool.take n }
          wake (bk * 64 + gi) 1
          serveTakes bk fuel
        else pure ()

/-! Barriers -/

/-- Blocks of a record, its STAGGER and its DIE bit (14_dispatch_lanterns.md R371). -/
def LRec.word (r : LRec) (i : Nat) : Nat := r.words.getD i 0
def LRec.blocks (r : LRec) : Nat := r.word 6 % 2 ^ 32
def LRec.stagger (r : LRec) : Nat := bits (r.word 6) 59 48
def LRec.oneDie (r : LRec) : Bool := bitOf (r.word 6) 60

def clusterOf (s : State) (core qk clu : Nat) : Option Cluster :=
  (s.quad (quadOfCore core)).clusters.find? fun c => c.grid = qk && c.clu = clu
def Cluster.onlyIf (qk clu : Nat) (f : Cluster → Cluster) (c : Cluster) : Cluster :=
  if c.grid = qk && c.clu = clu then f c else c
def modCluster (core qk clu : Nat) (f : Cluster → Cluster) : Op Unit :=
  modQuad (quadOfCore core) fun q => { q with clusters := q.clusters.map (Cluster.onlyIf qk clu f) }

/-- What names a barrier's unit among those of its level, and a group among its members. Each cluster has the barriers that its header
declares: how the eight of a quad unit (01_machine.md R8) are shared by several clusters no rule says (log 86). -/
def barKey (bk lvl : Nat) (b : Block) : Nat :=
  match lvl with
  | 0 => bk
  | 1 => b.grid * 2 ^ 32 + b.clu
  | 2 => b.grid * 8 + dieOfCore (coreOfBlk bk)
  | _ => b.grid
def barMember (lvl gi : Nat) (b : Block) : Nat :=
  match lvl with
  | 0 => gi
  | 1 => 64 * b.pos + gi
  | _ => b.blk * 64 + gi

def getBarrier (s : State) (bk lvl i : Nat) (b : Block) : Barrier :=
  let core := coreOfBlk bk
  match lvl with
  | 0 => tget {} b.bars i
  | 1 => match clusterOf s core b.grid b.clu with
    | some c => tget {} c.bars i
    | none => {}
  | _ => match s.gridOf b.grid with
    | none => {}
    | some g => match lvl with
      | 2 => tget {} g.dieBars (dieOfCore core * 16 + i)
      | 3 => tget {} g.pkgBars i
      | _ => tget {} g.pkgBars (16 + i)

def putBarrier (bk lvl i : Nat) (b : Block) (x : Barrier) : Op Unit :=
  match lvl with
  | 0 => modBlock bk fun b => { b with bars := tput {} b.bars i x }
  | 1 => modCluster (coreOfBlk bk) b.grid b.clu fun c => { c with bars := tput {} c.bars i x }
  | 2 => modGrid b.grid fun g => { g with dieBars := tput {} g.dieBars (dieOfCore (coreOfBlk bk) * 16 + i) x }
  | 3 => modGrid b.grid fun g => { g with pkgBars := tput {} g.pkgBars i x }
  | _ => modGrid b.grid fun g => { g with pkgBars := tput {} g.pkgBars (16 + i) x }

/-- Whether every member has arrived or ended (R335, R336). A die, package or pod barrier also needs every block placed; the members of a
die barrier are the blocks that have been placed on the die at any time, saved ones among them. -/
def allArrived (s : State) (bk lvl : Nat) (b : Block) (h : Hdr) (x : Barrier) : Bool :=
  match lvl with
  | 0 => b.live.all x.arrived.contains
  | 1 => match clusterOf s (coreOfBlk bk) b.grid b.clu with
    | none => false
    | some c => (List.range h.cluster).all fun p => (List.range h.groups).all fun g =>
        x.arrived.contains (64 * p + g) || c.ended.contains (64 * p + g)
  | _ => match s.gridOf b.grid with
    | none => false
    | some g => g.record.blocks ≤ g.nextBlk && (List.range g.record.blocks).all fun n =>
        (lvl = 2 && !g.placedOn.contains (n, dieOfCore (coreOfBlk bk))) ||
        (List.range h.groups).all fun gi => x.arrived.contains (n * 64 + gi) || g.endedGroups.contains (n * 64 + gi)

/-- The phase completes when the last member has arrived: its waiters wake and acquire (R336). -/
def checkPhase (bk lvl i : Nat) : Op Unit := do
  let s ← get
  match tlook bk s.blocks with
  | none => pure ()
  | some b =>
    match (s.gridOf b.grid).bind (·.hdr) with
    | none => pure ()
    | some h =>
      let x := getBarrier s bk lvl i b
      if !x.arrived.isEmpty && allArrived s bk lvl b h x then
        putBarrier bk lvl i b { arrived := [], phase := !x.phase }
        let key := barKey bk lvl b
        let mine (w : Wait) : Bool := match w with
          | .phase l k j _ => l = lvl && k = key && j = i
          | _ => false
        (← get).groups.forM fun (gk, g) => match g.asleep with
          | some z => if mine z.on then acquireCore (coreOfGrp gk) else pure ()
          | none => pure ()
        wakeAll fun _ _ w => mine w

/-- Every barrier that the end of a group can complete: those of a block of its grid, level by level. -/
def checkBarriers (qk : Nat) : Op Unit := do
  let s ← get
  match (s.gridOf qk).bind (·.hdr) with
  | none => pure ()
  | some h =>
    (s.blocks.filter fun e => e.2.grid = qk).forM fun (bk, _) =>
      h.barriers.zipIdx.forM fun (n, lvl) => (List.range n).forM fun i => checkPhase bk lvl i

/-! The end of groups and blocks -/

/-- A block's place is freed (R351; 01_machine.md R15, R30): its allocations end, its slot of the save region is free, and a core or
a quad without a block of the grid is idle. -/
def freePlace (bk : Nat) : Op Unit := do
  let s ← get
  let b ← blockAt bk
  let core := coreOfBlk bk
  let q := quadOfCore core
  let grws := (s.groups.filter fun e => blkOfGrp e.1 = bk).map fun e => e.2.gens.rw
  endQuadGens q (b.gsp :: b.gpool :: grws)
  modify fun s => { s with
    groups := s.groups.filter fun e => blkOfGrp e.1 != bk
    blocks := tdel bk s.blocks }
  modGrid b.grid fun g => { g with slotsUsed := g.slotsUsed.filter (· != b.save) }
  let s ← get
  let here (f : Nat → Block → Bool) : Bool := s.blocks.any fun (k, y) => y.grid = b.grid && f (coreOfBlk k) y
  if !here (fun c y => quadOfCore c = q && y.clu = b.clu) then
    match clusterOf s core b.grid b.clu with
    | none => pure ()
    | some c =>
      endQuadGens q [c.gqm]
      modQuad q fun x => { x with clusters := x.clusters.filter fun c => !(c.grid = b.grid && c.clu = b.clu) }
  let shares := match (s.gridOf b.grid).bind (·.hdr) with
    | some h => h.qmem != 0
    | none => false
  if shares then
    if !here (fun c _ => quadOfCore c = q) then
      (List.range 4).forM fun i => modCore (4 * q + i) fun k => { k with grid := none, places := 0 }
  else if !here (fun c _ => c = core) then modCore core fun k => { k with grid := none, places := 0 }

/-- The last group of a block has ended (R351). -/
def endBlock (bk : Nat) : Op Unit := do
  let b ← blockAt bk
  modGrid b.grid fun g => { g with endedBlks := g.endedBlks + 1 }
  freePlace bk

/-- A group has ended (R351): its units enter the pool, and it counts as arrived at every later phase. -/
def endGroup (gk : Nat) : Op Unit := do
  let bk := blkOfGrp gk
  let g ← groupAt gk
  let b ← blockAt bk
  let gi := gk % 64
  endQuadGens (quadOfCore (coreOfBlk bk)) [g.gens.rw]
  modify fun s => { s with groups := tdel gk s.groups }
  putBlock bk { b with
    live := b.live.filter (· != gi)
    takes := b.takes.filter fun t => t.1 != gi
    areas := tset gi g.ctl b.areas }
  poolUnits bk g.width g.units
  modCluster (coreOfBlk bk) b.grid b.clu fun c => { c with ended := (64 * b.pos + gi) :: c.ended }
  modGrid b.grid fun x => { x with endedGroups := (b.blk * 64 + gi) :: x.endedGroups }
  checkBarriers b.grid
  serveTakes bk 65
  if (← blockAt bk).live.isEmpty then endBlock bk

/-- Wait for the group's outstanding futures (11_engines_futures.md R310). -/
def awaitFutures : Op Unit := do
  match (← self).holds with
  | (_, d, x) :: _ => waitFor (.future d x none)
  | [] => pure ()

/-- Wait for the group's contributions on their way. -/
def awaitContribs : Op Unit := do
  let s ← get
  if s.contribs.any fun e => e.2.gk = s.cur.gk then waitFor .matrix

end Sys2Proof.Machine
end

