-- ==== Sys2Proof/Machine/Fetch.lean ====
section
/-! DEFINITION. Instruction fetch: the instruction buffer, the references of slots and stale lines (12_groups_progress.md R328, R329), and the traps and waits of a fetch (02_words.md R59). -/

namespace Sys2Proof.Machine

/-- Whether a line lies in a loop of at most four lines that the slot is in (R328). -/
def inLoops (ls : List (Bool × Nat × Nat)) (slotB : Bool) (line : Nat) : Bool :=
  ls.any fun (b, lo, hi) => b = slotB && lo / 128 ≤ line && line ≤ hi / 128 && hi / 128 < lo / 128 + 4

/-- The references of a group after a slot issues from an address: the current line, and the lines of the loops that it is in. -/
def Group.refsAt (g : Group) (slotB : Bool) (pc : Nat) : Group :=
  let ls := g.loops.filter fun (b, lo, hi) => b != slotB || (lo ≤ pc && pc ≤ hi)
  let mine := g.refs.filter fun r => r.slotB != slotB || r.line = pc / 128 || inLoops ls slotB r.line
  { g with
    loops := ls
    refs := if mine.any (fun r => r.slotB = slotB && r.line = pc / 128) then mine
      else ⟨slotB, pc / 128, none⟩ :: mine }

/-- A reference whose line the buffer is about to fetch afresh keeps the old copy (R329). -/
def Group.keepOld (g : Group) (line : Nat) (d : BitVec 1024) : Group :=
  { g with refs := g.refs.map fun r => if r.line = line && r.old.isNone then { r with old := some d } else r }
def keepOldIn (core line : Nat) (d : BitVec 1024) (e : Nat × Group) : Nat × Group :=
  if coreOfGrp e.1 = core then (e.1, e.2.keepOld line d) else e

/-- The 128 bytes of a line, from the die's L2 (R328). -/
def lineBytes (s : State) (die : Nat) (host : Bool) (pa : Nat) : BitVec 1024 :=
  let half (a : Nat) : Nat := match (if host then none else copyAt s (.l2 die) (a / 64)) with
    | some x => x.data.toNat
    | none => rdBytes s.mem 64 a
  BitVec.ofNat 1024 (half pa + half (pa + 64) * 2 ^ 512)

/-- Whether a slot of a core holds a reference to a line. -/
def referenced (s : State) (core line : Nat) : Bool :=
  s.groups.any fun e => coreOfGrp e.1 = core && e.2.refs.any fun r => r.line = line

/-- The buffer holds 640 lines: a full one gives up a line that no slot refers to (R328; log 33: the lowest). -/
def lineSpace (core line : Nat) : Op Unit := do
  let s ← get
  let b := (s.core core).ibuf
  if 640 ≤ b.length && !thas b line then
    match b.find? fun e => !referenced s core e.1 with
    | some e => modCore core fun k => { k with ibuf := tdel e.1 k.ibuf }
    | none => pure ()

/-- Put a line into a core's buffer. -/
def fillLine (core t line pa : Nat) (host : Bool) : Op Unit := do
  lineSpace core line
  let s ← get
  match tlook line (s.core core).ibuf with
  | some l =>
    if l.tenant = t then modify fun s => { s with groups := s.groups.map (keepOldIn core line l.data) }
  | none => pure ()
  let x : Line := ⟨t, lineBytes s (dieOfCore core) host pa, pa, false⟩
  modCore core fun k => { k with ibuf := tset line x k.ibuf }

/-- The copy that a slot issues from: the old one under a reference, or one that is not stale (R329). -/
def heldLine (s : State) (core t line : Nat) (g : Group) (slotB : Bool) : Option (BitVec 1024) :=
  let l := (tlook line (s.core core).ibuf).filter fun l => l.tenant = t
  match g.refs.find? (fun r => r.slotB = slotB && r.line = line) with
  | some r => match r.old with
    | some d => some d
    | none => l.map (·.data)
  | none => (l.filter fun l => !l.stale).map (·.data)

/-- Fetch the word at the slot's PC (R59). -/
def fetchWord : Op W64 := do
  let s ← get
  let c := s.cur
  let g ← self
  let core := coreOfGrp c.gk
  let t ← selfTenant
  let pc := c.pc.toNat
  let line := pc / 128
  if pc / 2 ^ 56 != 0 then raise 0x04 c.pc
  if (heldLine s core t line g c.slotB).isNone then
    if g.failed.contains (pc / 4096) then raise 0x04 c.pc
    if syncing s t pc then waitFor .home
    match ← xlate (dieOfCore core) (some core) t pc with
    | .wait => waitFor .home
    | .bad f =>
      let (fn, id, page) ← reportFault t pc f 4 (agentWord s c.gk)
      waitFor (.fault fn id page)
    | .ok e =>
      if !e.runnable then raise 0x04 c.pc
      let s ← get
      let pa := e.phys (line * 128)
      let bad : Bool := s.poison.mem.any fun w => pa < 32 * w + 32 && 32 * w < pa + 128
      match reach s t pa with
      | .none => raise 0x04 c.pc
      | .zeroing => waitFor .home
      | .absent pa =>
        let (fn, id, page) ← askHost pa pc
        waitFor (.fault fn id page)
      | .dev _ _ =>
        if bad then raise 0x08 c.pc
        fillLine core t line pa false
      | .host _ =>
        if bad then raise 0x08 c.pc
        fillLine core t line pa true
  let d := ((heldLine (← get) core t line (← self) c.slotB).getD 0).toNat
  modSelf fun g => g.refsAt c.slotB pc
  return BitVec.ofNat 64 (d / 2 ^ (pc % 128 / 8 * 64))

/-- IPREF's fetch of one line (13_control_sync_ops.md R352): one that would fault is dropped. -/
def prefetchLine (line : Nat) : Op Unit := do
  let s ← get
  let core := coreOfGrp s.cur.gk
  let t ← selfTenant
  if line / 2 ^ 49 = 0 && (heldLine s core t line {width := 16} false).isNone then
    match ← xlate (dieOfCore core) (some core) t (line * 128) with
    | .ok e =>
      let s ← get
      let pa := e.phys (line * 128)
      let bad : Bool := s.poison.mem.any fun w => pa < 32 * w + 32 && 32 * w < pa + 128
      match reach s t pa with
      | .dev _ _ => if e.runnable && !bad then fillLine core t line pa false
      | .host _ => if e.runnable && !bad then fillLine core t line pa true
      | _ => pure ()
    | _ => pure ()

/-- ISYNC's effect on the buffer (13_control_sync_ops.md R366): the group's references are dropped, every line is stale. -/
def syncCode : Op Unit := do
  let s ← get
  modSelf fun g => { g with refs := [], loops := [] }
  modCore (coreOfGrp s.cur.gk) fun k => { k with ibuf := k.ibuf.map fun (i, l) => (i, { l with stale := true }) }

end Sys2Proof.Machine
end

