-- ==== Sys2Proof/Machine/Control.lean ====
section
/-! DEFINITION. Branches, JOIN, EXIT, IDEM, NOP and IPREF (13_control_sync_ops.md R345 to R353). -/

namespace Sys2Proof.Machine

/-! Branches -/

/-- BRA (R345). -/
def execBra (off : BitVec 32) : State → Host.Outcome State Fault Refusal :=
  runOp do
    legal (.bra off)
    setPc (target (← get).cur.pc off)

/-- Paths in ascending order of address, empty ones omitted and equal addresses merged (R322, R346). -/
def addPath (a : W64) (m : Mask) : List (W64 × Mask) → List (W64 × Mask)
  | [] => [(a, m)]
  | (b, n) :: ps =>
    if a = b then (b, n ||| m) :: ps
    else if a.toNat < b.toNat then (a, m) :: (b, n) :: ps
    else (b, n) :: addPath a m ps
def pathsOf (xs : List (W64 × Mask)) : List (W64 × Mask) :=
  xs.foldl (fun ps (a, m) => if m = 0 then ps else addPath a m ps) []

/-- BRC (R346). -/
def execBrc (p : BitVec 3) (neg : Bool) (join : BitVec 18) (off : BitVec 32) : State → Host.Outcome State Fault Refusal :=
  runOp do
    legal (.brc p neg join off)
    let pc := (← get).cur.pc
    let g ← self
    let m := (g.slot (← get).cur.slotB).mask
    let c := if neg then ~~~(g.pred p.toNat) else g.pred p.toNat
    divide (pc + join.signExtend 64 * 8) (pathsOf [(target pc off, m &&& c), (pc + 8, m &&& ~~~c)])

/-- The index of a lane of JTBL (R347). -/
def tableIndex (s : State) (gk : Nat) (g : Group) (l : Nat) : Reg → Nat
  | .lane v => elemAt s gk g v.toNat l
  | .sreg m => (g.scalar m.toNat).toNat
  | .const i => constInt 64 i.toNat

def needTable : Need := ⟨[0, 2], true, false, 4, false, none⟩

/-- JTBL (R347): the range check, then the checks of R269 on the entries, then the split. -/
def execJtbl (p : BitVec 3) (idx : Reg) (tb : BitVec 6) (join count : BitVec 16) :
    State → Host.Outcome State Fault Refusal :=
  runOp do
    legal (.jtbl p idx tb join count)
    let act ← activeMask p.toNat
    let s ← get
    let c := s.cur
    let g ← self
    let ls := lanesOf g.width act
    checkElems (ls.flatMap fun l => regElems 4 l idx)
    let xs := ls.map fun l => tableIndex s c.gk g l idx
    match xs.find? (fun x => count.toNat ≤ x) with
    | some x => raise 0x0C (BitVec.ofNat 64 x)
    | none => pure ()
    let addrs := xs.map fun (x : Nat) => ((g.scalar tb.toNat).toNat + 4 * x) % 2 ^ 64
    let ts ← checkLanes needTable (ls.zip addrs)
    let lc ← localCtx c.gk
    match ts.find? (tgtBad lc (← get) 4) with
    | some t => raise 0x08 (BitVec.ofNat 64 (tgtAddr t))
    | none => pure ()
    let es ← loadAll lc 4 0 false ts
    let rest := (g.slot c.slotB).mask &&& ~~~act
    let paths := (ls.zip es).map fun (l, e) => (target c.pc (BitVec.ofNat 32 e), BitVec.ofNat 128 (2 ^ l))
    divide (c.pc + join.signExtend 64 * 8) (pathsOf ((c.pc + 8, rest) :: paths))

/-- CALL (R348). -/
def execCall (link : BitVec 6) (off : BitVec 32) : State → Host.Outcome State Fault Refusal :=
  runOp do
    legal (.call link off)
    let pc := (← get).cur.pc
    modSelf fun g => g.setScalar link.toNat (pc + 8)
    setPc (target pc off)

/-- RET (R348). -/
def execRet (a : BitVec 6) : State → Host.Outcome State Fault Refusal :=
  runOp do
    legal (.ret a)
    let t := (← self).scalar a.toNat
    if t &&& 7 != 0 then raise 0x03 t
    setPc t

/-- LOOPB (R349); a taken branch puts the slot into the loop of R328. -/
def execLoopb (c : BitVec 6) (off : BitVec 32) : State → Host.Outcome State Fault Refusal :=
  runOp do
    legal (.loopb c off)
    let cur := (← get).cur
    let n := (← self).scalar c.toNat
    let n := if n = 0 then n else n - 1
    modSelf fun g => g.setScalar c.toNat n
    let t := target cur.pc off
    let mine : Bool × Nat × Nat := (cur.slotB, t.toNat, cur.pc.toNat)
    if n != 0 then
      setPc t
      let k := (← get).core (coreOfGrp cur.gk)
      modSelf fun g =>
        let loops := mine :: g.loops.filter (· != mine)
        let body := (List.range 4).map (t.toNat / 128 + ·)
        let fresh := body.filter fun x => inLoops [mine] cur.slotB x && (tlook x k.ibuf).any (fun l => !l.stale) &&
          !g.refs.any fun r => r.slotB = cur.slotB && r.line = x
        { g with loops := loops, refs := g.refs ++ fresh.map fun x => ⟨cur.slotB, x, none⟩ }
    else
      setPc (cur.pc + 8)
      modSelf fun g => { g with loops := g.loops.filter (· != mine) }

/-- JOIN (R323, R350). -/
def execJoin : State → Host.Outcome State Fault Refusal :=
  runOp do
    legal .join
    let c := (← get).cur
    match ((← self).slot c.slotB).join with
    | none => pure ()
    | some j =>
      touchEntries j (j + 1)
      let e ← getEntry c.gk j
      if e.pc = c.pc.toNat then arriveJoin j

/-! EXIT -/

/-- Whether EXIT of lanes `x` of a slot ends the group (R325), and the overflow entries it would reach. -/
def exitEnds (g : Group) (c : Ctx) (x : Mask) (e : Option DivEntry) : Bool :=
  let sl := g.slot c.slotB
  sl.mask &&& ~~~x = 0 && (g.slot (!c.slotB)).mask = 0 &&
  (match sl.join, e with
  | none, _ => g.sp = 0
  | some _, some e => g.sp = 1 && e.pending = 1 && e.mask &&& ~~~x = 0
  | some _, none => false)

/-- EXIT (R325, R351): the group's end waits for its chain, its outstanding words and its futures. -/
def execExit (p : BitVec 3) : State → Host.Outcome State Fault Refusal :=
  runOp do
    legal (.exit p)
    let x ← activeMask p.toNat
    if x = 0 then finish
    let c := (← get).cur
    let g ← self
    let sl := g.slot c.slotB
    if sl.join.isSome then touchEntries 0 g.sp
    let e : Option DivEntry ← (match sl.join with
      | none => pure none
      | some j => do return some (← getEntry c.gk j))
    let ends := exitEnds g c x e
    if ends then
      let _ ← closeChain
      awaitPending
      awaitContribs
      awaitFutures
    dropLanes c.gk x 1024 sl.join
    modSelf fun g => g.setSlot c.slotB { g.slot c.slotB with mask := sl.mask &&& ~~~x }
    if sl.mask &&& ~~~x = 0 then
      match sl.join with
      | none => pure ()
      | some j => arriveJoin j
    if ends then endGroup c.gk

/-! IDEM, NOP, IPREF -/

/-- The checkpoint record of R443 as 64-bit words: the first 512 bytes, the fields from 0x200, the stack entries. -/
def checkpoint (g : Group) (c : Ctx) (units : BitVec 32) : List Nat :=
  let sl := g.slot c.slotB
  let ctl (i : Nat) : Nat := (tget 0 g.ctl i).toNat
  let binding (j : Nat) : Nat := if (tget 0 g.ctl (80 + 2 * j)).getLsbD 63 then ctl (80 + 2 * j) % 2 ^ 32 else 0
  (List.range 64).map ctl ++
  [2 ^ 64 - 1, 2 ^ 64 - 1] ++ (List.range 14).map (fun i => ctl (66 + i)) ++
  (List.range 4).map (fun i => binding (2 * i) + binding (2 * i + 1) * 2 ^ 32) ++
  [g.seed.toNat, c.pc.toNat, sl.mask.toNat % 2 ^ 64, sl.mask.toNat / 2 ^ 64, joinWord sl.join + g.sp * 2 ^ 32,
   units.toNat + g.units.length * 2 ^ 32 + 2 ^ 40] ++
  List.replicate 38 0 ++
  (List.range 128).map (fun i => if i < 4 * g.sp then ctl (128 + i) else 0) ++
  List.replicate 256 0

/-- A unit's registers as the window lays them out: two elements in a word (R27, R442). -/
def unitImage (s : State) (gk : Nat) (g : Group) (u : Nat) : List Nat :=
  (List.range 8).flatMap fun r => (List.range (g.width / 2)).map fun i =>
    elemAt s gk g (8 * u + r) (2 * i) + elemAt s gk g (8 * u + r) (2 * i + 1) * 2 ^ 32

/-- IDEM (R353): with the other slot empty, the checkpoint is written and the region opens. -/
def execIdem (mask : BitVec 32) : State → Host.Outcome State Fault Refusal :=
  runOp do
    legal (.idem mask)
    let c := (← get).cur
    if ((← self).slot (!c.slotB)).mask != 0 then finish
    awaitPending
    awaitFutures
    let s ← get
    let g ← self
    let us := (List.range g.units.length).filter fun u => mask.getLsbD u
    modSelf fun g => { g with
      regionOpen := true
      due := g.due ++ (0, checkpoint g c mask) ::
        us.map fun u => (0x1A000 + 32 * g.width * u, unitImage s c.gk g u) }
    flushDue c.gk

/-- NOP (R352). -/
def execNop (p : BitVec 3) : State → Host.Outcome State Fault Refusal := runOp (legal (.nop p))

/-- IPREF (R352). -/
def execIpref (p : BitVec 3) (lines : BitVec 4) (off : BitVec 32) : State → Host.Outcome State Fault Refusal :=
  runOp do
    legal (.ipref p lines off)
    if (← activeMask p.toNat) = 0 then finish
    let first := (target (← get).cur.pc off).toNat / 128
    (List.range (lines.toNat + 1)).forM fun i => prefetchLine (first + i)

end Sys2Proof.Machine
end

