-- ==== Sys2Proof/Machine/Beam.lean ====
section
/-! DEFINITION. Beam words (14_dispatch_lanterns.md R387 to R393): their effect on the call of the Lantern in progress, their charge, and the running of a call. -/

namespace Sys2Proof.Machine

/-! The call in progress -/

/-- The running call of the Lantern in progress. -/
def callNow : Op Call := do
  let s ← get
  let c ← need (s.lantern s.cur.lan).call
  require (c.ended = 0)
  return c
def putCall (c : Call) : Op Unit := do modLantern (← get).cur.lan fun l => { l with call := some c }

/-- Charge an instruction (R392): one that would exceed the allowance does not run, and the call has overrun. -/
def charge (cost : Nat) : Op Call := do
  let c ← callNow
  if c.allow < c.charge + cost then
    putCall { c with ended := 2 }
    finish
  else return { c with charge := c.charge + cost }

def Call.reg (c : Call) (r : BReg) : W32 := c.regs.getD r.toNat 0
def Call.setReg (c : Call) (r : BReg) (v : W32) : Call := { c with regs := c.regs.set r.toNat v }
/-- Operand x (R387). -/
def Call.arg (c : Call) : BArg → W32
  | .reg r => c.reg r
  | .imm i => i.signExtend 32

/-- The address of the ENDL that matches a LOOP: `n` counts the loops opened inside (R389). -/
def endlAfter (n p : Nat) : List W32 → Nat
  | [] => p
  | w :: ws => match decodeBeam w with
    | .ok (.beamLoop _) => endlAfter (n + 1) (p + 1) ws
    | .ok .beamEndl => if n = 0 then p else endlAfter (n - 1) (p + 1) ws
    | _ => endlAfter n (p + 1) ws
def Call.endOf (c : Call) (p : Nat) : Nat := endlAfter 0 (p + 1) (c.routine.drop (p + 1))

/-- A branch: the loops whose span does not hold the target end (R389). -/
def Call.goto (c : Call) (t : Nat) : Call := { c with pc := t, loops := c.loops.filter fun l => t ≤ c.endOf l.1 }
/-- The next word. -/
def Call.step (c : Call) : Call := { c with pc := c.pc + 1 }

/-- A three-operand word. -/
def beamBin (d a : BReg) (x : BArg) (f : W32 → W32 → W32) : Op Unit := do
  let c ← charge 1
  putCall (c.setReg d (f (c.reg a) (c.arg x))).step

/-! The words (R388) -/

def opLdi (d : BReg) (i : BitVec 22) : Op Unit := do
  let c ← charge 1
  putCall (c.setReg d (i.signExtend 32)).step
def opMov (d a : BReg) : Op Unit := do
  let c ← charge 1
  putCall (c.setReg d (c.reg a)).step
def opAdd (d a : BReg) (x : BArg) : Op Unit := beamBin d a x fun a x => a + x
def opSub (d a : BReg) (x : BArg) : Op Unit := beamBin d a x fun a x => a - x
def opMul (d a : BReg) (x : BArg) : Op Unit := beamBin d a x fun a x => a * x
def opAnd (d a : BReg) (x : BArg) : Op Unit := beamBin d a x fun a x => a &&& x
def opOr (d a : BReg) (x : BArg) : Op Unit := beamBin d a x fun a x => a ||| x
def opXor (d a : BReg) (x : BArg) : Op Unit := beamBin d a x fun a x => a ^^^ x
def opShl (d a : BReg) (x : BArg) : Op Unit := beamBin d a x fun a x => if x.toNat < 32 then a <<< x.toNat else 0
def opShr (d a : BReg) (x : BArg) : Op Unit := beamBin d a x fun a x => if x.toNat < 32 then a >>> x.toNat else 0
def opMin (d a : BReg) (x : BArg) : Op Unit := beamBin d a x fun a x => if x.toNat < a.toNat then x else a
def opMax (d a : BReg) (x : BArg) : Op Unit := beamBin d a x fun a x => if a.toNat < x.toNat then x else a
def opClt (d a : BReg) (x : BArg) : Op Unit := beamBin d a x fun a x => if a.toNat < x.toNat then 1 else 0
def opCeq (d a : BReg) (x : BArg) : Op Unit := beamBin d a x fun a x => if a = x then 1 else 0
def opBf (a : BReg) (f : BitVec 8) : Op Unit := do
  let c ← charge 1
  putCall (if c.reg a = 0 then c.goto (c.pc + f.toNat) else c.step)
def opJf (f : BitVec 8) : Op Unit := do
  let c ← charge 1
  putCall (c.goto (c.pc + f.toNat))
/-- LOOP opens a loop of `n` passes (R389). -/
def opLoop (n : BitVec 8) : Op Unit := do
  let c ← charge 1
  putCall { c with pc := c.pc + 1, loops := (c.pc, n.toNat) :: c.loops }
def opEndl : Op Unit := do
  let c ← charge 1
  match c.loops with
  | (p, n) :: rest => putCall (if n ≤ 1 then { c with pc := c.pc + 1, loops := rest } else { c with pc := p + 1, loops := (p, n - 1) :: rest })
  | [] => putCall c.step
/-- CTR: a counter of a candidate, saturated; 0 for an index of n or more (R390). -/
def opCtr (d a : BReg) (x : BitVec 17) : Op Unit := do
  let c ← charge 4
  let v := (c.cands.getD (c.reg a).toNat []).getD x.toNat 0
  putCall (c.setReg d (BitVec.ofNat 32 (min v (2 ^ 32 - 1)))).step

/-- The word of Mooring that an access inside the routine's window names (R391). -/
def Call.moorWord (c : Call) (a : BReg) (x : BArg) : Nat :=
  (c.win + (c.reg a + c.arg x).toNat % 2 ^ c.winlog) % 262144
/-- MRD; an uncorrectable word ends the call as an overrun and is rewritten as 0 (16_recovery.md R457). -/
def opMrd (d a : BReg) (x : BArg) : Op Unit := do
  let c ← charge 12
  let s ← get
  let k := c.moorWord a x
  if s.poison.moor.contains k then
    modify fun s => { s with mooring := tput 0 s.mooring k 0, poison := { s.poison with moor := s.poison.moor.filter (· != k) } }
    note (.whole ⟨0, 0, 4, 1, 0xFFFF, 0, 0⟩)
    putCall { c with ended := 2 }
  else putCall (c.setReg d (tget 0 s.mooring k)).step
def opMwr (d a : BReg) (x : BArg) : Op Unit := do
  let c ← charge 12
  let k := c.moorWord a x
  modify fun s => { s with mooring := tput 0 s.mooring k (c.reg d), poison := { s.poison with moor := s.poison.moor.filter (· != k) } }
  putCall c.step
def opDec (d : BReg) : Op Unit := do
  let c ← charge 1
  putCall (c.setReg d (if c.reg d = 0 then 0 else c.reg d - 1)).step
def opRet : Op Unit := do
  let c ← charge 1
  putCall { c with ended := 1 }

/-! Their meanings as instructions -/

/-- LDI (R388). -/
def execBeamLdi (d : BReg) (i : BitVec 22) : State → Host.Outcome State Fault Refusal := runOp (opLdi d i)
/-- MOV (R388). -/
def execBeamMov (d a : BReg) : State → Host.Outcome State Fault Refusal := runOp (opMov d a)
/-- ADD (R388). -/
def execBeamAdd (d a : BReg) (x : BArg) : State → Host.Outcome State Fault Refusal := runOp (opAdd d a x)
/-- SUB (R388). -/
def execBeamSub (d a : BReg) (x : BArg) : State → Host.Outcome State Fault Refusal := runOp (opSub d a x)
/-- MUL (R388). -/
def execBeamMul (d a : BReg) (x : BArg) : State → Host.Outcome State Fault Refusal := runOp (opMul d a x)
/-- AND (R388). -/
def execBeamAnd (d a : BReg) (x : BArg) : State → Host.Outcome State Fault Refusal := runOp (opAnd d a x)
/-- OR (R388). -/
def execBeamOr (d a : BReg) (x : BArg) : State → Host.Outcome State Fault Refusal := runOp (opOr d a x)
/-- XOR (R388). -/
def execBeamXor (d a : BReg) (x : BArg) : State → Host.Outcome State Fault Refusal := runOp (opXor d a x)
/-- SHL (R388). -/
def execBeamShl (d a : BReg) (x : BArg) : State → Host.Outcome State Fault Refusal := runOp (opShl d a x)
/-- SHR (R388). -/
def execBeamShr (d a : BReg) (x : BArg) : State → Host.Outcome State Fault Refusal := runOp (opShr d a x)
/-- MIN (R388). -/
def execBeamMin (d a : BReg) (x : BArg) : State → Host.Outcome State Fault Refusal := runOp (opMin d a x)
/-- MAX (R388). -/
def execBeamMax (d a : BReg) (x : BArg) : State → Host.Outcome State Fault Refusal := runOp (opMax d a x)
/-- CLT (R388). -/
def execBeamClt (d a : BReg) (x : BArg) : State → Host.Outcome State Fault Refusal := runOp (opClt d a x)
/-- CEQ (R388). -/
def execBeamCeq (d a : BReg) (x : BArg) : State → Host.Outcome State Fault Refusal := runOp (opCeq d a x)
/-- BF (R388). -/
def execBeamBf (a : BReg) (f : BitVec 8) : State → Host.Outcome State Fault Refusal := runOp (opBf a f)
/-- JF (R388). -/
def execBeamJf (f : BitVec 8) : State → Host.Outcome State Fault Refusal := runOp (opJf f)
/-- LOOP (R388). -/
def execBeamLoop (n : BitVec 8) : State → Host.Outcome State Fault Refusal := runOp (opLoop n)
/-- ENDL (R388). -/
def execBeamEndl : State → Host.Outcome State Fault Refusal := runOp opEndl
/-- CTR (R388). -/
def execBeamCtr (d a : BReg) (c : BitVec 17) : State → Host.Outcome State Fault Refusal := runOp (opCtr d a c)
/-- MRD (R388). -/
def execBeamMrd (d a : BReg) (x : BArg) : State → Host.Outcome State Fault Refusal := runOp (opMrd d a x)
/-- MWR (R388). -/
def execBeamMwr (d a : BReg) (x : BArg) : State → Host.Outcome State Fault Refusal := runOp (opMwr d a x)
/-- DEC (R388). -/
def execBeamDec (d : BReg) : State → Host.Outcome State Fault Refusal := runOp (opDec d)
/-- RET (R388). -/
def execBeamRet : State → Host.Outcome State Fault Refusal := runOp opRet

/-! Running a call -/

/-- The effect of a Beam word. -/
def beamDo : Instr → Op Unit
  | .beamLdi d i => opLdi d i
  | .beamMov d a => opMov d a
  | .beamAdd d a x => opAdd d a x
  | .beamSub d a x => opSub d a x
  | .beamMul d a x => opMul d a x
  | .beamAnd d a x => opAnd d a x
  | .beamOr d a x => opOr d a x
  | .beamXor d a x => opXor d a x
  | .beamShl d a x => opShl d a x
  | .beamShr d a x => opShr d a x
  | .beamMin d a x => opMin d a x
  | .beamMax d a x => opMax d a x
  | .beamClt d a x => opClt d a x
  | .beamCeq d a x => opCeq d a x
  | .beamBf a f => opBf a f
  | .beamJf f => opJf f
  | .beamLoop n => opLoop n
  | .beamEndl => opEndl
  | .beamCtr d a c => opCtr d a c
  | .beamMrd d a x => opMrd d a x
  | .beamMwr d a x => opMwr d a x
  | .beamDec d => opDec d
  | .beamRet => opRet
  | _ => pure ()

/-- One word of the call in progress. -/
def beamWord : Op Unit := do
  let c ← callNow
  match c.routine[c.pc]? with
  | none => putCall { c with ended := 2 }
  | some w => match decodeBeam w with
    | .ok i => beamDo i
    | .error _ => putCall { c with ended := 2 }

/-- An operation whose early end is its own. -/
def quietly (m : Op Unit) : Op Unit := fun s =>
  match m s with
  | .ok _ t => .ok () t
  | .error .done t => .ok () t
  | .error e t => .error e t

/-- Run the call of a Lantern to its end: every word costs at least 1, and an allowance is at most 4,080. -/
def beamRun : Nat → Op Unit
  | 0 => pure ()
  | fuel + 1 => do
    quietly beamWord
    let s ← get
    match (s.lantern s.cur.lan).call with
    | some c => if c.ended = 0 then beamRun fuel
    | none => pure ()

/-- Run a call on Lantern `n`; the call as it ended. -/
def runCall (n : Nat) (c : Call) : Op Call := do
  let was := (← get).lantern n
  modify fun s => { s with cur := { s.cur with lan := n } }
  modLantern n fun l => { l with call := some c }
  beamRun 4096
  let x := ((← get).lantern n).call.getD c
  modLantern n fun l => { l with call := was.call }
  return x

end Sys2Proof.Machine
end

