-- ==== Sys2Proof/Machine/Lantern.lean ====
section
/-! DEFINITION. The decision points of the Lanterns (14_dispatch_lanterns.md R382 to R386, R390, R393): candidates and their counters, fixed decisions, calls. -/

namespace Sys2Proof.Machine

/-! Queue and partition registers -/

/-- QCTL of a queue (R370). -/
def qctlOff (j : Nat) : Nat := 0x10000 + 0x40 * j
def State.qctl (s : State) (qk : Nat) : W64 := s.reg (tenantOf qk) (qctlOff (qk % 64)) 0x1000000
def qPrio (s : State) (qk : Nat) : Nat := bits (s.qctl qk).toNat 18 16
def qWeight (s : State) (qk : Nat) : Nat := bits (s.qctl qk).toNat 31 24

/-- Partition policy registers with their values at reset (R397, 16_recovery.md R450). -/
def State.pd (s : State) (p off : Nat) (reset : W64) : W64 := s.reg pfn (0x20000 + 0x40 * p + off) reset
def pdSlice (s : State) (p : Nat) : Nat := (s.pd p 0 0x100040).toNat
def pdDrain (s : State) (p : Nat) : Nat := (s.pd p 8 200000).toNat % 2 ^ 32
def pdAllow (s : State) (p : Nat) : Nat := (s.pd p 0x10 0x100404101008).toNat
def pdMoor (s : State) (p : Nat) : Nat := (s.pd p 0x18 0).toNat
def pdWdog (s : State) (p : Nat) : Nat := (s.pd p 0x20 100000).toNat % 2 ^ 32
def pdShrink (s : State) (p : Nat) : Nat := (s.pd p 0x28 1000000).toNat % 2 ^ 32

/-- The allowance of a point, in cycles (R397). -/
def allowOf (s : State) (p point : Nat) : Nat := 16 * max 1 (bits (pdAllow s p) (8 * point + 7) (8 * point))

/-- The sector of a quad, and the lowest sector that holds a quad of a partition (R368, R382). -/
def sectorOf (q : Nat) : Nat := dieOfQuad q * 4 + q % Config.quadsPerDie / 11
def lowSector (s : State) (p : Nat) : Option Nat := lowest ((s.part p).own.quads.map sectorOf)
def headLantern : Nat := 32

/-! Candidates (R382, R383) -/

/-- Owned quads without a resident block. -/
def freeQuads (s : State) (p : Nat) : List Nat :=
  (s.part p).own.quads.filter fun q => !s.blocks.any fun e => quadOfCore (coreOfBlk e.1) = q

def recPrio (s : State) (qk : Nat) (r : LRec) : Nat := r.prio.getD (qPrio s qk)
def Grid.unplaced (g : Grid) : Bool := g.nextBlk < g.record.blocks || !g.savedBlks.isEmpty

/-- The queues of a tenant that exist in the state. -/
def queuesOf (s : State) (t : Nat) : List (Nat × Queue) := s.queues.filter fun e => tenantOf e.1 = t

/-- Queue keys by descending priority, then ascending. -/
def byPrio (s : State) (xs : List (Nat × Grid)) : List (Nat × Grid) :=
  (List.range 8).reverse.flatMap fun k => xs.filter fun (qk, g) => recPrio s qk g.record = k

/-- The candidates of PICK. -/
def pickCands (s : State) (t : Nat) : List (Nat × Grid) :=
  byPrio s ((queuesOf s t).filterMap fun (qk, q) => match q.active with
    | some g => if g.retiring.isNone && (g.state = .ready || g.state = .running) && g.unplaced then some (qk, g) else none
    | none => none)

/-- Whether a tenant has a grid that TICK counts (R381). -/
def hasWork (s : State) (t : Nat) : Bool :=
  (queuesOf s t).any fun (_, q) => match q.active with
    | some g => g.retiring.isNone && (g.state = .ready || g.state = .running || g.state = .saved)
    | none => false

/-- The tenants of a partition with work, in ascending order. -/
def tickCands (s : State) (p : Nat) : List Nat :=
  ((s.queues.map fun e => tenantOf e.1).eraseDups).filter fun t => s.partOf t = p && hasWork s t

/-- The dies on which a partition owns a quad. -/
def dieCands (s : State) (p : Nat) : List Nat :=
  (List.range Config.dies).filter fun d => (s.part p).own.quads.any fun q => dieOfQuad q = d

/-! Counters (R390) -/

/-- Cycles that the groups of a grid have slept in the current epoch. -/
def gridWait (s : State) (qk : Nat) (g : Grid) : Nat :=
  s.groups.foldl (fun n (gk, x) => match x.asleep, tlook (blkOfGrp gk) s.blocks with
    | some z, some b => if b.grid = qk then n + (s.cycle - max z.since g.epochAt) else n
    | _, _ => n) g.waitE
def resBlocks (s : State) (qk : Nat) : Nat := (s.blocks.filter fun e => e.2.grid = qk).length

/-- L2 misses and energy of an epoch: the spec gives no number of them (log 13). -/
def freeNumber : Op Nat := do return (← freeValue).toNat % 2 ^ 32

def gridCtrs (qk : Nat) (g : Option Grid) (r : LRec) : Op (List Nat) := do
  let miss ← freeNumber
  let energy ← freeNumber
  let s ← get
  let g0 (f : Grid → Nat) : Nat := match g with
    | some g => f g
    | none => 0
  return [g0 fun _ => resBlocks s qk, g0 fun _ => miss, g0 (·.issuedE), g0 (gridWait s qk), g0 fun _ => energy,
    recPrio s qk r, qWeight s qk, (s.queue qk).recs.length, qk % 64, tenantOf qk, g0 fun g => min g.age 65535,
    (freeQuads s (s.partOf (tenantOf qk))).length]

/-- Of a tenant: sums over its grids; its queue counters are not stated (log 13). -/
def tenantCtrs (p t : Nat) : Op (List Nat) := do
  let s ← get
  let gs := (queuesOf s t).filterMap fun (qk, q) => q.active.map fun g => (qk, g)
  let sum (f : Nat → Grid → Nat) : Nat := gs.foldl (fun n (qk, g) => n + f qk g) 0
  let miss ← freeNumber
  let energy ← freeNumber
  let weight ← freeNumber
  let depth ← freeNumber
  let queue ← freeNumber
  return [sum fun qk _ => resBlocks s qk, miss, sum fun _ g => g.issuedE, sum (gridWait s), energy,
    gs.foldl (fun n (qk, g) => max n (recPrio s qk g.record)) 0, weight, depth, queue, t, min (s.use t).age 65535,
    (freeQuads s p).length]

def dieCtrs (s : State) (p d : Nat) : List Nat :=
  List.replicate 11 0 ++ [((freeQuads s p).filter fun q => dieOfQuad q = d).length]

/-! Decisions -/

/-- The decision registers (R385). -/
structure Decision where
  pick    : Nat := 0
  prio    : Nat := 0
  slice   : Nat := 0
  migrate : Nat := 0
  tick    : Nat := 0
deriving DecidableEq, Repr

def Decision.regs (d : Decision) : List W32 :=
  [d.pick, d.prio, d.slice, d.migrate, d.tick].map (BitVec.ofNat 32 ·)
def decisionOf (rs : List W32) : Decision :=
  let r (i : Nat) : Nat := (rs.getD i 0).toNat
  ⟨r 1 % 65536, r 2 % 8, r 3 % 65536, r 4 % 256, r 5 % 65536⟩

/-- Points 2 and 5 belong to the hypervisor (R382). -/
def pointFn (point t : Nat) : Nat := if point = 2 || point = 5 then pfn else t

/-- A count in the low or the high half of LNCNT, saturating (R396). -/
def countLn (fn sh : Nat) : Op Unit := modFn fn fun x =>
  let n := bits x.lncnt (sh + 31) sh
  if n = 2 ^ 32 - 1 then x else { x with lncnt := x.lncnt + 2 ^ sh }

/-- Call a decision point (R384, R385, R393): without a routine, after an overrun or for an invalid decision the fixed
decision holds. -/
def decide' (lan p t point : Nat) (cands : List (List Nat)) (cur : Option Nat) (fixed : Decision)
    (valid : Decision → Bool) : Op Decision := do
  let s ← get
  let fn := pointFn point t
  match (s.fn fn).routines.find? (fun r => r.point = point) with
  | none => return fixed
  | some r =>
    let c ← runCall lan
      { routine := r.code
        regs := [BitVec.ofNat 32 cands.length] ++ fixed.regs ++ [BitVec.ofNat 32 (cur.getD 0xFFFFFFFF)] ++ List.replicate 9 0
        allow := allowOf s p point
        win := r.win
        winlog := r.winlog
        cands := cands }
    if c.ended = 1 then
      let d := decisionOf c.regs
      if valid d then return d
      else
        countLn fn 0
        return fixed
    else
      countLn fn 32
      modFn fn fun x => { x with routines := x.routines.filter fun r => r.point != point }
      if fn != pfn then modUse t fun u => { u with overrun := u.overrun + 1 }
      return fixed

/-! The points -/

/-- ENQ and WAKE: the grid's priority (R386). -/
def prioPoint (point qk : Nat) (g : Option Grid) (r : LRec) : Op Nat := do
  let s ← get
  let t := tenantOf qk
  let p := s.partOf t
  let fixed : Decision := { prio := recPrio s qk r }
  match lowSector s p with
  | none => return fixed.prio
  | some lan =>
    let d ← decide' lan p t point [← gridCtrs qk g r] none fixed fun _ => true
    return d.prio

/-- The fixed decision of PICK (R386): among the candidates of highest priority. -/
def fixedPick (s : State) (lan t : Nat) (cands : List (Nat × Grid)) : Nat :=
  let l := s.lantern lan
  let top : List (Nat × Grid) := match cands with
    | (qk, g) :: _ => cands.filter fun c => recPrio s c.1 c.2.record = recPrio s qk g.record
    | [] => []
  let last := l.lastQ.filter fun qk => tenantOf qk = t
  let keep := last.filter fun qk => top.any (fun c => c.1 = qk) && l.sameQ < qWeight s qk
  let next := match last with
    | some qk => match top.find? (fun c => qk < c.1) with
      | some c => some c.1
      | none => top.head?.map (·.1)
    | none => top.head?.map (·.1)
  let want := keep.orElse fun _ => next
  (cands.findIdx? fun c => some c.1 = want).getD 0

/-- PICK for a tenant in a sector (R379, R382): the queue chosen. -/
def pickPoint (lan p t : Nat) : Op (Option (Nat × Grid)) := do
  let s ← get
  let cands := (pickCands s t).take 1024
  if cands.isEmpty then return none
  else
    let ctrs ← cands.mapM fun (qk, g) => gridCtrs qk (some g) g.record
    let cur := cands.findIdx? fun (qk, g) => (s.lantern lan).lastG = some (qk, g.record.seq)
    let d ← decide' lan p t 1 ctrs cur { pick := fixedPick s lan t cands } fun d => d.pick < cands.length
    match cands[d.pick]? with
    | none => return none
    | some (qk, g) =>
      modLantern lan fun l => { l with
        lastG := some (qk, g.record.seq)
        sameQ := if l.lastQ = some qk then l.sameQ + 1 else 1
        lastQ := some qk }
      modGrid qk fun g => { g with age := 0 }
      return some (qk, g)

/-- TICK (R381, R386): the next tenant, its slice and its epoch. -/
def tickPoint (p : Nat) : Op (Option (Nat × Nat × Nat)) := do
  let s ← get
  let cands := (tickCands s p).take 1024
  if cands.isEmpty then return none
  else
    let ctrs ← cands.mapM (tenantCtrs p)
    let was := (s.part p).lastTenant
    let cur := (s.part p).tenant.bind fun t => cands.findIdx? (· == t)
    let next := (was.bind fun t => cands.findIdx? (t < ·)).getD 0
    let d ← decide' headLantern p 0 2 ctrs cur { pick := next } fun d => d.pick < cands.length
    match cands[d.pick]? with
    | none => return none
    | some t =>
      modUse t fun u => { u with age := 0 }
      let x := pdSlice (← get) p
      let slice := if d.slice = 0 then max 1 (x % 65536) else d.slice
      let epoch := if d.tick = 0 then max 1 (bits x 31 16) else d.tick
      return some (t, slice, epoch)

/-- BLOCK (R382): whether the grid drains. -/
def blockPoint (lan p qk : Nat) (g : Grid) : Op Bool := do
  let d ← decide' lan p (tenantOf qk) 3 [← gridCtrs qk (some g) g.record] none {} fun d => d.pick < 2
  return d.pick = 1

/-- MIGRATE (R382, R386): the die of a confined grid; ties go to the lowest die. -/
def migratePoint (p : Nat) : Op (Option Nat) := do
  let s ← get
  let ds := dieCands s p
  let free (d : Nat) : Nat := ((freeQuads s p).filter fun q => dieOfQuad q = d).length
  let best := ds.foldl (fun (m : Option Nat) d => match m with
    | some x => if free x < free d then some d else some x
    | none => some d) none
  match best with
  | none => return none
  | some b =>
    let d ← decide' headLantern p 0 5 (ds.map (dieCtrs s p)) none { migrate := b } fun d => ds.contains d.migrate
    return some d.migrate

end Sys2Proof.Machine
end

