-- ==== Sys2Proof/Machine/Queue.lean ====
section
/-! DEFINITION. The front ends: submission, launch records and headers, dependences, the life of a grid up to READY, tenants and slices, retirement, aborts and kills (14_dispatch_lanterns.md R369 to R377, R381, R399; 01_machine.md R15, R31 to R34; 16_recovery.md R454, R455, R458). -/

namespace Sys2Proof.Machine

/-! Statuses of completion records (R374) -/

def stDone : Nat := 0
def stBadHdr : Nat := 1
def stStepping : Nat := 2
def stOversize : Nat := 3
def stBadRec : Nat := 4
def stDepFailed : Nat := 5

/-! The front end's accesses -/

/-- The queue waits for the answer of a fault. -/
def queueWaits (qk : Nat) (w : Nat × Nat × Nat) : Op Unit := modQueue qk fun q => { q with waits := some w }

/-- Map an access of the front end: none where it meets a fault or a FAIL answer. A translation fault is reported and
waits, as does a page or a channel on the move (R369, R372, R374). -/
def feMap (qk va : Nat) (write : Bool) : Op (Option VRef) := do
  let s ← get
  let t := tenantOf qk
  if spaceOf va != 0 then return none
  else if (s.queue qk).failed.contains (va / 4096) then
    modQueue qk fun q => { q with failed := q.failed.filter (· != va / 4096) }
    return none
  else if s.dev.syncs.any (fun (t', p, _) => t' = t && inPageOf s t p va) then finish
  else match ← xlate 0 none t va with
    | .wait => finish
    | .bad f =>
      let place := (← freeValue).toNat % 2 ^ 31
      queueWaits qk (← reportFault t va f (if write then 2 else 1) place)
      finish
    | .ok e =>
      let s ← get
      let fits := e.readable && (!write || e.writable)
      match reach s t (e.phys va) with
      | .dev pa part => return if fits then some ⟨va, e, pa, part, false, t⟩ else none
      | .host pa => return if fits then some ⟨va, e, pa, s.partOf t, true, t⟩ else none
      | .none => return none
      | .zeroing => finish
      | .absent pa =>
        queueWaits qk (← askHost pa va)
        finish

/-- Whether bytes of memory hold an uncorrectable word. -/
def memBad (s : State) (pa n : Nat) : Bool := s.poison.mem.any fun w => pa < 32 * w + 32 && 32 * w < pa + n

/-- A relaxed load of system scope of `n` bytes of one page. -/
def feRead (qk va n : Nat) : Op (Option Nat) := do
  match ← feMap qk va false with
  | none => return none
  | some r =>
    let s ← get
    if memBad s r.pa n then
      note (.word r.pa 0)
      return none
    else return some (homeRead s r [] n)

/-- A release of system scope of `n` bytes of one sector; false where it is left unwritten. Its timestamp covers every write that has been
performed (log 22). -/
def feWrite (qk va n x : Nat) : Op Bool := do
  match ← feMap qk va true with
  | none => return false
  | some r =>
    let s ← get
    if memBad s r.pa n then
      note (.word r.pa 0)
      return false
    else if (tenureConflict s r [] n).isSome then return false
    else
      let clock := largestClock s
      require (!capped s r clock)
      let _ ← homeWrite r n x clock
      return true

/-! Errors (16_recovery.md R458) -/

/-- Write an error record, then TAIL, then the physical function's error vector; a record that finds the queue full is lost. -/
def writeError (e : ErrRec) : Op Unit := do
  let s ← get
  modDev fun d => { d with ue := min (d.ue + 1) (2 ^ 32 - 1) }
  let ctl := (s.reg pfn 0xD108 4).toNat
  let n := 2 ^ max 4 (min 16 (ctl % 32))
  if n ≤ (s.dev.eqTail + 2 ^ 32 - ctl / 2 ^ 32) % 2 ^ 32 then modDev fun d => { d with eqLost := true }
  else
    let p := (s.reg pfn 0xD100).toNat / 32 * 32 + 32 * (s.dev.eqTail % n)
    putMem 8 p e.pa
    putMem 8 (p + 8) (e.num + e.unit * 2 ^ 16 + e.kind * 2 ^ 24 + e.tenant * 2 ^ 32 + e.action * 2 ^ 48)
    putMem 8 (p + 16) e.parts
    putMem 8 (p + 24) 0
    modDev fun d => { d with eqTail := (d.eqTail + 1) % 2 ^ 32 }
    fire pfn 1

/-- The record of an Uncorrectable Data trap: of a word of memory at its channel, of a granule of the core's store or of a
die store (the slice of a die store and the core of quad memory stay open, log 13). -/
def trapErr (core tenant addr : Nat) : Op (Option ErrRec) := do
  let s ← get
  if spaceOf addr = 0 then
    let e : Option Tlb := match (s.core core).tlb.find? (fun e => e.hits tenant addr) with
      | some e => some e
      | none => match walkBoth s tenant addr with
        | .ok (e, _, _) => some e
        | .error _ => none
    match e.map fun e => reach s tenant (e.phys addr) with
    | some (.dev pa _) => return some { pa := pa, num := channelOf pa, unit := 0, kind := 1, action := 1 }
    | _ => return none
  else if spaceOf addr = 3 || spaceOf addr = 4 then
    let n := (← freeValue).toNat % 2 ^ 16
    return some { pa := 0, num := n, unit := if spaceOf addr = 3 then 3 else 1, kind := 1, action := 1 }
  else
    let tag := s.poison.tags.any fun k => k / Config.granulesPerCore = core
    return some { pa := 0, num := core, unit := 3, kind := if tag then 5 else 1, action := 1 }

/-- Write the records of the errors met in a step. -/
def flushErrors : Op Unit := do
  let s ← get
  modDev fun d => { d with noted := [] }
  s.dev.noted.forM fun x => do
    match x with
    | .whole e => writeError e
    | .word pa act => writeError { pa := pa, num := channelOf pa, unit := 0, kind := 1, action := act }
    | .trapped core tenant addr => match ← trapErr core tenant addr with
      | some e => writeError e
      | none => pure ()

/-! Records and headers -/

/-- Whether a dependence entry is legal (R373). -/
def depLegal (e : Nat) : Bool :=
  bitOf e 63 || e = 0 || (bits e 62 61 = 1 && bits e 59 38 = 0 && bits e 31 0 != 0xFFFFFFFF)

/-- Whether a record keeps the rules that do not depend on the header (R371, R373). -/
def LRec.legal (r : LRec) (qk : Nat) : Bool :=
  spaceOf (r.word 0) = 0 && r.word 0 % 128 = 0 && spaceOf (r.word 1) = 0 && r.word 1 % 128 = 0 &&
  spaceOf (r.word 3) = 0 && r.word 3 % 32 = 0 && depLegal (r.word 4) && depLegal (r.word 5) &&
  r.blocks != 0 && bits (r.word 6) 47 32 = qk && bits (r.word 6) 63 61 = 0 && r.word 7 = 0

/-- A binding entry below the count is wholly zero or legal (01_machine.md R33), its ring inside its space (R34). -/
def bindingLegal (scratch qmem e : Nat) : Bool :=
  let size := 4 * (bits e 9 5 + 1)
  let slots := bits e 15 10 + 1
  let room := if bitOf e 31 then 4 * qmem * 16384 else scratch * 4096
  e = 0 || (bits e 4 0 = 0 && bits e 15 10 != 0 && bits e 30 16 * 64 + 64 + slots * size ≤ room)

/-- Legal target steppings (03_opcode_map.md R71). -/
def steppingLegal (code classes : Nat) : Bool :=
  (code = 0 && !bitOf classes 2) || code = 0xA00 || code = 0xB00 || code = 0xB01

/-- The kernel header in 128 bytes, if it is valid (01_machine.md R32 to R34). -/
def headerOf (x : Nat) : Option Hdr :=
  let f (off n : Nat) : Nat := bits x (8 * (off + n) - 1) (8 * off)
  let code := f 6 1
  let n := f 0x19 1
  let bars := [f 0x14 1, f 0x15 1, f 0x16 1, f 0x17 1, f 0x18 1]
  let binds := (List.range 8).map fun j => f (0x30 + 4 * j) 4
  let h : Hdr := {
    width := 16 * 2 ^ code
    regs := f 7 1
    groups := f 8 2
    cluster := f 0xA 1
    stale := f 0xB 1
    scratch := f 0xC 2
    lp := f 0xE 2
    qmem := f 0x10 2
    dstore := f 0x12 2
    barriers := bars
    bindings := binds
    trap := f 0x1C 4
    entry := f 0x20 4
    classes := f 0x24 4
    stepping := f 0x28 4
    fallback := f 0x2C 4 }
  if f 0 4 = 0x5A4B4844 && f 4 2 = 1 && code ≤ 3 && 1 ≤ h.regs && h.regs ≤ 32 && 1 ≤ h.groups && h.groups ≤ 64 &&
     1 ≤ h.cluster && h.cluster ≤ 4 && h.stale ≤ 15 && h.scratch ≤ 224 && h.lp ≤ 64 && h.qmem ≤ 16 && h.dstore ≤ 8 &&
     (bars.zip [16, 8, 8, 8, 4]).all (fun b => b.1 ≤ b.2) && n ≤ 8 && f 0x1A 2 = 0 && h.classes < 8 &&
     steppingLegal h.stepping h.classes && f 0x50 48 = 0 &&
     (binds.zipIdx.all fun (e, j) => if j < n then bindingLegal h.scratch h.qmem e else e = 0)
  then some h else none

/-! Launch checks -/

/-- Block barriers declared. -/
def Hdr.blockBars (h : Hdr) : Nat := h.barriers.getD 0 0

/-- b, the block places of a core (01_machine.md R15, R30). -/
def placesOf (h : Hdr) : Nat :=
  min (min (64 / h.groups) 16)
    (min (if h.blockBars = 0 then 16 else 16 / h.blockBars) (15360 / (allocGranules h + shareGranules h)))

/-- The die store that a partition can supply on a die, in units of 8 MiB: 4 MiB of each L2 slice it owns, 64 MiB at most (R31). -/
def dieSupply (s : State) (p d : Nat) : Nat := min 8 ((l2Of s p d).length / 2)

/-- MaxRes (R377). -/
def maxRes (q : Queue) (h : Hdr) : Nat := (q.saveSz.toNat % 2 ^ 32 * 4096 - gridArea h) / slotBytes h

/-- Steps 2 and 3 of 03_opcode_map.md R93 with R376 and 15_isolation.md R408: the status, 0 where the object may launch. -/
def launchStatus (s : State) (qk : Nat) (h : Hdr) : Nat :=
  let p := s.partOf (tenantOf qk)
  let own := (s.part p).own
  if h.stepping != 0 && h.stepping != s.dev.stepping then stStepping
  else if placesOf h = 0 || own.quads.isEmpty || (homeSet s p).isEmpty || maxRes (s.queue qk) h = 0 ||
    (h.dstore != 0 && (dieCands s p).all fun d => dieSupply s p d < h.dstore) then stOversize
  else 0

/-! Dependences (R373) -/

/-- Whether an entry that may still wait is satisfied, or has failed. -/
def depNow (s : State) (t e : Nat) : Option Bool :=
  if e = 0 then some true
  else if bitOf e 63 then
    if foreign s t e then some false
    else match futureOf s e with
      | some (_, _, none) => none
      | _ => some true
  else match (s.queue (t * 64 + bits e 37 32)).done.find? (fun x => x.1 = bits e 31 0) with
    | some (_, st) => some (bitOf e 60 || st = stDone)
    | none => none

/-- The same when the grid becomes active: a grid that retired too long ago counts as DONE. -/
def depFirst (s : State) (t e : Nat) : Option Bool :=
  if e != 0 && !bitOf e 63 then
    let d := ((s.queue (t * 64 + bits e 37 32)).nextSeq + (2 ^ 32 - 1) - bits e 31 0) % (2 ^ 32 - 1)
    if 1024 ≤ d && d ≤ 2 ^ 31 then some true else depNow s t e
  else depNow s t e

/-- A waiting grid's entries: those that still wait, or its failure. -/
def Grid.withDeps (g : Grid) (f : Nat → Option Bool) (es : List Nat) : Grid :=
  if es.any (fun e => f e = some false) then { g with deps := [], retiring := some (stDepFailed, 0) }
  else { g with deps := es.filter fun e => (f e).isNone }

/-- Examine the dependences of every waiting grid of a tenant. -/
def resolveDeps (t : Nat) : Op Unit := do
  let s ← get
  (queuesOf s t).forM fun (qk, q) => match q.active with
    | some g =>
      if g.state = .waiting && g.retiring.isNone && !g.deps.isEmpty then
        modGrid qk fun g => g.withDeps (depNow s t) g.deps
      else pure ()
    | none => pure ()

/-- A job that has nothing left to do ends (11_engines_futures.md R296), and with it the waits of dependences (R373). -/
def execJobEnd (die slot : Nat) : State → Host.Outcome State Fault Refusal :=
  runOp do
    let s ← get
    let j ← need (tlook slot (s.die die).jobs)
    let st ← need j.status
    endJob die slot (if jobAborted s j then jsAborted else st)
    resolveDeps j.tenant

/-! Activation and appends -/

/-- The head record of a queue becomes its active grid (R369, R372 step 1, R373), unless HALT is 1. -/
def activate (qk : Nat) : Op Unit := do
  let s ← get
  let q := s.queue qk
  let t := tenantOf qk
  match q.active, q.recs with
  | none, r :: _ =>
    if (s.qctl qk).getLsbD 1 && r.doom.isNone then pure ()
    else
      let g : Grid := { record := r, state := .waiting }
      let g : Grid := match r.doom with
        | some c => { g with retiring := some (statusAborted, c) }
        | none => if !r.legal qk then { g with retiring := some (stBadRec, 0) }
          else g.withDeps (depFirst s t) ([r.word 4, r.word 5].filter (· != 0))
      modQueue qk fun q => { q with
        active := some g
        save := s.reg t (qctlOff (qk % 64) + 8)
        saveSz := s.reg t (qctlOff (qk % 64) + 0x10) }
  | _, _ => pure ()

/-- Sequence numbers run to 0xFFFF_FFFE and wrap (13_control_sync_ops.md R363). -/
def seqNext (n : Nat) : Nat := (n + 1) % (2 ^ 32 - 1)

def setLastPrio (p : Nat) (rs : List LRec) : List LRec :=
  rs.zipIdx.map fun (r, i) => if i + 1 = rs.length then { r with prio := some p } else r

/-- Append a record: its number, the ENQ point, and activation if the queue was idle (R369, R382). -/
def appendRecord (qk : Nat) (words : List Nat) : Op Nat := do
  let seq := ((← get).queue qk).nextSeq
  let r : LRec := { words := words, seq := seq }
  modQueue qk fun q => { q with recs := q.recs ++ [r], nextSeq := seqNext seq }
  let p ← prioPoint 0 qk none r
  if p != qPrio (← get) qk then modQueue qk fun q => { q with recs := setLastPrio p q.recs }
  resolveDeps (tenantOf qk)
  activate qk
  return seq

def queueFull (s : State) (qk : Nat) : Bool := 256 ≤ (s.queue qk).recs.length

/-- Whether a queue accepts records: its EN and its tenant's (R369, 15_isolation.md R409). -/
def accepts (s : State) (qk : Nat) : Bool := (s.qctl qk).getLsbD 0 && s.enabled (tenantOf qk)

/-- A refused submission (R369, R370). -/
def refuseSubmit (qk cause : Nat) : Op Unit :=
  modQueue qk fun q => { q with errLast := cause, refused := min (q.refused + 1) (2 ^ 32 - 1) }

/-! READY, tenants and slices -/

/-- A grid enters READY: the WAKE point, and the MIGRATE point for a confined grid (R375, R382). -/
def wakeGrid (qk : Nat) : Op Unit := do
  let s ← get
  match s.gridOf qk with
  | none => pure ()
  | some g =>
    modGrid qk fun g => { g with state := .ready, waitq := false, dieSel := none }
    let p ← prioPoint 4 qk (some { g with state := .ready }) g.record
    if p != recPrio s qk g.record then modGrid qk fun g => { g with record := { g.record with prio := some p } }
    if g.record.oneDie then
      let d ← migratePoint (s.partOf (tenantOf qk))
      modGrid qk fun g => { g with dieSel := d }

/-- Places of a partition that a grid could take: on idle cores and on its own (01_machine.md R15). -/
def placesFree (s : State) (p qk : Nat) (h : Hdr) : Nat :=
  ((s.part p).own.quads.flatMap fun q => (List.range 4).map (4 * q + ·)).foldl (fun n c =>
    let k := s.core c
    if k.grid = some qk then n + (k.places - (s.blocks.filter fun e => coreOfBlk e.1 = c).length)
    else if k.grid.isNone then n + placesOf h else n) 0

/-- Places that a grid under WAITQ needs, and still lacks (16_recovery.md R452, R453). -/
def placesNeeded (s : State) (qk : Nat) : Nat :=
  match s.gridOf qk with
  | some g => g.record.blocks - g.endedBlks - (s.blocks.filter fun e => e.2.grid = qk).length
  | none => 0
def placesLacking (s : State) (qk : Nat) : Nat :=
  match (s.gridOf qk).bind (·.hdr) with
  | some h => placesNeeded s qk - placesFree s (s.partOf (tenantOf qk)) qk h
  | none => 0

/-- A RUNNING grid enters DRAINING (R399). -/
def drainGrid (qk : Nat) : Op Unit := do
  let t := (← get).cycle
  modGrid qk fun g => if g.state = .running && g.retiring.isNone then { g with state := .draining, drainAt := some t } else g

/-- The grids of a partition's tenants, with their queues. -/
def gridsOf (s : State) (p : Nat) : List (Nat × Grid) :=
  s.queues.filterMap fun (qk, q) => match q.active with
    | some g => if s.partOf (tenantOf qk) = p then some (qk, g) else none
    | none => none

/-- A tenant's placement may begin: its slice and epoch run from now (R381). -/
def beginSlice (p : Nat) : Op Unit := do
  let t := (← get).cycle
  modPart p fun x => { x with
    switching := false
    switchTill := none
    lastTenant := x.tenant
    sliceEnd := t + x.sliceEnd
    epochEnd := t + x.epochLen }

/-- TICK for a partition (R381): the next current tenant, its slice, the drain of another tenant's grids, and READY for
its SAVED grids (R375). While a switch is to come, `sliceEnd` holds the length of the slice. -/
def chooseTenant (p : Nat) : Op Unit := do
  match ← tickPoint p with
  | none => modPart p fun x => { x with tenant := none }
  | some (t, slice, epoch) =>
    let s ← get
    let other := (s.part p).lastTenant.filter (· != t)
    modPart p fun x => { x with tenant := some t, epochLen := epoch * 1024, sliceEnd := slice * (epoch * 1024) }
    (queuesOf s t).forM fun (qk, q) => match q.active with
      | some g =>
        if g.state = .saved && g.retiring.isNone && (!g.waitq || placesLacking s qk = 0) then wakeGrid qk else pure ()
      | none => pure ()
    match other with
    | none => beginSlice p
    | some o =>
      modPart p fun x => { x with switching := true }
      (queuesOf s o).forM fun (qk, _) => drainGrid qk

/-- TICK where a partition has no current tenant and some tenant has work (R381). -/
def tickIfIdle (p : Nat) : Op Unit := do
  let s ← get
  if (s.part p).tenant.isNone && !(tickCands s p).isEmpty then chooseTenant p

/-! Retirement -/

/-- The status and cause with which an active grid is due to retire. -/
def Grid.due (g : Grid) : Option (Nat × Nat) :=
  match g.retiring with
  | some x => some x
  | none =>
    if (g.state = .running || g.state = .draining) && g.record.blocks ≤ g.endedBlks then some (stDone, 0) else none

/-- The two words of a completion record's first half (R374). -/
def completionHead (g : Grid) (st c : Nat) : Nat :=
  g.record.seq + st * 2 ^ 32 + c * 2 ^ 40 + (b2n g.fb + 2 * b2n g.pre) * 2 ^ 48

/-- What a grid holds ends with it: jobs and slots, tiles, accumulator records and held contributions, die stores. -/
def clearGrid (qk : Nat) (g : Grid) (aborted : Bool) : Op Unit := do
  let seq := g.record.seq
  abortJobs qk seq
  freeSlots qk seq
  retireTiles qk seq aborted
  modify fun s => { s with accs := s.accs.filterMap fun (k, rs) =>
    let left := rs.filter fun r => !(r.grid = qk && r.seq = seq)
    if left.isEmpty then none else some (k, left) }
  g.dieGens.forM fun (d, v) => endDieGen d v
  modGrid qk fun g => { g with dieGens := [] }

/-- Pop the retired grid; the next of its queue becomes active (R369, R373). -/
def popGrid (qk seq st : Nat) : Op Unit := do
  modQueue qk fun q => { q with active := none, recs := q.recs.tail, done := ((seq, st) :: q.done).take 1023 }
  resolveDeps (tenantOf qk)
  wakeAll fun _ _ w => w == .room qk
  activate qk

/-- The retirement of a queue's active grid (R374): the completion record where DONEREC is legal, then the vector. -/
def retireGrid (qk : Nat) : Op Unit := do
  let s ← get
  let g ← need (s.gridOf qk)
  let (st, c) ← need g.due
  require (s.queue qk).waits.isNone
  clearGrid qk g (st = statusAborted)
  let at' := g.record.word 3
  let energy ← freeValue
  if at' != 0 && spaceOf at' = 0 && at' % 32 = 0 then
    let first := match g.firstAt with
      | some t => s.cycle - t
      | none => 0
    let _ ← feWrite qk at' 32 (completionHead g st c + first * 2 ^ 64 + energy.toNat * 2 ^ 128 + g.endedBlks * 2 ^ 192)
  if (s.qctl qk).getLsbD 2 then fire (tenantOf qk) (2 + qk % 64)
  popGrid qk g.record.seq st
  tickIfIdle (s.partOf (tenantOf qk))

/-! Kills -/

/-- Every active grid of a tenant aborts and every queued record is to retire ABORTED, with a cause (16_recovery.md R455,
17_host_fabric.md R469). -/
def abortTenant (t cause : Nat) : Op Unit := do
  let s ← get
  (queuesOf s t).forM fun (qk, _) => do
    abortGrid qk cause
    modQueue qk fun q => { q with recs := q.recs.map fun r => { r with doom := some cause } }
    activate qk

/-- A tenant kill (16_recovery.md R455) without its error record: EN is cleared, the error vector fires. -/
def killTenant (t : Nat) : Op Unit := do
  abortTenant t 0x26
  let s ← get
  setReg pfn (tdOff t 0) (s.tdpart t &&& ~~~(BitVec.ofNat 64 (2 ^ 31)))
  fire t 1

end Sys2Proof.Machine
end

