-- ==== Sys2Proof/Machine/Launch.lean ====
section
/-! DEFINITION. LAUNCH (13_control_sync_ops.md R363, R364). -/

namespace Sys2Proof.Machine

def needRecord : Need := ⟨[0], true, false, 64, false, none⟩

/-- The lanes that a LAUNCH serves: every active lane, or once when neither its index nor its destination is lane-class. -/
def launchLanes (w : Nat) (dst : Dst) (idx : Reg) (m : Mask) : List Nat :=
  memLanes w (dst.isLane || (match idx with
    | .lane _ => true
    | _ => false)) m

/-- Serve one lane (R363): append its record, and give its destination the sequence number. A full queue puts the group
to sleep; the lanes already served are not served again, and the record of the lane that waits is not read again. -/
def launchLane (c : LocalCtx) (dst : Dst) (l : Nat) (t : Tgt) : Op Unit := do
  let read ← loadAll c 8 0 false ((List.range 8).map fun i => match t with
    | .virt r => .virt { r with va := r.va + 8 * i, pa := r.pa + 8 * i }
    | x => x)
  let had := (← self).launchRec
  let words := if had.isEmpty then read else had
  let s ← get
  let qk := bits (words.getD 6 0) 47 32
  let seq : Nat ← (if tenantOf qk != tenantOf c.b.grid || !accepts s qk then pure 0xFFFFFFFF
    else if queueFull s qk then do
      modSelf fun g => { g with launchRec := words }
      waitFor (.room qk)
    else appendRecord qk words)
  writeDst false l seq dst
  modSelf fun g => { g with launched := g.launched ||| BitVec.ofNat 128 (2 ^ l), launchRec := [] }

/-- LAUNCH. -/
def execLaunch (p : BitVec 3) (dst : Dst) (base : BitVec 6) (idx : Reg) : State → Host.Outcome State Fault Refusal :=
  runOp do
    legal (.launch p dst base idx)
    let m ← activeMask p.toNat
    if m = 0 then finish
    let s ← get
    let gk := s.cur.gk
    let g ← self
    let ls := launchLanes g.width dst idx m
    checkElems (ls.flatMap fun l => regElems 4 l idx)
    let b := (g.scalar base.toNat).toNat
    let ts ← checkLanes needRecord (ls.map fun l => (l, (b + 64 * indexVal s gk g l idx) % 2 ^ 64))
    awaitAccesses
    let c ← localCtx gk
    if g.launched = 0 then
      match ts.find? (tgtBad c (← get) 64) with
      | some t => raise 0x08 (BitVec.ofNat 64 (tgtAddr t))
      | none => pure ()
    (ls.zip ts).forM fun (l, t) => do
      if !(← self).launched.getLsbD l then launchLane c dst l t
    modSelf fun g => { g with launched := 0 }

end Sys2Proof.Machine
end

