-- ==== Sys2Proof/Machine/Sweep.lean ====
section
/-! DEFINITION. Sweeps: footprints, their checks, the sweep unit's iterations, and re-execution from ROWPROG (06_sweep_quantise.md R145 to R155). -/

namespace Sys2Proof.Machine

def Foot.seg (f : Foot) (i : Nat) : Nat := f.base + i * f.step
/-- The bytes of a footprint (R146). -/
def Foot.span (f : Foot) : Nat := (f.count - 1) * f.step + f.size

/-- The segment sizes of D and A (R146, R150). -/
def sweepSizes (op sub : Nat) : Nat × Nat :=
  if op = 5 then (if sub < 2 then (64, 128) else (128, 64)) else (128, 128)

/-- The operands that a sweep uses: D, then A and B (R145, R148, R149). -/
def sweepFeet (g : Group) (op : Nat) (o : SWord) : List Foot :=
  let n := o.count.toNat
  let (zd, za) := sweepSizes op o.sub.toNat
  let v (r : BitVec 6) := (g.scalar r.toNat).toNat
  [⟨v o.r0, if op = 7 then 0 else 16 * o.step0.toNat, zd, if op = 7 then 1 else n, true⟩] ++
  (if op = 9 then [] else [⟨v o.r1, 16 * o.step1.toNat, za, n, false⟩]) ++
  (if 3 ≤ sweepUses op then [⟨v o.r2, 16 * o.step2.toNat, 128, n, false⟩] else [])

/-- The lowest invalid address of a footprint; validity is the same over 16 aligned bytes (R26, R27, R146). -/
def footBad (c : LocalCtx) (s : State) (f : Foot) : Option Nat :=
  if spaceOf f.base != 1 && spaceOf f.base != 2 then some f.base
  else ((List.range ((f.base % 16 + f.span + 15) / 16)).map fun i => max f.base (f.base / 16 * 16 + 16 * i)).find? fun a =>
    !c.valid s a 1 0 || (f.write && !c.writable s a 1 0)

/-- One 4-byte word of an iteration: operands D, A, B (R147, R148). -/
def sweepWord (op sub d a b : Nat) : Res :=
  match op with
  | 6 => swexpWord sub a b
  | 8 => (a, .none)
  | _ => (sweepOp op sub).eval a b d

/-- The words of a segment. -/
def wordAt (x i : Nat) : Nat := x / 2 ^ (32 * i) % 2 ^ 32

/-- The destination segment of an iteration from the segments D, A and B (R147, R148, R150). -/
def sweepSeg (op sub d a b : Nat) : Res :=
  if op = 5 then
    let (zd, za) := (if sub < 2 then (16, 32) else (32, 16) : Nat × Nat)
    let rs := (List.range 32).map fun e => swcvtElem sub (a / 2 ^ (za * e) % 2 ^ za)
    (rs.zipIdx.foldl (fun acc r => acc + r.1.1 % 2 ^ zd * 2 ^ (zd * r.2)) 0, evsOf rs)
  else
    let rs := (List.range 32).map fun i => sweepWord op sub (wordAt d i) (wordAt a i) (wordAt b i)
    (rs.zipIdx.foldl (fun acc r => acc + r.1.1 % 2 ^ 32 * 2 ^ (32 * r.2)) 0, evsOf rs)

/-- The segment that SWSET writes (R151). -/
def setSeg (sub v : Nat) : Nat :=
  (List.range 16).foldl (fun acc i =>
    acc + (if sub = 0 then v % 2 ^ 32 * (2 ^ 32 + 1) else v % 2 ^ 64) * 2 ^ (64 * i)) 0

/-- SV, SOP and SIT of ROWPROG (07_matrix.md R196). -/
def rowprogSweep (old : W64) (op i : Nat) : W64 :=
  BitVec.ofNat 64 (old.toNat / 2 ^ 32 * 2 ^ 32 + 2 ^ 31 + (0xE0 + op) * 2 ^ 16 + i)
def rowprogSweepDone (old : W64) : W64 := old &&& ~~~(BitVec.ofNat 64 (2 ^ 31))

/-- Write a segment. -/
def sweepWrite (c : LocalCtx) (a n x : Nat) : Op Unit := do
  c.write a n 0 x
  let s ← get
  (pieces n).forM fun (o, _) => match c.loc s (a + o) 0 with
    | some (.gran die k _ _ _) => localWritten die k
    | _ => pure ()

/-! The sweep unit (R152 to R155) -/

/-- The segments that an iteration reads: A, then B, then D of SWFMA, the order that decides the address of a trap (log 85). -/
def SWork.reads (x : SWork) (i : Nat) : List (Nat × Nat) :=
  (if x.op = 9 then [] else [(x.a.seg i, x.a.size)]) ++
  (if 3 ≤ sweepUses x.op then [(x.b.seg i, 128)] else []) ++
  (if x.op = 2 then [(x.d.seg i, 128)] else [])

/-- The 4-byte words of a segment. -/
def segWords (r : Nat × Nat) : List Nat := (List.range (r.2 / 4)).map fun i => r.1 + 4 * i

/-- The granules that a segment lies in. -/
def granOf (c : LocalCtx) (s : State) (a : Nat) : Option (Bool × Nat) :=
  match c.loc s a 0 with
  | some (.gran die k _ _ _) => some (die, k)
  | _ => none

/-- The first stale word that the iterations from `i` on would read, `left` of them, with the granules that earlier ones have stamped
(R147, R153). -/
def staleFrom (c : LocalCtx) (s : State) (x : SWork) : Nat → Nat → List (Option (Bool × Nat)) → Option Nat
  | 0, _, _ => none
  | left + 1, i, done =>
    match ((x.reads i).flatMap segWords).find? fun a => c.stale s a 4 0 && !done.contains (granOf c s a) with
    | some a => some a
    | none => staleFrom c s x left (i + 1)
        (if x.op = 7 then done else done ++ ((List.range (x.d.size / 16)).map fun j => granOf c s (x.d.seg i + 16 * j)).eraseDups)

/-- The first word with an uncorrectable error among those that an iteration reads. -/
def badWord (c : LocalCtx) (s : State) (rs : List (Nat × Nat)) : Option Nat :=
  (rs.flatMap segWords).find? fun a => c.bad s a 4 0

def putSweep (core : Nat) (x : SWork) : Op Unit := modCore core fun k => { k with sw := x :: k.sw.tail }

/-- A sweep leaves the unit with a trap, or is held behind the trap that its group takes (R153, R154; 02_words.md R67). -/
def sweepTrap (core : Nat) (x : SWork) (t : TrapInfo) : Op Unit := do
  modCore core fun k => { k with sw := k.sw.tail }
  if t.cause = 8 then
    modGroup x.gk fun g => { g with
      rowprog := rowprogSweep g.rowprog x.op x.next
      swept := ⟨x.sum, x.ev.or x.had⟩ }
    countFresh core x.ev x.had
  trapPend x.gk x.pid t

/-- The head of the unit's queue begins: a Stale Read anywhere in its order leaves no effect (R153). SWSUM reads D (R149). -/
def sweepBegin (core : Nat) (x : SWork) : Op Unit := do
  let c ← localCtx x.gk
  let s ← get
  let sum := x.op = 7 && x.sum.isNone
  let first : List (Nat × Nat) := if sum then [(x.d.base, 128)] else []
  let stale := match (first.flatMap segWords).find? fun a => c.stale s a 4 0 with
    | some a => some a
    | none => staleFrom c s x (x.count - x.next) x.next []
  let all := first ++ (List.range (x.count - x.next)).flatMap fun i => x.reads (x.next + i)
  let trap (k a : Nat) : TrapInfo := { cause := k, addr := BitVec.ofNat 64 a }
  match stale with
  | some a => sweepTrap core x (trap 0x05 a)
  | none =>
    if c.g.trapping.isSome && (badWord c s all).isSome then
      modCore core fun k => { k with sw := k.sw.tail }
      holdPend x.gk x.pid
    else match badWord c s first with
      | some a => sweepTrap core x (trap 0x08 a)
      | none => putSweep core { x with begun := true, sum := if sum then some (c.read s x.d.base 128 0) else x.sum }

/-- One iteration (R147): every source byte is read before the destination segment is written; an uncorrectable error leaves its iteration
undone (R154). -/
def sweepIterate (core : Nat) (x : SWork) : Op Unit := do
  let c ← localCtx x.gk
  let s ← get
  match badWord c s (x.reads x.next) with
  | some a => sweepTrap core x { cause := 0x08, addr := BitVec.ofNat 64 a }
  | none =>
    let a := if x.op = 9 then 0 else c.read s (x.a.seg x.next) x.a.size 0
    if x.op = 7 then
      let r := sweepSeg 0 x.sub 0 (x.sum.getD 0) a
      putSweep core { x with next := x.next + 1, sum := some r.1, ev := x.ev.or r.2 }
    else
      let b := if 3 ≤ sweepUses x.op then c.read s (x.b.seg x.next) 128 0 else 0
      let d := if x.op = 2 then c.read s (x.d.seg x.next) 128 0 else 0
      let r : Res := if x.op = 9 then (setSeg x.sub x.v, .none) else sweepSeg x.op x.sub d a b
      sweepWrite c (x.d.seg x.next) x.d.size r.1
      putSweep core { x with next := x.next + 1, ev := x.ev.or r.2 }

/-- The last destination byte is written: the sweep completes (R152). -/
def sweepDone (core : Nat) (x : SWork) : Op Unit := do
  if x.op = 7 then
    let c ← localCtx x.gk
    sweepWrite c x.d.base 128 (x.sum.getD 0)
  modCore core fun k => { k with sw := k.sw.tail }
  countFresh core x.ev x.had
  if x.again then modGroup x.gk fun g => { g with rowprog := rowprogSweepDone g.rowprog, swept := {} }
  completePend x.gk x.pid 1

/-- One step of a core's sweep unit. -/
def sweepStep (core : Nat) : Op Unit := do
  match ((← get).core core).sw with
  | [] => finish
  | x :: _ =>
    if !x.begun then sweepBegin core x
    else if x.next < x.count then sweepIterate core x
    else sweepDone core x

/-- Steps of a core's unit while the head is an outstanding word of a group. -/
def sweepRun (core gk pid : Nat) : Nat → Op Unit
  | 0 => pure ()
  | n + 1 => do
    if ((← get).core core).sw.head?.any fun x => x.gk = gk && x.pid = pid then
      sweepStep core
      sweepRun core gk pid n

/-- A sweep word: the checks of R146 (the first misaligned base of D, A, B is the one reported: log 85), then the unit performs its
iterations from 0, or from ROWPROG where it is re-executed (R154; log 83 says where an SWSUM goes on). -/
def sweepExec (i : Instr) (op : Nat) (o : SWord) : Op Unit := do
  legal i
  let m ← activeMask o.pred.toNat
  if m = 0 then finish
  let s ← get
  let gk := s.cur.gk
  let core := coreOfGrp gk
  let g ← self
  let c ← localCtx gk
  let feet := sweepFeet g op o
  match lowest (feet.filterMap (footBad c s)) with
  | some a => raise 0x02 (BitVec.ofNat 64 a)
  | none => pure ()
  match feet.find? (fun f => f.base % 16 != 0) with
  | some f => raise 0x03 (BitVec.ofNat 64 f.base)
  | none => pure ()
  let again := s.cur.only.isSome && g.rowprog.getLsbD 31 && bits g.rowprog.toNat 23 16 = 0xE0 + op
  let p := newPend s g i m o.la.toNat []
  putPend { p with kept := windowReads gk g p.spans }
  let x : SWork := {
    gk := gk
    pid := p.id
    op := op
    sub := o.sub.toNat
    d := feet.getD 0 ⟨0, 0, 0, 0, true⟩
    a := feet.getD 1 ⟨0, 0, 0, 0, false⟩
    b := feet.getD 2 ⟨0, 0, 0, 0, false⟩
    v := (g.scalar o.r1.toNat).toNat
    next := if again && (op != 7 || g.swept.sum.isSome) then bits g.rowprog.toNat 11 0 else 0
    count := o.count.toNat
    sum := if again && op = 7 then g.swept.sum else none
    had := if again then g.swept.ev else {}
    again := again }
  modCore core fun k => { k with sw := k.sw ++ [x] }
  if !s.cur.defer then sweepRun core gk p.id (o.count.toNat + 3)

/-- SWADD (R148). -/
def execSwadd (o : SWord) : State → Host.Outcome State Fault Refusal := runOp (sweepExec (.swadd o) 0 o)
/-- SWMUL (R148). -/
def execSwmul (o : SWord) : State → Host.Outcome State Fault Refusal := runOp (sweepExec (.swmul o) 1 o)
/-- SWFMA (R148). -/
def execSwfma (o : SWord) : State → Host.Outcome State Fault Refusal := runOp (sweepExec (.swfma o) 2 o)
/-- SWMAX (R148). -/
def execSwmax (o : SWord) : State → Host.Outcome State Fault Refusal := runOp (sweepExec (.swmax o) 3 o)
/-- SWMIN (R148). -/
def execSwmin (o : SWord) : State → Host.Outcome State Fault Refusal := runOp (sweepExec (.swmin o) 4 o)
/-- SWCVT (R150). -/
def execSwcvt (o : SWord) : State → Host.Outcome State Fault Refusal := runOp (sweepExec (.swcvt o) 5 o)
/-- SWEXP (R148). -/
def execSwexp (o : SWord) : State → Host.Outcome State Fault Refusal := runOp (sweepExec (.swexp o) 6 o)
/-- SWSUM (R149). -/
def execSwsum (o : SWord) : State → Host.Outcome State Fault Refusal := runOp (sweepExec (.swsum o) 7 o)
/-- SWCPY (R148). -/
def execSwcpy (o : SWord) : State → Host.Outcome State Fault Refusal := runOp (sweepExec (.swcpy o) 8 o)
/-- SWSET (R151). -/
def execSwset (o : SWord) : State → Host.Outcome State Fault Refusal := runOp (sweepExec (.swset o) 9 o)

end Sys2Proof.Machine
end

