-- ==== Sys2Proof/Machine/Sync.lean ====
section
/-! DEFINITION. Barriers, register-mapped queues, YIELD and the register quota (12_groups_progress.md R330 to R338; 13_control_sync_ops.md R355 to R358, R365). -/

namespace Sys2Proof.Machine

/-! Barriers (R336, R355) -/

/-- The group's block, its key and its member number at a level, and the barrier. -/
def barrierHere (lvl : BarLevel) (i : BitVec 4) : Op (Nat × Block × Nat × Barrier) := do
  let gk := (← get).cur.gk
  let bk := blkOfGrp gk
  let b ← blockAt bk
  return (bk, b, barMember lvl.code (gk % 64) b, getBarrier (← get) bk lvl.code i.toNat b)

/-- Arrive at the current phase, after a wait for an unfinished phase at which the group has arrived already. -/
def barArrive (lvl : BarLevel) (i : BitVec 4) : Op Unit := do
  awaitAccesses
  let (bk, b, me, x) ← barrierHere lvl i
  if x.arrived.contains me then waitFor (.phase lvl.code (barKey bk lvl.code b) i.toNat false)
  putBarrier bk lvl.code i.toNat b { x with arrived := me :: x.arrived }
  modSelf fun g => { g with arrived := tset (lvl.code * 16 + i.toNat) x.phase g.arrived }
  checkPhase bk lvl.code i.toNat

/-- BARA (R355). -/
def execBara (p : BitVec 3) (lvl : BarLevel) (i : BitVec 4) : State → Host.Outcome State Fault Refusal :=
  runOp do
    legal (.bara p lvl i)
    if (← activeMask p.toNat) = 0 then finish
    barArrive lvl i

/-- BARW (R355): the phase at which the group last arrived is unfinished while the group is among its arrivals. The word stays outstanding, so
that it waits for that phase whatever the other slot does (R336). -/
def execBarw (p : BitVec 3) (lvl : BarLevel) (i : BitVec 4) : State → Host.Outcome State Fault Refusal :=
  runOp do
    legal (.barw p lvl i)
    if (← activeMask p.toNat) = 0 then finish
    let (bk, b, me, x) ← barrierHere lvl i
    if x.arrived.contains me then sleepOn (.phase lvl.code (barKey bk lvl.code b) i.toNat true)
    else acquireCore (coreOfBlk bk)

/-- BARS (R355). -/
def execBars (p : BitVec 3) (lvl : BarLevel) (i : BitVec 4) : State → Host.Outcome State Fault Refusal :=
  runOp do
    legal (.bars p lvl i)
    if (← activeMask p.toNat) = 0 then finish
    barArrive lvl i
    let (bk, b, me, x) ← barrierHere lvl i
    if x.arrived.contains me then sleepOn (.phase lvl.code (barKey bk lvl.code b) i.toNat true)
    else acquireCore (coreOfBlk bk)

/-! Rings (R330 to R333) -/

/-- A ring: its base as a local address, its slots and their size in bytes (01_machine.md R33). -/
structure Ring where
  base  : Nat
  slots : Nat
  size  : Nat
deriving DecidableEq, Repr

def ringOf (entry : Nat) : Ring :=
  ⟨(if bitOf entry 31 then 3 else 2) * 2 ^ 56 + bits entry 30 16 * 64, bits entry 15 10 + 1, 4 * (bits entry 9 5 + 1)⟩

/-- The binding of q j in the control area (R334): bit 63 BOUND, bits 31:0 ENTRY. -/
def Group.binding (g : Group) (j : Nat) : Nat := (tget 0 g.ctl (80 + 2 * j)).toNat

/-- What names a ring among all: the granule that holds its control. -/
def ringKey (c : LocalCtx) (s : State) (r : Ring) : Nat :=
  match c.loc s r.base 0 with
  | some (.gran _ k _ _ _) => k
  | _ => 0

def ringHead (c : LocalCtx) (s : State) (r : Ring) : Nat := c.read s r.base 4 0
def ringTail (c : LocalCtx) (s : State) (r : Ring) : Nat := c.read s (r.base + 4) 4 0
def ringClosed (c : LocalCtx) (s : State) (r : Ring) : Bool := c.read s (r.base + 8) 1 0 != 0
def ringCount (c : LocalCtx) (s : State) (r : Ring) : Nat := (ringTail c s r + 2 ^ 32 - ringHead c s r) % 2 ^ 32
def ringSlot (r : Ring) (i : Nat) : Nat := r.base + 64 + i % r.slots * r.size

/-- Write bytes of a ring, piece by piece. -/
def ringWrite (c : LocalCtx) (a n x : Nat) : Op Unit :=
  (pieces n).forM fun (o, m) => storeTgt c m (x / 2 ^ (8 * o) % 2 ^ (8 * m)) 0 (.loc (a + o) 0)

/-- Write a popped slot to its destination, and k7 (R331). -/
def popTo (gk : Nat) (w : RingWait) (z data : Nat) (token : Bool) : Op Unit := do
  let g ← groupAt gk
  match w.dst with
  | some (.lane v) =>
    (lanesOf g.width w.mask).forM fun l => do
      setElem gk v.toNat l (if z ≤ 4 * l then 0 else data / 2 ^ (32 * l) % 2 ^ 32)
  | some (.sreg m) => modGroup gk fun g => g.setScalar m.toNat (BitVec.ofNat 64 (data % 2 ^ (8 * min z 8)))
  | none => pure ()
  modGroup gk fun g => g.setPred 7 (if token then g.pred 7 ||| w.mask else g.pred 7 &&& ~~~w.mask)

/-- What a queue step comes to at the execution point. -/
inductive RStep
  | done
  | waits
  | closed
  | bad (a : Nat)
deriving DecidableEq, Repr

/-- One queue step, if it can be performed now (R331, R332). -/
def ringStep (w : RingWait) : Op RStep := do
  let r := ringOf w.entry
  let c ← localCtx w.gk
  let s ← get
  if c.bad s r.base 12 0 then return .bad r.base
  let tail := ringTail c s r
  let head := ringHead c s r
  match w.kind with
  | 1 =>
    let slot := ringSlot r head
    if tail = head then return .waits
    else if ringClosed c s r && (head + 1) % 2 ^ 32 = tail then
      popTo w.gk w r.size 0 true
      acquireCore (coreOfGrp w.gk)
      return .done
    else if c.bad s slot r.size 0 then return .bad slot
    else
      popTo w.gk w r.size (c.read s slot r.size 0) false
      ringWrite c r.base 4 ((head + 1) % 2 ^ 32)
      acquireCore (coreOfGrp w.gk)
      return .done
  | k =>
    if ringClosed c s r then return (if k = 0 then .closed else .done)
    else if ringCount c s r < r.slots then
      if k = 0 then ringWrite c (ringSlot r tail) r.size w.data
      else ringWrite c (r.base + 8) 1 1
      ringWrite c (r.base + 4) 4 ((tail + 1) % 2 ^ 32)
      return .done
    else return .waits

def RingWait.pops (w : RingWait) : Bool := w.kind = 1

def dropWait (key : Nat) (w : RingWait) : Op Unit :=
  modify fun s => { s with rings := tput [] s.rings key ((tget [] s.rings key).erase w) }

/-- The first waiting push and the first waiting pop of a ring, in the order of their arrival. -/
def firstWaits (ws : List RingWait) : List RingWait :=
  ws.filter fun w => (ws.find? fun x => x.pops = w.pops) = some w

/-- A waiting step ends with a trap: precise on its word, or held behind the trap that the group takes (02_words.md R67). -/
def ringTrap (w : RingWait) (t : TrapInfo) : Op Unit := do
  let g ← groupAt w.gk
  let me : Recorded := ⟨w.pc, w.slotB, w.mask, none⟩
  match g.trapping with
  | none =>
    wake w.gk 3
    takeTrapOf w.gk t me g.replay
  | some (u, list) =>
    noteTrap w.gk t
    putGroup w.gk { g with trapping := some (u, list ++ [me]) }
    wake w.gk 3

/-- Examine some waiting steps of a ring in their order; whether one was performed. -/
def tryWaits (key : Nat) : List RingWait → Op Bool
  | [] => return false
  | w :: ws => do
    let at' := (ringOf w.entry).base
    match ← ringStep w with
    | .waits => tryWaits key ws
    | .done =>
      dropWait key w
      wake w.gk 3
      return true
    | .closed =>
      dropWait key w
      ringTrap w { cause := 0x0E, addr := BitVec.ofNat 64 at' }
      return true
    | .bad a =>
      dropWait key w
      ringTrap w { cause := 0x08, addr := BitVec.ofNat 64 a }
      return true

/-- Examine the waiting steps of a ring after a step was performed, each through its own binding (R331). A push that meets a closed ring
takes its trap. -/
def serveRing (key : Nat) : Nat → Op Unit
  | 0 => pure ()
  | fuel + 1 => do
    if ← tryWaits key (firstWaits (tget [] (← get).rings key)) then serveRing key fuel

/-- Perform a queue step of the word in progress, or wait at the execution point behind earlier steps (R331). -/
def queueStep (w : RingWait) : Op Unit := do
  let r := ringOf w.entry
  let c ← localCtx w.gk
  let s ← get
  let key := ringKey c s r
  let ws := tget [] s.rings key
  let behind := ws.any fun x => x.pops = w.pops
  let res : RStep ← (if behind && !(w.kind != 1 && ringClosed c s r) then pure .waits else ringStep w)
  match res with
  | .done => serveRing key (ws.length + 1)
  | .closed => raise 0x0E (BitVec.ofNat 64 r.base)
  | .bad a => raise 0x08 (BitVec.ofNat 64 a)
  | .waits =>
    modify fun s => { s with rings := tset key (ws ++ [w]) s.rings }
    sleepOn (.ring key)

/-- The common start of a queue word: its active lanes, its binding entry, or Queue Unbound. -/
def queueStart (i : Instr) (p q : BitVec 3) : Op (Mask × Nat) := do
  legal i
  let m ← activeMask p.toNat
  if m = 0 then finish
  let e := (← self).binding q.toNat
  if !bitOf e 63 then raise 0x0F (BitVec.ofNat 64 q.toNat)
  return (m, e % 2 ^ 32)

/-- The bytes of a push (R331). -/
def pushData (s : State) (gk : Nat) (g : Group) (m : Mask) (z : Nat) : Reg → Nat
  | .lane v => (List.range (z / 4)).foldl (fun acc l =>
      acc + (if l < g.width && m.getLsbD l then elemAt s gk g v.toNat l else 0) * 2 ^ (32 * l)) 0
  | .sreg k => (g.scalar k.toNat).toNat % 2 ^ (8 * z)
  | .const i => constInt 64 i.toNat % 2 ^ (8 * z)

/-- The push, WRSR of a queue register (R331). -/
def execQueuePush (p q : BitVec 3) (src : Reg) : State → Host.Outcome State Fault Refusal :=
  runOp do
    let (m, e) ← queueStart (.queuePush p q src) p q
    let z := (ringOf e).size
    let s ← get
    let g ← self
    checkElems (((lanesOf g.width m).filter (· < z / 4)).flatMap fun l => regElems 4 l src)
    awaitAccesses
    queueStep ⟨s.cur.gk, 0, s.cur.pc, s.cur.slotB, m, none, pushData s s.cur.gk g m z src, e⟩

/-- The pop, RDSR of a queue register (R331). -/
def execQueuePop (p : BitVec 3) (dst : Dst) (q : BitVec 3) : State → Host.Outcome State Fault Refusal :=
  runOp do
    let (m, e) ← queueStart (.queuePop p dst q) p q
    let c := (← get).cur
    queueStep ⟨c.gk, 1, c.pc, c.slotB, m, some dst, 0, e⟩

/-- QCLOSE (R332, R357). -/
def execQclose (p q : BitVec 3) : State → Host.Outcome State Fault Refusal :=
  runOp do
    let (m, e) ← queueStart (.qclose p q) p q
    awaitAccesses
    let c := (← get).cur
    queueStep ⟨c.gk, 2, c.pc, c.slotB, m, none, 0, e⟩

/-- QSTAT (R357). -/
def execQstat (p : BitVec 3) (d : BitVec 6) (q : BitVec 3) : State → Host.Outcome State Fault Refusal :=
  runOp do
    legal (.qstat p d q)
    if (← activeMask p.toNat) = 0 then finish
    let e := (← self).binding q.toNat
    let c ← localCtx (← get).cur.gk
    let s ← get
    let r := ringOf (e % 2 ^ 32)
    let x := if bitOf e 63 then
        e % 2 ^ 32 + ringCount c s r % 256 * 2 ^ 32 + b2n (ringClosed c s r) * 2 ^ 40 + 2 ^ 41
      else 0
    modSelf fun g => g.setScalar d.toNat (BitVec.ofNat 64 x)

/-- QBIND (R356). -/
def execQbind (p q : BitVec 3) (e : QEntry) : State → Host.Outcome State Fault Refusal :=
  runOp do
    legal (.qbind p q e)
    if (← activeMask p.toNat) = 0 then finish
    let h ← selfHdr
    let g ← self
    let entry := match e with
      | .imm x => x.toNat
      | .reg m => (g.scalar m.toNat).toNat % 2 ^ 32
    let r := ringOf entry
    let room := if bitOf entry 31 then 4 * h.qmem * 16384 else h.scratch * 4096
    if room < offOf r.base + 64 + r.slots * r.size then raise 0x02 (BitVec.ofNat 64 (spaceOf r.base * 2 ^ 56 + room))
    modSelf fun g => { g with ctl := tput 0 g.ctl (80 + 2 * q.toNat) (BitVec.ofNat 64 (2 ^ 63 + entry)) }

/-! YIELD and quota -/

/-- YIELD (R358). -/
def execYield (p : BitVec 3) (n : BitVec 16) : State → Host.Outcome State Fault Refusal :=
  runOp do
    legal (.yield p n)
    if (← activeMask p.toNat) = 0 then finish
    let t := (← get).cycle
    modSelf fun g => { g with yieldTill := if n = 0 then 0 else t + n.toNat + 1, yielded := n = 0 }

/-- QUOTA.GIVE (R337, R365): it waits for the outstanding words that write its top units. -/
def execQuotaGive (p : BitVec 3) (n : BitVec 5) : State → Host.Outcome State Fault Refusal :=
  runOp do
    legal (.quotaGive p n)
    if (← activeMask p.toNat) = 0 then finish
    let gk := (← get).cur.gk
    let g ← self
    let keep := g.units.length - n.toNat
    let top (k : RKey) : Bool := match k with
      | .v r => decide (8 * keep ≤ r)
      | _ => false
    if g.pend.any fun x => x.wr.any top || x.kept.any top then loseTurn
    modSelf fun g => { g with units := g.units.take keep }
    poolUnits (blkOfGrp gk) g.width (g.units.drop keep)
    serveTakes (blkOfGrp gk) 65

/-- QUOTA.TAKE (R338, R365): it is served after the block's earlier TAKEs. -/
def execQuotaTake (p : BitVec 3) (n : BitVec 5) : State → Host.Outcome State Fault Refusal :=
  runOp do
    legal (.quotaTake p n)
    if (← activeMask p.toNat) = 0 then finish
    let gk := (← get).cur.gk
    modBlock (blkOfGrp gk) fun b => { b with takes := b.takes ++ [(gk % 64, n.toNat)] }
    sleepOn .units
    serveTakes (blkOfGrp gk) 65

end Sys2Proof.Machine
end

