-- ==== Sys2Proof/Machine/Footprint.lean ====
section
/-! DEFINITION. What a word touches before it issues: the bytes that it names (02_words.md R64), the registers that it reaches through the register window (01_machine.md R28), the passes it issues in and the ports they ask for (02_words.md R68). -/

namespace Sys2Proof.Machine

/-! Bytes -/

/-- The register use of a word that accesses memory lane by lane (R53), and whether it reads and writes memory. -/
def memForm : Instr → Option (MShape × MWord × Bool)
  | .ld z _ o => some (⟨z.bytes, false, true, false, none, false⟩, o, false)
  | .st z o => some (⟨z.bytes, true, false, false, none, false⟩, o, true)
  | .ldp z _ o => some (⟨z.bytes, false, true, false, none, true⟩, o, false)
  | .stp z o => some (⟨z.bytes, true, false, false, none, true⟩, o, true)
  | i => (atomOf i).map fun (a, o) => (⟨a.size, a.dataIn, a.ret, a.second, a.fmt, false⟩, o, true)

/-- The lanes of a word and the effective address of each (R53, R267). -/
def laneAddrs (s : State) (gk : Nat) (g : Group) (m : Mask) (h : MShape) (o : MWord) : List (Nat × Nat) :=
  let o' : MWord := if h.second then { o with index := .const 0 } else o
  (memLanes g.width (h.perLane o) m).map fun l => (l, effAddr s gk g l h.size o')

/-- A lane-private access as a span: the lane stands in bits 55:48 of the offset, for each lane has bytes of its own (01_machine.md R29). -/
def laneSpan (h : MShape) (wr : Bool) (l a : Nat) : Span :=
  ⟨if h.lp then 5 * 2 ^ 56 + l * 2 ^ 48 + a % 2 ^ 48 else a, h.size, wr⟩
/-- The offset of a span in its space. -/
def Span.off (x : Span) : Nat := if spaceOf x.addr = 5 then x.addr % 2 ^ 48 else offOf x.addr

/-- The line that a PREF, WB or INV names: for R64 a WB and an INV write it (10_memory_ops.md R276). -/
def lineSpans (s : State) (gk : Nat) (g : Group) (m : Mask) (o : MWord) (wr : Bool) : List (Nat × Span) :=
  (laneAddrs s gk g m ⟨1, false, false, false, none, false⟩ o).map fun (l, a) => (l, ⟨a / 128 * 128, 128, wr⟩)

/-- The operands of an X word in memory, as spans: A and B are read, the rows of C are written (07_matrix.md R192). -/
def xSpans (s : State) (gk : Nat) (g : Group) (f : XFmt) (sparse : Bool) (o : XWord) (m : Mask) : List (Nat × Span) :=
  let d := snapDesc g o.desc
  let w : MatWord := ⟨f, sparse, o.ta, o.tb, o.kcount.toNat, 0, 0, d, []⟩
  (sparseRows s gk g w ++ operandRows w true ++ operandRows w false).map (fun (a, n) => (0, ⟨a, n, false⟩)) ++
  (rowMask g.width (matM f) o.rm m).map fun r => (0, ⟨d.getD 2 0 + r * cstrOf d, 512, true⟩)

/-- The operands of a word that goes on from its snapshot (07_matrix.md R199). -/
def savedSpans (s : State) (gk : Nat) (g : Group) (sparse : Bool) (o : XWord) : List (Nat × Span) :=
  match g.mx.chain with
  | none => []
  | some ch =>
    let w : MatWord := ⟨ch.fmt, sparse, o.ta, o.tb, o.kcount.toNat, 0, 0, ch.desc, []⟩
    (sparseRows s gk g w ++ operandRows w true ++ operandRows w false).map (fun (a, n) => (0, ⟨a, n, false⟩)) ++
    (rowsOf (matM ch.fmt) ch.rows).map fun r => (0, ⟨ch.desc.getD 2 0 + r * cstrOf ch.desc, 512, true⟩)

/-- The bytes that a word names for its active lanes, with the lane of each. -/
def wordSpans (s : State) (gk : Nat) (g : Group) (only : Bool) (i : Instr) (m : Mask) : List (Nat × Span) :=
  if m = 0 then []
  else match memForm i with
  | some (h, o, wr) => (laneAddrs s gk g m h o).map fun (l, a) => (l, laneSpan h wr l a)
  | none =>
    let ring (q : BitVec 3) : List (Nat × Span) :=
      let r := ringOf (g.binding q.toNat % 2 ^ 32)
      [(0, ⟨r.base, 64 + r.slots * r.size, true⟩)]
    let sweep (op : Nat) (o : SWord) : List (Nat × Span) :=
      (sweepFeet g op o).map fun f => (0, ⟨f.base, f.span, f.write⟩)
    match i with
    | .pref o => lineSpans s gk g m o false
    | .wb o | .inv o => lineSpans s gk g m o true
    | .wsig d o =>
      let z := (wd d).bytes
      (laneAddrs s gk g m ⟨z, true, false, true, none, false⟩ o).map (fun (l, a) => (l, ⟨a, z, true⟩)) ++
        [(0, ⟨baseVal s gk g 0 o.index, z, true⟩)]
    | .topen o => [(0, ⟨baseVal s gk g 0 o.base, 64, false⟩)]
    | .tsplit o => [(0, ⟨baseVal s gk g 0 o.index, 8 * (bits o.off.toNat 7 4 + 1), true⟩)]
    | .swadd o => sweep 0 o
    | .swmul o => sweep 1 o
    | .swfma o => sweep 2 o
    | .swmax o => sweep 3 o
    | .swmin o => sweep 4 o
    | .swcvt o => sweep 5 o
    | .swexp o => sweep 6 o
    | .swsum o => sweep 7 o
    | .swcpy o => sweep 8 o
    | .swset o => sweep 9 o
    | .mma f o => if only && resumes g f then savedSpans s gk g false o else xSpans s gk g f false o m
    | .mmsp f o => if only && resumes g f then savedSpans s gk g true o else xSpans s gk g f true o m
    | .mres sparse o => if g.rowprog.getLsbD 63 then savedSpans s gk g sparse o else []
    | .mzero o =>
      let d := snapDesc g o.desc
      (rowMask g.width (kindRows o.kind.toNat) o.rm m).map fun r => (0, ⟨d.getD 2 0 + r * cstrOf d, 512, true⟩)
    | .jtbl _ idx tb _ _ => (lanesOf g.width m).map fun l =>
        (l, ⟨((g.scalar tb.toNat).toNat + 4 * tableIndex s gk g l idx) % 2 ^ 64, 4, false⟩)
    | .queuePush _ q _ | .queuePop _ _ q | .qclose _ q | .qstat _ _ q => ring q
    | .launch _ dst base idx => (launchLanes g.width dst idx m).map fun l =>
        (l, ⟨((g.scalar base.toNat).toNat + 64 * indexVal s gk g l idx) % 2 ^ 64, 64, false⟩)
    | _ => []

/-- Words that read memory and may stay outstanding without ordering anything: two such reads need no order (R64). -/
def plainRead : Instr → Bool
  | .ld _ _ o => !acquires o.ord
  | .ldp _ _ _ | .pref _ => true
  | _ => false

/-- A tile on which a group has a TACQ outstanding that a list of accesses names bytes of: its slice and entry (08_ordering_model.md R223). -/
def tileRequested (s : State) (gk t : Nat) (xs : List Span) : Option (Nat × Nat) :=
  s.homes.findSome? fun (h, x) => (x.waiting.find? fun q =>
    q.gk = gk && !q.join && (match tlook q.entry x.entries with
      | some e => e.tenant = t && xs.any fun y => spaceOf y.addr = 0 && (tileByte e.desc y.addr y.len).isSome
      | none => false)).map fun q => (h, q.entry)

/-! Passes and ports (02_words.md R68; 01_machine.md R10, R11) -/

/-- The passes of an instruction. -/
def passCount (w : Nat) : Nat := max 1 (w / 32)

/-- Issue cycles of a pass of a lane operation (05_lane_scalar_ops.md R125), and whether it runs on the floating-point array. -/
def laneCycles : LaneOp → Nat
  | .fp _ f | .fldx f | .fcmp f | .fcls f => if f = .d then 2 else 1
  | .fu _ f => if f = .d then 16 else 4
  | .int .imul l | .int .imulh l | .int .imulhUs l | .int .imad l => if l then 4 else 1
  | .div _ l _ => if l then 16 else 8
  | .int _ l | .mov l | .lea l | .bfx l _ | .bfi l | .icmp l _ | .sel l => if l then 2 else 1
  | .prmt | .idx2 => 1
def onFloats : LaneOp → Bool
  | .fp _ _ | .fu _ _ | .fldx _ | .fcmp _ | .fcls _ => true
  | _ => false

/-- Issue cycles of a pass of a word (R125; 06_sweep_quantise.md R168). -/
def issueCycles : Instr → Nat
  | .pairWord x y =>
    if onFloats x.op = onFloats y.op then laneCycles x.op + laneCycles y.op else max (laneCycles x.op) (laneCycles y.op)
  | .idiv l _ _ | .irem l _ _ => if l then 16 else 8
  | .imul l _ | .imulh _ l _ | .imad l _ => if l then 4 else 1
  | .frcp f _ | .frsq f _ | .fsqrt f _ | .fdiv f _ | .fex2 f _ | .flg2 f _ | .fsin f _ | .fcos f _ => if f = .d then 16 else 4
  | .fadd f _ | .fsub f _ | .fmul f _ | .ffma f _ | .fmin f _ | .fmax f _ | .fldx f _ | .frnd f _ _ | .fcmp f _ | .fcmpK f _ _
  | .fcls f _ => if f = .d then 2 else 1
  | .iadd l _ | .isub l _ | .imin _ l _ | .imax _ l _ | .iabs l _ | .and l _ | .or l _ | .xor l _ | .andn l _ | .shl l _
  | .shr l _ | .sar l _ | .rotl l _ | .popc l _ | .clz l _ | .brev l _ | .bfx l _ _ | .bfi l _ | .mov l _ | .lea l _
  | .icmp l _ _ | .icmpK l _ _ _ | .sel l _ | .movi l _ _ _ => if l then 2 else 1
  | .lscan l _ _ _ | .lred l _ _ => if l then 4 else 2
  | .cvt s d _ _ _ => if s.wide || d.wide then 2 else 1
  | .cvts _ _ _ _ | .qscl _ _ | .qpk8 _ _ | .qunp _ _ => 2
  | .qpk4 _ => 4
  | .qhad n _ _ _ => if hadLen n ≤ 32 then 4 else 8
  | _ => 1

/-- The source positions of an F or FI word that read a lane register: position, register, whether pattern 001 asks for
its latch (02_words.md R42, R44). -/
def laneSources (i : Instr) : List (Nat × Nat × Bool) :=
  let srcs : List (Nat × Src) := match i with
    | .cvts _ _ o c => [(0, o.a), (2, c)]
    | .movh _ _ a _ => [(0, a)]
    | _ => (patsOf i).flatMap fun (n, a) => match a with
      | .reg a b c _ => ([a, b, c].take n).zipIdx.map fun (x, k) => (k, x)
      | .imm a b _ => ([a, b].take (match i with
        | .icmp _ _ _ | .icmpK _ _ _ _ => 1
        | _ => n - 1)).zipIdx.map fun (x, k) => (k, x)
  srcs.filterMap fun (k, x) => match x with
    | .lane v p => some (k, v.toNat, p == .keep)
    | _ => none

/-- Operand-reuse latches that a word's sources hit (12_groups_progress.md R319). -/
def latchHit (k : Core) (gk : Nat) (g : Group) (x : Nat × Nat × Bool) : Bool :=
  g.width ≤ 32 && tlook (3 * (gk % 64 % 4) + x.1) k.latches = some (gk, x.2.1)

/-- The lane registers that a word reads from the banks. -/
def bankReads (k : Core) (gk : Nat) (g : Group) (i : Instr) : List Nat :=
  match laneSources i with
  | [] => (uses i).rd.filterMap fun r => match r with
    | .v n => some n
    | _ => none
  | xs => (xs.filter fun x => !latchHit k gk g x).map (·.2.1)

/-- What pass `p` of a word asks for: the granules of its sources' lanes, and of the accesses that its lanes make to the
core's store; and in the first pass the matrix, engine or sweep port. -/
def passWants (s : State) (gk : Nat) (g : Group) (i : Instr) (xs : List (Nat × Span)) (p : Nat) : List Want :=
  let core := coreOfGrp gk
  let inPass (l : Nat) : Bool := l / 32 = p
  let regs := (bankReads (s.core core) gk g i).flatMap fun n =>
    (List.range (min 32 g.width / 16)).map fun j => Want.granule ((g.place core n (32 * p + 16 * j)).1 % Config.granulesPerCore)
  let loc : List Want := match tlook (blkOfGrp gk) s.blocks with
    | none => []
    | some b => match (s.gridOf b.grid).bind (·.hdr) with
      | none => []
      | some h => (xs.filter fun x => inPass x.1 && x.2.len ≤ 16).filterMap fun (l, x) =>
          match locate s gk g b h (spaceOf x.addr) x.off l with
          | some (.gran false k _ _ _) =>
            if k / Config.granulesPerCore = core then some (.granule (k % Config.granulesPerCore)) else none
          | _ => none
  let unit : List Want := match i with
    | .mma _ _ | .mmsp _ _ | .mres _ _ | .mzero _ | .mcfg _ => [.matrix]
    | .cpy _ | .gath _ | .scat _ | .coll _ => [.engine]
    | .swadd _ | .swmul _ | .swfma _ | .swmax _ | .swmin _ | .swcvt _ | .swexp _ | .swsum _ | .swcpy _ | .swset _ => [.sweep]
    | _ => []
  regs ++ loc ++ if p = 0 then unit else []

/-- The port that a request names (R68). Which bank holds a granule the spec does not say (log 79). -/
def Want.port : Want → Nat
  | .granule k => Config.bankOf k % 32
  | .matrix => 32
  | .engine => 33
  | .sweep => 34

/-- Whether two requests meet at a port. -/
def Ask.meets (a b : Ask) : Bool := a.wants.any fun x => b.wants.any fun y => x == y || x.port = y.port

/-- Whether the request of quadrant `q` ranks above the one of quadrant `r`, the pointer standing at `p` (R68). -/
def Ask.above (p q : Nat) (a : Ask) (r : Nat) (b : Ask) : Bool :=
  a.arrived < b.arrived || (a.arrived = b.arrived && (q + 4 - p) % 4 < (r + 4 - p) % 4)

/-- Whether a request of quadrant `q` made in cycle `t` loses a port: another quadrant's request for it ranks above, or
has been granted in this cycle. -/
def Core.loses (k : Core) (t q : Nat) (a : Ask) : Bool :=
  k.asks.any fun (r, b) => r != q && b.arrived ≤ t && (b.won || b.above k.port r q a) && a.meets b

/-- The request of quadrant `q` after the cycle `t`: a pass that was granted its ports gives way to the next one; the quadrant
is free once the issue cycles of the last are over. -/
def Core.askAfter (k : Core) (t q : Nat) (a : Ask) : Option Ask :=
  if t < a.arrived || !a.begun then some a
  else if a.won || !k.loses t q a then
    match a.later with
    | w :: rest => some { a with wants := w, later := rest, arrived := t + a.every, won := false }
    | [] => if a.every ≤ 1 then none else some { a with wants := [], every := 1, arrived := t + a.every - 1, won := false }
  else some { a with won := false }

/-- The highest-ranked requester of a cycle. -/
def topAsk (p : Nat) (xs : List (Nat × Ask)) : Option (Nat × Ask) :=
  xs.foldl (fun m x => match m with
    | none => some x
    | some y => if x.2.above p x.1 y.1 y.2 then some x else some y) none

/-- The rotating pointer after a cycle (R68): if two requests met at a port, the highest-ranked requester's quadrant plus 1. -/
def Core.portAfter (k : Core) (t : Nat) : Nat :=
  let now := k.asks.filter fun x => x.2.arrived ≤ t && !x.2.wants.isEmpty
  if now.any fun x => now.any fun y => x.1 < y.1 && x.2.meets y.2 then
    match topAsk k.port now with
    | some (q, _) => (q + 1) % 4
    | none => k.port
  else k.port

/-- The ports of a core at the end of cycle `t`. -/
def Core.endCycle (t : Nat) (k : Core) : Core :=
  if k.asks.isEmpty then k
  else { k with port := k.portAfter t, asks := k.asks.filterMap fun (q, a) => (k.askAfter t q a).map fun b => (q, b) }

/-- The ports after `n` cycles from cycle `t` on. -/
def Core.endCycles (k : Core) (t : Nat) : Nat → Core
  | 0 => k
  | n + 1 => if k.asks.isEmpty then k else (k.endCycle t).endCycles (t + 1) n

end Sys2Proof.Machine
end

