-- ==== Sys2Proof/Machine/Place.lean ====
section
/-! DEFINITION. Placement of clusters and their blocks, and the placing again of saved blocks (01_machine.md R14 to R17, R30, R31, R35; 14_dispatch_lanterns.md R377 to R380; 16_recovery.md R442, R445, R448, R451). -/

namespace Sys2Proof.Machine

/-! Where a cluster fits -/

/-- Whether a core offers a place to a grid (R15). -/
def coreOffers (s : State) (qk c : Nat) : Bool :=
  let k := s.core c
  if k.grid = some qk then (s.blocks.filter fun e => coreOfBlk e.1 = c).length < k.places else k.grid.isNone

/-- The clusters of a grid in a quad. -/
def clustersIn (s : State) (q qk : Nat) : List Cluster := (s.quad q).clusters.filter fun c => c.grid = qk

/-- The cores of a quad that take `n` blocks of a cluster: distinct and lowest first; with quad memory, the four cores
are configured together and a slot is free (R30). -/
def quadCores (s : State) (qk q n : Nat) (h : Hdr) : Option (List Nat) :=
  let cs := (List.range 4).map (4 * q + ·)
  let ok := h.qmem = 0 ||
    ((cs.all (fun c => (s.core c).grid.isNone) || cs.all fun c => (s.core c).grid = some qk) &&
      (clustersIn s q qk).length < placesOf h)
  let free := cs.filter (coreOffers s qk)
  if ok && n ≤ free.length then some (free.take n) else none

/-- Units of 8 MiB of die store that grids hold on a die: of one partition, or of all. -/
def dieUsed (s : State) (d : Nat) (f : Nat → Bool) : Nat :=
  s.queues.foldl (fun n (qk, q) => match q.active with
    | some g => match g.hdr with
      | some h => if thas g.dieGens d && f (s.partOf (tenantOf qk)) then n + h.dstore else n
      | none => n
    | none => n) 0

/-- Whether a grid's die store is, or can be, carved on a die (R31). -/
def dieOk (s : State) (p d : Nat) (g : Grid) (h : Hdr) : Bool :=
  h.dstore = 0 || thas g.dieGens d ||
  (dieUsed s d (· == p) + h.dstore ≤ dieSupply s p d && dieUsed s d (fun _ => true) + h.dstore ≤ 8)

/-- The quads of a partition in a sector that are offered for placement, ascending. -/
def sectorQuads (s : State) (lan p : Nat) : List Nat :=
  (s.part p).own.quads.filter fun q => sectorOf q = lan && !(s.part p).leaving.contains q

/-- Quad and cores for `n` blocks of a grid in a sector (R379). -/
def findSpot (s : State) (lan p qk n : Nat) (g : Grid) (h : Hdr) : Option (Nat × List Nat) :=
  if g.record.oneDie && g.dieSel != some (lan / 4) then none
  else if !dieOk s p (lan / 4) g h then none
  else (sectorQuads s lan p).findSome? fun q => (quadCores s qk q n h).map (q, ·)

/-! Generations of a placement -/

/-- Whether the next `n` values of a counter are free (15_isolation.md R422). -/
def GenCtr.ready (passes : List Nat) : Nat → GenCtr → Bool
  | 0, _ => true
  | n + 1, c => c.free passes c.next && GenCtr.ready passes n c.take

/-! Images -/

/-- Words of the save region through the tenant's translation: any fault but a translation fault aborts the grid with
Save Fault (16_recovery.md R442, R451). -/
def saveFault {α : Type} (qk : Nat) : Op α := do
  abortGrid qk 0x23
  finish
def imageRead (qk va n : Nat) : Op (List Nat) :=
  (List.range n).mapM fun i => do
    match ← feRead qk (va + 8 * i) 8 with
    | some x => return x
    | none => saveFault qk
def imageWrite (qk core va : Nat) (ws : List Nat) : Op Unit :=
  ws.zipIdx.forM fun (x, i) => do
    match ← feMap qk (va + 8 * i) true with
    | some r =>
      let s ← get
      if memBad s r.pa 8 then note (.word r.pa 0)
      if memBad s r.pa 8 || (tenureConflict s r [] 8).isSome then saveFault qk
      else storeAt core r 8 x 0
    | none => saveFault qk

/-- Eight words as a granule's bytes. -/
def granuleOf (ws : List Nat) : BitVec 512 :=
  BitVec.ofNat 512 (ws.zipIdx.foldl (fun (n : Nat) x => n + x.1 * 2 ^ (64 * x.2)) 0)
/-- Granules of a core store, or of a die store, take an image and a generation (15_isolation.md R421). -/
def putImage (keys : List Nat) (gen : Nat) (ws : List Nat) : Op Unit :=
  keys.zipIdx.forM fun (k, i) =>
    let x : Granule := ⟨gen, granuleOf ((ws.drop (8 * i)).take 8)⟩
    modify fun s => { s with store := tput Granule.clean s.store k x }
def putDieImage (key gen : Nat) (ws : List Nat) : Op Unit :=
  modify fun s => { s with dstore := tput Granule.clean s.dstore key ⟨gen, granuleOf ws⟩ }

/-- The granules of a block's scratchpad, of a group's lane-private slices, of a cluster's quad memory in the order of
its addresses (01_machine.md R14, R29, R30; log 21). -/
def scratchKeys (bk : Nat) (b : Block) (h : Hdr) : List Nat :=
  let at' := coreOfBlk bk * Config.granulesPerCore + b.base + regGranules h + ctlGranules h + lpGranules h
  (List.range (scratchGranules h)).map (at' + ·)
def lpKeys (bk : Nat) (b : Block) (h : Hdr) (gi : Nat) : List Nat :=
  let n := lpGranules h / h.groups
  let at' := coreOfBlk bk * Config.granulesPerCore + b.base + regGranules h + ctlGranules h + gi * n
  (List.range n).map (at' + ·)
def qmemKeys (q places slot : Nat) (h : Hdr) : List Nat :=
  (List.range (4 * shareGranules h)).map fun i =>
    (4 * q + i / 4 % 4) * Config.granulesPerCore + places * allocGranules h + slot * shareGranules h + i / 16 * 4 + i % 4
def unitKeys (core w u : Nat) : List Nat :=
  (List.range (unitGranules w)).map (core * Config.granulesPerCore + u + ·)

/-! A new group -/

def stale? (h : Hdr) (i : Nat) : Bool := bitOf h.stale i

/-- Generations of a group with its stale-read modes (R24). -/
def gensOf (h : Hdr) (rw sp qm ds : Nat) : Gens :=
  { rw := rw, sp := sp, qm := qm, ds := ds, trw := stale? h 0, tsp := stale? h 1, tqm := stale? h 2, tds := stale? h 3 }

/-- Bindings in the control area: BOUND and ENTRY (R33, 12_groups_progress.md R334). -/
def bindWords (ctl : Tab W64) (es : List Nat) : Tab W64 :=
  es.zipIdx.foldl (fun c (e, j) => if e = 0 then c else tput 0 c (80 + 2 * j) (BitVec.ofNat 64 (2 ^ 63 + e))) ctl

/-- The launch state of a group (R35, 14_dispatch_lanterns.md R378). -/
def launchGroup (g : Grid) (h : Hdr) (units : List Nat) (gens : Gens) : Group :=
  { width := h.width
    a := { pc := BitVec.ofNat 64 (codeStart g + 8 * h.entry), mask := allLanes h.width }
    b := { pc := BitVec.ofNat 64 (codeStart g + 8 * h.entry) }
    units := units
    gens := gens
    ctl := bindWords (putWords [] 0 [g.record.word 2, g.record.blocks]) h.bindings }

/-- The state that a checkpoint restores (R443, R448); VALID = 0 denotes the launch state. -/
def restartGroup (g : Grid) (h : Hdr) (c : List Nat) (units : List Nat) (gens : Gens) : Group :=
  let w (i : Nat) : Nat := c.getD i 0
  if bits (w 89) 47 40 = 0 then launchGroup g h units gens
  else
    let sp := w 88 / 2 ^ 32
    let j := w 88 % 2 ^ 32
    let ctl := putWords (putWords [] 0 (c.take 64)) 66 ((c.drop 66).take 14)
    let ctl := bindWords ctl ((List.range 8).map fun i => bits (w (80 + i / 2)) (32 * (i % 2) + 31) (32 * (i % 2)))
    { width := h.width
      a := {
        pc := BitVec.ofNat 64 (w 85) &&& ~~~7
        mask := BitVec.ofNat 128 (w 86 + w 87 * 2 ^ 64) &&& allLanes h.width
        join := if j = 0xFFFFFFFF then none else some j }
      sp := min sp 1024
      units := units
      gens := gens
      ctl := putWords ctl 128 ((c.drop 128).take (4 * min sp 32))
      seed := BitVec.ofNat 64 (w 84) }

/-- Register units that a checkpoint gives its group. -/
def restartUnits (h : Hdr) (c : List Nat) : Nat :=
  if bits (c.getD 89 0) 47 40 = 0 then h.regs else bits (c.getD 89 0) 39 32

/-- First granules of all units of a block, in order. -/
def blockUnits (h : Hdr) (base : Nat) : List Nat :=
  (List.range (h.groups * h.regs)).map fun i => base + i * unitGranules h.width

/-- Deal units to groups in ascending order; what is left over. -/
def dealUnits : List (Nat × Nat) → List Nat → List (Nat × List Nat) × List Nat
  | [], us => ([], us)
  | (gi, n) :: xs, us =>
    let r := dealUnits xs (us.drop n)
    ((gi, us.take n) :: r.1, r.2)

/-! What a saved block's slot holds -/

/-- A block slot read back (R445): block number, slot, header words, each live group's checkpoint. -/
structure Saved where
  blk    : Nat
  slot   : Nat
  header : List Nat
  checks : List (Nat × List Nat)
deriving DecidableEq, Repr

def Saved.word (x : Saved) (i : Nat) : Nat := x.header.getD i 0
def Saved.live (x : Saved) (h : Hdr) : List Nat := (List.range h.groups).filter fun g => !bitOf (x.word 1) g
def Saved.crec (x : Saved) : Bool := bitOf (x.word 3) 2

def readSaved (qk : Nat) (h : Hdr) (blk slot : Nat) : Op Saved := do
  let header ← imageRead qk slot 144
  let x : Saved := ⟨blk, slot, header, []⟩
  let checks ← (x.live h).mapM fun gi => do return (gi, ← imageRead qk (partAt h slot gi) 256)
  return { x with checks := checks }

/-- Members of a mask, in ascending order. -/
def membersOf (m n : Nat) : List Nat := (List.range n).filter (bitOf m)
/-- A barrier from its mask and its phase; one that equals the initial state is not listed. -/
def barOf (m n phase : Nat) : Barrier := { arrived := membersOf m n, phase := phase % 2 = 1 }
def barsOf (xs : List Barrier) : Tab Barrier := xs.zipIdx.foldl (fun t (b, i) => tput {} t i b) []

/-- Block barriers of a header, and cluster barriers of a record. -/
def Saved.blockBars (x : Saved) : Tab Barrier :=
  barsOf ((List.range 16).map fun i => barOf (x.word (4 + 2 * i)) 64 (x.word (5 + 2 * i)))
def Saved.clusterBars (x : Saved) : Tab Barrier :=
  barsOf ((List.range 8).map fun i =>
    let m := (List.range 4).foldl (fun n j => n + x.word (64 + 6 * i + j) * 2 ^ (64 * j)) 0
    barOf m 256 (x.word (68 + 6 * i)))

/-- Phases of a group's last arrivals: block barriers from its header, cluster barriers from the record (R445). -/
def phaseBits (ws : List Nat) (first count lvl : Nat) : Tab Bool :=
  (List.range count).foldl (fun t i =>
    tset (lvl * 16 + i) (bitOf (ws.getD ((first + i) / 64) 0) ((first + i) % 64)) t) []
def joinTab (a b : Tab Bool) : Tab Bool := b.foldl (fun t (k, v) => tset k v t) a

/-! Placing -/

/-- Configure a core, or with quad memory its quad, for a grid (R15, R30): its event counters are cleared (04_numbers.md R117), and its L1
keeps what the places leave it. -/
def configure (q core qk : Nat) (h : Hdr) : Op Unit :=
  (if h.qmem = 0 then [core] else (List.range 4).map (4 * q + ·)).forM fun c => do
    if ((← get).core c).grid != some qk then
      modCore c fun k => { k with grid := some qk, places := placesOf h, events := {} }
      trimLines (.l1 c) ((← get).core c).copies.length

/-- The lowest free place of a core, and the lowest free slot of a list of addresses. -/
def lowPlace (s : State) (core n : Nat) : Nat :=
  ((List.range n).find? fun i => !thas s.blocks (core * 16 + i)).getD 0
def freeSlotAt (q : Queue) (g : Grid) (h : Hdr) : Nat :=
  let base := q.save.toNat / 4096 * 4096 + gridArea h
  ((List.range (maxRes q h)).map fun i => base + i * slotBytes h).find? (fun a => !g.slotsUsed.contains a) |>.getD base

/-- What a placement needs beside the block: cluster, its quad-memory slot and generation, the die store's generation,
and the block's turn among those of the decision. -/
structure Spot where
  quad : Nat
  clu  : Nat
  slot : Nat
  gqm  : Nat
  gds  : Nat
  turn : Nat
deriving DecidableEq, Repr

/-- Place one block at a core (R15, R17, R35): new, or from its saved slot (R451). -/
def placeBlock (qk core blk : Nat) (x : Spot) (saved : Option Saved) (crec : Option Saved) : Op Unit := do
  let s ← get
  let g ← need (s.gridOf qk)
  let h ← need g.hdr
  configure x.quad core qk h
  let s ← get
  let place := lowPlace s core (placesOf h)
  let bk := core * 16 + place
  let base := place * allocGranules h
  let slot := match saved with
    | some y => y.slot
    | none => freeSlotAt (s.queue qk) g h
  let live := match saved with
    | some y => y.live h
    | none => List.range h.groups
  let checks (gi : Nat) : List Nat := match saved with
    | some y => (tlook gi y.checks).getD []
    | none => []
  let pos := blk % h.cluster
  let gsp ← quadGen x.quad
  let rws ← live.mapM fun gi => do return (gi, ← quadGen x.quad)
  let gpool ← quadGen x.quad
  let (deal, left) := dealUnits (live.map fun gi => (gi, if saved.isSome then restartUnits h (checks gi) else h.regs))
    (blockUnits h base)
  let t := s.cycle
  let first := x.turn * g.record.stagger
  let b : Block := {
    grid := qk, blk := blk, clu := x.clu, pos := pos, base := base, gsp := gsp, gpool := gpool, slot := x.slot
    live := live
    pool := match saved with
      | some y => left.take (y.word 2)
      | none => []
    bars := match saved with
      | some y => y.blockBars
      | none => []
    placedAt := t
    releaseAt := if first = 0 then none else some (t + first)
    save := slot }
  putBlock bk b
  modify fun s => { s with poison := { s.poison with ctl := s.poison.ctl.filter fun gk => blkOfGrp gk != bk } }
  (live.zip (rws.zip deal)).forM fun (gi, (_, rw), (_, us)) => do
    let gens := gensOf h rw gsp x.gqm x.gds
    let y := match saved with
      | some _ => restartGroup g h (checks gi) us gens
      | none => launchGroup g h us gens
    let arrived : Tab Bool := match saved with
      | some v => joinTab (phaseBits ((v.header.drop 36).take 16) (16 * gi) 16 0)
        (match crec with
          | some r => phaseBits ((r.header.drop 112).take 32) (8 * (64 * pos + gi)) 8 1
          | none => [])
      | none => []
    putGroup (bk * 64 + gi) { y with
      readyAt := if first = 0 then t + 24 else 0
      arrived := arrived
      due := if saved.isSome then [] else [(0x2CD, [0])] }
  modGrid qk fun g => { g with
    state := .running
    placedBlks := g.placedBlks + 1
    placedOn := (blk, dieOfCore core) :: g.placedOn.filter (· != (blk, dieOfCore core))
    firstAt := g.firstAt.orElse fun _ => some t
    slotsUsed := if g.slotsUsed.contains slot then g.slotsUsed else g.slotsUsed ++ [slot] }
  acquireCore core

/-- The images of a saved block return to its place (R451): scratchpad, lane-private slices, and for each group the
selected units. -/
def restoreImages (qk core blk : Nat) (y : Saved) : Op Unit := do
  let s ← get
  match s.blocks.find? (fun e => coreOfBlk e.1 = core && e.2.grid = qk && e.2.blk = blk) with
  | none => pure ()
  | some (bk, b) =>
    let g ← need (s.gridOf qk)
    let h ← need g.hdr
    let sk := scratchKeys bk b h
    putImage sk b.gsp (← imageRead qk (scratchAt h y.slot) (8 * sk.length))
    y.checks.forM fun (gi, c) => do
      let t ← groupAt (bk * 64 + gi)
      let part := partAt h y.slot gi
      let lk := lpKeys bk b h gi
      putImage lk b.gsp (← imageRead qk (part + 0x1A000 + 4 * h.width * h.rq) (8 * lk.length))
      let mask := if bits (c.getD 89 0) 47 40 = 0 then 0 else bits (c.getD 89 0) 31 0
      t.units.zipIdx.forM fun (u, i) => do
        if bitOf mask i then
          putImage (unitKeys core h.width u) t.gens.rw (← imageRead qk (part + 0x1A000 + 32 * h.width * i) (4 * h.width))

/-- Read the images of a saved block without effect, so that a fault or a wait comes before anything is placed. -/
def touchImages (qk : Nat) (h : Hdr) (y : Saved) : Op Unit := do
  let _ ← imageRead qk (scratchAt h y.slot) (8 * scratchGranules h)
  y.checks.forM fun (gi, c) => do
    let part := partAt h y.slot gi
    let _ ← imageRead qk (part + 0x1A000 + 4 * h.width * h.rq) (8 * (lpGranules h / h.groups))
    let mask := if bits (c.getD 89 0) 47 40 = 0 then 0 else bits (c.getD 89 0) 31 0
    (List.range (restartUnits h c)).forM fun i => do
      if bitOf mask i then
        let _ ← imageRead qk (part + 0x1A000 + 32 * h.width * i) (4 * h.width)

/-- The die store of a grid on a die (R31): its generation, taken at the first placement there; an image that the save
region holds returns with it. -/
def dieStore (qk d : Nat) (h : Hdr) : Op Nat := do
  let s ← get
  let g ← need (s.gridOf qk)
  if h.dstore = 0 then return 0
  else match tlook d g.dieGens with
    | some v => return v
    | none =>
      let c := (s.die d).gen
      require (c.free [(s.die d).passes] c.next)
      let area := (s.queue qk).save.toNat / 4096 * 4096 + 65536 + d * (h.dstore * 2 ^ 23)
      let keys := List.range (h.dstore * 2 ^ 17)
      let words ← (if g.images.contains d then imageRead qk area (8 * keys.length) else pure [])
      let v ← dieGen d
      modGrid qk fun g => { g with dieGens := tset d v g.dieGens }
      if g.images.contains d then
        keys.forM fun k => putDieImage (d * 2 ^ 40 + qk * 2 ^ 20 + k) v ((words.drop (8 * k)).take 8)
      return v

/-- Members that count as ended when a saved cluster returns: those of blocks that are not among the saved, and the
ended groups of those that are (R451). -/
def endedMembers (h : Hdr) (ys : List Saved) : List Nat :=
  (List.range h.cluster).flatMap fun p => (List.range h.groups).filterMap fun g =>
    if ys.any (fun y => y.blk % h.cluster = p && !bitOf (y.word 1) g) then none else some (64 * p + g)

/-- Place the next cluster of a grid in a sector (R379, R451): its saved blocks first, then new ones. The number of
blocks placed; 0 where the sector receives none. What the spec leaves open is the model's choice (log 87): the cluster takes the lowest free
quad-memory slot, the generation of its quad memory is drawn before those of its blocks, and without quad memory or a die store GQM or
GDS is 0. A phase that waited for blocks to be placed may complete (12_groups_progress.md R335). -/
def placeCluster (lan p qk : Nat) : Op Nat := do
  let s ← get
  let g ← need (s.gridOf qk)
  let h ← need g.hdr
  let clu := match g.savedBlks with
    | (b, _, _) :: _ => b / h.cluster
    | [] => g.nextBlk / h.cluster
  let old := g.savedBlks.filter fun x => x.1 / h.cluster = clu
  let blks := if old.isEmpty then (List.range h.cluster).map (clu * h.cluster + ·) else old.map (·.1)
  let n := blks.length
  if (s.queue qk).waits.isSome || (old.isEmpty && (g.record.blocks ≤ g.nextBlk || maxRes (s.queue qk) h < g.slotsUsed.length + n))
  then return 0
  else match findSpot s lan p qk n g h with
  | none => return 0
  | some (q, cs) =>
    let gens := n * (2 + h.groups) + b2n (h.qmem != 0)
    if !GenCtr.ready (quadPasses s q) gens (s.quad q).gen then return 0
    else
      let ys ← old.mapM fun (b, a, _) => readSaved qk h b a
      ys.forM (touchImages qk h)
      let crec := ys.find? Saved.crec
      let qWords ← (match crec with
        | some y => if h.qmem = 0 then pure [] else imageRead qk (qmemAt h y.slot) (8 * (4 * shareGranules h))
        | none => pure [])
      let gds ← dieStore qk (dieOfQuad q) h
      let s ← get
      let slot := ((List.range (placesOf h)).find? fun k => !(clustersIn s q qk).any fun c => c.slot = k).getD 0
      let gqm ← (if h.qmem = 0 then pure 0 else quadGen q)
      modQuad q fun x => { x with clusters := x.clusters ++ [{
        grid := qk, clu := clu, slot := slot, gqm := gqm
        bars := match crec with
          | some y => y.clusterBars
          | none => []
        ended := if old.isEmpty then [] else endedMembers h ys }] }
      (blks.zip (cs.zipIdx)).forM fun (b, c, i) =>
        placeBlock qk c b ⟨q, clu, if h.qmem = 0 then 0 else slot, gqm, gds, i⟩ (ys.find? fun y => y.blk = b) crec
      if !qWords.isEmpty then putImage (qmemKeys q (placesOf h) slot h) gqm qWords
      (ys.zip cs).forM fun (y, c) => restoreImages qk c y.blk y
      modGrid qk fun g => { g with
        nextBlk := if old.isEmpty then g.nextBlk + n else g.nextBlk
        savedBlks := g.savedBlks.filter fun x => x.1 / h.cluster != clu }
      checkBarriers qk
      return n

/-! The events of placement -/

/-- Partitions that a sector may serve now: a current tenant whose switch is done, candidates, and a free place in the
partition's quads of the sector. While a commit waits, no grid enters RUNNING (15_isolation.md R406). -/
def canPick (s : State) (lan p : Nat) : Bool :=
  let x := s.part p
  match x.tenant with
  | none => false
  | some t => !x.switching && !(pickCands s t).isEmpty &&
    (sectorQuads s lan p).any fun q => (List.range 4).any fun i =>
      let c := 4 * q + i
      match (s.core c).grid with
      | none => true
      | some qk => coreOffers s qk c

/-- A written FEAT or REVEAL takes effect (15_isolation.md R431). -/
def applyFeat (p : Nat) : Op Unit := modPart p fun x =>
  { x with feat := x.ctl.toNat / 256 % 256, reveal := x.ctl.getLsbD 0, featPending := false }

/-- A written feature mask holds before a partition without a RUNNING grid gets one (15_isolation.md R431). -/
def featFirst (p : Nat) : Op Unit := do
  let s ← get
  if (s.part p).featPending && (gridsOf s p).all (fun x => x.2.state != .running) then applyFeat p

/-- PICK and the placing of the chosen grid's next block (R379). The partitions of a sector are served in turn (log 24). -/
def execLanternPick (sector : Nat) : State → Host.Outcome State Fault Refusal :=
  onUnit (32 ≤ sector) do
    let s ← get
    let l := s.lantern sector
    require (l.nextPick ≤ s.cycle && s.dev.power < 2)
    let ps := (s.parts.map (·.1)).filter (canPick s sector)
    let p ← need ((ps.find? (l.lastPart < ·)).orElse fun _ => ps.head?)
    let t ← need (s.part p).tenant
    modLantern sector fun l => { l with lastPart := p, nextPick := s.cycle + 64 }
    match ← pickPoint sector p t with
    | none => pure ()
    | some (qk, g) =>
      if g.state = .ready && ((s.part p).pending.isSome || (s.dev.poolPending && usePool s p)) then pure ()
      else
        featFirst p
        let n ← placeCluster sector p qk
        if n != 0 then modLantern sector fun l => { l with nextPick := s.cycle + 8 * n }

/-- A block is released to issue (R380): its groups are ready 24 cycles later. -/
def execBlockRelease (place : Nat) : State → Host.Outcome State Fault Refusal :=
  runOp do
    let s ← get
    let b ← blockAt place
    let t ← need b.releaseAt
    require (t ≤ s.cycle)
    putBlock place { b with releaseAt := none }
    b.live.forM fun gi => modGroup (place * 64 + gi) fun g => { g with readyAt := s.cycle + 24 }

/-- The record read of a submission completes (R369): the record is appended, or the submission refused. -/
def execSubmitAppend (tenant queue : Nat) : State → Host.Outcome State Fault Refusal :=
  onUnit (1024 ≤ tenant || 64 ≤ queue) do
    let qk := tenant * 64 + queue
    let q := (← get).queue qk
    require q.waits.isNone
    let a ← need q.submits.head?
    let r ← feRead qk a 64
    modQueue qk fun q => { q with submits := q.submits.tail }
    let s ← get
    match r with
    | none => refuseSubmit qk 3
    | some x =>
      if !accepts s qk then refuseSubmit qk 2
      else if queueFull s qk then refuseSubmit qk 1
      else
        let _ ← appendRecord qk (wordsOf x 8)
        pure ()

/-- A submission arrives at its queue (R369). -/
def submitOp (qk : Nat) (v : W64) : Op Unit := do
  let s ← get
  require (s.dev.state = 4 && (s.fn (tenantOf qk)).tdisp != 3)
  if !accepts s qk then refuseSubmit qk 2
  else if queueFull s qk then refuseSubmit qk 1
  else modQueue qk fun q => { q with submits := q.submits ++ [v.toNat / 64 * 64] }

/-- A write of QSUBMIT (R369): refused at once where the queue is disabled or full, else its record is to be read. -/
def execQsubmit (tenant queue : Nat) (v : W64) : State → Host.Outcome State Fault Refusal :=
  onUnit (1024 ≤ tenant || 64 ≤ queue) do
    submitOp (tenant * 64 + queue) v

/-- The header read completes (R372 steps 3 to 5, 03_opcode_map.md R93): the grid is READY, or is to retire. -/
def execHeaderCheck (tenant queue : Nat) : State → Host.Outcome State Fault Refusal :=
  onUnit (1024 ≤ tenant || 64 ≤ queue) do
    let qk := tenant * 64 + queue
    let s ← get
    let g ← need (s.gridOf qk)
    require (g.state = .waiting && g.retiring.isNone && g.deps.isEmpty && (s.queue qk).waits.isNone)
    let fail (st : Nat) : Op Unit := modGrid qk fun g => { g with retiring := some (st, 0) }
    let r := g.record
    match (← feRead qk (r.word 0) 128).bind headerOf with
    | none => fail stBadHdr
    | some h =>
      if r.blocks % h.cluster != 0 || (r.word 1 != 0) != (h.fallback != 0) then fail stBadRec
      else
        let st := launchStatus s qk h
        let pass (h : Hdr) (at' : Nat) (fb : Bool) : Op Unit := do
          modGrid qk fun g => { g with hdr := some h, hdrAt := at', fb := fb }
          wakeGrid qk
          tickIfIdle (s.partOf tenant)
        if st = 0 then pass h (r.word 0) false
        else if h.fallback = 0 then fail st
        else match (← feRead qk (r.word 1) 128).bind headerOf with
          | none => fail st
          | some h2 => if launchStatus s qk h2 = 0 && r.blocks % h2.cluster = 0 then pass h2 (r.word 1) true else fail st

end Sys2Proof.Machine
end

