-- ==== Sys2Proof/Machine/Preempt.lean ====
section
/-! DEFINITION. Drains, forced pre-emption, saving, shrinking, slices, epochs and the switch sequencer (14_dispatch_lanterns.md R381, R382, R398, R399; 15_isolation.md R424, R425, R431; 16_recovery.md R449 to R452). -/

namespace Sys2Proof.Machine

/-! Stopping a group (R449) -/

/-- Outstanding words that complete before a group stops: stores, sweeps, WB, INV, PREF and FENCE. -/
def finishes : Instr → Bool
  | .st _ _ | .stp _ _ | .pref _ | .wb _ | .inv _ | .fence _ => true
  | .swadd _ | .swmul _ | .swfma _ | .swmax _ | .swmin _ | .swcvt _ | .swexp _ | .swsum _ | .swcpy _ | .swset _ => true
  | _ => false

/-- Whether a pre-empted group issues no more: its region is open, it is not in handler mode and takes no trap, and no
chain with DET = 1 is open (R449 step 2, 07_matrix.md R200). -/
def Group.halts (g : Group) : Bool :=
  g.preempt && g.regionOpen && g.handler.isNone && g.trapping.isNone && !g.openChain.any (·.det)

/-- Whether an outstanding word waits on a page. -/
def onPage (page : Nat) (p : Pend) : Bool :=
  p.spans.any fun x => spaceOf x.addr = 0 && x.addr / 4096 ≤ page && page ≤ (x.addr + x.len - 1) / 4096

/-- The words left to complete when a group stops: a sleeping access is discarded. -/
def Group.finishing (g : Group) : List Pend :=
  g.pend.filter fun p => finishes p.instr && (match g.asleep with
    | some ⟨.fault _ _ page, _⟩ => !onPage page p
    | _ => true)

/-- The partial that a group which stops has still to deliver: its open chain, or a delivery that failed before (07_matrix.md R182, R486). -/
def Group.toDeliver (g : Group) : Option Chain :=
  match g.chain with
  | some ch => some ch
  | none => if g.mx.deliver && g.rowprog.getLsbD 63 then g.mx.chain else g.kept

/-- Words of a group that are discarded leave the units, rings, quota pools and tile queues that hold them. -/
def discardWords (gk : Nat) (left : List Pend) : Op Unit := do
  let ids := left.map (·.id)
  modCore (coreOfGrp gk) fun k => { k with
    mx := k.mx.filter fun w => w.gk != gk || ids.contains w.pid
    sw := k.sw.filter fun w => w.gk != gk || ids.contains w.pid }
  modBlock (blkOfGrp gk) fun b => { b with takes := b.takes.filter fun t => t.1 != gk % 64 }
  modify fun s => { s with
    rings := (s.rings.map fun (k, ws) => (k, ws.filter fun w => w.gk != gk)).filter fun e => !e.2.isEmpty
    homes := s.homes.map fun (i, h) => (i, { h with waiting := h.waiting.filter fun r => r.gk != gk }) }

/-- A pre-empted group stops (R449 step 2): an open chain with DET = 0 is delivered, what must complete has completed,
the rest is discarded. -/
def tryStop (gk : Nat) : Op Unit := do
  let g ← groupAt gk
  require (g.halts && !g.stopped)
  let left := g.finishing
  modGroup gk fun g => { g with pend := left, replay := [], asleep := none }
  discardWords gk left
  require left.isEmpty
  match g.toDeliver with
  | some ch =>
    let _ ← flushChain gk ch
    modGroup gk fun g => { g with chain := none, kept := none }
    if g.chain.isNone && g.mx.deliver then clearSaved gk
  | none => pure ()
  require (!((← get).contribs.any fun e => e.2.gk = gk))
  modGroup gk fun g => { g with stopped := true }

/-- A request ends a sleep whose word is outstanding (12_groups_progress.md R339): its wait begins anew, as far as the word cannot
go on. -/
def stirSleep (gk cause : Nat) : Op Unit := do
  let s ← get
  let g ← groupAt gk
  match g.asleep with
  | some z =>
    putGroup gk { g with asleep := some ⟨z.on, s.cycle⟩, slept := sat48 (g.slept + (s.cycle - z.since)) }
    let b ← blockAt (blkOfGrp gk)
    modGrid b.grid fun x => { x with waitE := x.waitE + (s.cycle - max z.since x.epochAt) }
    coreWakes (coreOfGrp gk) cause (gk % 64)
  | none => pure ()

/-- A pre-emption or debug request ends the sleep of a group (12_groups_progress.md R331, R339): WAITLN ends with result 3, a
queue step is examined again, any other word issues again or goes on waiting. -/
def endSleep (gk cause : Nat) : Op Unit := do
  match (← groupAt gk).asleep with
  | some ⟨.line _ _ _ _ _ _, _⟩ => endWait gk 3 cause
  | some ⟨.ring key, _⟩ =>
    stirSleep gk cause
    serveRing key 2
  | some ⟨w, _⟩ => if w.out then stirSleep gk cause else wake gk cause
  | none => pure ()

/-- The pre-emption request of a group (R449 step 1). -/
def requestStop (gk : Nat) : Op Unit := do
  modGroup gk fun g => { g with preempt := true }
  endSleep gk 9
  quietly (tryStop gk)

/-- Forced pre-emption of a block begins; a second request changes nothing (R459). -/
def preemptBlock (bk : Nat) (shrink : Bool) : Op Unit := do
  let b ← blockAt bk
  if b.preempt.isNone then
    putBlock bk { b with preempt := some ⟨(← get).cycle, shrink⟩ }
    b.live.forM fun gi => requestStop (bk * 64 + gi)

/-! Saving (R442, R445, R449 step 6) -/

def granuleWords (s : State) (gen k : Nat) : List Nat :=
  let x := tget Granule.clean s.store k
  wordsOf (if x.tag = gen then x.data.toNat else 0) 8
def keyWords (s : State) (gen : Nat) (ks : List Nat) : List Nat := ks.flatMap (granuleWords s gen)

def bitSum (xs : List Nat) : Nat := xs.eraseDups.foldl (fun (n : Nat) i => n + 2 ^ i) 0

/-- One bit for each group and barrier, group-major, from the phases of last arrivals. -/
def arrivalBits (s : State) (bk lvl count : Nat) (at' : Nat → Nat) (live : List Nat) : Nat :=
  live.foldl (fun (n : Nat) gi => match tlook (bk * 64 + gi) s.groups with
    | some g => n + (List.range count).foldl (fun (m : Nat) i =>
        m + b2n (tget false g.arrived (lvl * 16 + i)) * 2 ^ (count * at' gi + i)) 0
    | none => n) 0

/-- The first 16 KiB of a block slot (R445). -/
def headerWords (s : State) (bk : Nat) (b : Block) (h : Hdr) (members : List (Nat × Block)) (c : Option Cluster) : List Nat :=
  let ended := bitSum ((List.range h.groups).filter fun g => !b.live.contains g)
  let flags := 1 + 2 * b2n ((b.preempt.map (·.shrink)).getD false) + 4 * b2n c.isSome
  let bars := (List.range 16).flatMap fun i => [bitSum (tget {} b.bars i).arrived, b2n (tget {} b.bars i).phase]
  let record : List Nat := match c with
    | some c => ((List.range 8).flatMap fun i =>
        wordsOf (bitSum (tget {} c.bars i).arrived) 4 ++ [b2n (tget {} c.bars i).phase, 0])
    | none => List.replicate 48 0
  let arrivals : Nat := if c.isSome then members.foldl (fun (n : Nat) (k, y) =>
    n + arrivalBits s k 1 8 (fun g => 64 * y.pos + g) y.live) 0 else 0
  [b.blk, ended, b.pool.length, flags] ++ bars ++ wordsOf (arrivalBits s bk 0 16 id b.live) 16 ++
  List.replicate 12 0 ++ record ++ wordsOf arrivals 32 ++ List.replicate 1904 0

/-- Write one block of a stopped cluster into its slot. -/
def saveBlock (qk bk : Nat) (b : Block) (h : Hdr) (members : List (Nat × Block)) (c : Option Cluster) : Op Unit := do
  let s ← get
  let core := coreOfBlk bk
  imageWrite qk core b.save (headerWords s bk b h members c)
  imageWrite qk core (scratchAt h b.save) (keyWords s b.gsp (scratchKeys bk b h))
  (List.range h.groups).forM fun gi =>
    imageWrite qk core (partAt h b.save gi + 0x1A000 + 4 * h.width * h.rq) (keyWords s b.gsp (lpKeys bk b h gi))
  match c with
  | some c =>
    if h.qmem != 0 then
      imageWrite qk core (qmemAt h b.save)
        (keyWords s c.gqm (qmemKeys (quadOfCore core) (s.core core).places c.slot h))
  | none => pure ()

/-- The resident blocks of a block's cluster, in the order of their positions. -/
def membersOfCluster (s : State) (bk : Nat) (b : Block) : List (Nat × Block) :=
  (List.range 4).flatMap fun p => s.blocks.filter fun (k, y) =>
    y.grid = b.grid && y.clu = b.clu && y.pos = p && quadOfCore (coreOfBlk k) = quadOfCore (coreOfBlk bk)

/-- Whether every group of a pre-empted block has stopped. -/
def blockStopped (s : State) (bk : Nat) (b : Block) : Bool :=
  b.preempt.isSome && b.live.all fun gi => match tlook (bk * 64 + gi) s.groups with
    | some g => g.stopped && g.due.isEmpty
    | none => true

/-- Once every block of a cluster has stopped, it is saved and its places are freed; its slots stay its own (R449 step 6). -/
def trySave (bk : Nat) : Op Unit := do
  let s ← get
  let b ← blockAt bk
  let qk := b.grid
  let g ← need (s.gridOf qk)
  let h ← need g.hdr
  let ms := membersOfCluster s bk b
  require (g.retiring.isNone && (s.queue qk).waits.isNone && (ms.head?.map (·.1)) = some bk &&
    ms.all fun (k, y) => blockStopped s k y)
  ms.forM fun (k, y) =>
    saveBlock qk k y h ms (if k = bk then clusterOf s (coreOfBlk bk) qk b.clu else none)
  ms.forM fun (k, y) => do
    freePlace k
    modGrid qk fun g => { g with
      pre := true
      slotsUsed := g.slotsUsed ++ [y.save]
      savedBlks := g.savedBlks ++ [(y.blk, y.save, b2n ((y.preempt.map (·.shrink)).getD false))] }

/-- Words of the grid area whose layout the spec does not state (14_dispatch_lanterns.md R399; log 13). -/
def freeWords : Nat → Op (List Nat)
  | 0 => pure []
  | n + 1 => do
    let x ← freeValue
    return x.toNat :: (← freeWords n)

def gridWrite (qk va : Nat) (ws : List Nat) : Op Unit :=
  ws.zipIdx.forM fun (x, i) => do
    if !(← feWrite qk (va + 8 * i) 8 x) then saveFault qk

/-- A draining grid without resident blocks becomes SAVED (R399): the grid area is written, with the images of its die stores. -/
def saveGrid (qk : Nat) : Op Unit := do
  let s ← get
  let g ← need (s.gridOf qk)
  let h ← need g.hdr
  require (g.state = .draining && g.due.isNone && (s.queue qk).waits.isNone && !s.blocks.any fun e => e.2.grid = qk)
  let area := (s.queue qk).save.toNat / 4096 * 4096
  gridWrite qk area (← freeWords 8192)
  g.dieGens.forM fun (d, v) =>
    (List.range (h.dstore * 2 ^ 17)).forM fun i => do
      let x := tget Granule.clean (← get).dstore (d * 2 ^ 40 + qk * 2 ^ 20 + i)
      gridWrite qk (area + 65536 + d * (h.dstore * 2 ^ 23) + 64 * i) (wordsOf (if x.tag = v then x.data.toNat else 0) 8)
  modGrid qk fun g => { g with
    state := .saved
    pre := true
    drainAt := none
    images := (g.images ++ g.dieGens.map (·.1)).eraseDups }

/-! Events -/

/-- BLOCK (R382): every resident group of a RUNNING grid in the sector has slept 4,096 cycles. -/
def execLanternBlock (sector tenant queue : Nat) : State → Host.Outcome State Fault Refusal :=
  onUnit (32 ≤ sector || 1024 ≤ tenant || 64 ≤ queue) do
    let s ← get
    let qk := tenant * 64 + queue
    let g ← need (s.gridOf qk)
    let here := s.groups.filter fun (gk, _) => sectorOf (quadOfCore (coreOfGrp gk)) = sector &&
      (match tlook (blkOfGrp gk) s.blocks with
      | some b => b.grid = qk
      | none => false)
    require (g.state = .running && g.retiring.isNone && !here.isEmpty && here.all fun (_, x) => match x.asleep with
      | some z => z.since + 4096 ≤ s.cycle
      | none => false)
    if ← blockPoint sector (s.partOf tenant) qk g then drainGrid qk

/-- The end of the current tenant's slice: TICK (R381). -/
def execSliceEnd (part : Nat) : State → Host.Outcome State Fault Refusal :=
  onUnit (64 ≤ part) do
    let s ← get
    let x := s.part part
    require (x.tenant.isSome && !x.switching && x.sliceEnd ≤ s.cycle)
    chooseTenant part

/-- The energy rule at an epoch's end (R398). -/
def newCut (budget energy cut : Nat) : Nat :=
  if budget = 0 then cut
  else if budget < energy then min (cut + 1) 15
  else if 8 * energy < 7 * budget then cut - 1
  else cut

/-- An epoch ends (R381, R390, R398): counters are cleared, ages rise, issue cuts are adjusted. Energy and traffic are
not numbers of the spec (log 13). -/
def execEpochEnd (part : Nat) : State → Host.Outcome State Fault Refusal :=
  onUnit (64 ≤ part) do
    let s ← get
    let x := s.part part
    require (x.tenant.isSome && !x.switching && x.epochEnd ≤ s.cycle)
    (gridsOf s part).forM fun (qk, _) => modGrid qk fun g => { g with
      issuedE := 0
      waitE := 0
      epochAt := s.cycle
      age := min (g.age + 1) 65535 }
    let ts := (s.queues.map fun e => tenantOf e.1).eraseDups.filter fun t => s.partOf t = part
    ts.forM fun t => do
      let energy := (← freeValue).toNat
      let moved := (← freeValue).toNat
      let budget := (s.reg pfn (0x40000 + 0x10 * t)).toNat % 2 ^ 48
      modUse t fun u => { u with
        energy := u.energy + energy
        hbmb := u.hbmb + moved
        age := min (u.age + 1) 65535
        cut := newCut budget energy u.cut }
    modPart part fun x => { x with epochEnd := s.cycle + x.epochLen }

/-- The drain deadline (R399): every block still resident is pre-empted by force. -/
def execDrainDeadline (tenant queue : Nat) : State → Host.Outcome State Fault Refusal :=
  onUnit (1024 ≤ tenant || 64 ≤ queue) do
    let s ← get
    let qk := tenant * 64 + queue
    let g ← need (s.gridOf qk)
    let t ← need g.drainAt
    require (g.state = .draining && g.due.isNone && t + pdDrain s (s.partOf tenant) ≤ s.cycle)
    s.blocks.forM fun (bk, b) => if b.grid = qk then preemptBlock bk false else pure ()

/-- The pre-emption watchdog expires (R449): the grid aborts with Pre-emption Timeout. -/
def execPreemptionTimeout (place : Nat) : State → Host.Outcome State Fault Refusal :=
  runOp do
    let s ← get
    let b ← blockAt place
    let p ← need b.preempt
    require (p.since + max 1 (pdWdog s (s.partOf (tenantOf b.grid))) ≤ s.cycle)
    abortGrid b.grid 0x20

/-- Whether a header declares a die, package or pod barrier (R452). -/
def Hdr.cooperative (h : Hdr) : Bool := (h.barriers.drop 2).any (· != 0)

/-- The shrink deadline (R452). -/
def execShrinkDeadline (part : Nat) : State → Host.Outcome State Fault Refusal :=
  onUnit (64 ≤ part) do
    let s ← get
    let x := s.part part
    let t ← need x.shrinkAt
    require (t ≤ s.cycle)
    modPart part fun x => { x with shrinkAt := none }
    let on (bk : Nat) : Bool := x.leaving.contains (quadOfCore (coreOfBlk bk))
    (gridsOf s part).forM fun (qk, g) => do
      let mine := s.blocks.filter fun e => e.2.grid = qk
      if mine.any fun e => on e.1 then
        if (g.hdr.map Hdr.cooperative).getD false then
          modGrid qk fun g => { g with state := .draining, drainAt := g.drainAt.orElse (fun _ => some s.cycle), waitq := true, shrunk := true }
          mine.forM fun e => preemptBlock e.1 true
        else mine.forM fun e => if on e.1 then preemptBlock e.1 true else pure ()

/-- The call state of a tenant at a Lantern (15_isolation.md R424 step 7). -/
def Lantern.without (l : Lantern) (t : Nat) : Lantern :=
  { l with
    lastQ := l.lastQ.filter fun qk => tenantOf qk != t
    sameQ := if l.lastQ.any (fun qk => tenantOf qk = t) then 0 else l.sameQ
    lastG := l.lastG.filter fun x => tenantOf x.1 != t }

/-- The switch sequencer (15_isolation.md R424, R425): it starts when the outgoing tenant's grids have drained, and takes
2,600 cycles, after which the new tenant is placed. -/
def execSwitchSequencer (part : Nat) : State → Host.Outcome State Fault Refusal :=
  onUnit (64 ≤ part) do
    let s ← get
    let x := s.part part
    let o ← need x.lastTenant
    require (x.switching && x.switchTill.isNone && !s.blocks.any (fun e => tenantOf e.2.grid = o) &&
      !(s.dies.any fun d => d.2.jobs.any fun j => j.2.tenant = o) && !(s.contribs.any fun c => c.2.tenant = o) &&
      (gridsOf s part).all fun (qk, g) => tenantOf qk != o || (g.state != .running && g.state != .draining))
    if x.featPending then applyFeat part
    (queuesOf s o).forM fun (qk, q) => match q.active with
      | some g => do
        g.dieGens.forM fun (d, v) => endDieGen d v
        modGrid qk fun g => { g with dieGens := [] }
      | none => pure ()
    let mine (c : Nat) : Bool := x.own.quads.contains (quadOfCore c)
    modify fun s => { s with cores := s.cores.map fun (c, k) =>
      (c, if mine c then { k with tlb := [], ibuf := k.ibuf.map fun (i, l) => (i, { l with stale := true }) } else k) }
    let dies := dieCands s part
    modify fun s => { s with dies := s.dies.map fun (d, k) =>
      (d, if dies.contains d then { k with tlb := k.tlb.filter fun e => e.tenant != o } else k) }
    let secs := x.own.quads.map sectorOf
    modify fun s => { s with lanterns := s.lanterns.map fun (n, l) => (n, if secs.contains n then l.without o else l) }
    let energy := (← freeValue).toNat
    modUse o fun u => { u with clear := u.clear + 2600 * x.own.quads.length, energy := u.energy + energy }
    modPart part fun x => { x with switchTill := some (s.cycle + 2600) }

/-- The retirement of a grid (R374). -/
def execGridRetire (tenant queue : Nat) : State → Host.Outcome State Fault Refusal :=
  onUnit (1024 ≤ tenant || 64 ≤ queue) do
    retireGrid (tenant * 64 + queue)

/-- A write of QGRID.ABORT (16_recovery.md R453): Host Abort of the active grid. -/
def execQgridAbort (tenant queue : Nat) : State → Host.Outcome State Fault Refusal :=
  onUnit (1024 ≤ tenant || 64 ≤ queue) do
    abortGrid (tenant * 64 + queue) 0x25

end Sys2Proof.Machine
end

