-- ==== Sys2Proof/Machine/Issue.lean ====
section
/-! DEFINITION. The issue of a word: its class and feature groups (03_opcode_map.md R72, R73, R84), the scoreboard and lookahead (02_words.md R62 to R66), readiness and the choice of a group and of a slot (12_groups_progress.md R314 to R316), the ports (02_words.md R68), and the operand-reuse latches (R319, R320). -/

namespace Sys2Proof.Machine

/-! What an opcode needs -/

/-- F opcode of kind 00, or the two opcodes of a pair word, or none. -/
def fOpcodes (w : W64) : List Nat :=
  match fld w 62 2 with
  | 0 => [(fld w 53 9).toNat]
  | 1 => [(fld w 55 7).toNat, (fld w 24 7).toNat]
  | _ => []

/-- The class bit of an opcode (R70): 0 permanent, 1 deprecated, 2 experimental. An FI opcode shares the class of its F form. -/
def classOf (x : Nat) : Nat :=
  match x % 256 with
  | 0x4B => 1
  | 0x8C | 0x8D => 2
  | _ => 0

/-- Whether a word's opcodes belong to the grid's classes and to the stepping (R72). -/
def classOk (classes stepping : Nat) (w : W64) : Bool :=
  let ok (c : Nat) : Bool := bitOf classes c && (c != 2 || stepping = 0x0B01)
  match fOpcodes w with
  | [] => ok 0
  | xs => xs.all fun x => ok (classOf x)

/-- Whether an opcode is in feature group `g` (R73). -/
def inGroup (w : W64) (g : Nat) : Bool :=
  let f := (fld w 53 8).toNat
  let x := (fld w 54 8).toNat
  match fld w 62 2 with
  | 0 =>
    let cvt := f = 0xE0 || f = 0xE1
    match g with
    | 1 => (0x80 ≤ f && f ≤ 0x8F) || f = 0x95 || f = 0x9B || f = 0xA1 || (cvt && (fld w 17 4 = 1 || fld w 21 4 = 1))
    | 2 => f = 0xE1 || (0xE8 ≤ f && f ≤ 0xED)
    | _ => false
  | 2 =>
    match g with
    | 1 => x = 0xC0 || x = 0x57 || x = 0x77
    | 2 => (0xC3 ≤ x && x ≤ 0xC8) || x = 0xE5
    | 3 => 0xC0 ≤ x && x ≤ 0xDF && w.getLsbD 5
    | 4 => 0xE0 ≤ x
    | 5 => (0xA0 ≤ x && x ≤ 0xA3) || (0xA8 ≤ x && x ≤ 0xAA)
    | 6 => 0x80 ≤ x && x ≤ 0x87
    | _ => false
  | 3 => g = 7 && x = 0x45
  | _ => false

/-- The feature groups that a word names by the registers that it reads (R73, R84; 07_matrix.md R199). -/
def heldFeatures (w : W64) : Op Unit := do
  if fld w 62 2 = 2 && (← activeMask (fld w 51 3).toNat) != 0 then
    match (fld w 54 8).toNat with
    | 0xA3 => match sregOf (fld w 21 9) with
      | some b => collFeature b.toNat
      | none => pure ()
    | 0xD2 => savedFeature
    | _ => pure ()

/-- The instruction of a fetched word, or the first condition of R61 that the word alone meets. -/
def readWord (w : W64) : Op Instr := do
  let h ← selfHdr
  if !classOk h.classes (← get).dev.stepping w then illegal 1
  if !opcodeAssigned w then illegal 1
  ((List.range 7).map (· + 1)).forM fun g => if inGroup w g then needFeature g else pure ()
  match decode w with
  | .ok i => return i
  | .error e =>
    heldFeatures w
    illegal e.code

/-! Scoreboard and lookahead -/

/-- A word that a slot, or the list of recorded entries, issues next (12_groups_progress.md R314; 16_recovery.md R440). -/
structure Next where
  slotB : Bool
  pc    : W64
  only  : Option Mask
deriving DecidableEq, Repr

def Group.next? (g : Group) (slotB : Bool) : Option Next :=
  match g.replay with
  | r :: _ => if r.slotB = slotB then some ⟨slotB, r.pc, some r.mask⟩ else none
  | [] => if (g.slot slotB).mask = 0 then none else some ⟨slotB, (g.slot slotB).pc, none⟩

/-- Long-latency words (R62; 13_control_sync_ops.md R344). -/
def longWord (w : W64) (i : Instr) : Bool :=
  match fld w 62 2 with
  | 2 => true
  | 3 => [0x02, 0x08, 0x20, 0x21, 0x22, 0x23, 0x24, 0x25, 0x41, 0x45, 0x46, 0x47, 0x48].contains (fld w 54 8).toNat ||
    (match i with
    | .queuePush _ _ _ | .queuePop _ _ _ => true
    | _ => false)
  | _ => false
def engineOp (w : W64) : Bool := fld w 62 2 = 2 && 0xA0 ≤ (fld w 54 8).toNat && (fld w 54 8).toNat ≤ 0xA3

/-- The register that a word reads past a future hold, and may name as its destination too (11_engines_futures.md R297, R307). -/
def pastHold : Instr → Option Nat
  | .ftst o | .fwt o | .fcan o => match o.base with
    | .sreg m => some m.toNat
    | _ => none
  | _ => none

/-- Why a word does not issue now: a wait, or a limit that is no sleep. -/
inductive Stall
  | sleep (w : Wait)
  | turn
deriving DecidableEq, Repr

/-- The ActiveMask of a word that has not issued (R46; 16_recovery.md R440). -/
def Next.active (n : Next) (g : Group) (i : Instr) : Mask :=
  match n.only with
  | some m => m
  | none => (g.slot n.slotB).mask &&& g.pred (predOf i)

/-- The lookahead of an outstanding word holds back both slots (R62). -/
def Group.blocked (g : Group) : Bool := g.pend.any fun p => p.left = 0

/-- The future hold of a register among `keys` that a word meets (11_engines_futures.md R297). -/
def Group.heldBy (g : Group) (i : Instr) (keys : List RKey) : Option Stall :=
  (g.holds.find? fun h => keys.contains (.s h.1) && pastHold i != some h.1).map fun h => .sleep (.future h.2.1 h.2.2 none)

/-- Whether an outstanding word is still to write one of the registers `keys`, or holds one of `writes` against writing (R63;
06_sweep_quantise.md R152). -/
def Group.awaits (g : Group) (keys writes : List RKey) : Bool :=
  g.pend.any fun p => p.wr.any keys.contains || p.kept.any writes.contains

/-- Whether an outstanding word holds back the accesses of a later one: all of them, or its writes (08_ordering_model.md R216, R218). -/
def Pend.holdsBack (p : Pend) (writes : Bool) : Bool :=
  match p.fence with
  | .no => false
  | .writes => writes
  | .all | .acquire => true

/-- Waits of a word that names bytes: registers reached through the window (01_machine.md R28), an outstanding access that
overlaps it (R64), an acquire that is not complete, and a tile under request (08_ordering_model.md R216, R223). -/
def spanStall (s : State) (gk : Nat) (g : Group) (i : Instr) (xs : List Span) : Option Stall :=
  let ww := windowWrites gk g xs
  let wk := ww ++ windowReads gk g xs
  match g.heldBy i wk with
  | some x => some x
  | none =>
    let t := match tlook (blkOfGrp gk) s.blocks with
      | some b => tenantOf b.grid
      | none => 0
    if g.awaits wk ww then some (.sleep .drain)
    else if g.pend.any fun p => p.holdsBack (xs.isEmpty || xs.any (·.wr)) || p.spans.any fun y => xs.any fun x =>
        (x.wr || y.wr || !plainRead i) && spansMeet s (coreOfGrp gk) t x y then some (.sleep .drain)
    else (tileRequested s gk t xs).map fun (h, e) => .sleep (.tile h e)

/-- Why a word does not issue now: lookahead (R62), future holds (R297), the scoreboard (R63), overlaps (R64), and the limits
of R66; a word without active lanes counts against neither limit. -/
def stallOf (s : State) (gk : Nat) (g : Group) (n : Next) (w : W64) (i : Instr) : Option Stall :=
  let m := n.active g i
  let full : Option Stall := if engineOp w && m != 0 && 64 ≤ g.futures then some .turn else none
  if g.pend.isEmpty && g.holds.isEmpty then full
  else
    let keys := (uses i).rd ++ (uses i).wr
    if g.blocked then some (.sleep .drain)
    else match g.heldBy i keys with
    | some x => some x
    | none =>
      if g.awaits keys (uses i).wr then some (.sleep .drain)
      else
        let xs := (wordSpans s gk g n.only.isSome i m).map (·.2)
        match if xs.isEmpty && !(engineOp w && m != 0) then none else spanStall s gk g i xs with
        | some x => some x
        | none => if longWord w i && m != 0 && 16 ≤ g.pend.length then some (.sleep .drain) else full

/-- The word that a slot would issue, where the instruction buffer holds it. -/
def peekWord (s : State) (gk : Nat) (g : Group) (n : Next) : Option W64 :=
  match tlook (blkOfGrp gk) s.blocks with
  | none => none
  | some b =>
    (heldLine s (coreOfGrp gk) (tenantOf b.grid) (n.pc.toNat / 128) g n.slotB).map fun d =>
      BitVec.ofNat 64 (d.toNat / 2 ^ (n.pc.toNat % 128 / 8 * 64))

/-- Whether a slot is ready as far as its word is known (R314). -/
def slotReady (s : State) (gk : Nat) (g : Group) (slotB : Bool) : Bool :=
  match g.next? slotB with
  | none => false
  | some n => match peekWord s gk g n with
    | none => !g.blocked
    | some w => match decode w with
      | .ok i => (stallOf s gk g n w i).isNone
      | .error _ => !g.blocked

/-- The issue cut of a tenant and of the package (14_dispatch_lanterns.md R398, 17_host_fabric.md R471): words begin in 16 - max(c, p)
cycles of every 16 since the reset. -/
def cutAllows (s : State) (t : Nat) : Bool := (s.cycle - s.dev.resetAt) % 16 < 16 - max (s.use t).cut s.dev.cut

/-- Whether a group is awake, released and not stopped, and takes no trap (R314). -/
def awake (s : State) (gk : Nat) (g : Group) : Bool :=
  g.asleep.isNone && g.trapping.isNone && !g.stopped && !g.halts &&
  (match tlook (blkOfGrp gk) s.blocks with
  | some b => b.releaseAt.isNone
  | none => false)

/-- Whether a group may issue at all in this cycle: it is awake, its clock runs, it does not yield, and no cut holds it (R314, R340,
R358). -/
def mayIssue (s : State) (gk : Nat) (g : Group) : Bool :=
  awake s gk g && g.readyAt ≤ s.cycle && g.yieldTill ≤ s.cycle &&
  (match tlook (blkOfGrp gk) s.blocks with
  | some b => cutAllows s (tenantOf b.grid)
  | none => false)

/-- A ready group (R314). -/
def groupReady (s : State) (gk : Nat) (g : Group) : Bool :=
  mayIssue s gk g && (slotReady s gk g false || slotReady s gk g true)

/-! The choice of a group (R13, R315, R316) -/

def quadrantOf (gk : Nat) : Nat := gk % 64 % 4

/-- The groups of a quadrant of a core. -/
def quadrantGroups (s : State) (core q : Nat) : List (Nat × Group) :=
  s.groups.filter fun e => coreOfGrp e.1 = core && quadrantOf e.1 = q

/-- The ready group of greatest age, the lowest number first, then the lowest place. -/
def oldest (xs : List (Nat × Group)) : Option (Nat × Group) :=
  xs.foldl (fun m x => match m with
    | none => some x
    | some y =>
      if y.2.age < x.2.age || (y.2.age = x.2.age && x.1 % 64 < y.1 % 64) then some x else some y) none

/-- The choice of R315. -/
def chooseGroup (s : State) (core q : Nat) : Option (Nat × Group) :=
  let ready := (quadrantGroups s core q).filter fun e => groupReady s e.1 e.2
  match oldest ready with
  | none => none
  | some x =>
    if 64 ≤ x.2.age then some x
    else match tlook q (s.core core).last with
      | none => some x
      | some gk => match ready.find? (fun e => e.1 = gk) with
        | some y => if y.2.yielded then some x else some y
        | none => some x

/-- The slot that issues: of two ready slots the one that did not issue the previous word (R316). -/
def chooseSlot (s : State) (gk : Nat) (g : Group) : Bool :=
  if slotReady s gk g false && slotReady s gk g true then !g.lastB else slotReady s gk g true

/-- Whether a group and a slot are the ones that the quadrant chooses among those that may issue (R315, R316). -/
def chosen (s : State) (gk : Nat) (g : Group) (slotB : Bool) : Bool :=
  (match quadrantGroups s (coreOfGrp gk) (quadrantOf gk) with
  | [_] => true
  | _ => (chooseGroup s (coreOfGrp gk) (quadrantOf gk)).any fun x => x.1 = gk) &&
  ((g.next? (!slotB)).isNone || chooseSlot s gk g = slotB)

/-- Whether a group's word may ask for its ports in this cycle: the quadrant has nothing at the ports and chooses it, or it is the
word that lost a port in an earlier cycle and keeps its place (02_words.md R68; R315). -/
def mayAsk (s : State) (gk : Nat) (g : Group) (slotB : Bool) : Bool :=
  match tlook (quadrantOf gk) (s.core (coreOfGrp gk)).asks with
  | none => chosen s gk g slotB
  | some a => !a.begun && a.gk = gk && a.slotB = slotB && a.tried < s.cycle

/-! Operand-reuse latches (R319, R320) -/

/-- Source positions and registers that a word of a pattern-001 source latches. -/
def latchesOf (i : Instr) : List (Nat × Nat) :=
  (laneSources i).filterMap fun (k, v, keep) => if keep then some (k, v) else none

/-- The latches after a word began. -/
def latchWord (gk : Nat) (g : Group) (i : Instr) (ls : Tab (Nat × Nat)) : Tab (Nat × Nat) :=
  let q := quadrantOf gk
  let kept := ls.filter fun (k, x) => k / 3 != q || (x.1 = gk && !(uses i).wr.contains (.v x.2))
  if g.width ≤ 32 then
    (latchesOf i).foldl (fun t (k, v) => if (uses i).wr.contains (.v v) then t else tset (3 * q + k) (gk, v) t) kept
  else kept

/-- Whether a latch still holds its register's values after a step. -/
def latchKept (s t : State) (x : Nat × Nat) : Bool :=
  match tlook x.1 s.groups, tlook x.1 t.groups with
  | some g, some h =>
    g.units = h.units && h.trapping.isNone && !h.preempt && x.2 < h.nreg &&
    (List.range h.width).all fun l => elemAt s x.1 g x.2 l = elemAt t x.1 h x.2 l
  | _, _ => false
def Core.keepLatches (s t : State) (k : Core) : Core :=
  if k.latches.isEmpty then k else { k with latches := k.latches.filter fun e => latchKept s t e.2 }

/-! The issue of a word -/

/-- The slot goes on behind its word, or the recorded entry is taken off the list. -/
def stepPast (gk : Nat) (n : Next) : Op Unit :=
  modGroup gk fun g => match n.only with
    | some _ => { g with replay := g.replay.tail }
    | none => g.setSlot n.slotB { g.slot n.slotB with pc := n.pc + 8 }

/-- The word asks for its ports: it is granted them, or it replays in a later cycle with its arrival unchanged (02_words.md R68). -/
def askPorts (gk : Nat) (n : Next) (i : Instr) (xs : List (Nat × Span)) : Op Unit := do
  let s ← get
  let g ← groupAt gk
  let q := quadrantOf gk
  let k := s.core (coreOfGrp gk)
  let ps := (List.range (passCount g.width)).map (passWants s gk g i xs)
  let a : Ask := {
    gk := gk
    slotB := n.slotB
    arrived := ((tlook q k.asks).map (·.arrived)).getD s.cycle
    wants := ps.headD []
    later := ps.tail
    every := issueCycles i
    tried := s.cycle }
  let lost := k.loses s.cycle q a
  modCore (coreOfGrp gk) fun k => { k with asks := tset q { a with begun := !lost, won := !lost } k.asks }
  if lost then
    unissue
    finish

/-- A word begins (R315, R319; R360). -/
def beginWord (gk : Nat) (n : Next) (i : Instr) : Op Unit := do
  let s ← get
  let g ← groupAt gk
  modCore (coreOfGrp gk) fun k => { k with
    gated := false
    idle := s.cycle
    last := tset (quadrantOf gk) gk k.last
    latches := latchWord gk g i k.latches }
  modGroup gk fun g => { g with age := 0, yielded := false, lastB := n.slotB }
  countWord

/-- A word that does not issue after all. -/
def stallWord {α : Type} : Op α := do
  unissue
  finish

/-- Everything before a word takes effect: waiting writes and deliveries, the fetch, the choice of subcode, the stalls and
the ports. The instruction to execute. -/
def issueWord (gk : Nat) (slotB defer : Bool) : Op Instr := do
  let g ← groupAt gk
  require (mayIssue (← get) gk g && !g.blocked && mayAsk (← get) gk g slotB)
  modify fun s => { s with cur := { gk := gk, slotB := slotB, defer := defer } }
  flushDue gk
  let g ← groupAt gk
  let n ← need (g.next? slotB)
  modify fun s => { s with cur := {
    gk := gk
    slotB := slotB
    pc := n.pc
    only := n.only
    defer := defer
    act := n.only.getD (g.slot slotB).mask
    wasOpen := g.regionOpen } }
  stepPast gk n
  if g.handler.isNone then deliverPending
  let w ← fetchWord
  let i ← readWord w
  let s ← get
  let g ← groupAt gk
  match stallOf s gk g n w i with
  | some _ => stallWord
  | none =>
    let xs := wordSpans s gk g n.only.isSome i (n.active g i)
    askPorts gk n i xs
    beginWord gk n i
    modify fun s => { s with cur := { s.cur with spans := xs.map (·.2) } }
    return i

/-- A turn that leads to an instruction: what precedes it, then the instruction itself. A trap of the preparation is the word's. -/
def issueThen (run : Instr → State → Host.Outcome State Fault Refusal) (m : Op Instr) (s : State) :
    Host.Outcome State Fault Refusal :=
  match m s with
  | .ok i t => run i t
  | .error e t => runOp (throw e) t

/-! Sleeps and wakes of the scoreboard (R314, R339) -/

/-- Why a slot's word, known to the buffer, does not issue. -/
def slotStall (s : State) (gk : Nat) (g : Group) (slotB : Bool) : Option Stall :=
  match g.next? slotB with
  | none => none
  | some n => match peekWord s gk g n with
    | none => none
    | some w => match decode w with
      | .ok i => stallOf s gk g n w i
      | .error _ => if g.blocked then some (.sleep .drain) else none

/-- A group that has words to issue and no slot ready sleeps (R339): both slots wait, or one waits and the other is empty. -/
def settleGroup (gk : Nat) (g : Group) : Op Unit := do
  let s ← get
  if awake s gk g && !(g.pend.isEmpty && g.holds.isEmpty) && !slotReady s gk g false && !slotReady s gk g true then
    match slotStall s gk g false, slotStall s gk g true with
    | some (.sleep w), _ | none, some (.sleep w) => modGroup gk fun g => { g with asleep := some ⟨w, s.cycle⟩ }
    | _, _ => pure ()

/-! The word of a Lantern's call -/

def lanternWord (n : Nat) : Op Instr := do
  modify fun s => { s with cur := { s.cur with lan := n } }
  let c ← callNow
  require (c.ended = 0)
  match c.routine[c.pc]? with
  | none => do
    putCall { c with ended := 2 }
    finish
  | some w => match decodeBeam w with
    | .ok i => return i
    | .error _ => do
      putCall { c with ended := 2 }
      finish

end Sys2Proof.Machine
end

