-- ==== Sys2Proof/Machine/Progress.lean ====
section
/-! DEFINITION. Events of groups and cores: handlers entered, outstanding words completed, clocks gated, the passing of cycles, yields and monitors that end (02_words.md R65, R67; 12_groups_progress.md R340; 13_control_sync_ops.md R358, R362; 10_memory_ops.md R279; 16_recovery.md R435). -/

namespace Sys2Proof.Machine

/-- TRAP_ENTRY (R435): the handler is entered once nothing of the group is outstanding. -/
def execTrapEntry (gk : Nat) : State → Host.Outcome State Fault Refusal :=
  runOp do
    let g ← groupAt gk
    require g.trapping.isSome
    tryEnter gk

/-! Completion of an outstanding word -/

/-- The operation of an outstanding memory word, with the operands it read at issue. -/
def pendOp (p : Pend) : Option (Op Unit) :=
  let v := valsOf p
  match p.instr with
  | .ld z sx o => some (doLoad (needLd z.bytes) sx o v)
  | .ldp z sx o => some (doLoad (needLdp z.bytes) sx o v)
  | .st z o => some (doStore (needSt z.bytes) o v)
  | .stp z o => some (doStore (needStp z.bytes) o v)
  | .pref o => some (doPref o v)
  | .wb o => some (doBack o false v)
  | .inv o => some (doBack o true v)
  | .fence o => some (doFence o)
  | .wsig d o => some (doWsig (wd d).bytes o v)
  | i => (atomOf i).map fun x => doAtom x.1 x.2 v

/-- Whether a group's sleep leaves it able to perform an outstanding word: not while another access of it waits. -/
def Group.performs (g : Group) : Bool :=
  match g.asleep with
  | some ⟨.fault _ _ _, _⟩ | some ⟨.home, _⟩ => false
  | _ => true

/-- Perform an outstanding word: it completes, or it waits and stays outstanding, or its trap is taken (R65, R67). -/
def performPend (gk : Nat) (p : Pend) (m : Op Unit) : Op Unit := fun s =>
  match m s with
  | .ok _ t => completePend gk p.id 1 t
  | .error (.trap x) t => (do
      wakeStalled gk 1
      trapPend gk p.id x) t
  | .error e t => .error e t

/-- LONG_LATENCY_COMPLETE (R65): an outstanding memory word is performed; a service's reply arrives (R362). -/
def execLongLatencyComplete (gk id : Nat) : State → Host.Outcome State Fault Refusal :=
  runOp do
    let g ← groupAt gk
    match g.asleep with
    | some ⟨.reply dst _ service, _⟩ =>
      require (service < 0x8000)
      let x ← freeValue
      acquireCore (coreOfGrp gk)
      modGroup gk fun g => g.setScalar dst x
      wake gk 1
    | _ =>
      let p ← need (g.pend.find? fun p => p.id = id)
      let m ← need (pendOp p)
      let s ← get
      require (g.performs && !p.fin && !waitsFor s (coreOfGrp gk) (tenantAt s gk) (earlierPend g p.id) p)
      modify fun s => { s with cur := {
        gk := gk
        slotB := p.slotB
        pc := p.pc
        act := p.mask
        wasOpen := g.regionOpen
        held := true } }
      performPend gk p m

/-! Cores and timers -/

/-- Whether a group keeps its core's clock running: it can issue, or yields (R340, R358). -/
def keepsClock (s : State) (gk : Nat) (g : Group) : Bool :=
  groupReady s gk g || (g.asleep.isNone && s.cycle < g.yieldTill) || (g.asleep.isNone && s.cycle < g.readyAt)

/-- Whether a core's units and ports are idle, and no card of a job has still to leave it (R340). -/
def unitsIdle (s : State) (core : Nat) : Bool :=
  (s.core core).mx.isEmpty && (s.core core).sw.isEmpty && (s.core core).asks.isEmpty &&
  !s.contribs.any (fun e => coreOfGrp e.2.gk = core && !e.2.held) &&
  !(s.die (dieOfCore core)).jobs.any fun j => j.2.core = core && j.2.arrived.isNone

/-- Whether a core is at work: a group of it is ready, or a unit or a port holds work. -/
def atWork (s : State) (core : Nat) : Bool :=
  s.groups.any (fun (gk, g) => coreOfGrp gk = core && keepsClock s gk g) || !unitsIdle s core

/-- CORE_CLOCK_GATE (R340). -/
def execCoreClockGate (core : Nat) : State → Host.Outcome State Fault Refusal :=
  onUnit (cores ≤ core) do
    let s ← get
    require (!(s.core core).gated && (s.core core).idle + 16 ≤ s.cycle && !atWork s core)
    modCore core fun k => { k with gated := true }

/-- YIELD_EXPIRE (R358). -/
def execYieldExpire (gk : Nat) : State → Host.Outcome State Fault Refusal :=
  runOp do
    let g ← groupAt gk
    require (g.yieldTill != 0 && g.yieldTill ≤ (← get).cycle)
    modGroup gk fun g => { g with yieldTill := 0 }

/-- WAITLN_TIMEOUT (R279). -/
def execWaitlnTimeout (gk : Nat) : State → Host.Outcome State Fault Refusal :=
  runOp do
    let g ← groupAt gk
    match g.asleep with
    | some ⟨.line _ _ _ till _ _, _⟩ =>
      require (till ≤ (← get).cycle)
      endWait gk 2 6
    | _ => pure ()

/-! Time -/

/-- Blocks of a quad, by tenant: the quad-cycles of 15_isolation.md R430. -/
def busyQuads (s : State) : List (Nat × Nat) :=
  (s.blocks.map fun (bk, b) => (quadOfCore (coreOfBlk bk), tenantOf b.grid)).eraseDups

/-- Whether a group began a word in this cycle. -/
def beganNow (s : State) (gk : Nat) : Bool :=
  match tlook (quadrantOf gk) (s.core (coreOfGrp gk)).asks with
  | some a => a.won && a.gk = gk
  | none => false

/-- A group's age after `dt` cycles in which nothing happens (R315): 0 while it is not ready and in the cycle in which it began a
word, else one more for each cycle. -/
def agedBy (dt : Nat) (s : State) (e : Nat × Group) : Nat × Group :=
  (e.1, { e.2 with age := if !groupReady s e.1 e.2 then 0 else if beganNow s e.1 then dt - 1 else e.2.age + dt })

/-- The requests that stand at a core's ports: a word that can no longer issue gives up its place. -/
def standing (s : State) (k : Core) : Core :=
  if k.asks.isEmpty then k
  else { k with asks := k.asks.filter fun e => e.2.begun || (match tlook e.2.gk s.groups with
    | some g => awake s e.2.gk g
    | none => false) }

/-- A core that was at work in the cycles that end at `t` has been idle from then on (R340). -/
def stirred (s : State) (c t : Nat) (k : Core) : Core := if atWork s c then { k with idle := t } else k

/-- Cycles pass: the clock, the ports of the cores, the ages of the groups, and the quad-cycles of tenants. -/
def passed (dt : Nat) (s : State) : State :=
  if dt = 0 then s
  else { s with
    cycle := s.cycle + dt
    groups := s.groups.map (agedBy dt s)
    cores := s.cores.map fun (c, k) => (c, stirred s c (s.cycle + dt) ((standing s k).endCycles s.cycle dt))
    usage := (busyQuads s).foldl (fun u x =>
      tput {} u x.2 { tget {} u x.2 with qcyc := (tget {} u x.2).qcyc + dt }) s.usage }

end Sys2Proof.Machine
end

