-- ==== Sys2Proof/Machine/Upkeep.lean ====
section
/-! DEFINITION. What the package does of its own accord: clocks, floors and ageing (09_tiles_leases.md R258, R259), pages in motion and page synchronisation (R260 to R262), table walks (15_isolation.md R416), evictions, and the scrubbers (R422). -/

namespace Sys2Proof.Machine

/-! Clocks -/

/-- A core or quad after a tick, its clock's base now standing at `b`: leases that end before its clock have ended (R254); what its loads have
read stands where it stood. -/
def Core.ticked (b : Nat) (k : Core) : Core := { k with seen := k.seen - 1, copies := expireAll ((b + k.lc) % 65536) k.copies }
def Quad.ticked (b : Nat) (k : Quad) : Quad := { k with copies := expireAll ((b + k.qc) % 65536) k.copies }

/-- LOGICAL_CLOCK_TICK (R258): every clock advances; monitors on lines that the L1 may not cache report it (10_memory_ops.md R279). -/
def execLogicalClockTick : State → Host.Outcome State Fault Refusal :=
  runOp do
    let s ← get
    require (s.dev.ticks < s.cycle / 1024)
    let b := (s.dev.base + 1) % 65536
    modDev fun d => { d with ticks := d.ticks + 1, base := b }
    modify fun s => { s with
      cores := s.cores.map fun (i, k) => (i, k.ticked b)
      quads := s.quads.map fun (i, k) => (i, k.ticked b) }
    lineEvents fun _ w => match w with
      | .line _ false _ _ watch _ => watch = 0
      | _ => false

/-- A clock kept as an offset, raised to a new base. -/
def rebase (old new off : Nat) : Nat := (later ((old + off) % 65536) new + 65536 - new) % 65536

/-- The floor that a largest clock M gives: M - 8,192. -/
def floorOf (m : Nat) : Nat := (m + 65536 - 8192) % 65536

/-- Raise every clock to a floor. -/
def Core.raised (old new : Nat) (k : Core) : Core :=
  let lc := rebase old new k.lc
  { k with lc := lc, seen := rebase old new k.seen, copies := expireAll ((new + lc) % 65536) k.copies }
def Quad.raised (old new : Nat) (k : Quad) : Quad :=
  let qc := rebase old new k.qc
  { k with qc := qc, copies := expireAll ((new + qc) % 65536) k.copies }
def Home.raised (old new : Nat) (k : Home) : Home := { k with hc := rebase old new k.hc }
def Home.evRaised (old new : Nat) (k : Home) : Home := { k with maxev := rebase old new k.maxev }
def raiseClocks (fl : Nat) : Op Unit := do
  let s ← get
  let b := s.dev.base
  if earlier b fl then
    modify fun s => { s with
      cores := s.cores.map fun (i, k) => (i, k.raised b fl)
      quads := s.quads.map fun (i, k) => (i, k.raised b fl)
      homes := s.homes.map fun (i, k) => (i, k.raised b fl) }
    modDev fun d => { d with base := fl }
  let t := s.dev.start
  if earlier t fl then
    modify fun s => { s with homes := s.homes.map fun (i, k) => (i, k.evRaised t fl) }
    modDev fun d => { d with start := fl }

/-- POD_FLOOR (R258): the largest clock of the other packages arrives; clocks and MAXEV are raised at once, and writes held
by the jump cap try again. -/
def execPodFloor (largest : BitVec 16) : State → Host.Outcome State Fault Refusal :=
  runOp do
    let s ← get
    require (s.dev.floors < s.cycle / 4096)
    let m := later (largestClock s) largest.toNat
    raiseClocks (floorOf m)
    modDev fun d => { d with floors := d.floors + 1, floor := (m + 65536 - d.start) % 65536 }
    homeEvent

/-- AGEING_SWEEP (R258): one held sector is visited. -/
def execAgeingSweep (sector : Nat) : State → Host.Outcome State Fault Refusal :=
  runOp do
    let s ← get
    let x ← need (tlook sector s.sects)
    let fl := floorOf s.floorM
    if s.dev.floors != 0 && earlier x.rts fl then
      modify fun s => { s with sects := tset sector ⟨fl, fl, x.home⟩ s.sects }
      modHome x.home fun h => { h with aged := sat48 (h.aged + 1) }

/-! Evictions -/

/-- A sector leaves the memory-side cache (R259): its slice keeps the latest RTS. -/
def dropHome (sector : Nat) : Op Unit := do
  let s ← get
  let x ← need (tlook sector s.sects)
  let v := (later (s.maxev x.home) x.rts + 65536 - s.dev.start) % 65536
  modHome x.home fun h => { h with maxev := v }
  modify fun s => { s with sects := tdel sector s.sects }

/-- A line of an instruction buffer that no slot refers to gives way (12_groups_progress.md R328). -/
def dropLine (core line : Nat) : Op Unit := do
  let s ← get
  require !referenced s core line
  modCore core fun k => { k with ibuf := tdel line k.ibuf }

/-- A TLB entry gives way. -/
def dropTlb (core n : Nat) : Op Unit := modCore core fun k => { k with tlb := k.tlb.eraseIdx n }

/-! Pages -/

/-- Entries of a tenant that map an address are dropped from every TLB of the package. -/
def Core.forget (f : Tlb → Bool) (k : Core) : Core := { k with tlb := k.tlb.filter fun e => !f e }
def Die.forget (f : Tlb → Bool) (d : Die) : Die := { d with tlb := d.tlb.filter fun e => !f e }
def forgetTlb (f : Tlb → Bool) : Op Unit :=
  modify fun s => { s with
    cores := s.cores.map fun (i, k) => (i, k.forget f)
    dies := s.dies.map fun (i, d) => (i, d.forget f) }

/-- The stage-1 page that holds the page of 4 KiB number `page`: its first address, the address behind it, its leaf (R414). -/
def pageOf (s : State) (t page : Nat) : Nat × Nat × Option Leaf :=
  match walkOne s t (4096 * page) true with
  | .ok l => (4096 * page / 2 ^ l.log2 * 2 ^ l.log2, 4096 * page / 2 ^ l.log2 * 2 ^ l.log2 + 2 ^ l.log2, some l)
  | .error _ => (4096 * page, 4096 * page + 4096, none)

/-- Whether the core that owns a private page has an outstanding access to it (R260). -/
def pageBusy (s : State) (t page : Nat) : Bool :=
  match pageOf s t page with
  | (lo, hi, some l) => s.groups.any fun (gk, g) => tenantAt s gk = t && ownedBy s l (coreOfGrp gk) &&
      g.pend.any fun p => p.spans.any fun x => x.addr < hi && lo < x.addr + x.len
  | _ => false

/-- Entries that map an address of a page give way in every TLB. -/
def forgetPage (s : State) (t page : Nat) : Op Unit :=
  let (lo, hi, _) := pageOf s t page
  forgetTlb fun e => e.tenant = t && e.vpn * 2 ^ e.log2 < hi && lo < (e.vpn + 1) * 2 ^ e.log2

/-- PAGE_RECLASSIFY (R260): once the outstanding accesses are performed, the page becomes shared-lease and the waiting misses are served. -/
def execPageReclassify (tenant va : Nat) : State → Host.Outcome State Fault Refusal :=
  runOp do
    let s ← get
    require (s.dev.moving.contains (tenant, va / 4096) && !pageBusy s tenant (va / 4096))
    match walk1 s tenant va with
    | .ok l =>
      if bits l.w1 10 9 = 3 then
        modify fun s => { s with mem := wrBytes s.mem 8 (l.at' + 8) (l.w1 - 0x400) }
    | .error _ => pure ()
    forgetPage s tenant (va / 4096)
    modDev fun d => { d with moving := d.moving.filter (· != (tenant, va / 4096)) }
    homeEvent

/-- The copies of a sector in the L1 caches, quad units and L2 slices. -/
def copiesOf (s : State) (sec : Nat) : List (Pt × Copy) :=
  (s.cores.filterMap fun (c, k) => (tlook sec k.copies).map fun x => (Pt.l1 c, x)) ++
  (s.quads.filterMap fun (q, k) => (tlook sec k.copies).map fun x => (Pt.quad q, x)) ++
  (List.range Config.dies).filterMap fun d => (copyAt s (.l2 d) sec).map fun x => (Pt.l2 d, x)

/-- A list begun at another place. -/
def rotateBy {α : Type} (n : Nat) (xs : List α) : List α := xs.drop (n % max 1 xs.length) ++ xs.take (n % max 1 xs.length)

/-- One sector of a page synchronisation (R261, R262): dirty bytes are merged in the order of arrival, which is open, and
every copy is dropped. Whether a byte was dirty in more than one cache. -/
def sweepSector (sec : Nat) : Op Bool := do
  let n := (← freeValue).toNat
  let cs := rotateBy n (copiesOf (← get) sec)
  cs.forM fun (p, x) => do
    mergeDirty sec x none
    dropCopy p sec
  return (List.range 64).any fun i => 2 ≤ (cs.filter fun c => c.2.dirty.getLsbD i).length

/-- Whether an open tile of a tenant has a byte on a range of virtual addresses (R262). -/
def tileOn (s : State) (t va n : Nat) : Bool :=
  s.homes.any fun (_, h) => h.entries.any fun (_, e) => e.tenant = t &&
    e.desc.rows.any fun a => a < va + n && va < a + e.desc.rowBytes

/-- Copies of a page that becomes software-managed are no longer tracked (R262). -/
def untracked (first count : Nat) (cs : Tab Copy) : Tab Copy :=
  cs.map fun (i, x) => if first ≤ i && i < first + count then (i, { x with sm := true }) else (i, x)
def untrack (first count : Nat) : Op Unit :=
  modify fun s => { s with
    cores := s.cores.map fun (c, k) => (c, { k with copies := untracked first count k.copies })
    quads := s.quads.map fun (q, k) => (q, { k with copies := untracked first count k.copies }) }

/-- The sweep of one mapping's sectors (R261): conflicts of merges count where the page becomes coherent again. -/
def sweepFrame (t va : Nat) (e : Tlb) : Op Unit := do
  let s ← get
  let first := e.pa / 64
  let count := 2 ^ e.log2 / 64
  let held := (s.cores.flatMap fun c => c.2.copies.map (·.1)) ++ s.l2.map (fun c => c.1 % 2 ^ 46) ++
    s.quads.flatMap fun q => q.2.copies.map (·.1)
  (held.eraseDups.filter fun i => first ≤ i && i < first + count).forM fun sec => do
    if (← sweepSector sec) && e.pol = 0 then
      let h := homeOf s ⟨va, e, 64 * sec, s.partOf t, false, t⟩
      modHome h fun k => { k with merge := sat48 (k.merge + 1) }
      modUse t fun u => { u with mergeconf := u.mergeconf + 1 }
  let moved := (← get).sects.filter fun x => first ≤ x.1 && x.1 < first + count
  moved.forM fun x => dropHome x.1

/-- The synchronisation of a mapped page: its status (R261, R262, R362). A page that open tiles hold back stays tile-class. -/
def syncPage (t va : Nat) (e : Tlb) : Op Nat := do
  let s ← get
  let (lo, hi, _) := pageOf s t (va / 4096)
  if e.cls != 2 && tileOn s t lo (hi - lo) then
    if !keptTile s t va then modDev fun d => { d with tileKept := d.tileKept ++ [(t, va / 4096)] }
    return 2
  else
    let maps := pageMaps s t hi (2 ^ 18) lo
    modDev fun d => { d with tileKept := d.tileKept.filter fun x => !(x.1 = t && lo ≤ 4096 * x.2 && 4096 * x.2 < hi) }
    if e.pol = 2 then maps.forM fun m => untrack (m.pa / 64) (2 ^ m.log2 / 64)
    else maps.forM fun m => sweepFrame t va m
    forgetPage s t (va / 4096)
    return 0

/-- PAGE_SYNC_SWEEP (R261, R262, R362): the answer to the request of this number. -/
def execPageSyncSweep (id : Nat) : State → Host.Outcome State Fault Refusal :=
  runOp do
    let s ← get
    let (t, page, gk) ← need s.dev.syncs[id]?
    let va := page * 4096
    let st ← (match walkPages s t va with
      | .error _ => pure 3
      | .ok (e, _, _) => match reach s t (e.phys va) with
        | .none => pure 3
        | _ => syncPage t va e)
    modDev fun d => { d with syncs := d.syncs.eraseIdx id }
    match tlook gk (← get).groups with
    | some g => match g.asleep with
      | some ⟨.reply dst _ 0x8000, _⟩ =>
        acquireCore (coreOfGrp gk)
        modGroup gk fun g => g.setScalar dst (BitVec.ofNat 64 st)
        wake gk 1
      | _ => pure ()
    | none => pure ()
    homeEvent

/-- TABLE_WALK (15_isolation.md R416, R418): a walk that fills the shared TLB of a die, or reports its fault. The agent of the
record is that of the miss, which the event does not name (log 13). -/
def execTableWalk (die tenant va : Nat) (acc : BitVec 3) : State → Host.Outcome State Fault Refusal :=
  onUnit (Config.dies ≤ die || 1024 ≤ tenant || 2 ^ 56 ≤ va) do
    match ← xlate die none tenant va with
    | .bad f =>
      let place ← freeValue
      let _ ← reportFault tenant va f acc.toNat (place.toNat % 2 ^ 32)
    | _ => pure ()

/-! Scrubbers (R422) -/

/-- The allocation that covers a granule of a core store: its generation and its grid (R419). -/
def coverOf (s : State) (core pos : Nat) : Option (Nat × Nat) :=
  s.blocks.findSome? fun (bk, b) => do
    if quadOfCore (coreOfBlk bk) != quadOfCore core then none
    let h ← (s.gridOf b.grid).bind (·.hdr)
    let k := s.core core
    let area := k.places * allocGranules h
    if area ≤ pos && h.qmem != 0 then
      if (pos - area) / shareGranules h = b.slot then
        let c ← clusterOf s core b.grid b.clu
        some (c.gqm, b.grid)
      else none
    else if coreOfBlk bk = core && b.base ≤ pos && pos < b.base + allocGranules h then
      let o := pos - b.base
      let unit := b.base + o / unitGranules h.width * unitGranules h.width
      if o < regGranules h then
        match s.groups.find? (fun e => blkOfGrp e.1 = bk && e.2.units.contains unit) with
        | some e => some (e.2.gens.rw, b.grid)
        | none => if b.pool.contains unit then some (b.gpool, b.grid) else none
      else if o < regGranules h + ctlGranules h then
        (tlook (bk * 64 + (o - regGranules h) / 32) s.groups).map fun g => (g.gens.rw, b.grid)
      else if o < regGranules h + ctlGranules h + lpGranules h + scratchGranules h then some (b.gsp, b.grid)
      else none
    else none

/-- The allocation that covers a granule of a die store. -/
def dieCover (s : State) (die key : Nat) : Option (Nat × Nat) :=
  let qk := key % 2 ^ 40 / 2 ^ 20
  match s.gridOf qk with
  | some g => (tlook die g.dieGens).map fun v => (v, qk)
  | none => none

/-- A dead granule becomes zeros with tag 0; a covered one stays. -/
def scrubKey (die : Bool) (k : Nat) (cover : Option (Nat × Nat)) : Op Unit := do
  let s ← get
  let tag := (s.gran die k).tag
  if tag != 0 && !(cover.any fun c => c.1 = tag) then
    if die then modify fun s => { s with dstore := tdel k s.dstore }
    else modify fun s => { s with
      store := tdel k s.store
      poison := { s.poison with
        store := s.poison.store.filter fun w => w / 2 != k
        tags := s.poison.tags.filter (· != k) } }

/-- SCRUB_GRANULE (R422): the next granule of a core store, or, for `store` 1,408 + d, of the die stores of die d, whose scrubber
passes over what is not listed at once. -/
def execScrubGranule (store : Nat) : State → Host.Outcome State Fault Refusal :=
  onUnit (cores + Config.dies ≤ store) do
    let s ← get
    if store < cores then
      let k := s.core store
      scrubKey false (store * Config.granulesPerCore + k.scrub) (coverOf s store k.scrub)
      let next := (k.scrub + 1) % Config.granulesPerCore
      modCore store fun k => { k with scrub := next, passes := if next = 0 then k.passes + 1 else k.passes }
    else
      let d := store - cores
      let x := s.die d
      match s.dstore.find? (fun e => e.1 / 2 ^ 40 = d && x.scrub ≤ e.1 % 2 ^ 40) with
      | some (key, _) =>
        scrubKey true key (dieCover s d key)
        modDie d fun x => { x with scrub := key % 2 ^ 40 + 1 }
      | none => modDie d fun x => { x with scrub := 0, passes := x.passes + 1 }

end Sys2Proof.Machine
end

