-- ==== Sys2Proof/Machine/Policy.lean ====
section
/-! DEFINITION. Loading of Lantern routines, Mooring ranges and the tenants' partitions (14_dispatch_lanterns.md R391, R394 to R397; 15_isolation.md R409; 17_host_fabric.md R463). -/

namespace Sys2Proof.Machine

/-! A function's registers and its view of addresses -/

/-- A register access of a function takes effect: the package is READY and the function is not in TDISP ERROR (17_host_fabric.md R463, R470). -/
def fnReady (fn : Nat) : Op Unit := do
  let s ← get
  require (s.dev.state = 4 && (fn = pfn || (s.fn fn).tdisp != 3))

/-- The partition that owns the channel of a device address; 64 for the hypervisor's own. -/
def ownerOf (s : State) (g : Nat) : Nat :=
  ((List.range 64).find? fun p => (s.part p).own.chans.contains (channelOf g)).getD 64

/-- The memory behind an address of a function's view: physical for the physical function, virtual for a tenant. -/
def viewMap (fn a : Nat) (write : Bool) : Op (Option VRef) := do
  let s ← get
  if fn = pfn then
    let host := a / 2 ^ 50 = 2
    if (a < devTop) || host then return some ⟨a, ⟨0, 0, 12, 0, 7, 0x200, 0⟩, a, ownerOf s a, host, 0⟩ else return none
  else if spaceOf a != 0 then return none
  else match walkBoth s fn a with
    | .error _ => return none
    | .ok (e, l1, l2) =>
      walkerMarks l1 l2 none
      let fits := e.readable && (!write || e.writable)
      match reach s fn (e.phys a) with
      | .dev pa part => return if fits then some ⟨a, e, pa, part, false, fn⟩ else none
      | .host pa => return if fits then some ⟨a, e, pa, s.partOf fn, true, fn⟩ else none
      | _ => return none

/-- Read `n` bytes of a function's view, four at a time: none where a byte cannot be read. -/
def viewRead (fn : Nat) : Nat → Nat → Op (Option (List Byte))
  | 0, _ => pure (some [])
  | n + 1, a => do
    match ← viewMap fn a false with
    | none => return none
    | some r =>
      let s ← get
      if memBad s r.pa 4 then
        note (.word r.pa 0)
        return none
      else
        let x := if fn = pfn then rdBytes s.mem 4 r.pa else homeRead s r [] 4
        match ← viewRead fn n (a + 4) with
        | none => return none
        | some bs => return some (toBytes 4 x ++ bs)

/-- Write bytes of a function's view at their homes, a sector at a time, with a timestamp that covers every write performed (log 22); whether
all could be written. -/
def viewWrite (fn : Nat) : Nat → List Byte → Nat → Op Bool
  | 0, _, _ => pure true
  | fuel + 1, bs, a => do
    if bs.isEmpty then return true
    else
      match ← viewMap fn a true with
      | none => return false
      | some r =>
        let s ← get
        let n := min bs.length (64 - a % 64)
        if (tenureConflict s r [] n).isSome then return false
        let _ ← homeWrite r n (ofBytes (bs.take n)) (largestClock s)
        viewWrite fn fuel (bs.drop n) (a + n)

/-! Opbel (R394, R395) -/

/-- The image's fields: version 1, point, length, window, base, words; none for BADHDR. -/
structure Image where
  point  : Nat
  winlog : Nat
  win    : Nat
  code   : List W32
deriving DecidableEq, Repr

def imageOf (bs : List Byte) : Option Image :=
  let f (o n : Nat) : Nat := ofBytes ((bs.drop o).take n)
  let n := f 4 2
  if f 0 2 = 0x4D42 && f 2 1 = 1 && 1 ≤ n && n ≤ 256 && f 6 1 ≤ 16 && f 7 1 = 0 && f 12 4 = 0 && bs.length = 16 + 4 * n then
    some ⟨f 3 1, f 6 1, f 8 4, (List.range n).map fun i => BitVec.ofNat 32 (f (16 + 4 * i) 4)⟩
  else none

/-- The loops of a routine, as the addresses of LOOP and of ENDL, and whether they keep the rules of BADLOOP. -/
def loopsOf : Nat → List W32 → List Nat → List (Nat × Nat) × Bool
  | _, [], st => ([], st.isEmpty)
  | i, w :: ws, st => match decodeBeam w with
    | .ok (.beamLoop n) =>
      let r := loopsOf (i + 1) ws (i :: st)
      (r.1, r.2 && n != 0 && decide (st.length < 2))
    | .ok .beamEndl => match st with
      | p :: rest =>
        let r := loopsOf (i + 1) ws rest
        ((p, i) :: r.1, r.2)
      | [] => ((loopsOf (i + 1) ws []).1, false)
    | _ => loopsOf (i + 1) ws st

/-- A branch's offset. -/
def branchOf (w : W32) : Option Nat :=
  match decodeBeam w with
  | .ok (.beamBf _ f) => some f.toNat
  | .ok (.beamJf f) => some f.toNat
  | _ => none

def branchOk (len : Nat) (loops : List (Nat × Nat)) (i : Nat) (w : W32) : Bool :=
  match branchOf w with
  | none => true
  | some f =>
    let t := i + f
    f != 0 && t < len && loops.all fun (p, e) => !(p < t && t ≤ e) || (p < i && i < e)

/-- What a word charges (R388). -/
def costOf : Instr → Nat
  | .beamCtr _ _ _ => 4
  | .beamMrd _ _ _ | .beamMwr _ _ _ => 12
  | _ => 1

/-- The largest charge on arrival at a word, raised. -/
def reachAt (t x : Nat) (d : Tab Nat) : Tab Nat := tset t (max x (tget 0 d t)) d

/-- The largest charges of all paths from a word on (BOUND, R395): on arrival at each word from `stop` on, and at a RET.
A loop is taken at its full count, its last pass left at any of its exits. -/
def charges (code : List W32) (stop : Nat) : Nat → Nat → Tab Nat → Nat → Tab Nat × Nat
  | 0, _, d, best => (d, best)
  | fuel + 1, i, d, best =>
    if stop ≤ i then (d, best)
    else match tlook i d with
      | none => charges code stop fuel (i + 1) d best
      | some x => match decodeBeam (code.getD i 0) with
        | .ok (.beamLoop n) =>
          let e := endlAfter 0 (i + 1) (code.drop (i + 1))
          let (l, b) := charges code e fuel (i + 1) [(i + 1, 0)] 0
          let pass := match tlook e l with
            | some y => y + 1
            | none => 0
          let last := x + 1 + (n.toNat - 1) * pass
          let d := l.foldl (fun d (t, y) => if e < t then reachAt t (last + y) d else d) d
          let d := if thas l e then reachAt (e + 1) (last + pass) d else d
          charges code stop fuel (e + 1) d (if b = 0 then best else max best (last + b))
        | .ok (.beamBf _ f) => charges code stop fuel (i + 1) (reachAt (i + f.toNat) (x + 1) (reachAt (i + 1) (x + 1) d)) best
        | .ok (.beamJf f) => charges code stop fuel (i + 1) (reachAt (i + f.toNat) (x + 1) d) best
        | .ok .beamRet => charges code stop fuel (i + 1) d (max best (x + 1))
        | .ok w => charges code stop fuel (i + 1) (reachAt (i + 1) (x + costOf w) d) best
        | .error _ => (d, best)

def boundOf (code : List W32) : Nat := (charges code code.length 600 0 [(0, 0)] 0).2

/-- The checks on a routine's words, in order: BADOP, BADBRANCH, BADLOOP, NOEND; 0 where all pass. -/
def codeStatus (code : List W32) : Nat :=
  let (loops, ok) := loopsOf 0 code []
  if code.any fun w => (decodeBeam w).toOption.isNone then 2
  else if !(code.zipIdx.all fun (w, i) => branchOk code.length loops i w) then 3
  else if !ok then 4
  else if (decodeBeam (code.getD (code.length - 1) 0)).toOption != some .beamRet then 5
  else 0

/-- Whether a point may be loaded by a function (R396): TICK and MIGRATE by the physical function, the others by a tenant. -/
def pointOk (fn point : Nat) : Bool := point ≤ 5 && ((fn = pfn) == (point = 2 || point = 5))

/-! Mooring ranges (R397) -/

/-- First word and length of a tenant's range under PDMOOR contents. -/
def moorOf (m t : Nat) : Nat × Nat := (bits m 17 0 + t * 2 ^ bits m 23 20, 2 ^ bits m 23 20)
def moorsMeet (a b : Nat × Nat) : Bool := a.1 < b.1 + b.2 && b.1 < a.1 + a.2
/-- Whether the range of one of the tenants `ts` would share a word with another tenant's. -/
def moorClash (m part : Nat → Nat) (ts : List Nat) : Bool :=
  ts.any fun t => (List.range 1024).any fun u => u != t && moorsMeet (moorOf (m (part t)) t) (moorOf (m (part u)) u)
def tenantsOf (s : State) (p : Nat) : List Nat := (List.range 1024).filter fun t => s.partOf t = p

/-- Whether a window is inside what a function may use. -/
def winOk (s : State) (fn win winlog : Nat) : Bool :=
  let (lo, n) := if fn = pfn then (0, 262144) else moorOf (pdMoor s (s.partOf fn)) fn
  win % 2 ^ winlog = 0 && lo ≤ win && win + 2 ^ winlog ≤ lo + n && win + 2 ^ winlog ≤ 262144

/-! Loading -/

def lnUnload (fn point : Nat) : Op Unit :=
  modFn fn fun x => { x with routines := x.routines.filter fun r => r.point != point }

def setLnStat (fn bound point status : Nat) : Op Unit :=
  modFn fn fun x => { x with lnstat := bound * 2 ^ 32 + point % 256 * 256 + status }

/-- A write of LNLOAD (R396): ignored while Opbel runs; ADDR = 0 unloads the point. -/
def lnloadOp (fn : Nat) (v : W64) : Op Unit := do
  fnReady fn
  let x := (← get).fn fn
  require (x.lnstat % 256 != 0xFF)
  if v.toNat / 64 = 0 then lnUnload fn (v.toNat % 8)
  else
    setLnStat fn (x.lnstat / 2 ^ 32) (x.lnstat / 256) 0xFF
    modFn fn fun x => { x with checking := some (v.toNat / 64 * 64) }
def execLnload (fn : Nat) (v : W64) : State → Host.Outcome State Fault Refusal :=
  onUnit (pfn < fn) (lnloadOp fn v)

/-- A write of LNLOAD with ADDR = 0. -/
def execLnloadUnload (fn point : Nat) : State → Host.Outcome State Fault Refusal :=
  onUnit (pfn < fn) do
    fnReady fn
    require (((← get).fn fn).lnstat % 256 != 0xFF)
    lnUnload fn (point % 8)

/-- A measurement register takes a digest (15_isolation.md R428). -/
def extendMeas (i : Nat) (d : List Byte) : Op Unit :=
  modDev fun x =>
    let old := toBytes 32 (x.meas.getD i 0)
    { x with meas := (x.meas ++ List.replicate (8 - x.meas.length) 0).set i (ofBytes (sha256 (old ++ d))) }

/-- The image at an address, as far as it can be read. -/
def readImage (fn a : Nat) : Op (Option (List Byte)) := do
  match ← viewRead fn 4 a with
  | none => return none
  | some h =>
    match ← viewRead fn (min (ofBytes ((h.drop 4).take 2)) 256) (a + 16) with
    | none => return none
    | some b => return some (h ++ b)

/-- Opbel ends (R395, R396): the first failure is reported, or the routine loads. The POINT and BOUND of an image without
them are open (log 13). -/
def execOpbelCheckDone (fn : Nat) : State → Host.Outcome State Fault Refusal :=
  onUnit (pfn < fn) do
    let a ← need ((← get).fn fn).checking
    modFn fn fun x => { x with checking := none }
    match ← readImage fn a with
    | none => setLnStat fn ((← freeValue).toNat % 2 ^ 32) (← freeValue).toNat 1
    | some bs =>
      let point := ((bs.drop 3).headD 0).toNat
      match imageOf bs with
      | none => setLnStat fn ((← freeValue).toNat % 2 ^ 32) point 1
      | some m =>
        let c := codeStatus m.code
        if c != 0 then setLnStat fn ((← freeValue).toNat % 2 ^ 32) point c
        else
          let s ← get
          let b := boundOf m.code
          if !winOk s fn m.win m.winlog then setLnStat fn b point 6
          else if !pointOk fn point then setLnStat fn b point 7
          else
            setLnStat fn b point 0
            let r : Routine := ⟨if fn = pfn then none else some fn, point, m.win, m.winlog, m.code⟩
            modFn fn fun x => { x with routines := x.routines.filter (fun y => y.point != point) ++ [r] }
            if fn = pfn then extendMeas 2 (sha256 bs)

/-! Registers of R397 and R409 -/

/-- Drop the routines of a tenant whose windows are not within its range. -/
def trimRoutines (t : Nat) : Op Unit := do
  let s ← get
  if (s.fn t).routines.isEmpty then pure ()
  else modFn t fun x => { x with routines := x.routines.filter fun r => winOk s t r.win r.winlog }

/-- A write of PDMOOR (R397): taken, or ignored with REJ set. -/
def pdmoorOp (part : Nat) (v : W64) : Op Unit := do
  fnReady pfn
  let s ← get
  let new := v.toNat % 2 ^ 18 + bits v.toNat 23 20 * 2 ^ 20
  let m (p : Nat) : Nat := if p = part then new else pdMoor s p
  let ts := tenantsOf s part
  let off := 0x20000 + 0x40 * part + 0x18
  if moorClash m s.partOf ts || ts.any fun t => 262144 < (moorOf new t).1 + (moorOf new t).2 then
    setReg pfn off (BitVec.ofNat 64 (pdMoor s part ||| 2 ^ 18))
  else
    setReg pfn off (BitVec.ofNat 64 new)
    ts.forM trimRoutines
def execPdmoorWrite (part : Nat) (v : W64) : State → Host.Outcome State Fault Refusal :=
  onUnit (64 ≤ part) (pdmoorOp part v)

/-- A tenant's TDISP state becomes ERROR: the error vector fires and the tenant is killed (17_host_fabric.md R461, R463; 16_recovery.md
R455, R458). The record of the kill names no part of the package (log 27). -/
def tdispFail (t : Nat) : Op Unit := do
  modFn t fun x => { x with tdisp := 3 }
  killTenant t
  let n := (← freeValue).toNat
  let k := (← freeValue).toNat
  writeError { pa := 0, num := n % 2 ^ 16, unit := k % 2 ^ 8, kind := k / 2 ^ 8 % 2 ^ 8, tenant := t, action := 2, parts := 2 ^ (← get).partOf t }

/-- A register of a locked tenant is written (17_host_fabric.md R463). -/
def lockedWrite (t : Nat) : Op Unit := do
  let x := ((← get).fn t).tdisp
  if x = 1 || x = 2 then tdispFail t

/-- A write of TDPART (R409): PART is ignored while the tenant has an active grid, and where ranges would meet. A tenant
that leaves a partition is no longer its current tenant (R381). -/
def tdpartOp (tenant : Nat) (v : W64) : Op Unit := do
  fnReady pfn
  let s ← get
  let want := v.toNat % 64
  let busy := (queuesOf s tenant).any fun e => e.2.active.isSome
  let keep := busy || moorClash (pdMoor s) (fun t => if t = tenant then want else s.partOf t) [tenant]
  let part := if keep then s.partOf tenant else want
  let old := s.partOf tenant
  setReg pfn (tdOff tenant 0) (BitVec.ofNat 64 (part + b2n (v.getLsbD 31) * 2 ^ 31))
  if part != old then modPart old fun x => { x with tenant := x.tenant.filter (· != tenant) }
  lockedWrite tenant
def execTdpartWrite (tenant : Nat) (v : W64) : State → Host.Outcome State Fault Refusal :=
  onUnit (1024 ≤ tenant) (tdpartOp tenant v)

/-- The hypervisor reads or writes a word of Mooring (R391); a read of an uncorrectable word rewrites it as 0 (16_recovery.md R457). -/
def mooringOp (word : Nat) (w : Option W32) : Op Unit := do
  fnReady pfn
  let s ← get
  let lift := { s.poison with moor := s.poison.moor.filter (· != word) }
  match w with
  | some x => set { s with mooring := tput 0 s.mooring word x, poison := lift }
  | none =>
    if s.poison.moor.contains word then
      set { s with mooring := tput 0 s.mooring word 0, poison := lift }
      note (.whole ⟨0, 0, 4, 1, 0xFFFF, 0, 0⟩)
      let x ← freeValue
      modify fun s => { s with out := toBytes 4 x.toNat :: s.out }
    else set { s with out := toBytes 4 (tget 0 s.mooring word).toNat :: s.out }
def execHvMooringAccess (word : Nat) (w : Option W32) : State → Host.Outcome State Fault Refusal :=
  onUnit (262144 ≤ word) (mooringOp word w)

end Sys2Proof.Machine
end

