-- ==== Sys2Proof/Machine/Partition.lean ====
section
/-! DEFINITION. Partitions: commits, their application at quiescence, the pool, the zeroing of channels, feature masks (15_isolation.md R404 to R408, R431). -/

namespace Sys2Proof.Machine

/-! The staged sets (R405) -/

def partOff (p k : Nat) : Nat := 0x60000 + 0x200 * p + k

/-- The numbers whose bits are set in consecutive registers of the physical function. -/
def setOf (s : State) (off words : Nat) : List Nat :=
  (List.range words).flatMap fun j =>
    let w := s.reg pfn (off + 8 * j)
    ((List.range 64).filter fun i => w.getLsbD i).map (64 * j + ·)

def stagedOf (s : State) (p : Nat) : Own :=
  { quads := setOf s (partOff p 0) 6, l2 := setOf s (partOff p 0x30) 4, homes := setOf s (partOff p 0x50) 4
    chans := setOf s (partOff p 0x70) 6, engs := setOf s (partOff p 0xA0) 3 }

/-- The 512 bytes of a partition's registers as they read (R405). -/
def partImage (s : State) (p : Nat) : List Byte :=
  (List.range 64).flatMap fun j =>
    toBytes 8 (if j = 25 then (s.part p).stat else if j < 28 then (s.reg pfn (partOff p (8 * j))).toNat else 0)

def addedIn (old new : List Nat) : List Nat := new.filter fun x => !old.contains x
def Own.added (o n : Own) : Own :=
  { quads := addedIn o.quads n.quads, l2 := addedIn o.l2 n.l2, homes := addedIn o.homes n.homes
    chans := addedIn o.chans n.chans, engs := addedIn o.engs n.engs }
def Own.meets (a b : Own) : Bool :=
  a.quads.any b.quads.contains || a.l2.any b.l2.contains || a.homes.any b.homes.contains ||
  a.chans.any b.chans.contains || a.engs.any b.engs.contains

/-- Step 1 of R406: another partition owns an added resource; channels out of service have no owner and cannot be taken
(17_host_fabric.md R470). -/
def taken (s : State) (p : Nat) (n : Own) : Bool :=
  let a := (s.part p).own.added n
  a.chans.any s.dev.badChans.contains || s.parts.any fun (q, x) => q != p && a.meets x.own

/-- Step 2: a removed home slice holds an open tile entry of one of the partition's tenants. -/
def tilesOpen (s : State) (p : Nat) (n : Own) : Bool :=
  (s.part p).own.homes.any fun h => !n.homes.contains h &&
    (s.home h).entries.any fun e => s.partOf e.2.tenant = p

def quadBusy (s : State) (q : Nat) : Bool := s.blocks.any fun e => quadOfCore (coreOfBlk e.1) = q

/-- No grid of the partition's tenants is RUNNING or DRAINING (R406). -/
def quiescent (s : State) (p : Nat) : Bool :=
  (gridsOf s p).all fun (_, g) => g.state != .running && g.state != .draining

/-- The tenants of a partition that are locked (17_host_fabric.md R463) become ERROR. -/
def lockedTenants (p : Nat) : Op Unit := do
  let s ← get
  s.fns.forM fun (t, x) => if t < 1024 && s.partOf t = p && (x.tdisp = 1 || x.tdisp = 2) then tdispFail t else pure ()

/-- Every change of a commit has taken effect (R406 step 5): MEAS3 takes the digest of the registers (R428). -/
def commitDone (p : Nat) : Op Unit := do
  let s ← get
  let x := s.part p
  if x.stat = 1 && x.pending.isNone && x.leaving.isEmpty && !(s.dev.poolPending && usePool s p) then
    modPart p fun x => { x with stat := 0 }
    extendMeas 3 (sha256 (partImage (← get) p))

/-- Steps 1 to 4 of R406 for a COMMIT that is processed now: added quads and idle removed quads at once, the other
removed quads as their blocks end, every other change at quiescence. -/
def commitNow (p : Nat) : Op Unit := do
  modPart p fun x => { x with held := false }
  let s ← get
  let x := s.part p
  let n := stagedOf s p
  if taken s p n then modPart p fun x => { x with stat := 2 }
  else if tilesOpen s p n then modPart p fun x => { x with stat := 3 }
  else
    let stay := x.own.quads.filter fun q => !n.quads.contains q && quadBusy s q
    let rest : Own := { n with quads := (List.range 352).filter fun q => n.quads.contains q || stay.contains q }
    let wait := !({ rest with quads := [] } == { x.own with quads := [] })
    modPart p fun x => { x with
      stat := 1
      own := { x.own with quads := rest.quads }
      leaving := stay
      shrinkAt := if stay.isEmpty then none else some (s.cycle + pdShrink s p)
      pending := if wait then some n else none }
    if rest.quads != x.own.quads then lockedTenants p
    commitDone p

/-- COMMIT (R406): held while the last commit is pending or the switch sequencer runs. -/
def commitOp (p : Nat) : Op Unit := do
  let x := (← get).part p
  if x.stat = 1 || x.switchTill.isSome then modPart p fun x => { x with held := true }
  else commitNow p

def execCommit (part : Nat) : State → Host.Outcome State Fault Refusal :=
  onUnit (64 ≤ part) do
    fnReady pfn
    commitOp part

/-! Application (R406 step 4, R407) -/

/-- Write back and drop the lines of a partition's L2 slices and of home slices. -/
def dropLines (chans homes : List Nat) : Op Unit := do
  let s ← get
  s.l2.forM fun (k, _) =>
    let sec := k % 2 ^ 46
    if chans.contains (channelOf (64 * sec)) then evict (.l2 (k / 2 ^ 46)) sec else pure ()
  s.sects.forM fun (sec, x) => if homes.contains x.home then dropHome sec else pure ()

/-- The pool takes its staged words. -/
def poolNow : Op Unit := do
  let s ← get
  let ps := (List.range 64).filter (usePool s)
  ps.forM fun p => dropLines (s.part p).own.chans (s.part p).own.homes
  dropLines [] s.dev.poolHomes
  modDev fun d => { d with
    poolL2 := setOf s (0x5F000) 4
    poolHomes := setOf s (0x5F020) 4
    poolPending := false }
  ps.forM commitDone

/-- At quiescence the pending change is applied in one step; die stores of SAVED grids stay in their save regions. -/
def execCommitApply (part : Nat) : State → Host.Outcome State Fault Refusal :=
  onUnit (64 ≤ part) do
    let s ← get
    let x := s.part part
    let idle (p : Nat) : Bool := quiescent s p && (s.part p).switchTill.isNone
    let pool := s.dev.poolPending && usePool s part && ((List.range 64).all fun p => !usePool s p || idle p)
    require (idle part && (pool || x.pending.isSome))
    match x.pending with
    | some n =>
      dropLines x.own.chans x.own.homes
      (gridsOf s part).forM fun (qk, g) => if g.state = .saved then do
          g.dieGens.forM fun (d, v) => endDieGen d v
          modGrid qk fun g => { g with dieGens := [] }
        else pure ()
      modPart part fun x => { x with
        own := { n with quads := x.own.quads }
        zeroing := x.zeroing.filter n.chans.contains ++ addedIn x.own.chans n.chans
        pending := none }
      lockedTenants part
    | none => pure ()
    if pool then poolNow
    commitDone part

/-- A channel's bytes are zero and no copy of its lines is left (R407); the accesses that wait proceed. -/
def Core.cleared (f : Nat → Bool) (k : Core) : Core :=
  { k with copies := k.copies.filter (fun c => !f c.1), ibuf := k.ibuf.map fun (i, l) => (i, if f (l.pa / 64) then { l with stale := true } else l) }
def Quad.cleared (f : Nat → Bool) (k : Quad) : Quad := { k with copies := k.copies.filter fun c => !f c.1 }
def zeroChannel (channel : Nat) : Op Unit := do
  let inSec (sec : Nat) : Bool := 64 * sec < devTop && channelOf (64 * sec) = channel
  modify fun s => { s with
    mem := s.mem.filter fun c => !inSec (c.1 / 64)
    poison := { s.poison with mem := s.poison.mem.filter fun w => !inSec (w / 2) }
    cores := s.cores.map fun (i, k) => (i, k.cleared inSec)
    quads := s.quads.map fun (i, k) => (i, k.cleared inSec)
    l2 := s.l2.filter fun c => !inSec (c.1 % 2 ^ 46)
    writers := s.writers.filter fun c => !inSec c.1 }
  (← get).sects.forM fun (sec, _) => if inSec sec then dropHome sec else pure ()

def execChannelZeroingDone (channel : Nat) : State → Host.Outcome State Fault Refusal :=
  onUnit (Config.channels ≤ channel) do
    let s ← get
    let (p, _) ← need (s.parts.find? fun e => e.2.zeroing.contains channel)
    zeroChannel channel
    modPart p fun x => { x with zeroing := x.zeroing.filter (· != channel) }
    homeEvent

/-! The pool (R405) -/

/-- A write of a pool word: words 0 to 3 L2 slices, 4 to 7 home slices. It follows the rules of a commit for every
partition whose USEPOOL is 1. -/
def poolOp (word : Nat) (v : W64) : Op Unit := do
  fnReady pfn
  setReg pfn (0x5F000 + 8 * word) v
  let s ← get
  let users := (List.range 64).filter (usePool s)
  let l2 := addedIn s.dev.poolL2 (setOf s 0x5F000 4)
  let homes := addedIn s.dev.poolHomes (setOf s 0x5F020 4)
  if s.parts.any fun (_, x) => l2.any x.own.l2.contains || homes.any x.own.homes.contains then
    users.forM fun p => modPart p fun x => { x with stat := 2 }
  else if users.isEmpty then poolNow
  else
    modDev fun d => { d with poolPending := true }
    users.forM fun p => modPart p fun x => { x with stat := 1 }
def execPoolChange (word : Nat) (v : W64) : State → Host.Outcome State Fault Refusal :=
  onUnit (8 ≤ word) (poolOp word v)

/-! Feature masks (R431) -/

/-- A written FEAT or REVEAL takes effect once the partition has no RUNNING grid. -/
def execFeatureMaskApply (part : Nat) : State → Host.Outcome State Fault Refusal :=
  onUnit (64 ≤ part) do
    let s ← get
    require ((s.part part).featPending && (s.part part).switchTill.isNone &&
      (gridsOf s part).all fun (_, g) => g.state != .running)
    applyFeat part

end Sys2Proof.Machine
end

