-- ==== Sys2Proof/Machine/Answers.lean ====
section
/-! DEFINITION. Invalidations, answers to faults and to page requests, and room in a fault queue (15_isolation.md R409, R417, R418; 17_host_fabric.md R462). -/

namespace Sys2Proof.Machine

/-! Invalidations -/

/-- The log2 of the size that a SIZE code names; 15 names everything, other codes are ignored (R409). -/
def invSize (code : Nat) : Option Nat :=
  match code with
  | 0 => some 12
  | 1 => some 16
  | 2 => some 21
  | 3 => some 30
  | 15 => some 64
  | _ => none

/-- Queue an invalidation of a tenant at a function; the 65th is dropped with LOST. -/
def queueInv (fn tenant : Nat) (v : W64) : Op Unit := do
  let code := bits v.toNat 11 8
  require (invSize code).isSome
  let x := (← get).fn fn
  if (x.invals.filter fun i => i.1 = tenant).length < 64 then
    modFn fn fun x => { x with invals := x.invals ++ [(tenant, v.toNat / 4096, code)] }
  else modFn tenant fun x => if fn = pfn then { x with inv2Lost := true } else { x with invLost := true }

/-- A write of TDS2INV (R409). -/
def execTds2inv (tenant : Nat) (v : W64) : State → Host.Outcome State Fault Refusal :=
  onUnit (1024 ≤ tenant) do
    fnReady pfn
    queueInv pfn tenant v

/-- A write of TLBINV (R417). -/
def execTlbinv (tenant : Nat) (v : W64) : State → Host.Outcome State Fault Refusal :=
  onUnit (1024 ≤ tenant) do
    fnReady tenant
    queueInv tenant tenant v

/-- Whether an entry matches an invalidation: by its virtual page, or at stage 2 by its guest-physical page. -/
def Tlb.matches (s2 : Bool) (t page code : Nat) (e : Tlb) : Bool :=
  let k := (invSize code).getD 12
  let a := if s2 then e.gpa else e.vpn * 2 ^ e.log2
  let lo := page * 4096 / 2 ^ k * 2 ^ k
  e.tenant = t && (code = 15 || (a < lo + 2 ^ k && lo < a + 2 ^ e.log2))

/-- Whether an access is outstanding that was translated through an entry of its core that is to go; one whose group
sleeps on a fault has no translation. -/
def accessThrough (s : State) (f : Tlb → Bool) : Bool :=
  s.groups.any fun (gk, g) =>
    let es := (s.core (coreOfGrp gk)).tlb.filter f
    !es.isEmpty && g.performs && g.pend.any fun p => p.spans.any fun x => spaceOf x.addr = 0 &&
      es.any fun e => e.vpn * 2 ^ e.log2 < x.addr + x.len && x.addr < (e.vpn + 1) * 2 ^ e.log2

/-- The oldest invalidation of a function completes (R417). -/
def execInvalidationComplete (fn : Nat) : State → Host.Outcome State Fault Refusal :=
  onUnit (pfn < fn) do
    let s ← get
    let (t, page, code) ← need (s.fn fn).invals.head?
    let f := Tlb.matches (fn = pfn) t page code
    require (!accessThrough s f)
    forgetTlb f
    modFn fn fun x => { x with invals := x.invals.tail }

/-! Answers (R418) -/

/-- The agents that wait on a fault go on: their walks are repeated, or, with FAIL, meet condition 4 of R269. -/
def Job.answered (fn id : Nat) (ok : Bool) (j : Job) : Job :=
  match j.waits with
  | some (f, i, page) => if f = fn && i = id then
      { j with waits := none, failed := if ok then j.failed else j.failed ++ [page] } else j
  | none => j
def Queue.answered (fn id : Nat) (ok : Bool) (q : Queue) : Queue :=
  match q.waits with
  | some (f, i, page) => if f = fn && i = id then
      { q with waits := none, failed := if ok then q.failed else q.failed ++ [page] } else q
  | none => q
def Die.answered (fn id : Nat) (ok : Bool) (d : Die) : Die :=
  { d with jobs := d.jobs.map fun (k, j) => (k, j.answered fn id ok) }
/-- The pages that words and contributions of a group at the matrix units wait for on a fault. -/
def stuckPages (s : State) (fn id gk : Nat) : List Nat :=
  (((s.core (coreOfGrp gk)).mx.filter fun w => w.gk = gk).map (·.stuck) ++
    (s.contribs.filter fun c => c.2.gk = gk).map (·.2.stuck)).filterMap fun x => match x with
      | some (f, i, page) => if f = fn && i = id then some page else none
      | none => none
def answerAll (fn id : Nat) (ok : Bool) : Op Unit := do
  modify fun s => { s with
    dies := s.dies.map fun (k, d) => (k, d.answered fn id ok)
    queues := s.queues.map fun (k, q) => (k, q.answered fn id ok) }
  let s ← get
  unstick fun x => x.1 = fn && x.2.1 = id
  s.groups.forM fun (gk, g) => do
    let pages := stuckPages s fn id gk
    if !ok && !pages.isEmpty then modGroup gk fun g => { g with failed := g.failed ++ pages }
    match g.asleep with
    | some ⟨.fault f i page, _⟩ =>
      if f = fn && i = id then
        if !ok then modGroup gk fun g => { g with failed := g.failed ++ [page] }
        wake gk 7
    | _ => pure ()

def answerFault (fn id : Nat) (ok : Bool) : Op Unit := do
  fnReady fn
  let x := (← get).fn fn
  require (x.faults.any fun f => f.id = id)
  modFn fn fun x => { x with faults := x.faults.filter fun f => f.id != id }
  answerAll fn id ok

/-- FQRESP with FAIL = 0. -/
def execFqrespResolve (fn id : Nat) : State → Host.Outcome State Fault Refusal :=
  onUnit (pfn < fn) (answerFault fn id true)
/-- FQRESP with FAIL = 1. -/
def execFqrespFail (fn id : Nat) : State → Host.Outcome State Fault Refusal :=
  onUnit (pfn < fn) (answerFault fn id false)

/-- Records that wait for room in a fault queue are written while there is room. -/
def drainFaults (fn : Nat) : Nat → Op Unit
  | 0 => pure ()
  | n + 1 => do
    let s ← get
    match (s.fn fn).fqWait with
    | [] => pure ()
    | (f, addr, place) :: rest =>
      if fqFull s fn then pure ()
      else
        modFn fn fun x => { x with fqWait := rest }
        writeFault fn f addr place
        drainFaults fn n

/-- FQCTL of a function is written: HEAD and LOG2N. -/
def setFqctl (fn : Nat) (v : W64) : Op Unit := do
  setReg fn 0xD020 v 4
  drainFaults fn ((← get).fn fn).fqWait.length

/-- A write of FQCTL.HEAD (R417, R418). -/
def execFqctlHeadWrite (fn head : Nat) : State → Host.Outcome State Fault Refusal :=
  onUnit (pfn < fn) do
    fnReady fn
    let old := ((← get).reg fn 0xD020 4).toNat
    setFqctl fn (BitVec.ofNat 64 (old % 32 + head % 2 ^ 32 * 2 ^ 32))

/-! The host's pages (17_host_fabric.md R462) -/

/-- An ATS invalidation drops the translations of `size` host pages: they are absent until a page request is answered
(log 28). The accesses performed in earlier steps used them. -/
def execAtsInvalidation (page size : Nat) : State → Host.Outcome State Fault Refusal :=
  runOp do
    modDev fun d => { d with absent := (d.absent ++ (List.range size).map (page + ·)).eraseDups }

/-- A PRI response. -/
def execPriResponse (id : Nat) (ok : Bool) : State → Host.Outcome State Fault Refusal :=
  runOp do
    let x ← need ((← get).dev.pri.find? fun x => x.1 = id)
    modDev fun d => { d with
      pri := d.pri.filter fun y => y.1 != id
      absent := if ok then d.absent.filter (· != x.2) else d.absent }
    answerAll hostFn id ok

end Sys2Proof.Machine
end

