-- ==== Sys2Proof/Machine/Firmware.lean ====
section
/-! DEFINITION. The mailbox of the trusted firmware (15_isolation.md R428 to R430) and the debug port (17_host_fabric.md R473; 15_isolation.md R423; 13_control_sync_ops.md R361). -/

namespace Sys2Proof.Machine

/-! Requests (R429) -/

/-- The mailbox answers in READY, and for the physical function in HALTED (17_host_fabric.md R470). -/
def mailReady (fn : Nat) : Op Unit := do
  let s ← get
  require ((s.dev.state = 4 && (fn = pfn || (s.fn fn).tdisp != 3)) || (s.dev.state = 7 && fn = pfn))

def mailBusy (s : State) (fn : Nat) : Bool := s.dev.mail.any fun x => x.1 = fn
def setSm (fn st : Nat) : Op Unit := modFn fn fun x => { x with smStat := st }

/-- A write of SMCMD: ignored while the function's request is served; an operation that it has not gives BADOP. -/
def postMail (fn : Nat) (v : W64) : Op Unit := do
  mailReady fn
  require (!mailBusy (← get) fn)
  let op := v.toNat % 16
  if op = 1 || op = 2 || ((op = 3 || op = 4) && fn = pfn) then
    modDev fun d => { d with mail := d.mail ++ [(fn, op, v.toNat / 64 * 64)] }
  else setSm fn 2

/-- A request's turn: the oldest posted one is served; where none is posted, the request arrives now. -/
def takeMail (fn op buf : Nat) : Op Unit := do
  let s ← get
  match s.dev.mail with
  | [] =>
    mailReady fn
    if 3 ≤ op && fn != pfn then
      setSm fn 2
      finish
  | x :: _ =>
    require (x == (fn, op, buf))
    modDev fun d => { d with mail := d.mail.tail }

/-- A buffer that the function's view does not reach. -/
def denied {α : Type} (fn : Nat) : Op α := do
  setSm fn 3
  finish
def bufRead (fn n a : Nat) : Op (List Byte) := do
  match ← viewRead fn (n / 4) a with
  | some bs => return bs
  | none => denied fn
def bufWrite (fn : Nat) (bs : List Byte) (a : Nat) : Op Unit := do
  (List.range ((bs.length + 63) / 64)).forM fun i => do
    if (← viewMap fn (a + 64 * i) true).isNone then denied fn
  let _ ← viewWrite fn 200 bs a
  setSm fn 0

/-- A signature is 7,856 bytes; the spec does not state them (log 13). -/
def signature : Op (List Byte) := do return (← freeWords 982).flatMap (toBytes 8)
def identity : List Byte := toBytes 32 Config.identityDigest

/-- The next package sequence number. -/
def nextSeq : Op Nat := do
  modDev fun d => { d with seq := d.seq + 1 }
  return (← get).dev.seq

/-- ATTEST (R429): a report of 8,240 bytes. -/
def execAttest (fn buf : Nat) : State → Host.Outcome State Fault Refusal :=
  onUnit (pfn < fn) do
    takeMail fn 1 buf
    let nonce ← bufRead fn 32 buf
    let n ← nextSeq
    let s ← get
    let d := s.dev
    let who := if fn = pfn then 0 else s.partOf fn + (s.fn fn).tdisp * 256
    let head := toBytes 4 0x4E5A4154 ++ toBytes 2 1 ++ toBytes 2 (if fn = pfn then 0 else fn + 1) ++ toBytes 8 n ++
      toBytes 4 d.stepping ++ toBytes 2 d.bootVer ++ toBytes 2 d.svcVer ++ identity ++
      (List.range 8).flatMap (fun i => toBytes 32 (d.meas.getD i 0)) ++ nonce ++ toBytes 8 who ++ List.replicate 32 0
    let sig ← signature
    bufWrite fn (head ++ sig) buf

/-- COUNTERS (R430): a snapshot of 8,016 bytes. -/
def execCounters (fn buf : Nat) : State → Host.Outcome State Fault Refusal :=
  onUnit (pfn < fn) do
    takeMail fn 2 buf
    let nonce ← bufRead fn 32 buf
    let t ← (if fn = pfn then do return ofBytes ((← bufRead fn 4 (buf + 32)).take 2) else pure fn)
    if 1024 ≤ t then
      setSm fn ((← freeValue).toNat % 256)
      finish
    let n ← nextSeq
    let s ← get
    let u := s.use t
    let head := toBytes 4 0x4E534355 ++ toBytes 2 1 ++ toBytes 2 t ++ toBytes 8 n ++ toBytes 8 (s.cycle / 1024) ++ identity ++
      [u.qcyc, u.energy, u.clear, u.issued, u.hbmb, u.mergeconf, u.overrun, u.epoch, 0].flatMap (toBytes 8) ++ nonce
    let sig ← signature
    bufWrite fn (head ++ sig) buf

/-- CLEAR (R429), of the physical function only: the counters of the tenant named at BUF + 32. -/
def execClear (fn buf : Nat) : State → Host.Outcome State Fault Refusal :=
  onUnit (pfn < fn) do
    takeMail fn 3 buf
    let t := ofBytes ((← bufRead fn 4 (buf + 32)).take 2)
    if 1024 ≤ t then
      setSm fn ((← freeValue).toNat % 256)
      finish
    modUse t fun u => { u with
      qcyc := 0
      energy := 0
      clear := 0
      issued := 0
      hbmb := 0
      mergeconf := 0
      overrun := 0
      epoch := u.epoch + 1 }
    setSm fn 0

/-- EXTEND (R428, R429), of the physical function only: MEAS4 to MEAS7 take a digest. The digest lies at BUF and the
register number at BUF + 32 (log 29). -/
def execExtend (fn buf : Nat) : State → Host.Outcome State Fault Refusal :=
  onUnit (pfn < fn) do
    takeMail fn 4 buf
    let d ← bufRead fn 32 buf
    let i := ofBytes ((← bufRead fn 4 (buf + 32)).take 1)
    if 4 ≤ i && i ≤ 7 then
      extendMeas i d
      setSm fn 0
    else setSm fn ((← freeValue).toNat % 256)

/-! The debug port (17_host_fabric.md R473) -/

/-- A granule that the port selects: one of a core store, a control area's granule of a group, one of a die store, or none. -/
inductive DbgAt
  | store (k : Nat)
  | ctl (gk i : Nat)
  | die (k : Nat)
  | none
deriving DecidableEq, Repr

/-- The group and granule of a control area at a place of a core store. -/
def ctlAt (s : State) (core pos : Nat) : Option (Nat × Nat) :=
  s.blocks.findSome? fun (bk, b) => do
    if coreOfBlk bk != core then .none
    let h ← (s.gridOf b.grid).bind (·.hdr)
    let o := pos - b.base
    if b.base ≤ pos && regGranules h ≤ o && o < regGranules h + ctlGranules h then
      let gk := bk * 64 + (o - regGranules h) / 32
      if thas s.groups gk then some (gk, (o - regGranules h) % 32) else .none
    else .none

/-- The die stores carved on a die in the order of their queue keys: queue key and granules. -/
def carved (s : State) (d : Nat) : List (Nat × Nat) :=
  s.queues.filterMap fun (qk, q) => match q.active with
    | some g => match g.hdr with
      | some h => if thas g.dieGens d && h.dstore != 0 then some (qk, h.dstore * 2 ^ 17) else .none
      | .none => .none
    | .none => .none
def carvedAt : List (Nat × Nat) → Nat → Option (Nat × Nat)
  | [], _ => .none
  | (qk, n) :: xs, p => if p < n then some (qk, p) else carvedAt xs (p - n)

/-- The granule selected by DBGSEL, and the allocation that covers it: its generation and grid. -/
def dbgAt (s : State) (sel : Nat) : DbgAt × Option (Nat × Nat) :=
  let gran := sel % 2 ^ 16
  if bitOf sel 63 then
    let slice := bits sel 35 28
    match carvedAt (carved s (slice / Config.slicesPerDie)) (Config.carvePos slice gran) with
    | some (qk, p) =>
      let k := slice / Config.slicesPerDie * 2 ^ 40 + qk * 2 ^ 20 + p
      (.die k, dieCover s (slice / Config.slicesPerDie) k)
    | .none => (.none, .none)
  else
    let core := bits sel 38 28
    if cores ≤ core || Config.granulesPerCore ≤ gran then (.none, .none)
    else match ctlAt s core gran with
      | some (gk, i) => (.ctl gk i, coverOf s core gran)
      | .none => (.store (core * Config.granulesPerCore + gran), coverOf s core gran)

/-- The granule as it is. -/
def dbgGranule (s : State) : DbgAt → Granule
  | .store k => tget Granule.clean s.store k
  | .die k => tget Granule.clean s.dstore k
  | .ctl gk i => match tlook gk s.groups with
    | some g => ⟨g.gens.rw, granuleOf ((List.range 8).map fun j => (tget 0 g.ctl (8 * i + j)).toNat)⟩
    | .none => Granule.clean
  | .none => Granule.clean

/-- Whether the covering allocation is one that the function may reach. -/
def dbgOwn (fn : Nat) (cover : Option (Nat × Nat)) : Bool :=
  match cover with
  | some c => fn = pfn || tenantOf c.2 = fn
  | .none => false

def dbgTag (fn tag : Nat) (own : Bool) : Op Unit := setReg fn 0xC010 (BitVec.ofNat 64 (tag + b2n own * 2 ^ 12))
def dbgData (s : State) (fn : Nat) : Nat :=
  (List.range 8).foldl (fun (n : Nat) i => n + (s.reg fn (0xC040 + 8 * i)).toNat * 2 ^ (64 * i)) 0

/-- A read (R423): the granule as it is for the physical function; for a tenant nothing outside its grids, and zeros with the
tag for a stale granule. -/
def dbgRead (fn : Nat) : Op Unit := do
  fnReady fn
  let s ← get
  let (at', cover) := dbgAt s (s.reg fn 0xC000).toNat
  let own := dbgOwn fn cover
  let x := dbgGranule s at'
  let fresh := cover.any fun c => c.1 = x.tag
  let seen := fn = pfn || own
  let data := if fn = pfn || (own && fresh) then x.data else 0
  (List.range 8).forM fun i => setReg fn (0xC040 + 8 * i) (data.extractLsb' (64 * i) 64)
  dbgTag fn (if seen then x.tag else 0) own

/-- A write (R421, R423): of the whole granule, under the generation of DBGSEL for the physical function, under that of
the covering allocation for a tenant. -/
def dbgWrite (fn : Nat) : Op Unit := do
  fnReady fn
  let s ← get
  let sel := (s.reg fn 0xC000).toNat
  let (at', cover) := dbgAt s sel
  let own := dbgOwn fn cover
  let gen := if fn = pfn then bits sel 27 16 else (cover.map (·.1)).getD 0
  let x : Granule := ⟨gen, BitVec.ofNat 512 (dbgData s fn)⟩
  if fn = pfn || own then
    match at' with
    | .store k => modify fun s => { s with store := tput Granule.clean s.store k x, poison := s.poison.stamp k }
    | .die k => modify fun s => { s with dstore := tput Granule.clean s.dstore k x }
    | .ctl gk i => modGroup gk fun g => { g with ctl := putWords g.ctl (8 * i) ((List.range 8).map fun j => (x.data.extractLsb' (64 * j) 64).toNat) }
    | .none => pure ()
  dbgTag fn ((s.reg fn 0xC010).toNat % 4096) own

/-- DBGCMD of 1. -/
def execDebugRead (fn : Nat) : State → Host.Outcome State Fault Refusal := onUnit (pfn < fn) (dbgRead fn)
/-- DBGCMD of 2. -/
def execDebugWrite (fn : Nat) : State → Host.Outcome State Fault Refusal := onUnit (pfn < fn) (dbgWrite fn)

/-- The debugger releases a group that BKPT has stopped: the BKPT completes as a NOP when it issues again (13_control_sync_ops.md R361). Of a
group that sleeps on anything else it is a debug request, which ends the sleep (12_groups_progress.md R339; log 88). -/
def execDebugRelease (gk : Nat) : State → Host.Outcome State Fault Refusal :=
  runOp do
    let g ← groupAt gk
    match g.asleep with
    | some ⟨.debug, _⟩ =>
      modGroup gk fun g => { g with released := true }
      wake gk 10
    | _ => endSleep gk 10

end Sys2Proof.Machine
end

