-- ==== Sys2Proof/Machine/Package.lean ====
section
/-! DEFINITION. Resets, bring-up, power, cooling, the link and errors without a requester (17_host_fabric.md R463, R464, R468 to R472; 16_recovery.md R455 to R458). -/

namespace Sys2Proof.Machine

/-! Resets (R468) -/

/-- A change of DEVSTAT.STATE, with its vector (17_host_fabric.md R461). -/
def setDevState (st err : Nat) : Op Unit := do
  let d := (← get).dev
  modDev fun d => { d with state := st, err := err }
  if d.state != st then fire pfn 2

/-- What a reset leaves: the values of `State.reset`; the security core's SEQ and the fused minimum versions, the package's
number and stepping; memory and pages of the host, the messages that left; the model's own fields. -/
def State.afterReset (s : State) (cycle start : Nat) : State :=
  { State.reset with
    agenda := s.agenda
    freeCtr := s.freeCtr
    cycle := cycle
    mem := s.mem.filter fun c => 2 ^ 51 ≤ c.1
    irqs := s.irqs
    out := s.out
    dev := {
      stepping := s.dev.stepping
      pkg := s.dev.pkg
      seq := s.dev.seq
      fused := s.dev.fused
      absent := s.dev.absent
      start := start
      base := start
      resetAt := cycle
      ticks := cycle / 1024
      floors := cycle / 4096 } }

/-- DEVCTL.CLKSTART, which the next reset uses (R253, R470). -/
def State.clkStart (s : State) : Nat := (s.reg pfn 0xB008 (BitVec.ofNat 64 (4400 * 2 ^ 32))).toNat % 2 ^ 16

/-- Power is applied: the time of R430 restarts. The start time has its default, since power was off. -/
def execColdReset : State → Host.Outcome State Fault Refusal := runOp (modify fun s => s.afterReset 0 0)
/-- PERST#: as cold, but the time keeps counting. -/
def execWarmReset : State → Host.Outcome State Fault Refusal := runOp (modify fun s => s.afterReset s.cycle s.clkStart)
def packageResetOp : Op Unit := modify fun s => s.afterReset s.cycle s.clkStart
/-- DEVCTL.PKGRST, or an FLR of the physical function: as warm; the link stays trained. -/
def execPackageReset : State → Host.Outcome State Fault Refusal := runOp packageResetOp

/-! The reset of a virtual function (R469) -/

/-- Retire one queue's grids now, each with its completion record where that can be written. -/
def drainQueue (qk : Nat) : Nat → Op Unit
  | 0 => pure ()
  | n + 1 => do
    modQueue qk fun q => { q with waits := none }
    match (← get).gridOf qk with
    | none => pure ()
    | some g =>
      quietly (retireGrid qk)
      match (← get).gridOf qk with
      | some g' =>
        if g'.record.seq = g.record.seq then
          clearGrid qk g true
          popGrid qk g.record.seq statusAborted
      | none => pure ()
      drainQueue qk n

/-- At reset values of a tenant's queue registers (R370). -/
def resetQueues (t : Nat) : Op Unit := do
  modify fun s => { s with regs := s.regs.filter fun e => !(t * 2 ^ 20 + 0x10000 ≤ e.1 && e.1 < t * 2 ^ 20 + 0x11000) }
  (queuesOf (← get) t).forM fun (qk, _) => modQueue qk fun q => { q with
    errLast := 0
    refused := 0
    nextSeq := if q.recs.isEmpty then 0 else q.nextSeq
    done := if q.recs.isEmpty then [] else q.done
    submits := [] }

/-- The reset of a virtual function: its grids retire with Host Abort, its registers and routines return to their reset
values, its Mooring range is zero, its TDISP state is CONFIG_UNLOCKED. -/
def flrNow (t : Nat) : Op Unit := do
  abortTenant t 0x25
  (queuesOf (← get) t).forM fun (qk, q) => drainQueue qk (q.recs.length + 1)
  resetQueues t
  let s ← get
  let (lo, n) := moorOf (pdMoor s (s.partOf t)) t
  modify fun s => { s with
    regs := s.regs.filter fun e => e.1 / 2 ^ 20 != t
    mooring := s.mooring.filter fun e => !(lo ≤ e.1 && e.1 < lo + n)
    poison := { s.poison with moor := s.poison.moor.filter fun w => !(lo ≤ w && w < lo + n) } }
  modFn t fun x => { nextFid := x.nextFid, inv2Lost := x.inv2Lost }
  modDev fun d => { d with mail := d.mail.filter fun m => m.1 != t }

/-- FLR of a virtual function; one of the outgoing tenant waits for the end of the switch sequence (15_isolation.md R426). -/
def execVfFlr (tenant : Nat) : State → Host.Outcome State Fault Refusal :=
  onUnit (1024 ≤ tenant) do
    let s ← get
    require (s.dev.state = 4)
    let x := s.part (s.partOf tenant)
    if x.switchTill.isSome && x.lastTenant = some tenant then modFn tenant fun f => { f with flr := true }
    else flrNow tenant

/-- A virtual function is enabled: its queue registers take their At reset values (R370). -/
def execVfEnable (tenant : Nat) : State → Host.Outcome State Fault Refusal :=
  onUnit (1024 ≤ tenant) do
    require ((← get).dev.state = 4)
    resetQueues tenant

/-! Bring-up (15_isolation.md R428; R470) -/

/-- The boot ROM verifies the trusted firmware, against the fused minimum version. -/
def execBootRomVerify (image : List Byte) (version : Nat) : State → Host.Outcome State Fault Refusal :=
  runOp do
    let d := (← get).dev
    require (d.state = 1 && d.power != 3)
    if !Config.rootSigned image then setDevState 7 1
    else if version < d.fused % 2 ^ 16 then setDevState 7 2
    else
      extendMeas 0 (sha256 image)
      modDev fun d => { d with bootVer := version }
      setDevState 2 0

/-- The trusted firmware measures and verifies the service firmware. -/
def execServiceFirmwareVerify (image : List Byte) (version : Nat) : State → Host.Outcome State Fault Refusal :=
  runOp do
    let d := (← get).dev
    require (d.state = 2 && d.power != 3)
    extendMeas 1 (sha256 image)
    if !Config.trustedSigned image then setDevState 7 1
    else if version < d.fused / 2 ^ 16 then setDevState 7 2
    else
      modDev fun d => { d with svcVer := version }
      setDevState 3 0

/-- Training and the scrub of every store end; the channels of stacks that fail stay out of service. -/
def execServiceBringup (failed : List Nat) : State → Host.Outcome State Fault Refusal :=
  runOp do
    let d := (← get).dev
    require (d.state = 3 && d.power != 3)
    let bad := (List.range 12).filter failed.contains
    modify fun s => { s with store := [], dstore := [] }
    modDev fun d => { d with badChans := bad.flatMap fun k => (List.range 32).map (32 * k + ·) }
    setDevState 4 (if bad.isEmpty then 0 else 3)

/-! Power and cooling (R471, R472) -/

/-- The move to D3hot waits until every partition has drained and every grid is SAVED or retired; until then the running
grids are drained. -/
def execD3hotEntry : State → Host.Outcome State Fault Refusal :=
  runOp do
    let s ← get
    require (s.dev.state = 4 && s.dev.power < 2)
    let gs := s.queues.filterMap fun (qk, q) => q.active.map fun g => (qk, g)
    if gs.all (fun (_, g) => g.state = .saved) && s.blocks.isEmpty then modDev fun d => { d with power := 2 }
    else
      modDev fun d => { d with power := 1 }
      gs.forM fun (qk, _) => drainGrid qk

/-- The return to D0. -/
def execD3hotExit : State → Host.Outcome State Fault Refusal :=
  runOp do
    require ((← get).dev.power = 2)
    modDev fun d => { d with power := 0 }

/-- Power is removed: all state is lost until the next cold reset. -/
def execD3coldEntry : State → Host.Outcome State Fault Refusal :=
  runOp do
    modify fun s => s.afterReset 0 0
    modDev fun d => { d with power := 3 }

/-- The service firmware sets the package cut, 0 to 12. -/
def execPackageCut (cut : Nat) : State → Host.Outcome State Fault Refusal :=
  runOp do
    require ((← get).dev.state = 4 && cut ≤ 12)
    modDev fun d => { d with cut := cut }

/-- At 100 °C the cut rises by 1. -/
def execThermalCutRaise : State → Host.Outcome State Fault Refusal :=
  runOp do
    require ((← get).dev.state = 4)
    modDev fun d => { d with thermal := 1, cut := min (d.cut + 1) 12 }

/-- Below 97 °C it falls by 1 again. -/
def execThermalCutLower : State → Host.Outcome State Fault Refusal :=
  runOp do
    require ((← get).dev.state = 4 && (← get).dev.thermal = 1)
    modDev fun d => { d with thermal := if d.cut ≤ 1 then 0 else 1, cut := d.cut - 1 }

/-- At 115 °C the package halts: every active grid is lost without a completion record. -/
def execThermalHalt : State → Host.Outcome State Fault Refusal :=
  runOp do
    require ((← get).dev.power != 3)
    modify fun s => { s with
      groups := []
      blocks := []
      contribs := []
      rings := []
      accs := []
      quads := s.quads.map fun (q, x) => (q, { x with clusters := [] })
      cores := s.cores.map fun (c, x) => (c, { x with grid := none, places := 0 }.without fun _ => true)
      dies := s.dies.map fun (d, x) => (d, { x with jobs := [] })
      queues := s.queues.map fun (k, q) => (k, { q with active := none, recs := q.recs.drop (if q.active.isSome then 1 else 0), waits := none, submits := [] }) }
    modDev fun d => { d with syncs := [] }
    setDevState 7 4

/-! TDISP and the link (R463, R464) -/

/-- A failure of IDE integrity: a locked or running function becomes ERROR. -/
def execTdispError (tenant : Nat) : State → Host.Outcome State Fault Refusal :=
  onUnit (1024 ≤ tenant) do
    require ((← get).dev.state = 4)
    lockedWrite tenant

/-- A TDISP message (log 30): 0 locks, 1 starts, 2 stops. Only an FLR leaves ERROR. -/
def execTdispRequest (tenant msg : Nat) : State → Host.Outcome State Fault Refusal :=
  onUnit (1024 ≤ tenant) do
    require ((← get).dev.state = 4)
    modFn tenant fun x => { x with tdisp :=
      if msg = 0 && x.tdisp = 0 then 1
      else if msg = 1 && x.tdisp = 1 then 2
      else if msg = 2 && x.tdisp != 3 then 0
      else x.tdisp }

/-- A flit meets its CRC or fails it: after the eighth failure its port is down. -/
def execFlitRetry (port : Nat) (good : Bool) : State → Host.Outcome State Fault Refusal :=
  onUnit (18 ≤ port) do
    let d := (← get).dev
    require (!d.down.contains port)
    let n := tget 0 d.retries port + 1
    if good then modDev fun d => { d with retries := tdel port d.retries }
    else if n < 8 then modDev fun d => { d with retries := tset port n d.retries }
    else modDev fun d => { d with retries := tdel port d.retries, down := d.down ++ [port] }

/-! Errors without a requester (16_recovery.md R457) -/

/-- A dirty sector written back holds an uncorrectable word: the word of memory (which of the two is open, log 13) is
marked, its last writer's tenant is killed. -/
def execWritebackError (sector : Nat) : State → Host.Outcome State Fault Refusal :=
  runOp do
    let w := 2 * sector + (← freeValue).toNat % 2
    let s ← get
    let home := (tlook sector s.sects).map (·.home)
    let r : ErrRec := { pa := 64 * sector, num := home.getD (channelOf (64 * sector)), unit := if home.isSome then 2 else 0, kind := 2 }
    modify fun s => { s with poison := { s.poison with mem := if s.poison.mem.contains w then s.poison.mem else s.poison.mem ++ [w] } }
    match tlook sector s.writers with
    | some t =>
      modify fun s => { s with writers := tdel sector s.writers }
      killTenant t
      writeError { r with tenant := t, action := 2, parts := 2 ^ s.partOf t }
    | none => writeError r

/-- The lines of an L2 slice: those of the channels of its owner, interleaved over the owner's slices of the die as
accumulators are (07_matrix.md R185; log 31). -/
def inL2Slice (s : State) (idx k : Nat) : Bool :=
  let sec := k % 2 ^ 46
  let d := idx / Config.slicesPerDie
  let ls := l2Of s (ownerOf s (64 * sec)) d
  k / 2 ^ 46 = d && (ls.isEmpty || ls[64 * sec / 256 % ls.length]? = some idx)

/-- An L2 slice's lines and records are gone. -/
def dropL2Slice (idx : Nat) : Op Unit :=
  modify fun s => { s with l2 := s.l2.filter fun c => !inL2Slice s idx c.1, accs := tdel idx s.accs }

/-- A home slice's lines and directory are gone: the bytes of its sectors that were written are open; the handles of the dropped entries are
stale (09_tiles_leases.md R252). -/
def dropHomeSlice (h : Nat) : Op Unit := do
  let s ← get
  (s.sects.filter fun x => x.2.home = h).forM fun (sec, _) => do
    if thas s.writers sec then
      let ws ← freeWords 8
      putMem 64 (64 * sec) (ofBytes (ws.flatMap (toBytes 8)))
      modify fun s => { s with writers := tdel sec s.writers }
    dropHome sec
  modHome h fun x => { x with
    entries := []
    waiting := []
    freed := x.freed ++ x.entries.map (·.1)
    gens := x.entries.foldl (fun g e => tset e.1 (nextEntryGen (entryGen x e.1)) g) x.gens }

/-- A tag or directory parity error of an L2 slice (unit 1) or a home slice (unit 2): its state is dropped and the tenants
of its owner, or of the users of the pool, are killed. -/
def execTagParityError (unit idx : Nat) (dir : Bool) : State → Host.Outcome State Fault Refusal :=
  onUnit (256 ≤ idx || (unit != 1 && unit != 2)) do
    let s ← get
    let owns (x : Own) : Bool := if unit = 1 then x.l2.contains idx else x.homes.contains idx
    let owner := (s.parts.find? fun e => owns e.2.own).map (·.1)
    let pool := (if unit = 1 then s.dev.poolL2 else s.dev.poolHomes).contains idx
    if unit = 1 then dropL2Slice idx else dropHomeSlice idx
    let ps : List Nat := match owner with
      | some p => [p]
      | none => if pool then (List.range 64).filter (usePool s) else []
    (ps.flatMap (tenantsOf s)).forM killTenant
    writeError {
      pa := 0
      num := idx
      unit := unit
      kind := if dir then 4 else 3
      action := if owner.isSome then 3 else if pool then 4 else 0
      parts := ps.foldl (fun (n : Nat) p => n + 2 ^ p) 0 }

end Sys2Proof.Machine
end

