-- ==== Sys2Proof/Machine/System.lean ====
section
/-! DEFINITION. Traps to the program, services, special registers, counters and ISYNC (13_control_sync_ops.md R359 to R362, R366; 01_machine.md R21 to R25; 16_recovery.md R434, R440, R441). -/

namespace Sys2Proof.Machine

/-! TRAP and BKPT (R361) -/

/-- TRAP. -/
def execTrap (p : BitVec 3) (code : BitVec 16) : State → Host.Outcome State Fault Refusal :=
  runOp do
    legal (.trap p code)
    if (← activeMask p.toNat) = 0 then finish
    throw (.trap { cause := 0x10, addr := code.setWidth 64, perf := true })

/-- The debug enables: of the tenant's own window, and of the physical function's port, which keeps a word for each
tenant that DBGSEL selects (17_host_fabric.md R473; log 23). -/
def dbgen (t : Nat) : Nat := 0xC0000 + 8 * t
def debugOn (s : State) (qk : Nat) : Bool :=
  let t := tenantOf qk
  (s.reg t 0xC018).getLsbD (qk % 64) || (s.reg pfn (dbgen t)).getLsbD (qk % 64)

/-- BKPT: under debug the group stops before it; a released group passes it as a NOP. -/
def execBkpt (p : BitVec 3) (code : BitVec 16) : State → Host.Outcome State Fault Refusal :=
  runOp do
    legal (.bkpt p code)
    if (← activeMask p.toNat) = 0 then finish
    if (← self).released then modSelf fun g => { g with released := false }
    else if debugOn (← get) (← selfBlock).grid then waitFor .debug
    else throw (.trap { cause := 0x11, addr := code.setWidth 64, perf := true })

/-! Services (R362) -/

/-- SVC: an acquire-release of system scope. A service of the tenant's system software is answered by an event; no other is served. -/
def execSvc (p : BitVec 3) (d a : BitVec 6) (service : BitVec 16) : State → Host.Outcome State Fault Refusal :=
  runOp do
    legal (.svc p d a service)
    if (← activeMask p.toNat) = 0 then finish
    awaitAccesses
    if service.toNat < 0x8000 then sleepOn (.reply d.toNat ((← self).scalar a.toNat) service.toNat)
    else
      acquireCore (coreOfGrp (← get).cur.gk)
      modSelf fun g => g.setScalar d.toNat 1

/-- PAGESYNC: the page's accesses wait from now on for the sweep that answers (09_tiles_leases.md R261). -/
def execPagesync (p : BitVec 3) (d a : BitVec 6) : State → Host.Outcome State Fault Refusal :=
  runOp do
    legal (.pagesync p d a)
    if (← activeMask p.toNat) = 0 then finish
    awaitAccesses
    let gk := (← get).cur.gk
    let t ← selfTenant
    let va := (← self).scalar a.toNat
    modDev fun x => { x with syncs := x.syncs ++ [(t, va.toNat / 4096, gk)] }
    sleepOn (.reply d.toNat va 0x8000)

/-! Special registers -/

/-- A special register that is one value for the group (R21 to R25, R434); none for a number not listed. -/
def specialReg (s : State) (gk : Nat) (g : Group) (b : Block) (h : Hdr) (num : Nat) : Option W64 :=
  match num with
  | 0x01 => some (BitVec.ofNat 64 (gk % 64))
  | 0x02 => some (BitVec.ofNat 64 b.blk)
  | 0x03 => some (BitVec.ofNat 64 (b.clu + b.pos * 2 ^ 32))
  | 0x04 => some (BitVec.ofNat 64 g.width)
  | 0x05 => some (BitVec.ofNat 64 (h.groups + h.cluster * 2 ^ 8))
  | 0x06 => some (BitVec.ofNat 64 (placeOf s.dev.pkg (coreOfGrp gk)))
  | 0x08 => some g.trapPc
  | 0x09 => some g.trapCause
  | 0x0A => some g.trapAddr
  | 0x0B => some g.rowprog
  | 0x0C => some g.wakewhy
  | 0x0D => some (BitVec.ofNat 64 (g.gens.rw + g.gens.sp * 2 ^ 12 + g.gens.qm * 2 ^ 24 + g.gens.ds * 2 ^ 36 +
      (b2n g.gens.trw + 2 * b2n g.gens.tsp + 4 * b2n g.gens.tqm + 8 * b2n g.gens.tds) * 2 ^ 48))
  | 0x0E => some (BitVec.ofNat 64 (g.units.length - 1 + h.regs * 2 ^ 8))
  | _ => none

/-- RDSR (R359): LANEID has a value per lane and no scalar form. -/
def execRdsr (p : BitVec 3) (dst : Dst) (num : BitVec 8) : State → Host.Outcome State Fault Refusal :=
  runOp do
    legal (.rdsr p dst num)
    let m ← activeMask p.toNat
    let s ← get
    let g ← self
    let x := specialReg s s.cur.gk g (← selfBlock) (← selfHdr) num.toNat
    if num = 0 then
      match dst with
      | .sreg _ => illegal 8
      | .lane _ => (lanesOf g.width m).forM fun l => writeDst false l l dst
    else match x with
      | none => illegal 8
      | some v => (workLanes g.width dst m).forM fun l =>
          writeDst false l (if dst.isLane then v.toNat % 2 ^ 32 else v.toNat) dst

/-- The RW bits of the trap registers (R434) and of ROWPROG (07_matrix.md R196); RO and reserved bits keep their value. -/
def rowprogRw : W64 := 0x80FF00FF80FF0FFF
def keepRo (mask old new : W64) : W64 := (old &&& ~~~mask) ||| (new &&& mask)

/-- ABORT (R441): the grid aborts with the cause written, or Program Abort. -/
def abortHere (v : W64) : Op Unit := do
  let c := bits v.toNat 15 8
  abortGrid (← selfBlock).grid (if c = 0 then 0x24 else c)
  finish

/-- RESUME (R440): the return waits for the handler's outstanding words. -/
def resumeHere : Op Unit := do
  awaitPending
  returnFromTrap

/-- A write of a special register (R359); only the trap registers may be written, and only in handler mode. -/
def writeSpecial (num : Nat) (v : W64) : Op Unit := do
  if (← self).handler.isNone then illegal 8
  match num with
  | 0x08 => modSelf fun g => { g with trapPc := keepRo (~~~7) g.trapPc v }
  | 0x09 =>
    if v.getLsbD 1 then abortHere v
    else
      if v.getLsbD 0 then resumeHere
      modSelf fun g => { g with trapCause := keepRo 0xFFFF00 g.trapCause v }
  | 0x0A => modSelf fun g => { g with trapAddr := v }
  | 0x0B => modSelf fun g => { g with rowprog := keepRo rowprogRw g.rowprog v }
  | _ => illegal 8

/-- The value of a scalar-class source. -/
def sargVal (g : Group) : SArg → W64
  | .sreg m => g.scalar m.toNat
  | .const i => BitVec.ofNat 64 (constInt 64 i.toNat)

/-- WRSR (R359). -/
def execWrsr (p : BitVec 3) (num : BitVec 8) (src : SArg) : State → Host.Outcome State Fault Refusal :=
  runOp do
    legal (.wrsr p num src)
    if (← activeMask p.toNat) = 0 then
      if !(8 ≤ num.toNat && num.toNat ≤ 0x0B) || (← self).handler.isNone then illegal 8
      finish
    writeSpecial num.toNat (sargVal (← self) src)

/-- RESUME, a WRSR to TRAPCAUSE of a constant with bit 0 set and bit 1 clear (R440). -/
def execResume (p : BitVec 3) (i : BitVec 6) : State → Host.Outcome State Fault Refusal :=
  runOp do
    legal (.resume p i)
    if (← self).handler.isNone then illegal 8
    if (← activeMask p.toNat) = 0 then finish
    resumeHere
    modSelf fun g => { g with trapCause := keepRo 0xFFFF00 g.trapCause (BitVec.ofNat 64 (constInt 64 i.toNat)) }

/-- ABORT, a WRSR to TRAPCAUSE of a constant with bit 1 set (R441). -/
def execAbort (p : BitVec 3) (i : BitVec 6) : State → Host.Outcome State Fault Refusal :=
  runOp do
    legal (.abort p i)
    if (← self).handler.isNone then illegal 8
    if (← activeMask p.toNat) = 0 then finish
    abortHere (BitVec.ofNat 64 (constInt 64 i.toNat))

/-! Counters and code -/

/-- RDCT (R360). -/
def execRdct (p : BitVec 3) (d : BitVec 6) (c : Ctr) : State → Host.Outcome State Fault Refusal :=
  runOp do
    legal (.rdct p d c)
    if (← activeMask p.toNat) = 0 then finish
    let s ← get
    let g ← self
    let core := coreOfGrp s.cur.gk
    let e := (s.core core).events
    let placed := (← selfBlock).placedAt
    let x := match c with
      | .cycles => sat48 (s.cycle - placed)
      | .issued => g.issued
      | .sleep => g.slept
      | .lclock => s.lc core
      | .nv => e.nv
      | .of => e.of
      | .ic => e.ic
      | .sb => e.sb
    modSelf fun g => g.setScalar d.toNat (BitVec.ofNat 64 x)

/-- ISYNC (R366). -/
def execIsync (p : BitVec 3) : State → Host.Outcome State Fault Refusal :=
  runOp do
    legal (.isync p)
    if (← activeMask p.toNat) = 0 then finish
    awaitPending
    awaitFutures
    syncCode

end Sys2Proof.Machine
end

