-- ==== Sys2Proof/Machine/Registers.lean ====
section
/-! DEFINITION. Host registers as they are written and read (00_scope.md R4, R5; 14_dispatch_lanterns.md R370, R396, R397; 15_isolation.md R405, R409, R417, R429, R431; 16_recovery.md R450, R453, R458; 17_host_fabric.md R465, R470, R473), and the host's accesses to memory (08_ordering_model.md R231). -/

namespace Sys2Proof.Machine

/-! Registers that only hold what is written -/

def low (n : Nat) : Nat := 2 ^ n - 1
def above (n : Nat) : Nat := 2 ^ 64 - 2 ^ n

/-- Offsets into an array of register blocks: `off` lies in block `i` of `n` blocks of `size` from `base`, at `k`. -/
def inBlock (off base size n : Nat) : Option (Nat × Nat) :=
  if base ≤ off && off < base + size * n then some ((off - base) / size, (off - base) % size) else none

/-- The RW fields of a register of the physical function without a behaviour of its own. -/
def pfMask (off : Nat) : Option Nat :=
  match off with
  | 0xB100 => some (2 ^ 63 + low 26 * 2 ^ 16 + 15)
  | 0xC000 => some (2 ^ 63 + low 49)
  | 0xD018 => some (above 5)
  | 0xD100 => some (above 5)
  | 0xD108 => some (above 32 + 31)
  | _ =>
    match inBlock off 0x20000 0x40 64, inBlock off 0x40000 0x10 1024, inBlock off 0x60000 0x200 64, inBlock off 0xC040 8 8 with
    | some (_, k), _, _, _ => if k = 8 || k = 0x28 then some (low 32) else none
    | _, some (_, k), _, _ => if k = 0 then some (low 48) else none
    | _, _, some (_, k), _ =>
      if k = 0x28 || k = 0xB0 then some (low 32)
      else if k < 0xC0 then some (low 64)
      else if k = 0xD0 then some (above 12)
      else if k = 0xD8 then some (low 32)
      else none
    | _, _, _, some _ => some (low 64)
    | _, _, _, _ => none

/-- The same of a virtual function. -/
def vfMask (off : Nat) : Option Nat :=
  match off with
  | 0xC000 => some (2 ^ 63 + low 39)
  | 0xC018 => some (low 64)
  | 0xD000 => some (above 13)
  | 0xD018 => some (above 5)
  | _ =>
    match inBlock off 0x10000 0x40 64, inBlock off 0xC040 8 8 with
    | some (_, k), _ => if k = 8 then some (above 12) else if k = 0x10 then some (low 32) else none
    | _, some _ => some (low 64)
    | _, _ => none

/-- The value a register without a listed one holds. -/
def resetOf (fn off : Nat) : W64 :=
  if off = 0xD020 || (fn = pfn && off = 0xD108) then 4
  else if fn = pfn then
    match inBlock off 0x20000 0x40 64 with
    | some (_, 0) => 0x100040
    | some (_, 8) => 200000
    | some (_, 0x10) => 0x100404101008
    | some (_, 0x20) => 100000
    | some (_, 0x28) => 1000000
    | _ => if off = 0xB008 then BitVec.ofNat 64 (4400 * 2 ^ 32) else 0
  else match inBlock off 0x10000 0x40 64 with
    | some (_, 0) => 0x1000000
    | _ => 0

/-- Store the fields of a mask. -/
def storeReg (fn off : Nat) (v : W64) (mask : Nat) : Op Unit :=
  setReg fn off (v &&& BitVec.ofNat 64 mask) (resetOf fn off)

/-- A byte field whose value 0 stores 1, and likewise a field of `n` bits at `i`. -/
def oneAt (v i n : Nat) : Nat := max 1 (bits v (i + n - 1) i) * 2 ^ i

/-! Queues (R370, R453) -/

/-- A write of QCTL: clearing HALT or setting EN lets the head become active, or the queue accept records. -/
def qctlOp (qk : Nat) (v : W64) : Op Unit := do
  let x := v.toNat
  setReg (tenantOf qk) (qctlOff (qk % 64)) (BitVec.ofNat 64 (oneAt x 24 8 + bits x 18 16 * 2 ^ 16 + x % 8)) 0x1000000
  activate qk

def execQctlWrite (tenant queue : Nat) (v : W64) : State → Host.Outcome State Fault Refusal :=
  onUnit (1024 ≤ tenant || 64 ≤ queue) do
    fnReady tenant
    qctlOp (tenant * 64 + queue) v

/-! MSI-X tables (17_host_fabric.md R461): their place is not given; the model's own offsets (log 32) -/

def irqMaskOp (fn vec : Nat) (on : Bool) : Op Unit := do
  let s ← get
  let x : Irq := ⟨fn, vec⟩
  if on then set { s with irqMask := (x :: s.irqMask).eraseDups }
  else
    set { s with irqMask := s.irqMask.filter (· != x), irqPend := s.irqPend.filter (· != x) }
    if s.irqPend.contains x then fire fn vec

/-! Writes -/

/-- A register that the physical function and the virtual ones both have. -/
def sharedWrite (fn off : Nat) (v : W64) : Op Bool := do
  match off with
  | 0xC008 =>
    if v.toNat % 4 = 1 then dbgRead fn
    if v.toNat % 4 = 2 then dbgWrite fn
    return true
  | 0xD020 =>
    setFqctl fn (v &&& BitVec.ofNat 64 (above 32 + 31))
    return true
  | 0xD030 =>
    answerFault fn (v.toNat % 2 ^ 32) !(v.getLsbD 32)
    return true
  | 0xE000 =>
    postMail fn v
    return true
  | 0xF000 =>
    lnloadOp fn v
    return true
  | _ =>
    match inBlock off 0xE8000 8 66 with
    | some (vec, _) =>
      irqMaskOp fn vec (v.getLsbD 0)
      return true
    | none => return false

/-- DEVCTL (17_host_fabric.md R470). -/
def devctlOp (v : W64) : Op Unit := do
  let w := bits v.toNat 44 32
  let cap := if 1000 ≤ w && w ≤ 4400 then w else 4400
  setReg pfn 0xB008 (BitVec.ofNat 64 (cap * 2 ^ 32 + v.toNat % 2 ^ 16)) (resetOf pfn 0xB008)
  if v.getLsbD 63 then packageResetOp

/-- PCTL (15_isolation.md R405, R431). -/
def pctlOp (p : Nat) (v : W64) : Op Unit := do
  storeReg pfn (partOff p 0xC0) v 0x1FE01
  modPart p fun x => { x with ctl := v &&& 0x1FE01, featPending := true }
  if v.getLsbD 32 then commitOp p

def partWrite (p k : Nat) (v : W64) : Op Unit := if k = 0xC0 then pctlOp p v else pure ()

/-- Per-tenant registers (15_isolation.md R409, 17_host_fabric.md R463, R465). -/
def tenantWrite (t k : Nat) (v : W64) : Op Unit := do
  match k with
  | 0 => tdpartOp t v
  | 8 =>
    storeReg pfn (tdOff t 8) v (above 13)
    lockedWrite t
  | 0x10 => queueInv pfn t v
  | 0x18 => if v.getLsbD 1 then modFn t fun x => { x with inv2Lost := false }
  | 0x20 =>
    storeReg pfn (tdOff t 0x20) v (low 16)
    lockedWrite t
  | _ => pure ()

/-- Partition policy registers with a rule of their own (14_dispatch_lanterns.md R397, 16_recovery.md R450). -/
def policyWrite (p k : Nat) (v : W64) : Op Unit := do
  let off := 0x20000 + 0x40 * p + k
  let x := v.toNat
  match k with
  | 0 => setReg pfn off (BitVec.ofNat 64 (oneAt x 16 16 + oneAt x 0 16)) (resetOf pfn off)
  | 0x10 => setReg pfn off (BitVec.ofNat 64 ((List.range 6).foldl (fun (n : Nat) i => n + oneAt x (8 * i) 8) 0)) (resetOf pfn off)
  | 0x18 => pdmoorOp p v
  | 0x20 => setReg pfn off (BitVec.ofNat 64 (max 1 (x % 2 ^ 32))) (resetOf pfn off)
  | _ => pure ()

/-- A write to a register of the physical function. -/
def pfWrite (off : Nat) (v : W64) : Op Unit := do
  match pfMask off with
  | some m => storeReg pfn off v m
  | none =>
    if ← sharedWrite pfn off v then pure ()
    else if off = 0xB008 then devctlOp v
    else if off = 0xC018 then setReg pfn (dbgen (bits ((← get).reg pfn 0xC000).toNat 48 39)) v
    else if off = 0xD110 then
      if v.getLsbD 32 then modDev fun d => { d with eqLost := false }
    else if 0x800000 ≤ off && off < 0x800000 + 4 * 262144 && off % 4 = 0 then
      mooringOp ((off - 0x800000) / 4) (some (v.setWidth 32))
    else match inBlock off 0x20000 0x40 64, inBlock off 0x60000 0x200 64, inBlock off 0x80000 0x40 1024, inBlock off 0x5F000 8 8 with
      | some (p, k), _, _, _ => policyWrite p k v
      | _, some (p, k), _, _ => partWrite p k v
      | _, _, some (t, k), _ => tenantWrite t k v
      | _, _, _, some (w, 0) => poolOp w v
      | _, _, _, _ => pure ()

/-- A write to a register of a virtual function. -/
def vfWrite (t off : Nat) (v : W64) : Op Unit := do
  match vfMask off with
  | some m => storeReg t off v m
  | none =>
    if ← sharedWrite t off v then pure ()
    else if off = 0xD008 then queueInv t t v
    else if off = 0xD010 then
      if v.getLsbD 1 then modFn t fun x => { x with invLost := false }
    else match inBlock off 0x10000 0x40 64 with
      | some (j, 0) => qctlOp (t * 64 + j) v
      | some (j, 0x18) => submitOp (t * 64 + j) v
      | some (j, 0x30) => if v.getLsbD 63 then abortGrid (t * 64 + j) 0x25
      | _ => pure ()

/-- A write of a register by the host (R4, R5): RO fields and reserved bits keep their values. The mailbox of the physical
function also answers in HALTED (17_host_fabric.md R470). -/
def execRegisterWrite (fn off : Nat) (v : W64) : State → Host.Outcome State Fault Refusal :=
  onUnit (pfn < fn) do
    if fn = pfn && off = 0xB008 then devctlOp v
    else if off = 0xE000 then postMail fn v
    else
      fnReady fn
      if fn = pfn then pfWrite off v else vfWrite fn off v

/-! Reads (R4): WO and reserved fields read as 0 -/

/-- LOADED of LNSTAT (14_dispatch_lanterns.md R396). -/
def loadedBits (x : Fn) : Nat :=
  (List.range 6).foldl (fun (n : Nat) p => n + b2n (x.routines.any fun r => r.point = p) * 2 ^ p) 0

/-- Registers of both kinds of function that the hardware computes. -/
def sharedRead (s : State) (fn off : Nat) : Option Nat :=
  let x := s.fn fn
  match off with
  | 0xC010 => some (s.reg fn 0xC010).toNat
  | 0xD020 => some (s.reg fn 0xD020 4).toNat
  | 0xD028 => some x.fqTail
  | 0xE008 => some (if mailBusy s fn then 1 else x.smStat)
  | 0xE010 =>
    let p := s.part (s.partOf fn)
    some (if fn != pfn && p.reveal then 0xFF - p.feat / 2 * 2 else 0xFF)
  | 0xF008 => some (x.lnstat / 2 ^ 32 * 2 ^ 32 + loadedBits x * 2 ^ 16 + x.lnstat % 2 ^ 16)
  | 0xF010 => some x.lncnt
  | _ => none

/-- QGRID.STATE and the rest of the register (16_recovery.md R453). -/
def qgridRead (s : State) (qk : Nat) : Nat :=
  match s.gridOf qk with
  | none => 0
  | some g =>
    let st := match g.state with
      | .waiting => 1
      | .ready => 2
      | .running => 3
      | .draining => 4
      | .saved => 5
    st + b2n g.waitq * 8 + (if g.waitq then min (placesLacking s qk) 65535 else 0) * 2 ^ 32

def queueRead (s : State) (qk k : Nat) : Nat :=
  let q := s.queue qk
  match k with
  | 0 => (s.qctl qk).toNat
  | 0x20 => q.nextSeq + q.recs.length * 2 ^ 32
  | 0x28 => q.refused + q.errLast * 2 ^ 32
  | 0x30 => qgridRead s qk
  | _ => 0

/-- A register of the physical function. -/
def pfRead (s : State) (off : Nat) : Nat :=
  match pfMask off, sharedRead s pfn off with
  | some _, _ => (s.reg pfn off (resetOf pfn off)).toNat
  | _, some x => x
  | _, _ =>
    if off = 0xB000 then s.dev.state + s.dev.err * 2 ^ 8
    else if off = 0xB008 then (s.reg pfn off (resetOf pfn off)).toNat
    else if off = 0xC018 then (s.reg pfn (dbgen (bits (s.reg pfn 0xC000).toNat 48 39))).toNat
    else if off = 0xD110 then s.dev.eqTail + b2n s.dev.eqLost * 2 ^ 32
    else if off = 0xD118 then s.dev.ce + s.dev.ue * 2 ^ 32
    else match inBlock off 0x20000 0x40 64, inBlock off 0x40000 0x10 1024, inBlock off 0x60000 0x200 64,
        inBlock off 0x80000 0x40 1024, inBlock off 0xA0000 0x40 256 with
      | some (_, k), _, _, _, _ => if k ≤ 0x28 then (s.reg pfn off (resetOf pfn off)).toNat else 0
      | _, some (t, k), _, _, _ => if k = 8 then (s.use t).cut else 0
      | _, _, some (p, k), _, _ => if k = 0xC0 then (s.reg pfn off).toNat else if k = 0xC8 then (s.part p).stat else 0
      | _, _, _, some (t, k), _ =>
        match k with
        | 0 | 8 | 0x20 => (s.reg pfn off).toNat
        | 0x18 => b2n ((s.fn pfn).invals.any fun i => i.1 = t) + 2 * b2n (s.fn t).inv2Lost
        | _ => 0
      | _, _, _, _, some (h, k) =>
        let x := s.home h
        [x.retry, x.tenwait, x.merge, x.renew, x.aged].getD (k / 8) 0
      | _, _, _, _, _ => if (inBlock off 0x5F000 8 8).isSome then (s.reg pfn off).toNat else 0

/-- A register of a virtual function. -/
def vfRead (s : State) (t off : Nat) : Nat :=
  match vfMask off, sharedRead s t off with
  | some _, _ => (s.reg t off).toNat
  | _, some x => x
  | _, _ =>
    if off = 0xD010 then b2n (!(s.fn t).invals.isEmpty) + 2 * b2n (s.fn t).invLost
    else match inBlock off 0x10000 0x40 64 with
      | some (j, k) => queueRead s (t * 64 + j) k
      | none => 0

/-- What a read of a register returns (17_host_fabric.md R463, R470): all ones for a function in ERROR or not present, 0 for the
physical function's registers before READY, but for DEVSTAT and DEVCTL. -/
def regRead (s : State) (fn off : Nat) : W64 :=
  if fn = pfn then
    if off = 0xB000 || off = 0xB008 || s.dev.state = 4 || (s.dev.state = 7 && off = 0xE008) then BitVec.ofNat 64 (pfRead s off) else 0
  else if s.dev.state != 4 || (s.fn fn).tdisp = 3 then BitVec.allOnes 64
  else BitVec.ofNat 64 (vfRead s fn off)

/-! The host and device memory (R231) -/

/-- The virtual address by which a tile's tenant reaches a device address, where the tile has a byte there. -/
def tileVa (s : State) (e : Entry) (g : Nat) : Option Nat :=
  ((tilePages e.desc).findSome? fun p => match walkBoth s e.tenant (4096 * p.1) with
    | .ok (m, _, _) => if m.phys (4096 * p.1) / 4096 = g / 4096 then some (4096 * p.1 + g % 4096) else none
    | .error _ => none).filter e.desc.has

/-- The tiles over a device address, with the address by which each has it. -/
def tilesOver (s : State) (g : Nat) : List (Nat × Entry) :=
  s.homes.flatMap fun h => h.2.entries.filterMap fun e => (tileVa s e.2 g).map fun va => (va, e.2)

/-- A byte as the host, a holder of nothing, reads it: under write tenure the published one (R222). -/
def hostByte (s : State) (g : Nat) : Byte :=
  match (tilesOver s g).find? fun x => thas x.2.saved (x.1 / 64) with
  | some (va, e) => BitVec.ofNat 8 ((tget 0 e.saved (va / 64)).toNat / 2 ^ (8 * (va % 64)))
  | none => rdByte s.mem g

/-- Whether bytes are under an agent's tenure: a store by the host has no effect there (R222; log 89). -/
def hostBlocked (s : State) (g n : Nat) : Bool :=
  (List.range n).any fun i => (tilesOver s (g + i)).any fun x => x.2.state != .opened

/-- The home slice of a device address for the host: the one that holds its sector. -/
def hostHome (s : State) (g : Nat) : Nat :=
  match tlook (g / 64) s.sects with
  | some x => x.home
  | none => homeOf s ⟨g, ⟨0, 0, 12, 0, 7, 0x200, 0⟩, g, ownerOf s g, false, 0⟩

/-- The timestamp of a host's write to a sector: the writer's jump of R255 with the slice's clock, which has reached that of every write
performed before (log 22). -/
def hostJump (s : State) (g : Nat) : Nat := jump (s.stamps (hostHome s g) (g / 64)) (largestClock s)

/-- Whether the jump cap holds a sector's write (R258). -/
def hostCapped (s : State) (g : Nat) : Bool := earlier ((s.floorM + 16384) % 65536) (hostJump s g)

def hostWriteAt : Nat → List Byte → Nat → Op Unit
  | 0, _, _ => pure ()
  | fuel + 1, bs, g => do
    if bs.isEmpty then pure ()
    else
      let s ← get
      let h := hostHome s g
      let w := hostJump s g
      let n := min bs.length (64 - g % 64)
      putMem n g (ofBytes (bs.take n))
      atHome h
      modify fun s => { s with sects := tset (g / 64) ⟨w, w, h⟩ s.sects, writers := tdel (g / 64) s.writers }
      raiseHc h w
      hostWriteAt fuel (bs.drop n) (g + n)

/-- The first bytes of the sectors that a range of bytes touches. -/
def sectorStarts (g n : Nat) : List Nat := (List.range ((g % 64 + n + 63) / 64)).map fun i => max g ((g / 64 + i) * 64)

/-- A host write is performed at the home slice with the writer's jump, the slice's clock in place of a writer's. -/
def execHostWrite (addr : Nat) (data : List Byte) : State → Host.Outcome State Fault Refusal :=
  onUnit (devTop < addr + data.length) do
    let s ← get
    require (s.dev.state = 4 && s.dev.power < 2 && !(sectorStarts addr data.length).any (hostCapped s) &&
      !hostBlocked s addr data.length)
    hostWriteAt (data.length + 1) data addr

/-- A host read of device memory. An uncorrectable word's bytes are open (log 13). -/
def execHostRead (addr n : Nat) : State → Host.Outcome State Fault Refusal :=
  onUnit (devTop < addr + n) do
    let s ← get
    require (s.dev.state = 4 && s.dev.power < 2)
    if memBad s addr n then
      note (.word addr 0)
      let ws ← freeWords (n / 8 + 1)
      modify fun s => { s with out := (ws.flatMap (toBytes 8)).take n :: s.out }
    else set { s with out := (List.range n).map (fun i => hostByte s (addr + i)) :: s.out }

end Sys2Proof.Machine
end

