-- ==== Sys2Proof/Machine/Settle.lean ====
section
/-! DEFINITION. What follows every step: effects that a state brings about by itself (log 3). -/

namespace Sys2Proof.Machine

/-- Quads that leave a partition as their blocks end (15_isolation.md R406 step 3). -/
def leaveQuads (p : Nat) : Op Unit := do
  let s ← get
  let x := s.part p
  let gone := x.leaving.filter fun q => !quadBusy s q
  if !gone.isEmpty then
    modPart p fun x => { x with
      own := { x.own with quads := x.own.quads.filter fun q => !gone.contains q }
      leaving := x.leaving.filter fun q => !gone.contains q
      shrinkAt := if gone.length = x.leaving.length then none else x.shrinkAt }
    commitDone p

/-- Function-level resets that waited for the end of a partition's switch sequence (15_isolation.md R426). -/
def lateResets (p : Nat) : Op Unit := do
  let s ← get
  s.fns.forM fun (t, x) => if x.flr && s.partOf t = p then flrNow t else pure ()

/-- A partition: quads that leave, a switch sequence that ends, a commit held until now, the choice of a tenant where
there is none. -/
def settlePart (p : Nat) : Op Unit := do
  leaveQuads p
  let s ← get
  match (s.part p).switchTill with
  | some t =>
    if t ≤ s.cycle then
      beginSlice p
      lateResets p
  | none => tickIfIdle p
  let x := (← get).part p
  if x.held && x.stat != 1 && x.switchTill.isNone then commitNow p

/-! Groups -/

/-- Whether an empty slot may take the top entry of its group's stack (12_groups_progress.md R324): an entry in the overflow area is read
once the group is awake. -/
def takesTop (g : Group) : Bool :=
  (g.a.mask = 0 || g.b.mask = 0) && g.handler.getD 0 < g.sp && (g.sp ≤ 32 || g.asleep.isNone)

/-- Whether a group has ended (R325), but for what is still on its way: both slots and the stack are empty, and no handler or return of one
is under way. -/
def Group.over (g : Group) : Bool :=
  g.a.mask = 0 && g.b.mask = 0 && g.sp = 0 && g.handler.isNone && g.trapping.isNone && g.replay.isEmpty && g.pend.isEmpty &&
  g.asleep.isNone && g.futures = 0 && g.holds.isEmpty

/-- The end of a group that a return from its handler has left empty (R325, R351): its partials are delivered first. -/
def tryEnd (gk : Nat) : Op Unit := do
  let g ← groupAt gk
  require (g.over && !g.halts)
  match g.toDeliver with
  | some ch =>
    let _ ← flushChain gk ch
    modGroup gk fun g => { g with chain := none, kept := none }
    if g.chain.isNone && g.mx.deliver then clearSaved gk
  | none => pure ()
  require (!((← get).contribs.any fun e => e.2.gk = gk))
  flushDue gk
  endGroup gk

/-- What a group's own state brings about at the end of a step: a path taken by an empty slot, a stop, the writes of a stopped group, an
end, a sleep. -/
def settleOne (gk : Nat) (g : Group) : Op Unit := do
  if takesTop g then quietly (pickup gk 2)
  if g.preempt && !g.stopped then quietly (tryStop gk)
  if g.stopped && !g.due.isEmpty && g.asleep.isNone then quietly (flushDue gk)
  match tlook gk (← get).groups with
  | some h => if h.over then quietly (tryEnd gk) else settleGroup gk h
  | none => pure ()

/-- Monitors whose lease has ended, groups and clusters that can stop and be saved, drained
grids, partitions. -/
def settle : Op Unit := do
  expireLines
  let s ← get
  s.groups.forM fun (gk, _) => do
    match tlook gk (← get).groups with
    | some g => settleOne gk g
    | none => pure ()
  s.blocks.forM fun (bk, b) => if b.preempt.isSome then quietly (trySave bk) else pure ()
  s.queues.forM fun (qk, q) => match q.active with
    | some g => if g.state = .draining then quietly (saveGrid qk) else pure ()
    | none => pure ()
  s.parts.forM fun (p, _) => quietly (settlePart p)

end Sys2Proof.Machine
end

