-- ==== Sys2Proof/Machine/Agenda.lean ====
section
/-! DEFINITION. What moves next where the agenda says nothing, and the evictions (log 2): the order of agents is not the spec's to fix, and every order is reached by an agenda. -/

namespace Sys2Proof.Machine

/-! Candidates -/

/-- Ends of waits of groups: outstanding words, replies, timeouts, traps to take. -/
def groupActs (s : State) : List Act :=
  s.groups.flatMap fun (gk, g) =>
    (if g.trapping.isSome then [.event (.trapEntry gk)] else []) ++
    g.pend.map (fun p => Act.event (.longLatencyComplete gk p.id)) ++
    (if g.yieldTill != 0 && g.yieldTill ≤ s.cycle then [.event (.yieldExpire gk)] else []) ++
    (match g.asleep with
    | some ⟨.reply _ _ n, _⟩ => if n < 0x8000 then [.event (.longLatencyComplete gk 0)] else []
    | some ⟨.line _ _ _ till _ _, _⟩ => if till ≤ s.cycle then [.event (.waitlnTimeout gk)] else []
    | _ => [])

/-- The matrix and sweep units of the cores. -/
def unitActs (s : State) : List Act :=
  s.cores.flatMap fun (c, k) => (if matrixReady s c then [.matrixUnit c] else []) ++ if k.sw.isEmpty then [] else [.sweepUnit c]

/-- Blocks to release, and watchdogs. -/
def blockActs (s : State) : List Act :=
  s.blocks.flatMap fun (bk, b) =>
    (match b.releaseAt with
    | some t => if t ≤ s.cycle then [.event (.blockRelease bk)] else []
    | none => []) ++
    (match b.preempt with
    | some p => if p.since + max 1 (pdWdog s (s.partOf (tenantOf b.grid))) ≤ s.cycle then [.event (.preemptionTimeout bk)] else []
    | none => [])

/-- Jobs: the next of arrival, dispatch, unit, end. -/
def jobActs (s : State) : List Act :=
  s.dies.flatMap fun (d, x) => x.jobs.flatMap fun (k, j) =>
    if j.status.isSome then [.event (.jobEnd d k)]
    else if j.arrived.isNone then [.event (.jobCardArrival d k)]
    else if j.engine.isSome then (if j.waits.isNone then [.jobUnit d k] else [])
    else (List.range 20).map fun e => .event (.jobDispatch d k e)

/-- Front ends: records to read, headers to check, grids to retire, drains at their deadline. -/
def queueActs (s : State) : List Act :=
  s.queues.flatMap fun (qk, q) =>
    let t := tenantOf qk
    let j := qk % 64
    if q.waits.isSome then []
    else (if q.submits.isEmpty then [] else [.event (.submitAppend t j)]) ++
      (match q.active with
      | some g =>
        if g.due.isSome then [.event (.gridRetire t j)]
        else if g.state = .waiting && g.deps.isEmpty then [.event (.headerCheck t j)]
        else if g.state = .draining && (g.drainAt.getD 0) + pdDrain s (s.partOf t) ≤ s.cycle then [.event (.drainDeadline t j)]
        else []
      | none => [])

/-- Partitions: slices, epochs, switches, commits, masks; their sectors' picks. -/
def partActs (s : State) : List Act :=
  s.parts.flatMap fun (p, x) =>
    (if x.tenant.isSome && !x.switching && x.sliceEnd ≤ s.cycle then [.event (.sliceEnd p)] else []) ++
    (if x.tenant.isSome && !x.switching && x.epochEnd ≤ s.cycle then [.event (.epochEnd p)] else []) ++
    (if x.switching && x.switchTill.isNone then [.event (.switchSequencer p)] else []) ++
    (if x.pending.isSome || s.dev.poolPending then [.event (.commitApply p)] else []) ++
    (if x.featPending then [.event (.featureMaskApply p)] else []) ++
    (if x.shrinkAt.any (· ≤ s.cycle) then [.event (.shrinkDeadline p)] else []) ++
    x.zeroing.map (fun c => Act.event (.channelZeroingDone c)) ++
    ((x.own.quads.map sectorOf).eraseDups.filter fun n => canPick s n p && (s.lantern n).nextPick ≤ s.cycle).map fun n =>
      .event (.lanternPick n)

/-- Functions: invalidations, images to check, requests to serve. -/
def fnActs (s : State) : List Act :=
  s.fns.flatMap (fun (f, x) =>
    (if x.invals.isEmpty then [] else [.event (.invalidationComplete f)]) ++
    (if x.checking.isSome then [.event (.opbelCheckDone f)] else [])) ++
  (match s.dev.mail with
  | (f, op, buf) :: _ => match op with
    | 1 => [.event (.attest f buf)]
    | 2 => [.event (.counters f buf)]
    | 3 => [.event (.clear f buf)]
    | _ => [.event (.extend f buf)]
  | [] => [])

/-- The memory system and the package. -/
def homeActs (s : State) : List Act :=
  (s.contribs.filter fun e => e.2.stuck.isNone).map (fun e => Act.event (.matrixContributionArrival e.1)) ++
  s.dev.moving.map (fun x => Act.event (.pageReclassify x.1 (x.2 * 4096))) ++
  (List.range s.dev.syncs.length).map (fun i => Act.event (.pageSyncSweep i)) ++
  (if s.dev.ticks < s.cycle / 1024 then [.event .logicalClockTick] else []) ++
  (if s.dev.floors < s.cycle / 4096 then [.event (.podFloor (BitVec.ofNat 16 (largestClock s)))] else []) ++
  (match s.sects[s.cycle % max 1 s.sects.length]? with
  | some x => [.event (.ageingSweep x.1)]
  | none => []) ++
  [.event (.scrubGranule (s.cycle % (cores + Config.dies)))]

def candidates (s : State) : List Act :=
  groupActs s ++ unitActs s ++ blockActs s ++ jobActs s ++ queueActs s ++ partActs s ++ fnActs s ++ homeActs s

/-- The turn taken when the agenda is empty: each candidate in turn, one a cycle. -/
def autoTurn (s : State) : Turn :=
  let cs := candidates s
  ⟨1, cs.getD (s.cycle % max 1 cs.length) (.event .logicalClockTick)⟩

/-! What comes before the agenda (02_words.md R68; 12_groups_progress.md R315, R316) -/

/-- The issue of a word that lost a port in an earlier cycle. -/
def replayAct (s : State) (a : Ask) : Option Act :=
  match tlook a.gk s.groups with
  | some g =>
    if !a.begun && a.tried < s.cycle && mayIssue s a.gk g && !g.blocked && slotReady s a.gk g a.slotB then some (.issue a.gk a.slotB false)
    else none
  | none => none

/-- The issue that stands first at a core in this cycle: of the words that replay the one of highest rank, then the words that the free
quadrants choose, from the pointer's quadrant on. -/
def coreDue (s : State) (c : Nat) : Option Act :=
  let k := s.core c
  match topAsk k.port (k.asks.filter fun x => (replayAct s x.2).isSome) with
  | some x => replayAct s x.2
  | none => ((List.range 4).map fun i => (k.port + i) % 4).findSome? fun q =>
      if thas k.asks q then none
      else (chooseGroup s c q).map fun x => .issue x.1 (chooseSlot s x.1 x.2) false

/-- An issue that a core owes to this cycle: a quadrant that can begin a word does. -/
def dueAct (s : State) : Option Act := ((s.groups.map fun e => coreOfGrp e.1).eraseDups).findSome? (coreDue s)

def Act.isIssue : Act → Bool
  | .issue _ _ _ => true
  | _ => false

/-- Whether two acts issue the same word, whether or not it stays outstanding. -/
def Act.same : Act → Act → Bool
  | .issue g b _, .issue h c _ => g = h && b = c
  | _, _ => false

/-- The issue that comes before an issue of the same cycle. -/
def aheadOf (s : State) : Act → Option Act
  | .issue gk b d => (coreDue s (coreOfGrp gk)).filter fun a => !a.same (.issue gk b d)
  | _ => none

/-- Whether each cycle has to be looked at by itself: a group is awake, or a request stands at a port. -/
def busyNow (s : State) : Bool := s.groups.any (fun e => awake s e.1 e.2) || s.cores.any fun e => !e.2.asks.isEmpty

/-- The turn to take (log 2): the agenda's first, or where it is empty the one that `autoTurn` picks. Before time passes every word issues that a
quadrant chooses, and words issue in the order of their rank. -/
def nextTurn (s : State) : Turn × State :=
  match s.agenda with
  | [] => match dueAct s with
    | some a => (⟨0, a⟩, s)
    | none => (autoTurn s, s)
  | t :: rest =>
    if t.dt = 0 then
      match aheadOf s t.act with
      | some a => (⟨0, a⟩, s)
      | none => (t, { s with agenda := rest })
    else match dueAct s with
      | some a => (⟨0, a⟩, s)
      | none =>
        let n := if busyNow s then 1 else t.dt
        if n = t.dt && !t.act.isIssue then (t, { s with agenda := rest })
        else (⟨n, .idle⟩, { s with agenda := { t with dt := t.dt - n } :: rest })

/-! Acts that are no instruction -/

/-- An eviction takes a line that no line of its set stands below (10_memory_ops.md R274). -/
def giveWay (p : Pt) (sec : Nat) : Op Unit := do
  require (mayEvict (← get) p sec)
  evict p sec

/-- A group is not ready for some cycles: its word is being fetched, or reads a result that is still pending (05_lane_scalar_ops.md R125). -/
def holdGroup (gk n : Nat) : Op Unit := do
  let t := (← get).cycle
  modGroup gk fun g => { g with readyAt := max g.readyAt (t + n) }

/-- A copy gives way, a running job or a unit of a core performs a step of its work, a group is held up, or nothing but time passes. -/
def actOp : Act → Op Unit
  | .dropL1 c sec => giveWay (.l1 c) sec
  | .dropQuad q sec => giveWay (.quad q) sec
  | .dropL2 d sec => giveWay (.l2 d) sec
  | .dropHome sec => dropHome sec
  | .dropLine c l => dropLine c l
  | .dropTlb c n => dropTlb c n
  | .jobUnit d k => jobUnit d k
  | .matrixUnit c => matrixStep c
  | .sweepUnit c => sweepStep c
  | .hold gk n => holdGroup gk n
  | .event _ | .issue _ _ _ | .lantern _ | .idle => pure ()

end Sys2Proof.Machine
end

