-- ==== Sys2Proof/Machine/Lanes.lean ====
section
/-! DEFINITION. The effect of an F, FI or P word that works lane by lane (05_lane_scalar_ops.md R122 to R124), and the integer, logic, move, compare and select instructions (R126 to R134). -/

namespace Sys2Proof.Machine

/-- Whether the immediate of an FI word stands for source `i` (03_opcode_map.md R76). -/
def LaneOpImm (op : LaneOp) (i : Nat) : Bool :=
  match op.immType with
  | some (.compare _) => 1 ≤ i
  | _ => i + 1 = op.reads

/-- The value of source `i` of a lane operation in lane l; the immediate of a compare gives B and the condition. -/
def argVal (s : State) (gk : Nat) (g : Group) (op : LaneOp) (args : FArgs) (l i : Nat) : Nat :=
  if op.reads ≤ i then 0
  else
    match args with
    | .reg _ _ _ _ => readSrc s gk g op.wide (op.floatSrc i) (argsPar g.width args) l (args.src i)
    | .imm _ _ x =>
      if LaneOpImm op i then
        (match op.immType with
        | some (.compare _) => if i = 2 then x.toNat % 8 else op.immVal x.toNat
        | _ => op.immVal x.toNat)
      else readSrc s gk g op.wide (op.floatSrc i) (argsPar g.width args) l (args.src i)

/-- The register elements that the sources of a lane operation read for the given lanes. -/
def argElems (w : Nat) (op : LaneOp) (args : FArgs) (ls : List Nat) : List (Nat × Nat) :=
  let n := match args with
    | .reg _ _ _ _ => op.reads
    | .imm _ _ _ => op.immReads
  ls.flatMap fun l => (List.range n).flatMap fun i => srcElems w op.wide (argsPar w args) l (args.src i)

/-- The results of a lane operation for the given lanes. -/
def laneResults (s : State) (gk : Nat) (g : Group) (op : LaneOp) (args : FArgs) (ls : List Nat) : List Res :=
  ls.map fun l => op.eval (argVal s gk g op args l 0) (argVal s gk g op args l 1) (argVal s gk g op args l 2)

/-- An F or FI word of a lane operation (R124): every lane reads before any lane writes (R123). -/
def laneWord (i : Instr) (op : LaneOp) (o : FWord) : Op Unit := do
  legal i
  let m ← activeMask o.pred.toNat
  let s ← get
  let g ← self
  let ls := workLanes g.width o.dst m
  checkElems (argElems g.width op o.args ls)
  let rs := laneResults s s.cur.gk g op o.args ls
  (ls.zip rs).forM fun (l, r) => writeDst op.wide l r.1 o.dst
  countEvents (evsOf rs)

/-- A compare that writes a predicate (R133): bit l of k j for each active lane. -/
def laneCondWord (i : Instr) (op : LaneOp) (k : BitVec 3) (o : FSrc) : Op Unit := do
  legal i
  let m ← activeMask o.pred.toNat
  let s ← get
  let g ← self
  let ls := lanesOf g.width m
  checkElems (argElems g.width op o.args ls)
  let t := (ls.filter fun l =>
    op.cond (argVal s s.cur.gk g op o.args l 0) (argVal s s.cur.gk g op o.args l 1) (argVal s s.cur.gk g op o.args l 2)).foldl
      (fun x l => x ||| (1 : Mask) <<< l) (0 : Mask)
  modSelf fun g => g.setPred k.toNat ((g.pred k.toNat &&& ~~~m) ||| t)

/-- A half's three operands in lane l: its destination is read as C (02_words.md R49). -/
def halfVal (s : State) (gk : Nat) (g : Group) (h : Half) (l : Nat) : Res :=
  h.op.eval (elemAt s gk g h.a.toNat l) (if 2 ≤ h.op.reads then elemAt s gk g h.b.toNat l else 0)
    (if 3 ≤ h.op.reads then elemAt s gk g h.d.toNat l else 0)

/-- A P word (R49): no predicate, both halves read before either writes. -/
def execPairWord (h0 h1 : Half) : State → Host.Outcome State Fault Refusal :=
  runOp do
    legal (.pairWord h0 h1)
    let m ← activeMask 0
    let s ← get
    let g ← self
    let ls := lanesOf g.width m
    checkElems (ls.flatMap fun l => (h0.readRegs ++ h1.readRegs).map fun v => (v.toNat, l))
    let r0 := ls.map (halfVal s s.cur.gk g h0)
    let r1 := ls.map (halfVal s s.cur.gk g h1)
    (ls.zip (r0.zip r1)).forM fun (l, x, y) => do
      setElem s.cur.gk h0.d.toNat l x.1
      setElem s.cur.gk h1.d.toNat l y.1
    countEvents ((evsOf r0).or (evsOf r1))

/-- IADD in every form (R126). -/
def execIadd (l : Bool) (o : FWord) : State → Host.Outcome State Fault Refusal :=
  runOp (laneWord (.iadd l o) (.int .iadd l) o)

/-- ISUB in every form (R126). -/
def execIsub (l : Bool) (o : FWord) : State → Host.Outcome State Fault Refusal :=
  runOp (laneWord (.isub l o) (.int .isub l) o)

/-- IMUL in every form (R126). -/
def execImul (l : Bool) (o : FWord) : State → Host.Outcome State Fault Refusal :=
  runOp (laneWord (.imul l o) (.int .imul l) o)

/-- IMULH in every form (R126). -/
def execImulh (us : Bool) (l : Bool) (o : FWord) : State → Host.Outcome State Fault Refusal :=
  runOp (laneWord (.imulh us l o) (.int (if us then .imulhUs else .imulh) l) o)

/-- IMAD in every form (R126). -/
def execImad (l : Bool) (o : FWord) : State → Host.Outcome State Fault Refusal :=
  runOp (laneWord (.imad l o) (.int .imad l) o)

/-- IMIN in every form (R126). -/
def execImin (us : Bool) (l : Bool) (o : FWord) : State → Host.Outcome State Fault Refusal :=
  runOp (laneWord (.imin us l o) (.int (if us then .iminUs else .imin) l) o)

/-- IMAX in every form (R126). -/
def execImax (us : Bool) (l : Bool) (o : FWord) : State → Host.Outcome State Fault Refusal :=
  runOp (laneWord (.imax us l o) (.int (if us then .imaxUs else .imax) l) o)

/-- IABS in every form (R126). -/
def execIabs (l : Bool) (o : FWord) : State → Host.Outcome State Fault Refusal :=
  runOp (laneWord (.iabs l o) (.int .iabs l) o)

/-- IDIV in every form (R127). -/
def execIdiv (l : Bool) (us : Bool) (o : FWord) : State → Host.Outcome State Fault Refusal :=
  runOp (laneWord (.idiv l us o) (.div false l us) o)

/-- IREM in every form (R127). -/
def execIrem (l : Bool) (us : Bool) (o : FWord) : State → Host.Outcome State Fault Refusal :=
  runOp (laneWord (.irem l us o) (.div true l us) o)

/-- AND in every form (R128). -/
def execAnd (l : Bool) (o : FWord) : State → Host.Outcome State Fault Refusal :=
  runOp (laneWord (.and l o) (.int .and l) o)

/-- OR in every form (R128). -/
def execOr (l : Bool) (o : FWord) : State → Host.Outcome State Fault Refusal :=
  runOp (laneWord (.or l o) (.int .or l) o)

/-- XOR in every form (R128). -/
def execXor (l : Bool) (o : FWord) : State → Host.Outcome State Fault Refusal :=
  runOp (laneWord (.xor l o) (.int .xor l) o)

/-- ANDN in every form (R128). -/
def execAndn (l : Bool) (o : FWord) : State → Host.Outcome State Fault Refusal :=
  runOp (laneWord (.andn l o) (.int .andn l) o)

/-- SHL in every form (R128). -/
def execShl (l : Bool) (o : FWord) : State → Host.Outcome State Fault Refusal :=
  runOp (laneWord (.shl l o) (.int .shl l) o)

/-- SHR in every form (R128). -/
def execShr (l : Bool) (o : FWord) : State → Host.Outcome State Fault Refusal :=
  runOp (laneWord (.shr l o) (.int .shr l) o)

/-- SAR in every form (R128). -/
def execSar (l : Bool) (o : FWord) : State → Host.Outcome State Fault Refusal :=
  runOp (laneWord (.sar l o) (.int .sar l) o)

/-- ROTL in every form (R128). -/
def execRotl (l : Bool) (o : FWord) : State → Host.Outcome State Fault Refusal :=
  runOp (laneWord (.rotl l o) (.int .rotl l) o)

/-- POPC in every form (R128). -/
def execPopc (l : Bool) (o : FWord) : State → Host.Outcome State Fault Refusal :=
  runOp (laneWord (.popc l o) (.int .popc l) o)

/-- CLZ in every form (R128). -/
def execClz (l : Bool) (o : FWord) : State → Host.Outcome State Fault Refusal :=
  runOp (laneWord (.clz l o) (.int .clz l) o)

/-- BREV in every form (R128). -/
def execBrev (l : Bool) (o : FWord) : State → Host.Outcome State Fault Refusal :=
  runOp (laneWord (.brev l o) (.int .brev l) o)

/-- BFX in every form (R129). -/
def execBfx (l : Bool) (us : Bool) (o : FWord) : State → Host.Outcome State Fault Refusal :=
  runOp (laneWord (.bfx l us o) (.bfx l us) o)

/-- BFI in every form (R129). -/
def execBfi (l : Bool) (o : FWord) : State → Host.Outcome State Fault Refusal :=
  runOp (laneWord (.bfi l o) (.bfi l) o)

/-- PRMT in every form (R130). -/
def execPrmt (o : FWord) : State → Host.Outcome State Fault Refusal :=
  runOp (laneWord (.prmt o) .prmt o)

/-- MOV in every form (R131). -/
def execMov (l : Bool) (o : FWord) : State → Host.Outcome State Fault Refusal :=
  runOp (laneWord (.mov l o) (.mov l) o)

/-- LEA in every form (R131). -/
def execLea (l : Bool) (o : FWord) : State → Host.Outcome State Fault Refusal :=
  runOp (laneWord (.lea l o) (.lea l) o)

/-- IDX2 in every form (R131). -/
def execIdx2 (o : FWord) : State → Host.Outcome State Fault Refusal :=
  runOp (laneWord (.idx2 o) .idx2 o)

/-- ICMP in every form (R132, R133). -/
def execIcmp (l : Bool) (us : Bool) (o : FWord) : State → Host.Outcome State Fault Refusal :=
  runOp (laneWord (.icmp l us o) (.icmp l us) o)

/-- SEL in every form (R134). -/
def execSel (l : Bool) (o : FWord) : State → Host.Outcome State Fault Refusal :=
  runOp (laneWord (.sel l o) (.sel l) o)

/-- MOVI (R131): the signed immediate in the operand width. -/
def execMovi (l : Bool) (pred : BitVec 3) (dst : Dst) (imm : BitVec 17) : State → Host.Outcome State Fault Refusal :=
  runOp do
    legal (.movi l pred dst imm)
    let m ← activeMask pred.toNat
    let g ← self
    (workLanes g.width dst m).forM fun x => writeDst l x (wrap (if l then 64 else 32) imm.toInt) dst

/-- MOVH (R131): the immediate over the low half of A. -/
def execMovh (pred : BitVec 3) (dst : Dst) (a : Src) (imm : BitVec 16) : State → Host.Outcome State Fault Refusal :=
  runOp do
    legal (.movh pred dst a imm)
    let m ← activeMask pred.toNat
    let s ← get
    let g ← self
    let ls := workLanes g.width dst m
    let par := g.width.log2
    checkElems (ls.flatMap fun l => srcElems g.width false par l a)
    let rs := ls.map fun l => imm.toNat * 2 ^ 16 + readSrc s s.cur.gk g false none par l a % 2 ^ 16
    (ls.zip rs).forM fun (l, r) => writeDst false l r dst

/-- ICMP.K in every form (R132, R133). -/
def execIcmpK (l us : Bool) (k : BitVec 3) (o : FSrc) : State → Host.Outcome State Fault Refusal :=
  runOp (laneCondWord (.icmpK l us k o) (.icmp l us) k o)

end Sys2Proof.Machine
end

