-- ==== Sys2Proof/Machine/Floats.lean ====
section
/-! DEFINITION. The floating-point instructions (05_lane_scalar_ops.md R132, R133, R135 to R140). -/

namespace Sys2Proof.Machine

/-- FADD in every form (R135). -/
def execFadd (f : Fmt) (o : FWord) : State → Host.Outcome State Fault Refusal :=
  runOp (laneWord (.fadd f o) (.fp .fadd f) o)

/-- FSUB in every form (R135). -/
def execFsub (f : Fmt) (o : FWord) : State → Host.Outcome State Fault Refusal :=
  runOp (laneWord (.fsub f o) (.fp .fsub f) o)

/-- FMUL in every form (R135). -/
def execFmul (f : Fmt) (o : FWord) : State → Host.Outcome State Fault Refusal :=
  runOp (laneWord (.fmul f o) (.fp .fmul f) o)

/-- FFMA in every form (R135). -/
def execFfma (f : Fmt) (o : FWord) : State → Host.Outcome State Fault Refusal :=
  runOp (laneWord (.ffma f o) (.fp .ffma f) o)

/-- FMIN in every form (R136). -/
def execFmin (f : Fmt) (o : FWord) : State → Host.Outcome State Fault Refusal :=
  runOp (laneWord (.fmin f o) (.fp .fmin f) o)

/-- FMAX in every form (R136). -/
def execFmax (f : Fmt) (o : FWord) : State → Host.Outcome State Fault Refusal :=
  runOp (laneWord (.fmax f o) (.fp .fmax f) o)

/-- FRCP in every form (R137). -/
def execFrcp (f : Fmt) (o : FWord) : State → Host.Outcome State Fault Refusal :=
  runOp (laneWord (.frcp f o) (.fu .frcp f) o)

/-- FRSQ in every form (R137). -/
def execFrsq (f : Fmt) (o : FWord) : State → Host.Outcome State Fault Refusal :=
  runOp (laneWord (.frsq f o) (.fu .frsq f) o)

/-- FSQRT in every form (R137). -/
def execFsqrt (f : Fmt) (o : FWord) : State → Host.Outcome State Fault Refusal :=
  runOp (laneWord (.fsqrt f o) (.fu .fsqrt f) o)

/-- FDIV in every form (R137). -/
def execFdiv (f : Fmt) (o : FWord) : State → Host.Outcome State Fault Refusal :=
  runOp (laneWord (.fdiv f o) (.fu .fdiv f) o)

/-- FEX2 in every form (R137). -/
def execFex2 (f : Fmt) (o : FWord) : State → Host.Outcome State Fault Refusal :=
  runOp (laneWord (.fex2 f o) (.fu .fex2 f) o)

/-- FLG2 in every form (R137). -/
def execFlg2 (f : Fmt) (o : FWord) : State → Host.Outcome State Fault Refusal :=
  runOp (laneWord (.flg2 f o) (.fu .flg2 f) o)

/-- FSIN in every form (R137). -/
def execFsin (f : Fmt) (o : FWord) : State → Host.Outcome State Fault Refusal :=
  runOp (laneWord (.fsin f o) (.fu .fsin f) o)

/-- FCOS in every form (R137). -/
def execFcos (f : Fmt) (o : FWord) : State → Host.Outcome State Fault Refusal :=
  runOp (laneWord (.fcos f o) (.fu .fcos f) o)

/-- FLDX in every form (R138). -/
def execFldx (f : Fmt) (o : FWord) : State → Host.Outcome State Fault Refusal :=
  runOp (laneWord (.fldx f o) (.fldx f) o)

/-- FCMP in every form (R132, R133). -/
def execFcmp (f : Fmt) (o : FWord) : State → Host.Outcome State Fault Refusal :=
  runOp (laneWord (.fcmp f o) (.fcmp f) o)

/-- FCLS in every form (R140). -/
def execFcls (f : Fmt) (o : FWord) : State → Host.Outcome State Fault Refusal :=
  runOp (laneWord (.fcls f o) (.fcls f) o)

/-- FCMP.K in every format (R132, R133). -/
def execFcmpK (f : Fmt) (k : BitVec 3) (o : FSrc) : State → Host.Outcome State Fault Refusal :=
  runOp (laneCondWord (.fcmpK f k o) (.fcmp f) k o)

/-- A word that reads source A alone, lane by lane, beside a mode field (R122): `wa` and `wd` say whether A and
the result have 64 bits, `f` is A's floating format. -/
def modeWord (i : Instr) (wa wd : Bool) (f : Option Fmt) (o : FMode) (r : Nat → Res) : Op Unit := do
  legal i
  let m ← activeMask o.pred.toNat
  let s ← get
  let g ← self
  let ls := workLanes g.width o.dst m
  checkElems (ls.flatMap fun l => srcElems g.width wa o.par.toNat l o.a)
  let rs := ls.map fun l => r (readSrc s s.cur.gk g wa f o.par.toNat l o.a)
  (ls.zip rs).forM fun (l, x) => writeDst wd l x.1 o.dst
  countEvents (evsOf rs)

/-- FRND (R139). -/
def execFrnd (f : Fmt) (rm : Rm) (o : FMode) : State → Host.Outcome State Fault Refusal :=
  runOp (modeWord (.frnd f rm o) (f == .d) (f == .d) (some f) o (frndFmt f rm))

end Sys2Proof.Machine
end

