-- ==== Sys2Proof/Machine/LaneCross.lean ====
section
/-! DEFINITION. Lane-crossing, conversion and quantisation instructions (05_lane_scalar_ops.md R141 to R144; 06_sweep_quantise.md R156 to R167). -/

namespace Sys2Proof.Machine

/-- LSHFL (R142): lane l receives A at lane b mod W. -/
def execLshfl (o : FWord) : State → Host.Outcome State Fault Refusal :=
  runOp do
    legal (.lshfl o)
    let m ← activeMask o.pred.toNat
    let s ← get
    let g ← self
    let gk := s.cur.gk
    let ls := workLanes g.width o.dst m
    let par := argsPar g.width o.args
    let at' (l : Nat) : Nat := readSrc s gk g false none par l (o.args.src 1) % g.width
    checkElems (ls.flatMap fun l => srcElems g.width false par l (o.args.src 1))
    checkElems (ls.flatMap fun l => srcElems g.width false par (at' l) (o.args.src 0))
    let rs := ls.map fun l => readSrc s gk g false none par (at' l) (o.args.src 0)
    (ls.zip rs).forM fun (l, r) => writeDst false l r o.dst

/-- The values of source A in the active lanes; an inline constant is in the floating column where a format is given. -/
def activeVals (wide : Bool) (f : Option Fmt) (o : FMode) (ls : List Nat) : Op (List Nat) := do
  let s ← get
  let g ← self
  checkElems (ls.flatMap fun l => srcElems g.width wide o.par.toNat l o.a)
  return ls.map fun l => readSrc s s.cur.gk g wide f o.par.toNat l o.a

/-- What LVOTE writes to lane l (R143): V is the mask of votes. -/
def voteVal (v : Vote) (w : Nat) (votes active : Mask) (scalar : Bool) (l : Nat) : Nat :=
  match v with
  | .ballot =>
    if scalar then votes.toNat
    else bits votes.toNat (32 * (l % max 1 (w / 32)) + 31) (32 * (l % max 1 (w / 32)))
  | .any => b2n (votes != 0)
  | .all => b2n (votes == active)
  | .count => laneCount w votes

/-- LVOTE (R143). -/
def execLvote (v : Vote) (o : FMode) : State → Host.Outcome State Fault Refusal :=
  runOp do
    legal (.lvote v o)
    let m ← activeMask o.pred.toNat
    let g ← self
    let ls := lanesOf g.width m
    let xs ← activeVals false none o ls
    let votes := (ls.zip xs).foldl (fun x (l, a) => if a = 0 then x else x ||| (1 : Mask) <<< l) (0 : Mask)
    (workLanes g.width o.dst m).forM fun l =>
      writeDst false l (voteVal v g.width votes m (!o.dst.isLane) l) o.dst

/-- The operation of a scan as the lane operation it computes (R144). -/
def scanLaneOp (op : ScanOp) (l : Bool) : LaneOp :=
  match op with
  | .add => .int .iadd l
  | .min => .int .imin l
  | .minu => .int .iminUs l
  | .max => .int .imax l
  | .maxu => .int .imaxUs l
  | .and => .int .and l
  | .or => .int .or l
  | .xor => .int .xor l
  | .fadd => .fp .fadd (if l then .d else .s)
  | .fmin => .fp .fmin (if l then .d else .s)
  | .fmax => .fp .fmax (if l then .d else .s)

/-- Floating-point scans write a NaN as the canonical NaN (R144, R110). -/
def scanOut (op : ScanOp) (l : Bool) (x : Nat) : Nat :=
  match op with
  | .fadd | .fmin | .fmax =>
    let f : NF := if l then .f64 else .f32
    if (fdec f x).isNan then f.nanCode else x
  | _ => x

/-- The identity that the first active lane of an exclusive scan receives (R144). -/
def scanIdent (op : ScanOp) (l : Bool) : Nat :=
  let n := if l then 64 else 32
  match op with
  | .add | .maxu | .or | .xor => 0
  | .min => 2 ^ (n - 1) - 1
  | .minu | .and => 2 ^ n - 1
  | .max => 2 ^ (n - 1)
  | .fadd => 2 ^ (n - 1)
  | .fmin => if l then 0x7FF0000000000000 else 0x7F800000
  | .fmax => if l then 0xFFF0000000000000 else 0xFF800000

/-- Inclusive values with their events, in ascending lane order (R144). -/
def scanFrom (op : LaneOp) : Res → List Nat → List Res
  | acc, [] => [acc]
  | acc, x :: xs =>
    let r := op.eval acc.1 x 0
    acc :: scanFrom op (r.1, acc.2.or r.2) xs

def scanVals (op : LaneOp) : List Nat → List Res
  | [] => []
  | x :: xs => scanFrom op (x, .none) xs

/-- LSCAN (R144); a scalar destination receives the final value. -/
def execLscan (l : Bool) (op : ScanOp) (excl : Bool) (o : FMode) : State → Host.Outcome State Fault Refusal :=
  runOp do
    legal (.lscan l op excl o)
    let m ← activeMask o.pred.toNat
    let g ← self
    let ls := lanesOf g.width m
    let xs ← activeVals l ((scanLaneOp op l).floatSrc 0) o ls
    let rs := scanVals (scanLaneOp op l) xs
    let last := rs.getLastD (0, .none)
    if o.dst.isLane then
      let outs := if excl then scanIdent op l :: rs.map (·.1) else rs.map (·.1)
      (ls.zip outs).forM fun (n, x) => writeDst l n (scanOut op l x) o.dst
    else (workLanes g.width o.dst m).forM fun n => writeDst l n (scanOut op l last.1) o.dst
    countEvents last.2

/-- LRED (R144): every active lane, or the scalar destination, receives the final value. -/
def execLred (l : Bool) (op : ScanOp) (o : FMode) : State → Host.Outcome State Fault Refusal :=
  runOp do
    legal (.lred l op o)
    let m ← activeMask o.pred.toNat
    let g ← self
    let xs ← activeVals l ((scanLaneOp op l).floatSrc 0) o (lanesOf g.width m)
    let last := (scanVals (scanLaneOp op l) xs).getLastD (0, .none)
    (workLanes g.width o.dst m).forM fun n => writeDst l n (scanOut op l last.1) o.dst
    countEvents last.2

/-! Conversion -/

/-- An inline constant as the source of a conversion from a format (02_words.md R40). -/
def convConst (src : NumFmt) (i : Nat) : Nat :=
  match src.kind with
  | .inl f => (fround f .rne (constReal i)).code
  | .inr n => constInt (if n = 64 then 64 else 32) i

/-- The source of a conversion in lane l. -/
def convSrc (s : State) (gk : Nat) (g : Group) (src : NumFmt) (par l : Nat) (a : Src) : Nat :=
  match a with
  | .const i => convConst src i.toNat
  | _ => readSrc s gk g src.wide none par l a

/-- CVT (R156, R157). -/
def execCvt (src dst : NumFmt) (rm : Rm) (us : Bool) (o : FMode) : State → Host.Outcome State Fault Refusal :=
  runOp do
    legal (.cvt src dst rm us o)
    let m ← activeMask o.pred.toNat
    let s ← get
    let g ← self
    let ls := workLanes g.width o.dst m
    checkElems (ls.flatMap fun l => srcElems g.width src.wide o.par.toNat l o.a)
    let rs := ls.map fun l => cvtEval src dst rm us (convSrc s s.cur.gk g src o.par.toNat l o.a)
    (ls.zip rs).forM fun (l, x) => writeDst dst.wide l x.1 o.dst
    countEvents (evsOf rs)

/-- CVTS (R158): source C gives the element index. -/
def execCvts (src dst : NumFmt) (o : FMode) (c : Src) : State → Host.Outcome State Fault Refusal :=
  runOp do
    legal (.cvts src dst o c)
    let m ← activeMask o.pred.toNat
    let s ← get
    let g ← self
    let gk := s.cur.gk
    let ls := workLanes g.width o.dst m
    checkElems (ls.flatMap fun l =>
      srcElems g.width src.wide o.par.toNat l o.a ++ srcElems g.width false o.par.toNat l c)
    let rs := ls.map fun l => cvtsEval src dst g.seed.toNat (readSrc s gk g false none o.par.toNat l c)
      (convSrc s gk g src o.par.toNat l o.a)
    (ls.zip rs).forM fun (l, x) => writeDst dst.wide l x.1 o.dst
    countEvents (evsOf rs)

/-! Quantisation -/

/-- QSEED (R159): per group, once when a lane is active. -/
def execQseed (pred : BitVec 3) (a : SArg) : State → Host.Outcome State Fault Refusal :=
  runOp do
    legal (.qseed pred a)
    let m ← activeMask pred.toNat
    if m = 0 then finish
    modSelf fun g => { g with seed := match a with
      | .sreg r => g.scalar r.toNat
      | .const i => BitVec.ofNat 64 (constInt 64 i.toNat) }

/-- The first lanes of the blocks of 32 lanes (R160). -/
def blockLanes (w : Nat) : List Nat := (List.range (w / 32)).map (32 * ·)

/-- The FP32 values of source A in the 32 lanes from L on, active or not (R160). -/
def blockVals (s : State) (gk : Nat) (g : Group) (par : Nat) (a : Src) (first n : Nat) : List FVal :=
  (List.range n).map fun i => fdec .f32 (readSrc s gk g false (some .s) par (first + i) a)

/-- Write values to consecutive lanes from `first` on, active lanes alone (R160). -/
def writeLanes (d : Dst) (m : Mask) (first : Nat) (xs : List Nat) : Op Unit :=
  xs.zipIdx.forM fun (x, i) => if m.getLsbD (first + i) then writeDst false (first + i) x d else pure ()

/-- Every lane's elements of the given sources (R160). -/
def checkAll (par : Nat) (srcs : List Src) : Op Unit := do
  let g ← self
  checkElems ((List.range g.width).flatMap fun l => srcs.flatMap fun a => srcElems g.width false par l a)

/-- QSCL (R163). The events of every block count, also of one without active lanes, where some lane is active (log 92). -/
def execQscl (f : BlkFmt) (o : FMode) : State → Host.Outcome State Fault Refusal :=
  runOp do
    legal (.qscl f o)
    let m ← activeMask o.pred.toNat
    if m = 0 then finish
    let s ← get
    let g ← self
    checkAll o.par.toNat [o.a]
    let rs := (blockLanes g.width).map fun first =>
      (first, qsclEval f (blockVals s s.cur.gk g o.par.toNat o.a first 32))
    rs.forM fun (first, r) => writeLanes o.dst m first (List.replicate 32 r.1)
    countEvents (evsOf (rs.map (·.2)))

/-- The side word of a block: source B at its first lane (R161). -/
def sideWord (s : State) (gk : Nat) (g : Group) (args : FArgs) (first : Nat) : Nat :=
  readSrc s gk g false none (argsPar g.width args) first (args.src 1)

/-- A word that packs each block with the scale of its side word (R164, R165). -/
def packWord (i : Instr) (o : FWord) (f : Nat → List FVal → List Nat × Ev) : Op Unit := do
  legal i
  let m ← activeMask o.pred.toNat
  if m = 0 then finish
  let s ← get
  let g ← self
  let par := argsPar g.width o.args
  checkAll par [o.args.src 0, o.args.src 1]
  let rs := (blockLanes g.width).map fun first =>
    (first, f (bits (sideWord s s.cur.gk g o.args first) 15 8) (blockVals s s.cur.gk g par (o.args.src 0) first 32))
  rs.forM fun (first, r) => writeLanes o.dst m first r.1
  countEvents (rs.foldl (fun e r => e.or r.2.2) .none)

/-- QPK4 (R164). -/
def execQpk4 (o : FWord) : State → Host.Outcome State Fault Refusal :=
  runOp (packWord (.qpk4 o) o qpk4Eval)

/-- QPK8 (R165). -/
def execQpk8 (e5 : Bool) (o : FWord) : State → Host.Outcome State Fault Refusal :=
  runOp (packWord (.qpk8 e5 o) o (qpk8Eval e5))

/-- Code `i` of a block packed from lane `first` on (R166). -/
def packedCode (s : State) (gk : Nat) (g : Group) (par : Nat) (a : Src) (f : BlkFmt) (first i : Nat) : Nat :=
  let per := if f = .z4 then 8 else 4
  let w := 32 / per
  readSrc s gk g false none par (first + i / per) a / 2 ^ (w * (i % per)) % 2 ^ w

/-- QUNP (R166). -/
def execQunp (f : BlkFmt) (o : FWord) : State → Host.Outcome State Fault Refusal :=
  runOp do
    legal (.qunp f o)
    let m ← activeMask o.pred.toNat
    if m = 0 then finish
    let s ← get
    let g ← self
    let gk := s.cur.gk
    let par := argsPar g.width o.args
    checkAll par [o.args.src 0, o.args.src 1]
    let rs := (blockLanes g.width).map fun first =>
      let w := sideWord s gk g o.args first
      (first, (List.range 32).map fun i =>
        qunpEval f (bits w 15 8) (bits w 7 0) (packedCode s gk g par (o.args.src 0) f first i))
    rs.forM fun (first, xs) => writeLanes o.dst m first (xs.map (·.1))
    countEvents (rs.foldl (fun e r => e.or (evsOf r.2)) .none)

/-- QHAD (R167): segments of n lanes; C gives the position of lane 0. -/
def execQhad (n : BitVec 2) (inv : Bool) (o : FMode) (c : SArg) : State → Host.Outcome State Fault Refusal :=
  runOp do
    legal (.qhad n inv o c)
    let m ← activeMask o.pred.toNat
    if m = 0 then finish
    let s ← get
    let g ← self
    let len := hadLen n
    let p0 := (match c with
      | .sreg r => (g.scalar r.toNat).toNat
      | .const i => constInt 64 i.toNat) % 2 ^ 32
    checkAll o.par.toNat [o.a]
    let rs := (List.range (g.width / len)).map fun t =>
      (t * len, qhadEval len inv g.seed.toNat (p0 + t * len) (blockVals s s.cur.gk g o.par.toNat o.a (t * len) len))
    rs.forM fun (first, xs) => writeLanes o.dst m first (xs.map (·.1))
    countEvents (rs.foldl (fun e r => e.or (evsOf r.2)) .none)

end Sys2Proof.Machine
end

