-- ==== Sys2Proof/Machine/Dispatch.lean ====
section
/-! DEFINITION. The dispatch of an instruction to its meaning, one arm for each row of the opcode table. -/

namespace Sys2Proof.Machine

/-- What an instruction or an event of the machine does. -/
def exec (i : Instr) (s : State) : Host.Outcome State Fault Refusal :=
  match i with
  | .pairWord h0 h1 => Sys2Proof.Machine.execPairWord h0 h1 s
  | .iadd l o => Sys2Proof.Machine.execIadd l o s
  | .isub l o => Sys2Proof.Machine.execIsub l o s
  | .imul l o => Sys2Proof.Machine.execImul l o s
  | .imulh us l o => Sys2Proof.Machine.execImulh us l o s
  | .imad l o => Sys2Proof.Machine.execImad l o s
  | .imin us l o => Sys2Proof.Machine.execImin us l o s
  | .imax us l o => Sys2Proof.Machine.execImax us l o s
  | .iabs l o => Sys2Proof.Machine.execIabs l o s
  | .idiv l us o => Sys2Proof.Machine.execIdiv l us o s
  | .irem l us o => Sys2Proof.Machine.execIrem l us o s
  | .and l o => Sys2Proof.Machine.execAnd l o s
  | .or l o => Sys2Proof.Machine.execOr l o s
  | .xor l o => Sys2Proof.Machine.execXor l o s
  | .andn l o => Sys2Proof.Machine.execAndn l o s
  | .shl l o => Sys2Proof.Machine.execShl l o s
  | .shr l o => Sys2Proof.Machine.execShr l o s
  | .sar l o => Sys2Proof.Machine.execSar l o s
  | .rotl l o => Sys2Proof.Machine.execRotl l o s
  | .popc l o => Sys2Proof.Machine.execPopc l o s
  | .clz l o => Sys2Proof.Machine.execClz l o s
  | .brev l o => Sys2Proof.Machine.execBrev l o s
  | .bfx l us o => Sys2Proof.Machine.execBfx l us o s
  | .bfi l o => Sys2Proof.Machine.execBfi l o s
  | .prmt o => Sys2Proof.Machine.execPrmt o s
  | .mov l o => Sys2Proof.Machine.execMov l o s
  | .movi l pred dst imm => Sys2Proof.Machine.execMovi l pred dst imm s
  | .movh pred dst a imm => Sys2Proof.Machine.execMovh pred dst a imm s
  | .lea l o => Sys2Proof.Machine.execLea l o s
  | .idx2 o => Sys2Proof.Machine.execIdx2 o s
  | .icmp l us o => Sys2Proof.Machine.execIcmp l us o s
  | .icmpK l us k o => Sys2Proof.Machine.execIcmpK l us k o s
  | .sel l o => Sys2Proof.Machine.execSel l o s
  | .fadd f o => Sys2Proof.Machine.execFadd f o s
  | .fsub f o => Sys2Proof.Machine.execFsub f o s
  | .fmul f o => Sys2Proof.Machine.execFmul f o s
  | .ffma f o => Sys2Proof.Machine.execFfma f o s
  | .fmin f o => Sys2Proof.Machine.execFmin f o s
  | .fmax f o => Sys2Proof.Machine.execFmax f o s
  | .frcp f o => Sys2Proof.Machine.execFrcp f o s
  | .frsq f o => Sys2Proof.Machine.execFrsq f o s
  | .fsqrt f o => Sys2Proof.Machine.execFsqrt f o s
  | .fdiv f o => Sys2Proof.Machine.execFdiv f o s
  | .fex2 f o => Sys2Proof.Machine.execFex2 f o s
  | .flg2 f o => Sys2Proof.Machine.execFlg2 f o s
  | .fsin f o => Sys2Proof.Machine.execFsin f o s
  | .fcos f o => Sys2Proof.Machine.execFcos f o s
  | .fldx f o => Sys2Proof.Machine.execFldx f o s
  | .frnd f rm o => Sys2Proof.Machine.execFrnd f rm o s
  | .fcmp f o => Sys2Proof.Machine.execFcmp f o s
  | .fcmpK f k o => Sys2Proof.Machine.execFcmpK f k o s
  | .fcls f o => Sys2Proof.Machine.execFcls f o s
  | .lshfl o => Sys2Proof.Machine.execLshfl o s
  | .lvote m o => Sys2Proof.Machine.execLvote m o s
  | .lscan l op excl o => Sys2Proof.Machine.execLscan l op excl o s
  | .lred l op o => Sys2Proof.Machine.execLred l op o s
  | .cvt src dst rm us o => Sys2Proof.Machine.execCvt src dst rm us o s
  | .cvts src dst o c => Sys2Proof.Machine.execCvts src dst o c s
  | .qseed pred a => Sys2Proof.Machine.execQseed pred a s
  | .qscl f o => Sys2Proof.Machine.execQscl f o s
  | .qpk4 o => Sys2Proof.Machine.execQpk4 o s
  | .qpk8 e5 o => Sys2Proof.Machine.execQpk8 e5 o s
  | .qunp f o => Sys2Proof.Machine.execQunp f o s
  | .qhad n inv o c => Sys2Proof.Machine.execQhad n inv o c s
  | .swadd o => Sys2Proof.Machine.execSwadd o s
  | .swmul o => Sys2Proof.Machine.execSwmul o s
  | .swfma o => Sys2Proof.Machine.execSwfma o s
  | .swmax o => Sys2Proof.Machine.execSwmax o s
  | .swmin o => Sys2Proof.Machine.execSwmin o s
  | .swcvt o => Sys2Proof.Machine.execSwcvt o s
  | .swexp o => Sys2Proof.Machine.execSwexp o s
  | .swsum o => Sys2Proof.Machine.execSwsum o s
  | .swcpy o => Sys2Proof.Machine.execSwcpy o s
  | .swset o => Sys2Proof.Machine.execSwset o s
  | .ld z sx o => Sys2Proof.Machine.execLd z sx o s
  | .st z o => Sys2Proof.Machine.execSt z o s
  | .ldp z sx o => Sys2Proof.Machine.execLdp z sx o s
  | .stp z o => Sys2Proof.Machine.execStp z o s
  | .pref o => Sys2Proof.Machine.execPref o s
  | .wb o => Sys2Proof.Machine.execWb o s
  | .inv o => Sys2Proof.Machine.execInv o s
  | .fence o => Sys2Proof.Machine.execFence o s
  | .wsig d o => Sys2Proof.Machine.execWsig d o s
  | .waitln o => Sys2Proof.Machine.execWaitln o s
  | .aadd d o => Sys2Proof.Machine.execAadd d o s
  | .amin us d o => Sys2Proof.Machine.execAmin us d o s
  | .amax us d o => Sys2Proof.Machine.execAmax us d o s
  | .aand d o => Sys2Proof.Machine.execAand d o s
  | .aor d o => Sys2Proof.Machine.execAor d o s
  | .axor d o => Sys2Proof.Machine.execAxor d o s
  | .axch d o => Sys2Proof.Machine.execAxch d o s
  | .acas d o => Sys2Proof.Machine.execAcas d o s
  | .acasQ o => Sys2Proof.Machine.execAcasQ o s
  | .ainc d o => Sys2Proof.Machine.execAinc d o s
  | .afadd f o => Sys2Proof.Machine.execAfadd f o s
  | .redAdd d o => Sys2Proof.Machine.execRedAdd d o s
  | .redMin us d o => Sys2Proof.Machine.execRedMin us d o s
  | .redMax us d o => Sys2Proof.Machine.execRedMax us d o s
  | .redAnd d o => Sys2Proof.Machine.execRedAnd d o s
  | .redOr d o => Sys2Proof.Machine.execRedOr d o s
  | .redXor d o => Sys2Proof.Machine.execRedXor d o s
  | .redInc d o => Sys2Proof.Machine.execRedInc d o s
  | .redFadd f o => Sys2Proof.Machine.execRedFadd f o s
  | .topen o => Sys2Proof.Machine.execTopen o s
  | .tacqR o => Sys2Proof.Machine.execTacqR o s
  | .tacqW o => Sys2Proof.Machine.execTacqW o s
  | .trel o => Sys2Proof.Machine.execTrel o s
  | .tsplit o => Sys2Proof.Machine.execTsplit o s
  | .tjoin o => Sys2Proof.Machine.execTjoin o s
  | .tclose o => Sys2Proof.Machine.execTclose o s
  | .tqry o => Sys2Proof.Machine.execTqry o s
  | .cpy o => Sys2Proof.Machine.execCpy o s
  | .gath o => Sys2Proof.Machine.execGath o s
  | .scat o => Sys2Proof.Machine.execScat o s
  | .coll o => Sys2Proof.Machine.execColl o s
  | .ftst o => Sys2Proof.Machine.execFtst o s
  | .fwt o => Sys2Proof.Machine.execFwt o s
  | .fcan o => Sys2Proof.Machine.execFcan o s
  | .mma f o => Sys2Proof.Machine.execMma f o s
  | .mmsp f o => Sys2Proof.Machine.execMmsp f o s
  | .mzero o => Sys2Proof.Machine.execMzero o s
  | .mcfg o => Sys2Proof.Machine.execMcfg o s
  | .mres sparse o => Sys2Proof.Machine.execMres sparse o s
  | .bra target => Sys2Proof.Machine.execBra target s
  | .brc p neg join target => Sys2Proof.Machine.execBrc p neg join target s
  | .jtbl p idx tb join count => Sys2Proof.Machine.execJtbl p idx tb join count s
  | .call link target => Sys2Proof.Machine.execCall link target s
  | .ret a => Sys2Proof.Machine.execRet a s
  | .join => Sys2Proof.Machine.execJoin s
  | .loopb c target => Sys2Proof.Machine.execLoopb c target s
  | .exit p => Sys2Proof.Machine.execExit p s
  | .idem mask => Sys2Proof.Machine.execIdem mask s
  | .nop p => Sys2Proof.Machine.execNop p s
  | .ipref p lines target => Sys2Proof.Machine.execIpref p lines target s
  | .bara p lvl i1 => Sys2Proof.Machine.execBara p lvl i1 s
  | .barw p lvl i1 => Sys2Proof.Machine.execBarw p lvl i1 s
  | .bars p lvl i1 => Sys2Proof.Machine.execBars p lvl i1 s
  | .qbind p q e => Sys2Proof.Machine.execQbind p q e s
  | .qclose p q => Sys2Proof.Machine.execQclose p q s
  | .qstat p d q => Sys2Proof.Machine.execQstat p d q s
  | .queuePush p q src => Sys2Proof.Machine.execQueuePush p q src s
  | .queuePop p dst q => Sys2Proof.Machine.execQueuePop p dst q s
  | .yield p n => Sys2Proof.Machine.execYield p n s
  | .trap p code => Sys2Proof.Machine.execTrap p code s
  | .bkpt p code => Sys2Proof.Machine.execBkpt p code s
  | .svc p d a service => Sys2Proof.Machine.execSvc p d a service s
  | .pagesync p d a => Sys2Proof.Machine.execPagesync p d a s
  | .rdsr p dst num => Sys2Proof.Machine.execRdsr p dst num s
  | .wrsr p num src => Sys2Proof.Machine.execWrsr p num src s
  | .resume p src => Sys2Proof.Machine.execResume p src s
  | .abort p src => Sys2Proof.Machine.execAbort p src s
  | .rdct p d c => Sys2Proof.Machine.execRdct p d c s
  | .launch p dst base idx => Sys2Proof.Machine.execLaunch p dst base idx s
  | .quotaGive p n => Sys2Proof.Machine.execQuotaGive p n s
  | .quotaTake p n => Sys2Proof.Machine.execQuotaTake p n s
  | .isync p => Sys2Proof.Machine.execIsync p s
  | .beamLdi d i1 => Sys2Proof.Machine.execBeamLdi d i1 s
  | .beamMov d a => Sys2Proof.Machine.execBeamMov d a s
  | .beamAdd d a x => Sys2Proof.Machine.execBeamAdd d a x s
  | .beamSub d a x => Sys2Proof.Machine.execBeamSub d a x s
  | .beamMul d a x => Sys2Proof.Machine.execBeamMul d a x s
  | .beamAnd d a x => Sys2Proof.Machine.execBeamAnd d a x s
  | .beamOr d a x => Sys2Proof.Machine.execBeamOr d a x s
  | .beamXor d a x => Sys2Proof.Machine.execBeamXor d a x s
  | .beamShl d a x => Sys2Proof.Machine.execBeamShl d a x s
  | .beamShr d a x => Sys2Proof.Machine.execBeamShr d a x s
  | .beamMin d a x => Sys2Proof.Machine.execBeamMin d a x s
  | .beamMax d a x => Sys2Proof.Machine.execBeamMax d a x s
  | .beamClt d a x => Sys2Proof.Machine.execBeamClt d a x s
  | .beamCeq d a x => Sys2Proof.Machine.execBeamCeq d a x s
  | .beamBf a f => Sys2Proof.Machine.execBeamBf a f s
  | .beamJf f => Sys2Proof.Machine.execBeamJf f s
  | .beamLoop n => Sys2Proof.Machine.execBeamLoop n s
  | .beamEndl => Sys2Proof.Machine.execBeamEndl s
  | .beamCtr d a c => Sys2Proof.Machine.execBeamCtr d a c s
  | .beamMrd d a x => Sys2Proof.Machine.execBeamMrd d a x s
  | .beamMwr d a x => Sys2Proof.Machine.execBeamMwr d a x s
  | .beamDec d => Sys2Proof.Machine.execBeamDec d s
  | .beamRet => Sys2Proof.Machine.execBeamRet s
  | .trapEntry g => Sys2Proof.Machine.execTrapEntry g s
  | .longLatencyComplete g id => Sys2Proof.Machine.execLongLatencyComplete g id s
  | .coreClockGate core => Sys2Proof.Machine.execCoreClockGate core s
  | .yieldExpire g => Sys2Proof.Machine.execYieldExpire g s
  | .waitlnTimeout g => Sys2Proof.Machine.execWaitlnTimeout g s
  | .logicalClockTick => Sys2Proof.Machine.execLogicalClockTick s
  | .podFloor largest => Sys2Proof.Machine.execPodFloor largest s
  | .ageingSweep sector => Sys2Proof.Machine.execAgeingSweep sector s
  | .pageReclassify tenant va => Sys2Proof.Machine.execPageReclassify tenant va s
  | .pageSyncSweep id => Sys2Proof.Machine.execPageSyncSweep id s
  | .tableWalk die tenant va acc => Sys2Proof.Machine.execTableWalk die tenant va acc s
  | .matrixContributionArrival id => Sys2Proof.Machine.execMatrixContributionArrival id s
  | .jobCardArrival die slot => Sys2Proof.Machine.execJobCardArrival die slot s
  | .jobDispatch die slot engine => Sys2Proof.Machine.execJobDispatch die slot engine s
  | .jobEnd die slot => Sys2Proof.Machine.execJobEnd die slot s
  | .scrubGranule store => Sys2Proof.Machine.execScrubGranule store s
  | .qsubmit tenant queue v => Sys2Proof.Machine.execQsubmit tenant queue v s
  | .submitAppend tenant queue => Sys2Proof.Machine.execSubmitAppend tenant queue s
  | .headerCheck tenant queue => Sys2Proof.Machine.execHeaderCheck tenant queue s
  | .lanternPick sector => Sys2Proof.Machine.execLanternPick sector s
  | .blockRelease place => Sys2Proof.Machine.execBlockRelease place s
  | .lanternBlock sector tenant queue => Sys2Proof.Machine.execLanternBlock sector tenant queue s
  | .sliceEnd part => Sys2Proof.Machine.execSliceEnd part s
  | .epochEnd part => Sys2Proof.Machine.execEpochEnd part s
  | .drainDeadline tenant queue => Sys2Proof.Machine.execDrainDeadline tenant queue s
  | .preemptionTimeout place => Sys2Proof.Machine.execPreemptionTimeout place s
  | .shrinkDeadline part => Sys2Proof.Machine.execShrinkDeadline part s
  | .switchSequencer part => Sys2Proof.Machine.execSwitchSequencer part s
  | .gridRetire tenant queue => Sys2Proof.Machine.execGridRetire tenant queue s
  | .qgridAbort tenant queue => Sys2Proof.Machine.execQgridAbort tenant queue s
  | .lnload fn v => Sys2Proof.Machine.execLnload fn v s
  | .lnloadUnload fn point => Sys2Proof.Machine.execLnloadUnload fn point s
  | .opbelCheckDone fn => Sys2Proof.Machine.execOpbelCheckDone fn s
  | .pdmoorWrite part v => Sys2Proof.Machine.execPdmoorWrite part v s
  | .tdpartWrite tenant v => Sys2Proof.Machine.execTdpartWrite tenant v s
  | .hvMooringAccess word w => Sys2Proof.Machine.execHvMooringAccess word w s
  | .commit part => Sys2Proof.Machine.execCommit part s
  | .commitApply part => Sys2Proof.Machine.execCommitApply part s
  | .channelZeroingDone channel => Sys2Proof.Machine.execChannelZeroingDone channel s
  | .featureMaskApply part => Sys2Proof.Machine.execFeatureMaskApply part s
  | .tds2inv tenant v => Sys2Proof.Machine.execTds2inv tenant v s
  | .tlbinv tenant v => Sys2Proof.Machine.execTlbinv tenant v s
  | .invalidationComplete fn => Sys2Proof.Machine.execInvalidationComplete fn s
  | .fqrespResolve fn id => Sys2Proof.Machine.execFqrespResolve fn id s
  | .fqrespFail fn id => Sys2Proof.Machine.execFqrespFail fn id s
  | .attest fn buf => Sys2Proof.Machine.execAttest fn buf s
  | .counters fn buf => Sys2Proof.Machine.execCounters fn buf s
  | .clear fn buf => Sys2Proof.Machine.execClear fn buf s
  | .extend fn buf => Sys2Proof.Machine.execExtend fn buf s
  | .debugRead fn => Sys2Proof.Machine.execDebugRead fn s
  | .debugWrite fn => Sys2Proof.Machine.execDebugWrite fn s
  | .debugRelease g => Sys2Proof.Machine.execDebugRelease g s
  | .registerWrite fn off v => Sys2Proof.Machine.execRegisterWrite fn off v s
  | .coldReset => Sys2Proof.Machine.execColdReset s
  | .warmReset => Sys2Proof.Machine.execWarmReset s
  | .packageReset => Sys2Proof.Machine.execPackageReset s
  | .vfFlr tenant => Sys2Proof.Machine.execVfFlr tenant s
  | .bootRomVerify image version => Sys2Proof.Machine.execBootRomVerify image version s
  | .serviceFirmwareVerify image version => Sys2Proof.Machine.execServiceFirmwareVerify image version s
  | .serviceBringup failed => Sys2Proof.Machine.execServiceBringup failed s
  | .d3hotEntry => Sys2Proof.Machine.execD3hotEntry s
  | .packageCut cut => Sys2Proof.Machine.execPackageCut cut s
  | .thermalCutRaise => Sys2Proof.Machine.execThermalCutRaise s
  | .thermalCutLower => Sys2Proof.Machine.execThermalCutLower s
  | .thermalHalt => Sys2Proof.Machine.execThermalHalt s
  | .tdispError tenant => Sys2Proof.Machine.execTdispError tenant s
  | .atsInvalidation page size => Sys2Proof.Machine.execAtsInvalidation page size s
  | .priResponse id ok => Sys2Proof.Machine.execPriResponse id ok s
  | .hostWrite addr data => Sys2Proof.Machine.execHostWrite addr data s
  | .hostRead addr n => Sys2Proof.Machine.execHostRead addr n s
  | .flitRetry port good => Sys2Proof.Machine.execFlitRetry port good s
  | .writebackError sector => Sys2Proof.Machine.execWritebackError sector s
  | .tagParityError unit idx dir => Sys2Proof.Machine.execTagParityError unit idx dir s
  | .tdispRequest tenant msg => Sys2Proof.Machine.execTdispRequest tenant msg s
  | .d3hotExit => Sys2Proof.Machine.execD3hotExit s
  | .d3coldEntry => Sys2Proof.Machine.execD3coldEntry s
  | .qctlWrite tenant queue v => Sys2Proof.Machine.execQctlWrite tenant queue v s
  | .fqctlHeadWrite fn head => Sys2Proof.Machine.execFqctlHeadWrite fn head s
  | .poolChange word v => Sys2Proof.Machine.execPoolChange word v s
  | .vfEnable tenant => Sys2Proof.Machine.execVfEnable tenant s

end Sys2Proof.Machine
end

