-- ==== Sys2Proof/Machine/Step.lean ====
section
/-! DEFINITION. One step of the machine, and the placing of an instruction where the next step fetches it. -/

namespace Sys2Proof.Machine

/-- The act of a turn: an event, the issue of a word, a word of a Lantern's call, or an act that is no instruction. -/
def act (a : Act) (s : State) : Host.Outcome State Fault Refusal :=
  match a with
  | .event i => exec i s
  | .issue gk slotB defer => issueThen exec (issueWord gk slotB defer) s
  | .lantern n => issueThen exec (lanternWord n) s
  | a => runOp (actOp a) s

/-- The last of a step (12_groups_progress.md R319, R320; 16_recovery.md R458): operand-reuse latches whose registers changed since `s`
are dropped, and the list of errors to record is empty, for `flushErrors` has written them. -/
def closeStep (s t : State) : State :=
  { t with
    cores := t.cores.map fun (c, k) => (c, Core.keepLatches s t k)
    dev := { t.dev with noted := [] } }

/-- What follows an act that began in `s`. -/
def follow (s t : State) : Host.Outcome State Fault Refusal :=
  match (do quietly settle; flushErrors : Op Unit) t with
  | .ok _ u => .next (closeStep s u)
  | .error _ u => .next (closeStep s u)

/-- One step: the cycles of the turn pass, its act is done, and what follows from it. -/
def step (s : State) : Host.Outcome State Fault Refusal :=
  let t := (nextTurn s).1
  let s1 := passed t.dt (nextTurn s).2
  match act t.act s1 with
  | .next s2 => follow s1 s2
  | x => x

/-! Placing an instruction -/

/-- The header of the grid that a placed instruction runs in: one group of 128 lanes with every class and resource. -/
def fetchHdr : Hdr := {
  width := 128, regs := 8, groups := 1, cluster := 1, stale := 0, scratch := 0, lp := 0, qmem := 0, dstore := 0
  barriers := [0, 0, 0, 0, 0], bindings := [0, 0, 0, 0, 0, 0, 0, 0], trap := 0xFFFFFFFF, entry := 0, classes := 7
  stepping := 0, fallback := 0 }

/-- Its grid: the only block of queue 0 of tenant 0. -/
def fetchGrid : Grid := {
  record := { words := [0, 0, 0, 0, 0, 0, 1, 0], seq := 0 }
  state := .running, hdr := some fetchHdr, nextBlk := 1, placedBlks := 1 }

/-- The state with an instruction of `nbits` bits where the next step fetches: a Beam word as the only word of a call of
Lantern 0, a device word in the instruction buffer of core 0 for a group whose slot A stands at it (log 2). -/
def State.withFetchWord (s : State) (nbits w : Nat) : State :=
  if nbits ≤ 32 then
    { s with
      agenda := [⟨0, .lantern 0⟩]
      lanterns := tset 0 { call := some { routine := [BitVec.ofNat 32 w], regs := List.replicate 16 0, allow := 256 } } s.lanterns }
  else
    { s with
      agenda := [⟨0, .issue 0 false false⟩]
      queues := tset 0 { recs := [fetchGrid.record], nextSeq := 1, active := some fetchGrid } s.queues
      blocks := tset 0 { grid := 0, blk := 0, clu := 0, pos := 0, base := 0, gsp := 2, gpool := 3, live := [0] }
        (s.blocks.filter fun e => coreOfBlk e.1 != 0)
      groups := tset 0 (launchGroup fetchGrid fetchHdr ((List.range 8).map (unitGranules 128 * ·)) { rw := 1, sp := 2 })
        (s.groups.filter fun e => coreOfGrp e.1 != 0)
      quads := tset 0 { clusters := [⟨0, 0, 0, 0, [], []⟩], gen := { next := 4, held := [3, 1, 2] } } s.quads
      cores := tset 0 { grid := some 0, places := 1, ibuf := [(1, ⟨0, BitVec.ofNat 1024 w, 128, false⟩)] } s.cores }

end Sys2Proof.Machine
end

