-- ==== Sys2Proof/Safety.lean ====
section
/-! DEFINITION. What a safe run keeps: the invariants of the machine that statements name. -/

namespace Sys2Proof.Machine

/-- A latch of a core names a register that a resident group holds, of a group that neither takes a trap nor is
pre-empted (12_groups_progress.md R319). -/
def latchSafe (s : State) (x : Nat × Nat) : Bool :=
  match tlook x.1 s.groups with
  | some g => x.2 < g.nreg && g.trapping.isNone && !g.preempt
  | none => false

/-- Every operand-reuse latch of every core is safe (R319). -/
def State.latchesSafe (s : State) : Bool := s.cores.all fun e => e.2.latches.all fun x => latchSafe s x.2

/-- No error waits for its record: what a step met has been written to the error queue, or lost with the queue's LOST
bit (16_recovery.md R458). -/
def State.errorsRecorded (s : State) : Bool := s.dev.noted.isEmpty

/-- What holds between any two steps. -/
def State.Inv (s : State) : Prop := s.latchesSafe = true ∧ s.errorsRecorded = true

/-- A step that completes: neither a fault nor a refusal. -/
def Completes (x : Host.Outcome State Fault Refusal) : Prop := ∃ t, x = .next t

/-- The canonical forms of the tables that hold bytes and granules. -/
def State.canonical (s : State) : Bool :=
  Memory.wf s.mem && tcanon Granule.clean s.store && tcanon Granule.clean s.dstore

/-! Words of groups -/

/-- The state with a group as given. -/
def State.setGroup (s : State) (gk : Nat) (g : Group) : State := { s with groups := tset gk g s.groups }

/-- ActiveMask of a word under predicate `p` (02_words.md R46); a re-issued word has the lanes of its replay mask
(16_recovery.md R440). -/
def State.activeOf (s : State) (g : Group) (p : Nat) : Mask :=
  match s.cur.only with
  | some m => m
  | none => (g.slot s.cur.slotB).mask &&& g.pred p

/-- The word `i` issues for a resident group `g` of a grid with header `h`, and no check of 02_words.md R61 refuses it: its
operands are legal for the group, its registers lie below the group's count, its pairs are even. -/
structure Issues (s : State) (i : Instr) (g : Group) (h : Hdr) : Prop where
  group : tlook s.cur.gk s.groups = some g
  header : ∃ b x, tlook (blkOfGrp s.cur.gk) s.blocks = some b ∧ s.gridOf b.grid = some x ∧ x.hdr = some h
  operands : operandBad g h i = false
  range : rangeBad g (uses i) = false
  pairs : (uses i).odd = false

/-- The group as the effect of a word finds it: a word that ends an idempotent region has ended it
(13_control_sync_ops.md R354). -/
def Group.begun (g : Group) (i : Instr) : Group := if endsRegion i then { g with regionOpen := false } else g

/-- The state as the effect of a word finds it: its ActiveMask and whether a region was open are noted for the trap
frame. -/
def State.begun (s : State) (i : Instr) (g : Group) : State :=
  let t : State := { s with cur := { s.cur with act := s.activeOf g (predOf i), wasOpen := g.regionOpen } }
  if endsRegion i then t.setGroup s.cur.gk (g.begun i) else t

/-- The state after a word whose whole effect is on its group. -/
def State.after (s : State) (i : Instr) (g g' : Group) : State := (s.begun i g).setGroup s.cur.gk g'

/-- The group with the issuing slot at another address. -/
def Group.goTo (g : Group) (slotB : Bool) (pc : W64) : Group := g.setSlot slotB { g.slot slotB with pc := pc }

/-! Lane registers -/

/-- The register elements can be read: none holds an uncorrectable word or a granule whose tag fails its parity, and where
GENCTL selects the trap none is stale (15_isolation.md R420, 16_recovery.md R457). -/
def State.readable (s : State) (g : Group) (elems : List (Nat × Nat)) : Prop :=
  ∀ e ∈ elems, elemBad s s.cur.gk g e.1 e.2 = false ∧ (g.gens.trw = true → elemStale s s.cur.gk g e.1 e.2 = false)

/-- The state with element l of register v n of a group written (01_machine.md R14, R27; 15_isolation.md R421). -/
def State.putElem (s : State) (gk : Nat) (g : Group) (n l x : Nat) : State :=
  let p := g.place (coreOfGrp gk) n l
  let y := (tget Granule.clean s.store p.1).write g.gens.rw (bitsAt (32 * p.2) 32) (BitVec.ofNat 512 (x % 2 ^ 32 * 2 ^ (32 * p.2)))
  { s with store := tput Granule.clean s.store p.1 y, poison := s.poison.stamp p.1 }

/-- A result of 32 or of 64 bits in a lane's register or register pair (R20). -/
def State.putLane (s : State) (gk : Nat) (g : Group) (wide : Bool) (n l x : Nat) : State :=
  if wide then (s.putElem gk g n l (x % 2 ^ 32)).putElem gk g (n + 1) l (x / 2 ^ 32) else s.putElem gk g n l (x % 2 ^ 32)

/-- A result written to a destination field for a lane (02_words.md R69; 05_lane_scalar_ops.md R123). -/
def State.putResult (s : State) (wide : Bool) (d : Dst) (r : Nat × Nat) : State :=
  match tlook s.cur.gk s.groups with
  | none => s
  | some g => match d with
    | .lane v => s.putLane s.cur.gk g wide v.toNat r.1 r.2
    | .sreg m => s.setGroup s.cur.gk (g.setScalar m.toNat (BitVec.ofNat 64 r.2))

/-- The results of a word, lane by lane. -/
def State.putResults (s : State) (wide : Bool) (d : Dst) (rs : List (Nat × Nat)) : State :=
  rs.foldl (fun t r => t.putResult wide d r) s

/-- The events of a word counted in its core (04_numbers.md R117). -/
def State.counted (s : State) (e : Ev) : State :=
  if e = .none then s else
    let c := coreOfGrp s.cur.gk
    let k := s.core c
    { s with cores := tput {} s.cores c { k with events := k.events.count e } }

/-- What an operation answers in a state, where it does not stop. -/
def reply {α : Type} (m : Op α) (s : State) : Option (α × State) :=
  match m.run s with
  | .ok a t => some (a, t)
  | .error _ _ => none

end Sys2Proof.Machine
end

