-- ==== Sys2Proof/Certificates/Slice0/Obligations.lean ====
section
/-! DEFINITION. The statements for the provers, with the terms they use beside those of Safety.lean. -/

namespace Sys2Proof.Machine

/-! Words that compute lane results -/

/-- What a word does that computes results: the register elements it reads, the width and the field of its destination, the
results by lane in ascending order, the arithmetic events. -/
structure LaneEffect where
  elems : List (Nat × Nat) := []
  wide  : Bool := false
  dst   : Dst
  vals  : List (Nat × Nat)
  ev    : Ev := .none

/-- The words whose operation is one of chapter 5's lane by lane operations (05_lane_scalar_ops.md R122 to R140). -/
def laneForm : Instr → Option (LaneOp × FWord)
  | .iadd l o => some (.int .iadd l, o)
  | .isub l o => some (.int .isub l, o)
  | .imul l o => some (.int .imul l, o)
  | .imulh us l o => some (.int (if us then .imulhUs else .imulh) l, o)
  | .imad l o => some (.int .imad l, o)
  | .imin us l o => some (.int (if us then .iminUs else .imin) l, o)
  | .imax us l o => some (.int (if us then .imaxUs else .imax) l, o)
  | .iabs l o => some (.int .iabs l, o)
  | .idiv l us o => some (.div false l us, o)
  | .irem l us o => some (.div true l us, o)
  | .and l o => some (.int .and l, o)
  | .or l o => some (.int .or l, o)
  | .xor l o => some (.int .xor l, o)
  | .andn l o => some (.int .andn l, o)
  | .shl l o => some (.int .shl l, o)
  | .shr l o => some (.int .shr l, o)
  | .sar l o => some (.int .sar l, o)
  | .rotl l o => some (.int .rotl l, o)
  | .popc l o => some (.int .popc l, o)
  | .clz l o => some (.int .clz l, o)
  | .brev l o => some (.int .brev l, o)
  | .bfx l us o => some (.bfx l us, o)
  | .bfi l o => some (.bfi l, o)
  | .prmt o => some (.prmt, o)
  | .mov l o => some (.mov l, o)
  | .lea l o => some (.lea l, o)
  | .idx2 o => some (.idx2, o)
  | .icmp l us o => some (.icmp l us, o)
  | .sel l o => some (.sel l, o)
  | .fadd f o => some (.fp .fadd f, o)
  | .fsub f o => some (.fp .fsub f, o)
  | .fmul f o => some (.fp .fmul f, o)
  | .ffma f o => some (.fp .ffma f, o)
  | .fmin f o => some (.fp .fmin f, o)
  | .fmax f o => some (.fp .fmax f, o)
  | .frcp f o => some (.fu .frcp f, o)
  | .frsq f o => some (.fu .frsq f, o)
  | .fsqrt f o => some (.fu .fsqrt f, o)
  | .fdiv f o => some (.fu .fdiv f, o)
  | .fex2 f o => some (.fu .fex2 f, o)
  | .flg2 f o => some (.fu .flg2 f, o)
  | .fsin f o => some (.fu .fsin f, o)
  | .fcos f o => some (.fu .fcos f, o)
  | .fldx f o => some (.fldx f, o)
  | .fcmp f o => some (.fcmp f, o)
  | .fcls f o => some (.fcls f, o)
  | _ => none

/-- The results of a function of each working lane. -/
def perLane (ls : List Nat) (elems : Nat → List (Nat × Nat)) (wide : Bool) (d : Dst) (f : Nat → Res) : LaneEffect :=
  { elems := ls.flatMap elems, wide := wide, dst := d, vals := ls.map fun l => (l, (f l).1), ev := evsOf (ls.map f) }

/-- A lane operation's results (R122 to R124). -/
def opEffect (s : State) (g : Group) (op : LaneOp) (o : FWord) : LaneEffect :=
  let ls := workLanes g.width o.dst (s.activeOf g o.pred.toNat)
  { elems := argElems g.width op o.args ls
    wide := op.wide
    dst := o.dst
    vals := (ls.zip (laneResults s s.cur.gk g op o.args ls)).map fun x => (x.1, x.2.1)
    ev := evsOf (laneResults s s.cur.gk g op o.args ls) }

/-- The values of the active lanes that LVOTE, LSCAN and LRED combine, and the elements read for them. -/
def combined (s : State) (g : Group) (wide : Bool) (f : Option Fmt) (o : FMode) : List Nat × List (Nat × Nat) :=
  let ls := lanesOf g.width (s.activeOf g o.pred.toNat)
  (ls.map fun l => readSrc s s.cur.gk g wide f o.par.toNat l o.a, ls.flatMap fun l => srcElems g.width wide o.par.toNat l o.a)

/-- The results of the block instructions: the blocks' first lanes with their values, active lanes alone (06_sweep_quantise.md R160). -/
def blockEffect (s : State) (g : Group) (p : BitVec 3) (d : Dst) (par : Nat) (srcs : List Src)
    (bs : List (Nat × List Nat × Ev)) : LaneEffect :=
  let m := s.activeOf g p.toNat
  if m = 0 then { dst := d, vals := [] }
  else
    { elems := (List.range g.width).flatMap fun l => srcs.flatMap fun a => srcElems g.width false par l a
      dst := d
      vals := bs.flatMap fun b => (b.2.1.zipIdx.filter fun x => m.getLsbD (b.1 + x.2)).map fun x => (b.1 + x.2, x.1)
      ev := bs.foldl (fun e b => e.or b.2.2) .none }

/-- The effect of every word that writes results to a destination field and does nothing else (R122 to R144;
06_sweep_quantise.md R156 to R167). -/
def laneEffect (s : State) (g : Group) (i : Instr) : Option LaneEffect :=
  match laneForm i with
  | some (op, o) => some (opEffect s g op o)
  | none =>
    let gk := s.cur.gk
    let act (p : BitVec 3) : Mask := s.activeOf g p.toNat
    let work (d : Dst) (p : BitVec 3) : List Nat := workLanes g.width d (act p)
    match i with
    | .movi l p d imm =>
      some (perLane (work d p) (fun _ => []) l d fun _ => (wrap (if l then 64 else 32) imm.toInt, .none))
    | .movh p d a imm =>
      some (perLane (work d p) (fun l => srcElems g.width false g.width.log2 l a) false d fun l =>
        (imm.toNat * 2 ^ 16 + readSrc s gk g false none g.width.log2 l a % 2 ^ 16, .none))
    | .frnd f rm o =>
      some (perLane (work o.dst o.pred) (fun l => srcElems g.width (f == .d) o.par.toNat l o.a) (f == .d) o.dst fun l =>
        frndFmt f rm (readSrc s gk g (f == .d) (some f) o.par.toNat l o.a))
    | .lshfl o =>
      let par := argsPar g.width o.args
      let from' (l : Nat) : Nat := readSrc s gk g false none par l (o.args.src 1) % g.width
      let ls := work o.dst o.pred
      some { elems := (ls.flatMap fun l => srcElems g.width false par l (o.args.src 1)) ++
               ls.flatMap fun l => srcElems g.width false par (from' l) (o.args.src 0)
             dst := o.dst
             vals := ls.map fun l => (l, readSrc s gk g false none par (from' l) (o.args.src 0)) }
    | .lvote v o =>
      let m := act o.pred
      let (xs, es) := combined s g false none o
      let votes := ((lanesOf g.width m).zip xs).foldl (fun x (l, a) => if a = 0 then x else x ||| (1 : Mask) <<< l) (0 : Mask)
      some { elems := es, dst := o.dst,
             vals := (work o.dst o.pred).map fun l => (l, voteVal v g.width votes m (!o.dst.isLane) l) }
    | .lscan l op excl o =>
      let (xs, es) := combined s g l ((scanLaneOp op l).floatSrc 0) o
      let rs := scanVals (scanLaneOp op l) xs
      let last := rs.getLastD (0, .none)
      let outs := if excl then scanIdent op l :: rs.map (·.1) else rs.map (·.1)
      some { elems := es, wide := l, dst := o.dst, ev := last.2,
             vals := if o.dst.isLane then ((lanesOf g.width (act o.pred)).zip outs).map fun x => (x.1, scanOut op l x.2)
               else (work o.dst o.pred).map fun n => (n, scanOut op l last.1) }
    | .lred l op o =>
      let (xs, es) := combined s g l ((scanLaneOp op l).floatSrc 0) o
      let last := (scanVals (scanLaneOp op l) xs).getLastD (0, .none)
      some { elems := es, wide := l, dst := o.dst, ev := last.2,
             vals := (work o.dst o.pred).map fun n => (n, scanOut op l last.1) }
    | .cvt src dst rm us o =>
      some (perLane (work o.dst o.pred) (fun l => srcElems g.width src.wide o.par.toNat l o.a) dst.wide o.dst fun l =>
        cvtEval src dst rm us (convSrc s gk g src o.par.toNat l o.a))
    | .cvts src dst o c =>
      some (perLane (work o.dst o.pred)
        (fun l => srcElems g.width src.wide o.par.toNat l o.a ++ srcElems g.width false o.par.toNat l c) dst.wide o.dst fun l =>
        cvtsEval src dst g.seed.toNat (readSrc s gk g false none o.par.toNat l c) (convSrc s gk g src o.par.toNat l o.a))
    | .qscl f o =>
      some (blockEffect s g o.pred o.dst o.par.toNat [o.a] ((blockLanes g.width).map fun first =>
        let r := qsclEval f (blockVals s gk g o.par.toNat o.a first 32)
        (first, List.replicate 32 r.1, r.2)))
    | .qpk4 o =>
      let par := argsPar g.width o.args
      some (blockEffect s g o.pred o.dst par [o.args.src 0, o.args.src 1] ((blockLanes g.width).map fun first =>
        (first, qpk4Eval (bits (sideWord s gk g o.args first) 15 8) (blockVals s gk g par (o.args.src 0) first 32))))
    | .qpk8 e5 o =>
      let par := argsPar g.width o.args
      some (blockEffect s g o.pred o.dst par [o.args.src 0, o.args.src 1] ((blockLanes g.width).map fun first =>
        (first, qpk8Eval e5 (bits (sideWord s gk g o.args first) 15 8) (blockVals s gk g par (o.args.src 0) first 32))))
    | .qunp f o =>
      let par := argsPar g.width o.args
      some (blockEffect s g o.pred o.dst par [o.args.src 0, o.args.src 1] ((blockLanes g.width).map fun first =>
        let w := sideWord s gk g o.args first
        let rs := (List.range 32).map fun i =>
          qunpEval f (bits w 15 8) (bits w 7 0) (packedCode s gk g par (o.args.src 0) f first i)
        (first, rs.map (·.1), evsOf rs)))
    | .qhad n inv o c =>
      let len := hadLen n
      let p0 := (match c with
        | .sreg r => (g.scalar r.toNat).toNat
        | .const i => constInt 64 i.toNat) % 2 ^ 32
      some (blockEffect s g o.pred o.dst o.par.toNat [o.a] ((List.range (g.width / len)).map fun t =>
        let rs := qhadEval len inv g.seed.toNat (p0 + t * len) (blockVals s gk g o.par.toNat o.a (t * len) len)
        (t * len, rs.map (·.1), evsOf rs)))
    | _ => none

/-- The compares that write a predicate (05_lane_scalar_ops.md R133): operation, predicate, sources. -/
def condForm : Instr → Option (LaneOp × BitVec 3 × FSrc)
  | .icmpK l us k o => some (.icmp l us, k, o)
  | .fcmpK f k o => some (.fcmp f, k, o)
  | _ => none

/-- The bits of a predicate after a compare: each active lane's condition, every other bit as it was (R133). -/
def condBits (s : State) (g : Group) (op : LaneOp) (k : BitVec 3) (o : FSrc) : Mask :=
  let m := s.activeOf g o.pred.toNat
  let v (l i : Nat) : Nat := argVal s s.cur.gk g op o.args l i
  let t := ((lanesOf g.width m).filter fun l => op.cond (v l 0) (v l 1) (v l 2)).foldl (fun x l => x ||| (1 : Mask) <<< l) (0 : Mask)
  (g.pred k.toNat &&& ~~~m) ||| t

/-- The two results that a P word computes in a lane (02_words.md R49). -/
def pairResults (s : State) (g : Group) (h0 h1 : Half) (l : Nat) : Res × Res :=
  (halfVal s s.cur.gk g h0 l, halfVal s s.cur.gk g h1 l)

/-- Both destinations of a P word written, lane by lane (R49). -/
def State.putPairs (s : State) (g : Group) (h0 h1 : Half) (rs : List (Nat × Res × Res)) : State :=
  rs.foldl (fun t r => (t.putElem t.cur.gk g h0.d.toNat r.1 r.2.1.1).putElem t.cur.gk g h1.d.toNat r.1 r.2.2.1) s

/-- The units of a group stand apart in its core's store: none twice, each at a multiple of its size (01_machine.md R14, R19). -/
def unitsApart (g : Group) : Prop :=
  g.units.Nodup ∧ (∀ u ∈ g.units, u % unitGranules g.width = 0) ∧ (g.width = 16 ∨ g.width = 32 ∨ g.width = 64 ∨ g.width = 128)

/-- The n-bit operand patterns of a lane operation as numbers, and the value of its result. -/
def opValue (op : LaneOp) {n : Nat} (a b c : BitVec n) : Nat := (op.eval a.toNat b.toNat c.toNat).1

/-! Effects of operations -/

/-- The running of an operation's end, on the state that it leaves. -/
def State.leaves (s : State) (m : Op Unit) (t : State) : Prop := reply m s = some ((), t)

/-- A step answers a next state: the one that an operation makes of a state, its trap taken where it has one. -/
def State.gives (s : State) (m : Op Unit) (x : Host.Outcome State Fault Refusal) : Prop := ∃ t, runOp m s = .next t ∧ x = .next t

/-! Words that stay outstanding -/

/-- The word as an outstanding one (02_words.md R62, R65), with the values that it read. -/
def pendOf (s : State) (g : Group) (i : Instr) (m : Mask) (la : Nat) (vals : List (List Nat)) : Pend :=
  newPend (s.begun i g) (g.begun i) i m la vals

/-- It goes into the group's list, youngest last. -/
def Group.holding (g : Group) (p : Pend) : Group := { g with pend := g.pend ++ [p], nextId := g.nextId + 1 }

/-! Sweeps -/

/-- The sweep words with their opcode's place in the map (06_sweep_quantise.md R148). -/
def sweepForm : Instr → Option (Nat × SWord)
  | .swadd o => some (0, o)
  | .swmul o => some (1, o)
  | .swfma o => some (2, o)
  | .swmax o => some (3, o)
  | .swmin o => some (4, o)
  | .swcvt o => some (5, o)
  | .swexp o => some (6, o)
  | .swsum o => some (7, o)
  | .swcpy o => some (8, o)
  | .swset o => some (9, o)
  | _ => none

/-- A sweep as its core's unit takes it from the word: its operands, from the first iteration on (R145 to R152). -/
def sweepWork (s : State) (g : Group) (op : Nat) (o : SWord) : SWork :=
  let feet := sweepFeet g op o
  { gk := s.cur.gk, pid := g.nextId, op := op, sub := o.sub.toNat
    d := feet.getD 0 ⟨0, 0, 0, 0, true⟩, a := feet.getD 1 ⟨0, 0, 0, 0, false⟩, b := feet.getD 2 ⟨0, 0, 0, 0, false⟩
    v := (g.scalar o.r1.toNat).toNat, next := 0, count := o.count.toNat }

/-- The state with the sweep last in its core's queue, and its word outstanding, which holds the lane registers that it reads through
the window (R152). -/
def State.withSweep (s : State) (i : Instr) (g : Group) (m : Mask) (la : Nat) (x : SWork) : State :=
  let p := pendOf s g i m la []
  let c := coreOfGrp s.cur.gk
  let t := s.after i g ((g.begun i).holding { p with kept := windowReads s.cur.gk (g.begun i) p.spans })
  { t with cores := tput {} t.cores c { t.core c with sw := (t.core c).sw ++ [x] } }

/-- The state with the head of a core's sweep unit as given. -/
def State.sweeping (s : State) (core : Nat) (x : SWork) : State :=
  { s with cores := tput {} s.cores core { s.core core with sw := x :: (s.core core).sw.tail } }

/-- A segment that an iteration reads, where no word of it is uncorrectable. -/
def segRead (c : LocalCtx) (s : State) (a n : Nat) : Option Nat :=
  if (badWord c s [(a, n)]).isSome then none else some (c.read s a n 0)

/-- The iterations of a sweep in order, each reading its segments and then writing its destination segment, and an SWSUM's
adding its segment of A to the sum so far (R147 to R151); none where a read meets an uncorrectable word. -/
def sweepRuns (core : Nat) : Nat → SWork → State → Option (SWork × State)
  | 0, x, s => some (x, s)
  | left + 1, x, s => do
    let c ← (reply (localCtx x.gk) s).map (·.1)
    let a ← if x.op = 9 then some 0 else segRead c s (x.a.seg x.next) x.a.size
    if x.op = 7 then
      let r := sweepSeg 0 x.sub 0 (x.sum.getD 0) a
      let y := { x with next := x.next + 1, sum := some r.1, ev := x.ev.or r.2 }
      sweepRuns core left y (s.sweeping core y)
    else
      let b ← if 3 ≤ sweepUses x.op then segRead c s (x.b.seg x.next) 128 else some 0
      let d ← if x.op = 2 then segRead c s (x.d.seg x.next) 128 else some 0
      let r : Res := if x.op = 9 then (setSeg x.sub x.v, .none) else sweepSeg x.op x.sub d a b
      let w ← reply (sweepWrite c (x.d.seg x.next) x.d.size r.1) s
      let y := { x with next := x.next + 1, ev := x.ev.or r.2 }
      sweepRuns core left y (w.2.sweeping core y)

/-! Memory words -/

/-- The operands of a memory word as read in a state (10_memory_ops.md R267, R268; 02_words.md R53). -/
def memOperands (s : State) (g : Group) (sh : MShape) (o : MWord) : MVals :=
  let ls := memLanes g.width (sh.perLane o) (s.activeOf g o.pred.toNat)
  let o' : MWord := if sh.second then { o with index := .const 0 } else o
  { size := sh.size
    addrs := ls.map fun l => effAddr s s.cur.gk g l sh.size o'
    lanes := ls
    data := if sh.dataIn then ls.map fun l => dataVal s s.cur.gk g sh.f l sh.size o.data else []
    data2 := if sh.second then ls.map fun l => dataVal s s.cur.gk g none l sh.size o.index else [] }

/-- The register elements that a memory word reads. -/
def memElems (s : State) (g : Group) (sh : MShape) (o : MWord) : List (Nat × Nat) :=
  (memLanes g.width (sh.perLane o) (s.activeOf g o.pred.toNat)).flatMap fun l =>
    (if sh.dataIn then regElems sh.size l o.data else []) ++ regElems 4 l o.base ++ regElems (if sh.second then sh.size else 4) l o.index

/-- A memory word goes on at issue: some lane is active, and its registers are readable. -/
structure MemGoes (s : State) (i : Instr) (g : Group) (h : Hdr) (sh : MShape) (o : MWord) : Prop where
  issues : Issues s i g h
  some' : s.activeOf g o.pred.toNat ≠ 0
  elems : s.readable g (memElems s g sh o)

/-- A memory word kept outstanding: an acquire holds back what follows it, a release waits for what went before
(08_ordering_model.md R216). -/
def memPend (s : State) (g : Group) (i : Instr) (o : MWord) (v : MVals) : Pend :=
  { pendOf s g i (s.activeOf g o.pred.toNat) o.la.toNat v.list with
    fence := if acquires o.ord then .all else .no
    after := releases o.ord }

/-- Whether it is performed later: so the agenda says, or a word before it has to come first (02_words.md R64; R216). -/
def memWaits (s : State) (g : Group) (i : Instr) (o : MWord) (v : MVals) : Prop :=
  s.cur.defer = true ∨ waitsFor (s.begun i g) (coreOfGrp s.cur.gk) (tenantAt s s.cur.gk) g.pend (memPend s g i o v) = true

/-- It goes into its group's list, with the values it read, and changes nothing else (R62, R65). -/
def staysOut (s : State) (g : Group) (i : Instr) (o : MWord) (v : MVals) : Prop :=
  exec i s = .next (s.after i g ((g.begun i).holding (memPend s g i o v)))

/-- A value of `size` bytes written to a data register for a lane (10_memory_ops.md R268). -/
def State.putData (s : State) (gk size : Nat) (sx : Bool) (d : Reg) (r : Nat × Nat) : State :=
  match tlook gk s.groups with
  | none => s
  | some g => match d with
    | .lane v =>
      let y := if sx then wrap 32 (sext r.2 (8 * size)) else r.2
      (List.range (if size ≤ 4 then 1 else size / 4)).foldl (fun t i => t.putElem gk g (v.toNat + i) r.1 (y / 2 ^ (32 * i))) s
    | .sreg m =>
      let y := if sx then wrap 64 (sext r.2 (8 * size)) else r.2
      let g' := g.setScalar m.toNat (BitVec.ofNat 64 y)
      s.setGroup gk (if size = 16 then g'.setScalar (m.toNat + 1) (BitVec.ofNat 64 (r.2 / 2 ^ 64)) else g')
    | .const _ => s

/-- The loads and stores with their shape, what their addresses need, and whether the value is sign-extended. -/
def loadForm : Instr → Option (MShape × Need × Bool × MWord)
  | .ld z sx o => some (⟨z.bytes, false, true, false, none, false⟩, needLd z.bytes, sx, o)
  | .ldp z sx o => some (⟨z.bytes, false, true, false, none, true⟩, needLdp z.bytes, sx, o)
  | _ => none
def storeForm : Instr → Option (MShape × Need × MWord)
  | .st z o => some (⟨z.bytes, true, false, false, none, false⟩, needSt z.bytes, o)
  | .stp z o => some (⟨z.bytes, true, false, false, none, true⟩, needStp z.bytes, o)
  | _ => none

/-- Where an access of a lane goes: a local space, or the memory to which the core's TLB maps its address with the permission that it needs
(10_memory_ops.md R269; 15_isolation.md R408, R411, R416). -/
def State.placed (s : State) (gk t : Nat) (n : Need) (x : Nat × Nat) : Option Tgt :=
  let a := lpAddr n x.2
  if spaceOf a != 0 then some (.loc a x.1)
  else
    match (s.core (coreOfGrp gk)).tlb.find? (·.hits t a) with
    | none => none
    | some e =>
      if e.readable && (!n.writes || e.writable) then
        match reach s t (e.phys a) with
        | .dev pa part => some (.virt ⟨a, e, pa, part, false, t⟩)
        | .host pa => some (.virt ⟨a, e, pa, s.partOf t, true, t⟩)
        | _ => none
      else none

/-- The clock that a write carries (09_tiles_leases.md R255, R487). -/
def writeClock (s : State) (core : Nat) (n : Need) (r : VRef) : Nat :=
  match n.atom with
  | some sc => atomClock s core r sc
  | none => s.lc core

/-- No condition of 10_memory_ops.md R269 stands against the accesses of a word's lanes, and their translations are held by the core's TLB: what
an address names is valid, aligned, present, permitted, and where it is read not stale, and where it is written under no other agent's tenure
and below the cap on timestamps. -/
structure LanesReady (s : State) (c : LocalCtx) (n : Need) (xs : List (Nat × Nat)) (ts : List Tgt) : Prop where
  group : c.gk = s.cur.gk ∧ tlook c.gk s.groups = some c.g
  block : tlook (blkOfGrp c.gk) s.blocks = some c.b ∧ ∃ q, s.gridOf c.b.grid = some q ∧ q.hdr = some c.h
  spaces : ∀ x ∈ xs, badSpace c s n x.2 x.1 = false
  aligned : ∀ x ∈ xs, x.2 % n.size = 0
  pages : ∀ x ∈ xs, c.g.failed.contains (lpAddr n x.2 / 4096) = false ∧ syncing s (tenantOf c.b.grid) (lpAddr n x.2) = false
  places : xs.map (s.placed c.gk (tenantOf c.b.grid) n) = ts.map some
  fresh : n.reads = true → ∀ a lane, Tgt.loc a lane ∈ ts → c.stale s a n.size lane = false
  tenure : n.writes = true → ∀ r, Tgt.virt r ∈ ts → tenureConflict s r (selfWho s c.gk) n.size = none
  room : n.writes = true → ∀ r, Tgt.virt r ∈ ts → capped s r (writeClock s (coreOfGrp c.gk) n r) = false

/-- The accesses of a word's lanes pass their checks, as they stand (`LanesReady`), or by way of what the checks answer, a walk of the tables
among it. -/
def passes (s : State) (c : LocalCtx) (n : Need) (xs : List (Nat × Nat)) (ts : List Tgt) (u : State) : Prop :=
  LanesReady s c n xs ts ∧ u = s ∨ reply (checkLanes n xs) s = some (ts, u) ∧ reply (localCtx u.cur.gk) u = some (c, u)

/-- An atomic's lanes, performed in ascending order: location, lane, data, second data (10_memory_ops.md R281). -/
def atomRuns (c : LocalCtx) (a : Atom) (o : MWord) (ts : List Tgt) (v : MVals) : Op (List Ev) :=
  ((ts.zip v.lanes).zipIdx).mapM fun x => atomLane c a o x.1.1 x.1.2 (v.data.getD x.2 0) (v.data2.getD x.2 0)

/-- What an atomic asks of its locations (R269, R280). -/
def atomNeed (a : Atom) (o : MWord) : Need := ⟨spacesData, true, true, a.size, false, some o.scope⟩
def atomShape (a : Atom) : MShape := ⟨a.size, a.dataIn, a.ret, a.second, a.fmt, false⟩

/-- PREF, WB and INV, and what performs them (R275, R276). -/
def lineForm : Instr → Option (MWord × (MVals → Op Unit))
  | .pref o => some (o, doPref o)
  | .wb o => some (o, doBack o false)
  | .inv o => some (o, doBack o true)
  | _ => none
def lineShape : MShape := ⟨1, false, false, false, none, false⟩

/-- The values that WSIG reads at issue: its payload's lanes, addresses and data, and the address of its flag (R278). -/
def wsigVals (s : State) (g : Group) (d : Bool) (o : MWord) : MVals :=
  let z := (wd d).bytes
  let ls := memLanes g.width (o.lanes true false) (s.activeOf g o.pred.toNat)
  { size := z
    addrs := ls.map fun l => effAddr s s.cur.gk g l z { o with index := .const 0 }
    lanes := ls
    data := ls.map fun l => dataVal s s.cur.gk g none l z o.data
    data2 := [baseVal s s.cur.gk g 0 o.index] }

/-- A tile or future word goes on at issue: some lane is active, and where it releases, no access before it is outstanding. -/
structure HandleGoes (s : State) (i : Instr) (g : Group) (h : Hdr) (o : MWord) : Prop where
  issues : Issues s i g h
  some' : s.activeOf g o.pred.toNat ≠ 0
  quiet : releases o.ord = true → g.accessing = false

/-- The state in which a tile word takes effect: what its release covers is in the clocks (08_ordering_model.md R217). -/
def State.tileBegun (s : State) (i : Instr) (g : Group) (o : MWord) (u : State) : Prop :=
  if releases o.ord = true then (s.begun i g).leaves (releaseCore (coreOfGrp s.cur.gk) .quad) u else u = s.begun i g

/-- The handle of a tile word names an entry: slice, number, entry, rights carried (09_tiles_leases.md R236, R237); and the group is the
agent `me` (R238). -/
def State.names (s : State) (g : Group) (o : MWord) (me : Agent) (r : Nat × Nat × Entry × Nat) : Prop :=
  agentAt s s.cur.gk = some me ∧ ∃ b, tlook (blkOfGrp s.cur.gk) s.blocks = some b ∧
    openHandle s (tenantOf b.grid) (baseVal s s.cur.gk g 0 o.base) = some r

/-- The group with a status or a value in its data register. -/
def Group.told (g : Group) (o : MWord) (x : Nat) : Group := g.setScalar (regNum o.data) (BitVec.ofNat 64 x)

/-- The state after a tile word whose whole effect is its status: `u` is the state in which it took effect. -/
def State.told (u : State) (g : Group) (o : MWord) (x : Nat) : State := u.setGroup u.cur.gk (g.told o x)

/-- The engine words with their job kind (11_engines_futures.md R300). -/
def engineForm : Instr → Option (Nat × MWord)
  | .cpy o => some (0, o)
  | .gath o => some (1, o)
  | .scat o => some (2, o)
  | .coll o => some (3, o)
  | _ => none

/-- The future words: what each writes when the slot's job has ended with `y`, or none where it waits or acts first (R307, R309). -/
def futureForm : Instr → Option MWord
  | .ftst o | .fwt o | .fcan o => some o
  | _ => none

/-- The register block of an engine word. -/
def engineBlock (g : Group) (kind : Nat) (o : MWord) : Block4 :=
  let r (i : Nat) : Nat := (g.scalar (regNum o.base + i)).toNat
  ⟨kind, o.off.toNat, r 0, r 1, r 2, r 3⟩

/-- The head of a die's list of free slots (R298). -/
def Die.head (d : Die) : Option Nat := if d.fresh < 16384 then some d.fresh else d.freed.head?
def Die.headGen (d : Die) (slot : Nat) : Nat :=
  let g := (tget {} d.slots slot).gen
  if g = 4095 then 1 else g + 1

/-- The feature group that an engine word needs, and the combination of COLL that is no instruction (R305; 03_opcode_map.md R84). -/
def engineAllowed (s : State) (t : Nat) (x : Block4) : Prop :=
  (x.kind = 3 → x.op = 4 → bitOf (s.part (s.partOf t)).feat 1 = false) ∧ ¬(x.kind = 3 ∧ x.op = 0 ∧ bitOf x.mode 0 = true)

/-- The sub-tile of part `k` of a split (09_tiles_leases.md R247). -/
def splitPart (y : Entry) (e r : Nat) (me : Agent) (dim n i left : Nat) : Entry :=
  let d := partDesc y.desc dim n i
  { desc := d, tenant := y.tenant, grid := y.grid, seq := y.seq, rights := Nat.land r 14
    state := if y.writes then .write else .read
    holders := [me], parent := some (e, i), level := y.level + 1
    reserved := if y.writes then min d.sectors left else 0 }

/-- The pages of a tile with their class and whether they are device memory, as the core's TLB holds them, or by way of what their translation
answers (10_memory_ops.md R283, check 2). -/
def tileMapped (d : TileDesc) (v w : State) (ps : List (Nat × Bool)) : Prop :=
  (∃ (g : Group) (b : Block) (rs : List VRef), tlook v.cur.gk v.groups = some g ∧ tlook (blkOfGrp v.cur.gk) v.blocks = some b ∧
    (∀ x ∈ tilePages d, g.failed.contains (x.2 / 4096) = false ∧ syncing v (tenantOf b.grid) x.2 = false) ∧
    (tilePages d).map (fun x => v.placed v.cur.gk (tenantOf b.grid) ⟨[0], true, false, 1, false, none⟩ (0, x.2)) =
      rs.map (fun r => some (.virt r)) ∧ ps = rs.map (fun r => (r.e.cls, !r.host)) ∧ w = v) ∨
  reply (mapTile d) v = some (ps, w)

/-- A descriptor of an X word breaks no rule of 07_matrix.md R173; `ab` where the word reads A and B. -/
structure DescLegal (d : List Nat) (ab : Bool) : Prop where
  spaces : ab = true → spacesSig.contains (spaceOf (d.getD 0 0)) = true ∧ spacesSig.contains (spaceOf (d.getD 1 0)) = true
  space : spaceOf (d.getD 2 0) = 0
  strides : bits (d.getD 3 0) 63 60 = 0 ∧ 512 ≤ cstrOf d ∧ cstrOf d % 256 = 0
  alignedAB : ab = true → d.getD 0 0 % 16 = 0 ∧ d.getD 1 0 % 16 = 0
  alignedC : d.getD 2 0 % 256 = 0

/-- The slice that owns an accumulator, as the core's TLB maps its address, or by way of what its translation answers (R185). -/
def sliceFor (s : State) (g : Group) (t caddr : Nat) (w : Bool) (slice : Nat) (u : State) : Prop :=
  (∃ r, g.failed.contains (caddr / 4096) = false ∧ syncing s t caddr = false ∧
    s.placed s.cur.gk t ⟨[0], !w, w, 4, false, none⟩ (0, caddr) = some (.virt r) ∧
    owningSlice s t (dieOfCore (coreOfGrp s.cur.gk)) r.pa = some slice ∧ u = s) ∨
  reply (sliceOf caddr w) s = some (slice, u)

/-- The pieces of an accumulator that MZERO writes: each page cached in the L2 and written back there, under no other agent's tenure, below the
cap on timestamps; or by way of what their checks answer (R186, R187). -/
def accFor (s : State) (g : Group) (t : Nat) (xs : List Nat) (rs : List VRef) (u : State) : Prop :=
  ((∀ a ∈ xs, g.failed.contains (a / 4096) = false ∧ syncing s t a = false) ∧
    xs.map (fun a => s.placed s.cur.gk t ⟨[0], false, true, 256, false, none⟩ (0, a)) = rs.map (fun r => some (.virt r)) ∧
    (∀ r ∈ rs, r.e.l2 = true ∧ r.e.pol ≠ 2 ∧ tenureConflict s r (selfWho s s.cur.gk) 256 = none ∧
      ∀ i, i < 4 → capped s { r with va := r.va + 64 * i, pa := r.pa + 64 * i } (s.lc (coreOfGrp s.cur.gk)) = false) ∧ u = s) ∨
  reply (xList (fun a => accMap s.cur.gk t a false) xs) s = some (.ok rs, u)

/-- The group has nothing open, queued or on its way in its core's matrix unit: no chain to close (R182). -/
structure NoChain (s : State) (g : Group) : Prop where
  closed : g.openChain = none
  idle : queuedWorks s s.cur.gk = false

/-- An X word as its core's unit takes it (R170 to R176). -/
def productWork (s : State) (g : Group) (i : Instr) (f : XFmt) (sparse : Bool) (o : XWord) : XWork :=
  let d := snapDesc g o.desc
  let rows := rowMask g.width (matM f) o.rm (s.activeOf g o.pred.toNat)
  { gk := s.cur.gk, pid := g.nextId, word := ((encode i).map BitVec.toNat).getD 0
    w := ⟨f, sparse, o.ta, o.tb, o.kcount.toNat, o.selA.toNat, o.selB.toNat, d, snapScales s s.cur.gk g f.scaled o.scale⟩
    rows := rows, all := maskOf rows, split := o.split.toNat, det := o.det, chain := o.chain }

/-- The state with the X word last in its core's queue, and outstanding (R184). -/
def State.withWork (s : State) (i : Instr) (g : Group) (m : Mask) (la : Nat) (x : XWork) : State :=
  let c := coreOfGrp s.cur.gk
  let t := s.after i g ((g.begun i).holding (pendOf s g i m la []))
  { t with cores := tput {} t.cores c { t.core c with mx := (t.core c).mx ++ [x] } }

/-! Control -/

/-- Entry j of the divergence stack in the control area, and the group with it written (12_groups_progress.md R326). -/
def Group.entry (g : Group) (j : Nat) : DivEntry :=
  DivEntry.ofWords ((List.range 4).map fun x => (tget 0 g.ctl (128 + 4 * j + x)).toNat)
def Group.putEntry (g : Group) (j : Nat) (e : DivEntry) : Group := { g with ctl := putWords g.ctl (128 + 4 * j) e.words }

/-- The group in the handler of its trap (16_recovery.md R436, R438): the frame and the trap registers written, slot A with every
live lane at the trap entry, slot B empty. -/
def Group.handling (g : Group) (now : Nat) (entry : W64) (t : TrapInfo) (list : List Recorded) : Group :=
  { g with
    ctl := putWords g.ctl 96 (frameWords g t list)
    masks := list.map (·.mask)
    due := g.due ++ [(0x1000, replayWords (list.map (·.mask)))]
    trapPc := (list.head?.map (·.pc)).getD 0 &&& ~~~7
    trapAddr := t.addr
    trapCause := BitVec.ofNat 64 (t.sub * 2 ^ 16 + t.cause * 2 ^ 8)
    handler := some g.sp
    trapping := none
    replay := []
    readyAt := now + 24
    a := { pc := entry, mask := g.live, join := none }
    b := {} }

/-- The group after the return from its handler (16_recovery.md R440). -/
def Group.returned (g : Group) : Group :=
  { g with
    a := frameSlot g.width g.ctl 96
    b := frameSlot g.width g.ctl 100
    sp := (tget 0 g.ctl 99).toNat / 2 ^ 32
    handler := none
    replay := frameList g.ctl g.masks }

/-- A trap empties the group's operand-reuse latches (12_groups_progress.md R320), and an Access Violation uses up the answers of FAIL that led
to it (15_isolation.md R418). -/
def State.unlatched (s : State) (gk : Nat) : State :=
  let c := coreOfGrp gk
  { s with cores := tput {} s.cores c { s.core c with latches := (s.core c).latches.filter fun e => e.2.1 != gk } }
def Group.excused (g : Group) (t : TrapInfo) : Group := if t.cause = 4 then { g with failed := [] } else g

/-- A group takes a trap at once: it is in no handler, its grid has a trap entry, nothing of it is outstanding and no chain of
products is open (16_recovery.md R435, R437). -/
structure TrapReady (s : State) (g : Group) (entry : W64) : Prop where
  normal : g.handler = none
  header : ∃ b x, tlook (blkOfGrp s.cur.gk) s.blocks = some b ∧ s.gridOf b.grid = some x ∧ trapEntry? x = some entry
  quiet : g.pend = []
  awake : g.asleep = none
  sent : (s.contribs.any fun e => e.2.gk = s.cur.gk) = false
  chain : g.chain = none

/-- The word issues with some lane active. -/
structure Acts (s : State) (i : Instr) (g : Group) (h : Hdr) : Prop where
  issues : Issues s i g h
  some' : s.activeOf g (predOf i) ≠ 0

/-- The group asleep from now on (12_groups_progress.md R339). -/
def Group.sleeps (g : Group) (w : Wait) (now : Nat) : Group := { g with asleep := some ⟨w, (g.asleep.map (·.since)).getD now⟩ }

/-! Beam words -/

/-- The result of a Beam word: its cost, the call after it with its charge still to add, and Mooring. -/
structure BeamResult where
  cost : Nat
  call : Call
  mooring : Tab W32
  poison : Poison

/-- A word that costs 1 and whose whole effect is on its call. -/
def beamPlain (s : State) (x : Call) : BeamResult := { cost := 1, call := x, mooring := s.mooring, poison := s.poison }

/-- The state with the call of the Lantern in progress, and Mooring, as given. -/
def State.putCall (s : State) (x : Call) (m : Tab W32) (p : Poison) : State :=
  { s with
    mooring := m
    poison := p
    lanterns := tput {} s.lanterns s.cur.lan { s.lantern s.cur.lan with call := some x } }

/-- A Beam word of call `k` that the allowance covers charges its cost and has its result; one that it does not cover ends the call
as an overrun, with no other effect (14_dispatch_lanterns.md R392). -/
def beamRuns (s : State) (k : Call) (i : Instr) (r : BeamResult) : Prop :=
  (k.charge + r.cost ≤ k.allow → exec i s = .next (s.putCall { r.call with charge := k.charge + r.cost } r.mooring r.poison)) ∧
  (k.allow < k.charge + r.cost → exec i s = .next (s.putCall { k with ended := 2 } s.mooring s.poison))

/-- The state of reset in a package whose bring-up has ended. -/
def State.readyReset : State := { State.reset with dev := { State.reset.dev with state := 4 } }

end Sys2Proof.Machine

open Sys2Proof Sys2Proof.Machine

/-- An F or FI word writes each active lane's result, computed from what every lane read before any wrote, and nothing else
(05_lane_scalar_ops.md R122 to R144; 06_sweep_quantise.md R156 to R167). -/
def Obligations.LaneWordWritesResults : Prop :=
  ∀ (s : State) (g : Group) (h : Hdr) (i : Instr) (e : LaneEffect),
    Issues s i g h → laneEffect s g i = some e → s.readable g e.elems →
    exec i s = .next (((s.begun i g).putResults e.wide e.dst e.vals).counted e.ev)

/-- A compare with a predicate destination writes each active lane's condition there and leaves the other bits; a
destination of k0 is discarded (05_lane_scalar_ops.md R133, 01_machine.md R18). QSEED sets the seed of its group when a lane is active, and
does nothing else (06_sweep_quantise.md R159). -/
def Obligations.CompareAndSeedWords : Prop :=
  ∀ (s : State) (g : Group) (h : Hdr),
    (∀ (i : Instr) (op : LaneOp) (k : BitVec 3) (o : FSrc), Issues s i g h → condForm i = some (op, k, o) →
      s.readable g (argElems g.width op o.args (lanesOf g.width (s.activeOf g o.pred.toNat))) →
      exec i s = .next (s.after i g (g.setPred k.toNat (condBits s g op k o)))) ∧
    ∀ (p : BitVec 3) (a : SArg), Issues s (.qseed p a) g h →
      exec (.qseed p a) s = .next (if s.activeOf g p.toNat = 0 then s.begun (.qseed p a) g
        else s.after (.qseed p a) g { g with seed := sargVal g a })

/-- Both halves of a P word read in every active lane before either writes (02_words.md R48, R49). -/
def Obligations.PairWordWritesBothHalves : Prop :=
  ∀ (s : State) (g : Group) (h : Hdr) (h0 h1 : Half),
    let i := Instr.pairWord h0 h1
    let ls := lanesOf g.width (s.activeOf g 0)
    Issues s i g h →
    s.readable g (ls.flatMap fun l => (h0.readRegs ++ h1.readRegs).map fun v => (v.toNat, l)) →
    exec i s = .next (((s.begun i g).putPairs g h0 h1 (ls.map fun l => (l, pairResults s g h0 h1 l))).counted
      ((evsOf (ls.map fun l => (pairResults s g h0 h1 l).1)).or (evsOf (ls.map fun l => (pairResults s g h0 h1 l).2))))

/-- A word that computes results changes nothing but its destination: all memory and every die store, every other group, the other units, and of
its own group the slots, predicates, traps and waiting words stay, every scalar register but a scalar destination, and every element of
every lane register but those of a lane destination in the lanes that have a result (05_lane_scalar_ops.md R122, R123). -/
def Obligations.RegisterWordsFrame : Prop :=
  ∀ (s t : State) (g : Group) (h : Hdr) (i : Instr) (e : LaneEffect),
    Issues s i g h → laneEffect s g i = some e → s.readable g e.elems → exec i s = .next t →
    (∀ a, rdByte t.mem a = rdByte s.mem a) ∧
    t = { s with cur := t.cur, groups := t.groups, cores := t.cores, store := t.store, poison := t.poison } ∧
    (∀ gk, gk ≠ s.cur.gk → tlook gk t.groups = tlook gk s.groups) ∧
    (∀ c, { t.core c with events := {} } = { s.core c with events := {} }) ∧
    (∃ g', tlook s.cur.gk t.groups = some g' ∧ { g' with ctl := [] } = { g with ctl := [] } ∧ (tcanon 0 g.ctl = true →
      (∀ j, j < 8 → g'.pred j = g.pred j) ∧ ∀ m : BitVec 6, e.dst ≠ .sreg m → g'.scalar m.toNat = g.scalar m.toNat)) ∧
    (s.canonical = true →
      let c := coreOfGrp s.cur.gk
      (∀ n l, (∀ v : BitVec 8, e.dst = .lane v → ∀ r ∈ e.vals, g.place c n l ≠ g.place c v.toNat r.1 ∧
          (e.wide = true → g.place c n l ≠ g.place c (v.toNat + 1) r.1)) →
        elemAt t s.cur.gk g n l = elemAt s s.cur.gk g n l) ∧
      ∀ k, (∀ v : BitVec 8, e.dst = .lane v → ∀ r ∈ e.vals, k ≠ (g.place c v.toNat r.1).1 ∧
          (e.wide = true → k ≠ (g.place c (v.toNat + 1) r.1).1)) →
        tget Granule.clean t.store k = tget Granule.clean s.store k)

/-- A lane register element reads back what was written to it, every element at another place of the store reads as
before, and two elements of a group whose units stand apart never share a place (01_machine.md R14, R18, R27; 15_isolation.md
R420, R421). -/
def Obligations.RegisterFileReadsBack : Prop :=
  (∀ (s : State) (g : Group) (n l x : Nat), s.canonical = true →
    elemAt (s.putElem s.cur.gk g n l x) s.cur.gk g n l = x % 2 ^ 32 ∧
    ∀ (gk : Nat) (g' : Group) (n' l' : Nat), g'.gens.rw = g.gens.rw →
      g'.place (coreOfGrp gk) n' l' ≠ g.place (coreOfGrp s.cur.gk) n l →
      elemAt (s.putElem s.cur.gk g n l x) gk g' n' l' = elemAt s gk g' n' l') ∧
  ∀ (g : Group) (core n l n' l' : Nat), unitsApart g → n < g.nreg → n' < g.nreg → l < g.width → l' < g.width →
    g.place core n l = g.place core n' l' → n = n' ∧ l = l'

/-- k0 reads as 1 in every lane below the width and discards writes; any other predicate reads back what was written in the lanes
below the width, and writing it changes no other predicate and no scalar register (01_machine.md R18). -/
def Obligations.PredicateRegisters : Prop :=
  ∀ (g : Group) (m : Mask), g.width ≤ 128 →
    (∀ l, l < 128 → (g.pred 0).getLsbD l = decide (l < g.width)) ∧ g.setPred 0 m = g ∧
    (tcanon 0 g.ctl = true → ∀ j, j ≠ 0 → j < 8 →
      (∀ l, l < 128 → ((g.setPred j m).pred j).getLsbD l = (decide (l < g.width) && m.getLsbD l)) ∧
      (∀ k, k ≠ j → k < 8 → (g.setPred j m).pred k = g.pred k) ∧ ∀ r, r < 64 → (g.setPred j m).scalar r = g.scalar r)

/-- The integer arithmetic of 05_lane_scalar_ops.md R126 at 32 and at 64 bits. -/
def Obligations.IntegerArithmetic : Prop :=
  let law (l : Bool) (n : Nat) : Prop := ∀ a b c : BitVec n,
    opValue (.int .iadd l) a b c = (a + b).toNat ∧ opValue (.int .isub l) a b c = (a - b).toNat ∧
    opValue (.int .imul l) a b c = (a * b).toNat ∧
    opValue (.int .imulh l) a b c = ((a.signExtend (2 * n) * b.signExtend (2 * n)) >>> n).toNat % 2 ^ n ∧
    opValue (.int .imulhUs l) a b c = ((a.zeroExtend (2 * n) * b.zeroExtend (2 * n)) >>> n).toNat ∧
    opValue (.int .imad l) a b c = (a * b + c).toNat ∧
    opValue (.int .imin l) a b c = (if a.slt b then a else b).toNat ∧
    opValue (.int .imax l) a b c = (if a.slt b then b else a).toNat ∧
    opValue (.int .iminUs l) a b c = (if a.ult b then a else b).toNat ∧
    opValue (.int .imaxUs l) a b c = (if a.ult b then b else a).toNat ∧
    opValue (.int .iabs l) a b c = (if a.slt 0 then -a else a).toNat
  law false 32 ∧ law true 64

/-- Division truncates toward zero; by zero the quotient is all ones and the remainder the dividend (05_lane_scalar_ops.md R127). -/
def Obligations.IntegerDivision : Prop :=
  let law (l : Bool) (n : Nat) : Prop := ∀ a b c : BitVec n,
    opValue (.div false l false) a b c = (if b = 0 then BitVec.allOnes n else a.sdiv b).toNat ∧
    opValue (.div true l false) a b c = (if b = 0 then a else a.srem b).toNat ∧
    opValue (.div false l true) a b c = (if b = 0 then BitVec.allOnes n else a / b).toNat ∧
    opValue (.div true l true) a b c = (if b = 0 then a else a % b).toNat
  law false 32 ∧ law true 64

/-- Logic, shifts and bit counts; the whole of b is the count of a shift (05_lane_scalar_ops.md R128). -/
def Obligations.LogicShiftsCounts : Prop :=
  let law (l : Bool) (n : Nat) : Prop := ∀ a b c : BitVec n,
    opValue (.int .and l) a b c = (a &&& b).toNat ∧ opValue (.int .or l) a b c = (a ||| b).toNat ∧
    opValue (.int .xor l) a b c = (a ^^^ b).toNat ∧ opValue (.int .andn l) a b c = (a &&& ~~~b).toNat ∧
    opValue (.int .shl l) a b c = (a <<< b.toNat).toNat ∧ opValue (.int .shr l) a b c = (a >>> b.toNat).toNat ∧
    opValue (.int .sar l) a b c = (a.sshiftRight b.toNat).toNat ∧
    opValue (.int .rotl l) a b c = (a.rotateLeft (b.toNat % n)).toNat ∧
    opValue (.int .popc l) a b c = ((List.range n).filter fun i => a.getLsbD i).length ∧
    opValue (.int .clz l) a b c = ((List.range n).takeWhile fun i => !a.getMsbD i).length ∧
    ∀ i, i < n → (opValue (.int .brev l) a b c).testBit i = a.getLsbD (n - 1 - i)
  law false 32 ∧ law true 64

/-- ICMP writes all ones where its condition holds and 0 otherwise, SEL picks a or b (05_lane_scalar_ops.md R132 to R134). -/
def Obligations.IntegerCompareSelect : Prop :=
  let law (l : Bool) (n : Nat) : Prop := ∀ a b c : BitVec n,
    let is (us : Bool) (x : Nat) (p : Bool) : Prop := c.toNat % 8 = x → opValue (.icmp l us) a b c = if p then 2 ^ n - 1 else 0
    (∀ us, is us 0 (a == b) ∧ is us 1 (a != b) ∧ is us 6 (a &&& b == 0) ∧ is us 7 (a &&& b != 0)) ∧
    is false 2 (a.slt b) ∧ is false 3 (a.sle b) ∧ is false 4 (b.slt a) ∧ is false 5 (b.sle a) ∧
    is true 2 (a.ult b) ∧ is true 3 (a.ule b) ∧ is true 4 (b.ult a) ∧ is true 5 (b.ule a) ∧
    opValue (.sel l) a b c = if c = 0 then b.toNat else a.toNat
  law false 32 ∧ law true 64

/-- FMIN and FMAX on one element: one NaN gives the other operand, two the canonical NaN; otherwise the smaller or the
larger operand's code, with -0 below +0; no event is counted (05_lane_scalar_ops.md R136). -/
def Obligations.FloatMinMax : Prop :=
  ∀ (f : NF) (max : Bool) (a b : Nat),
    let nanA := (fdec f a).isNan
    let nanB := (fdec f b).isNan
    let r := minMax f max a b
    r.2 = .none ∧ (nanA = true → nanB = true → r.1 = f.nanCode) ∧ (nanA = true → nanB = false → r.1 = b) ∧
    (nanA = false → nanB = true → r.1 = a) ∧
    (nanA = false → nanB = false →
      (r.1 = a ∨ r.1 = b) ∧ ((fdec f a).cmp (fdec f b) = .lt → r.1 = if max then b else a) ∧
      ((fdec f a).cmp (fdec f b) = .gt → r.1 = if max then a else b) ∧
      ((fdec f a).cmp (fdec f b) = .eq → (fdec f a).neg? = true → (fdec f b).neg? = false → r.1 = if max then b else a) ∧
      ((fdec f a).cmp (fdec f b) = .eq → (fdec f a).neg? = false → (fdec f b).neg? = true → r.1 = if max then a else b))

/-- A sweep word whose operands are valid and aligned stays outstanding in its core's unit. Where the unit is free and the word may be performed at
once, all its iterations run in order, from the first, and it completes: nothing that it reads being stale or uncorrectable
(06_sweep_quantise.md R145 to R153). -/
def Obligations.SweepRunsIterations : Prop :=
  ∀ (s : State) (g : Group) (h : Hdr) (b : Block) (i : Instr) (op : Nat) (o : SWord),
    let core := coreOfGrp s.cur.gk
    let n := o.count.toNat
    let x := sweepWork s g op o
    let u := s.withSweep i g (s.activeOf g o.pred.toNat) o.la.toNat x
    Issues s i g h → sweepForm i = some (op, o) → tlook (blkOfGrp s.cur.gk) s.blocks = some b →
    s.activeOf g o.pred.toNat ≠ 0 → s.cur.only = none →
    (∀ f ∈ sweepFeet g op o, footBad ⟨s.cur.gk, g.begun i, b, h⟩ (s.begun i g) f = none ∧ f.base % 16 = 0) →
    (s.cur.defer = true → exec i s = .next u) ∧
    (s.cur.defer = false → u.gives (sweepRun core s.cur.gk g.nextId (n + 3)) (exec i s)) ∧
    ∀ (c : LocalCtx) (z : Nat) (y : SWork) (v t : State),
      let begun : SWork := { x with begun := true, sum := if op = 7 then some z else none }
      s.cur.defer = false → (s.core core).sw = [] → g.trapping = none → reply (localCtx s.cur.gk) u = some (c, u) →
      ((if op = 7 then segWords (x.d.base, 128) else []).any fun a => c.stale u a 4 0) = false → staleFrom c u x n 0 [] = none →
      (op = 7 → segRead c u x.d.base 128 = some z) → sweepRuns core n begun (u.sweeping core begun) = some (y, v) →
      v.leaves (sweepDone core y) t → exec i s = .next t

/-- A load writes to its data register, for every lane it serves, what the checked location of the lane gives
(10_memory_ops.md R269, R272, R273); or it stays outstanding with its operands read, where it is to be performed later. -/
def Obligations.LoadWritesRegister : Prop :=
  ∀ (s : State) (g : Group) (h : Hdr) (i : Instr) (sh : MShape) (n : Need) (sx : Bool) (o : MWord),
    let v := memOperands s g sh o
    loadForm i = some (sh, n, sx, o) → MemGoes s i g h sh o →
    (memWaits s g i o v → staysOut s g i o v) ∧
    (¬memWaits s g i o v → (s.begun i g).gives (doLoad n sx o v) (exec i s) ∧
      ∀ (c : LocalCtx) (ts : List Tgt) (u : State), passes (s.begun i g) c n v.pairs ts u → (∀ t ∈ ts, tgtBad c u n.size t = false) →
        ∃ xs w, reply (loadAll c n.size o.evict.toNat (acquires o.ord) ts) u = some (xs, w) ∧
          exec i s = .next ((v.lanes.zip xs).foldl (fun t r => t.putData c.gk n.size sx o.data r) w))

/-- A store performs, lane by lane in ascending order, the write of its value at the lane's checked location; the highest lane
prevails (10_memory_ops.md R269, R271 to R273; 08_ordering_model.md R205, R216); or it stays outstanding. -/
def Obligations.StoreWritesLocations : Prop :=
  ∀ (s : State) (g : Group) (h : Hdr) (i : Instr) (sh : MShape) (n : Need) (o : MWord),
    let v := memOperands s g sh o
    storeForm i = some (sh, n, o) → MemGoes s i g h sh o →
    (memWaits s g i o v → staysOut s g i o v) ∧
    (¬memWaits s g i o v → (s.begun i g).gives (doStore n o v) (exec i s) ∧
      ∀ (c : LocalCtx) (ts : List Tgt) (r u : State),
        (if releases o.ord = true then (s.begun i g).leaves (releaseCore (coreOfGrp s.cur.gk) .core) r else r = s.begun i g) →
        passes r c n v.pairs ts u → ∃ w t,
          u.leaves ((ts.zip v.data).forM fun (t, x) => storeTgt c n.size x o.evict.toNat t) w ∧
          w.leaves (healMarks c n.size ts) t ∧ exec i s = .next t)

/-- An atomic or RED applies its operation to each lane's location in ascending lane order, and an atomic writes the old
values to its data register (10_memory_ops.md R280 to R282); or it stays outstanding. -/
def Obligations.AtomicsApplyInLaneOrder : Prop :=
  ∀ (s : State) (g : Group) (h : Hdr) (i : Instr) (a : Atom) (o : MWord),
    let v := memOperands s g (atomShape a) o
    atomOf i = some (a, o) → MemGoes s i g h (atomShape a) o →
    (memWaits s g i o v → staysOut s g i o v) ∧
    (¬memWaits s g i o v → (s.begun i g).gives (doAtom a o v) (exec i s) ∧
      ∀ (c : LocalCtx) (ts : List Tgt) (r u : State),
        (if releases o.ord = true then (s.begun i g).leaves (releaseCore (coreOfGrp s.cur.gk) o.scope) r else r = s.begun i g) →
        passes r c (atomNeed a o) v.pairs ts u → (∀ t ∈ ts, tgtBad c u a.size t = false) →
        ∃ es t, reply (atomRuns c a o ts v) u = some (es, t) ∧ exec i s = .next (t.counted (es.foldl Ev.or .none)))

/-- The new value of each integer atomic, from the old value m and the operand x (10_memory_ops.md R280). -/
def Obligations.AtomicNewValues : Prop :=
  let law (d : Bool) (n : Nat) : Prop := ∀ (r : Bool) (m x y : BitVec n),
    let new (a : Atom) : Nat := (a.new m.toNat x.toNat y.toNat).1
    new (addAtom d r) = (m + x).toNat ∧ new (minAtom false d r) = (if m.slt x then m else x).toNat ∧
    new (maxAtom false d r) = (if m.slt x then x else m).toNat ∧ new (minAtom true d r) = (if m.ult x then m else x).toNat ∧
    new (maxAtom true d r) = (if m.ult x then x else m).toNat ∧ new (andAtom d r) = (m &&& x).toNat ∧
    new (orAtom d r) = (m ||| x).toNat ∧ new (xorAtom d r) = (m ^^^ x).toNat ∧
    new (incAtom d r) = (if x.ule m then 0 else m + 1).toNat ∧ new (exchAtom d) = y.toNat ∧
    ∀ z, new (casAtom z) = (if m = x then y else m).toNat
  law false 32 ∧ law true 64

/-- A read-modify-write of a local location returns what the location held and stores the new value there
(10_memory_ops.md R280, R281). -/
def Obligations.LocalAtomicReturnsOld : Prop :=
  ∀ (s t : State) (c : LocalCtx) (sc : Scope) (n ev : Nat) (acq : Bool) (f : Nat → Nat) (a lane old : Nat),
    reply (rmwTgt c sc n ev acq f (.loc a lane)) s = some (old, t) →
    old = c.read s a n lane ∧ s.leaves (storeTgt c n (f (c.read s a n lane)) ev (.loc a lane)) t

/-- PREF, WB, INV and FENCE stay outstanding while accesses before them that they follow are, and otherwise complete: PREF may fill
caches, WB and INV write back and drop the copies of their lines, a FENCE puts what it covers into the clocks
(10_memory_ops.md R275 to R277; 08_ordering_model.md R217, R218). -/
def Obligations.CacheWordsComplete : Prop :=
  (∀ (s : State) (g : Group) (h : Hdr) (i : Instr) (o : MWord) (m : MVals → Op Unit),
    let v := memOperands s g lineShape o
    lineForm i = some (o, m) → MemGoes s i g h lineShape o →
    (memWaits s g i o v → staysOut s g i o v) ∧
    (¬memWaits s g i o v → (s.begun i g).gives (m v) (exec i s) ∧
      ((∃ p, i = .pref p) → ∃ t, (s.begun i g).leaves (doPref o v) t ∧ exec i s = .next t) ∧
      ∀ (c : LocalCtx) (ts : List Tgt) (u : State), (∀ p, i ≠ .pref p) →
        passes (s.begun i g) c ⟨spacesAll, false, false, 1, false, none⟩ v.pairs ts u → ∃ t,
          u.leaves (ts.forM fun t => match t with
            | .loc _ _ => pure ()
            | .virt r => (lineSectors r).forM (lineBack (coreOfGrp s.cur.gk) o.scope (match i with
              | .inv _ => true
              | _ => false))) t ∧ exec i s = .next t)) ∧
  ∀ (s : State) (g : Group) (h : Hdr) (o : MWord),
    let i := Instr.fence o
    let waits := s.cur.defer = true ∨ g.accessing = true
    let g' : Group := if acquires o.ord = true then
        { g with pend := g.pend.map fun p => if p.spans.isEmpty then p else { p with fence := .acquire } }
      else g
    Issues s i g h → s.activeOf g o.pred.toNat ≠ 0 →
    (waits → exec i s = .next (s.after i g (g'.holding { pendOf s g i (s.activeOf g o.pred.toNat) o.la.toNat [[0]] with
      fence := if acquires o.ord then .acquire else .writes
      after := true }))) ∧
    (¬waits → ∃ t, (s.after i g g').leaves (doFence o) t ∧ exec i s = .next t)

/-- WSIG stores its payload and then adds the number of its lanes to its flag, as a release of its payload; WAITLN with a timeout of 0
completes at once with 2 (10_memory_ops.md R278, R279; 08_ordering_model.md R225). -/
def Obligations.SignalAndWait : Prop :=
  (∀ (s : State) (g : Group) (h : Hdr) (d : Bool) (o : MWord),
    let i := Instr.wsig d o
    let z := (wd d).bytes
    let v := wsigVals s g d o
    let n : Need := ⟨spacesSig, false, true, z, false, none⟩
    Issues s i g h → s.activeOf g o.pred.toNat ≠ 0 →
    s.readable g (v.lanes.flatMap fun l => regElems z l o.data ++ regElems 4 l o.base) →
    (memWaits s g i o v → staysOut s g i o v) ∧
    (¬memWaits s g i o v → (s.begun i g).gives (doWsig z o v) (exec i s) ∧
      ∀ (c : LocalCtx) (ts fs : List Tgt) (u w : State), passes (s.begun i g) c n v.pairs ts u →
        passes u c { n with reads := true, atom := some o.scope } [(0, baseVal s s.cur.gk g 0 o.index)] fs w →
        (∀ t ∈ fs, tgtBad c w z t = false) → ∃ a t,
          w.leaves ((ts.zip v.data).forM fun (t, x) => storeTgt c z x o.evict.toNat t) a ∧
          a.leaves (do
            healMarks c z ts
            releaseCore (coreOfGrp s.cur.gk) o.scope
            fs.forM fun t => do
              let _ ← rmwTgt c o.scope z 0 (acquires o.ord) (fun x => (x + v.lanes.length) % 2 ^ (8 * z)) t) t ∧
          exec i s = .next t)) ∧
  ∀ (s u : State) (g g' : Group) (h : Hdr) (o : MWord) (r : BitVec 6) (c : LocalCtx) (t : Tgt),
    let i := Instr.waitln o
    let a := effAddr s s.cur.gk g 0 1 o
    o.data = .sreg r → Issues s i g h → s.activeOf g o.pred.toNat ≠ 0 →
    passes (s.begun i g) c ⟨spacesSig, false, false, 1, false, none⟩ [(0, a)] [t] u → tlook u.cur.gk u.groups = some g' →
    (g.scalar r.toNat = 0 → exec i s = .next (u.setGroup u.cur.gk (g'.setScalar r.toNat 2))) ∧
    (∀ x, g.scalar r.toNat ≠ 0 → t = .virt x →
      let l := x.pa / 128
      let cached := x.e.l1 && !x.host
      let watch := if cached then liveSectors u (coreOfGrp s.cur.gk) l else 0
      let till := u.cycle + min (g.scalar r.toNat).toNat (2 ^ 32 - 1)
      (cached = true → watch = 0 → exec i s = .next (u.setGroup u.cur.gk (g'.setScalar r.toNat 1))) ∧
      (cached = false ∨ watch ≠ 0 → exec i s = .next (u.setGroup u.cur.gk
        (g'.sleeps (.line l false r.toNat till watch (x.va / 128)) u.cycle))))

/-- TQRY writes the snapshot of its tile's entry (10_memory_ops.md R288). -/
def Obligations.TileQuery : Prop :=
  ∀ (s u : State) (g : Group) (h : Hdr) (o : MWord) (me : Agent) (slice e r : Nat) (y : Entry),
    let i := Instr.tqry o
    HandleGoes s i g h o → s.tileBegun i g o u → s.names g o me (slice, e, y, r) →
    exec i s = .next (u.told (g.begun i) o (y.rights * 2 ^ 36 +
      min 65535 ((s.home slice).waiting.filter fun q => q.entry = e).length * 2 ^ 20 +
      (if y.state = .read ∨ y.state = .splitR then min 255 y.holders.length else 0) * 2 ^ 12 +
      (if y.holds me then 1 else 0) * 2 ^ 8 + y.level * 2 ^ 4 + stateCode y.state))

/-- A request for tenure completes at once with the status that refuses it (no right, a conflict with the group's own tenure, too
large), and otherwise joins its slice's queue, which then grants what it can: the word stays outstanding until it is granted
(09_tiles_leases.md R240 to R243; 10_memory_ops.md R284). -/
def Obligations.TileAcquire : Prop :=
  ∀ (s u : State) (g : Group) (h : Hdr) (o : MWord) (write : Bool) (me : Agent) (slice e r : Nat) (y : Entry),
    let i := if write then Instr.tacqW o else Instr.tacqR o
    let right := Nat.land r (if write then rightWr else rightRd) ≠ 0
    let self' := selfConflict (s.home slice) me e write = true
    let large := write = true ∧ bufferSectors + spillSectors s (s.partOf y.tenant) < y.desc.sectors
    HandleGoes s i g h o → s.tileBegun i g o u → s.names g o me (slice, e, y, r) →
    (¬right → exec i s = .next (u.told (g.begun i) o tsNoRight)) ∧
    (right → self' → exec i s = .next (u.told (g.begun i) o tsSelf)) ∧
    (right → ¬self' → large → exec i s = .next (u.told (g.begun i) o tsTooBig)) ∧
    (right → ¬self' → ¬large → u.gives (enqueue i o slice e (baseVal s s.cur.gk g 0 o.base) write false) (exec i s))

/-- TREL and TCLOSE end a tenure or an entry where the group holds it and its handle has the right, TJOIN queues a join, and each
writes the status that refuses it otherwise; a release waits for the group's earlier writes to the tile (09_tiles_leases.md R243, R245, R249,
R250; 10_memory_ops.md R285, R287). -/
def Obligations.TileRelease : Prop :=
  ∀ (s u : State) (g : Group) (h : Hdr) (o : MWord) (me : Agent) (slice e r : Nat) (y : Entry),
    s.names g o me (slice, e, y, r) →
    (let i := Instr.trel o
     HandleGoes s i g h o → s.tileBegun i g o u → g.writesTile y.desc = false →
     (¬(y.holds me = true ∧ y.isSplit = false) → exec i s = .next (u.told (g.begun i) o tsNotHolder)) ∧
     (y.holds me = true → y.isSplit = false → Nat.land r (if y.writes then rightWr else rightRd) = 0 →
       exec i s = .next (u.told (g.begun i) o tsNoRight)) ∧
     (y.holds me = true → y.isSplit = false → Nat.land r (if y.writes then rightWr else rightRd) ≠ 0 →
       u.gives (do
         dropTenure slice e me
         tileDone o tsOk
         grants slice) (exec i s))) ∧
    (let i := Instr.tjoin o
     HandleGoes s i g h o → s.tileBegun i g o u →
     (Nat.land r rightSp = 0 → exec i s = .next (u.told (g.begun i) o tsNoRight)) ∧
     (Nat.land r rightSp ≠ 0 → ¬(y.isSplit = true ∧ y.splitter = some me) → exec i s = .next (u.told (g.begun i) o tsNotHolder)) ∧
     (Nat.land r rightSp ≠ 0 → y.isSplit = true → y.splitter = some me →
       u.gives (enqueue i o slice e (baseVal s s.cur.gk g 0 o.base) y.writes true) (exec i s))) ∧
    (let i := Instr.tclose o
     HandleGoes s i g h o → s.tileBegun i g o u →
     (Nat.land r rightCl = 0 → exec i s = .next (u.told (g.begun i) o tsNoRight)) ∧
     (Nat.land r rightCl ≠ 0 → (y.isSplit || y.holders.any (· != me)) = true → exec i s = .next (u.told (g.begun i) o tsBusy)) ∧
     (Nat.land r rightCl ≠ 0 → (y.isSplit || y.holders.any (· != me)) = false → (y.holds me = true → g.writesTile y.desc = false) →
       u.gives (do
         if y.holds me then dropTenure slice e me
         tileDone o tsOk
         closeEntry slice e
         grants slice) (exec i s)))

/-- An engine word whose block is legal takes the free slot of its die, gives its job a place in the order of issue, and puts
the future's handle into its data register under a hold (11_engines_futures.md R291, R296 to R301). -/
def Obligations.EngineWordIssuesJob : Prop :=
  ∀ (s : State) (g : Group) (h : Hdr) (b : Block) (q : Grid) (i : Instr) (kind slot : Nat) (o : MWord),
    let x := engineBlock g kind o
    let die := dieOfCore (coreOfGrp s.cur.gk)
    let t := tenantOf b.grid
    let d := s.die die
    let gen := d.headGen slot
    let job : Job := { kind := kind, mode := o.off.toNat, regs := [x.a, x.b, x.c, x.d], evict := o.evict.toNat, gk := s.cur.gk
                       core := coreOfGrp s.cur.gk, dst := regNum o.data, agent := ⟨.group s.cur.gk, b.grid, q.record.seq⟩
                       tenant := t, gds := g.gens.ds, tds := g.gens.tds, num := d.issues
                       before := (g.pend.filter fun p => !p.spans.isEmpty).map (·.id) }
    let d' : Die := { d with
      fresh := if d.fresh < 16384 then d.fresh + 1 else d.fresh
      freed := if d.fresh < 16384 then d.freed else d.freed.tail
      slots := tset slot ⟨gen, none, false, some (b.grid, q.record.seq)⟩ d.slots
      jobs := tset slot job d.jobs
      issues := d.issues + 1 }
    let g' := (g.begun i).setScalar (regNum o.data) (BitVec.ofNat 64 (futureHandle s die slot gen t))
    engineForm i = some (kind, o) → Issues s i g h → tlook (blkOfGrp s.cur.gk) s.blocks = some b → s.gridOf b.grid = some q →
    s.activeOf g o.pred.toNat ≠ 0 → engineAllowed s t x → x.bad = none → (ownedEngines s (s.partOf t) die kind).isEmpty = false →
    (∀ r ∈ x.ranges, rangeInvalid h r.2.1 r.2.2 = false) → (∀ r ∈ x.aligns, r.1 % r.2 = 0) →
    g.futures < 64 → cardsFull s die = false → d.head = some slot →
    exec i s = .next { s.after i g { g' with
        holds := (regNum o.data, die, slot) :: g'.holds
        futures := g'.futures + 1 } with dies := tput {} s.dies die d' }

/-- TOPEN of a descriptor that breaks a rule writes the status of the first rule broken, and otherwise a handle to the entry it
takes, with every right (09_tiles_leases.md R234 to R239; 10_memory_ops.md R283). -/
def Obligations.TileOpen : Prop :=
  ∀ (s r u : State) (g : Group) (h : Hdr) (o : MWord) (ts : List Tgt) (c : LocalCtx),
    let i := Instr.topen o
    HandleGoes s i g h o → s.tileBegun i g o r →
    passes r c ⟨spacesSig, true, false, 64, false, none⟩ [(0, baseVal s s.cur.gk g 0 o.base)] ts u → (∀ t ∈ ts, tgtBad c u 64 t = false) →
    ∃ xs v, reply (loadAll c 64 0 false ts) u = some (xs, v) ∧
      let d := wordsOf (xs.headD 0) 8
      let desc : TileDesc := Machine.descOf d
      let far := desc.base / 2 ^ 26 ≠ ((desc.rows.getLast?.getD desc.base) + desc.rowBytes - 1) / 2 ^ 26
      (∀ g', descBad d = true → tlook v.cur.gk v.groups = some g' → exec i s = .next (v.told g' o tsBadDesc)) ∧
      ∀ (ps : List (Nat × Bool)) (w : State) (g' : Group) (b : Block), descBad d = false → tlook (blkOfGrp v.cur.gk) v.blocks = some b →
        tileMapped desc v w ps → tlook w.cur.gk w.groups = some g' →
        (far → exec i s = .next (w.told g' o tsArena)) ∧
        (¬far → (ps.any fun p => p.1 != 2 || !p.2) = true → exec i s = .next (w.told g' o tsClass)) ∧
        ∀ me, ¬far → (ps.any fun p => p.1 != 2 || !p.2) = false → agentAt w w.cur.gk = some me →
          let n := tenantOf b.grid
          let slice := arenaSlice w (w.partOf n) n desc.base
          let y : Entry := ⟨desc, n, me.grid, me.seq, 15, .opened, [], none, none, 0, 0, [], []⟩
          (freeCount (w.home slice) = 0 → exec i s = .next (w.told g' o tsFull)) ∧
          (freeCount (w.home slice) ≠ 0 → ∃ e z, reply (takeEntry slice y) w = some (some e, z) ∧
            exec i s = .next (z.told g' o (tileHandle z slice e (entryGen (z.home slice) e) 15)))

/-- TSPLIT writes the status that refuses it, or makes the parts of the split, leaves the tile split in its agent's hands, stores the
parts' handles and reports success (09_tiles_leases.md R247; 10_memory_ops.md R286). -/
def Obligations.TileSplit : Prop :=
  ∀ (s r u : State) (g g' : Group) (h : Hdr) (b : Block) (o : MWord) (slice e rt : Nat) (y : Entry) (ts : List Tgt) (c : LocalCtx) (me : Agent),
    let i := Instr.tsplit o
    let dim := bits o.off.toNat 1 0
    let n := bits o.off.toNat 7 4 + 1
    let right := Nat.land rt rightSp ≠ 0
    let holds := y.holds me = true ∧ y.isSplit = false
    let bad := n < 2 ∨ y.desc.rank ≤ dim ∨ y.desc.ext.getD dim 1 % n ≠ 0 ∨ 3 ≤ y.level
    let full := freeCount (u.home slice) < n
    HandleGoes s i g h o → s.tileBegun i g o r →
    passes r c ⟨spacesSig, false, true, 8, false, none⟩ ((List.range n).map fun k => (0, baseVal s s.cur.gk g 0 o.index + 8 * k)) ts u →
    u.cur.gk = s.cur.gk → tlook (blkOfGrp s.cur.gk) u.blocks = some b → agentAt u s.cur.gk = some me → tlook s.cur.gk u.groups = some g' →
    openHandle u (tenantOf b.grid) (baseVal s s.cur.gk g 0 o.base) = some (slice, e, y, rt) → g'.writesTile y.desc = false →
    (¬right → exec i s = .next (u.told g' o tsNoRight)) ∧ (right → ¬holds → exec i s = .next (u.told g' o tsNotHolder)) ∧
    (right → holds → bad → exec i s = .next (u.told g' o tsBadSplit)) ∧
    (right → holds → ¬bad → full → exec i s = .next (u.told g' o tsFull)) ∧
    (right → holds → ¬bad → ¬full → u.gives (do
        if y.writes then publish slice e
        let parts ← takeParts slice (splitPart y e rt me dim n) (List.range n) y.reserved
        modEntry slice e fun x => { x with state := if y.writes then .splitW else .splitR, splitter := some me, reserved := 0 }
        let s ← get
        let c ← localCtx s.cur.gk
        (ts.zip parts).forM fun (t, k) =>
          storeTgt c 8 (tileHandle s slice k (entryGen (s.home slice) k) (Nat.land rt 14)) 0 t
        tileDone o tsOk
        grants slice) (exec i s))

/-- FTST, FWT and FCAN copy a completion value, write EXPIRED for a handle whose slot is past, and otherwise read the slot: FTST
copies its value or the handle, FWT copies its value or sleeps, FCAN copies its value or ends the job; a value that the job left
synchronises with the group that reads it (11_engines_futures.md R307, R309; 08_ordering_model.md R229). -/
def Obligations.FutureWords : Prop :=
  ∀ (s : State) (g : Group) (h : Hdr) (b : Block) (o : MWord),
    let v := (g.scalar (regNum o.base)).toNat
    let core := coreOfGrp s.cur.gk
    let told (i : Instr) (x : Nat) : State := (s.begun i g).told (g.begun i) o x
    tlook (blkOfGrp s.cur.gk) s.blocks = some b →
    (∀ i, futureForm i = some o → Acts s i g h →
      (v < 2 ^ 63 → exec i s = .next (told i v)) ∧
      (2 ^ 63 ≤ v → foreign s (tenantOf b.grid) v = false → futureOf s v = none →
        exec i s = .next (told i (completion jsExpired 0))) ∧
      ∀ die slot y, 2 ^ 63 ≤ v → foreign s (tenantOf b.grid) v = false → futureOf s v = some (die, slot, some y) →
        (i = .fcan o → exec i s = .next (told i y)) ∧
        (i ≠ .fcan o → ∃ u, (s.begun i g).leaves (acquireCore core) u ∧ exec i s = .next (u.told (g.begun i) o y))) ∧
    ∀ die slot, 2 ^ 63 ≤ v → foreign s (tenantOf b.grid) v = false → futureOf s v = some (die, slot, none) →
      (Acts s (.ftst o) g h → exec (.ftst o) s = .next (told (.ftst o) v)) ∧
      (Acts s (.fwt o) g h → exec (.fwt o) s = .next (s.after (.fwt o) g (g.sleeps (.future die slot (some (regNum o.data))) s.cycle))) ∧
      ∀ j, Acts s (.fcan o) g h → tlook slot (s.die die).jobs = some j →
        (s.begun (.fcan o) g).gives (do
          endJob die slot (j.status.getD jsCancelled)
          tileReply o (completion (j.status.getD jsCancelled) j.count)) (exec (.fcan o) s)

/-- BRA, CALL and RET set the address of the issuing slot, CALL also its link register; a target of RET that is no multiple of 8
traps; NOP does nothing (13_control_sync_ops.md R345, R348, R352; 02_words.md R58). -/
def Obligations.BranchCallReturn : Prop :=
  ∀ (s : State) (g : Group) (h : Hdr),
    let going (pc : W64) (x : Group) : Group := x.goTo s.cur.slotB pc
    (∀ off, let i := Instr.bra off
      Issues s i g h → exec i s = .next (s.after i g (going (target s.cur.pc off) g))) ∧
    (∀ l off, let i := Instr.call l off
      Issues s i g h → exec i s = .next (s.after i g (going (target s.cur.pc off) (g.setScalar l.toNat (s.cur.pc + 8))))) ∧
    (∀ a, let i := Instr.ret a
      Issues s i g h →
      (g.scalar a.toNat &&& 7 = 0 → exec i s = .next (s.after i g (going (g.scalar a.toNat) g))) ∧
      (g.scalar a.toNat &&& 7 ≠ 0 → exec i s = runOp (raise 0x03 (g.scalar a.toNat)) (s.begun i g))) ∧
    ∀ p, let i := Instr.nop p
      Issues s i g h → exec i s = .next (s.begun i g)

/-- LOOPB counts its register down to 0 and branches while it is not 0; no other register, and nothing but the group, changes
(13_control_sync_ops.md R349). -/
def Obligations.LoopCountsDown : Prop :=
  ∀ (s : State) (g : Group) (h : Hdr) (c : BitVec 6) (off : BitVec 32),
    let i := Instr.loopb c off
    let n := g.scalar c.toNat
    let n' := if n = 0 then n else n - 1
    Issues s i g h → ∃ loops refs,
      exec i s = .next (s.after i g { (g.setScalar c.toNat n').goTo s.cur.slotB (if n' = 0 then s.cur.pc + 8 else target s.cur.pc off) with
        loops := loops, refs := refs })

/-- BRC whose lanes all go one way moves its slot there without touching the stack; lanes that part, with the other slot
empty and room in the control area, leave a JOIN entry at SP, the lower path in the slot and the higher in the other; and
JTBL splits its lanes over the targets that its table gives (12_groups_progress.md R321, R322; 13_control_sync_ops.md R346, R347). -/
def Obligations.BranchesDiverge : Prop :=
  (∀ (s : State) (g : Group) (h : Hdr) (p : BitVec 3) (neg : Bool) (join : BitVec 18) (off : BitVec 32),
    let i := Instr.brc p neg join off
    let sl := g.slot s.cur.slotB
    let c := if neg then ~~~(g.pred p.toNat) else g.pred p.toNat
    let yes := target s.cur.pc off
    let no := s.cur.pc + 8
    let j := s.cur.pc + join.signExtend 64 * 8
    let split (a0 : W64) (m0 : Mask) (a1 : W64) (m1 : Mask) : Group :=
      { (g.putEntry g.sp ⟨j.toNat, sl.mask, sl.join, 2, false⟩).setSlot s.cur.slotB ⟨a0, m0, some g.sp⟩ with sp := g.sp + 1 }.setSlot
        (!s.cur.slotB) ⟨a1, m1, some g.sp⟩
    let parts := sl.mask &&& c ≠ 0 ∧ sl.mask &&& ~~~c ≠ 0 ∧ (g.slot (!s.cur.slotB)).mask = 0 ∧ g.sp < 32
    Issues s i g h →
    (sl.mask &&& c ≠ 0 → sl.mask &&& ~~~c = 0 → exec i s = .next (s.after i g (g.goTo s.cur.slotB yes))) ∧
    (sl.mask &&& c = 0 → sl.mask &&& ~~~c ≠ 0 → exec i s = .next (s.after i g (g.goTo s.cur.slotB no))) ∧
    (parts → yes.toNat < no.toNat → exec i s = .next (s.after i g (split yes (sl.mask &&& c) no (sl.mask &&& ~~~c)))) ∧
    (parts → no.toNat < yes.toNat → exec i s = .next (s.after i g (split no (sl.mask &&& ~~~c) yes (sl.mask &&& c)))) ∧
    (sl.mask &&& c ≠ 0 → sl.mask &&& ~~~c ≠ 0 → yes = no → exec i s = .next (s.after i g (g.goTo s.cur.slotB yes))) ∧
    (s.begun i g).gives (divide j (pathsOf [(yes, sl.mask &&& c), (no, sl.mask &&& ~~~c)])) (exec i s)) ∧
  ∀ (s u : State) (g : Group) (h : Hdr) (p : BitVec 3) (idx : Reg) (tb : BitVec 6) (join count : BitVec 16) (ts : List Tgt) (c : LocalCtx),
    let i := Instr.jtbl p idx tb join count
    let act := s.activeOf g p.toNat
    let ls := lanesOf g.width act
    let xs := ls.map fun l => tableIndex s s.cur.gk g l idx
    let addrs := xs.map fun (x : Nat) => ((g.scalar tb.toNat).toNat + 4 * x) % 2 ^ 64
    Issues s i g h → s.readable g (ls.flatMap fun l => regElems 4 l idx) → (∀ x ∈ xs, x < count.toNat) →
    passes (s.begun i g) c needTable (ls.zip addrs) ts u → u.cur.gk = s.cur.gk → (∀ t ∈ ts, tgtBad c u 4 t = false) →
    ∃ es v, reply (loadAll c 4 0 false ts) u = some (es, v) ∧
      v.gives (divide (s.cur.pc + join.signExtend 64 * 8) (pathsOf ((s.cur.pc + 8, (g.slot s.cur.slotB).mask &&& ~~~act) ::
        (ls.zip es).map fun x => (target s.cur.pc (BitVec.ofNat 32 x.2), BitVec.ofNat 128 (2 ^ x.1))))) (exec i s)

/-- JOIN is no arrival without an entry, or at another entry's word; the last path to arrive takes the entry's lanes on after the
JOIN and pops the entry; an earlier one empties its slot (12_groups_progress.md R323, R350). -/
def Obligations.JoinReconverges : Prop :=
  ∀ (s : State) (g : Group) (h : Hdr),
    let i := Instr.join
    let sl := g.slot s.cur.slotB
    Issues s i g h →
    (sl.join = none → exec i s = .next (s.begun i g)) ∧
    ∀ j, sl.join = some j → j < 32 →
      let e := g.entry j
      let x := g.putEntry j { e with pending := (e.pending + 65535) % 65536 }
      (e.pc ≠ s.cur.pc.toNat → exec i s = .next (s.begun i g)) ∧
      (e.pc = s.cur.pc.toNat → e.pending = 1 → exec i s = .next (s.after i g
        { x.setSlot s.cur.slotB ⟨BitVec.ofNat 64 (e.pc + 8), e.mask, e.link⟩ with sp := g.sp - 1 })) ∧
      (e.pc = s.cur.pc.toNat → e.pending ≠ 1 → exec i s = .next (s.after i g (x.setSlot s.cur.slotB { sl with mask := 0 })))

/-- EXIT takes its lanes out of the slot, and out of the entries that the slot's JOIN names; the group ends when no lane is left
in a slot or an entry, once its products, accesses and futures have ended (12_groups_progress.md R325; 13_control_sync_ops.md R351). -/
def Obligations.ExitRemovesLanes : Prop :=
  ∀ (s : State) (g : Group) (h : Hdr) (p : BitVec 3),
    let i := Instr.exit p
    let x := s.activeOf g p.toNat
    let sl := g.slot s.cur.slotB
    let left := sl.mask &&& ~~~x
    let e := sl.join.map fun j => g.entry j
    let out : Group := g.setSlot s.cur.slotB { sl with mask := left }
    Acts s i g h →
    (sl.join = none → exitEnds g s.cur x none = false → exec i s = .next (s.after i g out)) ∧
    (∀ j, sl.join = some j → g.sp ≤ 32 → j < 32 → exitEnds g s.cur x e = false → (s.begun i g).gives (do
        dropLanes s.cur.gk x 1024 (some j)
        modSelf fun g => g.setSlot s.cur.slotB { g.slot s.cur.slotB with mask := left }
        if left = 0 then arriveJoin j) (exec i s)) ∧
    (sl.join = none → exitEnds g s.cur x none = true → NoChain s g → g.pend = [] → g.holds = [] →
      (s.contribs.any fun e => e.2.gk = s.cur.gk) = false → (s.after i g out).gives (endGroup s.cur.gk) (exec i s))

/-- IDEM with the other slot empty opens a region and writes the checkpoint; IPREF fetches its lines; ISYNC drops the group's
references to code and makes every line of its core stale (13_control_sync_ops.md R352, R353, R366). -/
def Obligations.RegionAndCodeWords : Prop :=
  (∀ (s : State) (g : Group) (h : Hdr) (m : BitVec 32),
    let i := Instr.idem m
    let us := (List.range g.units.length).filter fun u => m.getLsbD u
    Issues s i g h → (g.slot (!s.cur.slotB)).mask = 0 → g.pend = [] → g.holds = [] →
    (s.after i g { g with
      regionOpen := true
      due := g.due ++ (0, checkpoint g s.cur m) ::
        us.map fun u => (0x1A000 + 32 * g.width * u, unitImage s s.cur.gk g u) }).gives (flushDue s.cur.gk) (exec i s)) ∧
  (∀ (s : State) (g : Group) (h : Hdr) (p : BitVec 3) (n : BitVec 4) (off : BitVec 32),
    let i := Instr.ipref p n off
    Acts s i g h →
    (s.begun i g).gives ((List.range (n.toNat + 1)).forM fun k => prefetchLine ((target s.cur.pc off).toNat / 128 + k)) (exec i s)) ∧
  ∀ (s : State) (g : Group) (h : Hdr) (p : BitVec 3),
    let i := Instr.isync p
    let c := coreOfGrp s.cur.gk
    Acts s i g h → g.pend = [] → g.holds = [] →
    exec i s = .next { s.after i g { g with refs := [], loops := [] } with
      cores := tput {} s.cores c { s.core c with ibuf := (s.core c).ibuf.map fun l => (l.1, { l.2 with stale := true }) } }

/-- BARA and BARS add the group to the arrivals of the phase, which completes when none is missing, as
that of a block with one live group does; BARW passes when the phase at which the group arrived last is over, and waits for its end otherwise
(12_groups_progress.md R335, R336; 13_control_sync_ops.md R355). -/
def Obligations.BarriersArriveAndWait : Prop :=
  (∀ (s : State) (g : Group) (h : Hdr) (b : Block) (p : BitVec 3) (lvl : BarLevel) (n : BitVec 4),
    let gk := s.cur.gk
    let bk := blkOfGrp gk
    let me := barMember lvl.code (gk % 64) b
    let x (s : State) : Barrier := getBarrier s bk lvl.code n.toNat b
    let waits (b : Block) : Wait := .phase lvl.code (barKey bk lvl.code b) n.toNat true
    let arrive : Op Unit := do
      putBarrier bk lvl.code n.toNat b { x s with arrived := me :: (x s).arrived }
      modSelf fun g => { g with arrived := tset (lvl.code * 16 + n.toNat) (x s).phase g.arrived }
      checkPhase bk lvl.code n.toNat
    tlook bk s.blocks = some b →
    ((x s).arrived.contains me = false →
      (Acts s (.bara p lvl n) g h → g.accessing = false → ∃ t, (s.begun (.bara p lvl n) g).leaves arrive t ∧ exec (.bara p lvl n) s = .next t) ∧
      (Acts s (.bars p lvl n) g h → g.accessing = false → ∃ u b', (s.begun (.bars p lvl n) g).leaves arrive u ∧ tlook bk u.blocks = some b' ∧
        let y := (getBarrier u bk lvl.code n.toNat b').arrived.contains (barMember lvl.code (gk % 64) b')
        (y = false → ∃ t, u.leaves (acquireCore (coreOfBlk bk)) t ∧ exec (.bars p lvl n) s = .next t) ∧
        (y = true → ∃ t, u.leaves (sleepOn (waits b')) t ∧ exec (.bars p lvl n) s = .next t)) ∧
      (Acts s (.barw p lvl n) g h → ∃ t, (s.begun (.barw p lvl n) g).leaves (acquireCore (coreOfBlk bk)) t ∧
        exec (.barw p lvl n) s = .next t)) ∧
    ((x s).arrived.contains me = true → Acts s (.barw p lvl n) g h →
      exec (.barw p lvl n) s = .next (s.after (.barw p lvl n) g (g.sleeps (waits b) s.cycle)))) ∧
  ∀ (s : State) (b : Block) (x : Grid) (h : Hdr) (bk me n : Nat),
    let y := tget {} b.bars n
    tlook bk s.blocks = some b → s.gridOf b.grid = some x → x.hdr = some h → b.live = [me] → y.arrived = [me] →
    (∀ e ∈ s.groups, e.2.asleep = none) → s.leaves (checkPhase bk 0 n) { s with
      blocks := tset bk { b with bars := tput {} b.bars n { arrived := [], phase := !y.phase } } s.blocks }

/-- A push, a pop and a QCLOSE of a bound queue perform one step of its ring, or wait at its execution point; an unbound queue traps;
QSTAT reads the binding and the ring; QBIND binds a ring that its space holds (12_groups_progress.md R330 to R334;
13_control_sync_ops.md R356, R357). -/
def Obligations.QueueWords : Prop :=
  ∀ (s : State) (g : Group) (h : Hdr) (b : Block) (p q : BitVec 3) (src : Reg) (dst : Dst) (d : BitVec 6),
    let e := g.binding q.toNat
    let entry := e % 2 ^ 32
    let z := (ringOf entry).size
    let c := s.cur
    let m := s.activeOf g p.toNat
    let steps (i : Instr) (w : RingWait) : Prop := (s.begun i g).gives (queueStep w) (exec i s)
    (bitOf e 63 = true →
      (Acts s (.queuePush p q src) g h → g.accessing = false →
        s.readable g (((lanesOf g.width m).filter (· < z / 4)).flatMap fun l => regElems 4 l src) →
        steps (.queuePush p q src) ⟨c.gk, 0, c.pc, c.slotB, m, none, pushData s c.gk g m z src, entry⟩) ∧
      (Acts s (.queuePop p dst q) g h → steps (.queuePop p dst q) ⟨c.gk, 1, c.pc, c.slotB, m, some dst, 0, entry⟩) ∧
      (Acts s (.qclose p q) g h → g.accessing = false → steps (.qclose p q) ⟨c.gk, 2, c.pc, c.slotB, m, none, 0, entry⟩)) ∧
    (bitOf e 63 = false → ∀ i, i = .queuePush p q src ∨ i = .queuePop p dst q ∨ i = .qclose p q → Acts s i g h →
      exec i s = runOp (raise 0x0F (BitVec.ofNat 64 q.toNat)) (s.begun i g)) ∧
    (Acts s (.qstat p d q) g h → tlook (blkOfGrp c.gk) s.blocks = some b →
      let lc : LocalCtx := ⟨c.gk, g.begun (.qstat p d q), b, h⟩
      let u := s.begun (.qstat p d q) g
      exec (.qstat p d q) s = .next (s.after (.qstat p d q) g (g.setScalar d.toNat (BitVec.ofNat 64 (if bitOf e 63 then
        entry + ringCount lc u (ringOf entry) % 256 * 2 ^ 32 + b2n (ringClosed lc u (ringOf entry)) * 2 ^ 40 + 2 ^ 41 else 0))))) ∧
    ∀ x, let i := Instr.qbind p q x
      let entry := match x with
        | .imm y => y.toNat
        | .reg m => (g.scalar m.toNat).toNat % 2 ^ 32
      let ring := ringOf entry
      let room := if bitOf entry 31 then 4 * h.qmem * 16384 else h.scratch * 4096
      let beyond := room < offOf ring.base + 64 + ring.slots * ring.size
      Acts s i g h →
      (¬beyond → exec i s = .next (s.after i g { g.begun i with
        ctl := tput 0 g.ctl (80 + 2 * q.toNat) (BitVec.ofNat 64 (2 ^ 63 + entry)) })) ∧
      (beyond → exec i s = runOp (raise 0x02 (BitVec.ofNat 64 (spaceOf ring.base * 2 ^ 56 + room))) (s.begun i g))

/-- YIELD keeps its group from issuing until its cycles have passed; QUOTA.GIVE returns the top units to the block's pool when no outstanding word
is to write them, QUOTA.TAKE joins the pool's queue, and the first of the queue gets its units when the pool holds them
(12_groups_progress.md R337, R338; 13_control_sync_ops.md R358, R365). -/
def Obligations.YieldAndQuota : Prop :=
  (∀ (s : State) (g : Group) (h : Hdr) (p : BitVec 3),
    let gk := s.cur.gk
    (∀ n, let i := Instr.yield p n
      Acts s i g h → exec i s = .next (s.after i g { g with
        yieldTill := if n = 0 then 0 else s.cycle + n.toNat + 1, yielded := n = 0 })) ∧
    (∀ n, let i := Instr.quotaGive p n
      let keep := g.units.length - n.toNat
      Acts s i g h → (∀ x ∈ g.pend, ∀ r, 8 * keep ≤ r → RKey.v r ∉ x.wr ∧ RKey.v r ∉ x.kept) →
      (s.after i g { g.begun i with units := g.units.take keep }).gives (do
        poolUnits (blkOfGrp gk) g.width (g.units.drop keep)
        serveTakes (blkOfGrp gk) 65) (exec i s)) ∧
    ∀ n b, let i := Instr.quotaTake p n
      Acts s i g h → tlook (blkOfGrp gk) s.blocks = some b →
      ({ s.after i g ((g.begun i).sleeps .units s.cycle) with
        blocks := tset (blkOfGrp gk) { b with takes := b.takes ++ [(gk % 64, n.toNat)] } s.blocks }).gives
        (serveTakes (blkOfGrp gk) 65) (exec i s)) ∧
  ∀ (s : State) (g : Group) (b : Block) (bk gi n : Nat),
    tlook bk s.blocks = some b → b.takes = [(gi, n)] → n ≤ b.pool.length → tlook (bk * 64 + gi) s.groups = some g →
    g.asleep = none → s.leaves (serveTakes bk 2) { s with
      blocks := tset bk { b with pool := b.pool.drop n, takes := [] } s.blocks
      groups := tset (bk * 64 + gi) { g with units := g.units ++ b.pool.take n } s.groups }

/-- TRAP enters the handler with its cause and code; so does BKPT of a group that is not under debug, which passes when its grid has
no trap entry or the debugger has released it (13_control_sync_ops.md R361; 16_recovery.md R434 to R438). -/
def Obligations.TrapAndBreakpoint : Prop :=
  ∀ (s : State) (g : Group) (h : Hdr) (b : Block) (p : BitVec 3) (code : BitVec 16),
    let info (c : Nat) : TrapInfo := { cause := c, addr := code.setWidth 64, perf := true }
    let here (i : Instr) : List Recorded := ⟨s.cur.pc, s.cur.slotB, s.activeOf g (predOf i), none⟩ :: g.replay
    let enters (i : Instr) (c : Nat) : Prop := ∀ entry, TrapReady s g entry →
      exec i s = .next (((s.begun i g).unlatched s.cur.gk).setGroup s.cur.gk (g.handling s.cycle entry (info c) (here i)))
    (Acts s (.trap p code) g h → enters (.trap p code) 0x10) ∧
    (tlook (blkOfGrp s.cur.gk) s.blocks = some b → Acts s (.bkpt p code) g h →
      (g.released = true → exec (.bkpt p code) s = .next (s.after (.bkpt p code) g { g with released := false })) ∧
      (g.released = false → debugOn s b.grid = false → enters (.bkpt p code) 0x11 ∧
        ∀ x, s.gridOf b.grid = some x → trapEntry? x = none → g.handler = none → exec (.bkpt p code) s = .next (s.begun (.bkpt p code) g)))

/-- A trap, but an Illegal Instruction or Uncorrectable Data, whose further effects are not of this statement, enters the handler of a group
with nothing else under way, an Access Violation with the answers of FAIL used up; in a handler a trap aborts the grid with Nested Trap;
without a trap entry it aborts the grid with its cause (16_recovery.md R433 to R438; 12_groups_progress.md R320; 15_isolation.md R418). -/
def Obligations.TakingATrap : Prop :=
  ∀ (s : State) (g : Group) (b : Block) (x : Grid) (t : TrapInfo),
    tlook s.cur.gk s.groups = some g → tlook (blkOfGrp s.cur.gk) s.blocks = some b → s.gridOf b.grid = some x →
    t.cause ≠ 1 → t.cause ≠ 8 →
    (∀ entry, TrapReady s g entry → (takeTrap t).run s = .ok () ((s.unlatched s.cur.gk).setGroup s.cur.gk
      ((g.excused t).handling s.cycle entry t (⟨s.cur.pc, s.cur.slotB, s.cur.act, none⟩ :: g.replay)))) ∧
    (t.cause ≠ 4 → g.handler ≠ none → (takeTrap t).run s = (abortGrid b.grid 0x21).run s) ∧
    (t.cause ≠ 4 → g.handler = none → trapEntry? x = none → t.cause ≠ 0x11 → (takeTrap t).run s = (abortGrid b.grid t.cause).run s)

/-- RESUME returns: both slots and SP come from the frame, the group leaves its handler, the recorded words issue again; ABORT
ends the grid with the cause written; both are illegal outside a handler (13_control_sync_ops.md R359; 16_recovery.md R440, R441). -/
def Obligations.ResumeAndAbort : Prop :=
  ∀ (s : State) (g : Group) (h : Hdr) (b : Block) (p : BitVec 3) (n : BitVec 6),
    let v : W64 := BitVec.ofNat 64 (constInt 64 n.toNat)
    let c := bits v.toNat 15 8
    tlook (blkOfGrp s.cur.gk) s.blocks = some b →
    (g.handler ≠ none → Acts s (.resume p n) g h → g.pend = [] → (tget 0 g.ctl 99).toNat / 2 ^ 32 ≤ 1024 →
      exec (.resume p n) s = .next (s.after (.resume p n) g
        { g.returned with trapCause := keepRo 0xFFFF00 g.trapCause v })) ∧
    (g.handler ≠ none → Acts s (.abort p n) g h →
      ∃ t, (s.begun (.abort p n) g).leaves (abortGrid b.grid (if c = 0 then 0x24 else c)) t ∧ exec (.abort p n) s = .next t) ∧
    (g.handler = none → ∀ i, i = .resume p n ∨ i = .abort p n → Issues s i g h → exec i s = runOp (illegal 8) (s.begun i g))

/-- RDSR writes LANEID by lane, every other listed register once or to each lane, and is illegal for a number not listed; RDCT
reads its counter; WRSR in a handler writes the bits of a trap register that can be written, and is illegal outside one (01_machine.md R21 to R25; 13_control_sync_ops.md R359, R360). -/
def Obligations.SpecialRegisters : Prop :=
  ∀ (s : State) (g : Group) (h : Hdr) (b : Block) (p : BitVec 3) (num : BitVec 8),
    tlook (blkOfGrp s.cur.gk) s.blocks = some b →
    (∀ dst, let i := Instr.rdsr p dst num
      let m := s.activeOf g p.toNat
      Issues s i g h →
      (num = 0 → dst.isLane = true → exec i s = .next ((s.begun i g).putResults false dst ((lanesOf g.width m).map fun l => (l, l)))) ∧
      (num = 0 → dst.isLane = false → exec i s = runOp (illegal 8) (s.begun i g)) ∧
      (num ≠ 0 → ∀ v, specialReg s s.cur.gk g b h num.toNat = some v →
        exec i s = .next ((s.begun i g).putResults false dst ((workLanes g.width dst m).map fun l =>
          (l, if dst.isLane then v.toNat % 2 ^ 32 else v.toNat)))) ∧
      (num ≠ 0 → specialReg s s.cur.gk g b h num.toNat = none → exec i s = runOp (illegal 8) (s.begun i g))) ∧
    (∀ d c, let i := Instr.rdct p d c
      let e := (s.core (coreOfGrp s.cur.gk)).events
      Acts s i g h → exec i s = .next (s.after i g (g.setScalar d.toNat (BitVec.ofNat 64 (match c with
        | .cycles => sat48 (s.cycle - b.placedAt)
        | .issued => g.issued
        | .sleep => g.slept
        | .lclock => s.lc (coreOfGrp s.cur.gk)
        | .nv => e.nv
        | .of => e.of
        | .ic => e.ic
        | .sb => e.sb))))) ∧
    ∀ a, let i := Instr.wrsr p num a
      let v := sargVal g a
      Acts s i g h →
      (g.handler = none → exec i s = runOp (illegal 8) (s.begun i g)) ∧
      (g.handler ≠ none →
        (num = 0x08 → exec i s = .next (s.after i g { g with trapPc := keepRo (~~~7) g.trapPc v })) ∧
        (num = 0x09 → v.getLsbD 0 = false → v.getLsbD 1 = false →
          exec i s = .next (s.after i g { g with trapCause := keepRo 0xFFFF00 g.trapCause v })) ∧
        (num = 0x0A → exec i s = .next (s.after i g { g with trapAddr := v })) ∧
        (num = 0x0B → exec i s = .next (s.after i g { g with rowprog := keepRo rowprogRw g.rowprog v })))

/-- SVC of the tenant's services and PAGESYNC put the group to sleep until they are answered; any other service writes 1; LAUNCH
serves its lanes in ascending order (13_control_sync_ops.md R362 to R364; 09_tiles_leases.md R261). -/
def Obligations.ServicesAndLaunch : Prop :=
  ∀ (s : State) (g : Group) (h : Hdr) (b : Block) (p : BitVec 3) (d a : BitVec 6),
    tlook (blkOfGrp s.cur.gk) s.blocks = some b →
    (∀ n, let i := Instr.svc p d a n
      Acts s i g h → g.accessing = false →
      (n.toNat < 0x8000 → exec i s = .next (s.after i g
        ((g.begun i).sleeps (.reply d.toNat (g.scalar a.toNat) n.toNat) s.cycle))) ∧
      (0x8000 ≤ n.toNat → ∃ t, (s.begun i g).leaves (do
        acquireCore (coreOfGrp s.cur.gk)
        modSelf fun g => g.setScalar d.toNat 1) t ∧ exec i s = .next t)) ∧
    (let i := Instr.pagesync p d a
      let va := g.scalar a.toNat
      Acts s i g h → g.accessing = false →
      exec i s = .next { s.after i g ((g.begun i).sleeps (.reply d.toNat va 0x8000) s.cycle) with
        dev := { s.dev with syncs := s.dev.syncs ++ [(tenantOf b.grid, va.toNat / 4096, s.cur.gk)] } }) ∧
    ∀ (u : State) dst idx ts c, let i := Instr.launch p dst a idx
      let ls := launchLanes g.width dst idx (s.activeOf g p.toNat)
      Acts s i g h → s.readable g (ls.flatMap fun l => regElems 4 l idx) →
      passes (s.begun i g) c needRecord (ls.map fun l => (l, ((g.scalar a.toNat).toNat + 64 * indexVal s s.cur.gk g l idx) % 2 ^ 64)) ts u →
      u.cur.gk = s.cur.gk → tlook s.cur.gk u.groups = some c.g → c.g.accessing = false → (∀ t ∈ ts, tgtBad c u 64 t = false) →
      u.gives (do
        (ls.zip ts).forM fun x => do
          if !(← self).launched.getLsbD x.1 then launchLane c dst x.1 x.2
        modSelf fun g => { g with launched := 0 }) (exec i s)

/-- MMA and MMSP with legal operands go into the queue of their core's unit with the snapshot of their descriptor and scales; where the agenda
has a word performed at once, the unit goes on with it as far as it can (07_matrix.md R169 to R176, R181, R184, R193 to R195). -/
def Obligations.ProductWordsRun : Prop :=
  ∀ (s : State) (g : Group) (h : Hdr) (b : Block) (f : XFmt) (sparse : Bool) (o : XWord),
    let i := if sparse then Instr.mmsp f o else Instr.mma f o
    let gk := s.cur.gk
    let core := coreOfGrp gk
    let x := productWork s g i f sparse o
    let c : LocalCtx := ⟨gk, g.begun i, b, h⟩
    let u := s.withWork i g (s.activeOf g o.pred.toNat) o.la.toNat x
    Issues s i g h → tlook (blkOfGrp gk) s.blocks = some b → s.activeOf g o.pred.toNat ≠ 0 → s.cur.only = none →
    (s.core core).mx.length < 8 → DescLegal x.w.desc true → operandBadAt c (s.begun i g) x.w true = none →
    operandBadAt c (s.begun i g) x.w false = none → s.readable g (scaleElems f o.scale.toNat) →
    (s.cur.defer = true → exec i s = .next u) ∧
    (s.cur.defer = false → u.gives (do
      matrixRun core gk g.nextId 200
      match (← get).contribs.find? fun e => e.2.gk = gk && e.2.pid = some g.nextId with
      | some e => arriveNow e.1
      | none => pure ()) (exec i s))

/-- MZERO makes the rows of C zero and empties their record; MCFG makes or frees a record of C that holds no contribution; MRES goes
on with what ROWPROG saved, and does nothing without (07_matrix.md R187, R188, R196, R199). -/
def Obligations.MatrixRecordsAndResume : Prop :=
  (∀ (s u v : State) (g : Group) (h : Hdr) (b : Block) (o : XCfg) (slice : Nat) (refs : List VRef),
    let i := Instr.mzero o
    let gk := s.cur.gk
    let d := snapDesc g o.desc
    let rows := rowMask g.width (kindRows o.kind.toNat) o.rm (s.activeOf g o.pred.toNat)
    let caddr := d.getD 2 0
    let t := tenantOf b.grid
    Issues s i g h → s.activeOf g o.pred.toNat ≠ 0 → NoChain s g → tlook (blkOfGrp gk) s.blocks = some b → DescLegal d false →
    sliceFor (s.begun i g) g t caddr true slice u → u.cur.gk = gk →
    accFor u g t (rows.flatMap fun r => rowPieces caddr (cstrOf d) r) refs v →
    v.gives (do
      refs.forM fun r => do
        let _ ← accPiece (coreOfGrp gk) r (kindBytes o.kind.toNat) fun _ _ => some (0, .none)
        healBytes r.pa 256
      match recAt (← get) slice t caddr with
      | some r =>
        modRec slice t caddr fun r => { r with next := 0, held := [] }
        r.held.forM fun h => retireContrib h.2
      | none => pure ()) (exec i s)) ∧
  (∀ (s u : State) (g : Group) (h : Hdr) (b : Block) (x : Grid) (o : XCfg) (slice : Nat),
    let i := Instr.mcfg o
    let d := snapDesc g o.desc
    let n := tenantOf b.grid
    let caddr := d.getD 2 0
    let splits := o.split.toNat + 1
    let rest := (recsAt u slice).filter fun r => !(r.tenant = n && r.caddr = caddr)
    Issues s i g h → s.activeOf g o.pred.toNat ≠ 0 → NoChain s g → tlook (blkOfGrp s.cur.gk) s.blocks = some b →
    (o.kind = 3 ∨ splits < 2 ∨ spaceOf (d.getD 0 0) = 0 ∧ d.getD 0 0 % 256 = 0) →
    sliceFor (s.begun i g) g n caddr false slice u → u.cur.gk = s.cur.gk →
    (recAt u slice n caddr).any (fun r => !r.held.isEmpty) = false →
    (o.kind = 3 → exec i s = .next { u with accs := tput [] u.accs slice rest }) ∧
    (o.kind ≠ 3 → ((recAt u slice n caddr).isSome = true ∨ (recsAt u slice).length < 64) →
      tlook (blkOfGrp s.cur.gk) u.blocks = some b → u.gridOf b.grid = some x →
      let made : AccRec := ⟨n, caddr, b.grid, x.record.seq, o.kind.toNat, splits, 0, d.getD 0 0, []⟩
      exec i s = .next { u with accs := tput [] u.accs slice (rest ++ [made]) })) ∧
  ∀ (s : State) (g : Group) (h : Hdr) (b : Block) (sparse : Bool) (o : XWord),
    let i := Instr.mres sparse o
    Issues s i g h → s.activeOf g o.pred.toNat ≠ 0 → tlook (blkOfGrp s.cur.gk) s.blocks = some b →
    (g.rowprog.getLsbD 63 = false → exec i s = .next (s.begun i g)) ∧
    ∀ f, g.rowprog.getLsbD 63 = true → xfmtOf (bits g.rowprog.toNat 55 48) = some f →
      (s.part (s.partOf (tenantOf b.grid))).feat = 0 → XWord.wf f sparse { o with scale := 0 } = true →
      (s.core (coreOfGrp s.cur.gk)).mx.length < 8 →
      (s.begun i g).gives (resumeWord i f sparse o (s.activeOf g o.pred.toNat)) (exec i s) ∧
      ∀ ch u, reply (restoreMatrix s.cur.gk f) (s.begun i g) = some (ch, u) →
        u.gives (enqueueWork i o.la.toNat (s.activeOf g o.pred.toNat) fun pid => {
          gk := s.cur.gk, pid := pid, word := ((encode i).map BitVec.toNat).getD 0
          w := ⟨f, sparse, o.ta, o.tb, o.kcount.toNat, o.selA.toNat, o.selB.toNat, ch.desc, ch.scales⟩
          rows := (rowsOf (matM f) ch.rows).filter (bits g.rowprog.toNat 39 32 ≤ ·)
          all := ch.rows, split := o.split.toNat, det := o.det, chain := o.chain, part := ch.elems, resumed := true }) (exec i s)

/-- Each Beam word does its arithmetic, its branch, its access of Mooring or of a counter, or ends its call
(14_dispatch_lanterns.md R387 to R393). -/
def Obligations.BeamWordsCompute : Prop :=
  ∀ (s : State) (k : Call), (s.lantern s.cur.lan).call = some k → k.ended = 0 →
    let runs (i : Instr) (x : Call) : Prop := beamRuns s k i (beamPlain s x)
    (∀ d a x, let u := k.reg a
      let v := k.arg x
      let sets (i : Instr) (y : W32) : Prop := runs i (k.setReg d y).step
      sets (.beamAdd d a x) (u + v) ∧ sets (.beamSub d a x) (u - v) ∧ sets (.beamMul d a x) (u * v) ∧
      sets (.beamAnd d a x) (u &&& v) ∧ sets (.beamOr d a x) (u ||| v) ∧ sets (.beamXor d a x) (u ^^^ v) ∧
      sets (.beamShl d a x) (u <<< v) ∧ sets (.beamShr d a x) (u >>> v) ∧
      sets (.beamMin d a x) (if v.ult u then v else u) ∧ sets (.beamMax d a x) (if u.ult v then v else u) ∧
      sets (.beamClt d a x) (if u.ult v then 1 else 0) ∧ sets (.beamCeq d a x) (if u = v then 1 else 0) ∧
      sets (.beamMov d a) u ∧ sets (.beamDec d) (if k.reg d = 0 then 0 else k.reg d - 1) ∧
      ∀ n, sets (.beamLdi d n) (n.signExtend 32)) ∧
    (∀ a f, runs (.beamBf a f) (if k.reg a = 0 then k.goto (k.pc + f.toNat) else k.step) ∧
      runs (.beamJf f) (k.goto (k.pc + f.toNat)) ∧
      runs (.beamLoop f) { k with pc := k.pc + 1, loops := (k.pc, f.toNat) :: k.loops }) ∧
    (k.loops = [] → runs .beamEndl k.step) ∧
    (∀ p n rest, k.loops = (p, n) :: rest → runs .beamEndl (if n ≤ 1 then { k with pc := k.pc + 1, loops := rest }
      else { k with pc := p + 1, loops := (p, n - 1) :: rest })) ∧
    runs .beamRet { k with ended := 1 } ∧
    (∀ d a c, let v := min ((k.cands.getD (k.reg a).toNat []).getD c.toNat 0) (2 ^ 32 - 1)
      beamRuns s k (.beamCtr d a c) ⟨4, (k.setReg d (BitVec.ofNat 32 v)).step, s.mooring, s.poison⟩) ∧
    ∀ d a x, let w := k.moorWord a x
      (s.poison.moor.contains w = false →
        beamRuns s k (.beamMrd d a x) ⟨12, (k.setReg d (tget 0 s.mooring w)).step, s.mooring, s.poison⟩) ∧
      beamRuns s k (.beamMwr d a x) ⟨12, k.step, tput 0 s.mooring w (k.reg d),
        { s.poison with moor := s.poison.moor.filter (· != w) }⟩

/-- Every well-formed Beam word decodes from its encoding, with every register, immediate and offset as it was
(14_dispatch_lanterns.md R387, R388). -/
def Obligations.BeamWordsRoundTrip : Prop :=
  ∀ (i : Instr) (w : W32), i.wf = true → encodeBeam i = some w → decodeBeam w = .ok i

/-- The events of one group, its core and its block: a handler entered, an outstanding word performed, a reply, the end of a YIELD
and of a WAITLN, the debugger's release, a core's clock, the release of a block, the watchdog of a pre-emption, and the arrival of
products (02_words.md R65, R67; 12_groups_progress.md R340; 13_control_sync_ops.md R358, R361; 14_dispatch_lanterns.md R380; 16_recovery.md R435,
R449). -/
def Obligations.GroupEvents : Prop :=
  (∀ (s : State) (gk : Nat) (g : Group), tlook gk s.groups = some g →
    (∀ b x entry v list, g.trapping = some (v, list) → tlook (blkOfGrp gk) s.blocks = some b → s.gridOf b.grid = some x →
      trapEntry? x = some entry →
      (quiet s gk g = true → g.chain = none → exec (.trapEntry gk) s = .next (s.setGroup gk (g.handling s.cycle entry v list))) ∧
      (quiet s gk g = false → exec (.trapEntry gk) s = .next s)) ∧
    (∀ id p m, (∀ d a n z, g.asleep ≠ some ⟨.reply d a n, z⟩) → (g.pend.find? fun p => p.id = id) = some p → pendOp p = some m →
      g.performs = true → p.fin = false → waitsFor s (coreOfGrp gk) (tenantAt s gk) (earlierPend g p.id) p = false →
      let u : State := { s with cur := { gk := gk, slotB := p.slotB, pc := p.pc, act := p.mask, wasOpen := g.regionOpen, held := true } };
      u.gives (performPend gk p m) (exec (.longLatencyComplete gk id) s) ∧
      ∀ v, u.leaves m v → ∃ t, v.leaves (completePend gk p.id 1) t ∧ exec (.longLatencyComplete gk id) s = .next t) ∧
    (∀ id d a n z, g.asleep = some ⟨.reply d a n, z⟩ → n < 0x8000 → ∃ t, ({ s with freeCtr := s.freeCtr + 1 } : State).leaves (do
        acquireCore (coreOfGrp gk)
        modGroup gk fun g => g.setScalar d (Config.freeWord s.freeCtr)
        wake gk 1) t ∧ exec (.longLatencyComplete gk id) s = .next t) ∧
    (g.yieldTill ≠ 0 → g.yieldTill ≤ s.cycle → exec (.yieldExpire gk) s = .next (s.setGroup gk { g with yieldTill := 0 })) ∧
    (s.cycle < g.yieldTill → exec (.yieldExpire gk) s = .next s) ∧
    (∀ a l d till k v z, g.asleep = some ⟨.line a l d till k v, z⟩ → till ≤ s.cycle → ∃ t, s.leaves (endWait gk 2 6) t ∧
      exec (.waitlnTimeout gk) s = .next t) ∧
    (∀ z, g.asleep = some ⟨.debug, z⟩ → ∃ t, (s.setGroup gk { g with released := true }).leaves (wake gk 10) t ∧
      exec (.debugRelease gk) s = .next t) ∧
    ((∀ z, g.asleep ≠ some ⟨.debug, z⟩) → s.gives (endSleep gk 10) (exec (.debugRelease gk) s))) ∧
  (∀ (s : State) (c : Nat), c < cores → (s.core c).gated = false → (s.core c).idle + 16 ≤ s.cycle → atWork s c = false →
    exec (.coreClockGate c) s = .next { s with cores := tput {} s.cores c { s.core c with gated := true } }) ∧
  (∀ (s : State) (bk : Nat) (b : Block), tlook bk s.blocks = some b →
    (∀ n, b.releaseAt = some n → n ≤ s.cycle → ∃ t, ({ s with blocks := tset bk { b with releaseAt := none } s.blocks } : State).leaves
        (b.live.forM fun gi => modGroup (bk * 64 + gi) fun g => { g with readyAt := s.cycle + 24 }) t ∧
      exec (.blockRelease bk) s = .next t) ∧
    ∀ p, b.preempt = some p → p.since + max 1 (pdWdog s (s.partOf (tenantOf b.grid))) ≤ s.cycle →
      ∃ t, s.leaves (abortGrid b.grid 0x20) t ∧ exec (.preemptionTimeout bk) s = .next t) ∧
  ∀ (s : State) (id : Nat) (c : Contrib) (g : Group), tlook id s.contribs = some c → tlook c.gk s.groups = some g →
    c.stuck = none → c.held = false → s.gives (arriveNow id) (exec (.matrixContributionArrival id) s)

/-- A tick advances every clock by 1, once in 1,024 cycles, and the leases that it passes have ended; the floor of the pod raises what lies below
it; the ageing sweep lifts the timestamps of a sector below the floor; a scrubber turns a granule that no allocation covers into zeros and
goes on to the next (09_tiles_leases.md R254, R258, R259; 15_isolation.md R422). -/
def Obligations.ClocksAndScrubbers : Prop :=
  (∀ (s : State),
    let b := (s.dev.base + 1) % 65536
    (s.dev.ticks < s.cycle / 1024 → ∃ t,
      ({ s with
        dev := { s.dev with ticks := s.dev.ticks + 1, base := b }
        cores := s.cores.map fun e => (e.1, e.2.ticked b)
        quads := s.quads.map fun e => (e.1, e.2.ticked b) } : State).leaves
        (lineEvents fun _ w => match w with
          | .line _ false _ _ watch _ => watch = 0
          | _ => false) t ∧ exec .logicalClockTick s = .next t) ∧
    (s.cycle / 1024 ≤ s.dev.ticks → exec .logicalClockTick s = .next s) ∧
    ∀ m : BitVec 16, s.dev.floors < s.cycle / 4096 → ∃ t, s.leaves (do
        raiseClocks (floorOf (later (largestClock s) m.toNat))
        modDev fun d => { d with floors := d.floors + 1, floor := (later (largestClock s) m.toNat + 65536 - d.start) % 65536 }
        homeEvent) t ∧ exec (.podFloor m) s = .next t) ∧
  (∀ (s : State) (sec : Nat) (x : Stamps), tlook sec s.sects = some x → s.dev.floors ≠ 0 →
    let fl := floorOf s.floorM
    (earlier x.rts fl = true → exec (.ageingSweep sec) s = .next { s with
      sects := tset sec ⟨fl, fl, x.home⟩ s.sects
      homes := tput {} s.homes x.home { s.home x.home with aged := sat48 ((s.home x.home).aged + 1) } }) ∧
    (earlier x.rts fl = false → exec (.ageingSweep sec) s = .next s)) ∧
  (∀ (s : State) (c : Nat), c < cores →
    let k := s.core c
    let key := c * Config.granulesPerCore + k.scrub
    let next := (k.scrub + 1) % Config.granulesPerCore
    let passed : Tab Core := tput {} s.cores c { k with scrub := next, passes := if next = 0 then k.passes + 1 else k.passes }
    let tag := (tget Granule.clean s.store key).tag
    let dead := tag ≠ 0 ∧ ((coverOf s c k.scrub).any fun y => y.1 = tag) = false
    (¬dead → exec (.scrubGranule c) s = .next { s with cores := passed }) ∧
    (dead → exec (.scrubGranule c) s = .next { s with
      cores := passed
      store := tdel key s.store
      poison := { s.poison with store := s.poison.store.filter fun w => w / 2 != key, tags := s.poison.tags.filter (· != key) } })) ∧
  ∀ (s : State) (d : Nat), d < Config.dies → (s.dstore.find? fun e => e.1 / 2 ^ 40 = d && (s.die d).scrub ≤ e.1 % 2 ^ 40) = none →
    exec (.scrubGranule (cores + d)) s = .next { s with
      dies := tput {} s.dies d { s.die d with scrub := 0, passes := (s.die d).passes + 1 } }

/-- Pages reclassified and synchronised, table walks, invalidations queued and completed, answers to faults and to page requests
(09_tiles_leases.md R260 to R262; 15_isolation.md R409, R416 to R418; 17_host_fabric.md R462). -/
def Obligations.PagesAndFaults : Prop :=
  (∀ (s : State) (n va : Nat), (n, va / 4096) ∈ s.dev.moving → pageBusy s n (va / 4096) = false → s.gives (do
      match walk1 s n va with
      | .ok l =>
        if bits l.w1 10 9 = 3 then modify fun s => { s with mem := wrBytes s.mem 8 (l.at' + 8) (l.w1 - 0x400) }
      | .error _ => pure ()
      forgetPage s n (va / 4096)
      modDev fun d => { d with moving := d.moving.filter (· != (n, va / 4096)) }
      homeEvent) (exec (.pageReclassify n va) s)) ∧
  (∀ (s : State) (id n page gk : Nat), s.dev.syncs[id]? = some (n, page, gk) →
    let status : Op Nat := match walkPages s n (page * 4096) with
      | .error _ => pure 3
      | .ok (e, _, _) => match reach s n (e.phys (page * 4096)) with
        | .none => pure 3
        | _ => syncPage n (page * 4096) e
    s.gives (do
      let st ← status
      modDev fun d => { d with syncs := d.syncs.eraseIdx id }
      match tlook gk (← get).groups with
      | some g => match g.asleep with
        | some ⟨.reply dst _ 0x8000, _⟩ =>
          acquireCore (coreOfGrp gk)
          modGroup gk fun g => g.setScalar dst (BitVec.ofNat 64 st)
          wake gk 1
        | _ => pure ()
      | none => pure ()
      homeEvent) (exec (.pageSyncSweep id) s)) ∧
  (∀ (s : State) (die n va : Nat) (acc : BitVec 3), die < Config.dies → n < 1024 → va < 2 ^ 56 →
    ∃ r t, reply (xlate die none n va) s = some (r, t) ∧
      ((∀ f, r ≠ .bad f) → exec (.tableWalk die n va acc) s = .next t) ∧
      ∀ f, r = .bad f → ∃ x u, reply (reportFault n va f acc.toNat ((Config.freeWord t.freeCtr).toNat % 2 ^ 32))
        { t with freeCtr := t.freeCtr + 1 } = some (x, u) ∧ exec (.tableWalk die n va acc) s = .next u) ∧
  (∀ (s : State) (n : Nat) (v : W64), n < 1024 → s.dev.state = 4 → (invSize (bits v.toNat 11 8)).isSome = true →
    let x : Nat × Nat × Nat := (n, v.toNat / 4096, bits v.toNat 11 8)
    ((((s.fn pfn).invals.filter fun i => i.1 = n).length < 64 → exec (.tds2inv n v) s = .next { s with
      fns := tput {} s.fns pfn { s.fn pfn with invals := (s.fn pfn).invals ++ [x] } }) ∧
    (64 ≤ ((s.fn pfn).invals.filter fun i => i.1 = n).length → exec (.tds2inv n v) s = .next { s with
      fns := tput {} s.fns n { s.fn n with inv2Lost := true } })) ∧
    ((s.fn n).tdisp ≠ 3 →
      (((s.fn n).invals.filter fun i => i.1 = n).length < 64 → exec (.tlbinv n v) s = .next { s with
        fns := tput {} s.fns n { s.fn n with invals := (s.fn n).invals ++ [x] } }) ∧
      (64 ≤ ((s.fn n).invals.filter fun i => i.1 = n).length → exec (.tlbinv n v) s = .next { s with
        fns := tput {} s.fns n { s.fn n with invLost := true } }))) ∧
  (∀ (s : State) (f n page code : Nat) (rest : List (Nat × Nat × Nat)), f ≤ pfn → (s.fn f).invals = (n, page, code) :: rest →
    let gone := Tlb.matches (f = pfn) n page code
    accessThrough s gone = false → exec (.invalidationComplete f) s = .next { s with
      cores := s.cores.map fun e => (e.1, e.2.forget gone)
      dies := s.dies.map fun e => (e.1, e.2.forget gone)
      fns := tput {} s.fns f { s.fn f with invals := rest } }) ∧
  (∀ (s : State) (f id : Nat), f ≤ pfn → s.dev.state = 4 → (f = pfn ∨ (s.fn f).tdisp ≠ 3) →
    (∀ ok, ((s.fn f).faults.any fun x => x.id = id) = true → ∃ t,
      ({ s with fns := tput {} s.fns f { s.fn f with faults := (s.fn f).faults.filter fun x => x.id != id } } : State).leaves
        (answerAll f id ok) t ∧ exec (if ok then .fqrespResolve f id else .fqrespFail f id) s = .next t) ∧
    ∀ head, s.gives (setFqctl f (BitVec.ofNat 64 ((s.reg f 0xD020 4).toNat % 32 + head % 2 ^ 32 * 2 ^ 32))) (exec (.fqctlHeadWrite f head) s)) ∧
  ∀ (s : State) (id page size : Nat) (ok : Bool) (x : Nat × Nat),
    exec (.atsInvalidation page size) s = .next { s with
      dev := { s.dev with absent := (s.dev.absent ++ (List.range size).map (page + ·)).eraseDups } } ∧
    ((s.dev.pri.find? fun x => x.1 = id) = some x → ∃ t,
      ({ s with dev := { s.dev with
          pri := s.dev.pri.filter fun y => y.1 != id
          absent := if ok then s.dev.absent.filter (· != x.2) else s.dev.absent } } : State).leaves (answerAll hostFn id ok) t ∧
      exec (.priResponse id ok) s = .next t)

/-- The card of a job arrives after the cards issued before it while the scheduler has room, a ready job starts on an idle engine of its kind in
the order of arrival, and a job that has a status ends with it, or ABORTED where its grid has been aborted (11_engines_futures.md R291 to R296,
R310). -/
def Obligations.JobEvents : Prop :=
  (∀ (s : State) (die slot : Nat) (j : Job),
    let d := s.die die
    let feet := footOf s j
    tlook slot d.jobs = some j → j.arrived = none → cardsFull s die = false →
    (d.jobs.any fun k => k.2.gk = j.gk && k.2.arrived.isNone && decide (k.2.num < j.num)) = false →
    exec (.jobCardArrival die slot) s = .next { s with dies := tput {} s.dies die { d with
      arrivals := d.arrivals + 1
      jobs := tset slot { j with
        arrived := some d.arrivals
        stale := j.handles.any fun h => (openHandle s j.tenant h.2).isNone
        feet := feet
        deps := (d.jobs.filter fun k => k.2.arrived.isSome && feetMeet k.2.feet feet).map fun k => (k.1, k.2.num) } d.jobs } }) ∧
  (∀ (s : State) (die slot engine : Nat) (j : Job),
    let jobs := (s.die die).jobs
    let p := s.partOf j.tenant
    let side (on : Bool) (a : Nat) : Option (TileDesc × Nat) :=
      if on then (openHandle s j.tenant a).map fun y => (y.2.2.1.desc, y.2.2.2) else none
    let src := side j.block.sh j.block.a
    let dst := side j.block.dh j.block.b
    let stale := j.stale || (j.block.sh && src.isNone) || (j.block.dh && dst.isNone)
    let bad := cpyBadCard ((s.gridOf j.agent.grid).bind (·.hdr)) j src dst
    tlook slot jobs = some j → jobReady s die j = true → (ownedEngines s p die j.kind).contains (20 * die + engine) = true →
    (jobs.any fun k => k.2.engine = some engine) = false →
    (jobs.any fun k => jobReady s die k.2 && (enginesOf k.2.kind).1 = (enginesOf j.kind).1 &&
      s.partOf k.2.tenant = p && decide (k.2.arrived.getD 0 < j.arrived.getD 0)) = false →
    exec (.jobDispatch die slot engine) s = .next { s with dies := tput {} s.dies die { s.die die with
      jobs := tset slot { j with
        engine := some engine, stile := src.map (·.1), dtile := dst.map (·.1)
        status := if stale then some jsStale else if bad then some jsBadCard else none } jobs } }) ∧
  ∀ (s : State) (die slot st : Nat) (j : Job), tlook slot (s.die die).jobs = some j → j.status = some st → s.gives (do
      endJob die slot (if jobAborted s j then jsAborted else st)
      resolveDeps j.tenant) (exec (.jobEnd die slot) s)

/-- A submission is taken or refused; its record is appended; the header of a grid is checked; a grid is aborted, drained by force,
or retired (14_dispatch_lanterns.md R369, R370, R372, R374, R399; 16_recovery.md R453, R454). -/
def Obligations.QueueEvents : Prop :=
  ∀ (s : State) (n j : Nat), n < 1024 → j < 64 →
    let qk := n * 64 + j
    let q := s.queue qk
    (∀ v : W64, s.dev.state = 4 → (s.fn n).tdisp ≠ 3 →
      let refused (why : Nat) : State := { s with queues := tput {} s.queues qk { q with
        errLast := why, refused := min (q.refused + 1) (2 ^ 32 - 1) } }
      (accepts s qk = true → queueFull s qk = false → exec (.qsubmit n j v) s = .next { s with
        queues := tput {} s.queues qk { q with submits := q.submits ++ [v.toNat / 64 * 64] } }) ∧
      (accepts s qk = false → exec (.qsubmit n j v) s = .next (refused 2)) ∧
      (accepts s qk = true → queueFull s qk = true → exec (.qsubmit n j v) s = .next (refused 1))) ∧
    (∀ a rest, q.waits = none → q.submits = a :: rest →
      s.gives (do
        let r ← feRead qk a 64
        modQueue qk fun q => { q with submits := q.submits.tail }
        let s ← get
        match r with
        | none => refuseSubmit qk 3
        | some x =>
          if !accepts s qk then refuseSubmit qk 2
          else if queueFull s qk then refuseSubmit qk 1
          else
            let _ ← appendRecord qk (wordsOf x 8)
            pure ()) (exec (.submitAppend n j) s)) ∧
    (∀ g, s.gridOf qk = some g → g.state = .waiting → g.retiring = none → g.deps = [] → q.waits = none →
      let fail (st : Nat) : Op Unit := modGrid qk fun g => { g with retiring := some (st, 0) }
      let r := g.record
      s.gives (do
        match (← feRead qk (r.word 0) 128).bind headerOf with
        | none => fail stBadHdr
        | some h =>
          if r.blocks % h.cluster != 0 || (r.word 1 != 0) != (h.fallback != 0) then fail stBadRec
          else
            let st := launchStatus s qk h
            let pass (h : Hdr) (at' : Nat) (fb : Bool) : Op Unit := do
              modGrid qk fun g => { g with hdr := some h, hdrAt := at', fb := fb }
              wakeGrid qk
              tickIfIdle (s.partOf n)
            if st = 0 then pass h (r.word 0) false
            else if h.fallback = 0 then fail st
            else match (← feRead qk (r.word 1) 128).bind headerOf with
              | none => fail st
              | some h2 => if launchStatus s qk h2 = 0 && r.blocks % h2.cluster = 0 then pass h2 (r.word 1) true else fail st)
        (exec (.headerCheck n j) s)) ∧
    (∀ g h u r, s.gridOf qk = some g → g.state = .waiting → g.retiring = none → g.deps = [] → q.waits = none →
      reply (feRead qk (g.record.word 0) 128) s = some (r, u) →
      let fails (st : Nat) : Prop := ∃ t, u.leaves (modGrid qk fun g => { g with retiring := some (st, 0) }) t ∧
        exec (.headerCheck n j) s = .next t
      (r.bind headerOf = none → fails stBadHdr) ∧
      (r.bind headerOf = some h →
        let bad := g.record.blocks % h.cluster ≠ 0 ∨ ¬(g.record.word 1 ≠ 0 ↔ h.fallback ≠ 0)
        (bad → fails stBadRec) ∧
        (¬bad → launchStatus s qk h ≠ 0 → h.fallback = 0 → fails (launchStatus s qk h)) ∧
        (¬bad → launchStatus s qk h = 0 → u.gives (do
          modGrid qk fun x => { x with hdr := some h, hdrAt := g.record.word 0, fb := false }
          wakeGrid qk
          tickIfIdle (s.partOf n)) (exec (.headerCheck n j) s)) ∧
        ∀ r2 h2 v, ¬bad → launchStatus s qk h ≠ 0 → h.fallback ≠ 0 → reply (feRead qk (g.record.word 1) 128) u = some (r2, v) →
          r2.bind headerOf = some h2 → launchStatus s qk h2 = 0 → g.record.blocks % h2.cluster = 0 → v.gives (do
            modGrid qk fun x => { x with hdr := some h2, hdrAt := g.record.word 1, fb := true }
            wakeGrid qk
            tickIfIdle (s.partOf n)) (exec (.headerCheck n j) s))) ∧
    s.gives (retireGrid qk) (exec (.gridRetire n j) s) ∧
    (∃ t, s.leaves (abortGrid qk 0x25) t ∧ exec (.qgridAbort n j) s = .next t) ∧
    (∀ v, s.dev.state = 4 → (s.fn n).tdisp ≠ 3 → s.gives (qctlOp qk v) (exec (.qctlWrite n j v) s)) ∧
    ∀ g a, s.gridOf qk = some g → g.drainAt = some a → g.state = .draining → g.due = none → a + pdDrain s (s.partOf n) ≤ s.cycle →
      s.gives (s.blocks.forM fun e => if e.2.grid = qk then preemptBlock e.1 false else pure ()) (exec (.drainDeadline n j) s)

/-- PICK calls the partitions of its sector in turn and places what is chosen; BLOCK drains a grid that sleeps where its routine says
so; a slice's end chooses a tenant; an epoch's end clears the counters of the epoch; a shrink's deadline pre-empts what is left on
the leaving quads; the switch sequencer takes 2,600 cycles (14_dispatch_lanterns.md R379 to R382, R390, R398; 15_isolation.md R424; 16_recovery.md R452). -/
def Obligations.SchedulingEvents : Prop :=
  (∀ (s u : State) (lan p n : Nat), lan < 32 → (s.lantern lan).nextPick ≤ s.cycle → s.dev.power < 2 →
    let ps := (s.parts.map (·.1)).filter (canPick s lan)
    ((ps.find? ((s.lantern lan).lastPart < ·)).orElse fun _ => ps.head?) = some p → (s.part p).tenant = some n →
    u = { s with lanterns := tput {} s.lanterns lan { s.lantern lan with lastPart := p, nextPick := s.cycle + 64 } } →
    let barred (g : Grid) : Bool := g.state = .ready && ((s.part p).pending.isSome || (s.dev.poolPending && usePool s p))
    let place (qk : Nat) : Op Unit := do
      featFirst p
      let k ← placeCluster lan p qk
      if k != 0 then modLantern lan fun l => { l with nextPick := s.cycle + 8 * k }
    u.gives (do
      match ← pickPoint lan p n with
      | none => pure ()
      | some (qk, g) => if barred g then pure () else place qk) (exec (.lanternPick lan) s) ∧
    ∀ qk g v, reply (pickPoint lan p n) u = some (some (qk, g), v) →
      (barred g = true → exec (.lanternPick lan) s = .next v) ∧
      (barred g = false → v.gives (place qk) (exec (.lanternPick lan) s))) ∧
  (∀ (s : State) (lan n j : Nat) (g : Grid), lan < 32 → n < 1024 → j < 64 → s.gridOf (n * 64 + j) = some g →
    let here := s.groups.filter fun e => sectorOf (quadOfCore (coreOfGrp e.1)) = lan &&
      (match tlook (blkOfGrp e.1) s.blocks with
      | some b => b.grid = n * 64 + j
      | none => false)
    g.state = .running → g.retiring = none → here ≠ [] → (∀ e ∈ here, ∃ z, e.2.asleep = some z ∧ z.since + 4096 ≤ s.cycle) →
    s.gives (do if ← blockPoint lan (s.partOf n) (n * 64 + j) g then drainGrid (n * 64 + j)) (exec (.lanternBlock lan n j) s) ∧
    ∀ x u, reply (blockPoint lan (s.partOf n) (n * 64 + j) g) s = some (x, u) →
      (x = false → exec (.lanternBlock lan n j) s = .next u) ∧
      (x = true → ∃ t, u.leaves (drainGrid (n * 64 + j)) t ∧ exec (.lanternBlock lan n j) s = .next t)) ∧
  ∀ (s : State) (p : Nat), p < 64 →
    let x := s.part p
    (x.tenant ≠ none → x.switching = false → x.sliceEnd ≤ s.cycle → s.gives (chooseTenant p) (exec (.sliceEnd p) s)) ∧
    (x.tenant ≠ none → x.switching = false → x.epochEnd ≤ s.cycle → s.gives (do
        (gridsOf s p).forM fun e => modGrid e.1 fun g =>
          { g with issuedE := 0, waitE := 0, epochAt := s.cycle, age := min (g.age + 1) 65535 }
        (((s.queues.map fun e => tenantOf e.1).eraseDups).filter fun n => s.partOf n = p).forM fun n => do
          let energy := (← freeValue).toNat
          let moved := (← freeValue).toNat
          modUse n fun u => { u with
            energy := u.energy + energy
            hbmb := u.hbmb + moved
            age := min (u.age + 1) 65535
            cut := newCut ((s.reg pfn (0x40000 + 0x10 * n)).toNat % 2 ^ 48) energy u.cut }
        modPart p fun x => { x with epochEnd := s.cycle + x.epochLen }) (exec (.epochEnd p) s)) ∧
    (∀ n, x.shrinkAt = some n → n ≤ s.cycle →
      let on (bk : Nat) : Bool := x.leaving.contains (quadOfCore (coreOfBlk bk))
      ({ s with parts := tput {} s.parts p { x with shrinkAt := none } } : State).gives ((gridsOf s p).forM fun (e : Nat × Grid) => do
        let mine := s.blocks.filter fun (b : Nat × Block) => b.2.grid = e.1
        if mine.any fun b => on b.1 then
          if (e.2.hdr.map Hdr.cooperative).getD false then
            modGrid e.1 fun g => { g with
              state := .draining, drainAt := g.drainAt.orElse (fun _ => some s.cycle), waitq := true, shrunk := true }
            mine.forM fun b => preemptBlock b.1 true
          else mine.forM fun b => if on b.1 then preemptBlock b.1 true else pure ()) (exec (.shrinkDeadline p) s)) ∧
    ∀ n, x.lastTenant = some n → x.switching = true → x.switchTill = none → (s.blocks.any fun e => tenantOf e.2.grid = n) = false →
      (s.contribs.any fun c => c.2.tenant = n) = false → (s.dies.any fun d => d.2.jobs.any fun j => j.2.tenant = n) = false →
      ((gridsOf s p).all fun e => tenantOf e.1 != n || (e.2.state != .running && e.2.state != .draining)) = true →
      ∃ u, s.leaves (do
        if x.featPending then applyFeat p
        (queuesOf s n).forM fun e => match e.2.active with
          | some g => do
            g.dieGens.forM fun (d, v) => endDieGen d v
            modGrid e.1 fun g => { g with dieGens := [] }
          | none => pure ()) u ∧
      let mine (c : Nat) : Bool := x.own.quads.contains (quadOfCore c)
      let gone (l : Nat × Line) : Nat × Line := (l.1, { l.2 with stale := true })
      ∃ dies lans, exec (.switchSequencer p) s = .next { u with
        freeCtr := u.freeCtr + 1
        cores := u.cores.map fun e => (e.1, if mine e.1 then { e.2 with tlb := [], ibuf := e.2.ibuf.map gone } else e.2)
        dies := dies
        lanterns := lans
        usage := tput {} u.usage n { u.use n with
          clear := (u.use n).clear + 2600 * x.own.quads.length
          energy := (u.use n).energy + (Config.freeWord u.freeCtr).toNat }
        parts := tput {} u.parts p { u.part p with switchTill := some (s.cycle + 2600) } }

/-- A function loads and unloads Lantern routines, which load when Opbel finds no fault; the hypervisor sets Mooring ranges and the
tenants' partitions and reads and writes Mooring (14_dispatch_lanterns.md R391, R394 to R397; 15_isolation.md R409). -/
def Obligations.LoadingEvents : Prop :=
  ∀ (s : State), s.dev.state = 4 →
    (∀ f (v : W64), f ≤ pfn → (f = pfn ∨ (s.fn f).tdisp ≠ 3) → (s.fn f).lnstat % 256 ≠ 0xFF →
      let x := s.fn f
      (v.toNat / 64 = 0 → exec (.lnload f v) s = .next { s with
        fns := tput {} s.fns f { x with routines := x.routines.filter fun r => r.point != v.toNat % 8 } }) ∧
      (v.toNat / 64 ≠ 0 → ∃ t, s.leaves (do
        setLnStat f (x.lnstat / 2 ^ 32) (x.lnstat / 256) 0xFF
        modFn f fun x => { x with checking := some (v.toNat / 64 * 64) }) t ∧ exec (.lnload f v) s = .next t) ∧
      ∀ n, exec (.lnloadUnload f n) s = .next { s with
        fns := tput {} s.fns f { x with routines := x.routines.filter fun r => r.point != n % 8 } }) ∧
    (∀ f a, f ≤ pfn → (s.fn f).checking = some a → ∃ r u,
      reply (readImage f a) { s with fns := tput {} s.fns f { s.fn f with checking := none } } = some (r, u) ∧
      let told (bound point st : Nat) (u : State) : Prop := ∃ t, u.leaves (setLnStat f bound point st) t ∧
        exec (.opbelCheckDone f) s = .next t
      let open' := (Config.freeWord u.freeCtr).toNat % 2 ^ 32
      let after (n : Nat) : State := { u with freeCtr := u.freeCtr + n }
      (r = none → told open' (Config.freeWord (u.freeCtr + 1)).toNat 1 (after 2)) ∧
      ∀ bs, r = some bs →
        let point := ((bs.drop 3).headD 0).toNat
        (imageOf bs = none → told open' point 1 (after 1)) ∧
        ∀ m, imageOf bs = some m →
          let b := boundOf m.code
          (codeStatus m.code ≠ 0 → told open' point (codeStatus m.code) (after 1)) ∧
          (codeStatus m.code = 0 →
            (winOk u f m.win m.winlog = false → told b point 6 u) ∧
            (winOk u f m.win m.winlog = true → pointOk f point = false → told b point 7 u) ∧
            (winOk u f m.win m.winlog = true → pointOk f point = true → ∃ t, u.leaves (do
              setLnStat f b point 0
              modFn f fun x => { x with
                routines := x.routines.filter (fun y => y.point != point) ++
                  [⟨if f = pfn then none else some f, point, m.win, m.winlog, m.code⟩] }
              if f = pfn then extendMeas 2 (sha256 bs)) t ∧ exec (.opbelCheckDone f) s = .next t))) ∧
    (∀ p (v : W64), p < 64 → s.gives (pdmoorOp p v) (exec (.pdmoorWrite p v) s)) ∧
    (∀ n (v : W64), n < 1024 → s.gives (tdpartOp n v) (exec (.tdpartWrite n v) s)) ∧
    ∀ w, w < 262144 →
      let lift : Poison := { s.poison with moor := s.poison.moor.filter (· != w) }
      (∀ x : W32, exec (.hvMooringAccess w (some x)) s = .next { s with mooring := tput 0 s.mooring w x, poison := lift }) ∧
      (s.poison.moor.contains w = false →
        exec (.hvMooringAccess w none) s = .next { s with out := toBytes 4 (tget 0 s.mooring w).toNat :: s.out })

/-- A partition's staged resources are committed: refused where another owns them or tiles are open there, applied to quads at once
and to the rest at quiescence; zeroed channels open; feature masks and the pool take effect (15_isolation.md R404 to R408, R431). -/
def Obligations.PartitionEvents : Prop :=
  ∀ (s : State),
    (∀ p, p < 64 → s.dev.state = 4 →
      let x := s.part p
      ((x.stat = 1 ∨ x.switchTill ≠ none) → exec (.commit p) s = .next { s with parts := tput {} s.parts p { x with held := true } }) ∧
      (x.stat ≠ 1 → x.switchTill = none → s.gives (commitNow p) (exec (.commit p) s))) ∧
    (∀ p, p < 64 →
      let x := s.part p
      let idle (p : Nat) : Bool := quiescent s p && (s.part p).switchTill.isNone
      let pool := s.dev.poolPending && usePool s p && ((List.range 64).all fun p => !usePool s p || idle p)
      idle p = true → (pool = true ∨ x.pending ≠ none) → s.gives (do
        match x.pending with
        | some n =>
          dropLines x.own.chans x.own.homes
          (gridsOf s p).forM fun (qk, g) => if g.state = .saved then do
              g.dieGens.forM fun (d, v) => endDieGen d v
              modGrid qk fun g => { g with dieGens := [] }
            else pure ()
          modPart p fun y => { y with
            own := { n with quads := y.own.quads }
            zeroing := y.zeroing.filter n.chans.contains ++ addedIn x.own.chans n.chans
            pending := none }
          lockedTenants p
        | none => pure ()
        if pool then poolNow
        commitDone p) (exec (.commitApply p) s)) ∧
    (∀ c p x, c < Config.channels → (s.parts.find? fun e => e.2.zeroing.contains c) = some (p, x) → s.gives (do
        zeroChannel c
        modPart p fun x => { x with zeroing := x.zeroing.filter (· != c) }
        homeEvent) (exec (.channelZeroingDone c) s)) ∧
    (∀ p, p < 64 → (s.part p).featPending = true → (s.part p).switchTill = none →
      ((gridsOf s p).all fun e => e.2.state != .running) = true → exec (.featureMaskApply p) s = .next { s with
        parts := tput {} s.parts p { s.part p with
          feat := (s.part p).ctl.toNat / 256 % 256, reveal := (s.part p).ctl.getLsbD 0, featPending := false } }) ∧
    ∀ w v, w < 8 → s.gives (poolOp w v) (exec (.poolChange w v) s)

/-- The mailbox's requests, the debug port, and the host's writes and reads of registers and of memory (15_isolation.md R423, R428 to
R430; 17_host_fabric.md R470, R473; 08_ordering_model.md R222, R231). -/
def Obligations.HostEvents : Prop :=
  (∀ (s : State) (f buf : Nat), f ≤ pfn → s.dev.state = 4 → s.dev.mail = [] → (f = pfn ∨ (s.fn f).tdisp ≠ 3) →
    let report (n : Nat) (nonce : List Byte) (s : State) : List Byte :=
      let d := s.dev
      toBytes 4 0x4E5A4154 ++ toBytes 2 1 ++ toBytes 2 (if f = pfn then 0 else f + 1) ++ toBytes 8 n ++
        toBytes 4 d.stepping ++ toBytes 2 d.bootVer ++ toBytes 2 d.svcVer ++ identity ++
        (List.range 8).flatMap (fun i => toBytes 32 (d.meas.getD i 0)) ++ nonce ++
        toBytes 8 (if f = pfn then 0 else s.partOf f + (s.fn f).tdisp * 256) ++ List.replicate 32 0
    let snapshot (t n : Nat) (nonce : List Byte) (s : State) : List Byte :=
      let c := s.use t
      toBytes 4 0x4E534355 ++ toBytes 2 1 ++ toBytes 2 t ++ toBytes 8 n ++ toBytes 8 (s.cycle / 1024) ++
        identity ++ [c.qcyc, c.energy, c.clear, c.issued, c.hbmb, c.mergeconf, c.overrun, c.epoch, 0].flatMap (toBytes 8) ++ nonce
    let counters (t : Nat) (nonce : List Byte) : Op Unit := do
      let n ← nextSeq
      let s ← get
      let sig ← signature
      bufWrite f (snapshot t n nonce s ++ sig) buf
    s.gives (do
      let nonce ← bufRead f 32 buf
      let n ← nextSeq
      let s ← get
      let sig ← signature
      bufWrite f (report n nonce s ++ sig) buf) (exec (.attest f buf) s) ∧
    (f ≠ pfn → s.gives (do
      let nonce ← bufRead f 32 buf
      counters f nonce) (exec (.counters f buf) s)) ∧
    (f = pfn → s.gives (do
      let nonce ← bufRead f 32 buf
      let t := ofBytes ((← bufRead f 4 (buf + 32)).take 2)
      if t < 1024 then counters t nonce
      else setSm f ((← freeValue).toNat % 256)) (exec (.counters f buf) s))) ∧
  (∀ (s : State) (buf : Nat), s.dev.state = 4 → s.dev.mail = [] →
    s.gives (do
      let n := ofBytes ((← bufRead pfn 4 (buf + 32)).take 2)
      if n < 1024 then
        modify fun u => { u with usage := tput {} u.usage n { u.use n with
          qcyc := 0, energy := 0, clear := 0, issued := 0, hbmb := 0, mergeconf := 0, overrun := 0
          epoch := (u.use n).epoch + 1 } }
        setSm pfn 0
      else setSm pfn ((← freeValue).toNat % 256)) (exec (.clear pfn buf) s) ∧
    s.gives (do
      let d ← bufRead pfn 32 buf
      let i := ofBytes ((← bufRead pfn 4 (buf + 32)).take 1)
      if 4 ≤ i ∧ i ≤ 7 then
        extendMeas i d
        setSm pfn 0
      else setSm pfn ((← freeValue).toNat % 256)) (exec (.extend pfn buf) s)) ∧
  (∀ (s : State) (f : Nat), f ≤ pfn → s.dev.state = 4 → (f = pfn ∨ (s.fn f).tdisp ≠ 3) →
    s.gives (dbgRead f) (exec (.debugRead f) s) ∧ s.gives (dbgWrite f) (exec (.debugWrite f) s) ∧
    ∀ off v, off ≠ 0xB008 → off ≠ 0xE000 →
      (∀ m, f = pfn → pfMask off = some m → exec (.registerWrite f off v) s = .next { s with
        regs := tput (resetOf f off) s.regs (f * 2 ^ 20 + off) (v &&& BitVec.ofNat 64 m) }) ∧
      (∀ m, f ≠ pfn → vfMask off = some m → exec (.registerWrite f off v) s = .next { s with
        regs := tput (resetOf f off) s.regs (f * 2 ^ 20 + off) (v &&& BitVec.ofNat 64 m) }) ∧
      (f = pfn → pfMask off = none → s.gives (pfWrite off v) (exec (.registerWrite f off v) s)) ∧
      (f ≠ pfn → vfMask off = none → s.gives (vfWrite f off v) (exec (.registerWrite f off v) s))) ∧
  (∀ (s : State) (f : Nat) (v : W64), f ≤ pfn →
    (v.getLsbD 63 = false →
      let w := bits v.toNat 44 32
      let cap := if 1000 ≤ w ∧ w ≤ 4400 then w else 4400
      exec (.registerWrite pfn 0xB008 v) s = .next { s with
        regs := tput (resetOf pfn 0xB008) s.regs (pfn * 2 ^ 20 + 0xB008) (BitVec.ofNat 64 (cap * 2 ^ 32 + v.toNat % 2 ^ 16)) }) ∧
    s.gives (devctlOp v) (exec (.registerWrite pfn 0xB008 v) s) ∧
    ((s.dev.state = 4 ∧ (f = pfn ∨ (s.fn f).tdisp ≠ 3) ∨ s.dev.state = 7 ∧ f = pfn) → mailBusy s f = false →
      let op := v.toNat % 16
      (op = 1 ∨ op = 2 ∨ (op = 3 ∨ op = 4) ∧ f = pfn → exec (.registerWrite f 0xE000 v) s = .next { s with
        dev := { s.dev with mail := s.dev.mail ++ [(f, op, v.toNat / 64 * 64)] } }) ∧
      (¬ (op = 1 ∨ op = 2 ∨ (op = 3 ∨ op = 4) ∧ f = pfn) →
        s.gives (setSm f 2) (exec (.registerWrite f 0xE000 v) s)))) ∧
  ∀ (s : State) (a : Nat), s.dev.state = 4 → s.dev.power < 2 →
    (∀ bs, a + bs.length ≤ devTop → (∀ g ∈ sectorStarts a bs.length, hostCapped s g = false) → hostBlocked s a bs.length = false →
      s.gives (hostWriteAt (bs.length + 1) bs a) (exec (.hostWrite a bs) s)) ∧
    ∀ n, a + n ≤ devTop → memBad s a n = false → exec (.hostRead a n) s = .next { s with
      out := (List.range n).map (fun i => hostByte s (a + i)) :: s.out }

/-- A reset leaves the state of reset but for what survives it; bring-up goes on through its states or ends in HALTED with its error;
a function-level reset retires a tenant's grids and resets its registers (15_isolation.md R426, R428; 17_host_fabric.md R468 to R470). -/
def Obligations.ResetEvents : Prop :=
  ∀ (s : State),
    exec .coldReset s = .next (s.afterReset 0 0) ∧ exec .warmReset s = .next (s.afterReset s.cycle s.clkStart) ∧
    exec .packageReset s = .next (s.afterReset s.cycle s.clkStart) ∧
    exec .d3coldEntry s = .next { s.afterReset 0 0 with dev := { (s.afterReset 0 0).dev with power := 3 } } ∧
    (∀ n, n < 1024 → s.dev.state = 4 → (∃ t, s.leaves (resetQueues n) t ∧ exec (.vfEnable n) s = .next t) ∧
      let x := s.part (s.partOf n)
      (x.switchTill ≠ none → x.lastTenant = some n → exec (.vfFlr n) s = .next { s with
        fns := tput {} s.fns n { s.fn n with flr := true } }) ∧
      (¬(x.switchTill ≠ none ∧ x.lastTenant = some n) → s.gives (flrNow n) (exec (.vfFlr n) s))) ∧
    (∀ img n, s.dev.state = 1 → s.dev.power ≠ 3 →
      (Config.rootSigned img = false → ∃ t, s.leaves (setDevState 7 1) t ∧ exec (.bootRomVerify img n) s = .next t) ∧
      (Config.rootSigned img = true → n < s.dev.fused % 2 ^ 16 → ∃ t, s.leaves (setDevState 7 2) t ∧
        exec (.bootRomVerify img n) s = .next t) ∧
      (Config.rootSigned img = true → s.dev.fused % 2 ^ 16 ≤ n → ∃ t, s.leaves (do
        extendMeas 0 (sha256 img)
        modDev fun d => { d with bootVer := n }
        setDevState 2 0) t ∧ exec (.bootRomVerify img n) s = .next t)) ∧
    (∀ img n, s.dev.state = 2 → s.dev.power ≠ 3 → ∃ t, s.leaves (do
        extendMeas 1 (sha256 img)
        if !Config.trustedSigned img then setDevState 7 1
        else if n < s.dev.fused / 2 ^ 16 then setDevState 7 2
        else
          modDev fun d => { d with svcVer := n }
          setDevState 3 0) t ∧ exec (.serviceFirmwareVerify img n) s = .next t) ∧
    ∀ failed, s.dev.state = 3 → s.dev.power ≠ 3 →
      let bad := (List.range 12).filter failed.contains
      ∃ t, ({ s with store := [], dstore := [], dev := { s.dev with badChans := bad.flatMap fun k => (List.range 32).map (32 * k + ·) } } : State).leaves
        (setDevState 4 (if bad.isEmpty then 0 else 3)) t ∧ exec (.serviceBringup failed) s = .next t

/-- Power states, cuts of the clock, the thermal halt, TDISP states, retries of the link, and errors without a requester
(16_recovery.md R456 to R458; 17_host_fabric.md R463, R464, R471, R472). -/
def Obligations.PowerLinkAndErrors : Prop :=
  ∀ (s : State),
    let dev (d : Dev) : State := { s with dev := d }
    (s.dev.state = 4 → s.dev.power < 2 →
      let gs := s.queues.filterMap fun e => e.2.active.map fun g => (e.1, g)
      let idle := (gs.all fun e => e.2.state = .saved) && s.blocks.isEmpty
      (idle = true → exec .d3hotEntry s = .next (dev { s.dev with power := 2 })) ∧
      (idle = false → ∃ t, (dev { s.dev with power := 1 }).leaves (gs.forM fun e => drainGrid e.1) t ∧ exec .d3hotEntry s = .next t)) ∧
    (s.dev.power = 2 → exec .d3hotExit s = .next (dev { s.dev with power := 0 })) ∧
    (s.dev.state = 4 →
      (∀ n, n ≤ 12 → exec (.packageCut n) s = .next (dev { s.dev with cut := n })) ∧
      exec .thermalCutRaise s = .next (dev { s.dev with thermal := 1, cut := min (s.dev.cut + 1) 12 }) ∧
      (s.dev.thermal = 1 → exec .thermalCutLower s = .next
        (dev { s.dev with thermal := if s.dev.cut ≤ 1 then 0 else 1, cut := s.dev.cut - 1 }))) ∧
    (s.dev.power ≠ 3 → ∃ u, exec .thermalHalt s = .next u ∧ u.groups = [] ∧ u.blocks = [] ∧ u.dev.state = 7 ∧ u.dev.err = 4 ∧
      (∀ qk, (u.queue qk).active = none) ∧ u.mem = s.mem ∧ u.store = s.store) ∧
    (∀ n, n < 1024 → s.dev.state = 4 →
      ((s.fn n).tdisp ≠ 1 → (s.fn n).tdisp ≠ 2 → exec (.tdispError n) s = .next s) ∧
      ((s.fn n).tdisp = 1 ∨ (s.fn n).tdisp = 2 → s.gives (tdispFail n) (exec (.tdispError n) s)) ∧
      ∀ m, let x := (s.fn n).tdisp
        exec (.tdispRequest n m) s = .next { s with fns := tput {} s.fns n { s.fn n with
          tdisp := if m = 0 ∧ x = 0 then 1 else if m = 1 ∧ x = 1 then 2 else if m = 2 ∧ x ≠ 3 then 0 else x } }) ∧
    (∀ p, p < 18 → s.dev.down.contains p = false →
      let n := tget 0 s.dev.retries p + 1
      exec (.flitRetry p true) s = .next (dev { s.dev with retries := tdel p s.dev.retries }) ∧
      (n < 8 → exec (.flitRetry p false) s = .next (dev { s.dev with retries := tset p n s.dev.retries })) ∧
      (8 ≤ n → exec (.flitRetry p false) s = .next
        (dev { s.dev with retries := tdel p s.dev.retries, down := s.dev.down ++ [p] }))) ∧
    (∀ sec,
      let w := 2 * sec + (Config.freeWord s.freeCtr).toNat % 2
      let home := (tlook sec s.sects).map (·.home)
      let bad : List Nat := if s.poison.mem.contains w then s.poison.mem else s.poison.mem ++ [w]
      let r : ErrRec := { pa := 64 * sec, num := home.getD (channelOf (64 * sec)), unit := if home.isSome then 2 else 0, kind := 2 }
      let u : State := { s with freeCtr := s.freeCtr + 1, poison := { s.poison with mem := bad } }
      (tlook sec s.writers = none → u.gives (writeError r) (exec (.writebackError sec) s)) ∧
      ∀ n, tlook sec s.writers = some n → ({ u with writers := tdel sec s.writers } : State).gives (do
        killTenant n
        writeError { r with tenant := n, action := 2, parts := 2 ^ s.partOf n }) (exec (.writebackError sec) s)) ∧
    ∀ unit idx dir, idx < 256 → unit = 1 ∨ unit = 2 →
      let owner := (s.parts.find? fun e => (if unit = 1 then e.2.own.l2 else e.2.own.homes).contains idx).map (·.1)
      let pool := (if unit = 1 then s.dev.poolL2 else s.dev.poolHomes).contains idx
      let ps : List Nat := match owner with
        | some p => [p]
        | none => if pool then (List.range 64).filter (usePool s) else []
      s.gives (do
        if unit = 1 then dropL2Slice idx else dropHomeSlice idx
        (ps.flatMap (tenantsOf s)).forM killTenant
        writeError { pa := 0, num := idx, unit := unit, kind := if dir then 4 else 3
                     action := if owner.isSome then 3 else if pool then 4 else 0
                     parts := ps.foldl (fun (n : Nat) p => n + 2 ^ p) 0 })
        (exec (.tagParityError unit idx dir) s)

/-- Registers of the physical function and of a virtual one at reset, where the package is READY (17_host_fabric.md R470; 14_dispatch_lanterns.md
R370, R396, R397; 15_isolation.md R405, R409, R417, R429; 16_recovery.md R450, R453, R458; 17_host_fabric.md R465, R473). Nothing is
placed, loaded or held after a reset (17_host_fabric.md R468); before READY the registers of the physical function other than DEVSTAT and DEVCTL read 0. That a virtual
function then reads as all ones is the model's own reading of "not present" (log 41), and what an unlisted byte of memory reads as is its
choice (log 7). -/
def Obligations.ResetState : Prop :=
  let s := State.reset
  let r := State.readyReset
  regRead s pfn 0xB000 = 1 ∧ regRead s pfn 0xB008 = 4400 * 2 ^ 32 ∧ (∀ off, off ≠ 0xB000 → off ≠ 0xB008 → regRead s pfn off = 0) ∧
  (∀ f off, f < 1024 → regRead s f off = BitVec.allOnes 64) ∧
  s.groups = [] ∧ s.blocks = [] ∧ s.queues = [] ∧ s.mooring = [] ∧ s.store = [] ∧ s.dstore = [] ∧ s.mem = [] ∧ s.regs = [] ∧ s.sects = [] ∧
  (∀ a, rdByte s.mem a = 0) ∧ (∀ a, (tget Granule.clean s.store a).tag = 0) ∧
  regRead r pfn 0xB008 = 4400 * 2 ^ 32 ∧ regRead r pfn 0xB100 = 0 ∧ regRead r pfn 0xD100 = 0 ∧ regRead r pfn 0xD108 = 4 ∧
  regRead r pfn 0xD110 = 0 ∧ regRead r pfn 0xD118 = 0 ∧ regRead r pfn 0xD018 = 0 ∧ regRead r pfn 0xD020 = 4 ∧ regRead r pfn 0xD028 = 0 ∧
  regRead r pfn 0xC000 = 0 ∧ regRead r pfn 0xE008 = 0 ∧ regRead r pfn 0xF010 = 0 ∧ (∀ w, w < 8 → regRead r pfn (0x5F000 + 8 * w) = 0) ∧
  (∀ p, p < 64 →
    regRead r pfn (0x20000 + 0x40 * p) = 16 * 2 ^ 16 + 64 ∧ regRead r pfn (0x20008 + 0x40 * p) = 200000 ∧
    regRead r pfn (0x20010 + 0x40 * p) = 8 + 16 * 2 ^ 8 + 16 * 2 ^ 16 + 4 * 2 ^ 24 + 4 * 2 ^ 32 + 16 * 2 ^ 40 ∧
    regRead r pfn (0x20018 + 0x40 * p) = 0 ∧ regRead r pfn (0x20020 + 0x40 * p) = 100000 ∧
    regRead r pfn (0x20028 + 0x40 * p) = 1000000 ∧
    ∀ k, k < 28 → regRead r pfn (0x60000 + 0x200 * p + 8 * k) = 0) ∧
  ∀ f, f < 1024 →
    regRead r pfn (0x40000 + 0x10 * f) = 0 ∧ regRead r pfn (0x40008 + 0x10 * f) = 0 ∧
    (∀ k, k < 5 → regRead r pfn (0x80000 + 0x40 * f + 8 * k) = 0) ∧
    regRead r f 0xD000 = 0 ∧ regRead r f 0xD010 = 0 ∧ regRead r f 0xD018 = 0 ∧ regRead r f 0xD020 = 4 ∧ regRead r f 0xD028 = 0 ∧
    regRead r f 0xE008 = 0 ∧ regRead r f 0xE010 = 0xFF ∧ regRead r f 0xF008 = 0 ∧ regRead r f 0xF010 = 0 ∧
    ∀ j, j < 64 → regRead r f (0x10000 + 0x40 * j) = 1 * 2 ^ 24 ∧
      ∀ k, k < 7 → 1 ≤ k → regRead r f (0x10000 + 0x40 * j + 8 * k) = 0

/-- The worked encodings of 03_opcode_map.md, the words that never run, and one word of each other layout, its fields written out from
02_words.md R37, R48, R51, R55 to R57 and 14_dispatch_lanterns.md R387. -/
def Obligations.DecodedWords : Prop :=
  decodeTableWord 64 0x0208080840900A05 =
    some (.ffma .s ⟨2, .lane 4, .reg (.lane 8 .rotate) (.lane 9 .ident) (.lane 10 .ident) 5⟩) ∧
  decodeTableWord 64 0x580202833007080C = some (.pairWord ⟨.int .iadd false, 4, 5, 6⟩ ⟨.int .iadd false, 7, 8, 12⟩) ∧
  decodeTableWord 64 0x260002020001FFFD = some (.iadd false ⟨0, .lane 1, .imm (.lane 2 .ident) .zero 0x1FFFD⟩) ∧
  decodeTableWord 64 0x80822D82A0940010 =
    some (.ld .w false ⟨0, 4, .acq, .die, 3, .lane 10, .sreg 4, .const 0, 0x10⟩) ∧
  decode 0 = .error .unassigned ∧ decode (BitVec.allOnes 64) = .error .unassigned ∧
  -- X: MMA.BF with lookahead 2, descriptor s8, scales v0, K count 4, split 1, chain
  decode (0b10#2 ++ 0xC1#8 ++ 0#3 ++ 2#4 ++ (1#1 ++ 8#8) ++ (0#1 ++ 0#8) ++ 0#2 ++ 0#2 ++ 4#12 ++ 1#5 ++ 0b00000001#8) =
    .ok (.mma .bf ⟨0, 2, 8, 0, 0, 0, 4, 1, false, false, false, false, true⟩) ∧
  -- S: SWADD.S of 3 iterations from s16 and s18 to s20
  decode (0b10#2 ++ 0xE0#8 ++ 1#3 ++ 0#4 ++ 16#6 ++ 18#6 ++ 20#6 ++ 3#12 ++ 8#5 ++ 8#5 ++ 8#5 ++ 0#2) =
    .ok (.swadd ⟨1, 0, 16, 18, 20, 3, 8, 8, 8, 0⟩) ∧
  -- K: BRC k3, its target two words back, its join field 0
  decode (0b11#2 ++ 0x01#8 ++ 3#3 ++ 0#18 ++ 0#1 ++ 0xFFFFFFFE#32) = .ok (.brc 3 false 0 0xFFFFFFFE) ∧
  -- Beam: ADD b3, b4, -1 and SHL b0, b15, b2, and an unassigned opcode
  decodeBeam (0x03#6 ++ 3#4 ++ 4#4 ++ (1#1 ++ 0x1FFFF#17)) = .ok (.beamAdd 3 4 (.imm 0x1FFFF)) ∧
  decodeBeam (0x09#6 ++ 0#4 ++ 15#4 ++ (0#14 ++ 2#4)) = .ok (.beamShl 0 15 (.reg 2)) ∧
  decodeBeam 0 = .error .badop

/-- A step whose turn is an event runs it; one whose turn is the issue of a slot runs the instruction that the slot's word decodes to; one
whose turn is a Lantern's runs the instruction that the next word of its call decodes to: in the state that the turn's cycles, the
fetch and the advance of the program counter leave (12_groups_progress.md R314; 14_dispatch_lanterns.md R393). The turn is the agenda's
first, unless a quadrant owes this cycle an issue (02_words.md R68; 12_groups_progress.md R315). -/
def Obligations.StepRunsInstruction : Prop :=
  ∀ (s : State) (i : Instr),
    let a := (nextTurn s).1.act
    let s1 := passed (nextTurn s).1.dt (nextTurn s).2
    (∀ dt b rest, s.agenda = ⟨dt, b⟩ :: rest →
      (dt = 0 → aheadOf s b = none → nextTurn s = (⟨0, b⟩, { s with agenda := rest })) ∧
      (dt ≠ 0 → dueAct s = none → busyNow s = false → b.isIssue = false → nextTurn s = (⟨dt, b⟩, { s with agenda := rest }))) ∧
    (∀ t, a = .event i ∧ t = s1 ∨ (∃ n, a = .lantern n ∧ reply (lanternWord n) s1 = some (i, t)) ∨
        (∃ gk b d, a = .issue gk b d ∧ reply (issueWord gk b d) s1 = some (i, t)) →
      step s = match exec i t with
        | .next u => follow s1 u
        | x => x) ∧
    (∀ u v, reply (do
        quietly settle
        flushErrors) u = some ((), v) → follow s1 u = .next (closeStep s1 v)) ∧
    (∀ n c w, (s1.lantern n).call = some c → c.ended = 0 → c.routine[c.pc]? = some w → decodeBeam w = .ok i →
      reply (lanternWord n) s1 = some (i, { s1 with cur := { s1.cur with lan := n } })) ∧
    ∀ (gk : Nat) (slotB d : Bool) (g : Group) (b : Block) (x : Grid) (h : Hdr) (line : BitVec 1024),
      tlook gk s1.groups = some g → tlook (blkOfGrp gk) s1.blocks = some b → s1.gridOf b.grid = some x → x.hdr = some h →
      mayIssue s1 gk g = true → chosen s1 gk g slotB = true → (s1.core (coreOfGrp gk)).asks = [] → (g.slot slotB).mask ≠ 0 →
      g.replay = [] → g.due = [] → g.pend = [] → g.holds = [] → g.kept = none → g.mx.chain = none → g.mx.deliver = false →
      gk ∉ s1.poison.ctl →
      let pc := (g.slot slotB).pc
      let w := BitVec.ofNat 64 (line.toNat / 2 ^ (pc.toNat % 128 / 8 * 64))
      pc.toNat < 2 ^ 56 → heldLine s1 (coreOfGrp gk) (tenantOf b.grid) (pc.toNat / 128) g slotB = some line →
      classOk h.classes s1.dev.stepping w = true → opcodeAssigned w = true →
      (∀ k, 1 ≤ k → k ≤ 7 → inGroup w k = true → bitOf (s1.part (s1.partOf (tenantOf b.grid))).feat k = false) →
      decode w = .ok i → (engineOp w = true → g.futures < 64) →
      ∃ t, reply (issueWord gk slotB d) s1 = some (i, t) ∧
        t.cur = { gk := gk, slotB := slotB, pc := pc, defer := d, act := (g.slot slotB).mask, wasOpen := g.regionOpen
                  counted := true, spans := t.cur.spans } ∧
        tlook gk t.groups = some (({ g.setSlot slotB { g.slot slotB with pc := pc + 8 } with
          age := 0, yielded := false, lastB := slotB, issued := sat48 (g.issued + 1) } : Group).refsAt slotB pc.toNat) ∧
        t.mem = s1.mem ∧ t.store = s1.store ∧ t.dstore = s1.dstore ∧ t.blocks = s1.blocks ∧ t.homes = s1.homes ∧ t.sects = s1.sects

/-- What holds between two steps holds after a reset. -/
def Obligations.InvAtReset : Prop := State.reset.Inv

/-- Every step keeps what holds between steps: an operand-reuse latch names a register that its group still holds, of a group that
neither traps nor is pre-empted (12_groups_progress.md R319), and no error waits for its record (16_recovery.md R458). -/
def Obligations.StepKeepsInv : Prop := ∀ s t : State, s.Inv → step s = .next t → t.Inv
end

