-- ==== Sys2Proof/Laws/Tab.lean ====
section
/-! SUPPORT. Laws of tables: a read after a write, and the canonical form, which every write keeps. -/

namespace Sys2Proof.Machine

variable {α : Type}

@[simp] theorem tlook_nil (k : Nat) : tlook k ([] : Tab α) = none := rfl

@[simp] theorem tlook_tset_same (k : Nat) (x : α) (t : Tab α) : tlook k (tset k x t) = some x := by
  induction t with
  | nil => simp [tset, tlook]
  | cons e t ih =>
    unfold tset
    split
    · simp [tlook]
    · split
      · simp [tlook]
      · rename_i h1 h2
        simp [tlook, h1, h2, ih]

theorem tlook_tset_other {k j : Nat} (h : j ≠ k) (x : α) (t : Tab α) : tlook j (tset k x t) = tlook j t := by
  induction t with
  | nil => simp [tset, tlook]; omega
  | cons e t ih =>
    obtain ⟨i, v⟩ := e
    simp only [tset]
    split
    · subst i; simp [tlook]; split; · omega
      · rfl
    · split
      · simp only [tlook]; split; · omega
        · split
          · split; · omega
            · split <;> first | rfl | omega
          · rfl
      · simp only [tlook, ih]

@[simp] theorem tset_tset (k : Nat) (x y : α) (t : Tab α) : tset k y (tset k x t) = tset k y t := by
  induction t with
  | nil => simp [tset]
  | cons e t ih =>
    obtain ⟨i, v⟩ := e
    by_cases h1 : i = k
    · subst h1; simp [tset]
    · by_cases h2 : k < i
      · simp [tset, h1, h2]
      · simp [tset, h1, h2, ih]

theorem tset_tlook {k : Nat} {x : α} {t : Tab α} (h : tlook k t = some x) : tset k x t = t := by
  induction t with
  | nil => simp at h
  | cons e t ih =>
    obtain ⟨i, v⟩ := e
    simp only [tlook] at h
    simp only [tset]
    split
    · rename_i h1; subst h1; simp_all
    · split
      · rename_i h1 h2; simp [h1, h2] at h
      · rename_i h1 h2; simp [h1, h2] at h; rw [ih h]

/-! Keys -/

theorem tsorted_weaken {lo k : Nat} {t : Tab α} (h : tsorted (some k) t = true) (hl : lo ≤ k) :
    tsorted (some lo) t = true := by
  cases t with
  | nil => rfl
  | cons e t =>
    obtain ⟨i, v⟩ := e
    simp [tsorted] at h ⊢
    exact ⟨by omega, h.2⟩

theorem tsorted_none {k : Nat} {t : Tab α} (h : tsorted (some k) t = true) : tsorted none t = true := by
  cases t with
  | nil => rfl
  | cons e t => obtain ⟨i, v⟩ := e; simp [tsorted] at h ⊢; exact h.2

/-- Above a bound nothing at or below it is listed. -/
theorem tlook_low {lo k : Nat} {t : Tab α} (h : tsorted (some lo) t = true) (hk : k ≤ lo) : tlook k t = none := by
  cases t with
  | nil => rfl
  | cons e t =>
    obtain ⟨i, v⟩ := e
    simp [tsorted] at h
    simp only [tlook]
    split; · omega
    · split; · rfl
      · omega

theorem tset_sorted_above {lo k : Nat} (x : α) {t : Tab α} (h : tsorted (some lo) t = true) (hk : lo < k) :
    tsorted (some lo) (tset k x t) = true := by
  induction t generalizing lo with
  | nil => simpa [tset, tsorted] using hk
  | cons e t ih =>
    obtain ⟨i, v⟩ := e
    simp [tsorted] at h
    simp only [tset]
    split
    · rename_i h1; subst h1; simpa [tsorted] using h
    · split
      · rename_i h1 h2; simp [tsorted]; exact ⟨hk, h2, h.2⟩
      · rename_i h1 h2
        simp [tsorted]
        exact ⟨h.1, ih h.2 (by omega)⟩

theorem tset_sorted (k : Nat) (x : α) {t : Tab α} (h : tsorted none t = true) : tsorted none (tset k x t) = true := by
  cases t with
  | nil => rfl
  | cons e t =>
    obtain ⟨i, v⟩ := e
    simp [tsorted] at h
    simp only [tset]
    split
    · rename_i h1; subst h1; simpa [tsorted] using h
    · split
      · rename_i h2; simp [tsorted]; exact ⟨h2, h⟩
      · rename_i h1 h2
        simp [tsorted]
        exact tset_sorted_above x h (by omega)

theorem tdel_sorted_above {lo : Nat} (k : Nat) {t : Tab α} (h : tsorted (some lo) t = true) :
    tsorted (some lo) (tdel k t) = true := by
  induction t generalizing lo with
  | nil => rfl
  | cons e t ih =>
    obtain ⟨i, v⟩ := e
    simp [tsorted] at h
    simp only [tdel]
    split
    · exact tsorted_weaken h.2 (by omega)
    · split
      · simpa [tsorted] using h
      · simp [tsorted]; exact ⟨h.1, ih h.2⟩

theorem tdel_sorted (k : Nat) {t : Tab α} (h : tsorted none t = true) : tsorted none (tdel k t) = true := by
  cases t with
  | nil => rfl
  | cons e t =>
    obtain ⟨i, v⟩ := e
    simp [tsorted] at h
    simp only [tdel]
    split
    · exact tsorted_none h
    · split
      · simpa [tsorted] using h
      · simp [tsorted]; exact tdel_sorted_above k h

theorem mem_tset {k : Nat} {x : α} {t : Tab α} {e : Nat × α} (h : e ∈ tset k x t) : e = (k, x) ∨ e ∈ t := by
  induction t with
  | nil => simpa [tset] using h
  | cons a t ih =>
    obtain ⟨i, v⟩ := a
    simp only [tset] at h
    split at h
    · rcases List.mem_cons.1 h with h | h
      · exact .inl h
      · exact .inr (List.mem_cons_of_mem _ h)
    · split at h
      · rcases List.mem_cons.1 h with h | h
        · exact .inl h
        · exact .inr h
      · rcases List.mem_cons.1 h with h | h
        · exact .inr (h ▸ List.mem_cons_self)
        · rcases ih h with h | h
          · exact .inl h
          · exact .inr (List.mem_cons_of_mem _ h)

theorem mem_tdel {k : Nat} {t : Tab α} {e : Nat × α} (h : e ∈ tdel k t) : e ∈ t := by
  induction t with
  | nil => simp [tdel] at h
  | cons a t ih =>
    obtain ⟨i, v⟩ := a
    simp only [tdel] at h
    split at h
    · exact List.mem_cons_of_mem _ h
    · split at h
      · exact h
      · rcases List.mem_cons.1 h with h | h
        · exact h ▸ List.mem_cons_self
        · exact List.mem_cons_of_mem _ (ih h)

theorem tlook_tdel_same {k : Nat} {t : Tab α} (h : tsorted none t = true) : tlook k (tdel k t) = none := by
  induction t with
  | nil => rfl
  | cons a t ih =>
    obtain ⟨i, v⟩ := a
    simp [tsorted] at h
    simp only [tdel]
    split
    · rename_i h1; subst h1; exact tlook_low h (by omega)
    · split
      · rename_i h1 h2; simp [tlook, h1, h2]
      · rename_i h1 h2; simp [tlook, h1, h2]; exact ih (tsorted_none h)

theorem tlook_tdel_other {k j : Nat} (hj : j ≠ k) {t : Tab α} (h : tsorted none t = true) :
    tlook j (tdel k t) = tlook j t := by
  induction t with
  | nil => rfl
  | cons a t ih =>
    obtain ⟨i, v⟩ := a
    simp [tsorted] at h
    simp only [tdel]
    split
    · rename_i h1; subst h1
      simp only [tlook]
      split; · omega
      · split
        · exact tlook_low h (by omega)
        · rfl
    · split
      · rfl
      · simp only [tlook, ih (tsorted_none h)]

/-! The canonical form -/

variable [DecidableEq α]

@[simp] theorem tcanon_nil (d : α) : tcanon d ([] : Tab α) = true := rfl

/-- A write keeps the canonical form. -/
theorem tput_canon (d : α) (k : Nat) (x : α) {t : Tab α} (h : tcanon d t = true) : tcanon d (tput d t k x) = true := by
  simp only [tcanon, Bool.and_eq_true, List.all_eq_true, decide_eq_true_eq] at h ⊢
  unfold tput
  split
  · exact ⟨tdel_sorted k h.1, fun e he => h.2 e (mem_tdel he)⟩
  · rename_i hx
    refine ⟨tset_sorted k x h.1, fun e he => ?_⟩
    rcases mem_tset he with rfl | he
    · exact hx
    · exact h.2 e he

/-- A read after a write to the same key. -/
theorem tget_tput_same (d : α) (k : Nat) (x : α) {t : Tab α} (h : tcanon d t = true) : tget d (tput d t k x) k = x := by
  simp only [tcanon, Bool.and_eq_true] at h
  unfold tput tget
  split
  · rename_i hx; rw [tlook_tdel_same h.1]; exact hx.symm
  · simp

/-- A write leaves every other key alone. -/
theorem tget_tput_other (d : α) {k j : Nat} (hj : j ≠ k) (x : α) {t : Tab α} (h : tcanon d t = true) :
    tget d (tput d t k x) j = tget d t j := by
  simp only [tcanon, Bool.and_eq_true] at h
  unfold tput tget
  split
  · rw [tlook_tdel_other hj h.1]
  · rw [tlook_tset_other hj]

/-- Dropping entries keeps the canonical form. -/
theorem tcanon_filter (d : α) (p : Nat × α → Bool) {t : Tab α} (h : tcanon d t = true) : tcanon d (t.filter p) = true := by
  simp only [tcanon, Bool.and_eq_true, List.all_eq_true, decide_eq_true_eq] at h ⊢
  refine ⟨?_, fun e he => h.2 e (List.mem_filter.1 he).1⟩
  have key : ∀ (lo : Option Nat) (t : Tab α), tsorted lo t = true → tsorted lo (t.filter p) = true := by
    intro lo t
    induction t generalizing lo with
    | nil => intro _; rfl
    | cons a t ih =>
      obtain ⟨i, v⟩ := a
      intro h
      simp only [tsorted, Bool.and_eq_true] at h
      simp only [List.filter_cons]
      split
      · simp only [tsorted, Bool.and_eq_true]; exact ⟨h.1, ih _ h.2⟩
      · have h2 := ih _ h.2
        cases lo with
        | none => exact tsorted_none h2
        | some l => exact tsorted_weaken h2 (by have := h.1; simp at this; omega)
  exact key _ _ h.1

end Sys2Proof.Machine
end

