-- ==== Sys2Proof/Laws/Op.lean ====
section
/-! SUPPORT. Laws of the monad of a step: what each of its plain operations answers. -/

namespace Sys2Proof.Machine

variable {α β : Type}

@[simp] theorem pure_run (a : α) (s : State) : (pure a : Op α).run s = .ok a s := rfl

@[simp] theorem bind_run (m : Op α) (f : α → Op β) (s : State) :
    (m >>= f).run s = (match m.run s with
      | .ok a t => (f a).run t
      | .error e t => .error e t) := by
  show EStateM.bind m f s = _
  unfold EStateM.bind EStateM.run
  cases m s <;> rfl

@[simp] theorem map_run (f : α → β) (m : Op α) (s : State) :
    (f <$> m).run s = (match m.run s with
      | .ok a t => .ok (f a) t
      | .error e t => .error e t) := by
  show EStateM.map f m s = _
  unfold EStateM.map EStateM.run
  cases m s <;> rfl

@[simp] theorem get_run (s : State) : (get : Op State).run s = .ok s s := rfl
@[simp] theorem set_run (t s : State) : (set t : Op PUnit).run s = .ok () t := rfl
@[simp] theorem modify_run (f : State → State) (s : State) : (modify f : Op PUnit).run s = .ok () (f s) := rfl
@[simp] theorem throw_run (e : Stop) (s : State) : (throw e : Op α).run s = .error e s := rfl

@[simp] theorem finish_run (s : State) : (finish : Op α).run s = .error .done s := rfl
@[simp] theorem raise_run (c : Nat) (a : W64) (b : Nat) (s : State) :
    (raise c a b : Op α).run s = .error (.trap { cause := c, sub := b, addr := a }) s := rfl
@[simp] theorem illegal_run (n : Nat) (s : State) :
    (illegal n : Op α).run s = .error (.trap { cause := 1, sub := n, addr := 0 }) s := rfl

@[simp] theorem require_run (b : Bool) (s : State) :
    (require b).run s = if b then .ok () s else .error .done s := by cases b <;> rfl
@[simp] theorem need_some_run (a : α) (s : State) : (need (some a) : Op α).run s = .ok a s := rfl
@[simp] theorem need_none_run (s : State) : (need none : Op α).run s = .error .done s := rfl

@[simp] theorem freeValue_run (s : State) :
    freeValue.run s = .ok (Config.freeWord s.freeCtr) { s with freeCtr := s.freeCtr + 1 } := rfl

@[simp] theorem ite_run (c : Prop) [Decidable c] (m n : Op α) (s : State) :
    (if c then m else n).run s = if c then m.run s else n.run s := by split <;> rfl

/-! Access to the parts of the state -/

@[simp] theorem groupAt_run (gk : Nat) (s : State) : (groupAt gk).run s = (need (tlook gk s.groups)).run s := rfl
@[simp] theorem blockAt_run (bk : Nat) (s : State) : (blockAt bk).run s = (need (tlook bk s.blocks)).run s := rfl
@[simp] theorem putGroup_run (gk : Nat) (g : Group) (s : State) :
    (putGroup gk g).run s = .ok () { s with groups := tset gk g s.groups } := rfl
@[simp] theorem putBlock_run (bk : Nat) (b : Block) (s : State) :
    (putBlock bk b).run s = .ok () { s with blocks := tset bk b s.blocks } := rfl
@[simp] theorem modCore_run (c : Nat) (f : Core → Core) (s : State) :
    (modCore c f).run s = .ok () { s with cores := tput {} s.cores c (f (s.core c)) } := rfl
@[simp] theorem modQuad_run (c : Nat) (f : Quad → Quad) (s : State) :
    (modQuad c f).run s = .ok () { s with quads := tput {} s.quads c (f (s.quad c)) } := rfl
@[simp] theorem modDie_run (c : Nat) (f : Die → Die) (s : State) :
    (modDie c f).run s = .ok () { s with dies := tput {} s.dies c (f (s.die c)) } := rfl
@[simp] theorem modHome_run (c : Nat) (f : Home → Home) (s : State) :
    (modHome c f).run s = .ok () { s with homes := tput {} s.homes c (f (s.home c)) } := rfl
@[simp] theorem modQueue_run (c : Nat) (f : Queue → Queue) (s : State) :
    (modQueue c f).run s = .ok () { s with queues := tput {} s.queues c (f (s.queue c)) } := rfl
@[simp] theorem modFn_run (c : Nat) (f : Fn → Fn) (s : State) :
    (modFn c f).run s = .ok () { s with fns := tput {} s.fns c (f (s.fn c)) } := rfl
@[simp] theorem modPart_run (c : Nat) (f : Part → Part) (s : State) :
    (modPart c f).run s = .ok () { s with parts := tput {} s.parts c (f (s.part c)) } := rfl
@[simp] theorem modLantern_run (c : Nat) (f : Lantern → Lantern) (s : State) :
    (modLantern c f).run s = .ok () { s with lanterns := tput {} s.lanterns c (f (s.lantern c)) } := rfl
@[simp] theorem modUse_run (c : Nat) (f : Usage → Usage) (s : State) :
    (modUse c f).run s = .ok () { s with usage := tput {} s.usage c (f (s.use c)) } := rfl
@[simp] theorem modDev_run (f : Dev → Dev) (s : State) : (modDev f).run s = .ok () { s with dev := f s.dev } := rfl
@[simp] theorem setReg_run (fn off : Nat) (v r : W64) (s : State) :
    (setReg fn off v r).run s = .ok () { s with regs := tput r s.regs (fn * 2 ^ 20 + off) v } := rfl

theorem modGroup_run {gk : Nat} {g : Group} (f : Group → Group) {s : State} (h : tlook gk s.groups = some g) :
    (modGroup gk f).run s = .ok () { s with groups := tset gk (f g) s.groups } := by
  unfold modGroup; rw [bind_run, get_run]; simp only [h, putGroup_run]

theorem modBlock_run {bk : Nat} {b : Block} (f : Block → Block) {s : State} (h : tlook bk s.blocks = some b) :
    (modBlock bk f).run s = .ok () { s with blocks := tset bk (f b) s.blocks } := by
  unfold modBlock; rw [bind_run, get_run]; simp only [h, putBlock_run]

theorem modGroup_absent {gk : Nat} (f : Group → Group) {s : State} (h : tlook gk s.groups = none) :
    (modGroup gk f).run s = .ok () s := by
  unfold modGroup; rw [bind_run, get_run]; simp only [h, pure_run]

theorem modBlock_absent {bk : Nat} (f : Block → Block) {s : State} (h : tlook bk s.blocks = none) :
    (modBlock bk f).run s = .ok () s := by
  unfold modBlock; rw [bind_run, get_run]; simp only [h, pure_run]

theorem self_run {g : Group} {s : State} (h : tlook s.cur.gk s.groups = some g) : self.run s = .ok g s := by
  unfold self; rw [bind_run, get_run]; simp only [groupAt_run, h, need_some_run]

theorem modSelf_run {g : Group} (f : Group → Group) {s : State} (h : tlook s.cur.gk s.groups = some g) :
    (modSelf f).run s = .ok () { s with groups := tset s.cur.gk (f g) s.groups } := by
  unfold modSelf; rw [bind_run, get_run]; exact modGroup_run f h

@[simp] theorem forM_nil_run (f : α → Op PUnit) (s : State) : (forM ([] : List α) f : Op PUnit).run s = .ok () s := rfl
@[simp] theorem forM_cons_run (f : α → Op PUnit) (a : α) (l : List α) (s : State) :
    (forM (a :: l) f : Op PUnit).run s = (match (f a).run s with
      | .ok _ t => (forM l f : Op PUnit).run t
      | .error e t => .error e t) := by
  show (f a >>= fun _ => (forM l f : Op PUnit)).run s = _
  rw [bind_run]
  cases (f a).run s <;> rfl

/-! Outcomes -/

theorem runOp_ok {m : Op Unit} {s t : State} (h : m.run s = .ok () t) : runOp m s = .next t := by
  unfold runOp; rw [show m s = m.run s from rfl, h]
/-- Operations end a step in a next state, a trap of theirs taken: none of them faults or refuses. -/
theorem runOp_next (m : Op Unit) (s : State) : ∃ t, runOp m s = .next t := by
  unfold runOp
  split
  · exact ⟨_, rfl⟩
  · exact ⟨_, rfl⟩
  · split <;> exact ⟨_, rfl⟩

/-- Those of a unit that is there do so too. -/
theorem onUnit_next {absent : Bool} (h : absent = false) (m : Op Unit) (s : State) : ∃ t, onUnit absent m s = .next t := by
  subst h; exact runOp_next m s

theorem onUnit_absent {absent : Bool} (h : absent = true) (m : Op Unit) (s : State) : onUnit absent m s = .fault .noSuchUnit := by
  subst h; rfl

theorem runOp_done {m : Op Unit} {s t : State} (h : m.run s = .error .done t) : runOp m s = .next t := by
  unfold runOp; rw [show m s = m.run s from rfl, h]

end Sys2Proof.Machine
end

