-- ==== Sys2Proof/Laws/Issue.lean ====
section
/-! SUPPORT. Laws of a word's beginning: what the checks of issue answer for a word that passes them. -/

namespace Sys2Proof.Machine

variable {s : State} {i : Instr} {g g' : Group} {h : Hdr}

@[simp] theorem setGroup_same (gk : Nat) : tlook gk (s.setGroup gk g).groups = some g := by simp [State.setGroup]
@[simp] theorem setGroup_setGroup (gk : Nat) : (s.setGroup gk g).setGroup gk g' = s.setGroup gk g' := by
  simp [State.setGroup]

@[simp] theorem begun_gk : (s.begun i g).cur.gk = s.cur.gk := by unfold State.begun; split <;> rfl
@[simp] theorem begun_slotB : (s.begun i g).cur.slotB = s.cur.slotB := by unfold State.begun; split <;> rfl
@[simp] theorem begun_pc : (s.begun i g).cur.pc = s.cur.pc := by unfold State.begun; split <;> rfl
@[simp] theorem begun_only : (s.begun i g).cur.only = s.cur.only := by unfold State.begun; split <;> rfl
@[simp] theorem begun_defer : (s.begun i g).cur.defer = s.cur.defer := by unfold State.begun; split <;> rfl
@[simp] theorem begun_held : (s.begun i g).cur.held = s.cur.held := by unfold State.begun; split <;> rfl
@[simp] theorem begun_act : (s.begun i g).cur.act = s.activeOf g (predOf i) := by unfold State.begun; split <;> rfl
@[simp] theorem begun_blocks : (s.begun i g).blocks = s.blocks := by unfold State.begun; split <;> rfl
@[simp] theorem begun_queues : (s.begun i g).queues = s.queues := by unfold State.begun; split <;> rfl
@[simp] theorem begun_cores : (s.begun i g).cores = s.cores := by unfold State.begun; split <;> rfl
@[simp] theorem begun_store : (s.begun i g).store = s.store := by unfold State.begun; split <;> rfl
@[simp] theorem begun_poison : (s.begun i g).poison = s.poison := by unfold State.begun; split <;> rfl
@[simp] theorem begun_contribs : (s.begun i g).contribs = s.contribs := by unfold State.begun; split <;> rfl
@[simp] theorem begun_cycle : (s.begun i g).cycle = s.cycle := by unfold State.begun; split <;> rfl
@[simp] theorem begun_mem : (s.begun i g).mem = s.mem := by unfold State.begun; split <;> rfl
@[simp] theorem begun_dev : (s.begun i g).dev = s.dev := by unfold State.begun; split <;> rfl
@[simp] theorem begun_regs : (s.begun i g).regs = s.regs := by unfold State.begun; split <;> rfl

theorem begun_group (hg : tlook s.cur.gk s.groups = some g) :
    tlook s.cur.gk (s.begun i g).groups = some (g.begun i) := by
  unfold State.begun Group.begun
  split
  · simp
  · exact hg

@[simp] theorem begun_ctl : (g.begun i).ctl = g.ctl := by unfold Group.begun; split <;> rfl
@[simp] theorem begun_width : (g.begun i).width = g.width := by unfold Group.begun; split <;> rfl
@[simp] theorem begun_units : (g.begun i).units = g.units := by unfold Group.begun; split <;> rfl
@[simp] theorem begun_slot (b : Bool) : (g.begun i).slot b = g.slot b := by unfold Group.begun; split <;> rfl
@[simp] theorem begun_pred (j : Nat) : (g.begun i).pred j = g.pred j := by unfold Group.begun; split <;> rfl
@[simp] theorem begun_scalar (m : Nat) : (g.begun i).scalar m = g.scalar m := by unfold Group.begun; split <;> rfl
@[simp] theorem begun_pend : (g.begun i).pend = g.pend := by unfold Group.begun; split <;> rfl
@[simp] theorem begun_holds : (g.begun i).holds = g.holds := by unfold Group.begun; split <;> rfl
@[simp] theorem begun_handler : (g.begun i).handler = g.handler := by unfold Group.begun; split <;> rfl
@[simp] theorem begun_gens : (g.begun i).gens = g.gens := by unfold Group.begun; split <;> rfl

theorem selfBlock_run {b : Block} (hb : tlook (blkOfGrp s.cur.gk) s.blocks = some b) : selfBlock.run s = .ok b s := by
  simp [selfBlock, hb]

theorem selfHdr_run (w : Issues s i g h) : selfHdr.run s = .ok h s := by
  obtain ⟨b, x, hb, hx, hh⟩ := w.header
  simp [selfHdr, selfBlock_run hb, hx, hh]

theorem activeMask_run (p : Nat) (hg : tlook s.cur.gk s.groups = some g) :
    (activeMask p).run s = .ok (s.activeOf g p) s := by
  unfold activeMask State.activeOf
  simp only [bind_run, get_run, self_run hg]
  split <;> simp_all

@[simp] theorem begun_activeOf (p : Nat) : (s.begun i g).activeOf (g.begun i) p = s.activeOf g p := by
  simp [State.activeOf]

/-- The checks of a word that issues: they pass, and leave the state as its effect finds it. -/
theorem legal_run (w : Issues s i g h) : (legal i).run s = .ok () (s.begun i g) := by
  unfold legal
  simp only [bind_run, self_run w.group, selfHdr_run w, activeMask_run _ w.group, modify_run, ite_run,
    w.operands, w.range, w.pairs, Bool.false_eq_true, if_false, pure_run]
  by_cases he : endsRegion i = true
  · rw [if_pos he, modSelf_run (g := g) _ (by exact w.group)]
    unfold State.begun
    rw [if_pos he]
    simp only [State.setGroup, Group.begun, if_pos he]
  · rw [if_neg he]
    unfold State.begun
    rw [if_neg he]

theorem activeMask_begun (w : Issues s i g h) (p : Nat) :
    (activeMask p).run (s.begun i g) = .ok (s.activeOf g p) (s.begun i g) := by
  rw [activeMask_run (g := g.begun i) p (by simpa using begun_group w.group), begun_activeOf]

theorem self_begun (w : Issues s i g h) : self.run (s.begun i g) = .ok (g.begun i) (s.begun i g) :=
  self_run (by simpa using begun_group w.group)

theorem modSelf_begun (w : Issues s i g h) (f : Group → Group) :
    (modSelf f).run (s.begun i g) = .ok () (s.after i g (f (g.begun i))) := by
  rw [modSelf_run f (by simpa using begun_group w.group)]
  simp [State.after, State.setGroup]

theorem self_after (g' : Group) : self.run (s.after i g g') = .ok g' (s.after i g g') := by
  apply self_run
  simp [State.after, State.setGroup]

theorem modSelf_after (g' : Group) (f : Group → Group) :
    (modSelf f).run (s.after i g g') = .ok () (s.after i g (f g')) := by
  rw [modSelf_run (g := g') f (by simp [State.after, State.setGroup])]
  simp [State.after, State.setGroup]

theorem setPc_begun (w : Issues s i g h) (a : W64) :
    (setPc a).run (s.begun i g) = .ok () (s.after i g ((g.begun i).goTo s.cur.slotB a)) := by
  simp [setPc, modSelf_begun w, Group.goTo]

end Sys2Proof.Machine
end

