-- ==== Sys2Proof/Laws/Lanes.lean ====
section
/-! SUPPORT. Laws of lane registers: the checks of the elements that a word reads, and the writes of its results. -/

namespace Sys2Proof.Machine

variable {s : State} {i : Instr} {g g' : Group} {h : Hdr}

theorem lowest_nil : lowest [] = none := rfl

theorem reply_some {α : Type} {m : Op α} {a : α} {t : State} (h : reply m s = some (a, t)) : m.run s = .ok a t := by
  unfold reply at h
  split at h <;> simp_all

/-- The elements of a word that can be read pass the check. -/
theorem checkElems_run {es : List (Nat × Nat)} (hg : tlook s.cur.gk s.groups = some g) (hr : s.readable g es) :
    (checkElems es).run s = .ok () s := by
  have hb : es.filter (fun e => elemBad s s.cur.gk g e.1 e.2) = [] := by
    rw [List.filter_eq_nil_iff]
    intro e he
    simp [(hr e he).1]
  have hs : g.gens.trw = true → es.filter (fun e => elemStale s s.cur.gk g e.1 e.2) = [] := by
    intro ht
    rw [List.filter_eq_nil_iff]
    intro e he
    simp [(hr e he).2 ht]
  unfold checkElems
  simp only [bind_run, get_run, self_run hg, ite_run, hb, List.map_nil, lowest_nil, pure_run]
  split
  · rename_i ht
    simp [hs ht, lowest_nil]
  · rfl

@[simp] theorem readable_nil : s.readable g [] := by intro e he; cases he

@[simp] theorem putElem_groups (gk n l x : Nat) : (s.putElem gk g n l x).groups = s.groups := rfl
@[simp] theorem putElem_cur (gk n l x : Nat) : (s.putElem gk g n l x).cur = s.cur := rfl
@[simp] theorem putElem_cores (gk n l x : Nat) : (s.putElem gk g n l x).cores = s.cores := rfl
@[simp] theorem putElem_mem (gk n l x : Nat) : (s.putElem gk g n l x).mem = s.mem := rfl
@[simp] theorem putLane_groups (gk : Nat) (w : Bool) (n l x : Nat) : (s.putLane gk g w n l x).groups = s.groups := by
  unfold State.putLane; split <;> rfl
@[simp] theorem putLane_cur (gk : Nat) (w : Bool) (n l x : Nat) : (s.putLane gk g w n l x).cur = s.cur := by
  unfold State.putLane; split <;> rfl
@[simp] theorem setGroup_cur (gk : Nat) : (s.setGroup gk g).cur = s.cur := rfl

theorem setElem_run {gk : Nat} (n l x : Nat) (hg : tlook gk s.groups = some g) :
    (setElem gk n l x).run s = .ok () (s.putElem gk g n l x) := by
  unfold setElem
  simp only [bind_run, groupAt_run, hg, need_some_run, modify_run]
  rfl

theorem setLane_run {gk : Nat} (w : Bool) (n l x : Nat) (hg : tlook gk s.groups = some g) :
    (setLane gk w n l x).run s = .ok () (s.putLane gk g w n l x) := by
  unfold setLane State.putLane
  simp only [bind_run, setElem_run n l _ hg, ite_run, pure_run]
  split
  · exact setElem_run (s := s.putElem gk g n l (x % 2 ^ 32)) (n + 1) l _ hg
  · rfl

theorem writeDst_run (w : Bool) (l x : Nat) (d : Dst) (hg : tlook s.cur.gk s.groups = some g) :
    (writeDst w l x d).run s = .ok () (s.putResult w d (l, x)) := by
  unfold writeDst State.putResult
  simp only [bind_run, get_run, hg]
  cases d with
  | lane v => exact setLane_run w _ l x hg
  | sreg m => exact modGroup_run _ hg

@[simp] theorem putResult_cur (w : Bool) (d : Dst) (r : Nat × Nat) : (s.putResult w d r).cur = s.cur := by
  unfold State.putResult
  split
  · rfl
  · cases d <;> simp

/-- The group stays listed. -/
theorem putResult_group (w : Bool) (d : Dst) (r : Nat × Nat) (hg : tlook s.cur.gk s.groups = some g) :
    ∃ g', tlook s.cur.gk (s.putResult w d r).groups = some g' := by
  unfold State.putResult
  rw [hg]
  cases d with
  | lane v => exact ⟨g, by simpa using hg⟩
  | sreg m => exact ⟨_, setGroup_same _⟩

/-- The writes of a word's results: a list of items, with the lane and the value of each. -/
theorem writeDsts_run {β : Type} (w : Bool) (d : Dst) (xs : List β) (a b : β → Nat) (hg : tlook s.cur.gk s.groups = some g) :
    (forM xs fun x => writeDst w (a x) (b x) d : Op PUnit).run s =
      .ok () (s.putResults w d (xs.map fun x => (a x, b x))) := by
  induction xs generalizing s g with
  | nil => rfl
  | cons x xs ih =>
    obtain ⟨g', hg'⟩ := putResult_group w d (a x, b x) hg
    rw [forM_cons_run, writeDst_run w (a x) (b x) d hg]
    exact ih (by simpa using hg')

theorem zip_map_self {β γ : Type} (ls : List β) (f : β → γ) : ls.zip (ls.map f) = ls.map fun l => (l, f l) := by
  induction ls with
  | nil => rfl
  | cons l ls ih => simp [ih]

@[simp] theorem putResults_cur (w : Bool) (d : Dst) (rs : List (Nat × Nat)) : (s.putResults w d rs).cur = s.cur := by
  unfold State.putResults
  induction rs generalizing s with
  | nil => rfl
  | cons r rs ih => rw [List.foldl_cons, ih]; simp

theorem countEvents_run (e : Ev) : (countEvents e).run s = .ok () (s.counted e) := by
  unfold countEvents State.counted
  simp only [bind_run, get_run, ite_run]
  split <;> rfl

/-! A word that ends no region leaves its group as it found it until its effect -/

theorem begun_plain (he : endsRegion i = false) : s.begun i g =
    { s with cur := { s.cur with act := s.activeOf g (predOf i), wasOpen := g.regionOpen } } := by
  unfold State.begun; simp [he]

theorem group_begun_plain (he : endsRegion i = false) : g.begun i = g := by unfold Group.begun; simp [he]

@[simp] theorem elemAt_begun (gk n l : Nat) : elemAt (s.begun i g) gk g' n l = elemAt s gk g' n l := by
  unfold State.begun; split <;> rfl
@[simp] theorem elemBad_begun (gk n l : Nat) : elemBad (s.begun i g) gk g' n l = elemBad s gk g' n l := by
  unfold State.begun; split <;> rfl
@[simp] theorem elemStale_begun (gk n l : Nat) : elemStale (s.begun i g) gk g' n l = elemStale s gk g' n l := by
  unfold State.begun; split <;> rfl

theorem readable_begun {es : List (Nat × Nat)} (hr : s.readable g' es) : (s.begun i g).readable g' es := by
  intro e he
  simp only [begun_gk, elemBad_begun, elemStale_begun]
  exact hr e he

theorem group_begun (w : Issues s i g h) (he : endsRegion i = false) :
    tlook (s.begun i g).cur.gk (s.begun i g).groups = some g := by
  have := begun_group (i := i) w.group
  rw [group_begun_plain he] at this
  simpa using this

theorem self_begun_plain (w : Issues s i g h) (he : endsRegion i = false) : self.run (s.begun i g) = .ok g (s.begun i g) :=
  self_run (group_begun w he)

/-- The elements that a word reads pass the check after its beginning. -/
theorem checkElems_begun {es : List (Nat × Nat)} (w : Issues s i g h) (he : endsRegion i = false) (hr : s.readable g es) :
    (checkElems es).run (s.begun i g) = .ok () (s.begun i g) :=
  checkElems_run (group_begun w he) (readable_begun hr)

end Sys2Proof.Machine
end

