-- ==== Sys2Proof/Laws/Mem.lean ====
section
/-! SUPPORT. Laws of memory words: their common start, and the writes of their results. -/

namespace Sys2Proof.Machine

variable {s : State} {i : Instr} {g g' : Group} {h : Hdr}

@[simp] theorem elemAt_group_begun (gk n l : Nat) : elemAt s gk (g.begun i) n l = elemAt s gk g n l := by
  unfold Group.begun; split <;> rfl

theorem effAddr_begun (gk l n : Nat) (o : MWord) : effAddr (s.begun i g) gk (g'.begun i) l n o = effAddr s gk g' l n o := by
  have h1 : ∀ r, baseVal (s.begun i g) gk (g'.begun i) l r = baseVal s gk g' l r := by intro r; cases r <;> simp [baseVal]
  have h2 : ∀ r, indexVal (s.begun i g) gk (g'.begun i) l r = indexVal s gk g' l r := by intro r; cases r <;> simp [indexVal]
  simp only [effAddr, h1, h2]

theorem dataVal_begun (gk : Nat) (f : Option Fmt) (l n : Nat) (r : Reg) :
    dataVal (s.begun i g) gk (g'.begun i) f l n r = dataVal s gk g' f l n r := by
  cases r <;> simp [dataVal]

theorem readable_group_begun {es : List (Nat × Nat)} (hr : s.readable g es) : (s.begun i g').readable (g.begun i) es := by
  intro e he
  have := hr e he
  simp only [begun_gk, elemBad_begun, elemStale_begun, begun_gens]
  unfold Group.begun
  split <;> exact this

theorem readOperands_run (w : Issues s i g h) (sh : MShape) (o : MWord) (hr : s.readable g (memElems s g sh o)) :
    (readOperands sh o (s.activeOf g o.pred.toNat)).run (s.begun i g) = .ok (memOperands s g sh o) (s.begun i g) := by
  have hc := checkElems_run (by simpa using begun_group (i := i) w.group) (readable_group_begun (i := i) (g' := g) hr)
  unfold memElems at hc
  unfold readOperands
  simp only [bind_run, get_run, self_begun w, begun_width, pure_run, begun_gk, effAddr_begun, dataVal_begun, hc]
  rfl

theorem awaitPending_run {g : Group} (hg : tlook s.cur.gk s.groups = some g) (hp : g.pend = []) :
    awaitPending.run s = .ok () s := by
  unfold awaitPending
  simp [self_run hg, hp]

/-- The common start of a memory word that goes on. -/
theorem memStart_run {sh : MShape} {o : MWord} (m : MemGoes s i g h sh o) :
    (memStart i sh o).run s = .ok (s.activeOf g o.pred.toNat, memOperands s g sh o) (s.begun i g) := by
  unfold memStart
  simp only [bind_run, legal_run m.issues, activeMask_begun m.issues, m.some', if_false,
    readOperands_run m.issues sh o m.elems, pure_run]

theorem putPend_begun (w : Issues s i g h) (p : Pend) :
    (putPend p).run (s.begun i g) = .ok () (s.after i g ((g.begun i).holding p)) := by
  unfold putPend; rw [modSelf_begun w]; rfl

/-- A word that may be performed is kept outstanding, or is performed now (02_words.md R62 to R65). -/
theorem performOr_run {o : MWord} {v : MVals} (w : Issues s i g h) (now : Op Unit) :
    (memWaits s g i o v → (performOr i o (s.activeOf g o.pred.toNat) v.list now).run (s.begun i g) =
      .ok () (s.after i g ((g.begun i).holding (memPend s g i o v)))) ∧
    (¬memWaits s g i o v → (performOr i o (s.activeOf g o.pred.toNat) v.list now).run (s.begun i g) = now.run (s.begun i g)) := by
  have ht : tenantAt (s.begun i g) s.cur.gk = tenantAt s s.cur.gk := by unfold tenantAt; rw [begun_blocks]
  have hw : memWaits s g i o v ↔ ((s.begun i g).cur.defer || waitsFor (s.begun i g) (coreOfGrp (s.begun i g).cur.gk)
      (tenantAt (s.begun i g) (s.begun i g).cur.gk) (g.begun i).pend (memPend s g i o v)) = true := by
    simp [memWaits, begun_defer, ht]
  unfold performOr
  simp only [bind_run, get_run, self_begun w, ite_run]
  rw [show ({ newPend (s.begun i g) (g.begun i) i (s.activeOf g o.pred.toNat) o.la.toNat v.list with
    fence := if acquires o.ord then .all else .no, after := releases o.ord } : Pend) = memPend s g i o v from rfl]
  exact ⟨fun d => by rw [if_pos (hw.mp d), putPend_begun w], fun d => by rw [if_neg (fun x => d (hw.mpr x))]⟩

@[simp] theorem putElem_get (gk k n l x : Nat) : tlook k (s.putElem gk g n l x).groups = tlook k s.groups := rfl

/-- The write of a loaded value. -/
theorem writeData_run {gk : Nat} (size : Nat) (sx : Bool) (l x : Nat) (d : Reg) (hg : tlook gk s.groups = some g) :
    (writeData gk size sx l x d).run s = .ok () (s.putData gk size sx d (l, x)) := by
  unfold State.putData
  rw [hg]
  cases d with
  | const j => rfl
  | lane v =>
    show (forM (List.range (if size ≤ 4 then 1 else size / 4)) fun i =>
      setElem gk (v.toNat + i) l ((if sx = true then wrap 32 (sext x (8 * size)) else x) / 2 ^ (32 * i)) : Op PUnit).run s =
      .ok () ((List.range (if size ≤ 4 then 1 else size / 4)).foldl (fun t i =>
        t.putElem gk g (v.toNat + i) l ((if sx = true then wrap 32 (sext x (8 * size)) else x) / 2 ^ (32 * i))) s)
    generalize (if sx = true then wrap 32 (sext x (8 * size)) else x) = y
    generalize List.range (if size ≤ 4 then 1 else size / 4) = is
    induction is generalizing s with
    | nil => rfl
    | cons a is ih =>
      rw [forM_cons_run, setElem_run _ _ _ hg]
      simp only [List.foldl_cons]
      exact ih (s := s.putElem gk g (v.toNat + a) l (y / 2 ^ (32 * a))) hg
  | sreg m =>
    unfold writeData
    simp only [bind_run, modGroup_run _ hg, ite_run, pure_run]
    split
    · rw [modGroup_run _ (tlook_tset_same _ _ _)]
      simp [State.setGroup]
    · rfl

/-! A word kept outstanding -/

@[simp] theorem holding_width (p : Pend) : (g.holding p).width = g.width := rfl
@[simp] theorem holding_a (p : Pend) : (g.holding p).a = g.a := rfl
@[simp] theorem holding_b (p : Pend) : (g.holding p).b = g.b := rfl
@[simp] theorem holding_sp (p : Pend) : (g.holding p).sp = g.sp := rfl
@[simp] theorem holding_units (p : Pend) : (g.holding p).units = g.units := rfl
@[simp] theorem holding_gens (p : Pend) : (g.holding p).gens = g.gens := rfl
@[simp] theorem holding_ctl (p : Pend) : (g.holding p).ctl = g.ctl := rfl
@[simp] theorem holding_seed (p : Pend) : (g.holding p).seed = g.seed := rfl
@[simp] theorem holding_trapPc (p : Pend) : (g.holding p).trapPc = g.trapPc := rfl
@[simp] theorem holding_trapAddr (p : Pend) : (g.holding p).trapAddr = g.trapAddr := rfl
@[simp] theorem holding_trapCause (p : Pend) : (g.holding p).trapCause = g.trapCause := rfl
@[simp] theorem holding_rowprog (p : Pend) : (g.holding p).rowprog = g.rowprog := rfl
@[simp] theorem holding_wakewhy (p : Pend) : (g.holding p).wakewhy = g.wakewhy := rfl
@[simp] theorem holding_handler (p : Pend) : (g.holding p).handler = g.handler := rfl
@[simp] theorem holding_ended (p : Pend) : (g.holding p).ended = g.ended := rfl
@[simp] theorem holding_regionOpen (p : Pend) : (g.holding p).regionOpen = g.regionOpen := rfl
@[simp] theorem holding_replay (p : Pend) : (g.holding p).replay = g.replay := rfl
@[simp] theorem holding_masks (p : Pend) : (g.holding p).masks = g.masks := rfl
@[simp] theorem holding_trapping (p : Pend) : (g.holding p).trapping = g.trapping := rfl
@[simp] theorem holding_asleep (p : Pend) : (g.holding p).asleep = g.asleep := rfl
@[simp] theorem holding_yieldTill (p : Pend) : (g.holding p).yieldTill = g.yieldTill := rfl
@[simp] theorem holding_yielded (p : Pend) : (g.holding p).yielded = g.yielded := rfl
@[simp] theorem holding_age (p : Pend) : (g.holding p).age = g.age := rfl
@[simp] theorem holding_lastB (p : Pend) : (g.holding p).lastB = g.lastB := rfl
@[simp] theorem holding_readyAt (p : Pend) : (g.holding p).readyAt = g.readyAt := rfl
@[simp] theorem holding_issued (p : Pend) : (g.holding p).issued = g.issued := rfl
@[simp] theorem holding_slept (p : Pend) : (g.holding p).slept = g.slept := rfl
@[simp] theorem holding_futures (p : Pend) : (g.holding p).futures = g.futures := rfl
@[simp] theorem holding_holds (p : Pend) : (g.holding p).holds = g.holds := rfl
@[simp] theorem holding_arrived (p : Pend) : (g.holding p).arrived = g.arrived := rfl
@[simp] theorem holding_chain (p : Pend) : (g.holding p).chain = g.chain := rfl
@[simp] theorem holding_mx (p : Pend) : (g.holding p).mx = g.mx := rfl
@[simp] theorem holding_kept (p : Pend) : (g.holding p).kept = g.kept := rfl
@[simp] theorem holding_swept (p : Pend) : (g.holding p).swept = g.swept := rfl
@[simp] theorem holding_due (p : Pend) : (g.holding p).due = g.due := rfl
@[simp] theorem holding_released (p : Pend) : (g.holding p).released = g.released := rfl
@[simp] theorem holding_launched (p : Pend) : (g.holding p).launched = g.launched := rfl
@[simp] theorem holding_launchRec (p : Pend) : (g.holding p).launchRec = g.launchRec := rfl
@[simp] theorem holding_stopped (p : Pend) : (g.holding p).stopped = g.stopped := rfl
@[simp] theorem holding_preempt (p : Pend) : (g.holding p).preempt = g.preempt := rfl
@[simp] theorem holding_refs (p : Pend) : (g.holding p).refs = g.refs := rfl
@[simp] theorem holding_loops (p : Pend) : (g.holding p).loops = g.loops := rfl
@[simp] theorem holding_failed (p : Pend) : (g.holding p).failed = g.failed := rfl
@[simp] theorem holding_pend (p : Pend) : (g.holding p).pend = g.pend ++ [p] := rfl
@[simp] theorem holding_nextId (p : Pend) : (g.holding p).nextId = g.nextId + 1 := rfl

end Sys2Proof.Machine
end

