-- ==== Sys2Proof/Laws/State.lean ====
section
/-! SUPPORT. Laws of the state: each update leaves every field but its own. -/

namespace Sys2Proof.Machine

variable {s : State} {i : Instr} {g : Group}

/-! A group put -/

@[simp] theorem setGroup_agenda (gk : Nat) : (s.setGroup gk g).agenda = s.agenda := rfl
@[simp] theorem setGroup_cycle (gk : Nat) : (s.setGroup gk g).cycle = s.cycle := rfl
@[simp] theorem setGroup_freeCtr (gk : Nat) : (s.setGroup gk g).freeCtr = s.freeCtr := rfl
@[simp] theorem setGroup_blocks (gk : Nat) : (s.setGroup gk g).blocks = s.blocks := rfl
@[simp] theorem setGroup_cores (gk : Nat) : (s.setGroup gk g).cores = s.cores := rfl
@[simp] theorem setGroup_quads (gk : Nat) : (s.setGroup gk g).quads = s.quads := rfl
@[simp] theorem setGroup_dies (gk : Nat) : (s.setGroup gk g).dies = s.dies := rfl
@[simp] theorem setGroup_homes (gk : Nat) : (s.setGroup gk g).homes = s.homes := rfl
@[simp] theorem setGroup_store (gk : Nat) : (s.setGroup gk g).store = s.store := rfl
@[simp] theorem setGroup_dstore (gk : Nat) : (s.setGroup gk g).dstore = s.dstore := rfl
@[simp] theorem setGroup_mem (gk : Nat) : (s.setGroup gk g).mem = s.mem := rfl
@[simp] theorem setGroup_sects (gk : Nat) : (s.setGroup gk g).sects = s.sects := rfl
@[simp] theorem setGroup_l2 (gk : Nat) : (s.setGroup gk g).l2 = s.l2 := rfl
@[simp] theorem setGroup_accs (gk : Nat) : (s.setGroup gk g).accs = s.accs := rfl
@[simp] theorem setGroup_contribs (gk : Nat) : (s.setGroup gk g).contribs = s.contribs := rfl
@[simp] theorem setGroup_rings (gk : Nat) : (s.setGroup gk g).rings = s.rings := rfl
@[simp] theorem setGroup_queues (gk : Nat) : (s.setGroup gk g).queues = s.queues := rfl
@[simp] theorem setGroup_usage (gk : Nat) : (s.setGroup gk g).usage = s.usage := rfl
@[simp] theorem setGroup_parts (gk : Nat) : (s.setGroup gk g).parts = s.parts := rfl
@[simp] theorem setGroup_lanterns (gk : Nat) : (s.setGroup gk g).lanterns = s.lanterns := rfl
@[simp] theorem setGroup_mooring (gk : Nat) : (s.setGroup gk g).mooring = s.mooring := rfl
@[simp] theorem setGroup_fns (gk : Nat) : (s.setGroup gk g).fns = s.fns := rfl
@[simp] theorem setGroup_regs (gk : Nat) : (s.setGroup gk g).regs = s.regs := rfl
@[simp] theorem setGroup_dev (gk : Nat) : (s.setGroup gk g).dev = s.dev := rfl
@[simp] theorem setGroup_poison (gk : Nat) : (s.setGroup gk g).poison = s.poison := rfl
@[simp] theorem setGroup_writers (gk : Nat) : (s.setGroup gk g).writers = s.writers := rfl
@[simp] theorem setGroup_irqs (gk : Nat) : (s.setGroup gk g).irqs = s.irqs := rfl
@[simp] theorem setGroup_irqMask (gk : Nat) : (s.setGroup gk g).irqMask = s.irqMask := rfl
@[simp] theorem setGroup_irqPend (gk : Nat) : (s.setGroup gk g).irqPend = s.irqPend := rfl
@[simp] theorem setGroup_out (gk : Nat) : (s.setGroup gk g).out = s.out := rfl

/-! A register element and a result put -/

@[simp] theorem putElem_agenda (gk n l x : Nat) : (s.putElem gk g n l x).agenda = s.agenda := rfl
@[simp] theorem putLane_agenda (gk : Nat) (w : Bool) (n l x : Nat) : (s.putLane gk g w n l x).agenda = s.agenda := by
  unfold State.putLane; split <;> rfl
@[simp] theorem putElem_cycle (gk n l x : Nat) : (s.putElem gk g n l x).cycle = s.cycle := rfl
@[simp] theorem putLane_cycle (gk : Nat) (w : Bool) (n l x : Nat) : (s.putLane gk g w n l x).cycle = s.cycle := by
  unfold State.putLane; split <;> rfl
@[simp] theorem putElem_freeCtr (gk n l x : Nat) : (s.putElem gk g n l x).freeCtr = s.freeCtr := rfl
@[simp] theorem putLane_freeCtr (gk : Nat) (w : Bool) (n l x : Nat) : (s.putLane gk g w n l x).freeCtr = s.freeCtr := by
  unfold State.putLane; split <;> rfl
@[simp] theorem putElem_blocks (gk n l x : Nat) : (s.putElem gk g n l x).blocks = s.blocks := rfl
@[simp] theorem putLane_blocks (gk : Nat) (w : Bool) (n l x : Nat) : (s.putLane gk g w n l x).blocks = s.blocks := by
  unfold State.putLane; split <;> rfl
@[simp] theorem putLane_cores (gk : Nat) (w : Bool) (n l x : Nat) : (s.putLane gk g w n l x).cores = s.cores := by
  unfold State.putLane; split <;> rfl
@[simp] theorem putElem_quads (gk n l x : Nat) : (s.putElem gk g n l x).quads = s.quads := rfl
@[simp] theorem putLane_quads (gk : Nat) (w : Bool) (n l x : Nat) : (s.putLane gk g w n l x).quads = s.quads := by
  unfold State.putLane; split <;> rfl
@[simp] theorem putElem_dies (gk n l x : Nat) : (s.putElem gk g n l x).dies = s.dies := rfl
@[simp] theorem putLane_dies (gk : Nat) (w : Bool) (n l x : Nat) : (s.putLane gk g w n l x).dies = s.dies := by
  unfold State.putLane; split <;> rfl
@[simp] theorem putElem_homes (gk n l x : Nat) : (s.putElem gk g n l x).homes = s.homes := rfl
@[simp] theorem putLane_homes (gk : Nat) (w : Bool) (n l x : Nat) : (s.putLane gk g w n l x).homes = s.homes := by
  unfold State.putLane; split <;> rfl
@[simp] theorem putElem_dstore (gk n l x : Nat) : (s.putElem gk g n l x).dstore = s.dstore := rfl
@[simp] theorem putLane_dstore (gk : Nat) (w : Bool) (n l x : Nat) : (s.putLane gk g w n l x).dstore = s.dstore := by
  unfold State.putLane; split <;> rfl
@[simp] theorem putLane_mem (gk : Nat) (w : Bool) (n l x : Nat) : (s.putLane gk g w n l x).mem = s.mem := by
  unfold State.putLane; split <;> rfl
@[simp] theorem putElem_sects (gk n l x : Nat) : (s.putElem gk g n l x).sects = s.sects := rfl
@[simp] theorem putLane_sects (gk : Nat) (w : Bool) (n l x : Nat) : (s.putLane gk g w n l x).sects = s.sects := by
  unfold State.putLane; split <;> rfl
@[simp] theorem putElem_l2 (gk n l x : Nat) : (s.putElem gk g n l x).l2 = s.l2 := rfl
@[simp] theorem putLane_l2 (gk : Nat) (w : Bool) (n l x : Nat) : (s.putLane gk g w n l x).l2 = s.l2 := by
  unfold State.putLane; split <;> rfl
@[simp] theorem putElem_accs (gk n l x : Nat) : (s.putElem gk g n l x).accs = s.accs := rfl
@[simp] theorem putLane_accs (gk : Nat) (w : Bool) (n l x : Nat) : (s.putLane gk g w n l x).accs = s.accs := by
  unfold State.putLane; split <;> rfl
@[simp] theorem putElem_contribs (gk n l x : Nat) : (s.putElem gk g n l x).contribs = s.contribs := rfl
@[simp] theorem putLane_contribs (gk : Nat) (w : Bool) (n l x : Nat) : (s.putLane gk g w n l x).contribs = s.contribs := by
  unfold State.putLane; split <;> rfl
@[simp] theorem putElem_rings (gk n l x : Nat) : (s.putElem gk g n l x).rings = s.rings := rfl
@[simp] theorem putLane_rings (gk : Nat) (w : Bool) (n l x : Nat) : (s.putLane gk g w n l x).rings = s.rings := by
  unfold State.putLane; split <;> rfl
@[simp] theorem putElem_queues (gk n l x : Nat) : (s.putElem gk g n l x).queues = s.queues := rfl
@[simp] theorem putLane_queues (gk : Nat) (w : Bool) (n l x : Nat) : (s.putLane gk g w n l x).queues = s.queues := by
  unfold State.putLane; split <;> rfl
@[simp] theorem putElem_usage (gk n l x : Nat) : (s.putElem gk g n l x).usage = s.usage := rfl
@[simp] theorem putLane_usage (gk : Nat) (w : Bool) (n l x : Nat) : (s.putLane gk g w n l x).usage = s.usage := by
  unfold State.putLane; split <;> rfl
@[simp] theorem putElem_parts (gk n l x : Nat) : (s.putElem gk g n l x).parts = s.parts := rfl
@[simp] theorem putLane_parts (gk : Nat) (w : Bool) (n l x : Nat) : (s.putLane gk g w n l x).parts = s.parts := by
  unfold State.putLane; split <;> rfl
@[simp] theorem putElem_lanterns (gk n l x : Nat) : (s.putElem gk g n l x).lanterns = s.lanterns := rfl
@[simp] theorem putLane_lanterns (gk : Nat) (w : Bool) (n l x : Nat) : (s.putLane gk g w n l x).lanterns = s.lanterns := by
  unfold State.putLane; split <;> rfl
@[simp] theorem putElem_mooring (gk n l x : Nat) : (s.putElem gk g n l x).mooring = s.mooring := rfl
@[simp] theorem putLane_mooring (gk : Nat) (w : Bool) (n l x : Nat) : (s.putLane gk g w n l x).mooring = s.mooring := by
  unfold State.putLane; split <;> rfl
@[simp] theorem putElem_fns (gk n l x : Nat) : (s.putElem gk g n l x).fns = s.fns := rfl
@[simp] theorem putLane_fns (gk : Nat) (w : Bool) (n l x : Nat) : (s.putLane gk g w n l x).fns = s.fns := by
  unfold State.putLane; split <;> rfl
@[simp] theorem putElem_regs (gk n l x : Nat) : (s.putElem gk g n l x).regs = s.regs := rfl
@[simp] theorem putLane_regs (gk : Nat) (w : Bool) (n l x : Nat) : (s.putLane gk g w n l x).regs = s.regs := by
  unfold State.putLane; split <;> rfl
@[simp] theorem putElem_dev (gk n l x : Nat) : (s.putElem gk g n l x).dev = s.dev := rfl
@[simp] theorem putLane_dev (gk : Nat) (w : Bool) (n l x : Nat) : (s.putLane gk g w n l x).dev = s.dev := by
  unfold State.putLane; split <;> rfl
@[simp] theorem putElem_writers (gk n l x : Nat) : (s.putElem gk g n l x).writers = s.writers := rfl
@[simp] theorem putLane_writers (gk : Nat) (w : Bool) (n l x : Nat) : (s.putLane gk g w n l x).writers = s.writers := by
  unfold State.putLane; split <;> rfl
@[simp] theorem putElem_irqs (gk n l x : Nat) : (s.putElem gk g n l x).irqs = s.irqs := rfl
@[simp] theorem putLane_irqs (gk : Nat) (w : Bool) (n l x : Nat) : (s.putLane gk g w n l x).irqs = s.irqs := by
  unfold State.putLane; split <;> rfl
@[simp] theorem putElem_irqMask (gk n l x : Nat) : (s.putElem gk g n l x).irqMask = s.irqMask := rfl
@[simp] theorem putLane_irqMask (gk : Nat) (w : Bool) (n l x : Nat) : (s.putLane gk g w n l x).irqMask = s.irqMask := by
  unfold State.putLane; split <;> rfl
@[simp] theorem putElem_irqPend (gk n l x : Nat) : (s.putElem gk g n l x).irqPend = s.irqPend := rfl
@[simp] theorem putLane_irqPend (gk : Nat) (w : Bool) (n l x : Nat) : (s.putLane gk g w n l x).irqPend = s.irqPend := by
  unfold State.putLane; split <;> rfl
@[simp] theorem putElem_out (gk n l x : Nat) : (s.putElem gk g n l x).out = s.out := rfl
@[simp] theorem putLane_out (gk : Nat) (w : Bool) (n l x : Nat) : (s.putLane gk g w n l x).out = s.out := by
  unfold State.putLane; split <;> rfl
@[simp] theorem putResult_agenda (w : Bool) (d : Dst) (r : Nat × Nat) : (s.putResult w d r).agenda = s.agenda := by
  unfold State.putResult; split
  · rfl
  · cases d <;> simp
@[simp] theorem putResult_cycle (w : Bool) (d : Dst) (r : Nat × Nat) : (s.putResult w d r).cycle = s.cycle := by
  unfold State.putResult; split
  · rfl
  · cases d <;> simp
@[simp] theorem putResult_freeCtr (w : Bool) (d : Dst) (r : Nat × Nat) : (s.putResult w d r).freeCtr = s.freeCtr := by
  unfold State.putResult; split
  · rfl
  · cases d <;> simp
@[simp] theorem putResult_blocks (w : Bool) (d : Dst) (r : Nat × Nat) : (s.putResult w d r).blocks = s.blocks := by
  unfold State.putResult; split
  · rfl
  · cases d <;> simp
@[simp] theorem putResult_cores (w : Bool) (d : Dst) (r : Nat × Nat) : (s.putResult w d r).cores = s.cores := by
  unfold State.putResult; split
  · rfl
  · cases d <;> simp
@[simp] theorem putResult_quads (w : Bool) (d : Dst) (r : Nat × Nat) : (s.putResult w d r).quads = s.quads := by
  unfold State.putResult; split
  · rfl
  · cases d <;> simp
@[simp] theorem putResult_dies (w : Bool) (d : Dst) (r : Nat × Nat) : (s.putResult w d r).dies = s.dies := by
  unfold State.putResult; split
  · rfl
  · cases d <;> simp
@[simp] theorem putResult_homes (w : Bool) (d : Dst) (r : Nat × Nat) : (s.putResult w d r).homes = s.homes := by
  unfold State.putResult; split
  · rfl
  · cases d <;> simp
@[simp] theorem putResult_dstore (w : Bool) (d : Dst) (r : Nat × Nat) : (s.putResult w d r).dstore = s.dstore := by
  unfold State.putResult; split
  · rfl
  · cases d <;> simp
@[simp] theorem putResult_mem (w : Bool) (d : Dst) (r : Nat × Nat) : (s.putResult w d r).mem = s.mem := by
  unfold State.putResult; split
  · rfl
  · cases d <;> simp
@[simp] theorem putResult_sects (w : Bool) (d : Dst) (r : Nat × Nat) : (s.putResult w d r).sects = s.sects := by
  unfold State.putResult; split
  · rfl
  · cases d <;> simp
@[simp] theorem putResult_l2 (w : Bool) (d : Dst) (r : Nat × Nat) : (s.putResult w d r).l2 = s.l2 := by
  unfold State.putResult; split
  · rfl
  · cases d <;> simp
@[simp] theorem putResult_accs (w : Bool) (d : Dst) (r : Nat × Nat) : (s.putResult w d r).accs = s.accs := by
  unfold State.putResult; split
  · rfl
  · cases d <;> simp
@[simp] theorem putResult_contribs (w : Bool) (d : Dst) (r : Nat × Nat) : (s.putResult w d r).contribs = s.contribs := by
  unfold State.putResult; split
  · rfl
  · cases d <;> simp
@[simp] theorem putResult_rings (w : Bool) (d : Dst) (r : Nat × Nat) : (s.putResult w d r).rings = s.rings := by
  unfold State.putResult; split
  · rfl
  · cases d <;> simp
@[simp] theorem putResult_queues (w : Bool) (d : Dst) (r : Nat × Nat) : (s.putResult w d r).queues = s.queues := by
  unfold State.putResult; split
  · rfl
  · cases d <;> simp
@[simp] theorem putResult_usage (w : Bool) (d : Dst) (r : Nat × Nat) : (s.putResult w d r).usage = s.usage := by
  unfold State.putResult; split
  · rfl
  · cases d <;> simp
@[simp] theorem putResult_parts (w : Bool) (d : Dst) (r : Nat × Nat) : (s.putResult w d r).parts = s.parts := by
  unfold State.putResult; split
  · rfl
  · cases d <;> simp
@[simp] theorem putResult_lanterns (w : Bool) (d : Dst) (r : Nat × Nat) : (s.putResult w d r).lanterns = s.lanterns := by
  unfold State.putResult; split
  · rfl
  · cases d <;> simp
@[simp] theorem putResult_mooring (w : Bool) (d : Dst) (r : Nat × Nat) : (s.putResult w d r).mooring = s.mooring := by
  unfold State.putResult; split
  · rfl
  · cases d <;> simp
@[simp] theorem putResult_fns (w : Bool) (d : Dst) (r : Nat × Nat) : (s.putResult w d r).fns = s.fns := by
  unfold State.putResult; split
  · rfl
  · cases d <;> simp
@[simp] theorem putResult_regs (w : Bool) (d : Dst) (r : Nat × Nat) : (s.putResult w d r).regs = s.regs := by
  unfold State.putResult; split
  · rfl
  · cases d <;> simp
@[simp] theorem putResult_dev (w : Bool) (d : Dst) (r : Nat × Nat) : (s.putResult w d r).dev = s.dev := by
  unfold State.putResult; split
  · rfl
  · cases d <;> simp
@[simp] theorem putResult_writers (w : Bool) (d : Dst) (r : Nat × Nat) : (s.putResult w d r).writers = s.writers := by
  unfold State.putResult; split
  · rfl
  · cases d <;> simp
@[simp] theorem putResult_irqs (w : Bool) (d : Dst) (r : Nat × Nat) : (s.putResult w d r).irqs = s.irqs := by
  unfold State.putResult; split
  · rfl
  · cases d <;> simp
@[simp] theorem putResult_irqMask (w : Bool) (d : Dst) (r : Nat × Nat) : (s.putResult w d r).irqMask = s.irqMask := by
  unfold State.putResult; split
  · rfl
  · cases d <;> simp
@[simp] theorem putResult_irqPend (w : Bool) (d : Dst) (r : Nat × Nat) : (s.putResult w d r).irqPend = s.irqPend := by
  unfold State.putResult; split
  · rfl
  · cases d <;> simp
@[simp] theorem putResult_out (w : Bool) (d : Dst) (r : Nat × Nat) : (s.putResult w d r).out = s.out := by
  unfold State.putResult; split
  · rfl
  · cases d <;> simp
@[simp] theorem putResults_agenda (w : Bool) (d : Dst) (rs : List (Nat × Nat)) : (s.putResults w d rs).agenda = s.agenda := by
  unfold State.putResults
  induction rs generalizing s with
  | nil => rfl
  | cons r rs ih => rw [List.foldl_cons, ih]; simp
@[simp] theorem putResults_cycle (w : Bool) (d : Dst) (rs : List (Nat × Nat)) : (s.putResults w d rs).cycle = s.cycle := by
  unfold State.putResults
  induction rs generalizing s with
  | nil => rfl
  | cons r rs ih => rw [List.foldl_cons, ih]; simp
@[simp] theorem putResults_freeCtr (w : Bool) (d : Dst) (rs : List (Nat × Nat)) : (s.putResults w d rs).freeCtr = s.freeCtr := by
  unfold State.putResults
  induction rs generalizing s with
  | nil => rfl
  | cons r rs ih => rw [List.foldl_cons, ih]; simp
@[simp] theorem putResults_blocks (w : Bool) (d : Dst) (rs : List (Nat × Nat)) : (s.putResults w d rs).blocks = s.blocks := by
  unfold State.putResults
  induction rs generalizing s with
  | nil => rfl
  | cons r rs ih => rw [List.foldl_cons, ih]; simp
@[simp] theorem putResults_cores (w : Bool) (d : Dst) (rs : List (Nat × Nat)) : (s.putResults w d rs).cores = s.cores := by
  unfold State.putResults
  induction rs generalizing s with
  | nil => rfl
  | cons r rs ih => rw [List.foldl_cons, ih]; simp
@[simp] theorem putResults_quads (w : Bool) (d : Dst) (rs : List (Nat × Nat)) : (s.putResults w d rs).quads = s.quads := by
  unfold State.putResults
  induction rs generalizing s with
  | nil => rfl
  | cons r rs ih => rw [List.foldl_cons, ih]; simp
@[simp] theorem putResults_dies (w : Bool) (d : Dst) (rs : List (Nat × Nat)) : (s.putResults w d rs).dies = s.dies := by
  unfold State.putResults
  induction rs generalizing s with
  | nil => rfl
  | cons r rs ih => rw [List.foldl_cons, ih]; simp
@[simp] theorem putResults_homes (w : Bool) (d : Dst) (rs : List (Nat × Nat)) : (s.putResults w d rs).homes = s.homes := by
  unfold State.putResults
  induction rs generalizing s with
  | nil => rfl
  | cons r rs ih => rw [List.foldl_cons, ih]; simp
@[simp] theorem putResults_dstore (w : Bool) (d : Dst) (rs : List (Nat × Nat)) : (s.putResults w d rs).dstore = s.dstore := by
  unfold State.putResults
  induction rs generalizing s with
  | nil => rfl
  | cons r rs ih => rw [List.foldl_cons, ih]; simp
@[simp] theorem putResults_mem (w : Bool) (d : Dst) (rs : List (Nat × Nat)) : (s.putResults w d rs).mem = s.mem := by
  unfold State.putResults
  induction rs generalizing s with
  | nil => rfl
  | cons r rs ih => rw [List.foldl_cons, ih]; simp
@[simp] theorem putResults_sects (w : Bool) (d : Dst) (rs : List (Nat × Nat)) : (s.putResults w d rs).sects = s.sects := by
  unfold State.putResults
  induction rs generalizing s with
  | nil => rfl
  | cons r rs ih => rw [List.foldl_cons, ih]; simp
@[simp] theorem putResults_l2 (w : Bool) (d : Dst) (rs : List (Nat × Nat)) : (s.putResults w d rs).l2 = s.l2 := by
  unfold State.putResults
  induction rs generalizing s with
  | nil => rfl
  | cons r rs ih => rw [List.foldl_cons, ih]; simp
@[simp] theorem putResults_accs (w : Bool) (d : Dst) (rs : List (Nat × Nat)) : (s.putResults w d rs).accs = s.accs := by
  unfold State.putResults
  induction rs generalizing s with
  | nil => rfl
  | cons r rs ih => rw [List.foldl_cons, ih]; simp
@[simp] theorem putResults_contribs (w : Bool) (d : Dst) (rs : List (Nat × Nat)) : (s.putResults w d rs).contribs = s.contribs := by
  unfold State.putResults
  induction rs generalizing s with
  | nil => rfl
  | cons r rs ih => rw [List.foldl_cons, ih]; simp
@[simp] theorem putResults_rings (w : Bool) (d : Dst) (rs : List (Nat × Nat)) : (s.putResults w d rs).rings = s.rings := by
  unfold State.putResults
  induction rs generalizing s with
  | nil => rfl
  | cons r rs ih => rw [List.foldl_cons, ih]; simp
@[simp] theorem putResults_queues (w : Bool) (d : Dst) (rs : List (Nat × Nat)) : (s.putResults w d rs).queues = s.queues := by
  unfold State.putResults
  induction rs generalizing s with
  | nil => rfl
  | cons r rs ih => rw [List.foldl_cons, ih]; simp
@[simp] theorem putResults_usage (w : Bool) (d : Dst) (rs : List (Nat × Nat)) : (s.putResults w d rs).usage = s.usage := by
  unfold State.putResults
  induction rs generalizing s with
  | nil => rfl
  | cons r rs ih => rw [List.foldl_cons, ih]; simp
@[simp] theorem putResults_parts (w : Bool) (d : Dst) (rs : List (Nat × Nat)) : (s.putResults w d rs).parts = s.parts := by
  unfold State.putResults
  induction rs generalizing s with
  | nil => rfl
  | cons r rs ih => rw [List.foldl_cons, ih]; simp
@[simp] theorem putResults_lanterns (w : Bool) (d : Dst) (rs : List (Nat × Nat)) : (s.putResults w d rs).lanterns = s.lanterns := by
  unfold State.putResults
  induction rs generalizing s with
  | nil => rfl
  | cons r rs ih => rw [List.foldl_cons, ih]; simp
@[simp] theorem putResults_mooring (w : Bool) (d : Dst) (rs : List (Nat × Nat)) : (s.putResults w d rs).mooring = s.mooring := by
  unfold State.putResults
  induction rs generalizing s with
  | nil => rfl
  | cons r rs ih => rw [List.foldl_cons, ih]; simp
@[simp] theorem putResults_fns (w : Bool) (d : Dst) (rs : List (Nat × Nat)) : (s.putResults w d rs).fns = s.fns := by
  unfold State.putResults
  induction rs generalizing s with
  | nil => rfl
  | cons r rs ih => rw [List.foldl_cons, ih]; simp
@[simp] theorem putResults_regs (w : Bool) (d : Dst) (rs : List (Nat × Nat)) : (s.putResults w d rs).regs = s.regs := by
  unfold State.putResults
  induction rs generalizing s with
  | nil => rfl
  | cons r rs ih => rw [List.foldl_cons, ih]; simp
@[simp] theorem putResults_dev (w : Bool) (d : Dst) (rs : List (Nat × Nat)) : (s.putResults w d rs).dev = s.dev := by
  unfold State.putResults
  induction rs generalizing s with
  | nil => rfl
  | cons r rs ih => rw [List.foldl_cons, ih]; simp
@[simp] theorem putResults_writers (w : Bool) (d : Dst) (rs : List (Nat × Nat)) : (s.putResults w d rs).writers = s.writers := by
  unfold State.putResults
  induction rs generalizing s with
  | nil => rfl
  | cons r rs ih => rw [List.foldl_cons, ih]; simp
@[simp] theorem putResults_irqs (w : Bool) (d : Dst) (rs : List (Nat × Nat)) : (s.putResults w d rs).irqs = s.irqs := by
  unfold State.putResults
  induction rs generalizing s with
  | nil => rfl
  | cons r rs ih => rw [List.foldl_cons, ih]; simp
@[simp] theorem putResults_irqMask (w : Bool) (d : Dst) (rs : List (Nat × Nat)) : (s.putResults w d rs).irqMask = s.irqMask := by
  unfold State.putResults
  induction rs generalizing s with
  | nil => rfl
  | cons r rs ih => rw [List.foldl_cons, ih]; simp
@[simp] theorem putResults_irqPend (w : Bool) (d : Dst) (rs : List (Nat × Nat)) : (s.putResults w d rs).irqPend = s.irqPend := by
  unfold State.putResults
  induction rs generalizing s with
  | nil => rfl
  | cons r rs ih => rw [List.foldl_cons, ih]; simp
@[simp] theorem putResults_out (w : Bool) (d : Dst) (rs : List (Nat × Nat)) : (s.putResults w d rs).out = s.out := by
  unfold State.putResults
  induction rs generalizing s with
  | nil => rfl
  | cons r rs ih => rw [List.foldl_cons, ih]; simp

/-! Events counted -/

@[simp] theorem counted_agenda (e : Ev) : (s.counted e).agenda = s.agenda := by unfold State.counted; split <;> rfl
@[simp] theorem counted_cycle (e : Ev) : (s.counted e).cycle = s.cycle := by unfold State.counted; split <;> rfl
@[simp] theorem counted_cur (e : Ev) : (s.counted e).cur = s.cur := by unfold State.counted; split <;> rfl
@[simp] theorem counted_freeCtr (e : Ev) : (s.counted e).freeCtr = s.freeCtr := by unfold State.counted; split <;> rfl
@[simp] theorem counted_groups (e : Ev) : (s.counted e).groups = s.groups := by unfold State.counted; split <;> rfl
@[simp] theorem counted_blocks (e : Ev) : (s.counted e).blocks = s.blocks := by unfold State.counted; split <;> rfl
@[simp] theorem counted_quads (e : Ev) : (s.counted e).quads = s.quads := by unfold State.counted; split <;> rfl
@[simp] theorem counted_dies (e : Ev) : (s.counted e).dies = s.dies := by unfold State.counted; split <;> rfl
@[simp] theorem counted_homes (e : Ev) : (s.counted e).homes = s.homes := by unfold State.counted; split <;> rfl
@[simp] theorem counted_store (e : Ev) : (s.counted e).store = s.store := by unfold State.counted; split <;> rfl
@[simp] theorem counted_dstore (e : Ev) : (s.counted e).dstore = s.dstore := by unfold State.counted; split <;> rfl
@[simp] theorem counted_mem (e : Ev) : (s.counted e).mem = s.mem := by unfold State.counted; split <;> rfl
@[simp] theorem counted_sects (e : Ev) : (s.counted e).sects = s.sects := by unfold State.counted; split <;> rfl
@[simp] theorem counted_l2 (e : Ev) : (s.counted e).l2 = s.l2 := by unfold State.counted; split <;> rfl
@[simp] theorem counted_accs (e : Ev) : (s.counted e).accs = s.accs := by unfold State.counted; split <;> rfl
@[simp] theorem counted_contribs (e : Ev) : (s.counted e).contribs = s.contribs := by unfold State.counted; split <;> rfl
@[simp] theorem counted_rings (e : Ev) : (s.counted e).rings = s.rings := by unfold State.counted; split <;> rfl
@[simp] theorem counted_queues (e : Ev) : (s.counted e).queues = s.queues := by unfold State.counted; split <;> rfl
@[simp] theorem counted_usage (e : Ev) : (s.counted e).usage = s.usage := by unfold State.counted; split <;> rfl
@[simp] theorem counted_parts (e : Ev) : (s.counted e).parts = s.parts := by unfold State.counted; split <;> rfl
@[simp] theorem counted_lanterns (e : Ev) : (s.counted e).lanterns = s.lanterns := by unfold State.counted; split <;> rfl
@[simp] theorem counted_mooring (e : Ev) : (s.counted e).mooring = s.mooring := by unfold State.counted; split <;> rfl
@[simp] theorem counted_fns (e : Ev) : (s.counted e).fns = s.fns := by unfold State.counted; split <;> rfl
@[simp] theorem counted_regs (e : Ev) : (s.counted e).regs = s.regs := by unfold State.counted; split <;> rfl
@[simp] theorem counted_dev (e : Ev) : (s.counted e).dev = s.dev := by unfold State.counted; split <;> rfl
@[simp] theorem counted_poison (e : Ev) : (s.counted e).poison = s.poison := by unfold State.counted; split <;> rfl
@[simp] theorem counted_writers (e : Ev) : (s.counted e).writers = s.writers := by unfold State.counted; split <;> rfl
@[simp] theorem counted_irqs (e : Ev) : (s.counted e).irqs = s.irqs := by unfold State.counted; split <;> rfl
@[simp] theorem counted_irqMask (e : Ev) : (s.counted e).irqMask = s.irqMask := by unfold State.counted; split <;> rfl
@[simp] theorem counted_irqPend (e : Ev) : (s.counted e).irqPend = s.irqPend := by unfold State.counted; split <;> rfl
@[simp] theorem counted_out (e : Ev) : (s.counted e).out = s.out := by unfold State.counted; split <;> rfl

/-! The beginning of a word -/

@[simp] theorem begun_agenda : (s.begun i g).agenda = s.agenda := by unfold State.begun; split <;> rfl
@[simp] theorem begun_freeCtr : (s.begun i g).freeCtr = s.freeCtr := by unfold State.begun; split <;> rfl
@[simp] theorem begun_quads : (s.begun i g).quads = s.quads := by unfold State.begun; split <;> rfl
@[simp] theorem begun_dies : (s.begun i g).dies = s.dies := by unfold State.begun; split <;> rfl
@[simp] theorem begun_dstore : (s.begun i g).dstore = s.dstore := by unfold State.begun; split <;> rfl
@[simp] theorem begun_sects : (s.begun i g).sects = s.sects := by unfold State.begun; split <;> rfl
@[simp] theorem begun_l2 : (s.begun i g).l2 = s.l2 := by unfold State.begun; split <;> rfl
@[simp] theorem begun_accs : (s.begun i g).accs = s.accs := by unfold State.begun; split <;> rfl
@[simp] theorem begun_rings : (s.begun i g).rings = s.rings := by unfold State.begun; split <;> rfl
@[simp] theorem begun_usage : (s.begun i g).usage = s.usage := by unfold State.begun; split <;> rfl
@[simp] theorem begun_parts : (s.begun i g).parts = s.parts := by unfold State.begun; split <;> rfl
@[simp] theorem begun_lanterns : (s.begun i g).lanterns = s.lanterns := by unfold State.begun; split <;> rfl
@[simp] theorem begun_mooring : (s.begun i g).mooring = s.mooring := by unfold State.begun; split <;> rfl
@[simp] theorem begun_fns : (s.begun i g).fns = s.fns := by unfold State.begun; split <;> rfl
@[simp] theorem begun_writers : (s.begun i g).writers = s.writers := by unfold State.begun; split <;> rfl
@[simp] theorem begun_irqs : (s.begun i g).irqs = s.irqs := by unfold State.begun; split <;> rfl
@[simp] theorem begun_irqMask : (s.begun i g).irqMask = s.irqMask := by unfold State.begun; split <;> rfl
@[simp] theorem begun_irqPend : (s.begun i g).irqPend = s.irqPend := by unfold State.begun; split <;> rfl
@[simp] theorem begun_out : (s.begun i g).out = s.out := by unfold State.begun; split <;> rfl

/-! Cycles that pass, and the end of a step -/

@[simp] theorem passed_agenda (n : Nat) : (passed n s).agenda = s.agenda := by unfold passed; split <;> rfl
@[simp] theorem passed_cur (n : Nat) : (passed n s).cur = s.cur := by unfold passed; split <;> rfl
@[simp] theorem passed_freeCtr (n : Nat) : (passed n s).freeCtr = s.freeCtr := by unfold passed; split <;> rfl
@[simp] theorem passed_blocks (n : Nat) : (passed n s).blocks = s.blocks := by unfold passed; split <;> rfl
@[simp] theorem passed_quads (n : Nat) : (passed n s).quads = s.quads := by unfold passed; split <;> rfl
@[simp] theorem passed_dies (n : Nat) : (passed n s).dies = s.dies := by unfold passed; split <;> rfl
@[simp] theorem passed_homes (n : Nat) : (passed n s).homes = s.homes := by unfold passed; split <;> rfl
@[simp] theorem passed_store (n : Nat) : (passed n s).store = s.store := by unfold passed; split <;> rfl
@[simp] theorem passed_dstore (n : Nat) : (passed n s).dstore = s.dstore := by unfold passed; split <;> rfl
@[simp] theorem passed_mem (n : Nat) : (passed n s).mem = s.mem := by unfold passed; split <;> rfl
@[simp] theorem passed_sects (n : Nat) : (passed n s).sects = s.sects := by unfold passed; split <;> rfl
@[simp] theorem passed_l2 (n : Nat) : (passed n s).l2 = s.l2 := by unfold passed; split <;> rfl
@[simp] theorem passed_accs (n : Nat) : (passed n s).accs = s.accs := by unfold passed; split <;> rfl
@[simp] theorem passed_contribs (n : Nat) : (passed n s).contribs = s.contribs := by unfold passed; split <;> rfl
@[simp] theorem passed_rings (n : Nat) : (passed n s).rings = s.rings := by unfold passed; split <;> rfl
@[simp] theorem passed_queues (n : Nat) : (passed n s).queues = s.queues := by unfold passed; split <;> rfl
@[simp] theorem passed_parts (n : Nat) : (passed n s).parts = s.parts := by unfold passed; split <;> rfl
@[simp] theorem passed_lanterns (n : Nat) : (passed n s).lanterns = s.lanterns := by unfold passed; split <;> rfl
@[simp] theorem passed_mooring (n : Nat) : (passed n s).mooring = s.mooring := by unfold passed; split <;> rfl
@[simp] theorem passed_fns (n : Nat) : (passed n s).fns = s.fns := by unfold passed; split <;> rfl
@[simp] theorem passed_regs (n : Nat) : (passed n s).regs = s.regs := by unfold passed; split <;> rfl
@[simp] theorem passed_dev (n : Nat) : (passed n s).dev = s.dev := by unfold passed; split <;> rfl
@[simp] theorem passed_poison (n : Nat) : (passed n s).poison = s.poison := by unfold passed; split <;> rfl
@[simp] theorem passed_writers (n : Nat) : (passed n s).writers = s.writers := by unfold passed; split <;> rfl
@[simp] theorem passed_irqs (n : Nat) : (passed n s).irqs = s.irqs := by unfold passed; split <;> rfl
@[simp] theorem passed_irqMask (n : Nat) : (passed n s).irqMask = s.irqMask := by unfold passed; split <;> rfl
@[simp] theorem passed_irqPend (n : Nat) : (passed n s).irqPend = s.irqPend := by unfold passed; split <;> rfl
@[simp] theorem passed_out (n : Nat) : (passed n s).out = s.out := by unfold passed; split <;> rfl
@[simp] theorem passed_cycle (n : Nat) : (passed n s).cycle = s.cycle + n := by unfold passed; split <;> simp_all
@[simp] theorem closeStep_agenda (t : State) : (closeStep s t).agenda = t.agenda := rfl
@[simp] theorem closeStep_cycle (t : State) : (closeStep s t).cycle = t.cycle := rfl
@[simp] theorem closeStep_cur (t : State) : (closeStep s t).cur = t.cur := rfl
@[simp] theorem closeStep_freeCtr (t : State) : (closeStep s t).freeCtr = t.freeCtr := rfl
@[simp] theorem closeStep_groups (t : State) : (closeStep s t).groups = t.groups := rfl
@[simp] theorem closeStep_blocks (t : State) : (closeStep s t).blocks = t.blocks := rfl
@[simp] theorem closeStep_quads (t : State) : (closeStep s t).quads = t.quads := rfl
@[simp] theorem closeStep_dies (t : State) : (closeStep s t).dies = t.dies := rfl
@[simp] theorem closeStep_homes (t : State) : (closeStep s t).homes = t.homes := rfl
@[simp] theorem closeStep_store (t : State) : (closeStep s t).store = t.store := rfl
@[simp] theorem closeStep_dstore (t : State) : (closeStep s t).dstore = t.dstore := rfl
@[simp] theorem closeStep_mem (t : State) : (closeStep s t).mem = t.mem := rfl
@[simp] theorem closeStep_sects (t : State) : (closeStep s t).sects = t.sects := rfl
@[simp] theorem closeStep_l2 (t : State) : (closeStep s t).l2 = t.l2 := rfl
@[simp] theorem closeStep_accs (t : State) : (closeStep s t).accs = t.accs := rfl
@[simp] theorem closeStep_contribs (t : State) : (closeStep s t).contribs = t.contribs := rfl
@[simp] theorem closeStep_rings (t : State) : (closeStep s t).rings = t.rings := rfl
@[simp] theorem closeStep_queues (t : State) : (closeStep s t).queues = t.queues := rfl
@[simp] theorem closeStep_usage (t : State) : (closeStep s t).usage = t.usage := rfl
@[simp] theorem closeStep_parts (t : State) : (closeStep s t).parts = t.parts := rfl
@[simp] theorem closeStep_lanterns (t : State) : (closeStep s t).lanterns = t.lanterns := rfl
@[simp] theorem closeStep_mooring (t : State) : (closeStep s t).mooring = t.mooring := rfl
@[simp] theorem closeStep_fns (t : State) : (closeStep s t).fns = t.fns := rfl
@[simp] theorem closeStep_regs (t : State) : (closeStep s t).regs = t.regs := rfl
@[simp] theorem closeStep_poison (t : State) : (closeStep s t).poison = t.poison := rfl
@[simp] theorem closeStep_writers (t : State) : (closeStep s t).writers = t.writers := rfl
@[simp] theorem closeStep_irqs (t : State) : (closeStep s t).irqs = t.irqs := rfl
@[simp] theorem closeStep_irqMask (t : State) : (closeStep s t).irqMask = t.irqMask := rfl
@[simp] theorem closeStep_irqPend (t : State) : (closeStep s t).irqPend = t.irqPend := rfl
@[simp] theorem closeStep_out (t : State) : (closeStep s t).out = t.out := rfl

/-! Slots, scalar registers and predicates of a group -/

@[simp] theorem setSlot_width (b : Bool) (x : Slot) : (g.setSlot b x).width = g.width := by cases b <;> rfl
@[simp] theorem goTo_width (b : Bool) (a : W64) : (g.goTo b a).width = g.width := by cases b <;> rfl
@[simp] theorem setSlot_sp (b : Bool) (x : Slot) : (g.setSlot b x).sp = g.sp := by cases b <;> rfl
@[simp] theorem goTo_sp (b : Bool) (a : W64) : (g.goTo b a).sp = g.sp := by cases b <;> rfl
@[simp] theorem setSlot_units (b : Bool) (x : Slot) : (g.setSlot b x).units = g.units := by cases b <;> rfl
@[simp] theorem goTo_units (b : Bool) (a : W64) : (g.goTo b a).units = g.units := by cases b <;> rfl
@[simp] theorem setSlot_gens (b : Bool) (x : Slot) : (g.setSlot b x).gens = g.gens := by cases b <;> rfl
@[simp] theorem goTo_gens (b : Bool) (a : W64) : (g.goTo b a).gens = g.gens := by cases b <;> rfl
@[simp] theorem setSlot_ctl (b : Bool) (x : Slot) : (g.setSlot b x).ctl = g.ctl := by cases b <;> rfl
@[simp] theorem goTo_ctl (b : Bool) (a : W64) : (g.goTo b a).ctl = g.ctl := by cases b <;> rfl
@[simp] theorem setSlot_seed (b : Bool) (x : Slot) : (g.setSlot b x).seed = g.seed := by cases b <;> rfl
@[simp] theorem goTo_seed (b : Bool) (a : W64) : (g.goTo b a).seed = g.seed := by cases b <;> rfl
@[simp] theorem setSlot_trapPc (b : Bool) (x : Slot) : (g.setSlot b x).trapPc = g.trapPc := by cases b <;> rfl
@[simp] theorem goTo_trapPc (b : Bool) (a : W64) : (g.goTo b a).trapPc = g.trapPc := by cases b <;> rfl
@[simp] theorem setSlot_trapAddr (b : Bool) (x : Slot) : (g.setSlot b x).trapAddr = g.trapAddr := by cases b <;> rfl
@[simp] theorem goTo_trapAddr (b : Bool) (a : W64) : (g.goTo b a).trapAddr = g.trapAddr := by cases b <;> rfl
@[simp] theorem setSlot_trapCause (b : Bool) (x : Slot) : (g.setSlot b x).trapCause = g.trapCause := by cases b <;> rfl
@[simp] theorem goTo_trapCause (b : Bool) (a : W64) : (g.goTo b a).trapCause = g.trapCause := by cases b <;> rfl
@[simp] theorem setSlot_rowprog (b : Bool) (x : Slot) : (g.setSlot b x).rowprog = g.rowprog := by cases b <;> rfl
@[simp] theorem goTo_rowprog (b : Bool) (a : W64) : (g.goTo b a).rowprog = g.rowprog := by cases b <;> rfl
@[simp] theorem setSlot_wakewhy (b : Bool) (x : Slot) : (g.setSlot b x).wakewhy = g.wakewhy := by cases b <;> rfl
@[simp] theorem goTo_wakewhy (b : Bool) (a : W64) : (g.goTo b a).wakewhy = g.wakewhy := by cases b <;> rfl
@[simp] theorem setSlot_handler (b : Bool) (x : Slot) : (g.setSlot b x).handler = g.handler := by cases b <;> rfl
@[simp] theorem goTo_handler (b : Bool) (a : W64) : (g.goTo b a).handler = g.handler := by cases b <;> rfl
@[simp] theorem setSlot_ended (b : Bool) (x : Slot) : (g.setSlot b x).ended = g.ended := by cases b <;> rfl
@[simp] theorem goTo_ended (b : Bool) (a : W64) : (g.goTo b a).ended = g.ended := by cases b <;> rfl
@[simp] theorem setSlot_regionOpen (b : Bool) (x : Slot) : (g.setSlot b x).regionOpen = g.regionOpen := by cases b <;> rfl
@[simp] theorem goTo_regionOpen (b : Bool) (a : W64) : (g.goTo b a).regionOpen = g.regionOpen := by cases b <;> rfl
@[simp] theorem setSlot_pend (b : Bool) (x : Slot) : (g.setSlot b x).pend = g.pend := by cases b <;> rfl
@[simp] theorem goTo_pend (b : Bool) (a : W64) : (g.goTo b a).pend = g.pend := by cases b <;> rfl
@[simp] theorem setSlot_nextId (b : Bool) (x : Slot) : (g.setSlot b x).nextId = g.nextId := by cases b <;> rfl
@[simp] theorem goTo_nextId (b : Bool) (a : W64) : (g.goTo b a).nextId = g.nextId := by cases b <;> rfl
@[simp] theorem setSlot_replay (b : Bool) (x : Slot) : (g.setSlot b x).replay = g.replay := by cases b <;> rfl
@[simp] theorem goTo_replay (b : Bool) (a : W64) : (g.goTo b a).replay = g.replay := by cases b <;> rfl
@[simp] theorem setSlot_masks (b : Bool) (x : Slot) : (g.setSlot b x).masks = g.masks := by cases b <;> rfl
@[simp] theorem goTo_masks (b : Bool) (a : W64) : (g.goTo b a).masks = g.masks := by cases b <;> rfl
@[simp] theorem setSlot_trapping (b : Bool) (x : Slot) : (g.setSlot b x).trapping = g.trapping := by cases b <;> rfl
@[simp] theorem goTo_trapping (b : Bool) (a : W64) : (g.goTo b a).trapping = g.trapping := by cases b <;> rfl
@[simp] theorem setSlot_asleep (b : Bool) (x : Slot) : (g.setSlot b x).asleep = g.asleep := by cases b <;> rfl
@[simp] theorem goTo_asleep (b : Bool) (a : W64) : (g.goTo b a).asleep = g.asleep := by cases b <;> rfl
@[simp] theorem setSlot_yieldTill (b : Bool) (x : Slot) : (g.setSlot b x).yieldTill = g.yieldTill := by cases b <;> rfl
@[simp] theorem goTo_yieldTill (b : Bool) (a : W64) : (g.goTo b a).yieldTill = g.yieldTill := by cases b <;> rfl
@[simp] theorem setSlot_yielded (b : Bool) (x : Slot) : (g.setSlot b x).yielded = g.yielded := by cases b <;> rfl
@[simp] theorem goTo_yielded (b : Bool) (a : W64) : (g.goTo b a).yielded = g.yielded := by cases b <;> rfl
@[simp] theorem setSlot_age (b : Bool) (x : Slot) : (g.setSlot b x).age = g.age := by cases b <;> rfl
@[simp] theorem goTo_age (b : Bool) (a : W64) : (g.goTo b a).age = g.age := by cases b <;> rfl
@[simp] theorem setSlot_lastB (b : Bool) (x : Slot) : (g.setSlot b x).lastB = g.lastB := by cases b <;> rfl
@[simp] theorem goTo_lastB (b : Bool) (a : W64) : (g.goTo b a).lastB = g.lastB := by cases b <;> rfl
@[simp] theorem setSlot_readyAt (b : Bool) (x : Slot) : (g.setSlot b x).readyAt = g.readyAt := by cases b <;> rfl
@[simp] theorem goTo_readyAt (b : Bool) (a : W64) : (g.goTo b a).readyAt = g.readyAt := by cases b <;> rfl
@[simp] theorem setSlot_issued (b : Bool) (x : Slot) : (g.setSlot b x).issued = g.issued := by cases b <;> rfl
@[simp] theorem goTo_issued (b : Bool) (a : W64) : (g.goTo b a).issued = g.issued := by cases b <;> rfl
@[simp] theorem setSlot_slept (b : Bool) (x : Slot) : (g.setSlot b x).slept = g.slept := by cases b <;> rfl
@[simp] theorem goTo_slept (b : Bool) (a : W64) : (g.goTo b a).slept = g.slept := by cases b <;> rfl
@[simp] theorem setSlot_futures (b : Bool) (x : Slot) : (g.setSlot b x).futures = g.futures := by cases b <;> rfl
@[simp] theorem goTo_futures (b : Bool) (a : W64) : (g.goTo b a).futures = g.futures := by cases b <;> rfl
@[simp] theorem setSlot_holds (b : Bool) (x : Slot) : (g.setSlot b x).holds = g.holds := by cases b <;> rfl
@[simp] theorem goTo_holds (b : Bool) (a : W64) : (g.goTo b a).holds = g.holds := by cases b <;> rfl
@[simp] theorem setSlot_arrived (b : Bool) (x : Slot) : (g.setSlot b x).arrived = g.arrived := by cases b <;> rfl
@[simp] theorem goTo_arrived (b : Bool) (a : W64) : (g.goTo b a).arrived = g.arrived := by cases b <;> rfl
@[simp] theorem setSlot_chain (b : Bool) (x : Slot) : (g.setSlot b x).chain = g.chain := by cases b <;> rfl
@[simp] theorem goTo_chain (b : Bool) (a : W64) : (g.goTo b a).chain = g.chain := by cases b <;> rfl
@[simp] theorem setSlot_mx (b : Bool) (x : Slot) : (g.setSlot b x).mx = g.mx := by cases b <;> rfl
@[simp] theorem goTo_mx (b : Bool) (a : W64) : (g.goTo b a).mx = g.mx := by cases b <;> rfl
@[simp] theorem setSlot_due (b : Bool) (x : Slot) : (g.setSlot b x).due = g.due := by cases b <;> rfl
@[simp] theorem goTo_due (b : Bool) (a : W64) : (g.goTo b a).due = g.due := by cases b <;> rfl
@[simp] theorem setSlot_released (b : Bool) (x : Slot) : (g.setSlot b x).released = g.released := by cases b <;> rfl
@[simp] theorem goTo_released (b : Bool) (a : W64) : (g.goTo b a).released = g.released := by cases b <;> rfl
@[simp] theorem setSlot_launched (b : Bool) (x : Slot) : (g.setSlot b x).launched = g.launched := by cases b <;> rfl
@[simp] theorem goTo_launched (b : Bool) (a : W64) : (g.goTo b a).launched = g.launched := by cases b <;> rfl
@[simp] theorem setSlot_launchRec (b : Bool) (x : Slot) : (g.setSlot b x).launchRec = g.launchRec := by cases b <;> rfl
@[simp] theorem goTo_launchRec (b : Bool) (a : W64) : (g.goTo b a).launchRec = g.launchRec := by cases b <;> rfl
@[simp] theorem setSlot_stopped (b : Bool) (x : Slot) : (g.setSlot b x).stopped = g.stopped := by cases b <;> rfl
@[simp] theorem goTo_stopped (b : Bool) (a : W64) : (g.goTo b a).stopped = g.stopped := by cases b <;> rfl
@[simp] theorem setSlot_preempt (b : Bool) (x : Slot) : (g.setSlot b x).preempt = g.preempt := by cases b <;> rfl
@[simp] theorem goTo_preempt (b : Bool) (a : W64) : (g.goTo b a).preempt = g.preempt := by cases b <;> rfl
@[simp] theorem setSlot_refs (b : Bool) (x : Slot) : (g.setSlot b x).refs = g.refs := by cases b <;> rfl
@[simp] theorem goTo_refs (b : Bool) (a : W64) : (g.goTo b a).refs = g.refs := by cases b <;> rfl
@[simp] theorem setSlot_loops (b : Bool) (x : Slot) : (g.setSlot b x).loops = g.loops := by cases b <;> rfl
@[simp] theorem goTo_loops (b : Bool) (a : W64) : (g.goTo b a).loops = g.loops := by cases b <;> rfl
@[simp] theorem setSlot_failed (b : Bool) (x : Slot) : (g.setSlot b x).failed = g.failed := by cases b <;> rfl
@[simp] theorem goTo_failed (b : Bool) (a : W64) : (g.goTo b a).failed = g.failed := by cases b <;> rfl
@[simp] theorem setScalar_width (m : Nat) (v : W64) : (g.setScalar m v).width = g.width := rfl
@[simp] theorem setPred_width (j : Nat) (m : Mask) : (g.setPred j m).width = g.width := by unfold Group.setPred; split <;> rfl
@[simp] theorem setScalar_a (m : Nat) (v : W64) : (g.setScalar m v).a = g.a := rfl
@[simp] theorem setPred_a (j : Nat) (m : Mask) : (g.setPred j m).a = g.a := by unfold Group.setPred; split <;> rfl
@[simp] theorem setScalar_b (m : Nat) (v : W64) : (g.setScalar m v).b = g.b := rfl
@[simp] theorem setPred_b (j : Nat) (m : Mask) : (g.setPred j m).b = g.b := by unfold Group.setPred; split <;> rfl
@[simp] theorem setScalar_sp (m : Nat) (v : W64) : (g.setScalar m v).sp = g.sp := rfl
@[simp] theorem setPred_sp (j : Nat) (m : Mask) : (g.setPred j m).sp = g.sp := by unfold Group.setPred; split <;> rfl
@[simp] theorem setScalar_units (m : Nat) (v : W64) : (g.setScalar m v).units = g.units := rfl
@[simp] theorem setPred_units (j : Nat) (m : Mask) : (g.setPred j m).units = g.units := by unfold Group.setPred; split <;> rfl
@[simp] theorem setScalar_gens (m : Nat) (v : W64) : (g.setScalar m v).gens = g.gens := rfl
@[simp] theorem setPred_gens (j : Nat) (m : Mask) : (g.setPred j m).gens = g.gens := by unfold Group.setPred; split <;> rfl
@[simp] theorem setScalar_seed (m : Nat) (v : W64) : (g.setScalar m v).seed = g.seed := rfl
@[simp] theorem setPred_seed (j : Nat) (m : Mask) : (g.setPred j m).seed = g.seed := by unfold Group.setPred; split <;> rfl
@[simp] theorem setScalar_trapPc (m : Nat) (v : W64) : (g.setScalar m v).trapPc = g.trapPc := rfl
@[simp] theorem setPred_trapPc (j : Nat) (m : Mask) : (g.setPred j m).trapPc = g.trapPc := by unfold Group.setPred; split <;> rfl
@[simp] theorem setScalar_trapAddr (m : Nat) (v : W64) : (g.setScalar m v).trapAddr = g.trapAddr := rfl
@[simp] theorem setPred_trapAddr (j : Nat) (m : Mask) : (g.setPred j m).trapAddr = g.trapAddr := by unfold Group.setPred; split <;> rfl
@[simp] theorem setScalar_trapCause (m : Nat) (v : W64) : (g.setScalar m v).trapCause = g.trapCause := rfl
@[simp] theorem setPred_trapCause (j : Nat) (m : Mask) : (g.setPred j m).trapCause = g.trapCause := by unfold Group.setPred; split <;> rfl
@[simp] theorem setScalar_rowprog (m : Nat) (v : W64) : (g.setScalar m v).rowprog = g.rowprog := rfl
@[simp] theorem setPred_rowprog (j : Nat) (m : Mask) : (g.setPred j m).rowprog = g.rowprog := by unfold Group.setPred; split <;> rfl
@[simp] theorem setScalar_wakewhy (m : Nat) (v : W64) : (g.setScalar m v).wakewhy = g.wakewhy := rfl
@[simp] theorem setPred_wakewhy (j : Nat) (m : Mask) : (g.setPred j m).wakewhy = g.wakewhy := by unfold Group.setPred; split <;> rfl
@[simp] theorem setScalar_handler (m : Nat) (v : W64) : (g.setScalar m v).handler = g.handler := rfl
@[simp] theorem setPred_handler (j : Nat) (m : Mask) : (g.setPred j m).handler = g.handler := by unfold Group.setPred; split <;> rfl
@[simp] theorem setScalar_ended (m : Nat) (v : W64) : (g.setScalar m v).ended = g.ended := rfl
@[simp] theorem setPred_ended (j : Nat) (m : Mask) : (g.setPred j m).ended = g.ended := by unfold Group.setPred; split <;> rfl
@[simp] theorem setScalar_regionOpen (m : Nat) (v : W64) : (g.setScalar m v).regionOpen = g.regionOpen := rfl
@[simp] theorem setPred_regionOpen (j : Nat) (m : Mask) : (g.setPred j m).regionOpen = g.regionOpen := by unfold Group.setPred; split <;> rfl
@[simp] theorem setScalar_pend (m : Nat) (v : W64) : (g.setScalar m v).pend = g.pend := rfl
@[simp] theorem setPred_pend (j : Nat) (m : Mask) : (g.setPred j m).pend = g.pend := by unfold Group.setPred; split <;> rfl
@[simp] theorem setScalar_nextId (m : Nat) (v : W64) : (g.setScalar m v).nextId = g.nextId := rfl
@[simp] theorem setPred_nextId (j : Nat) (m : Mask) : (g.setPred j m).nextId = g.nextId := by unfold Group.setPred; split <;> rfl
@[simp] theorem setScalar_replay (m : Nat) (v : W64) : (g.setScalar m v).replay = g.replay := rfl
@[simp] theorem setPred_replay (j : Nat) (m : Mask) : (g.setPred j m).replay = g.replay := by unfold Group.setPred; split <;> rfl
@[simp] theorem setScalar_masks (m : Nat) (v : W64) : (g.setScalar m v).masks = g.masks := rfl
@[simp] theorem setPred_masks (j : Nat) (m : Mask) : (g.setPred j m).masks = g.masks := by unfold Group.setPred; split <;> rfl
@[simp] theorem setScalar_trapping (m : Nat) (v : W64) : (g.setScalar m v).trapping = g.trapping := rfl
@[simp] theorem setPred_trapping (j : Nat) (m : Mask) : (g.setPred j m).trapping = g.trapping := by unfold Group.setPred; split <;> rfl
@[simp] theorem setScalar_asleep (m : Nat) (v : W64) : (g.setScalar m v).asleep = g.asleep := rfl
@[simp] theorem setPred_asleep (j : Nat) (m : Mask) : (g.setPred j m).asleep = g.asleep := by unfold Group.setPred; split <;> rfl
@[simp] theorem setScalar_yieldTill (m : Nat) (v : W64) : (g.setScalar m v).yieldTill = g.yieldTill := rfl
@[simp] theorem setPred_yieldTill (j : Nat) (m : Mask) : (g.setPred j m).yieldTill = g.yieldTill := by unfold Group.setPred; split <;> rfl
@[simp] theorem setScalar_yielded (m : Nat) (v : W64) : (g.setScalar m v).yielded = g.yielded := rfl
@[simp] theorem setPred_yielded (j : Nat) (m : Mask) : (g.setPred j m).yielded = g.yielded := by unfold Group.setPred; split <;> rfl
@[simp] theorem setScalar_age (m : Nat) (v : W64) : (g.setScalar m v).age = g.age := rfl
@[simp] theorem setPred_age (j : Nat) (m : Mask) : (g.setPred j m).age = g.age := by unfold Group.setPred; split <;> rfl
@[simp] theorem setScalar_lastB (m : Nat) (v : W64) : (g.setScalar m v).lastB = g.lastB := rfl
@[simp] theorem setPred_lastB (j : Nat) (m : Mask) : (g.setPred j m).lastB = g.lastB := by unfold Group.setPred; split <;> rfl
@[simp] theorem setScalar_readyAt (m : Nat) (v : W64) : (g.setScalar m v).readyAt = g.readyAt := rfl
@[simp] theorem setPred_readyAt (j : Nat) (m : Mask) : (g.setPred j m).readyAt = g.readyAt := by unfold Group.setPred; split <;> rfl
@[simp] theorem setScalar_issued (m : Nat) (v : W64) : (g.setScalar m v).issued = g.issued := rfl
@[simp] theorem setPred_issued (j : Nat) (m : Mask) : (g.setPred j m).issued = g.issued := by unfold Group.setPred; split <;> rfl
@[simp] theorem setScalar_slept (m : Nat) (v : W64) : (g.setScalar m v).slept = g.slept := rfl
@[simp] theorem setPred_slept (j : Nat) (m : Mask) : (g.setPred j m).slept = g.slept := by unfold Group.setPred; split <;> rfl
@[simp] theorem setScalar_futures (m : Nat) (v : W64) : (g.setScalar m v).futures = g.futures := rfl
@[simp] theorem setPred_futures (j : Nat) (m : Mask) : (g.setPred j m).futures = g.futures := by unfold Group.setPred; split <;> rfl
@[simp] theorem setScalar_holds (m : Nat) (v : W64) : (g.setScalar m v).holds = g.holds := rfl
@[simp] theorem setPred_holds (j : Nat) (m : Mask) : (g.setPred j m).holds = g.holds := by unfold Group.setPred; split <;> rfl
@[simp] theorem setScalar_arrived (m : Nat) (v : W64) : (g.setScalar m v).arrived = g.arrived := rfl
@[simp] theorem setPred_arrived (j : Nat) (m : Mask) : (g.setPred j m).arrived = g.arrived := by unfold Group.setPred; split <;> rfl
@[simp] theorem setScalar_chain (m : Nat) (v : W64) : (g.setScalar m v).chain = g.chain := rfl
@[simp] theorem setPred_chain (j : Nat) (m : Mask) : (g.setPred j m).chain = g.chain := by unfold Group.setPred; split <;> rfl
@[simp] theorem setScalar_mx (m : Nat) (v : W64) : (g.setScalar m v).mx = g.mx := rfl
@[simp] theorem setPred_mx (j : Nat) (m : Mask) : (g.setPred j m).mx = g.mx := by unfold Group.setPred; split <;> rfl
@[simp] theorem setScalar_kept (m : Nat) (v : W64) : (g.setScalar m v).kept = g.kept := rfl
@[simp] theorem setPred_kept (j : Nat) (m : Mask) : (g.setPred j m).kept = g.kept := by unfold Group.setPred; split <;> rfl
@[simp] theorem setScalar_swept (m : Nat) (v : W64) : (g.setScalar m v).swept = g.swept := rfl
@[simp] theorem setPred_swept (j : Nat) (m : Mask) : (g.setPred j m).swept = g.swept := by unfold Group.setPred; split <;> rfl
@[simp] theorem setScalar_due (m : Nat) (v : W64) : (g.setScalar m v).due = g.due := rfl
@[simp] theorem setPred_due (j : Nat) (m : Mask) : (g.setPred j m).due = g.due := by unfold Group.setPred; split <;> rfl
@[simp] theorem setScalar_released (m : Nat) (v : W64) : (g.setScalar m v).released = g.released := rfl
@[simp] theorem setPred_released (j : Nat) (m : Mask) : (g.setPred j m).released = g.released := by unfold Group.setPred; split <;> rfl
@[simp] theorem setScalar_launched (m : Nat) (v : W64) : (g.setScalar m v).launched = g.launched := rfl
@[simp] theorem setPred_launched (j : Nat) (m : Mask) : (g.setPred j m).launched = g.launched := by unfold Group.setPred; split <;> rfl
@[simp] theorem setScalar_launchRec (m : Nat) (v : W64) : (g.setScalar m v).launchRec = g.launchRec := rfl
@[simp] theorem setPred_launchRec (j : Nat) (m : Mask) : (g.setPred j m).launchRec = g.launchRec := by unfold Group.setPred; split <;> rfl
@[simp] theorem setScalar_stopped (m : Nat) (v : W64) : (g.setScalar m v).stopped = g.stopped := rfl
@[simp] theorem setPred_stopped (j : Nat) (m : Mask) : (g.setPred j m).stopped = g.stopped := by unfold Group.setPred; split <;> rfl
@[simp] theorem setScalar_preempt (m : Nat) (v : W64) : (g.setScalar m v).preempt = g.preempt := rfl
@[simp] theorem setPred_preempt (j : Nat) (m : Mask) : (g.setPred j m).preempt = g.preempt := by unfold Group.setPred; split <;> rfl
@[simp] theorem setScalar_refs (m : Nat) (v : W64) : (g.setScalar m v).refs = g.refs := rfl
@[simp] theorem setPred_refs (j : Nat) (m : Mask) : (g.setPred j m).refs = g.refs := by unfold Group.setPred; split <;> rfl
@[simp] theorem setScalar_loops (m : Nat) (v : W64) : (g.setScalar m v).loops = g.loops := rfl
@[simp] theorem setPred_loops (j : Nat) (m : Mask) : (g.setPred j m).loops = g.loops := by unfold Group.setPred; split <;> rfl
@[simp] theorem setScalar_failed (m : Nat) (v : W64) : (g.setScalar m v).failed = g.failed := rfl
@[simp] theorem setPred_failed (j : Nat) (m : Mask) : (g.setPred j m).failed = g.failed := by unfold Group.setPred; split <;> rfl
@[simp] theorem setSlot_slot (b : Bool) (x : Slot) : (g.setSlot b x).slot b = x := by cases b <;> rfl
@[simp] theorem setSlot_slot_other (b : Bool) (x : Slot) : (g.setSlot b x).slot (!b) = g.slot (!b) := by cases b <;> rfl
@[simp] theorem goTo_pc (b : Bool) (a : W64) : ((g.goTo b a).slot b).pc = a := by cases b <;> rfl
@[simp] theorem goTo_mask (b : Bool) (a : W64) : ((g.goTo b a).slot b).mask = (g.slot b).mask := by cases b <;> rfl
@[simp] theorem setScalar_slot (m : Nat) (v : W64) (b : Bool) : (g.setScalar m v).slot b = g.slot b := rfl

@[simp] theorem setSlot_kept (b : Bool) (x : Slot) : (g.setSlot b x).kept = g.kept := by cases b <;> rfl
@[simp] theorem goTo_kept (b : Bool) (a : W64) : (g.goTo b a).kept = g.kept := by cases b <;> rfl
@[simp] theorem setSlot_swept (b : Bool) (x : Slot) : (g.setSlot b x).swept = g.swept := by cases b <;> rfl
@[simp] theorem goTo_swept (b : Bool) (a : W64) : (g.goTo b a).swept = g.swept := by cases b <;> rfl
@[simp] theorem setSlot_b_a (x : Slot) : (g.setSlot true x).a = g.a := rfl
@[simp] theorem setSlot_a_b (x : Slot) : (g.setSlot false x).b = g.b := rfl

end Sys2Proof.Machine
end

