-- ==== Sys2Proof/Laws/Control.lean ====
section
/-! SUPPORT. Laws of control: traps, the divergence stack, tile replies, Beam charges, and what precedes a word's effect. -/

namespace Sys2Proof.Machine

variable {s : State} {i : Instr} {g g' : Group} {h : Hdr} {o : MWord}

theorem run_apply (m : Op Unit) (s : State) : m s = m.run s := rfl

/-! Words that wait, take traps or branch -/

theorem runOp_throw {m : Op Unit} {s t : State} {x : TrapInfo} (h : m.run s = .error (.trap x) t) : runOp m s = runOp (throw (.trap x)) t := by
  unfold runOp; rw [run_apply m s, h]; rfl

theorem setPc_after (g' : Group) (a : W64) :
    (setPc a).run (s.after i g g') = .ok () (s.after i g (g'.goTo s.cur.slotB a)) := by
  unfold setPc
  simp only [bind_run, get_run]
  rw [modSelf_after]
  simp [Group.goTo, State.after, State.setGroup]

theorem modGroup_same {gk : Nat} (f : Group → Group) : (modGroup gk f).run (s.setGroup gk g) = .ok () (s.setGroup gk (f g)) := by
  rw [modGroup_run (g := g) f (by simp)]; simp [State.setGroup]

theorem modGroup_S {gk : Nat} (f : Group → Group) (hg : tlook gk s.groups = some g) : (modGroup gk f).run s = .ok () (s.setGroup gk (f g)) := by
  rw [modGroup_run f hg]; rfl

@[simp] theorem unlatched_groups (gk : Nat) : (s.unlatched gk).groups = s.groups := rfl
@[simp] theorem unlatched_blocks (gk : Nat) : (s.unlatched gk).blocks = s.blocks := rfl
@[simp] theorem unlatched_cycle (gk : Nat) : (s.unlatched gk).cycle = s.cycle := rfl
@[simp] theorem unlatched_contribs (gk : Nat) : (s.unlatched gk).contribs = s.contribs := rfl
@[simp] theorem unlatched_gridOf (gk q : Nat) : (s.unlatched gk).gridOf q = s.gridOf q := rfl
@[simp] theorem setGroup_gridOf (gk q : Nat) : (s.setGroup gk g).gridOf q = s.gridOf q := rfl

theorem dropLatches_run (gk : Nat) : (dropLatches gk).run s = .ok () (s.unlatched gk) := rfl

/-- A trap uses up the answers of FAIL that led to it. -/
theorem noteTrap_run {gk : Nat} {t : TrapInfo} (hg : tlook gk s.groups = some g) (h8 : t.cause ≠ 8) :
    (noteTrap gk t).run s = .ok () (if t.cause = 4 then s.setGroup gk (g.excused t) else s) := by
  unfold noteTrap
  by_cases h : t.cause = 4
  · simp [h, modGroup_S _ hg, Group.excused]
  · simp [h, h8]

/-- A group with no chain open enters its handler as soon as nothing of it is outstanding. -/
theorem tryEnter_run {b : Block} {x : Grid} {entry : W64} {gk : Nat} {t : TrapInfo} {list : List Recorded}
    (hg : tlook gk s.groups = some g) (hb : tlook (blkOfGrp gk) s.blocks = some b) (hx : s.gridOf b.grid = some x)
    (he : trapEntry? x = some entry) (ht : g.trapping = some (t, list)) (hq : quiet s gk g = true) (hc : g.chain = none) :
    (tryEnter gk).run s = (enterHandler gk entry t list).run s := by
  have hch : (trapChain gk).run s = .ok () s := by unfold trapChain; simp [hg, hc]
  unfold tryEnter
  simp only [bind_run, get_run, hg, hb, Option.bind_some, hx, he, ht, hq, if_true, hch]

/-- Taking a trap: the handler is entered at once where nothing else of the group is under way. -/
theorem take_run {b : Block} {x : Grid} {t : TrapInfo} {entry : W64} {gk : Nat} {first : Recorded} {rest : List Recorded}
    (hgk : gk = s.cur.gk) (hg : tlook s.cur.gk s.groups = some g) (hb : tlook (blkOfGrp s.cur.gk) s.blocks = some b)
    (hx : s.gridOf b.grid = some x) (h8 : t.cause ≠ 8) (r : TrapReady s g entry) :
    (takeTrapOf gk t first rest).run s =
      .ok () ((s.unlatched s.cur.gk).setGroup s.cur.gk ((g.excused t).handling s.cycle entry t (first :: rest))) := by
  subst hgk
  obtain ⟨b', x', hb', hx', he⟩ := r.header
  rw [hb] at hb'; cases hb'; rw [hx] at hx'; cases hx'
  have core : ∀ (u : State) (G : Group), tlook s.cur.gk u.groups = some G → u.blocks = s.blocks → u.cycle = s.cycle →
      u.contribs = s.contribs → (∀ q, u.gridOf q = s.gridOf q) → G.handler = none → G.pend = [] → G.asleep = none → G.chain = none →
      ((do
        let u ← get
        let g ← groupAt s.cur.gk
        let b ← blockAt (blkOfGrp s.cur.gk)
        let grid ← need (u.gridOf b.grid)
        if g.handler.isSome then abortGrid b.grid 0x21
        else match trapEntry? grid with
          | none => if t.cause = 0x11 then pure () else abortGrid b.grid t.cause
          | some _ =>
            dropLatches s.cur.gk
            modGroup s.cur.gk fun g => { g with
              trapping := some (t, first :: rest)
              replay := []
              asleep := g.asleep.filter fun z => z.on.out }
            tryEnter s.cur.gk : Op Unit)).run u =
        .ok () ((u.unlatched s.cur.gk).setGroup s.cur.gk (G.handling s.cycle entry t (first :: rest))) := by
    intro u G h1 h2 h3 h4 h5 h6 h7 h8 h9
    simp only [bind_run, get_run, groupAt_run, blockAt_run, h1, h2, hb, h5, hx, need_some_run, h6, Option.isSome_none,
      Bool.false_eq_true, if_false, he, dropLatches_run]
    rw [modGroup_S _ (by simpa using h1)]
    simp only []
    rw [tryEnter_run (g := { G with trapping := some (t, first :: rest), replay := [], asleep := G.asleep.filter fun z => z.on.out })
      (setGroup_same ..) (by simpa [h2] using hb) (by simpa [h5] using hx) he rfl
      (by simp [quiet, h7, h8, h4, r.sent]) h9]
    unfold enterHandler
    have ha : G.asleep.filter (fun z => z.on.out) = G.asleep := by rw [h8]; rfl
    simp only [bind_run, get_run, modGroup_same, setGroup_cycle, unlatched_cycle, h3, ha]
    rfl
  have hn := noteTrap_run hg h8
  unfold takeTrapOf
  rw [bind_run, hn]
  by_cases h : t.cause = 4
  · rw [if_pos h]
    refine (core _ _ (setGroup_same ..) rfl rfl rfl (fun _ => rfl) ?_ ?_ ?_ ?_).trans ?_
    · simp [Group.excused, h, r.normal]
    · simp [Group.excused, h, r.quiet]
    · simp [Group.excused, h, r.awake]
    · simp [Group.excused, h, r.chain]
    · congr 1
      simp [State.setGroup, State.unlatched, State.core]
  · rw [if_neg h]
    refine (core s g hg rfl rfl rfl (fun _ => rfl) r.normal r.quiet r.awake r.chain).trans ?_
    simp [Group.excused, h]

/-! The divergence stack -/

theorem setEntry_after (g' : Group) {j : Nat} (hj : j < 32) (e : DivEntry) :
   (setEntry s.cur.gk j e).run (s.after i g g') = .ok () (s.after i g (g'.putEntry j e)) := by
  unfold setEntry
  rw [ite_run, if_pos hj, modGroup_run (g := g') _ (by simp [State.after, State.setGroup])]
  simp [State.after, State.setGroup, Group.putEntry]

theorem setEntry_begun (w : Issues s i g h) {j : Nat} (hj : j < 32) (e : DivEntry) :
   (setEntry s.cur.gk j e).run (s.begun i g) = .ok () (s.after i g ((g.begun i).putEntry j e)) := by
  unfold setEntry
  rw [ite_run, if_pos hj, modGroup_run (g := g.begun i) _ (by simpa using begun_group w.group)]
  simp [State.after, State.setGroup, Group.putEntry]

theorem getEntry_begun (w : Issues s i g h) {j : Nat} (hj : j < 32) :
   (getEntry s.cur.gk j).run (s.begun i g) = .ok (g.entry j) (s.begun i g) := by
  unfold getEntry
  rw [ite_run, if_pos hj]
  simp only [bind_run, groupAt_run, begun_group w.group, need_some_run, pure_run]
  simp only [Group.entry, begun_ctl]

theorem touch_small (a : Nat) {j : Nat} (hj : j ≤ 32) (t : State) : (touchEntries a j).run t = .ok () t := by
  unfold touchEntries
  rw [ite_run, if_neg (by omega)]; rfl

theorem divide_two (w : Issues s i g h) (he : endsRegion i = false) (j a0 a1 : W64) (m0 m1 : Mask) (hf : (g.slot (!s.cur.slotB)).mask = 0) (hp : g.sp < 32) :
  (divide j [(a0, m0), (a1, m1)]).run (s.begun i g) = .ok () (s.after i g
    ({ (g.putEntry g.sp ⟨j.toNat, (g.slot s.cur.slotB).mask, (g.slot s.cur.slotB).join, 2, false⟩).setSlot s.cur.slotB ⟨a0, m0, some g.sp⟩ with sp := g.sp + 1 }.setSlot
        (!s.cur.slotB) ⟨a1, m1, some g.sp⟩)) := by
  have hg : g.begun i = g := group_begun_plain he
  unfold divide
  simp only [bind_run, get_run, self_begun w, hg, begun_slotB, ite_run, begun_gk]
  rw [if_neg (by simp [hf]; omega)]
  rw [touch_small _ (by simp [hf]; omega)]
  simp only []
  rw [setEntry_begun w hp]
  simp only [hf, if_true, List.reverse_nil, List.zipIdx_nil, forM_nil_run, List.forM_eq_forM, modSelf_after, hg]
  congr 2

theorem pathsOf_two (a b : W64) (m n : Mask) : pathsOf [(a, m), (b, n)] =
   (if m = 0 then (if n = 0 then [] else [(b, n)]) else if n = 0 then [(a, m)] else
     if b = a then [(a, n ||| m)] else if b.toNat < a.toNat then [(b, n), (a, m)] else [(a, m), (b, n)]) := by
  simp only [pathsOf, List.foldl]
  by_cases hm : m = 0 <;> by_cases hn : n = 0 <;> simp [hm, hn, addPath]
  have hm' : ¬m = 0#128 := hm
  have hn' : ¬n = 0#128 := hn
  by_cases hba : b = a
  · simp [hba, hm', hn', addPath, BitVec.or_comm]
  · by_cases hlt : b.toNat < a.toNat <;> simp [hba, hlt, hm', hn', addPath]

/-! Data of lanes and of tile words -/

theorem putData_group {gk k} (size sx d r) (hg : tlook k s.groups = some g) : ∃ g', tlook k (s.putData gk size sx d r).groups = some g' := by
  unfold State.putData
  split
  · exact ⟨g, hg⟩
  · cases d with
    | const j => exact ⟨g, hg⟩
    | lane v =>
      refine ⟨g, ?_⟩
      simp only []
      generalize (if sx = true then wrap 32 (sext r.2 (8 * size)) else r.2) = y
      generalize List.range (if size ≤ 4 then 1 else size / 4) = is
      rename_i gg hgg
      have : ∀ (is : List Nat) (s : State), (is.foldl (fun t i => t.putElem gk gg (v.toNat + i) r.1 (y / 2 ^ (32 * i))) s).groups = s.groups := by
        intro is; induction is with
        | nil => intro s; rfl
        | cons a is ih => intro s; rw [List.foldl_cons, ih]; rfl
      rw [this]; exact hg
    | sreg m =>
      simp only [State.setGroup]
      by_cases hk : k = gk
      · subst hk; exact ⟨_, tlook_tset_same _ _ _⟩
      · rw [tlook_tset_other hk]; exact ⟨g, hg⟩

theorem writeDatas_run {gk : Nat} (size : Nat) (sx : Bool) (d : Reg) (rs : List (Nat × Nat)) (hg : tlook gk s.groups = some g) :
    (forM rs fun r => writeData gk size sx r.1 r.2 d : Op PUnit).run s = .ok () (rs.foldl (fun t r => t.putData gk size sx d r) s) := by
  induction rs generalizing s g with
  | nil => rfl
  | cons r rs ih =>
    rw [forM_cons_run, writeData_run _ _ _ _ _ hg]
    obtain ⟨g', h'⟩ := putData_group (gk := gk) size sx d (r.1, r.2) hg
    exact ih h'

theorem localCtx_fix {gk c t} (hc : (localCtx gk).run s = .ok c t) : t = s ∧ c.gk = gk ∧ ∃ g, tlook gk s.groups = some g := by
  unfold localCtx at hc
  simp only [bind_run, groupAt_run] at hc
  cases hg : tlook gk s.groups <;> simp [hg] at hc
  cases hb : tlook (blkOfGrp gk) s.blocks <;> simp [hb] at hc
  rename_i b
  cases hq : s.gridOf b.grid <;> simp [hq] at hc
  rename_i q
  cases hh : q.hdr <;> simp [hh] at hc
  obtain ⟨rfl, rfl⟩ := hc
  exact ⟨rfl, rfl, _, rfl⟩

theorem awaitAccesses_run (hg : tlook s.cur.gk s.groups = some g) (hq : g.accessing = false) : awaitAccesses.run s = .ok () s := by
  unfold awaitAccesses; simp [self_run hg, hq]

/-- A release's raise of the clocks changes clocks alone. -/
theorem releaseCore_run (c : Nat) (sc : Scope) (s : State) :
    ∃ cs qs, (releaseCore c sc).run s = .ok () { s with cores := cs, quads := qs } := by
  unfold releaseCore raiseLc raiseQc
  cases sc <;> exact ⟨_, _, rfl⟩

theorem tileStart_run {u : State} (w : HandleGoes s i g h o) (hb : s.tileBegun i g o u) :
    (tileStart i o).run s = .ok (baseVal u u.cur.gk (g.begun i) 0 o.base) u ∧ u.groups = (s.begun i g).groups ∧ u.cur = (s.begun i g).cur := by
  have hs := begun_group (i := i) w.issues.group
  unfold tileStart
  simp only [bind_run, legal_run w.issues, activeMask_begun w.issues, ite_run, if_neg w.some', get_run, pure_run]
  unfold State.tileBegun at hb
  split at hb
  · rename_i hr
    obtain ⟨cs, qs, hc⟩ := releaseCore_run (coreOfGrp s.cur.gk) .quad (s.begun i g)
    unfold State.leaves reply at hb
    rw [hc] at hb
    simp only [Option.some.injEq, Prod.mk.injEq, true_and] at hb
    subst hb
    have ha : awaitAccesses.run (s.begun i g) = .ok () (s.begun i g) :=
      awaitAccesses_run (g := g.begun i) (by simpa using hs) (by unfold Group.accessing; rw [begun_pend]; exact w.quiet hr)
    simp only [hr, if_true, ha, begun_gk, hc]
    rw [self_run (g := g.begun i) (by simpa using hs)]
    simp
  · rename_i hr
    subst hb
    simp only [hr]
    rw [if_neg (by simp), self_run (g := g.begun i) (by simpa using hs)]
    simp

theorem tileReply_run {g' : Group} {t : State} (x : Nat) (hg : tlook t.cur.gk t.groups = some g') :
  (tileReply o x).run t = .ok () (t.setGroup t.cur.gk (g'.told o x)) := by
  unfold tileReply; rw [modSelf_run _ hg]; rfl

/-! Beam words -/

theorem charge_run {k : Call} (hk : (s.lantern s.cur.lan).call = some k) (he : k.ended = 0) (n : Nat) (hc : k.charge + n ≤ k.allow) :
   (charge n).run s = .ok { k with charge := k.charge + n } s := by
  unfold charge callNow
  simp only [bind_run, get_run, hk, need_some_run, require_run, he, decide_true, if_true, pure_run, ite_run]
  rw [if_neg (by omega)]

theorem charge_over {k : Call} (hk : (s.lantern s.cur.lan).call = some k) (he : k.ended = 0) (n : Nat) (hc : k.allow < k.charge + n) :
   (charge n).run s = .error .done { s with lanterns := tput {} s.lanterns s.cur.lan { s.lantern s.cur.lan with call := some { k with ended := 2 } } } := by
  unfold charge callNow putCall
  simp only [bind_run, get_run, hk, need_some_run, require_run, he, decide_true, if_true, pure_run, ite_run]
  rw [if_pos hc]; rfl

/-! The issue of a word -/

theorem issueThen_reply {m : Op Instr} {s t : State} {i : Instr} (h : reply m s = some (i, t)) (run) : issueThen run m s = run i t := by
  unfold reply at h; unfold issueThen
  rw [show m s = m.run s from rfl]
  cases hm : m.run s with
  | ok a u => rw [hm] at h; simp only [Option.some.injEq, Prod.mk.injEq] at h; obtain ⟨rfl, rfl⟩ := h; rfl
  | error e u => rw [hm] at h; cases h

theorem needFeature_run {s : State} {b : Block} {k : Nat} (hb : tlook (blkOfGrp s.cur.gk) s.blocks = some b)
  (hf : bitOf (s.part (s.partOf (tenantOf b.grid))).feat k = false) : (needFeature k).run s = .ok () s := by
  simp [needFeature, selfTenant, selfBlock, hb, hf]

theorem flushDue_run {s : State} {g : Group} {gk : Nat} (hg : tlook gk s.groups = some g) (hp : gk ∉ s.poison.ctl) (hd : g.due = []) :
    (flushDue gk).run s = .ok () s := by
  simp [flushDue, hg, hp, hd]

theorem tlook_map {f : Nat × Group → Nat × Group} (hf : ∀ e, (f e).1 = e.1) (k : Nat) (t : Tab Group) :
    tlook k (t.map f) = (tlook k t).map fun g => (f (k, g)).2 := by
  induction t with
  | nil => rfl
  | cons e t ih =>
    obtain ⟨j, y⟩ := e
    have hj := hf (j, y)
    rw [List.map_cons]
    cases hfe : f (j, y) with
    | mk j' y' =>
      rw [hfe] at hj; simp only at hj; subst hj
      unfold tlook
      by_cases h1 : k = j'
      · subst h1; simp [hfe]
      · rw [if_neg (Ne.symm h1), if_neg (Ne.symm h1), ih]; split <;> rfl

/-- With nothing outstanding and no future hold a word stalls only on the limit of futures (02_words.md R66). -/
theorem stall_none {gk : Nat} {n : Next} {w : W64} {i : Instr} (hp : g.pend = []) (hh : g.holds = [])
    (he : engineOp w = true → g.futures < 64) : stallOf s gk g n w i = none := by
  unfold stallOf
  simp [hp, hh]
  intro hw _; have := he hw; omega

/-! The end of a step -/

theorem latchKept_safe {s t : State} {x : Nat × Nat} (h : latchKept s t x = true) : latchSafe t x = true := by
  unfold latchKept at h; unfold latchSafe
  cases hs : tlook x.1 s.groups <;> cases ht : tlook x.1 t.groups <;> simp_all

end Sys2Proof.Machine
end

