-- ==== Sys2Proof/Laws/Memory.lean ====
section
/-! SUPPORT. Laws of memory: every operation that writes it keeps the canonical form, a write is read back, and every other byte reads as before. -/

namespace Sys2Proof.Machine

theorem Memory.wf_nil : Memory.wf [] = true := rfl

theorem reset_memory_wf : Memory.wf State.reset.mem = true := rfl

/-- Writing bytes keeps the canonical form. -/
theorem wrBytes_wf (n : Nat) {m : List Host.Cell} (a x : Nat) (h : Memory.wf m = true) :
    Memory.wf (wrBytes m n a x) = true := by
  induction n generalizing m a x with
  | zero => exact h
  | succ n ih => exact ih _ _ (tput_canon _ _ _ h)

/-- A byte outside the written ones reads as before. -/
theorem rdByte_wrBytes_other (n : Nat) {m : List Host.Cell} (a x b : Nat) (h : Memory.wf m = true)
    (hb : b < a ∨ a + n ≤ b) : rdByte (wrBytes m n a x) b = rdByte m b := by
  induction n generalizing m a x with
  | zero => rfl
  | succ n ih =>
    rw [wrBytes, ih _ _ (tput_canon _ _ _ h) (by omega)]
    exact tget_tput_other _ (by omega) _ h

/-- Byte `i` of the written ones is byte `i` of the value. -/
theorem rdByte_wrBytes (n : Nat) {m : List Host.Cell} (a x i : Nat) (h : Memory.wf m = true) (hi : i < n) :
    rdByte (wrBytes m n a x) (a + i) = BitVec.ofNat 8 (x / 256 ^ i) := by
  induction n generalizing m a x i with
  | zero => omega
  | succ n ih =>
    rw [wrBytes]
    cases i with
    | zero =>
      rw [Nat.add_zero, rdByte_wrBytes_other _ _ _ _ (tput_canon _ _ _ h) (by omega)]
      rw [Nat.pow_zero, Nat.div_one]
      exact tget_tput_same memDefault a _ h
    | succ i =>
      have := ih (m := tput memDefault m a (BitVec.ofNat 8 x)) (a + 1) (x / 256) i (tput_canon _ _ _ h) (by omega)
      rw [show a + (i + 1) = a + 1 + i by omega, this, Nat.div_div_eq_div_mul]
      congr 2
      rw [Nat.pow_succ, Nat.mul_comm]

/-- A wide read of what a wide write stored. -/
theorem rdBytes_wrBytes (n : Nat) {m : List Host.Cell} (a x : Nat) (h : Memory.wf m = true) :
    rdBytes (wrBytes m n a x) n a = x % 256 ^ n := by
  have key : ∀ (k : Nat) (m : List Host.Cell) (b y : Nat),
      (∀ i, i < k → rdByte m (b + i) = BitVec.ofNat 8 (y / 256 ^ i)) → rdBytes m k b = y % 256 ^ k := by
    intro k
    induction k with
    | zero => intros; simp [rdBytes, Nat.mod_one]
    | succ k ih =>
      intro m b y hy
      rw [rdBytes, ih m (b + 1) (y / 256)]
      · have := hy 0 (by omega)
        simp at this
        rw [this, Nat.pow_succ, Nat.mul_comm (256 ^ k), Nat.mod_mul]
        simp [BitVec.toNat_ofNat, Nat.mul_comm]
      · intro i hi
        rw [show b + 1 + i = b + (i + 1) by omega, hy (i + 1) (by omega), Nat.div_div_eq_div_mul]
        congr 2
        rw [Nat.pow_succ, Nat.mul_comm]
  exact key n _ a x fun i hi => rdByte_wrBytes n a x i h hi

/-- The operation on the state keeps the form. -/
theorem putMem_wf (n a x : Nat) {s t : State} (h : Memory.wf s.mem = true) (r : putMem n a x s = .ok () t) :
    Memory.wf t.mem = true := by
  cases r
  exact wrBytes_wf n a x h

theorem setUsed_wf {m : List Host.Cell} (p : Nat) (h : Memory.wf m = true) : Memory.wf (setUsed m p) = true :=
  tput_canon _ _ _ h

theorem restoreBytes_wf {m : List Host.Cell} (d : TileDesc) (va pa : Nat) (old : BitVec 512) (h : Memory.wf m = true) :
    Memory.wf (restoreBytes m d va pa old) = true := by
  unfold restoreBytes
  generalize List.range 64 = is
  induction is generalizing m with
  | nil => exact h
  | cons i is ih =>
    rw [List.foldl_cons]
    apply ih
    split
    · exact tput_canon _ _ _ h
    · exact h

theorem memory_filter_wf {m : List Host.Cell} (p : Host.Cell → Bool) (h : Memory.wf m = true) :
    Memory.wf (m.filter p) = true := tcanon_filter _ p h

end Sys2Proof.Machine
end

