-- ==== Sys2Proof/Laws/Total.lean ====
section
/-! SUPPORT. Operations that always end: from every state they answer a value and a next state, and neither stop nor trap. -/

namespace Sys2Proof.Machine

variable {α β : Type}

/-- The operation answers from every state. -/
def Answers (m : Op α) : Prop := ∀ s, ∃ a t, m.run s = .ok a t

theorem answers_pure (a : α) : Answers (pure a : Op α) := fun s => ⟨a, s, rfl⟩
theorem answers_get : Answers (get : Op State) := fun s => ⟨s, s, rfl⟩
theorem answers_modify (f : State → State) : Answers (modify f : Op PUnit) := fun s => ⟨(), f s, rfl⟩
theorem answers_bind {m : Op α} {f : α → Op β} (h : Answers m) (k : ∀ a, Answers (f a)) : Answers (m >>= f) := by
  intro s
  obtain ⟨a, t, h⟩ := h s
  obtain ⟨b, u, k⟩ := k a t
  exact ⟨b, u, by rw [bind_run, h]; exact k⟩
theorem answers_map {m : Op α} (f : α → β) (h : Answers m) : Answers (f <$> m) := by
  intro s
  obtain ⟨a, t, h⟩ := h s
  exact ⟨f a, t, by rw [map_run, h]⟩
theorem answers_forM {f : α → Op PUnit} (h : ∀ a, Answers (f a)) (l : List α) : Answers (l.forM f) := by
  induction l with
  | nil => exact fun s => ⟨(), s, rfl⟩
  | cons a l ih => exact answers_bind (h a) fun _ => ih

/-- What an operation that answers gives a step. -/
theorem answers_runOp {m : Op Unit} (h : Answers m) (s : State) : ∃ t, m.run s = .ok () t ∧ runOp m s = .next t := by
  obtain ⟨a, t, h⟩ := h s
  exact ⟨t, h, runOp_ok h⟩

/-! Parts of the state -/

theorem answers_modCore (c : Nat) (f : Core → Core) : Answers (modCore c f) := answers_modify _
theorem answers_modQuad (c : Nat) (f : Quad → Quad) : Answers (modQuad c f) := answers_modify _
theorem answers_modDie (c : Nat) (f : Die → Die) : Answers (modDie c f) := answers_modify _
theorem answers_modHome (c : Nat) (f : Home → Home) : Answers (modHome c f) := answers_modify _
theorem answers_modFn (c : Nat) (f : Fn → Fn) : Answers (modFn c f) := answers_modify _
theorem answers_modPart (c : Nat) (f : Part → Part) : Answers (modPart c f) := answers_modify _
theorem answers_modQueue (c : Nat) (f : Queue → Queue) : Answers (modQueue c f) := answers_modify _
theorem answers_modLantern (c : Nat) (f : Lantern → Lantern) : Answers (modLantern c f) := answers_modify _
theorem answers_modUse (c : Nat) (f : Usage → Usage) : Answers (modUse c f) := answers_modify _
theorem answers_modDev (f : Dev → Dev) : Answers (modDev f) := answers_modify _
theorem answers_modGrid (c : Nat) (f : Grid → Grid) : Answers (modGrid c f) := answers_modify _
theorem answers_note (x : Noted) : Answers (note x) := answers_modify _
theorem answers_fire (f n : Nat) : Answers (fire f n) := answers_modify _
theorem answers_unstick (p : Nat × Nat × Nat → Bool) : Answers (unstick p) := answers_modify _
theorem answers_putGroup (gk : Nat) (g : Group) : Answers (putGroup gk g) := answers_modify _
theorem answers_putMem (n a x : Nat) : Answers (putMem n a x) := answers_modify _
theorem answers_freeValue : Answers freeValue := fun s => ⟨_, _, freeValue_run s⟩
theorem answers_modGroup (gk : Nat) (f : Group → Group) : Answers (modGroup gk f) := by
  intro s
  cases h : tlook gk s.groups with
  | none => exact ⟨_, _, modGroup_absent f h⟩
  | some g => exact ⟨_, _, modGroup_run f h⟩

/-! Sleeps and traps -/

theorem answers_sendContrib (c : Contrib) : Answers (sendContrib c) :=
  answers_bind answers_get fun _ => answers_bind (answers_modify _) fun _ => answers_pure _
theorem answers_flushChain (gk : Nat) (ch : Chain) : Answers (flushChain gk ch) := answers_bind answers_get fun _ => answers_sendContrib _
theorem answers_trapChain (gk : Nat) : Answers (trapChain gk) := by
  refine answers_bind answers_get fun s => ?_
  split
  · exact answers_pure _
  · refine answers_bind (answers_modGroup _ _) fun _ => ?_
    split
    · exact answers_modGroup _ _
    · exact answers_bind (answers_flushChain _ _) fun _ => answers_pure _
theorem answers_enterHandler (gk : Nat) (entry : W64) (t : TrapInfo) (l : List Recorded) : Answers (enterHandler gk entry t l) :=
  answers_bind answers_get fun _ => answers_modGroup _ _
theorem answers_tryEnter (gk : Nat) : Answers (tryEnter gk) := by
  refine answers_bind answers_get fun s => ?_
  dsimp only
  split
  · split
    · split
      · refine answers_bind (answers_trapChain _) fun _ => answers_bind answers_get fun _ => ?_
        split
        · exact answers_enterHandler _ _ _ _
        · exact answers_pure _
      · exact answers_pure _
    · exact answers_pure _
  · exact answers_pure _
theorem answers_coreWakes (c cause grp : Nat) : Answers (coreWakes c cause grp) := by
  refine answers_bind answers_get fun s => ?_
  split
  · exact answers_bind (answers_modCore _ _) fun _ => answers_modify _
  · exact answers_modCore _ _
theorem answers_wake (gk cause : Nat) : Answers (wake gk cause) := by
  refine answers_bind answers_get fun s => ?_
  repeat first
    | exact answers_pure _
    | exact answers_putGroup _ _
    | exact answers_modGrid _ _
    | exact answers_coreWakes _ _ _
    | exact answers_tryEnter _
    | refine answers_bind ?_ fun _ => ?_
    | refine answers_forM (fun _ => ?_) _
    | dsimp only
    | split
theorem answers_wakeAll (f : Nat → Group → Wait → Bool) : Answers (wakeAll f) := by
  refine answers_bind answers_get fun s => ?_
  repeat first
    | exact answers_pure _
    | exact answers_wake _ _
    | refine answers_bind ?_ fun _ => ?_
    | refine answers_forM (fun _ => ?_) _
    | dsimp only
    | split
theorem answers_homeEvent : Answers homeEvent := answers_bind (answers_wakeAll _) fun _ => answers_unstick _
theorem answers_endWait (gk result cause : Nat) : Answers (endWait gk result cause) := by
  refine answers_bind answers_get fun s => ?_
  split
  · split
    · exact answers_bind (answers_putGroup _ _) fun _ => answers_wake _ _
    · exact answers_pure _
  · exact answers_pure _
theorem answers_lineEvents (p : Nat → Wait → Bool) : Answers (lineEvents p) := by
  refine answers_bind answers_get fun s => ?_
  repeat first
    | exact answers_pure _
    | exact answers_endWait _ _ _
    | refine answers_bind ?_ fun _ => ?_
    | refine answers_forM (fun _ => ?_) _
    | dsimp only
    | split
theorem answers_abortGrid (qk cause : Nat) : Answers (abortGrid qk cause) := by
  refine answers_bind answers_get fun s => ?_
  repeat first
    | exact answers_pure _
    | exact answers_get
    | exact answers_modify _
    | exact answers_wakeAll _
    | exact answers_modGrid _ _
    | refine answers_bind ?_ fun _ => ?_
    | refine answers_forM (fun _ => ?_) _
    | dsimp only
    | split

/-! Clocks -/

theorem answers_raiseLc (c t : Nat) : Answers (raiseLc c t) := answers_bind answers_get fun _ => answers_modCore _ _
theorem answers_raiseQc (q t : Nat) : Answers (raiseQc q t) := answers_bind answers_get fun _ => answers_modQuad _ _
theorem answers_acquireAt (c w : Nat) : Answers (acquireAt c w) := answers_bind (answers_raiseLc _ _) fun _ => answers_raiseQc _ _
theorem answers_acquireCore (c : Nat) : Answers (acquireCore c) := answers_bind answers_get fun _ => answers_acquireAt _ _
theorem answers_releaseCore (c : Nat) (sc : Scope) : Answers (releaseCore c sc) := by
  refine answers_bind answers_get fun s => answers_bind (answers_raiseLc _ _) fun _ => ?_
  split
  · exact answers_bind answers_get fun _ => answers_raiseQc _ _
  · exact answers_pure _
theorem answers_raiseClocks (fl : Nat) : Answers (raiseClocks fl) := by
  refine answers_bind answers_get fun s => ?_
  repeat first
    | exact answers_pure _
    | exact answers_modify _
    | exact answers_modDev _
    | refine answers_bind ?_ fun _ => ?_
    | refine answers_forM (fun _ => ?_) _
    | dsimp only
    | split

/-! Faults and their answers -/

theorem answers_answerAll (fn id : Nat) (ok : Bool) : Answers (answerAll fn id ok) := by
  refine answers_bind (answers_modify _) fun _ => answers_bind answers_get fun s => ?_
  repeat first
    | exact answers_pure _
    | exact answers_unstick _
    | exact answers_modGroup _ _
    | exact answers_wake _ _
    | refine answers_bind ?_ fun _ => ?_
    | refine answers_forM (fun _ => ?_) _
    | dsimp only
    | split
theorem answers_writeFault (fn : Nat) (f : PFault) (a p : Nat) : Answers (writeFault fn f a p) := by
  refine answers_bind answers_get fun s => ?_
  repeat first
    | exact answers_pure _
    | exact answers_putMem _ _ _
    | exact answers_modFn _ _
    | exact answers_fire _ _
    | refine answers_bind ?_ fun _ => ?_
    | refine answers_forM (fun _ => ?_) _
    | dsimp only
    | split
theorem answers_reportFault (t va : Nat) (f : XFault) (n p : Nat) : Answers (reportFault t va f n p) := by
  refine answers_bind answers_get fun s => ?_
  repeat first
    | exact answers_pure _
    | exact answers_modFn _ _
    | exact answers_writeFault _ _ _ _
    | refine answers_bind ?_ fun _ => ?_
    | refine answers_forM (fun _ => ?_) _
    | dsimp only
    | split
theorem answers_walkerMarks (l1 l2 : Leaf) (o : Option Nat) : Answers (walkerMarks l1 l2 o) := by
  refine answers_bind (answers_modify _) fun _ => ?_
  split
  · exact answers_pure _
  · exact answers_modify _
theorem answers_xlate (die : Nat) (core : Option Nat) (t va : Nat) : Answers (xlate die core t va) := by
  refine answers_bind answers_get fun s => ?_
  repeat first
    | exact answers_pure _
    | exact answers_modify _
    | exact answers_modCore _ _
    | exact answers_modDie _ _
    | exact answers_modDev _
    | exact answers_walkerMarks _ _ _
    | refine answers_bind ?_ fun _ => ?_
    | refine answers_forM (fun _ => ?_) _
    | dsimp only
    | split

/-! Queues, routines, the package -/

theorem answers_drainGrid (qk : Nat) : Answers (drainGrid qk) := answers_bind answers_get fun _ => answers_modGrid _ _
theorem answers_endDieGen (d v : Nat) : Answers (endDieGen d v) := answers_bind answers_get fun _ => answers_modDie _ _
theorem answers_setLnStat (f b p n : Nat) : Answers (setLnStat f b p n) := answers_modFn _ _
theorem answers_extendMeas (i : Nat) (d : List Byte) : Answers (extendMeas i d) := answers_modDev _
theorem answers_applyFeat (p : Nat) : Answers (applyFeat p) := answers_modPart _ _
theorem answers_resetQueues (t : Nat) : Answers (resetQueues t) :=
  answers_bind (answers_modify _) fun _ => answers_bind answers_get fun _ => answers_forM (fun _ => answers_modQueue _ _) _
theorem answers_setDevState (st err : Nat) : Answers (setDevState st err) := by
  refine answers_bind answers_get fun s => answers_bind (answers_modDev _) fun _ => ?_
  split
  · exact answers_fire _ _
  · exact answers_pure _
theorem answers_viewMap (fn a : Nat) (w : Bool) : Answers (viewMap fn a w) := by
  refine answers_bind answers_get fun s => ?_
  split
  · dsimp only; split <;> exact answers_pure _
  · split
    · exact answers_pure _
    · split
      · exact answers_pure _
      · refine answers_bind (answers_walkerMarks _ _ _) fun _ => ?_
        dsimp only
        split <;> exact answers_pure _
theorem answers_viewRead (fn n a : Nat) : Answers (viewRead fn n a) := by
  induction n generalizing a with
  | zero => exact answers_pure _
  | succ n ih =>
    refine answers_bind (answers_viewMap _ _ _) fun r => ?_
    split
    · exact answers_pure _
    · refine answers_bind answers_get fun s => ?_
      split
      · exact answers_bind (answers_note _) fun _ => answers_pure _
      · refine answers_bind (ih _) fun x => ?_
        split <;> exact answers_pure _
theorem answers_readImage (fn a : Nat) : Answers (readImage fn a) := by
  refine answers_bind (answers_viewRead _ _ _) fun x => ?_
  split
  · exact answers_pure _
  · refine answers_bind (answers_viewRead _ _ _) fun y => ?_
    split <;> exact answers_pure _

end Sys2Proof.Machine
end

