-- ==== Sys2Proof/Tests/Slice0.lean ====
section
/-! SUPPORT. Tests: an ill-formed term for each check of WellFormed, words written out from the spec's layouts, single steps with results taken from the spec, and a witness for the hypotheses of every statement. -/

namespace Sys2Proof.Tests

open Sys2Proof.Machine

set_option Elab.async false

/-! Words written out from the layouts of 02_words.md -/

/-- An F or FI word, field by field (R37). -/
def wordF (op : BitVec 9) (p : BitVec 3) (d : BitVec 9) (a b c : BitVec 12) (par : BitVec 5) : W64 :=
  0b00#2 ++ op ++ p ++ d ++ a ++ b ++ c ++ par
/-- An FI word with its immediate (R44). -/
def wordFI (op : BitVec 9) (p : BitVec 3) (d : BitVec 9) (a b : BitVec 12) (i : BitVec 17) : W64 := 0b00#2 ++ op ++ p ++ d ++ a ++ b ++ i
/-- An M word (R51). -/
def wordM (op : BitVec 8) (p : BitVec 3) (la : BitVec 4) (ord : BitVec 2) (sc ev : BitVec 3) (d b x : BitVec 9) (off : BitVec 12) : W64 :=
  0b10#2 ++ op ++ p ++ la ++ ord ++ sc ++ ev ++ d ++ b ++ x ++ off
/-- An X word: predicate 0, lookahead 1, descriptor base, scale base, selects 1 and 2, K count 2, split 3, flags (R55). -/
def wordX (op : BitVec 8) (d s : BitVec 9) (sa sb : BitVec 2) (k : BitVec 12) (split : BitVec 5) (flags : BitVec 8) : W64 :=
  0b10#2 ++ op ++ 0#3 ++ 1#4 ++ d ++ s ++ sa ++ sb ++ k ++ split ++ flags
/-- An S word (R56). -/
def wordS (op : BitVec 8) (r2 : BitVec 6) (s0 s1 s2 : BitVec 5) (sub : BitVec 2) : W64 :=
  0b10#2 ++ op ++ 2#3 ++ 5#4 ++ 16#6 ++ 17#6 ++ r2 ++ 4095#12 ++ s0 ++ s1 ++ s2 ++ sub
/-- A K word (R57). -/
def wordK (op : BitVec 8) (p : BitVec 3) (a b : BitVec 9) (m : BitVec 1) (i : BitVec 32) : W64 := 0b11#2 ++ op ++ p ++ a ++ b ++ m ++ i
/-- A Beam word (14_dispatch_lanterns.md R387). -/
def wordB (op : BitVec 6) (d a : BitVec 4) (x : BitVec 18) : W32 := op ++ d ++ a ++ x

def decodes (x : W64 × Instr) : Bool :=
  match decode x.1 with
  | .ok i => i == x.2
  | .error _ => false
def decodesBeam (x : W32 × Instr) : Bool :=
  match decodeBeam x.1 with
  | .ok i => i == x.2
  | .error _ => false
/-- The subcode of a word that is none. -/
def subcode (w : W64) : Nat :=
  match decode w with
  | .ok _ => 0
  | .error e => e.code

-- fields: v9 with its patterns, s4 and constant 3 as sources; v6 and s5 as destinations
def vA : BitVec 12 := 0#1 ++ 9#8 ++ 0b010#3
def sA : BitVec 12 := 1#1 ++ 4#8 ++ 0#3
def kA : BitVec 12 := 1#1 ++ 67#8 ++ 0#3
def dV : BitVec 9 := 0#1 ++ 6#8
def dS : BitVec 9 := 1#1 ++ 5#8
/-- The word with three sources v9.rot(7), s4, 3 and destination v6 that these fields make. -/
def w3 : FWord := ⟨1, .lane 6, .reg (.lane 9 .rotate) (.sreg 4) (.const 3) 7⟩
def w2 : FWord := ⟨1, .lane 6, .reg (.lane 9 .rotate) (.sreg 4) .zero 7⟩
def w1 : FWord := ⟨1, .lane 6, .reg (.lane 9 .rotate) .zero .zero 7⟩
def f3 (op : BitVec 9) : W64 := wordF op 1 dV vA sA kA 7
def f2 (op : BitVec 9) : W64 := wordF op 1 dV vA sA 0 7
def f1 (op : BitVec 9) : W64 := wordF op 1 dV vA 0 0 7

theorem test_decode_pair : decodes (0b01#2 ++ 0x01#7 ++ 1#8 ++ 2#8 ++ 3#8 ++ 0x3F#7 ++ 6#8 ++ 5#8 ++ 8#8,
    .pairWord ⟨.fp .fadd .s, 1, 2, 3⟩ ⟨.int .shl false, 6, 5, 8⟩) = true := by decide +kernel

/-- Opcodes of 03_opcode_map.md R74 and R75 whose words are integer operations. -/
theorem test_decode_integer : ([
    (f2 0x30, .iadd false w2), (f2 0x31, .isub false w2), (f2 0x32, .imul false w2), (f2 0x33, .imulh false false w2),
    (f2 0x34, .imulh true false w2), (f3 0x35, .imad false w3), (f2 0x36, .imin false false w2), (f2 0x37, .imin true false w2),
    (f2 0x38, .imax false false w2), (f2 0x39, .imax true false w2), (f1 0x3A, .iabs false w1), (f2 0xA8, .iadd true w2),
    (f2 0xC0, .idiv false false w2), (f2 0xC1, .idiv false true w2), (f2 0xC2, .irem false false w2), (f2 0xC7, .irem true true w2),
    (f2 0x3B, .and false w2), (f2 0x3C, .or false w2), (f2 0x3D, .xor false w2), (f2 0x3E, .andn false w2),
    (f2 0x3F, .shl false w2), (f2 0x40, .shr false w2), (f2 0x41, .sar false w2), (f2 0x42, .rotl false w2), (f1 0x43, .popc false w1),
    (f1 0x44, .clz false w1), (f1 0xBD, .brev true w1)] : List (W64 × Instr)).all decodes = true := by decide +kernel
theorem test_decode_moves : ([
    (f2 0xC8, .bfx false false w2), (f2 0xC9, .bfx false true w2), (f3 0xCD, .bfi true w3), (f3 0x46, .prmt w3), (f1 0x47, .mov false w1),
    (wordFI 0x147 1 dV 0 0 0x1FFFF, .movi false 1 (.lane 6) 0x1FFFF), (wordFI 0x1BE 0 dS 0 0 5, .movi true 0 (.sreg 5) 5),
    (wordFI 0x1F0 0 dV (0#1 ++ 9#8 ++ 0b101#3) 0 0xABCD, .movh 0 (.lane 6) (.lane 9 .mirror) 0xABCD),
    (f3 0x48, .lea false w3), (f3 0x49, .idx2 w3), (f3 0xCE, .icmp false false w3), (f3 0xD1, .icmp true true w3),
    (wordF 0xD2 1 0b011 vA sA kA 7, .icmpK false false 3 ⟨1, w3.args⟩), (f3 0xD6, .sel false w3)] : List (W64 × Instr)).all decodes = true := by
  decide +kernel
theorem test_decode_float : ([
    (f2 0x01, .fadd .s w2), (f2 0x07, .fsub .h w2), (f2 0x0D, .fmul .bf w2), (f3 0x14, .ffma .bf2 w3), (f2 0x18, .fmin .h2 w2),
    (f2 0x85, .fmax .d w2), (f1 0x20, .frcp .s w1), (f1 0x23, .frsq .h w1), (f1 0x24, .fsqrt .s w1), (f2 0x26, .fdiv .s w2), (f1 0x28, .fex2 .s w1),
    (f1 0x2A, .flg2 .s w1), (f1 0x8C, .fsin .d w1), (f1 0x2E, .fcos .s w1), (f2 0x4A, .fldx .s w2),
    (wordF 0x90 1 dV vA 2 0 7, .frnd .s .ru ⟨1, .lane 6, .lane 9 .rotate, 7⟩), (f3 0x95, .fcmp .d w3),
    (wordF 0x9C 1 0b101 vA sA kA 7, .fcmpK .s 5 ⟨1, w3.args⟩), (f1 0xA6, .fcls .bf2 w1)] : List (W64 × Instr)).all decodes = true := by decide +kernel
/-- The words that 05_lane_scalar_ops.md encodes, and words of R143, R156, R159 and R162. -/
theorem test_decode_cross_lane : ([
    (0x1B44040140000001, .lscan false .add false ⟨1, .lane 2, .lane 1 .rotate, 1⟩), (0x1B66_0A01_4000_0001, .lred false .add ⟨1, .sreg 5, .lane 1 .rotate, 1⟩),
    (0x1B44_0C01_4020_0001, .lscan false .add true ⟨1, .lane 6, .lane 1 .rotate, 1⟩),
    (0x1A40_0605_0061_4200, .icmpK false false 3 ⟨0, .reg (.lane 5 .ident) (.lane 6 .ident) (.const 2) 0⟩),
    (0x2020_0403_0000_7F80, .fadd .s ⟨0, .lane 2, .imm (.lane 3 .ident) .zero 0x7F80⟩),
    (f2 0xD8, .lshfl w2), (wordF 0xD9 1 dS vA 3 0 7, .lvote .count ⟨1, .sreg 5, .lane 9 .rotate, 7⟩),
    (wordF 0xE0 1 dV vA 0b000100010010#12 0 7, .cvt .f32 .f64 .rz false ⟨1, .lane 6, .lane 9 .rotate, 7⟩),
    (wordF 0xE1 1 dV vA 0b000001010010#12 kA 7, .cvts .f32 .e4m3 ⟨1, .lane 6, .lane 9 .rotate, 7⟩ (.const 3)),
    (wordF 0xED 1 0 sA 0 0 0, .qseed 1 (.sreg 4)), (wordF 0xE8 1 dV vA 1 0 7, .qscl .e4 ⟨1, .lane 6, .lane 9 .rotate, 7⟩),
    (f2 0xE9, .qpk4 w2), (wordF 0xEA 1 dV vA sA 1 7, .qpk8 true w2), (wordF 0xEB 1 dV vA sA 2 7, .qunp .e5 w2),
    (wordF 0xEC 1 dV vA 0b101 sA 7, .qhad 1 true ⟨1, .lane 6, .lane 9 .rotate, 7⟩ (.sreg 4))] : List (W64 × Instr)).all decodes = true := by decide +kernel
/-- S words from 0xE0 on (R80): three registers and steps, or two where the operation has no B. -/
theorem test_decode_sweeps : ([
    (wordS 0xE0 18 1 2 3 1, .swadd ⟨2, 5, 16, 17, 18, 4095, 1, 2, 3, 1⟩), (wordS 0xE1 18 1 2 3 1, .swmul ⟨2, 5, 16, 17, 18, 4095, 1, 2, 3, 1⟩),
    (wordS 0xE2 18 1 2 3 1, .swfma ⟨2, 5, 16, 17, 18, 4095, 1, 2, 3, 1⟩), (wordS 0xE3 18 1 2 3 1, .swmax ⟨2, 5, 16, 17, 18, 4095, 1, 2, 3, 1⟩),
    (wordS 0xE4 18 1 2 3 1, .swmin ⟨2, 5, 16, 17, 18, 4095, 1, 2, 3, 1⟩), (wordS 0xE5 0 1 2 0 1, .swcvt ⟨2, 5, 16, 17, 0, 4095, 1, 2, 0, 1⟩),
    (wordS 0xE6 18 1 2 3 0, .swexp ⟨2, 5, 16, 17, 18, 4095, 1, 2, 3, 0⟩), (wordS 0xE7 0 0 2 0 1, .swsum ⟨2, 5, 16, 17, 0, 4095, 0, 2, 0, 1⟩),
    (wordS 0xE8 0 1 2 0 0, .swcpy ⟨2, 5, 16, 17, 0, 4095, 1, 2, 0, 0⟩), (wordS 0xE9 0 1 0 0 1, .swset ⟨2, 5, 16, 17, 0, 4095, 1, 0, 0, 1⟩)]
    : List (W64 × Instr)).all decodes = true := by decide +kernel

/-- A data, a base and an index field: v8, s4 and v12. -/
def mw (la : BitVec 4) (ord : Ord) (sc : Scope) (ev : BitVec 3) (off : BitVec 12) : MWord := ⟨1, la, ord, sc, ev, .lane 8, .sreg 4, .lane 12, off⟩
def m3 (op : BitVec 8) (ord : BitVec 2) (sc ev : BitVec 3) (off : BitVec 12) : W64 := wordM op 1 9 ord sc ev 0x008 0x104 0x00C off
/-- The same with no index. -/
def mt (ord : Ord) (sc : Scope) (off : BitVec 12) : MWord := ⟨1, 9, ord, sc, 0, .sreg 8, .sreg 4, .zero, off⟩
def m2 (op : BitVec 8) (ord : BitVec 2) (sc : BitVec 3) (off : BitVec 12) : W64 := wordM op 1 9 ord sc 0 0x108 0x104 0 off

/-- Loads, stores and cache words (03_opcode_map.md R78; 10_memory_ops.md R266). -/
theorem test_decode_memory : ([
    (m3 0x02 1 3 7 0xFFF, .ld .w false (mw 9 .acq .die 7 0xFFF)), (m3 0x05 0 0 0 1, .ld .b true (mw 9 .rlx .group 0 1)),
    (m3 0x0B 2 6 1 2, .st .d (mw 9 .rel .system 1 2)), (m3 0x14 0 0 0 3, .ldp .q false (mw 9 .rlx .group 0 3)), (m3 0x16 0 0 0 3, .ldp .h true (mw 9 .rlx .group 0 3)),
    (m3 0x18 0 0 0 3, .stp .b (mw 9 .rlx .group 0 3)), (wordM 0x20 1 9 0 4 2 0 0x104 0x00C 5, .pref ⟨1, 9, .rlx, .package, 2, .zero, .sreg 4, .lane 12, 5⟩),
    (wordM 0x21 1 9 0 4 0 0 0x104 0x00C 5, .wb ⟨1, 9, .rlx, .package, 0, .zero, .sreg 4, .lane 12, 5⟩),
    (wordM 0x22 1 9 0 4 0 0 0x104 0x00C 5, .inv ⟨1, 9, .rlx, .package, 0, .zero, .sreg 4, .lane 12, 5⟩),
    (wordM 0x23 1 9 3 5 0 0 0 0 0, .fence ⟨1, 9, .ar, .pod, 0, .zero, .zero, .zero, 0⟩),
    (wordM 0x25 1 9 2 3 0 0x008 0x104 0x105 0, .wsig true ⟨1, 9, .rel, .die, 0, .lane 8, .sreg 4, .sreg 5, 0⟩),
    (m2 0x26 0 0 4, .waitln (mt .rlx .group 4))] : List (W64 × Instr)).all decodes = true := by decide +kernel
/-- Atomics at 0x40 + 2j + d, RED forms 0x20 above (R78). -/
theorem test_decode_atomics : ([
    (m3 0x40 0 0 0 0, .aadd false (mw 9 .rlx .group 0 0)), (m3 0x42 0 0 0 0, .amin false false (mw 9 .rlx .group 0 0)),
    (m3 0x45 0 0 0 0, .amin true true (mw 9 .rlx .group 0 0)), (m3 0x47 0 0 0 0, .amax false true (mw 9 .rlx .group 0 0)),
    (m3 0x4A 1 0 0 0, .aand false (mw 9 .acq .group 0 0)), (m3 0x4D 2 0 0 0, .aor true (mw 9 .rel .group 0 0)), (m3 0x4E 3 0 0 0, .axor false (mw 9 .ar .group 0 0)),
    (m3 0x51 0 0 0 0, .axch true (mw 9 .rlx .group 0 0)), (m3 0x52 0 0 0 0, .acas false (mw 9 .rlx .group 0 0)), (m3 0x5A 0 0 0 0, .acasQ (mw 9 .rlx .group 0 0)),
    (m3 0x54 0 0 0 0, .ainc false (mw 9 .rlx .group 0 0)), (m3 0x58 0 0 0 0, .afadd .h2 (mw 9 .rlx .group 0 0)), (m3 0x60 0 0 0 0, .redAdd false (mw 9 .rlx .group 0 0)),
    (m3 0x64 0 0 0 0, .redMin true false (mw 9 .rlx .group 0 0)), (m3 0x69 0 0 0 0, .redMax true true (mw 9 .rlx .group 0 0)),
    (m3 0x6B 0 0 0 0, .redAnd true (mw 9 .rlx .group 0 0)), (m3 0x6C 2 0 0 0, .redOr false (mw 9 .rel .group 0 0)), (m3 0x6E 0 0 0 0, .redXor false (mw 9 .rlx .group 0 0)),
    (m3 0x75 0 0 0 0, .redInc true (mw 9 .rlx .group 0 0)), (m3 0x77 0 0 0 0, .redFadd .d (mw 9 .rlx .group 0 0))] : List (W64 × Instr)).all decodes = true := by
  decide +kernel
/-- Tiles, engines and futures (R78; R266; 11_engines_futures.md R300, R307). -/
theorem test_decode_tiles : ([
    (m2 0x80 0 3 0, .topen (mt .rlx .die 0)), (m2 0x81 1 3 0, .tacqR (mt .acq .die 0)), (m2 0x82 3 3 0, .tacqW (mt .ar .die 0)), (m2 0x83 2 3 0, .trel (mt .rel .die 0)),
    (wordM 0x84 1 9 0 3 0 0x108 0x104 0x109 0x031, .tsplit ⟨1, 9, .rlx, .die, 0, .sreg 8, .sreg 4, .sreg 9, 0x31⟩), (m2 0x85 1 3 0, .tjoin (mt .acq .die 0)),
    (m2 0x86 0 0 0, .tclose (mt .rlx .group 0)), (m2 0x87 0 0 0, .tqry (mt .rlx .group 0)), (m2 0xA0 0 0 3, .cpy (mt .rlx .group 3)), (m2 0xA1 0 0 0, .gath (mt .rlx .group 0)),
    (m2 0xA2 0 0 2, .scat (mt .rlx .group 2)), (m2 0xA3 0 0 1, .coll (mt .rlx .group 1)), (m2 0xA8 0 0 0, .ftst (mt .rlx .group 0)), (m2 0xA9 0 0 0, .fwt (mt .rlx .group 0)),
    (m2 0xAA 0 0 0, .fcan (mt .rlx .group 0))] : List (W64 × Instr)).all decodes = true := by decide +kernel
/-- X words (R79): the sparse flag is bit 5, then row mask, transposes of B and of A, deterministic, chain. -/
theorem test_decode_matrix : ([
    (wordX 0xC7 0x110 0x014 1 2 2 3 0b00011011#8, .mma .e4sc ⟨0, 1, 16, 20, 1, 2, 2, 3, true, true, false, true, true⟩),
    (wordX 0xC2 0x110 0 0 0 2 3 0b00101000#8, .mmsp .h ⟨0, 1, 16, 0, 0, 0, 2, 3, false, true, false, false, false⟩),
    (wordX 0xD0 0x110 0 0 0 1 0 0b00010000#8, .mzero ⟨0, 1, 16, 1, 0, true⟩), (wordX 0xD1 0x110 0 0 0 2 7 0, .mcfg ⟨0, 1, 16, 2, 7, false⟩),
    (wordX 0xD2 0 0 1 2 2 3 0b00100001#8, .mres true ⟨0, 1, 0, 0, 1, 2, 2, 3, false, false, false, false, true⟩)] : List (W64 × Instr)).all decodes = true := by
  decide +kernel
/-- K words (13_control_sync_ops.md R341). -/
theorem test_decode_control : ([
    (wordK 0x00 0 0 0 0 0xFFFFFFFF, .bra 0xFFFFFFFF), (wordK 0x01 3 0x1FF 0x1FE 1 7, .brc 3 true 0x3FFFE 7), (wordK 0x02 3 0x009 0x104 0 0x00050004, .jtbl 3 (.lane 9) 4 5 4),
    (wordK 0x03 0 0x104 0 0 9, .call 4 9), (wordK 0x04 0 0x104 0 0 0, .ret 4), (wordK 0x05 0 0 0 0 0, .join), (wordK 0x06 0 0x104 0 0 0xFFFFFFF0, .loopb 4 0xFFFFFFF0),
    (wordK 0x07 3 0 0 0 0, .exit 3), (wordK 0x08 0 0 0 0 0x80000001, .idem 0x80000001), (wordK 0x09 3 0 0 0 0, .nop 3), (wordK 0x0A 3 0b000000111#9 0 0 4, .ipref 3 7 4),
    (wordK 0x20 3 0 0 0 0x00000070, .bara 3 .block 7), (wordK 0x21 3 0 0 0 0x00000021, .barw 3 .cluster 2), (wordK 0x22 3 0 0 0 0x00000034, .bars 3 .pod 3),
    (wordK 0x23 3 0x185 0 0 0x80000440, .qbind 3 5 (.imm 0x80000440)), (wordK 0x23 3 0x185 0x104 1 0, .qbind 3 5 (.reg 4)), (wordK 0x24 3 0x187 0 0 0, .qclose 3 7),
    (wordK 0x25 3 0x104 0x180 0 0, .qstat 3 4 0), (wordK 0x26 3 0 0 0 0xFFFF, .yield 3 0xFFFF)] : List (W64 × Instr)).all decodes = true := by decide +kernel
theorem test_decode_system : ([
    (wordK 0x40 3 0 0 0 0xBEEF, .trap 3 0xBEEF), (wordK 0x49 3 0 0 0 0xBEEF, .bkpt 3 0xBEEF), (wordK 0x41 3 0x105 0x104 0 0x0010, .svc 3 5 4 0x10),
    (wordK 0x41 3 0x105 0x104 0 0x8000, .pagesync 3 5 4), (wordK 0x42 3 0x009 0 0 0x14, .rdsr 3 (.lane 9) 0x14), (wordK 0x42 3 0x009 0x182 0 0, .queuePop 3 (.lane 9) 2),
    (wordK 0x43 3 0 0x104 0 0x0A, .wrsr 3 0x0A (.sreg 4)), (wordK 0x43 3 0x182 0x009 0 0, .queuePush 3 2 (.lane 9)), (wordK 0x43 3 0 0x141 0 0x09, .resume 3 1),
    (wordK 0x43 3 0 0x142 0 0x09, .abort 3 2), (wordK 0x44 3 0x105 0 0 3, .rdct 3 5 .lclock), (wordK 0x45 3 0x105 0x104 0 0x009, .launch 3 (.sreg 5) 4 (.lane 9)),
    (wordK 0x46 3 0 0 0 31, .quotaGive 3 31), (wordK 0x47 3 0 0 0 1, .quotaTake 3 1), (wordK 0x48 3 0 0 0 0, .isync 3)] : List (W64 × Instr)).all decodes = true := by
  decide +kernel
/-- Beam words (14_dispatch_lanterns.md R388): d = 3, a = 14, x = -2 or b5. -/
theorem test_decode_beam : ([
    (0x01#6 ++ 3#4 ++ 0x3FFFFE#22, .beamLdi 3 0x3FFFFE), (wordB 0x02 3 14 0, .beamMov 3 14), (wordB 0x03 3 14 5, .beamAdd 3 14 (.reg 5)),
    (wordB 0x04 3 14 0x3FFFE, .beamSub 3 14 (.imm 0x1FFFE)), (wordB 0x05 3 14 5, .beamMul 3 14 (.reg 5)), (wordB 0x06 3 14 5, .beamAnd 3 14 (.reg 5)),
    (wordB 0x07 3 14 5, .beamOr 3 14 (.reg 5)), (wordB 0x08 3 14 5, .beamXor 3 14 (.reg 5)), (wordB 0x09 3 14 5, .beamShl 3 14 (.reg 5)),
    (wordB 0x0A 3 14 5, .beamShr 3 14 (.reg 5)), (wordB 0x0B 3 14 5, .beamMin 3 14 (.reg 5)), (wordB 0x0C 3 14 5, .beamMax 3 14 (.reg 5)),
    (wordB 0x0D 3 14 5, .beamClt 3 14 (.reg 5)), (wordB 0x0E 3 14 5, .beamCeq 3 14 (.reg 5)), (wordB 0x0F 0 14 255, .beamBf 14 255), (wordB 0x10 0 0 1, .beamJf 1),
    (wordB 0x11 0 0 7, .beamLoop 7), (wordB 0x12 0 0 0, .beamEndl), (wordB 0x13 3 14 0x2000B, .beamCtr 3 14 11), (wordB 0x14 3 14 5, .beamMrd 3 14 (.reg 5)),
    (wordB 0x15 3 14 0x20001, .beamMwr 3 14 (.imm 1)), (wordB 0x16 3 0 0, .beamDec 3), (wordB 0x17 0 0 0, .beamRet)] : List (W32 × Instr)).all decodesBeam = true := by
  decide +kernel

/-- Words that are none, with their subcodes (03_opcode_map.md R83): an unassigned opcode, a reserved field, a pair whose destinations share a
bank, the same with half 1 reading what half 0 writes, a scalar destination of 64, pattern 111, scope 7, a K count of 0, a target of LOOPB ahead. -/
theorem test_decode_refused : subcode (wordF 0x1F 0 0 0 0 0 0) = 1 ∧ subcode (wordK 0x0B 0 0 0 0 0) = 1 ∧ subcode (f3 0x30) = 3 ∧ subcode (wordK 0x05 0 1 0 0 0) = 3 ∧
    subcode (0b01#2 ++ 0x30#7 ++ 4#8 ++ 5#8 ++ 6#8 ++ 0x30#7 ++ 8#8 ++ 9#8 ++ 10#8) = 4 ∧
    subcode (0b01#2 ++ 0x30#7 ++ 4#8 ++ 5#8 ++ 6#8 ++ 0x30#7 ++ 7#8 ++ 4#8 ++ 9#8) = 4 ∧
    subcode (wordF 0x30 0 (1#1 ++ 64#8) 0 0 0 0) = 5 ∧ subcode (wordF 0x30 0 0 7 0 0 0) = 5 ∧ subcode (m3 0x00 0 7 0 0) = 5 ∧
    subcode (wordX 0xC1 0x110 0 0 0 0 0 0) = 5 ∧ subcode (wordK 0x06 0 0x104 0 0 1) = 5 := by decide +kernel

/-! Ill-formed terms, one for each check of WellFormed, each refused where a neighbour that differs in that point alone is not. -/

/-- A pair of a term that a check refuses and of its neighbour. -/
def refuses (x : Instr × Instr) : Bool := !x.1.wf && x.2.wf

/-- F and FI words (02_words.md R37 to R46; 05_lane_scalar_ops.md R122): no such operation, an unread B, an unread C, a parameter that no pattern uses, an immediate
where there is no FI form, an unread A or B of an FI word, a rotated source in an FI word, bit 16 in an opcode with 16-bit immediates, a
lane source for a scalar destination. -/
theorem test_wf_f : ([
    (.frcp .bf w1, .frcp .h w1), (.popc false w2, .popc false w1), (.iadd false w3, .iadd false w2),
    (.iadd false ⟨1, .lane 6, .reg (.sreg 4) (.sreg 4) .zero 7⟩, .iadd false ⟨1, .lane 6, .reg (.sreg 4) (.sreg 4) .zero 0⟩),
    (.popc false ⟨1, .lane 6, .imm .zero .zero 7⟩, .popc false w1),
    (.iadd false ⟨1, .lane 6, .imm (.sreg 4) (.sreg 5) 7⟩, .iadd false ⟨1, .lane 6, .imm (.sreg 4) .zero 7⟩),
    (.iadd false ⟨1, .lane 6, .imm (.lane 9 .rotate) .zero 7⟩, .iadd false ⟨1, .lane 6, .imm (.lane 9 .mirror) .zero 7⟩),
    (.fadd .h ⟨1, .lane 6, .imm (.sreg 4) .zero 0x10000⟩, .fadd .s ⟨1, .lane 6, .imm (.sreg 4) .zero 0x10000⟩),
    (.iadd false ⟨1, .sreg 6, .reg (.lane 9 .ident) (.sreg 4) .zero 0⟩, .iadd false ⟨1, .sreg 6, .reg (.sreg 9) (.sreg 4) .zero 0⟩),
    (.mov false ⟨1, .sreg 6, .reg (.lane 9 .ident) .zero .zero 0⟩, .mov false ⟨1, .lane 6, .reg (.lane 9 .ident) .zero .zero 0⟩),
    (.movh 1 (.lane 6) (.lane 9 .rotate) 7, .movh 1 (.lane 6) (.lane 9 .keep) 7), (.movh 1 (.sreg 6) (.lane 9 .ident) 7, .movh 1 (.sreg 6) (.sreg 9) 7),
    (.frnd .s .rz ⟨1, .lane 6, .sreg 4, 7⟩, .frnd .s .rz ⟨1, .lane 6, .sreg 4, 0⟩), (.frnd .s .rz ⟨1, .sreg 6, .lane 9 .ident, 0⟩, .frnd .s .rz ⟨1, .sreg 6, .sreg 9, 0⟩),
    (.lshfl ⟨1, .sreg 6, .reg (.lane 9 .ident) .zero .zero 0⟩, .lshfl ⟨1, .lane 6, .reg (.lane 9 .ident) .zero .zero 0⟩),
    (.lscan false .add true ⟨1, .sreg 6, .lane 9 .ident, 0⟩, .lscan false .add false ⟨1, .sreg 6, .lane 9 .ident, 0⟩)]
    : List (Instr × Instr)).all refuses = true := by decide +kernel
/-- Conversions and block instructions (06_sweep_quantise.md R156 to R167): the unsigned bit without an integer format, a pair of formats that CVTS
lacks, a scalar destination of a block instruction. -/
theorem test_wf_quantise : ([
    (.cvt .f32 .f64 .rne true ⟨1, .lane 6, .lane 9 .ident, 0⟩, .cvt .f32 .i32 .rne true ⟨1, .lane 6, .lane 9 .ident, 0⟩),
    (.cvts .f32 .f64 ⟨1, .lane 6, .lane 9 .ident, 0⟩ (.sreg 4), .cvts .f64 .f32 ⟨1, .lane 6, .lane 9 .ident, 0⟩ (.sreg 4)),
    (.cvts .f64 .f32 ⟨1, .sreg 6, .sreg 4, 0⟩ (.lane 9 .ident), .cvts .f64 .f32 ⟨1, .sreg 6, .sreg 4, 0⟩ (.const 1)),
    (.qscl .e4 ⟨1, .sreg 6, .sreg 9, 0⟩, .qscl .e4 ⟨1, .lane 6, .sreg 9, 0⟩),
    (.qpk4 ⟨1, .sreg 6, .reg (.sreg 9) (.sreg 4) .zero 0⟩, .qpk4 w2), (.qpk8 true ⟨1, .sreg 6, .reg (.sreg 9) (.sreg 4) .zero 0⟩, .qpk8 true w2),
    (.qunp .e5 ⟨1, .sreg 6, .reg (.sreg 9) (.sreg 4) .zero 0⟩, .qunp .e5 w2),
    (.qhad 1 true ⟨1, .sreg 6, .sreg 9, 0⟩ (.sreg 4), .qhad 1 true ⟨1, .lane 6, .sreg 9, 0⟩ (.sreg 4))] : List (Instr × Instr)).all refuses = true := by
  decide +kernel
/-- P words (02_words.md R48 to R50): an operation above 0x7F, an unread B, destinations of one bank, three reads of a bank, half 1 reading what
half 0 writes. -/
theorem test_wf_pair : ([
    (.pairWord ⟨.sel false, 1, 2, 3⟩ ⟨.int .shl false, 6, 5, 8⟩, .pairWord ⟨.int .iadd false, 1, 2, 3⟩ ⟨.int .shl false, 6, 5, 8⟩),
    (.pairWord ⟨.int .popc false, 1, 2, 3⟩ ⟨.int .shl false, 6, 5, 8⟩, .pairWord ⟨.int .popc false, 1, 2, 0⟩ ⟨.int .shl false, 6, 5, 8⟩),
    (.pairWord ⟨.int .iadd false, 2, 1, 3⟩ ⟨.int .shl false, 6, 5, 8⟩, .pairWord ⟨.int .iadd false, 2, 1, 3⟩ ⟨.int .shl false, 7, 5, 8⟩),
    (.pairWord ⟨.int .iadd false, 1, 4, 8⟩ ⟨.int .shl false, 6, 5, 12⟩, .pairWord ⟨.int .iadd false, 1, 4, 8⟩ ⟨.int .shl false, 6, 5, 13⟩),
    (.pairWord ⟨.int .iadd false, 1, 2, 3⟩ ⟨.int .shl false, 6, 1, 8⟩, .pairWord ⟨.int .iadd false, 1, 2, 3⟩ ⟨.int .shl false, 6, 9, 8⟩)]
    : List (Instr × Instr)).all refuses = true := by decide +kernel
/-- M words (10_memory_ops.md R266, R267): an order, a scope, an eviction field that the class has not; a constant as destination, a lane base and an
index where the class has none, offsets out of their use; a scalar destination of a load by lanes; mode 3 of SCAT; sign extension of a word. -/
theorem test_wf_memory : ([
    (.pref ⟨1, 9, .acq, .package, 2, .zero, .sreg 4, .zero, 5⟩, .pref ⟨1, 9, .rlx, .package, 2, .zero, .sreg 4, .zero, 5⟩),
    (.waitln (mt .rlx .core 0), .waitln (mt .rlx .group 0)), (.aadd false ⟨1, 9, .rlx, .core, 0, .const 1, .sreg 4, .zero, 0⟩, .redAdd false ⟨1, 9, .rlx, .core, 0, .const 1, .sreg 4, .zero, 0⟩),
    (.ldp .w false (mw 9 .rlx .group 1 0), .ldp .w false (mw 9 .rlx .group 0 0)),
    (.ld .w false ⟨1, 9, .rlx, .group, 0, .const 1, .sreg 4, .zero, 0⟩, .st .w ⟨1, 9, .rlx, .group, 0, .const 1, .sreg 4, .zero, 0⟩),
    (.topen ⟨1, 9, .rlx, .die, 0, .sreg 8, .lane 4, .zero, 0⟩, .topen (mt .rlx .die 0)), (.topen ⟨1, 9, .rlx, .die, 0, .sreg 8, .sreg 4, .sreg 1, 0⟩, .topen (mt .rlx .die 0)),
    (.cpy ⟨1, 9, .rlx, .group, 0, .sreg 8, .sreg 61, .zero, 3⟩, .cpy ⟨1, 9, .rlx, .group, 0, .sreg 8, .sreg 60, .zero, 3⟩),
    (.tqry (mt .rlx .group 1), .tqry (mt .rlx .group 0)), (.tsplit ⟨1, 9, .rlx, .die, 0, .sreg 8, .sreg 4, .sreg 9, 0x35⟩, .tsplit ⟨1, 9, .rlx, .die, 0, .sreg 8, .sreg 4, .sreg 9, 0x31⟩),
    (.ld .w false ⟨1, 9, .rlx, .group, 0, .sreg 8, .sreg 4, .lane 12, 0⟩, .ld .w false ⟨1, 9, .rlx, .group, 0, .sreg 8, .sreg 4, .sreg 12, 0⟩),
    (.scat (mt .rlx .group 3), .scat (mt .rlx .group 2)), (.ld .w true (mw 9 .rlx .group 0 0), .ld .h true (mw 9 .rlx .group 0 0)),
    (.afadd .h (mw 9 .rlx .group 0 0), .afadd .h2 (mw 9 .rlx .group 0 0))] : List (Instr × Instr)).all refuses = true := by decide +kernel
/-- X and S words (07_matrix.md R170, R187, R188; 06_sweep_quantise.md R145 to R151): descriptors beyond s60, no K steps, scales beyond the fourth register, scales without a scaled
form, a transposed 4-bit operand, a sparse form that is none; the fields of MZERO, MCFG, MRES; sweeps of no iteration, with a subformat or fields they have not. -/
theorem test_wf_matrix_sweep :
    let x (d : BitVec 6) (s : BitVec 8) (a b : BitVec 2) (k : BitVec 12) (ta : Bool) : XWord := ⟨0, 1, d, s, a, b, k, 3, false, false, ta, false, false⟩
    ([(.mma .h (x 61 0 0 0 2 false), .mma .h (x 60 0 0 0 2 false)), (.mma .h (x 16 0 0 0 0 false), .mma .h (x 16 0 0 0 1 false)),
      (.mma .e4sc (x 16 20 2 2 3 false), .mma .e4sc (x 16 20 1 1 3 false)), (.mma .h (x 16 20 0 0 2 false), .mma .h (x 16 0 0 0 2 false)),
      (.mma .z4 (x 16 0 0 0 2 true), .mma .z4 (x 16 0 0 0 2 false)), (.mmsp .d (x 16 0 0 0 2 false), .mmsp .h (x 16 0 0 0 2 false)),
      (.mmsp .h (x 16 0 0 0 2 true), .mma .h (x 16 0 0 0 2 true)),
      (.mzero ⟨0, 1, 61, 1, 0, true⟩, .mzero ⟨0, 1, 60, 1, 0, true⟩), (.mzero ⟨0, 1, 16, 3, 0, true⟩, .mzero ⟨0, 1, 16, 2, 0, true⟩),
      (.mzero ⟨0, 1, 16, 1, 1, true⟩, .mzero ⟨0, 1, 16, 1, 0, true⟩), (.mcfg ⟨0, 1, 16, 2, 7, true⟩, .mcfg ⟨0, 1, 16, 2, 7, false⟩),
      (.mres false (x 16 0 0 0 2 false), .mres false (x 0 0 0 0 2 false)), (.mres false (x 0 1 0 0 2 false), .mres false (x 0 0 0 0 2 false)),
      (.swadd ⟨2, 5, 16, 17, 18, 0, 1, 2, 3, 1⟩, .swadd ⟨2, 5, 16, 17, 18, 1, 1, 2, 3, 1⟩), (.swexp ⟨2, 5, 16, 17, 0, 1, 1, 2, 0, 3⟩, .swexp ⟨2, 5, 16, 17, 0, 1, 1, 2, 0, 0⟩),
      (.swcpy ⟨2, 5, 16, 17, 18, 1, 1, 2, 0, 0⟩, .swcpy ⟨2, 5, 16, 17, 0, 1, 1, 2, 0, 0⟩), (.swsum ⟨2, 5, 16, 17, 0, 1, 1, 2, 0, 1⟩, .swsum ⟨2, 5, 16, 17, 0, 1, 0, 2, 0, 1⟩),
      (.swset ⟨2, 5, 16, 17, 0, 1, 1, 2, 0, 1⟩, .swset ⟨2, 5, 16, 17, 0, 1, 1, 0, 0, 1⟩)] : List (Instr × Instr)).all refuses = true := by decide +kernel
/-- K and Beam words (13_control_sync_ops.md R347, R349, R356 to R365; 14_dispatch_lanterns.md R390): an empty table, a LOOPB forward, a binding without slots, a service that is
PAGESYNC, values of TRAPCAUSE that are RESUME or ABORT or neither, no units of quota, counter 12. -/
theorem test_wf_control : ([
    (.jtbl 3 (.lane 9) 4 5 0, .jtbl 3 (.lane 9) 4 5 1), (.loopb 4 1, .loopb 4 0), (.qbind 3 5 (.imm 0x80000040), .qbind 3 5 (.imm 0x80000440)),
    (.qbind 3 5 (.imm 0x80000441), .qbind 3 5 (.imm 0x80000440)), (.svc 3 5 4 0x8000, .svc 3 5 4 0x8001), (.wrsr 3 0x09 (.const 1), .wrsr 3 0x09 (.const 4)),
    (.resume 3 2, .resume 3 1), (.abort 3 1, .abort 3 3), (.quotaGive 3 0, .quotaGive 3 31), (.quotaTake 3 0, .quotaTake 3 1), (.beamCtr 3 14 12, .beamCtr 3 14 11)]
    : List (Instr × Instr)).all refuses = true := by decide +kernel

/-! A small machine: core 0 of a READY package runs one group of 32 lanes with 64 lane registers, a scratchpad of 4 KiB, 16 bytes of
lane-private memory and one share of quad memory; partition 0 owns two pages of memory: page 16 shared by lease, page 17 for tiles. -/

def hdr : Hdr := { fetchHdr with width := 32, scratch := 1, lp := 1, qmem := 1, barriers := [16, 16, 16, 16, 16], trap := 2 }
def grid : Grid := { fetchGrid with hdr := some hdr }
def grp : Group := launchGroup grid hdr ((List.range 8).map (16 * ·)) { rw := 1, sp := 2 }
def blk : Block := { grid := 0, blk := 0, clu := 0, pos := 0, base := 0, gsp := 2, gpool := 3, live := [0] }
def page (n cls : Nat) : Tlb := ⟨0, n, 12, 4096 * n, 7, 512 * cls + 0x1C, 4096 * n⟩
def base : State := { State.readyReset with
  queues := [(0, { recs := [grid.record], nextSeq := 1, active := some grid })]
  blocks := [(0, blk)]
  groups := [(0, grp)]
  quads := [(0, { clusters := [⟨0, 0, 0, 0, [], []⟩], gen := { next := 4, held := [3, 1, 2] } })]
  cores := [(0, { grid := some 0, places := 1, tlb := [page 16 1, page 17 2] })]
  parts := [(0, { own := { quads := [0], l2 := [0], homes := [0], chans := [16, 17], engs := [0, 8, 16] }, tenant := some 0 })] }

/-- The machine with another group. -/
def on (g : Group) : State := { base with groups := [(0, g)] }
/-- The group with scalar registers as given. -/
def regs (xs : List (Nat × W64)) : Group := xs.foldl (fun g x => g.setScalar x.1 x.2) grp
/-- The machine with a lane register's elements as given. -/
def fill (s : State) (n : Nat) (f : Nat → Nat) : State := (List.range 32).foldl (fun s l => s.putElem 0 grp n l (f l)) s
/-- Offsets of the scratchpad as addresses. -/
def pad (n : Nat) : W64 := BitVec.ofNat 64 (2 ^ 57 + n)

/-- What an instruction leaves, as a number. -/
def result (i : Instr) (s : State) (f : State → Nat) : Option Nat :=
  match exec i s with
  | .next t => some (f t)
  | _ => none
def sreg (m : Nat) (s : State) : Nat := ((tlook 0 s.groups).map fun g => (g.scalar m).toNat).getD 0
def vreg (n l : Nat) (s : State) : Nat := elemAt s 0 grp n l
def slotA (s : State) : Nat := ((tlook 0 s.groups).map fun g => g.a.pc.toNat).getD 0
def padWord (n : Nat) (s : State) : Nat := (LocalCtx.mk 0 grp blk hdr).read s (pad n).toNat 4 0
/-- A word of the scratchpad written. -/
def store (a x : Nat) (s : State) : State :=
  match ((LocalCtx.mk 0 grp blk hdr).write (pad a).toNat 4 0 x).run s with
  | .ok _ t => t
  | .error _ t => t
/-- A word from scalar registers s4 and s7 to s6. -/
def ss : FWord := ⟨0, .sreg 6, .reg (.sreg 4) (.sreg 7) .zero 0⟩
def s1 : FWord := ⟨0, .sreg 6, .reg (.sreg 4) .zero .zero 0⟩
def two (a b : W64) : State := on (regs [(4, a), (7, b)])

/-! Single steps, with results from the spec's rules and worked examples -/

/-- R126, R127, R128: the sum wraps, a quotient by 0 is all ones, a shift by the width gives 0. -/
theorem test_exec_integer : result (.iadd false ss) (two 0xFFFFFFFF 2) (sreg 6) = some 1 ∧
    result (.idiv false false ss) (two 7 0) (sreg 6) = some 0xFFFFFFFF ∧ result (.shl false ss) (two 1 32) (sreg 6) = some 0 ∧
    result (.isub true ss) (two 0 1) (sreg 6) = some 0xFFFFFFFFFFFFFFFF ∧ result (.clz false s1) (two 1 0) (sreg 6) = some 31 := by decide +kernel
/-- R105, R106, R108: 1 + 2^-24 is a tie that keeps 1, 1.5 * 1.5 = 2.25, 1/0 is infinity; 300 and 500 into E4M3 (04_numbers.md). -/
theorem test_exec_float : result (.fadd .s ss) (two 0x3F800000 0x33800000) (sreg 6) = some 0x3F800000 ∧
    result (.fmul .s ss) (two 0x3FC00000 0x3FC00000) (sreg 6) = some 0x40100000 ∧ result (.frcp .s s1) (two 0 0) (sreg 6) = some 0x7F800000 ∧
    result (.cvt .f32 .e4m3 .rne false ⟨0, .sreg 6, .sreg 4, 0⟩) (two 0x43960000 0) (sreg 6) = some 0x79 ∧
    result (.cvt .f32 .e4m3 .rne false ⟨0, .sreg 6, .sreg 4, 0⟩) (two 0x43FA0000 0) (fun s => sreg 6 s + (s.core 0).events.of * 256) = some 0x17F ∧
    result (.fex2 .h s1) (two 0x4C00 0) (sreg 6) = some 0x7C00 := by decide +kernel
/-- R133: an ICMP.K of v1 below 5 sets k3 in lanes 0 to 4. -/
theorem test_exec_compare : result (.icmpK false false 3 ⟨0, .reg (.lane 1 .ident) (.sreg 4) (.const 2) 0⟩) (fill (two 5 0) 1 id)
    (fun s => ((tlook 0 s.groups).map fun g => (g.pred 3).toNat).getD 0) = some 31 := by decide +kernel
/-- The worked example of 05_lane_scalar_ops.md: lane 30 gets 256, an odd lane keeps its value; the exclusive form gives 225 there; LRED gives 256. -/
theorem test_exec_scan :
    let s := fill (fill (on (grp.setPred 1 0x55555555)) 1 id) 2 fun _ => 0xFFFFFFFF
    let o (d : Dst) : FMode := ⟨1, d, .lane 1 .rotate, 1⟩
    result (.lscan false .add false (o (.lane 2))) s (fun t => vreg 2 30 t * 2 ^ 32 + vreg 2 1 t) = some (256 * 2 ^ 32 + 0xFFFFFFFF) ∧
    result (.lscan false .add true (o (.lane 6))) s (vreg 6 30) = some 225 ∧ result (.lred false .add (o (.sreg 5))) s (sreg 5) = some 256 := by decide +kernel
/-- The worked example of 06_sweep_quantise.md: QPK4 packs 5.0, about 0.7 and -2.5 as 0xC18, its side word is 0x7F4A. -/
theorem test_exec_pack :
    let s := fill (fill base 4 fun l => [0x40A00000, 0x3F333333, 0xC0200000].getD l 0) 8 fun _ => 0x7F00
    result (.qpk4 ⟨0, .lane 9, .reg (.lane 4 .ident) (.lane 8 .ident) .zero 0⟩) s (fun t => vreg 9 0 t * 2 ^ 32 + vreg 9 4 t) =
      some (0xC18 * 2 ^ 32 + 0x7F4A) := by decide +kernel
/-- A running sum through overlap (06_sweep_quantise.md): iterations 0 and 2 of SWADD.S leave 1.5 and 2.5. -/
theorem test_exec_sweep :
    let one (a x : Nat) (s : State) : State := (List.range 32).foldl (fun s l => store (a + 4 * l) x s) s
    let s := one 0xC00 0x3F000000 (one 0 0x3F800000 (on (regs [(2, pad 0), (1, pad 128), (3, pad 0xC00)])))
    result (.swadd ⟨0, 0, 1, 2, 3, 3, 8, 8, 0, 0⟩) s (fun t => padWord 128 t * 2 ^ 32 + padWord 508 t) = some (0x3FC00000 * 2 ^ 32 + 0x40200000) := by
  decide +kernel
/-- One location, many lanes (10_memory_ops.md): lane 3 reads 106, and the word holds 628 afterwards. -/
theorem test_exec_atomic : result (.aadd false ⟨0, 0, .rlx, .die, 0, .lane 5, .sreg 2, .zero, 0⟩) (fill (store 64 100 (on (regs [(2, pad 64)]))) 5 (· + 1))
    (fun u => vreg 5 3 u * 2 ^ 32 + padWord 64 u) = some (106 * 2 ^ 32 + 628) := by decide +kernel
/-- A register through the window (01_machine.md R27): v10 of lane 20 at 10 * 128 + 80. -/
theorem test_exec_window : result (.ld .w false ⟨0, 0, .rlx, .group, 0, .sreg 6, .sreg 4, .zero, 0⟩)
    (fill (two (BitVec.ofNat 64 (2 ^ 56 + 10 * 128 + 80)) 0) 10 (3 * ·)) (sreg 6) = some 60 := by decide +kernel
/-- A nested divergence (12_groups_progress.md), step 1: the lower path stays in slot A, entry 0 is a JOIN with two to come. -/
theorem test_exec_branch :
    let g : Group := { grp.setPred 1 0x3FF with a := { grp.a with pc := 0x108 } }
    let s : State := { on g with cur := { pc := 0x100 } }
    result (.brc 1 false 0x20 0x10) s (fun t => ((tlook 0 t.groups).map fun g =>
      if g.a = ⟨0x108, 0xFFFFFC00, some 0⟩ ∧ g.b = ⟨0x180, 0x3FF, some 0⟩ ∧ g.sp = 1 ∧ g.entry 0 = ⟨0x200, 0xFFFFFFFF, none, 2, false⟩ then 1 else 0).getD 0) =
      some 1 := by decide +kernel
/-- R345, R348, R349: BRA two words back, CALL's link, LOOPB at 1 falls through with 0. -/
theorem test_exec_control :
    let s : State := { on (regs [(4, 1)]) with cur := { pc := 0x100 } }
    result (.bra 0xFFFFFFFE) s slotA = some 0xF0 ∧ result (.call 4 2) s (fun t => slotA t * 2 ^ 32 + sreg 4 t) = some (0x110 * 2 ^ 32 + 0x108) ∧
    result (.loopb 4 0xFFFFFFFE) s (fun t => slotA t * 2 ^ 32 + sreg 4 t) = some (0x108 * 2 ^ 32) := by decide +kernel
/-- R438: TRAP's cause and code, the handler's address (trap entry word 2 after the header), every lane in slot A. -/
theorem test_exec_trap : result (.trap 0 7) base (fun t => ((tlook 0 t.groups).map fun g =>
    if g.trapCause = 0x1000 ∧ g.trapAddr = 7 ∧ g.a = ⟨128 + 16, 0xFFFFFFFF, none⟩ ∧ g.b.mask = 0 ∧ g.handler = some 0 then 1 else 0).getD 0) = some 1 := by
  decide +kernel
/-- R21 to R25: LANEID by lane, and an unlisted number is illegal (cause 1, subcode 8). -/
theorem test_exec_special : result (.rdsr 0 (.lane 3) 0) base (vreg 3 21) = some 21 ∧
    result (.rdsr 0 (.lane 3) 0x7F) base (fun t => ((tlook 0 t.groups).map fun g => g.trapCause.toNat).getD 0) = some 0x80100 := by decide +kernel
/-- A device word and a Beam word are fetched, decoded and run by a step: IADD of -3 wraps to 2^32 - 3 in every lane; ADD b3, b4, -1 of 0. -/
theorem test_step : (match step (State.reset.withFetchWord 64 0x260002020001FFFD) with
    | .next t => elemAt t 0 (launchGroup fetchGrid fetchHdr ((List.range 8).map (unitGranules 128 * ·)) { rw := 1, sp := 2 }) 1 127
    | _ => 0) = 0xFFFFFFFD ∧
    (match step (State.reset.withFetchWord 32 0x0CD3FFFF) with
    | .next t => ((t.lantern 0).call.map fun k => (k.reg 3).toNat).getD 0
    | _ => 0) = 0xFFFFFFFF := by decide +kernel
/-- R368 to R370, R428: a bring-up ends READY, a cold reset begins again. -/
theorem test_exec_package : result (.serviceBringup []) { State.reset with dev := { State.reset.dev with state := 3 } } (fun t => t.dev.state) = some 4 ∧
    result .coldReset base (fun t => t.dev.state + t.groups.length) = some 1 := by decide +kernel

/-! Checks of hypotheses -/

/-- A well-formed word under the conditions of `Issues`. -/
def issuesB (s : State) (i : Instr) (g : Group) (h : Hdr) : Bool :=
  tlook s.cur.gk s.groups == some g && (match tlook (blkOfGrp s.cur.gk) s.blocks with
    | some b => (match s.gridOf b.grid with
      | some x => x.hdr == some h
      | none => false)
    | none => false) && !operandBad g h i && !rangeBad g (uses i) && !(uses i).odd && i.wf
theorem issues_of {s i g h} (w : issuesB s i g h = true) : Issues s i g h := by
  simp only [issuesB, Bool.and_eq_true, Bool.not_eq_true', beq_iff_eq] at w
  obtain ⟨⟨⟨⟨⟨h1, h2⟩, h3⟩, h4⟩, h5⟩, -⟩ := w
  refine ⟨h1, ?_, h3, h4, h5⟩
  cases hb : tlook (blkOfGrp s.cur.gk) s.blocks with
  | none => simp [hb] at h2
  | some b => cases hx : s.gridOf b.grid with
    | none => simp [hb, hx] at h2
    | some x => exact ⟨b, x, rfl, hx, by simpa [hb, hx] using h2⟩

def readableB (s : State) (g : Group) (es : List (Nat × Nat)) : Bool :=
  es.all fun e => !elemBad s s.cur.gk g e.1 e.2 && (!g.gens.trw || !elemStale s s.cur.gk g e.1 e.2)
theorem readable_of {s g es} (w : readableB s g es = true) : s.readable g es := by
  intro e he
  have := List.all_eq_true.1 w e he
  simp only [Bool.and_eq_true, Bool.not_eq_true', Bool.or_eq_true] at this
  exact ⟨this.1, fun h => by simpa [h] using this.2⟩

/-- An operation ends in a state with a property. -/
def ends {α : Type} (m : Op α) (s : State) (p : α → State → Bool) : Bool :=
  match reply m s with
  | some (a, t) => p a t
  | none => false
theorem ends_of {α : Type} {m : Op α} {s p} (w : ends m s p = true) : ∃ a t, reply m s = some (a, t) ∧ p a t = true := by
  unfold ends at w
  cases h : reply m s with
  | none => simp [h] at w
  | some x => exact ⟨x.1, x.2, rfl, by simpa [h] using w⟩
theorem ends_ctx {gk s p} (w : ends (localCtx gk) s p = true) : ∃ c, reply (localCtx gk) s = some (c, s) ∧ p c s = true := by
  obtain ⟨c, t, hr, hp⟩ := ends_of w
  obtain ⟨rfl, -, -⟩ := localCtx_fix (reply_some hr)
  exact ⟨c, hr, hp⟩
/-- An operation ends. -/
def done (m : Op Unit) (s : State) : Bool := (reply m s).isSome
theorem leaves_of {m : Op Unit} {s} (w : done m s = true) : ∃ t, s.leaves m t := by
  unfold done at w
  cases h : reply m s with
  | none => simp [h] at w
  | some x => exact ⟨x.2, h⟩

theorem all_of {α : Type} {p : α → Bool} {q : α → Prop} (h : ∀ x, p x = true → q x) {l : List α} (w : l.all p = true) : ∀ x ∈ l, q x :=
  fun x hx => h x (List.all_eq_true.1 w x hx)

/-! Words that compute results -/

def e1 : FWord := ⟨0, .lane 6, .reg (.lane 8 .rotate) .zero .zero 1⟩
def e2 : FWord := ⟨0, .lane 6, .reg (.lane 8 .rotate) (.sreg 4) .zero 1⟩
def e3 : FWord := ⟨0, .lane 6, .reg (.lane 8 .rotate) (.sreg 4) (.lane 6 .keep) 1⟩
def em : FMode := ⟨0, .lane 6, .lane 8 .rotate, 1⟩
/-- One word of every constructor that computes results, with a lane destination, an immediate and a scalar one among them. -/
def laneWords : List Instr :=
  [.iadd true e2, .iadd false ⟨3, .sreg 6, .imm (.sreg 4) .zero 0x1FFFF⟩, .isub false e2, .imul true e2, .imulh true false e2, .imad false e3, .imin true true e2,
   .imax false false e2, .iabs true e1, .idiv true false e2, .irem false true e2, .and true e2, .or false e2, .xor true e2, .andn false e2, .shl true e2, .shr false e2,
   .sar true e2, .rotl false e2, .popc true e1, .clz false e1, .brev true e1, .bfx false true e2, .bfi true e3, .prmt e3, .mov true e1, .movi true 0 (.lane 6) 5,
   .movi false 0 (.sreg 6) 5] ++
  [.movh 0 (.lane 6) (.lane 8 .mirror) 5, .lea true e3, .idx2 e3, .icmp true false e3, .sel true e3, .fadd .d e2, .fsub .h e2, .fmul .bf e2, .ffma .bf2 e3, .fmin .h2 e2,
   .fmax .s e2, .frcp .s e1, .frsq .h e1, .fsqrt .d e1, .fdiv .s e2, .fex2 .d e1, .flg2 .s e1, .fsin .h e1, .fcos .s e1, .fldx .d e2, .frnd .s .ru em, .fcmp .d e3, .fcls .bf2 e1] ++
  [.lshfl e2, .lvote .ballot em, .lvote .count ⟨0, .sreg 6, .lane 8 .ident, 0⟩, .lscan true .fadd true em, .lred false .fmax em, .cvt .f64 .i8 .rz true em,
   .cvts .f32 .e4m3 em (.sreg 4), .qscl .z4 em, .qpk4 e2, .qpk8 true e2, .qunp .e4 e2, .qhad 1 false em (.sreg 4)]
/-- Hypotheses of LaneWordWritesResults, and those of RegisterWordsFrame but for the step. -/
theorem wit_lane : ∀ i ∈ laneWords, ∃ e, Issues base i grp hdr ∧ laneEffect base grp i = some e ∧ base.readable grp e.elems := by
  refine all_of (p := fun i => issuesB base i grp hdr && (match laneEffect base grp i with
    | some e => readableB base grp e.elems
    | none => false)) ?_ (by decide +kernel)
  intro i w
  simp only [Bool.and_eq_true] at w
  obtain ⟨h1, h2⟩ := w
  cases he : laneEffect base grp i with
  | none => simp [he] at h2
  | some e => exact ⟨e, issues_of h1, rfl, readable_of (by simpa [he] using h2)⟩
/-- The frame's hypotheses: such a word, with a lane destination and with a scalar one, leaves a next state; the tables are canonical. -/
theorem wit_frame : ∀ i ∈ laneWords.take 2, ∃ e t, Issues base i grp hdr ∧ laneEffect base grp i = some e ∧ base.readable grp e.elems ∧
    exec i base = .next t ∧ tcanon 0 grp.ctl = true ∧ base.canonical = true := by
  intro i hi
  obtain ⟨e, h1, h2, h3⟩ := wit_lane i (List.mem_of_mem_take hi)
  have key : ((laneWords.take 2).all fun i => match exec i base with
    | .next _ => true
    | _ => false) = true := by decide +kernel
  have := List.all_eq_true.1 key i hi
  cases ht : exec i base with
  | next t => exact ⟨e, t, h1, h2, h3, rfl, by decide +kernel, by decide +kernel⟩
  | fault f => simp [ht] at this
  | refused r => simp [ht] at this

/-- CompareAndSeedWords: compares of both kinds into k0 and k7; QSEED with active lanes and without. -/
theorem wit_compare : ∀ x ∈ ([(.icmpK true false 0 ⟨0, .reg (.lane 8 .keep) (.sreg 4) (.const 3) 0⟩), (.fcmpK .d 7 ⟨0, .reg (.lane 8 .keep) (.sreg 4) (.const 3) 0⟩)] : List Instr),
    ∃ op k o, Issues base x grp hdr ∧ condForm x = some (op, k, o) ∧
      base.readable grp (argElems grp.width op o.args (lanesOf grp.width (base.activeOf grp o.pred.toNat))) := by
  refine all_of (p := fun x => issuesB base x grp hdr && (match condForm x with
    | some (op, _, o) => readableB base grp (argElems grp.width op o.args (lanesOf grp.width (base.activeOf grp o.pred.toNat)))
    | none => false)) ?_ (by decide +kernel)
  intro x w
  simp only [Bool.and_eq_true] at w
  cases hc : condForm x with
  | none => simp [hc] at w
  | some y => exact ⟨y.1, y.2.1, y.2.2, issues_of w.1, rfl, readable_of (by simpa [hc] using w.2)⟩
theorem wit_seed : (Issues base (.qseed 0 (.const 5)) grp hdr ∧ base.activeOf grp 0 ≠ 0) ∧
    Issues base (.qseed 1 (.sreg 4)) grp hdr ∧ base.activeOf grp 1 = 0 :=
  ⟨⟨issues_of (by decide +kernel), by decide +kernel⟩, issues_of (by decide +kernel), by decide +kernel⟩
theorem wit_pair : let h0 : Half := ⟨.fp .ffma .s, 5, 6, 7⟩
    let h1 : Half := ⟨.int .popc false, 8, 10, 0⟩
    Issues base (.pairWord h0 h1) grp hdr ∧
    base.readable grp ((lanesOf grp.width (base.activeOf grp 0)).flatMap fun l => (h0.readRegs ++ h1.readRegs).map fun v => (v.toNat, l)) :=
  ⟨issues_of (by decide +kernel), readable_of (by decide +kernel)⟩
/-- RegisterFileReadsBack: the last element of the last register, and the first of the first. -/
theorem wit_register_file : base.canonical = true ∧ grp.place 0 0 0 ≠ grp.place 0 63 31 ∧ unitsApart grp ∧ 63 < grp.nreg ∧ 31 < grp.width ∧
    grp.place 0 63 31 = grp.place 0 63 31 := by unfold unitsApart; decide +kernel
theorem wit_predicates : grp.width ≤ 128 ∧ tcanon 0 grp.ctl = true ∧ (7 : Nat) ≠ 0 ∧ (7 : Nat) < 8 ∧ (6 : Nat) ≠ 7 := by decide +kernel
theorem wit_reverse : (63 : Nat) < 64 ∧ (31 : Nat) < 32 := by decide
/-- IntegerCompareSelect: each condition code. -/
theorem wit_codes : ∀ x, x < 8 → (BitVec.ofNat 32 x).toNat % 8 = x ∧ (BitVec.ofNat 64 (2 ^ 64 - 8 + x)).toNat % 8 = x := by decide
/-- FloatMinMax: NaN against 1, 1 against 2, 2 against 1, -0 against +0, +0 against -0. -/
theorem wit_minmax : let d := fdec .f32
    (d 0x7FC00000).isNan = true ∧ (d 0x3F800000).isNan = false ∧ (d 0x3F800000).cmp (d 0x40000000) = .lt ∧ (d 0x40000000).cmp (d 0x3F800000) = .gt ∧
    (d 0x80000000).cmp (d 0) = .eq ∧ (d 0x80000000).neg? = true ∧ (d 0).neg? = false ∧ (d 0).cmp (d 0x80000000) = .eq := by decide +kernel

/-! Sweeps -/

def gs : Group := regs [(1, pad 128), (2, pad 0), (3, pad 256)]
def sweepState : State := on gs
def sweepWords : List Instr :=
  [.swadd ⟨0, 0, 1, 2, 3, 2, 8, 8, 8, 0⟩, .swmul ⟨0, 0, 1, 2, 3, 2, 8, 8, 8, 0⟩, .swfma ⟨0, 0, 1, 2, 3, 2, 8, 8, 8, 0⟩, .swmax ⟨0, 0, 1, 2, 3, 2, 8, 8, 8, 0⟩,
   .swmin ⟨0, 0, 1, 2, 3, 2, 8, 8, 8, 0⟩, .swcvt ⟨0, 0, 1, 2, 0, 1, 8, 8, 0, 0⟩, .swexp ⟨0, 0, 1, 2, 3, 1, 8, 8, 8, 0⟩, .swsum ⟨0, 0, 1, 2, 0, 2, 0, 8, 0, 0⟩,
   .swcpy ⟨0, 0, 1, 2, 0, 2, 8, 8, 0, 0⟩, .swset ⟨0, 0, 1, 2, 0, 2, 8, 0, 0, 0⟩]
/-- SweepRunsIterations: each sweep word of two iterations (one for SWCVT and SWEXP), kept outstanding and run to its end. -/
theorem wit_sweep : ∀ i ∈ sweepWords, ∃ op o c z y v t, let x := sweepWork sweepState gs op o
    let n := o.count.toNat
    let u := sweepState.withSweep i gs (sweepState.activeOf gs o.pred.toNat) o.la.toNat x
    let begun : SWork := { x with begun := true, sum := if op = 7 then some z else none }
    Issues sweepState i gs hdr ∧ sweepForm i = some (op, o) ∧ tlook (blkOfGrp sweepState.cur.gk) sweepState.blocks = some blk ∧
    sweepState.activeOf gs o.pred.toNat ≠ 0 ∧ sweepState.cur.only = none ∧
    (∀ f ∈ sweepFeet gs op o, footBad ⟨0, gs.begun i, blk, hdr⟩ (sweepState.begun i gs) f = none ∧ f.base % 16 = 0) ∧
    sweepState.cur.defer = false ∧ (sweepState.core 0).sw = [] ∧ gs.trapping = none ∧ reply (localCtx 0) u = some (c, u) ∧
    ((if op = 7 then segWords (x.d.base, 128) else []).any fun a => c.stale u a 4 0) = false ∧ staleFrom c u x n 0 [] = none ∧
    (op = 7 → segRead c u x.d.base 128 = some z) ∧ sweepRuns 0 n begun (u.sweeping 0 begun) = some (y, v) ∧ v.leaves (sweepDone 0 y) t := by
  refine all_of (p := fun i => match sweepForm i with
    | none => false
    | some (op, o) =>
      let x := sweepWork sweepState gs op o
      let n := o.count.toNat
      let u := sweepState.withSweep i gs (sweepState.activeOf gs o.pred.toNat) o.la.toNat x
      issuesB sweepState i gs hdr && sweepState.activeOf gs o.pred.toNat != 0 &&
      decide (∀ f ∈ sweepFeet gs op o, footBad ⟨0, gs.begun i, blk, hdr⟩ (sweepState.begun i gs) f = none ∧ f.base % 16 = 0) &&
      ends (localCtx 0) u (fun c u => !((if op = 7 then segWords (x.d.base, 128) else []).any fun a => c.stale u a 4 0) && staleFrom c u x n 0 [] == none &&
        (op != 7 || (segRead c u x.d.base 128).isSome) &&
        (let begun : SWork := { x with begun := true, sum := if op = 7 then some ((segRead c u x.d.base 128).getD 0) else none }
        match sweepRuns 0 n begun (u.sweeping 0 begun) with
        | some (y, v) => done (sweepDone 0 y) v
        | none => false))) ?_ (by decide +kernel)
  intro i w
  cases hf : sweepForm i with
  | none => simp [hf] at w
  | some y =>
    obtain ⟨op, o⟩ := y
    simp only [hf, Bool.and_eq_true, bne_iff_ne, decide_eq_true_eq] at w
    obtain ⟨⟨⟨h1, h2⟩, h3⟩, h4⟩ := w
    obtain ⟨c, r1, h4⟩ := ends_ctx h4
    simp only [Bool.and_eq_true, Bool.or_eq_true, bne_iff_ne, Bool.not_eq_true', beq_iff_eq] at h4
    obtain ⟨⟨⟨h5, h6⟩, h7⟩, h8⟩ := h4
    split at h8
    · rename_i y v hr
      obtain ⟨t, ht⟩ := leaves_of h8
      refine ⟨op, o, c, _, y, v, t, issues_of h1, rfl, by decide +kernel, h2, rfl, h3, rfl, rfl, rfl, r1, h5, h6, fun h => ?_, hr, ht⟩
      obtain ⟨z, hz⟩ := Option.isSome_iff_exists.1 (h7.resolve_left (· h))
      simp [hz]
    · cases h8
/-- One that stays outstanding. -/
theorem wit_sweep_waits : ∃ op o, let s : State := { sweepState with cur := { defer := true } }
    Issues s (.swadd ⟨0, 0, 1, 2, 3, 2, 8, 8, 8, 0⟩) gs hdr ∧ sweepForm (.swadd ⟨0, 0, 1, 2, 3, 2, 8, 8, 8, 0⟩) = some (op, o) ∧ s.cur.defer = true :=
  ⟨0, _, issues_of (by decide +kernel), rfl, rfl⟩

/-! Memory words: bases s4 in the scratchpad, s5 in the shared page, s7 in the tile page; an index of zero -/

def gm : Group := regs [(4, pad 64), (5, 0x10040), (7, 0x11080)]
def sm : State := on gm
/-- An M word with a scalar data register and no index. -/
def ms (ord : Ord) (sc : Scope) (data : Reg) (base : BitVec 6) : MWord := ⟨0, 0, ord, sc, 0, data, .sreg base, .const 0, 0⟩
/-- The same by lanes: the data lane register. -/
def ml (ord : Ord) (sc : Scope) (data : BitVec 8) (base : BitVec 6) : MWord := ⟨0, 0, ord, sc, 0, .lane data, .sreg base, .zero, 0⟩

def memB (s : State) (i : Instr) (g : Group) (h : Hdr) (sh : MShape) (o : MWord) : Bool :=
  issuesB s i g h && s.activeOf g o.pred.toNat != 0 && readableB s g (memElems s g sh o)
theorem memGoes_of {s i g h sh o} (x : memB s i g h sh o = true) : MemGoes s i g h sh o := by
  simp only [memB, Bool.and_eq_true, bne_iff_ne] at x
  exact ⟨issues_of x.1.1, x.1.2, readable_of x.2⟩
def waitsB (s : State) (g : Group) (i : Instr) (o : MWord) (v : MVals) : Bool :=
  s.cur.defer || waitsFor (s.begun i g) (coreOfGrp s.cur.gk) (tenantAt s s.cur.gk) g.pend (memPend s g i o v)
theorem waits_iff {s g i o v} : memWaits s g i o v ↔ waitsB s g i o v = true := by simp [memWaits, waitsB]
theorem waits_not {s g i o v} (h : waitsB s g i o v = false) : ¬memWaits s g i o v := by rw [waits_iff, h]; simp

/-- The lanes of a word pass their checks into a state with a property. -/
def passB (s : State) (n : Need) (xs : List (Nat × Nat)) (p : LocalCtx → List Tgt → State → Bool) : Bool :=
  ends (checkLanes n xs) s fun ts u => ends (localCtx u.cur.gk) u fun c u => p c ts u
theorem passes_of {s n xs p} (w : passB s n xs p = true) : ∃ c ts u, passes s c n xs ts u ∧ p c ts u = true := by
  obtain ⟨ts, u, r1, w⟩ := ends_of w
  obtain ⟨c, r2, w⟩ := ends_ctx w
  exact ⟨c, ts, u, Or.inr ⟨r1, r2⟩, w⟩
/-- What a release puts into the clocks. -/
def relB (b : Bool) (c : Nat) (sc : Scope) (s : State) (p : State → Bool) : Bool := ends (if b then releaseCore c sc else pure ()) s fun _ r => p r
theorem rel_of {b c sc s p} (w : relB b c sc s p = true) : ∃ r, (if b = true then s.leaves (releaseCore c sc) r else r = s) ∧ p r = true := by
  obtain ⟨_, r, h, w⟩ := ends_of w
  refine ⟨r, ?_, w⟩
  cases b with
  | true => exact h
  | false => simp [reply] at h; exact h.symm

/-- LoadWritesRegister: from a local space by lanes and once, from the shared page, with an acquire from the tile page, from lane-private memory. -/
def loads : List Instr :=
  [.ld .w false (ms .rlx .group (.sreg 6) 4), .ld .q false (ml .rlx .group 8 4), .ld .b true (ms .rlx .group (.sreg 6) 5),
   .ld .d false (ms .acq .die (.sreg 6) 7), .ldp .h true ⟨0, 0, .rlx, .group, 0, .lane 8, .const 0, .zero, 7⟩]
theorem wit_load : ∀ i ∈ loads, ∃ sh n sx o c ts u, let v := memOperands sm gm sh o
    loadForm i = some (sh, n, sx, o) ∧ MemGoes sm i gm hdr sh o ∧ ¬memWaits sm gm i o v ∧ passes (sm.begun i gm) c n v.pairs ts u ∧
    ∀ t ∈ ts, tgtBad c u n.size t = false := by
  refine all_of (p := fun i => match loadForm i with
    | some (sh, n, _, o) => memB sm i gm hdr sh o && !waitsB sm gm i o (memOperands sm gm sh o) &&
        passB (sm.begun i gm) n (memOperands sm gm sh o).pairs fun c ts u => decide (∀ t ∈ ts, tgtBad c u n.size t = false)
    | none => false) ?_ (by decide +kernel)
  intro i w
  cases hf : loadForm i with
  | none => simp [hf] at w
  | some y =>
    simp only [hf, Bool.and_eq_true, Bool.not_eq_true'] at w
    obtain ⟨c, ts, u, h1, h2⟩ := passes_of w.2
    exact ⟨_, _, _, _, c, ts, u, rfl, memGoes_of w.1.1, waits_not w.1.2, h1, of_decide_eq_true h2⟩
/-- The checks of a load from the shared page and from the scratchpad, as they stand. -/
theorem wit_ready : let c : LocalCtx := ⟨0, gm, blk, hdr⟩
    (∃ r, LanesReady sm c (needLd 4) [(0, 0x10040)] [.virt r]) ∧ LanesReady sm c (needSt 4) [(0, (pad 64).toNat), (1, (pad 68).toNat)] [.loc (pad 64).toNat 0, .loc (pad 68).toNat 1] := by
  refine ⟨⟨⟨0x10040, page 16 1, 0x10040, 0, false, 0⟩, ?_⟩, ?_⟩
  · exact ⟨⟨rfl, rfl⟩, ⟨rfl, grid, rfl, rfl⟩, by decide +kernel, by decide +kernel, by decide +kernel, by decide +kernel, by simp,
      fun h => absurd h (by decide), fun h => absurd h (by decide)⟩
  · refine ⟨⟨rfl, rfl⟩, ⟨rfl, grid, rfl, rfl⟩, by decide +kernel, by decide +kernel, by decide +kernel, by decide +kernel,
      fun h => absurd h (by decide), by simp, by simp⟩

/-- StoreWritesLocations: by lanes into the scratchpad, once into the shared page and the tile page, releasing, into lane-private memory. -/
def stores : List Instr :=
  [.st .w (ml .rlx .group 8 4), .st .q (ms .rel .system (.sreg 6) 5), .st .b (ms .rlx .group (.const 3) 7), .stp .d ⟨0, 0, .rlx, .group, 0, .lane 8, .const 0, .zero, 1⟩]
theorem wit_store : ∀ i ∈ stores, ∃ sh n o c ts r u, let v := memOperands sm gm sh o
    storeForm i = some (sh, n, o) ∧ MemGoes sm i gm hdr sh o ∧ ¬memWaits sm gm i o v ∧
    (if releases o.ord = true then (sm.begun i gm).leaves (releaseCore (coreOfGrp sm.cur.gk) .core) r else r = sm.begun i gm) ∧ passes r c n v.pairs ts u := by
  refine all_of (p := fun i => match storeForm i with
    | some (sh, n, o) => memB sm i gm hdr sh o && !waitsB sm gm i o (memOperands sm gm sh o) && relB (releases o.ord) (coreOfGrp sm.cur.gk) .core (sm.begun i gm) fun r =>
        passB r n (memOperands sm gm sh o).pairs fun _ _ _ => true
    | none => false) ?_ (by decide +kernel)
  intro i w
  cases hf : storeForm i with
  | none => simp [hf] at w
  | some y =>
    simp only [hf, Bool.and_eq_true, Bool.not_eq_true'] at w
    obtain ⟨r, hr, h⟩ := rel_of w.2
    obtain ⟨c, ts, u, h1, -⟩ := passes_of h
    exact ⟨_, _, _, c, ts, r, u, rfl, memGoes_of w.1.1, waits_not w.1.2, hr, h1⟩

/-- AtomicsApplyInLaneOrder: every atomic and RED, in the scratchpad by lanes, in the shared page, acquiring and releasing. -/
def atomWords : List Instr :=
  [.aadd false (ml .rlx .group 8 4), .amin true false (ml .rlx .core 8 4), .amax false true (ml .rlx .quad 8 4), .aand false (ms .acq .die (.sreg 6) 5),
   .aor true (ms .ar .system (.sreg 6) 5), .axor false (ms .rel .pod (.sreg 6) 7), .axch false ⟨0, 0, .rlx, .group, 0, .sreg 6, .sreg 4, .sreg 9, 0⟩,
   .acas true ⟨0, 0, .rlx, .group, 0, .sreg 6, .sreg 4, .sreg 9, 0⟩, .acasQ ⟨0, 0, .rlx, .group, 0, .sreg 10, .sreg 5, .sreg 12, 0⟩, .ainc true (ml .rlx .group 8 4),
   .afadd .bf2 (ml .rlx .group 8 4), .redAdd true (ml .rlx .group 8 4), .redMin false true (ms .rlx .die (.const 3) 5), .redMax true false (ml .rlx .group 8 4),
   .redAnd false (ml .rlx .group 8 4), .redOr true (ml .rlx .group 8 4), .redXor false (ms .rel .die (.sreg 6) 7), .redInc false (ml .rlx .group 8 4),
   .redFadd .d (ml .rlx .group 8 4)]
theorem wit_atomic : ∀ i ∈ atomWords, ∃ a o c ts r u, let v := memOperands sm gm (atomShape a) o
    atomOf i = some (a, o) ∧ MemGoes sm i gm hdr (atomShape a) o ∧ ¬memWaits sm gm i o v ∧
    (if releases o.ord = true then (sm.begun i gm).leaves (releaseCore (coreOfGrp sm.cur.gk) o.scope) r else r = sm.begun i gm) ∧
    passes r c (atomNeed a o) v.pairs ts u ∧ ∀ t ∈ ts, tgtBad c u a.size t = false := by
  refine all_of (p := fun i => match atomOf i with
    | some (a, o) => memB sm i gm hdr (atomShape a) o && !waitsB sm gm i o (memOperands sm gm (atomShape a) o) &&
        relB (releases o.ord) (coreOfGrp sm.cur.gk) o.scope (sm.begun i gm) fun r =>
          passB r (atomNeed a o) (memOperands sm gm (atomShape a) o).pairs fun c ts u => decide (∀ t ∈ ts, tgtBad c u a.size t = false)
    | none => false) ?_ (by decide +kernel)
  intro i w
  cases hf : atomOf i with
  | none => simp [hf] at w
  | some y =>
    simp only [hf, Bool.and_eq_true, Bool.not_eq_true'] at w
    obtain ⟨r, hr, h⟩ := rel_of w.2
    obtain ⟨c, ts, u, h1, h2⟩ := passes_of h
    exact ⟨_, _, c, ts, r, u, rfl, memGoes_of w.1.1, waits_not w.1.2, hr, h1, of_decide_eq_true h2⟩

/-- LocalAtomicReturnsOld: an exchange at the scratchpad's first and last words. -/
theorem wit_local_atomic : ∀ a ∈ [(pad 0).toNat, (pad 4092).toNat], ∃ old t, reply (rmwTgt ⟨0, gm, blk, hdr⟩ .die 4 0 false (fun _ => 5) (.loc a 0)) sm = some (old, t) := by
  refine all_of (p := fun a => ends (rmwTgt ⟨0, gm, blk, hdr⟩ .die 4 0 false (fun _ => 5) (.loc a 0)) sm fun _ _ => true) ?_ (by decide +kernel)
  intro a w
  obtain ⟨x, t, h, -⟩ := ends_of w
  exact ⟨x, t, h⟩

/-- CacheWordsComplete. -/
def lineWords : List Instr := [.pref (ms .rlx .die .zero 5), .pref (ms .rlx .core .zero 7), .wb (ms .rlx .package .zero 5), .inv (ms .rlx .die .zero 4)]
theorem wit_lines : ∀ i ∈ lineWords, ∃ o m c ts u, let v := memOperands sm gm lineShape o
    lineForm i = some (o, m) ∧ MemGoes sm i gm hdr lineShape o ∧ ¬memWaits sm gm i o v ∧
    passes (sm.begun i gm) c ⟨spacesAll, false, false, 1, false, none⟩ v.pairs ts u := by
  refine all_of (p := fun i => match lineForm i with
    | some (o, _) => memB sm i gm hdr lineShape o && !waitsB sm gm i o (memOperands sm gm lineShape o) &&
        passB (sm.begun i gm) ⟨spacesAll, false, false, 1, false, none⟩ (memOperands sm gm lineShape o).pairs fun _ _ _ => true
    | none => false) ?_ (by decide +kernel)
  intro i w
  cases hf : lineForm i with
  | none => simp [hf] at w
  | some y =>
    simp only [hf, Bool.and_eq_true, Bool.not_eq_true'] at w
    obtain ⟨c, ts, u, h1, -⟩ := passes_of w.2
    exact ⟨_, _, c, ts, u, rfl, memGoes_of w.1.1, waits_not w.1.2, h1⟩
/-- An outstanding load of the scratchpad's word 0. -/
def load0 : Pend := { id := 0, pc := 0, slotB := false, mask := 0xFFFFFFFF, instr := .ld .w false (ms .rlx .group (.sreg 6) 4), vals := [], left := 3, spans := [⟨(pad 64).toNat, 4, false⟩] }
theorem wit_fence : ∀ ord ∈ [Ord.acq, .rel, .ar], let o : MWord := ⟨0, 0, ord, .die, 0, .zero, .zero, .zero, 0⟩
    let g : Group := { gm with pend := [load0] }
    (Issues sm (.fence o) gm hdr ∧ sm.activeOf gm 0 ≠ 0 ∧ ¬(sm.cur.defer = true ∨ gm.accessing = true)) ∧
    Issues (on g) (.fence o) g hdr ∧ (on g).activeOf g 0 ≠ 0 ∧ g.accessing = true := by
  refine all_of (p := fun ord => let o : MWord := ⟨0, 0, ord, .die, 0, .zero, .zero, .zero, 0⟩
    let g : Group := { gm with pend := [load0] }
    issuesB sm (.fence o) gm hdr && issuesB (on g) (.fence o) g hdr) ?_ (by decide +kernel)
  intro ord w
  simp only [Bool.and_eq_true] at w
  exact ⟨⟨issues_of w.1, by decide +kernel, by decide +kernel⟩, issues_of w.2, by decide +kernel, by decide +kernel⟩

/-- Words that stay outstanding: because the agenda says so, or for a word before them: an acquiring load behind a store to its bytes. -/
def sd : State := { sm with cur := { defer := true } }
theorem wit_outstanding : (∀ i ∈ loads, ∃ sh n sx o, loadForm i = some (sh, n, sx, o) ∧ MemGoes sd i gm hdr sh o ∧ memWaits sd gm i o (memOperands sd gm sh o)) ∧
    (∀ i ∈ stores, ∃ sh n o, storeForm i = some (sh, n, o) ∧ MemGoes sd i gm hdr sh o ∧ memWaits sd gm i o (memOperands sd gm sh o)) ∧
    (∀ i ∈ atomWords, ∃ a o, atomOf i = some (a, o) ∧ MemGoes sd i gm hdr (atomShape a) o ∧ memWaits sd gm i o (memOperands sd gm (atomShape a) o)) ∧
    ∀ i ∈ lineWords, ∃ o m, lineForm i = some (o, m) ∧ MemGoes sd i gm hdr lineShape o ∧ memWaits sd gm i o (memOperands sd gm lineShape o) := by
  refine ⟨all_of (p := fun i => match loadForm i with
      | some (sh, _, _, o) => memB sd i gm hdr sh o
      | none => false) ?_ (by decide +kernel), all_of (p := fun i => match storeForm i with
      | some (sh, _, o) => memB sd i gm hdr sh o
      | none => false) ?_ (by decide +kernel), all_of (p := fun i => match atomOf i with
      | some (a, o) => memB sd i gm hdr (atomShape a) o
      | none => false) ?_ (by decide +kernel), all_of (p := fun i => match lineForm i with
      | some (o, _) => memB sd i gm hdr lineShape o
      | none => false) ?_ (by decide +kernel)⟩
  · intro i w
    cases hf : loadForm i with
    | none => simp [hf] at w
    | some y => exact ⟨_, _, _, _, rfl, memGoes_of (by simpa [hf] using w), Or.inl rfl⟩
  · intro i w
    cases hf : storeForm i with
    | none => simp [hf] at w
    | some y => exact ⟨_, _, _, rfl, memGoes_of (by simpa [hf] using w), Or.inl rfl⟩
  · intro i w
    cases hf : atomOf i with
    | none => simp [hf] at w
    | some y => exact ⟨_, _, rfl, memGoes_of (by simpa [hf] using w), Or.inl rfl⟩
  · intro i w
    cases hf : lineForm i with
    | none => simp [hf] at w
    | some y => exact ⟨_, _, rfl, memGoes_of (by simpa [hf] using w), Or.inl rfl⟩
/-- A store to the bytes of an outstanding load, and a release, wait for it; another store does not. -/
theorem wit_waits : let g : Group := { gm with pend := [load0] }
    let i := Instr.st .w (ms .rlx .group (.sreg 6) 4)
    let o := ms .rlx .group (.sreg 6) 4
    let s (a : Nat) : State := { on g with cur := { spans := [⟨a, 4, true⟩] } }
    memWaits (s (pad 64).toNat) g i o (memOperands (s (pad 64).toNat) g ⟨4, true, false, false, none, false⟩ o) ∧
    ¬memWaits (s (pad 68).toNat) g i o (memOperands (s (pad 68).toNat) g ⟨4, true, false, false, none, false⟩ o) := by
  refine ⟨waits_iff.2 (by decide +kernel), waits_not (by decide +kernel)⟩

/-- SignalAndWait: a payload by lanes and a flag in the shared page, releasing; WAITLN with timeout 0 and 9 on a line of the tile page. -/
theorem wit_signal : let o : MWord := ⟨0, 0, .ar, .die, 0, .lane 8, .sreg 4, .sreg 5, 0⟩
    let i := Instr.wsig false o
    let v := wsigVals sm gm false o
    let n : Need := ⟨spacesSig, false, true, 4, false, none⟩
    Issues sm i gm hdr ∧ sm.activeOf gm o.pred.toNat ≠ 0 ∧ sm.readable gm (v.lanes.flatMap fun l => regElems 4 l o.data ++ regElems 4 l o.base) ∧
    ¬memWaits sm gm i o v ∧ memWaits sd gm i o v ∧ ∃ c ts fs u w, passes (sm.begun i gm) c n v.pairs ts u ∧
      passes u c { n with reads := true, atom := some o.scope } [(0, baseVal sm sm.cur.gk gm 0 o.index)] fs w ∧ ∀ t ∈ fs, tgtBad c w 4 t = false := by
  have w : (let o : MWord := ⟨0, 0, .ar, .die, 0, .lane 8, .sreg 4, .sreg 5, 0⟩
    let i := Instr.wsig false o
    let v := wsigVals sm gm false o
    let n : Need := ⟨spacesSig, false, true, 4, false, none⟩
    issuesB sm i gm hdr && readableB sm gm (v.lanes.flatMap fun l => regElems 4 l o.data ++ regElems 4 l o.base) && !waitsB sm gm i o v &&
    ends (checkLanes n v.pairs) (sm.begun i gm) (fun ts u => ends (localCtx u.cur.gk) u fun c u =>
      ends (checkLanes { n with reads := true, atom := some o.scope } [(0, baseVal sm sm.cur.gk gm 0 o.index)]) u fun fs w => ends (localCtx w.cur.gk) w fun c' w =>
        c.gk == c'.gk && c.g == c'.g && c.b == c'.b && c.h == c'.h && decide (∀ t ∈ fs, tgtBad c w 4 t = false))) = true := by decide +kernel
  simp only [Bool.and_eq_true, Bool.not_eq_true'] at w
  obtain ⟨⟨⟨h1, h2⟩, h3⟩, h4⟩ := w
  obtain ⟨ts, u, r1, h4⟩ := ends_of h4
  obtain ⟨c, r2, h4⟩ := ends_ctx h4
  obtain ⟨fs, w, r3, h4⟩ := ends_of h4
  obtain ⟨c', r4, h4⟩ := ends_ctx h4
  simp only [Bool.and_eq_true, beq_iff_eq, decide_eq_true_eq] at h4
  obtain ⟨⟨⟨⟨e1, e2⟩, e3⟩, e4⟩, h5⟩ := h4
  obtain rfl : c = c' := by
    cases c; cases c'; simp_all
  exact ⟨issues_of h1, by decide +kernel, readable_of h2, waits_not h3, Or.inl rfl, c, ts, fs, u, w, Or.inr ⟨r1, r2⟩, Or.inr ⟨r3, r4⟩, h5⟩
theorem wit_wait : ∀ n ∈ [(0 : W64), 9], ∃ c u g' t, let o : MWord := { ms .rlx .group (.sreg 6) 7 with index := .zero }
    let i := Instr.waitln o
    let g := gm.setScalar 6 n
    o.data = .sreg 6 ∧ Issues (on g) i g hdr ∧ (on g).activeOf g o.pred.toNat ≠ 0 ∧ g.scalar 6 = n ∧
    passes ((on g).begun i g) c ⟨spacesSig, false, false, 1, false, none⟩ [(0, effAddr (on g) 0 g 0 1 o)] [.virt t] u ∧ tlook u.cur.gk u.groups = some g' := by
  refine all_of (p := fun n => let o : MWord := { ms .rlx .group (.sreg 6) 7 with index := .zero }
    let g := gm.setScalar 6 n
    issuesB (on g) (.waitln o) g hdr && decide ((on g).activeOf g o.pred.toNat ≠ 0) && g.scalar 6 == n &&
    passB ((on g).begun (.waitln o) g) ⟨spacesSig, false, false, 1, false, none⟩ [(0, effAddr (on g) 0 g 0 1 o)] fun _ ts u =>
      (match ts with
      | [.virt _] => true
      | _ => false) && (tlook u.cur.gk u.groups).isSome) ?_ (by decide +kernel)
  intro n w
  simp only [Bool.and_eq_true, beq_iff_eq, decide_eq_true_eq] at w
  obtain ⟨⟨⟨h1, h2⟩, h3⟩, h4⟩ := w
  obtain ⟨c, ts, u, h5, h6⟩ := passes_of h4
  simp only [Bool.and_eq_true] at h6
  obtain ⟨h6, h7⟩ := h6
  obtain ⟨g', hg⟩ := Option.isSome_iff_exists.1 h7
  match ts, h6 with
  | [.virt t], _ => exact ⟨c, u, g', t, rfl, issues_of h1, h2, h3, h5, hg⟩

/-! Tiles: entry 0 of home slice 0, handles to it in s5 -/

def me : Agent := ⟨.group 0, 0, 0⟩
def desc : TileDesc := ⟨0x11000, 4, 2, [16, 4, 1, 1], [64, 0, 0]⟩
def ent : Entry := { desc := desc, tenant := 0, grid := 0, seq := 0, rights := 15, state := .opened }
/-- The entry under the group's tenure. -/
def held (st : TState) : Entry := { ent with state := st, holders := [me], splitter := if st = .splitW ∨ st = .splitR then some me else none }
def gt (r : Nat) : Group := regs [(4, pad 64), (5, BitVec.ofNat 64 (2 ^ 32 + r * 2 ^ 12))]
def st (r : Nat) (es : Tab Entry) : State := { on (gt r) with homes := [(0, { fresh := es.length, entries := es })] }
def mh : MWord := ⟨0, 0, .rlx, .group, 0, .sreg 6, .sreg 5, .zero, 0⟩

def goesB (s : State) (i : Instr) (g : Group) (o : MWord) : Bool := issuesB s i g hdr && s.activeOf g o.pred.toNat != 0 && !g.accessing
theorem goes_of {s i g o} (w : goesB s i g o = true) : HandleGoes s i g hdr o := by
  simp only [goesB, Bool.and_eq_true, bne_iff_ne, Bool.not_eq_true'] at w
  exact ⟨issues_of w.1.1, w.1.2, fun _ => w.2⟩
def namesB (s : State) (g : Group) (o : MWord) (r : Nat × Nat × Entry × Nat) : Bool :=
  agentAt s s.cur.gk == some me && tlook (blkOfGrp s.cur.gk) s.blocks == some blk && openHandle s 0 (baseVal s s.cur.gk g 0 o.base) == some r
theorem names_of {s g o r} (w : namesB s g o r = true) : s.names g o me r := by
  simp only [namesB, Bool.and_eq_true, beq_iff_eq] at w
  exact ⟨w.1.1, blk, w.1.2, w.2⟩
/-- A tile word that does not release takes effect at once; one that does, with the clocks raised. -/
theorem wit_begun : (∀ (s : State) i g, s.tileBegun i g mh (s.begun i g)) ∧ ∀ (s : State) i g, ∃ u, s.tileBegun i g { mh with ord := .ar } u := by
  refine ⟨fun s i g => rfl, fun s i g => ?_⟩
  obtain ⟨cs, qs, h⟩ := releaseCore_run (coreOfGrp s.cur.gk) .quad (s.begun i g)
  refine ⟨{ s.begun i g with cores := cs, quads := qs }, ?_⟩
  show State.leaves _ _ _
  unfold State.leaves reply
  rw [h]

/-- TileQuery: an open entry without rights in the handle, a read tenure held. -/
theorem wit_query : ∀ x ∈ [(0, ent), (15, held .read)], HandleGoes (st x.1 [(0, x.2)]) (.tqry mh) (gt x.1) hdr mh ∧
    (st x.1 [(0, x.2)]).names (gt x.1) mh me (0, 0, x.2, x.1) := by
  refine all_of (p := fun x => goesB (st x.1 [(0, x.2)]) (.tqry mh) (gt x.1) mh && namesB (st x.1 [(0, x.2)]) (gt x.1) mh (0, 0, x.2, x.1)) ?_ (by decide +kernel)
  intro x w
  simp only [Bool.and_eq_true] at w
  exact ⟨goes_of w.1, names_of w.2⟩

/-- TileAcquire: each of its four clauses for both modes (a read is never too large): write, rights, entry, the clause. -/
def acquires' : List (Bool × Nat × Entry × Nat) :=
  [(false, 7, ent, 0), (true, 11, ent, 0), (false, 8, held .read, 1), (true, 4, held .write, 1),
   (true, 4, { ent with desc := ⟨0x11000, 1, 1, [2 ^ 24, 1, 1, 1], [0, 0, 0]⟩ }, 2), (false, 8, ent, 3), (true, 4, ent, 3)]
theorem wit_acquire : ∀ x ∈ acquires', let s := st x.2.1 [(0, x.2.2.1)]
    let g := gt x.2.1
    let i := if x.1 then Instr.tacqW mh else .tacqR mh
    let right := Nat.land x.2.1 (if x.1 then rightWr else rightRd) ≠ 0
    let self' := selfConflict (s.home 0) me 0 x.1 = true
    let large := x.1 = true ∧ bufferSectors + spillSectors s (s.partOf x.2.2.1.tenant) < x.2.2.1.desc.sectors
    HandleGoes s i g hdr mh ∧ s.names g mh me (0, 0, x.2.2.1, x.2.1) ∧
    (x.2.2.2 = 0 → ¬right) ∧ (x.2.2.2 = 1 → right ∧ self') ∧ (x.2.2.2 = 2 → right ∧ ¬self' ∧ large) ∧ (x.2.2.2 = 3 → right ∧ ¬self' ∧ ¬large) := by
  refine all_of (p := fun x => let s := st x.2.1 [(0, x.2.2.1)]
    let g := gt x.2.1
    let i := if x.1 then Instr.tacqW mh else .tacqR mh
    let right : Bool := Nat.land x.2.1 (if x.1 then rightWr else rightRd) ≠ 0
    let self' := selfConflict (s.home 0) me 0 x.1
    let large : Bool := x.1 = true ∧ bufferSectors + spillSectors s (s.partOf x.2.2.1.tenant) < x.2.2.1.desc.sectors
    goesB s i g mh && namesB s g mh (0, 0, x.2.2.1, x.2.1) && (x.2.2.2 != 0 || !right) && (x.2.2.2 != 1 || right && self') &&
    (x.2.2.2 != 2 || right && !self' && large) && (x.2.2.2 != 3 || right && !self' && !large)) ?_ (by decide +kernel)
  intro x w
  simp only [Bool.and_eq_true, Bool.or_eq_true, bne_iff_ne, Bool.not_eq_true', decide_eq_true_eq, decide_eq_false_iff_not] at w
  obtain ⟨⟨⟨⟨⟨h1, h2⟩, h3⟩, h4⟩, h5⟩, h6⟩ := w
  refine ⟨goes_of h1, names_of h2, fun h => h3.resolve_left (· h), fun h => h4.resolve_left (· h), fun h => ?_, fun h => ?_⟩
  · obtain ⟨⟨a, b⟩, c⟩ := h5.resolve_left (· h)
    exact ⟨a, by simp [b], c⟩
  · obtain ⟨⟨a, b⟩, c⟩ := h6.resolve_left (· h)
    exact ⟨a, by simp [b], c⟩

/-- TileRelease: TREL, TJOIN and TCLOSE, each with its two statuses and its effect: word, rights, entries, the clause. -/
def parts2 : Tab Entry := [(0, held .splitW), (1, { held .write with parent := some (0, 0), level := 1 }), (2, { held .write with parent := some (0, 1), level := 1 })]
def other : Agent := ⟨.group 1, 0, 0⟩
def ends' : List (Instr × Nat × Tab Entry × Nat) :=
  [(.trel mh, 15, [(0, ent)], 0), (.trel mh, 8, [(0, held .write)], 1), (.trel mh, 4, [(0, held .write)], 2), (.trel mh, 15, parts2, 0),
   (.tjoin mh, 13, parts2, 3), (.tjoin mh, 2, [(0, held .write)], 4), (.tjoin mh, 2, [(0, { held .splitW with splitter := some other })], 4), (.tjoin mh, 2, parts2, 5),
   (.tclose mh, 14, [(0, ent)], 6), (.tclose mh, 1, parts2, 7), (.tclose mh, 1, [(0, held .write)], 8), (.tclose mh, 1, [(0, { ent with state := .read, holders := [other] })], 7)]
theorem wit_release : ∀ x ∈ ends', let s := st x.2.1 x.2.2.1
    let g := gt x.2.1
    let y := tget ent x.2.2.1 0
    let r := x.2.1
    HandleGoes s x.1 g hdr mh ∧ s.names g mh me (0, 0, y, r) ∧ g.writesTile y.desc = false ∧
    (x.2.2.2 = 0 → ¬(y.holds me = true ∧ y.isSplit = false)) ∧
    (x.2.2.2 = 1 → y.holds me = true ∧ y.isSplit = false ∧ Nat.land r (if y.writes then rightWr else rightRd) = 0) ∧
    (x.2.2.2 = 2 → y.holds me = true ∧ y.isSplit = false ∧ Nat.land r (if y.writes then rightWr else rightRd) ≠ 0) ∧
    (x.2.2.2 = 3 → Nat.land r rightSp = 0) ∧ (x.2.2.2 = 4 → Nat.land r rightSp ≠ 0 ∧ ¬(y.isSplit = true ∧ y.splitter = some me)) ∧
    (x.2.2.2 = 5 → Nat.land r rightSp ≠ 0 ∧ y.isSplit = true ∧ y.splitter = some me) ∧
    (x.2.2.2 = 6 → Nat.land r rightCl = 0) ∧
    (x.2.2.2 = 7 → Nat.land r rightCl ≠ 0 ∧ (y.isSplit || y.holders.any (· != me)) = true) ∧
    (x.2.2.2 = 8 → Nat.land r rightCl ≠ 0 ∧ (y.isSplit || y.holders.any (· != me)) = false) := by
  refine all_of (p := fun x => let s := st x.2.1 x.2.2.1
    let g := gt x.2.1
    let y := tget ent x.2.2.1 0
    let r := x.2.1
    let k (n : Nat) (b : Bool) : Bool := x.2.2.2 != n || b
    goesB s x.1 g mh && namesB s g mh (0, 0, y, r) && !g.writesTile y.desc && k 0 (!decide (y.holds me = true ∧ y.isSplit = false)) &&
    k 1 (decide (y.holds me = true ∧ y.isSplit = false ∧ Nat.land r (if y.writes then rightWr else rightRd) = 0)) &&
    k 2 (decide (y.holds me = true ∧ y.isSplit = false ∧ Nat.land r (if y.writes then rightWr else rightRd) ≠ 0)) &&
    k 3 (decide (Nat.land r rightSp = 0)) && k 4 (decide (Nat.land r rightSp ≠ 0 ∧ ¬(y.isSplit = true ∧ y.splitter = some me))) &&
    k 5 (decide (Nat.land r rightSp ≠ 0 ∧ y.isSplit = true ∧ y.splitter = some me)) &&
    k 6 (decide (Nat.land r rightCl = 0)) && k 7 (decide (Nat.land r rightCl ≠ 0 ∧ (y.isSplit || y.holders.any (· != me)) = true)) &&
    k 8 (decide (Nat.land r rightCl ≠ 0 ∧ (y.isSplit || y.holders.any (· != me)) = false))) ?_ (by decide +kernel)
  intro x w
  simp only [Bool.and_eq_true, Bool.or_eq_true (_ != _), bne_iff_ne, Bool.not_eq_true', decide_eq_true_eq, decide_eq_false_iff_not] at w
  obtain ⟨⟨⟨⟨⟨⟨⟨⟨⟨⟨⟨h, h'⟩, hw⟩, h0⟩, h1⟩, h2⟩, h3⟩, h4⟩, h5⟩, h6⟩, h7⟩, h8⟩ := w
  exact ⟨goes_of h, names_of h', hw, fun h => h0.resolve_left (· h), fun h => h1.resolve_left (· h), fun h => h2.resolve_left (· h), fun h => h3.resolve_left (· h),
    fun h => h4.resolve_left (· h), fun h => h5.resolve_left (· h), fun h => h6.resolve_left (· h), fun h => h7.resolve_left (· h), fun h => h8.resolve_left (· h)⟩

/-- A tile descriptor's eight words (09_tiles_leases.md R234), of elements of 4 bytes, two dimensions, extents 16 and 4, stride 64. -/
def descWords (at' : Nat) : List Nat := [at', 2 + 2 * 256, 16 + 4 * 2 ^ 32, 1 + 2 ^ 32, 64, 0, 0, 0]
/-- The machine with the descriptor at the scratchpad's first granule, which s5 names. -/
def so (at' : Nat) : State :=
  ((descWords at').zipIdx.foldl (fun s x => store (8 * x.2 + 4) (x.1 / 2 ^ 32) (store (8 * x.2) (x.1 % 2 ^ 32) s)) (on (regs [(5, pad 0)])))
def go : Group := regs [(5, pad 0)]
def needDesc : Need := ⟨spacesSig, true, false, 64, false, none⟩
/-- TileOpen's hypotheses, up to what a clause asks of the descriptor's words and of the state after they are read. -/
structure Opens (s : State) (p : List Nat → State → Prop) : Prop where
  goes : HandleGoes s (.topen mh) go hdr mh
  read : ∃ ts c u xs v, passes (s.begun (.topen mh) go) c needDesc [(0, baseVal s s.cur.gk go 0 mh.base)] ts u ∧
    (∀ t ∈ ts, tgtBad c u 64 t = false) ∧ reply (loadAll c 64 0 false ts) u = some (xs, v) ∧
    (∃ g', tlook v.cur.gk v.groups = some g') ∧ tlook (blkOfGrp v.cur.gk) v.blocks = some blk ∧ p (wordsOf (xs.headD 0) 8) v
def openB (s : State) (p : List Nat → State → Bool) : Bool :=
  goesB s (.topen mh) go mh && passB (s.begun (.topen mh) go) needDesc [(0, baseVal s s.cur.gk go 0 mh.base)] (fun c ts u =>
    decide (∀ t ∈ ts, tgtBad c u 64 t = false) && ends (loadAll c 64 0 false ts) u (fun xs v =>
      (tlook v.cur.gk v.groups).isSome && tlook (blkOfGrp v.cur.gk) v.blocks == some blk && p (wordsOf (xs.headD 0) 8) v))
theorem opens_of {s} {q : List Nat → State → Prop} {p} (w : openB s p = true) (h : ∀ d v, p d v = true → q d v) : Opens s q := by
  simp only [openB, Bool.and_eq_true] at w
  refine ⟨goes_of w.1, ?_⟩
  obtain ⟨c, ts, u, h1, w⟩ := passes_of w.2
  simp only [Bool.and_eq_true, decide_eq_true_eq] at w
  obtain ⟨xs, v, r, w'⟩ := ends_of w.2
  simp only [Bool.and_eq_true, beq_iff_eq] at w'
  exact ⟨ts, c, u, xs, v, h1, w.1, r, Option.isSome_iff_exists.1 w'.1.1, w'.1.2, h _ _ w'.2⟩
/-- The pages of the tile are mapped, into a state with a property. -/
def mappedB (d : List Nat) (v : State) (p : List (Nat × Bool) → State → Bool) : Bool :=
  !descBad d && ends (mapTile (Machine.descOf d)) v fun ps w => (tlook w.cur.gk w.groups).isSome && p ps w
def Mapped' (d : List Nat) (v : State) (p : List (Nat × Bool) → State → Prop) : Prop :=
  descBad d = false ∧ ∃ ps w, tileMapped (Machine.descOf d) v w ps ∧ (∃ g', tlook w.cur.gk w.groups = some g') ∧ p ps w
theorem mapped_of {d v} {q : List (Nat × Bool) → State → Prop} {p} (w : mappedB d v p = true) (h : ∀ ps w, p ps w = true → q ps w) : Mapped' d v q := by
  simp only [mappedB, Bool.and_eq_true, Bool.not_eq_true'] at w
  obtain ⟨ps, w', r, hw⟩ := ends_of w.2
  simp only [Bool.and_eq_true] at hw
  exact ⟨w.1, ps, w', Or.inr r, Option.isSome_iff_exists.1 hw.1, h _ _ hw.2⟩
/-- The clauses of TileOpen: a bad descriptor, a tile across 64 MiB, a page of another class, a full directory, an entry taken. -/
theorem wit_open_bad : Opens (so (2 ^ 56)) (fun d _ => descBad d = true) := opens_of (p := fun d _ => descBad d) (by decide +kernel) fun _ _ h => h
theorem wit_open_far : let d := Machine.descOf (descWords 0x3FFFFC0)
    d.base / 2 ^ 26 ≠ ((d.rows.getLast?.getD d.base) + d.rowBytes - 1) / 2 ^ 26 ∧
    Opens { so 0x3FFFFC0 with cores := [(0, { grid := some 0, places := 1, tlb := [⟨0, 0x3FFF, 12, 0x11000, 7, 0x41C, 0⟩, ⟨0, 0x4000, 12, 0x11000, 7, 0x41C, 0⟩] })] }
      (fun e v => e = descWords 0x3FFFFC0 ∧ Mapped' e v fun _ _ => True) := by
  refine ⟨by decide +kernel, ?_⟩
  refine opens_of (p := fun e v => e == descWords 0x3FFFFC0 && mappedB e v fun _ _ => true) (by decide +kernel) ?_
  intro e v w
  simp only [Bool.and_eq_true, beq_iff_eq] at w
  exact ⟨w.1, mapped_of w.2 fun _ _ _ => trivial⟩
theorem wit_open_class : Opens (so 0x10000) (fun d v => Mapped' d v fun ps _ => (ps.any fun p => p.1 != 2 || !p.2) = true) :=
  opens_of (p := fun d v => mappedB d v fun ps _ => ps.any fun p => p.1 != 2 || !p.2) (by decide +kernel) fun _ _ w => mapped_of w fun _ _ h => h
/-- The last clauses' hypotheses: tile pages, the agent, and how many entries are free in slice 0, which the tile's arena is given. -/
def entryB (ps : List (Nat × Bool)) (w : State) (n : Nat) : Bool :=
  !(ps.any fun p => p.1 != 2 || !p.2) && agentAt w w.cur.gk == some me && arenaSlice w (w.partOf 0) 0 0x11000 == 0 && freeCount (w.home 0) == n
theorem entry_of {ps w n} (h : entryB ps w n = true) : (ps.any fun p => p.1 != 2 || !p.2) = false ∧ agentAt w w.cur.gk = some me ∧
    arenaSlice w (w.partOf 0) 0 0x11000 = 0 ∧ freeCount (w.home 0) = n := by
  simp only [entryB, Bool.and_eq_true, beq_iff_eq, Bool.not_eq_true'] at h
  exact ⟨h.1.1.1, h.1.1.2, h.1.2, h.2⟩
theorem wit_open_full : Opens { so 0x11000 with homes := [(0, { fresh := 4096 })] } (fun d v => Mapped' d v fun ps w =>
    (ps.any fun p => p.1 != 2 || !p.2) = false ∧ agentAt w w.cur.gk = some me ∧ arenaSlice w (w.partOf 0) 0 0x11000 = 0 ∧ freeCount (w.home 0) = 0) :=
  opens_of (p := fun d v => mappedB d v fun ps w => entryB ps w 0) (by decide +kernel) fun _ _ w => mapped_of w fun _ _ h => entry_of h
theorem wit_open_taken : Opens (so 0x11000) (fun d v => Mapped' d v fun ps w =>
    (ps.any fun p => p.1 != 2 || !p.2) = false ∧ agentAt w w.cur.gk = some me ∧ arenaSlice w (w.partOf 0) 0 0x11000 = 0 ∧ freeCount (w.home 0) = 4096) :=
  opens_of (p := fun d v => mappedB d v fun ps w => entryB ps w 4096) (by decide +kernel) fun _ _ w => mapped_of w fun _ _ h => entry_of h

/-- TileSplit: its four statuses and the split: rights, entry, entries in use, the clause. -/
def ms2 (off : BitVec 12) : MWord := ⟨0, 0, .rlx, .group, 0, .sreg 6, .sreg 5, .sreg 4, off⟩
def splits : List (Nat × Entry × BitVec 12 × Nat × Nat) :=
  [(13, held .write, 0x10, 1, 0), (15, ent, 0x10, 1, 1), (15, held .splitW, 0x10, 1, 1), (15, held .write, 0x00, 1, 2), (15, held .write, 0x12, 1, 2),
   (15, held .write, 0x21, 1, 2), (15, { held .write with level := 3 }, 0x10, 1, 2), (2, held .read, 0x11, 4095, 3), (15, held .write, 0x11, 4094, 4)]
theorem wit_split : ∀ x ∈ splits, let r := x.1
    let y := x.2.1
    let o := ms2 x.2.2.1
    let s : State := { on (gt r) with homes := [(0, { fresh := x.2.2.2.1, entries := [(0, y)] })] }
    let g := gt r
    let i := Instr.tsplit o
    let dim := bits o.off.toNat 1 0
    let n := bits o.off.toNat 7 4 + 1
    let right := Nat.land r rightSp ≠ 0
    let holds := y.holds me = true ∧ y.isSplit = false
    let bad := n < 2 ∨ y.desc.rank ≤ dim ∨ y.desc.ext.getD dim 1 % n ≠ 0 ∨ 3 ≤ y.level
    HandleGoes s i g hdr o ∧ s.tileBegun i g o (s.begun i g) ∧ ∃ ts c u g',
      passes (s.begun i g) c ⟨spacesSig, false, true, 8, false, none⟩ ((List.range n).map fun i => (0, baseVal s s.cur.gk g 0 o.index + 8 * i)) ts u ∧
      u.cur.gk = s.cur.gk ∧ tlook (blkOfGrp s.cur.gk) u.blocks = some blk ∧ agentAt u s.cur.gk = some me ∧ tlook s.cur.gk u.groups = some g' ∧
      openHandle u 0 (baseVal s s.cur.gk g 0 o.base) = some (0, 0, y, r) ∧ g'.writesTile y.desc = false ∧
      (x.2.2.2.2 = 0 → ¬right) ∧ (x.2.2.2.2 = 1 → right ∧ ¬holds) ∧ (x.2.2.2.2 = 2 → right ∧ holds ∧ bad) ∧
      (x.2.2.2.2 = 3 → right ∧ holds ∧ ¬bad ∧ freeCount (u.home 0) < n) ∧ (x.2.2.2.2 = 4 → right ∧ holds ∧ ¬bad ∧ ¬freeCount (u.home 0) < n) := by
  refine all_of (p := fun x => let r := x.1
    let y := x.2.1
    let o := ms2 x.2.2.1
    let s : State := { on (gt r) with homes := [(0, { fresh := x.2.2.2.1, entries := [(0, y)] })] }
    let g := gt r
    let i := Instr.tsplit o
    let dim := bits o.off.toNat 1 0
    let n := bits o.off.toNat 7 4 + 1
    let right : Bool := Nat.land r rightSp ≠ 0
    let holds : Bool := y.holds me = true ∧ y.isSplit = false
    let bad : Bool := n < 2 ∨ y.desc.rank ≤ dim ∨ y.desc.ext.getD dim 1 % n ≠ 0 ∨ 3 ≤ y.level
    let k (m : Nat) (b : Bool) : Bool := x.2.2.2.2 != m || b
    goesB s i g o && passB (s.begun i g) ⟨spacesSig, false, true, 8, false, none⟩ ((List.range n).map fun i => (0, baseVal s s.cur.gk g 0 o.index + 8 * i))
      (fun _ _ u => u.cur.gk == 0 && tlook (blkOfGrp 0) u.blocks == some blk && agentAt u 0 == some me &&
        ((tlook 0 u.groups).any fun g' => !g'.writesTile y.desc) && openHandle u 0 (baseVal s s.cur.gk g 0 o.base) == some (0, 0, y, r) &&
        k 0 (!right) && k 1 (right && !holds) && k 2 (right && holds && bad) && k 3 (right && holds && !bad && decide (freeCount (u.home 0) < n)) &&
        k 4 (right && holds && !bad && !decide (freeCount (u.home 0) < n)))) ?_ (by decide +kernel)
  intro x w
  simp only [Bool.and_eq_true] at w
  refine ⟨goes_of w.1, rfl, ?_⟩
  obtain ⟨c, ts, u, h1, w⟩ := passes_of w.2
  simp only [Bool.and_eq_true, Bool.or_eq_true, bne_iff_ne, Bool.not_eq_true', decide_eq_true_eq, decide_eq_false_iff_not, beq_iff_eq] at w
  obtain ⟨⟨⟨⟨⟨⟨⟨⟨⟨hk, hb⟩, ha⟩, hg⟩, ho⟩, h0⟩, h1'⟩, h2⟩, h3⟩, h4⟩ := w
  obtain ⟨g', hg', hw⟩ : ∃ g', tlook 0 u.groups = some g' ∧ g'.writesTile x.2.1.desc = false := by
    cases hc : tlook 0 u.groups with
    | none => simp [hc] at hg
    | some g' => exact ⟨g', rfl, by simpa [hc] using hg⟩
  refine ⟨ts, c, u, g', h1, hk, hb, ha, hg', ho, hw, fun h => ?_, fun h => ?_, fun h => ?_, fun h => ?_, fun h => ?_⟩
  · exact h0.resolve_left (· h)
  · exact h1'.resolve_left (· h)
  · exact ⟨(h2.resolve_left (· h)).1.1, (h2.resolve_left (· h)).1.2, (h2.resolve_left (· h)).2⟩
  · obtain ⟨⟨⟨a, b⟩, c⟩, d⟩ := h3.resolve_left (· h)
    exact ⟨a, b, c, d⟩
  · obtain ⟨⟨⟨a, b⟩, c⟩, d⟩ := h4.resolve_left (· h)
    exact ⟨a, b, c, d⟩

/-! Engine and future words -/

/-- Register blocks at s8: CPY of a row, GATH, SCAT, COLL (11_engines_futures.md R302 to R305), between the shared page and the tile page. -/
def blockOf (k : Nat) : Group :=
  let w := match k with
    | 0 => [0x10000, 0x11000, 2 ^ 32 + 64, 0]
    | 3 => [0x10000, 0, 0x11000, 2 ^ 36 + 64]
    | _ => [0x10000, 0x11000, 0x10800, 4 * 2 ^ 24 + 2 * 2 ^ 20 + 4]
  regs (w.zipIdx.map fun x => (8 + x.2, BitVec.ofNat 64 x.1))
def me8 : MWord := ⟨0, 0, .rlx, .group, 0, .sreg 6, .sreg 8, .zero, 0⟩
def engineWords : List (Nat × Instr) := [(0, .cpy me8), (1, .gath me8), (2, .scat me8), (3, .coll me8)]
/-- EngineWordIssuesJob: each engine word, the free list's first slot and, where every slot has been taken, its tail's. -/
theorem wit_engine : ∀ x ∈ engineWords.flatMap fun w => [(w, ({} : Die)), (w, { fresh := 16384, freed := [7, 9] })], ∃ slot,
    let g := blockOf x.1.1
    let s : State := { on g with dies := [(0, x.2)] }
    let y := engineBlock g x.1.1 me8
    let d := s.die 0
    engineForm x.1.2 = some (x.1.1, me8) ∧ Issues s x.1.2 g hdr ∧ tlook (blkOfGrp s.cur.gk) s.blocks = some blk ∧ s.gridOf blk.grid = some grid ∧
    s.activeOf g 0 ≠ 0 ∧ engineAllowed s 0 y ∧ y.bad = none ∧ (ownedEngines s (s.partOf 0) 0 x.1.1).isEmpty = false ∧
    (∀ r ∈ y.ranges, rangeInvalid hdr r.2.1 r.2.2 = false) ∧ (∀ r ∈ y.aligns, r.1 % r.2 = 0) ∧ g.futures < 64 ∧ cardsFull s 0 = false ∧ d.head = some slot := by
  refine all_of (p := fun x => let g := blockOf x.1.1
    let s : State := { on g with dies := [(0, x.2)] }
    let y := engineBlock g x.1.1 me8
    let d := s.die 0
    issuesB s x.1.2 g hdr && d.head.isSome && tlook (blkOfGrp s.cur.gk) s.blocks == some blk && decide (engineForm x.1.2 = some (x.1.1, me8) ∧ s.activeOf g 0 ≠ 0 ∧ s.gridOf 0 = some grid ∧
      ((y.kind = 3 → y.op = 4 → bitOf (s.part (s.partOf 0)).feat 1 = false) ∧ ¬(y.kind = 3 ∧ y.op = 0 ∧ bitOf y.mode 0 = true)) ∧
      y.bad = none ∧ (ownedEngines s (s.partOf 0) 0 x.1.1).isEmpty = false ∧ (∀ r ∈ y.ranges, rangeInvalid hdr r.2.1 r.2.2 = false) ∧
      (∀ r ∈ y.aligns, r.1 % r.2 = 0) ∧ g.futures < 64 ∧ cardsFull s 0 = false)) ?_ (by decide +kernel)
  intro x w
  simp only [Bool.and_eq_true, decide_eq_true_eq, beq_iff_eq] at w
  obtain ⟨⟨⟨h1, h2⟩, hb⟩, h3, h4, h5, h6, h7, h8, h9, h10, h11, h12⟩ := w
  obtain ⟨n, hn⟩ := Option.isSome_iff_exists.1 h2
  exact ⟨n, h3, issues_of h1, hb, h5, h4, h6, h7, h8, h9, h10, h11, h12, hn⟩

def actsB (s : State) (i : Instr) (g : Group) : Bool := issuesB s i g hdr && s.activeOf g (predOf i) != 0
theorem acts_of {s i g} (w : actsB s i g = true) : Acts s i g hdr := by
  simp only [actsB, Bool.and_eq_true, bne_iff_ne] at w
  exact ⟨issues_of w.1, w.2⟩

/-- A handle of slot 5 of die 0 in s5, and the slot with a generation and a value. -/
def handle (v : Nat) : Group := regs [(5, BitVec.ofNat 64 v)]
def live5 : Nat := 2 ^ 63 + 5 * 2 ^ 32 + 3 * 2 ^ 20
def fut (v gen : Nat) (x : Option Nat) : State := { on (handle v) with
  dies := [(0, { slots := [(5, { gen := gen, value := x, free := false })], jobs := [(5, { kind := 0, mode := 0, regs := [0, 0, 0, 0], evict := 0, gk := 0, core := 0, dst := 9, agent := me, tenant := 0, gds := 0, tds := false, num := 0 })] })] }
def futureWords : List Instr := [.ftst mh, .fwt mh, .fcan mh]
/-- FutureWords: a completion value, an expired handle, one whose job has ended, and one whose job goes on; FCAN ends the job. -/
theorem wit_future_value : ∀ i ∈ futureWords, futureForm i = some mh ∧ Acts (fut (2 ^ 63 - 1) 3 none) i (handle (2 ^ 63 - 1)) hdr ∧
    ((handle (2 ^ 63 - 1)).scalar (regNum mh.base)).toNat < 2 ^ 63 := by
  refine all_of (p := fun i => decide (futureForm i = some mh) && actsB (fut (2 ^ 63 - 1) 3 none) i (handle (2 ^ 63 - 1))) ?_ (by decide +kernel)
  intro i w
  simp only [Bool.and_eq_true, decide_eq_true_eq] at w
  exact ⟨w.1, acts_of w.2, by decide +kernel⟩
theorem wit_future_handle : ∀ i ∈ futureWords, futureForm i = some mh ∧ (∀ gen x, (gen, x) ∈ [(4, none), (3, some 7), (3, none)] → Acts (fut live5 gen x) i (handle live5) hdr) := by
  refine all_of (p := fun i => decide (futureForm i = some mh) && ([(4, none), (3, some 7), (3, none)] : List (Nat × Option Nat)).all fun y => actsB (fut live5 y.1 y.2) i (handle live5)) ?_
    (by decide +kernel)
  intro i w
  simp only [Bool.and_eq_true, decide_eq_true_eq] at w
  exact ⟨w.1, fun gen x h => acts_of (List.all_eq_true.1 w.2 (gen, x) h)⟩
theorem wit_future_slot : 2 ^ 63 ≤ ((handle live5).scalar (regNum mh.base)).toNat ∧ foreign (fut live5 3 none) (tenantOf blk.grid) live5 = false ∧
    futureOf (fut live5 4 none) live5 = none ∧ futureOf (fut live5 3 (some 7)) live5 = some (0, 5, some 7) ∧ futureOf (fut live5 3 none) live5 = some (0, 5, none) := by
  decide +kernel
theorem wit_future_cancel : ∃ j, tlook 5 ((fut live5 3 none).die 0).jobs = some j := ⟨_, rfl⟩

/-! Control words -/

def at100 (g : Group) : State := { on g with cur := { pc := 0x100 } }
theorem wit_branch : Issues (at100 grp) (.bra 5) grp hdr ∧ Issues (at100 grp) (.call 4 0xFFFFFFFF) grp hdr ∧ Issues (at100 grp) (.nop 7) grp hdr ∧
    (let g := regs [(4, 0x1F8)]; Issues (at100 g) (.ret 4) g hdr ∧ g.scalar 4 &&& 7 = 0) ∧
    (let g := regs [(4, 0x1FC)]; Issues (at100 g) (.ret 4) g hdr ∧ g.scalar 4 &&& 7 ≠ 0) :=
  ⟨issues_of (by decide +kernel), issues_of (by decide +kernel), issues_of (by decide +kernel), ⟨issues_of (by decide +kernel), by decide +kernel⟩,
    issues_of (by decide +kernel), by decide +kernel⟩
theorem wit_loop : ∀ x ∈ [(0 : W64), 1, 2], Issues (at100 (regs [(4, x)])) (.loopb 4 0) (regs [(4, x)]) hdr :=
  all_of (p := fun x => issuesB (at100 (regs [(4, x)])) (.loopb 4 0) (regs [(4, x)]) hdr) (fun _ => issues_of) (by decide +kernel)

/-- BranchesDiverge: every lane yes, none, lanes that part with the target below and above, lanes that part for one address, and with the last free
entry of the control area. -/
def gp (m : Mask) : Group := { grp.setPred 1 m with a := { grp.a with pc := 0x108 } }
theorem wit_diverge :
    let one (m : Mask) (sp : Nat) (neg : Bool) (off : BitVec 32) (p : Mask → Mask → W64 → Prop) : Prop :=
      let g : Group := { gp m with sp := sp }
      let sl := g.slot false
      let c := if neg then ~~~(g.pred 1) else g.pred 1
      Issues (at100 g) (.brc 1 neg 0x20 off) g hdr ∧ p (sl.mask &&& c) (sl.mask &&& ~~~c) (target 0x100 off) ∧ (g.slot true).mask = 0 ∧ g.sp < 32
    one 0xFFFFFFFF 0 false 5 (fun y n _ => y ≠ 0 ∧ n = 0) ∧ one 0xFFFFFFFF 0 true 5 (fun y n _ => y = 0 ∧ n ≠ 0) ∧
    one 1 31 false 0xFFFFFFFF (fun y n a => y ≠ 0 ∧ n ≠ 0 ∧ a.toNat < 0x108) ∧ one 1 0 true 2 (fun y n a => y ≠ 0 ∧ n ≠ 0 ∧ 0x108 < a.toNat) ∧
    one 1 0 false 1 (fun y n a => y ≠ 0 ∧ n ≠ 0 ∧ a = 0x108) :=
  ⟨⟨issues_of (by decide +kernel), by decide +kernel⟩, ⟨issues_of (by decide +kernel), by decide +kernel⟩, ⟨issues_of (by decide +kernel), by decide +kernel⟩,
    ⟨issues_of (by decide +kernel), by decide +kernel⟩, issues_of (by decide +kernel), by decide +kernel⟩
/-- JTBL of a table of two entries in the scratchpad, each lane taking its parity's. -/
def gj : Group := regs [(4, pad 0)]
def sj : State := fill (store 0 5 (store 4 9 { on gj with cur := { pc := 0x100 } })) 3 (· % 2)
theorem wit_table :
    let i := Instr.jtbl 0 (.lane 3) 4 0x20 2
    let ls := lanesOf gj.width (sj.activeOf gj 0)
    let xs := ls.map fun l => tableIndex sj sj.cur.gk gj l (.lane 3)
    let addrs := xs.map fun (x : Nat) => ((gj.scalar 4).toNat + 4 * x) % 2 ^ 64
    Issues sj i gj hdr ∧ sj.readable gj (ls.flatMap fun l => regElems 4 l (.lane 3)) ∧ (∀ x ∈ xs, x < 2) ∧
    ∃ c ts u, passes (sj.begun i gj) c needTable (ls.zip addrs) ts u ∧ u.cur.gk = sj.cur.gk ∧ ∀ t ∈ ts, tgtBad c u 4 t = false := by
  refine ⟨issues_of (by decide +kernel), readable_of (by decide +kernel), by decide +kernel, ?_⟩
  have w : passB (sj.begun (.jtbl 0 (.lane 3) 4 0x20 2) gj) needTable ((lanesOf gj.width (sj.activeOf gj 0)).zip (((lanesOf gj.width (sj.activeOf gj 0)).map fun l =>
      tableIndex sj sj.cur.gk gj l (.lane 3)).map fun (x : Nat) => ((gj.scalar 4).toNat + 4 * x) % 2 ^ 64))
      (fun c ts u => u.cur.gk == 0 && decide (∀ t ∈ ts, tgtBad c u 4 t = false)) = true := by decide +kernel
  obtain ⟨c, ts, u, h, w⟩ := passes_of w
  simp only [Bool.and_eq_true, beq_iff_eq, decide_eq_true_eq] at w
  exact ⟨c, ts, u, h, w⟩

/-- JoinReconverges: no entry, another entry's word, the last arrival and an earlier one at entry 31. -/
def gjoin (j : Option Nat) (e : DivEntry) : Group := { ({ grp with sp := 32 } : Group).putEntry 31 e with a := { grp.a with join := j } }
theorem wit_join : Issues (at100 (gjoin none ⟨0, 0, none, 0, false⟩)) .join (gjoin none ⟨0, 0, none, 0, false⟩) hdr ∧
    ∀ x ∈ [((0x108 : Nat), 1), (0x100, 1), (0x100, 2)], let g := gjoin (some 31) ⟨x.1, 0xFF, some 3, x.2, false⟩
      Issues (at100 g) .join g hdr ∧ (g.slot false).join = some 31 ∧ (g.entry 31).pc = x.1 ∧ (g.entry 31).pending = x.2 := by
  refine ⟨issues_of (by decide +kernel), all_of (p := fun x => let g := gjoin (some 31) ⟨x.1, 0xFF, some 3, x.2, false⟩
    issuesB (at100 g) .join g hdr && decide ((g.slot false).join = some 31 ∧ (g.entry 31).pc = x.1 ∧ (g.entry 31).pending = x.2)) ?_ (by decide +kernel)⟩
  intro x w
  simp only [Bool.and_eq_true, decide_eq_true_eq] at w
  exact ⟨issues_of w.1, w.2⟩

/-- ExitRemovesLanes: some lanes with no entry, some and all with one, all of the last group. -/
theorem wit_exit : (let g := gp 1
      Acts (at100 g) (.exit 1) g hdr ∧ (g.slot false).join = none ∧ exitEnds g (at100 g).cur ((at100 g).activeOf g 1) none = false) ∧
    (∀ p ∈ [0, 1], let g : Group := { gjoin (some 31) ⟨0x200, 0xFFFFFFFF, none, 2, false⟩ with b := { pc := 0x80, mask := 0xFF00, join := none } }.setPred 1 1
      Acts (at100 g) (.exit p) g hdr ∧ (g.slot false).join = some 31 ∧ g.sp ≤ 32 ∧
      exitEnds g (at100 g).cur ((at100 g).activeOf g p.toNat) (some (g.entry 31)) = false) ∧
    (Acts base (.exit 0) grp hdr ∧ (grp.slot base.cur.slotB).join = none ∧ exitEnds grp base.cur (base.activeOf grp 0) none = true ∧
      NoChain base grp ∧ grp.pend = [] ∧ grp.holds = [] ∧ (base.contribs.any fun e => e.2.gk = base.cur.gk) = false) := by
  refine ⟨⟨acts_of (by decide +kernel), by decide +kernel⟩, ?_, acts_of (by decide +kernel), by decide +kernel, by decide +kernel,
    ⟨by decide +kernel, by decide +kernel⟩, rfl, rfl, by decide +kernel⟩
  intro p hp
  simp only [List.mem_cons, List.not_mem_nil, or_false] at hp
  rcases hp with rfl | rfl
  · exact ⟨acts_of (by decide +kernel), by decide +kernel, by decide +kernel, by decide +kernel⟩
  · exact ⟨acts_of (by decide +kernel), by decide +kernel, by decide +kernel, by decide +kernel⟩

/-- RegionAndCodeWords: IDEM of the last unit, IPREF of 16 lines, ISYNC. -/
theorem wit_region : (Issues base (.idem 0x80) grp hdr ∧ (grp.slot (!base.cur.slotB)).mask = 0 ∧ grp.pend = [] ∧ grp.holds = []) ∧
    Acts base (.ipref 0 15 0x2000) grp hdr ∧ Acts base (.isync 0) grp hdr :=
  ⟨⟨issues_of (by decide +kernel), by decide +kernel, rfl, rfl⟩, acts_of (by decide +kernel), acts_of (by decide +kernel)⟩

/-! Barriers, queues, quotas -/

/-- The block with a second live group, not resident here. -/
def blk2 : Block := { blk with live := [0, 1] }
def s2 : State := { base with blocks := [(0, blk2)] }
/-- BarriersArriveAndWait: each level's last barrier, for the block's only group and for one of two. -/
theorem wit_barrier : ∀ x ∈ [BarLevel.block, .cluster, .die, .package, .pod].flatMap fun l => [(base, blk, l), (s2, blk2, l)],
    tlook (blkOfGrp x.1.cur.gk) x.1.blocks = some x.2.1 ∧ (getBarrier x.1 0 x.2.2.code 15 x.2.1).arrived.contains (barMember x.2.2.code 0 x.2.1) = false ∧
    Acts x.1 (.bara 0 x.2.2 15) grp hdr ∧ Acts x.1 (.bars 0 x.2.2 15) grp hdr ∧ Acts x.1 (.barw 0 x.2.2 15) grp hdr ∧ grp.accessing = false := by
  refine all_of (p := fun x => tlook (blkOfGrp x.1.cur.gk) x.1.blocks == some x.2.1 &&
    !(getBarrier x.1 0 x.2.2.code 15 x.2.1).arrived.contains (barMember x.2.2.code 0 x.2.1) &&
    actsB x.1 (.bara 0 x.2.2 15) grp && actsB x.1 (.bars 0 x.2.2 15) grp && actsB x.1 (.barw 0 x.2.2 15) grp) ?_ (by decide +kernel)
  intro x w
  simp only [Bool.and_eq_true, Bool.not_eq_true', beq_iff_eq] at w
  obtain ⟨⟨⟨⟨h1, h2⟩, h3⟩, h4⟩, h5⟩ := w
  exact ⟨h1, h2, acts_of h3, acts_of h4, acts_of h5, rfl⟩
/-- A group that has arrived at a phase that is not over waits for it. -/
theorem wit_barrier_waits : let b : Block := { blk2 with bars := [(15, { arrived := [0], phase := false })] }
    let s : State := { base with blocks := [(0, b)] }
    tlook (blkOfGrp s.cur.gk) s.blocks = some b ∧ (getBarrier s 0 BarLevel.block.code 15 b).arrived.contains (barMember BarLevel.block.code 0 b) = true ∧
    Acts s (.barw 0 .block 15) grp hdr := ⟨rfl, by decide +kernel, acts_of (by decide +kernel)⟩
theorem wit_phase : let b : Block := { blk with bars := [(15, { arrived := [0], phase := true })] }
    let s : State := { base with blocks := [(0, b)] }
    tlook 0 s.blocks = some b ∧ s.gridOf b.grid = some grid ∧ grid.hdr = some hdr ∧ b.live = [0] ∧ (tget {} b.bars 15).arrived = [0] ∧
    ∀ e ∈ s.groups, e.2.asleep = none := by decide +kernel

/-- A binding of q3: a ring of 2 slots of 16 bytes at the scratchpad's offset 256; one of the quad memory's start. -/
def entryPad : Nat := 4 * 2 ^ 16 + 1 * 2 ^ 10 + 3 * 2 ^ 5
def entryQuad : Nat := 2 ^ 31 + 1 * 2 ^ 10 + 31 * 2 ^ 5
def gq (e : Nat) : Group := { grp with ctl := tput 0 grp.ctl 86 (BitVec.ofNat 64 (2 ^ 63 + e)) }
/-- QueueWords: a push, a pop and a close of a bound ring; the same of an unbound one; QSTAT of both; QBIND of an entry that its space
holds, up to its last byte, and of one beyond. -/
theorem wit_queue : ∀ e ∈ [entryPad, entryQuad], let g := gq e
    let s := on g
    let r := ringOf ((g.binding 3) % 2 ^ 32)
    let m := s.activeOf g 0
    bitOf (g.binding 3) 63 = true ∧ g.accessing = false ∧
    (Acts s (.queuePush 0 3 (.lane 8)) g hdr ∧ s.readable g (((lanesOf g.width m).filter (· < r.size / 4)).flatMap fun l => regElems 4 l (.lane 8))) ∧
    Acts s (.queuePop 0 (.sreg 6) 3) g hdr ∧ Acts s (.qclose 0 3) g hdr ∧ Acts s (.qstat 0 6 3) g hdr ∧ tlook (blkOfGrp s.cur.gk) s.blocks = some blk := by
  refine all_of (p := fun e => let g := gq e
    let s := on g
    let r := ringOf ((g.binding 3) % 2 ^ 32)
    let m := s.activeOf g 0
    bitOf (g.binding 3) 63 && !g.accessing && actsB s (.queuePush 0 3 (.lane 8)) g &&
    readableB s g (((lanesOf g.width m).filter (· < r.size / 4)).flatMap fun l => regElems 4 l (.lane 8)) &&
    actsB s (.queuePop 0 (.sreg 6) 3) g && actsB s (.qclose 0 3) g && actsB s (.qstat 0 6 3) g && tlook (blkOfGrp s.cur.gk) s.blocks == some blk) ?_ (by decide +kernel)
  intro e w
  simp only [Bool.and_eq_true, Bool.not_eq_true', beq_iff_eq] at w
  obtain ⟨⟨⟨⟨⟨⟨⟨h1, h2⟩, h3⟩, h4⟩, h5⟩, h6⟩, h7⟩, h8⟩ := w
  exact ⟨h1, h2, ⟨acts_of h3, readable_of h4⟩, acts_of h5, acts_of h6, acts_of h7, h8⟩
theorem wit_queue_unbound : bitOf (grp.binding 3) 63 = false ∧ ∀ i ∈ [Instr.queuePush 0 3 (.lane 8), .queuePop 0 (.sreg 6) 3, .qclose 0 3, .qstat 0 6 3], Acts base i grp hdr :=
  ⟨by decide +kernel, all_of (p := fun i => actsB base i grp) (fun _ => acts_of) (by decide +kernel)⟩
theorem wit_bind : ∀ x ∈ [(59, false), (60, true)], let g := regs [(4, BitVec.ofNat 64 (x.1 * 2 ^ 16 + 2 ^ 10 + 31 * 2 ^ 5))]
    ∀ y ∈ [QEntry.imm (BitVec.ofNat 32 (x.1 * 2 ^ 16 + 2 ^ 10 + 31 * 2 ^ 5)), .reg 4],
      let entry := match y with
        | .imm z => z.toNat
        | .reg m => (g.scalar m.toNat).toNat % 2 ^ 32
      let ring := ringOf entry
      let far := (if bitOf entry 31 then 4 * hdr.qmem * 16384 else hdr.scratch * 4096) < offOf ring.base + 64 + ring.slots * ring.size
      Acts (on g) (.qbind 0 7 y) g hdr ∧ (x.2 = true → far) ∧ (x.2 = false → ¬far) := by
  refine all_of (p := fun x => let g := regs [(4, BitVec.ofNat 64 (x.1 * 2 ^ 16 + 2 ^ 10 + 31 * 2 ^ 5))]
    [QEntry.imm (BitVec.ofNat 32 (x.1 * 2 ^ 16 + 2 ^ 10 + 31 * 2 ^ 5)), .reg 4].all fun y =>
      let entry := match y with
        | .imm z => z.toNat
        | .reg m => (g.scalar m.toNat).toNat % 2 ^ 32
      let ring := ringOf entry
      actsB (on g) (.qbind 0 7 y) g &&
        decide ((if bitOf entry 31 then 4 * hdr.qmem * 16384 else hdr.scratch * 4096) < offOf ring.base + 64 + ring.slots * ring.size) == x.2) ?_ (by decide +kernel)
  intro x w g y hy
  have h := List.all_eq_true.1 w y hy
  simp only [Bool.and_eq_true, beq_iff_eq] at h
  exact ⟨acts_of h.1, fun hx => of_decide_eq_true (h.2.trans hx), fun hx => of_decide_eq_false (h.2.trans hx)⟩

/-- YieldAndQuota. -/
theorem wit_quota : (∀ n ∈ [(0 : BitVec 16), 65535], Acts base (.yield 0 n) grp hdr) ∧
    (Acts base (.quotaGive 0 7) grp hdr ∧ ∀ x ∈ grp.pend, ∀ r, 8 * (grp.units.length - 7) ≤ r → RKey.v r ∉ x.wr ∧ RKey.v r ∉ x.kept) ∧
    (Acts base (.quotaTake 0 24) grp hdr ∧ tlook 0 base.blocks = some blk) ∧
    (let b : Block := { blk with pool := [128, 144], takes := [(0, 2)] }
      let s : State := { base with blocks := [(0, b)] }
      tlook 0 s.blocks = some b ∧ b.takes = [(0, 2)] ∧ 2 ≤ b.pool.length ∧ tlook 0 s.groups = some grp ∧ grp.asleep = none) :=
  ⟨all_of (p := fun n => actsB base (.yield 0 n) grp) (fun _ => acts_of) (by decide +kernel), ⟨acts_of (by decide +kernel), by simp [show grp.pend = [] from rfl]⟩,
    ⟨acts_of (by decide +kernel), by decide +kernel⟩, by decide +kernel⟩

/-! Traps, special registers, services -/

theorem ready_of {s : State} {g : Group} {e : W64} (w : (g.handler.isNone && (match tlook (blkOfGrp s.cur.gk) s.blocks with
    | some b => (match s.gridOf b.grid with
      | some x => trapEntry? x == some e
      | none => false)
    | none => false) && g.pend.isEmpty && g.asleep.isNone && !(s.contribs.any fun e => e.2.gk = s.cur.gk) && g.chain.isNone) = true) : TrapReady s g e := by
  simp only [Bool.and_eq_true, Bool.not_eq_true', Option.isNone_iff_eq_none, List.isEmpty_iff] at w
  obtain ⟨⟨⟨⟨⟨h1, h2⟩, h3⟩, h4⟩, h5⟩, h6⟩ := w
  refine ⟨h1, ?_, h3, h4, h5, h6⟩
  cases hb : tlook (blkOfGrp s.cur.gk) s.blocks with
  | none => simp [hb] at h2
  | some b => cases hx : s.gridOf b.grid with
    | none => simp [hb, hx] at h2
    | some x => exact ⟨b, x, rfl, hx, by simpa [hb, hx] using h2⟩
/-- The group in its handler, SP 1024 in the frame. -/
def gh : Group := { grp with handler := some 0, ctl := tput 0 grp.ctl 99 (BitVec.ofNat 64 (1024 * 2 ^ 32 + 0xFFFFFFFF)) }
/-- The machine whose grid has no trap entry. -/
def noTrap : Grid := { grid with hdr := some { hdr with trap := 0xFFFFFFFF } }
def sn (g : Group) : State := { on g with queues := [(0, { recs := [grid.record], nextSeq := 1, active := some noTrap })] }
def hdrN : Hdr := { hdr with trap := 0xFFFFFFFF }
/-- TrapAndBreakpoint: TRAP and BKPT enter the handler; BKPT passes after a release, and in a grid without a trap entry. -/
theorem wit_trap : TrapReady base grp 144 ∧ Acts base (.trap 0 7) grp hdr ∧ Acts base (.bkpt 0 7) grp hdr ∧ grp.released = false ∧ debugOn base blk.grid = false ∧
    (let g : Group := { grp with released := true }; Acts (on g) (.bkpt 0 7) g hdr) ∧
    (Acts (sn grp) (.bkpt 0 7) grp hdrN ∧ (sn grp).gridOf blk.grid = some noTrap ∧ trapEntry? noTrap = none ∧ grp.handler = none) :=
  ⟨ready_of (by decide +kernel), acts_of (by decide +kernel), acts_of (by decide +kernel), rfl, by decide +kernel, acts_of (by decide +kernel),
    ⟨issues_of (by decide +kernel), by decide +kernel⟩, by decide +kernel⟩
/-- TakingATrap: outside a handler, in one, without a trap entry. -/
theorem wit_taking : (∀ x ∈ [(base, grp), (on gh, gh), (sn grp, grp)], tlook x.1.cur.gk x.1.groups = some x.2 ∧ tlook (blkOfGrp x.1.cur.gk) x.1.blocks = some blk) ∧
    base.gridOf blk.grid = some grid ∧ TrapReady base grp 144 ∧ gh.handler ≠ none ∧ (sn grp).gridOf blk.grid = some noTrap ∧ trapEntry? noTrap = none ∧ grp.handler = none :=
  ⟨by decide +kernel, by decide +kernel, ready_of (by decide +kernel), by decide +kernel⟩
theorem wit_resume : (gh.handler ≠ none ∧ Acts (on gh) (.resume 0 1) gh hdr ∧ gh.pend = [] ∧ (tget 0 gh.ctl 99).toNat / 2 ^ 32 ≤ 1024) ∧
    (∀ n ∈ [(2 : BitVec 6), 58], Acts (on gh) (.abort 0 n) gh hdr) ∧ grp.handler = none ∧ Issues base (.resume 0 1) grp hdr ∧ Issues base (.abort 0 2) grp hdr :=
  ⟨⟨by decide +kernel, acts_of (by decide +kernel), rfl, by decide +kernel⟩, all_of (p := fun n => actsB (on gh) (.abort 0 n) gh) (fun _ => acts_of) (by decide +kernel),
    rfl, issues_of (by decide +kernel), issues_of (by decide +kernel)⟩
/-- SpecialRegisters: LANEID to lanes and to a scalar register, the first and the last number listed, a number between them that is none, every counter, every
register of WRSR in a handler, and WRSR outside. -/
theorem wit_special : Issues base (.rdsr 0 (.lane 6) 0) grp hdr ∧ Issues base (.rdsr 0 (.sreg 6) 0) grp hdr ∧
    (∀ n ∈ [(1 : BitVec 8), 0x06, 0x08, 0x0E], Issues base (.rdsr 0 (.lane 6) n) grp hdr ∧ (specialReg base 0 grp blk hdr n.toNat).isSome = true) ∧
    (Issues base (.rdsr 0 (.lane 6) 0x07) grp hdr ∧ specialReg base 0 grp blk hdr 0x07 = none) ∧
    (∀ c ∈ [Ctr.cycles, .issued, .sleep, .lclock, .nv, .of, .ic, .sb], Acts base (.rdct 0 6 c) grp hdr) ∧
    (∀ n ∈ [(0x08 : BitVec 8), 0x09, 0x0A, 0x0B], Acts (on gh) (.wrsr 0 n (.const 4)) gh hdr ∧ Acts base (.wrsr 0 n (.const 4)) grp hdr) ∧
    gh.handler ≠ none ∧ grp.handler = none ∧ (sargVal gh (.const 4)).getLsbD 0 = false ∧ (sargVal gh (.const 4)).getLsbD 1 = false := by
  refine ⟨issues_of (by decide +kernel), issues_of (by decide +kernel), all_of (p := fun n => issuesB base (.rdsr 0 (.lane 6) n) grp hdr &&
    (specialReg base 0 grp blk hdr n.toNat).isSome) ?_ (by decide +kernel), ⟨issues_of (by decide +kernel), by decide +kernel⟩,
    all_of (p := fun c => actsB base (.rdct 0 6 c) grp) (fun _ => acts_of) (by decide +kernel),
    all_of (p := fun n => actsB (on gh) (.wrsr 0 n (.const 4)) gh && actsB base (.wrsr 0 n (.const 4)) grp) ?_ (by decide +kernel), by decide +kernel⟩
  · intro n w
    simp only [Bool.and_eq_true] at w
    exact ⟨issues_of w.1, w.2⟩
  · intro n w
    simp only [Bool.and_eq_true] at w
    exact ⟨acts_of w.1, acts_of w.2⟩
/-- ServicesAndLaunch: a service of the tenant, one that is none, PAGESYNC, and a LAUNCH whose record stands in the shared page. -/
theorem wit_service : (∀ n ∈ [(0 : BitVec 16), 0x7FFF, 0x8001, 65535], Acts base (.svc 0 6 4 n) grp hdr) ∧ Acts base (.pagesync 0 6 4) grp hdr ∧ grp.accessing = false :=
  ⟨all_of (p := fun n => actsB base (.svc 0 6 4 n) grp) (fun _ => acts_of) (by decide +kernel), acts_of (by decide +kernel), rfl⟩
def gl : Group := regs [(4, 0x10000)]
def sl : State := fill (on gl) 8 fun l => l / 16
theorem wit_launch : ∀ x ∈ [(Dst.sreg 6, Reg.const 0), (.lane 6, .lane 8)], ∃ c ts u, let i := Instr.launch 0 x.1 4 x.2
    let ls := launchLanes gl.width x.1 x.2 (sl.activeOf gl 0)
    Acts sl i gl hdr ∧ sl.readable gl (ls.flatMap fun l => regElems 4 l x.2) ∧
    passes (sl.begun i gl) c needRecord (ls.map fun l => (l, ((gl.scalar 4).toNat + 64 * indexVal sl sl.cur.gk gl l x.2) % 2 ^ 64)) ts u ∧
    u.cur.gk = sl.cur.gk ∧ tlook sl.cur.gk u.groups = some c.g ∧ c.g.accessing = false ∧ ∀ t ∈ ts, tgtBad c u 64 t = false := by
  refine all_of (p := fun x => let i := Instr.launch 0 x.1 4 x.2
    let ls := launchLanes gl.width x.1 x.2 (sl.activeOf gl 0)
    actsB sl i gl && readableB sl gl (ls.flatMap fun l => regElems 4 l x.2) &&
    passB (sl.begun i gl) needRecord (ls.map fun l => (l, ((gl.scalar 4).toNat + 64 * indexVal sl sl.cur.gk gl l x.2) % 2 ^ 64)) (fun c ts u =>
      u.cur.gk == 0 && tlook 0 u.groups == some c.g && !c.g.accessing && decide (∀ t ∈ ts, tgtBad c u 64 t = false))) ?_ (by decide +kernel)
  intro x w
  simp only [Bool.and_eq_true] at w
  obtain ⟨c, ts, u, h, w'⟩ := passes_of w.2
  simp only [Bool.and_eq_true, beq_iff_eq, Bool.not_eq_true', decide_eq_true_eq] at w'
  exact ⟨c, ts, u, acts_of w.1.1, readable_of w.1.2, h, w'.1.1.1, w'.1.1.2, w'.1.2, w'.2⟩

/-! Matrix words -/

/-- A group of 128 lanes with one active, A in the scratchpad, B and C in a shared page of 64 KiB; rows of A, B and C 16, 64 and 512 bytes apart. -/
def hdr4 : Hdr := { hdr with width := 128 }
def grid4 : Grid := { grid with hdr := some hdr4 }
def gmx (lane : Nat) : Group := { [(8, pad 0), (9, 0x18000), (10, 0x10000), (11, BitVec.ofNat 64 (32 * 2 ^ 40 + 4 * 2 ^ 20 + 1))].foldl
  (fun g x => g.setScalar x.1 x.2) (launchGroup grid4 hdr4 ((List.range 8).map (unitGranules 128 * ·)) { rw := 1, sp := 2 }) with
    a := { grp.a with mask := BitVec.ofNat 128 (2 ^ lane) } }
def bigPage : List Tlb := [⟨0, 1, 16, 0x10000, 7, 512 + 0x1C, 0x10000⟩]
def smx (g : Group) : State := { on g with
  queues := [(0, { recs := [grid.record], nextSeq := 1, active := some grid4 })]
  cores := [(0, { grid := some 0, places := 1, tlb := bigPage })]
  parts := [(0, { own := { quads := [0], l2 := [0], homes := [0], chans := (List.range 16).map (16 + ·), engs := [0, 8, 16] }, tenant := some 0 })] }
def xw (chain : Bool) : XWord := ⟨0, 0, 8, 0, 0, 0, 1, 0, true, false, false, false, chain⟩
/-- The group with an open chain of FP64, and one of BF16 that the word does not continue. -/
def gmChain (lane : Nat) : Group := { gmx lane with chain := some ⟨.d, 0, false, snapDesc (gmx 0) 8, [], 1, []⟩ }
def legalB (d : List Nat) (ab : Bool) : Bool :=
  (!ab || (spacesSig.contains (spaceOf (d.getD 0 0)) && spacesSig.contains (spaceOf (d.getD 1 0)) && d.getD 0 0 % 16 == 0 && d.getD 1 0 % 16 == 0)) &&
  spaceOf (d.getD 2 0) == 0 && bits (d.getD 3 0) 63 60 == 0 && decide (512 ≤ cstrOf d) && cstrOf d % 256 == 0 && d.getD 2 0 % 256 == 0
theorem legal_of {d ab} (w : legalB d ab = true) : DescLegal d ab := by
  simp only [legalB, Bool.and_eq_true, Bool.or_eq_true, Bool.not_eq_true', beq_iff_eq, decide_eq_true_eq] at w
  obtain ⟨⟨⟨⟨⟨h1, h2⟩, h3⟩, h4⟩, h5⟩, h6⟩ := w
  refine ⟨fun h => ?_, h2, ⟨h3, h4, h5⟩, fun h => ?_, h6⟩
  · exact (h1.resolve_left (by simp [h])).1.1
  · exact ⟨(h1.resolve_left (by simp [h])).1.2, (h1.resolve_left (by simp [h])).2⟩
/-- ProductWordsRun: a word that keeps its chain open, one that is delivered, one of a group with an open chain. -/
theorem wit_product : ∀ x ∈ [(true, gmx 127), (false, gmx 127), (true, gmChain 127)], let o := xw x.1
    let g := x.2
    let s := smx g
    let i := Instr.mma .d o
    let y := productWork s g i .d false o
    let c : LocalCtx := ⟨0, g.begun i, blk, hdr4⟩
    Issues s i g hdr4 ∧ tlook (blkOfGrp 0) s.blocks = some blk ∧ s.activeOf g o.pred.toNat ≠ 0 ∧ s.cur.only = none ∧ (s.core 0).mx.length < 8 ∧
    DescLegal y.w.desc true ∧ operandBadAt c (s.begun i g) y.w true = none ∧ operandBadAt c (s.begun i g) y.w false = none ∧
    s.readable g (scaleElems .d o.scale.toNat) ∧ s.cur.defer = false := by
  refine all_of (p := fun x => let o := xw x.1
    let g := x.2
    let s := smx g
    let i := Instr.mma .d o
    let y := productWork s g i .d false o
    let c : LocalCtx := ⟨0, g.begun i, blk, hdr4⟩
    issuesB s i g hdr4 && s.activeOf g o.pred.toNat != 0 && legalB y.w.desc true && decide (operandBadAt c (s.begun i g) y.w true = none) &&
    decide (operandBadAt c (s.begun i g) y.w false = none) && readableB s g (scaleElems .d o.scale.toNat)) ?_ (by decide +kernel)
  intro x w
  simp only [Bool.and_eq_true, bne_iff_ne, decide_eq_true_eq] at w
  obtain ⟨⟨⟨⟨⟨h1, h2⟩, h3⟩, h4⟩, h5⟩, h6⟩ := w
  exact ⟨issues_of h1, rfl, h2, rfl, Nat.zero_lt_succ 7, legal_of h3, h4, h5, readable_of h6, rfl⟩
/-- A word of that group's scratchpad written. -/
def put4 (a x : Nat) (s : State) : State :=
  match ((LocalCtx.mk 0 (gmx 0) blk hdr4).write (pad a).toNat 4 0 x).run s with
  | .ok _ t => t
  | .error _ t => t
/-- R177, R178: 2.0 times 3.0 in row 0, column 5 of the partial. -/
theorem test_exec_product : result (.mma .d (xw true)) { put4 4 0x40000000 (smx (gmx 0)) with mem := [(0x18146, 0x08), (0x18147, 0x40)] }
    (fun t => (((tlook 0 t.groups).bind (·.chain)).map fun c => tget 0 c.elems 5).getD 0) = some 0x4018000000000000 := by decide +kernel

/-! MZERO, MCFG, MRES -/

def xc (kind : BitVec 2) (split : BitVec 5) (rm : Bool) : XCfg := ⟨0, 0, 8, kind, split, rm⟩
/-- A record of C that holds nothing, and one that holds contribution 5. -/
def accRec (held : Tab Nat) : AccRec := ⟨0, 0x10000, 0, 0, 1, 1, 0, 0, held⟩
def cfgs : Tab (List AccRec) → Group → State := fun a g => { smx g with accs := a }
theorem noChain_of {s : State} {g : Group} (w : (g.openChain.isNone && !queuedWorks s s.cur.gk) = true) : NoChain s g := by
  simp only [Bool.and_eq_true, Bool.not_eq_true', Option.isNone_iff_eq_none] at w
  exact ⟨w.1, w.2⟩
/-- The owning slice, and the pieces of an accumulator, as their translation answers. -/
theorem slice_of {s : State} {g : Group} {t caddr : Nat} {w : Bool} {p : Nat → State → Bool} (h : ends (sliceOf caddr w) s p = true) :
    ∃ slice u, sliceFor s g t caddr w slice u ∧ p slice u = true := by
  obtain ⟨slice, u, r, h⟩ := ends_of h
  exact ⟨slice, u, Or.inr r, h⟩
/-- MZERO of row 0 of an FP64 accumulator, without a record and with one. -/
theorem wit_mzero : ∀ a ∈ [[], [(0, [accRec []])]], ∃ slice refs u v,
    let g := gmx 0
    let s := cfgs a g
    let o := xc 1 0 true
    let d := snapDesc g o.desc
    let rows := rowMask g.width (kindRows o.kind.toNat) o.rm (s.activeOf g o.pred.toNat)
    let caddr := d.getD 2 0
    Issues s (.mzero o) g hdr4 ∧ s.activeOf g o.pred.toNat ≠ 0 ∧ NoChain s g ∧ tlook (blkOfGrp 0) s.blocks = some blk ∧ DescLegal d false ∧
    sliceFor (s.begun (.mzero o) g) g 0 caddr true slice u ∧ u.cur.gk = 0 ∧
    accFor u g 0 (rows.flatMap fun r => rowPieces caddr (cstrOf d) r) refs v := by
  refine all_of (p := fun a => let g := gmx 0
    let s := cfgs a g
    let o := xc 1 0 true
    let d := snapDesc g o.desc
    let rows := rowMask g.width (kindRows o.kind.toNat) o.rm (s.activeOf g o.pred.toNat)
    let caddr := d.getD 2 0
    issuesB s (.mzero o) g hdr4 && s.activeOf g o.pred.toNat != 0 && (g.openChain.isNone && !queuedWorks s s.cur.gk) && legalB d false &&
    ends (sliceOf caddr true) (s.begun (.mzero o) g) (fun _ u => u.cur.gk == 0 &&
      ends (xList (fun a => accMap u.cur.gk 0 a false) (rows.flatMap fun r => rowPieces caddr (cstrOf d) r)) u (fun y _ => match y with
      | .ok _ => true
      | .error _ => false))) ?_ (by decide +kernel)
  intro a w
  simp only [Bool.and_eq_true _ (ends _ _ _), Bool.and_eq_true _ (legalB _ _), Bool.and_eq_true _ (_ && !_), Bool.and_eq_true (issuesB _ _ _ _), bne_iff_ne] at w
  obtain ⟨⟨⟨⟨h1, h2⟩, h3⟩, h4⟩, w⟩ := w
  obtain ⟨slice, u, r1, w⟩ := slice_of (g := gmx 0) (t := 0) w
  simp only [Bool.and_eq_true, beq_iff_eq] at w
  obtain ⟨y, v, r2, w'⟩ := ends_of w.2
  cases y with
  | error e => simp at w'
  | ok refs => exact ⟨slice, refs, u, v, issues_of h1, h2, noChain_of h3, rfl, legal_of h4, r1, w.1, Or.inr r2⟩

/-- A record of another address, and 63 of them. -/
def others : List AccRec := (List.range 63).map fun n => { accRec [] with caddr := 0x20000 + 0x10000 * n }
/-- MCFG frees a record and makes one: where none is, in the last of the 64 places, and in the place of the record it had; with S = 2 it names an aligned spill area. -/
theorem wit_mcfg : ∀ x ∈ [(xc 3 0 false, []), (xc 1 0 false, []), (xc 0 31 false, others), (xc 2 0 false, accRec [] :: others)], ∃ slice u,
    let g := (gmx 0).setScalar 8 0x18000
    let s := cfgs (if x.2.isEmpty then [] else [(0, x.2)]) g
    let o := x.1
    let d := snapDesc g o.desc
    let caddr := d.getD 2 0
    Issues s (.mcfg o) g hdr4 ∧ s.activeOf g o.pred.toNat ≠ 0 ∧ NoChain s g ∧ tlook (blkOfGrp 0) s.blocks = some blk ∧
    (o.kind = 3 ∨ o.split.toNat + 1 < 2 ∨ spaceOf (d.getD 0 0) = 0 ∧ d.getD 0 0 % 256 = 0) ∧
    sliceFor (s.begun (.mcfg o) g) g 0 caddr false slice u ∧ u.cur.gk = 0 ∧ (recAt u slice 0 caddr).any (fun r => !r.held.isEmpty) = false ∧
    (o.kind ≠ 3 → ((recAt u slice 0 caddr).isSome = true ∨ (recsAt u slice).length < 64) ∧ tlook (blkOfGrp 0) u.blocks = some blk ∧ u.gridOf blk.grid = some grid4) := by
  refine all_of (p := fun x => let g := (gmx 0).setScalar 8 0x18000
    let s := cfgs (if x.2.isEmpty then [] else [(0, x.2)]) g
    let o := x.1
    let d := snapDesc g o.desc
    let caddr := d.getD 2 0
    issuesB s (.mcfg o) g hdr4 && (g.openChain.isNone && !queuedWorks s s.cur.gk) && decide (s.activeOf g o.pred.toNat ≠ 0 ∧
      (o.kind = 3 ∨ o.split.toNat + 1 < 2 ∨ spaceOf (d.getD 0 0) = 0 ∧ d.getD 0 0 % 256 = 0)) &&
    ends (sliceOf caddr false) (s.begun (.mcfg o) g) (fun slice u => decide (u.cur.gk = 0 ∧ (recAt u slice 0 caddr).any (fun r => !r.held.isEmpty) = false ∧
      (o.kind ≠ 3 → ((recAt u slice 0 caddr).isSome = true ∨ (recsAt u slice).length < 64) ∧ tlook (blkOfGrp 0) u.blocks = some blk ∧ u.gridOf blk.grid = some grid4)))) ?_
    (by decide +kernel)
  intro x w
  simp only [Bool.and_eq_true _ (ends _ _ _), Bool.and_eq_true _ (decide _), Bool.and_eq_true (issuesB _ _ _ _), decide_eq_true_eq] at w
  obtain ⟨⟨⟨h1, h2⟩, h3⟩, w⟩ := w
  obtain ⟨slice, u, r1, w⟩ := slice_of (g := (gmx 0).setScalar 8 0x18000) (t := 0) w
  simp only [decide_eq_true_eq] at w
  exact ⟨slice, u, issues_of h1, h3.1, noChain_of h2, by split <;> rfl, h3.2, r1, w.1, w.2.1, w.2.2⟩
/-- MRES with nothing to go on with, and with the last row, and none, of a saved FP64 word to do. -/
def xr : XWord := { xw true with rm := false, desc := 0 }
def gr : Group := { gmx 0 with rowprog := BitVec.ofNat 64 (2 ^ 63 + XFmt.d.code * 2 ^ 48 + 64 * 2 ^ 32), mx := { chain := some ⟨.d, 0, false, snapDesc (gmx 0) 8, [], BitVec.ofNat 128 (2 ^ 64 - 1), []⟩ } }
theorem wit_mres : (let g := gmx 0
      Issues (smx g) (.mres false xr) g hdr4 ∧ (smx g).activeOf g 0 ≠ 0 ∧ g.rowprog.getLsbD 63 = false) ∧
    Issues (smx gr) (.mres false xr) gr hdr4 ∧ (smx gr).activeOf gr 0 ≠ 0 ∧ tlook (blkOfGrp 0) (smx gr).blocks = some blk ∧ gr.rowprog.getLsbD 63 = true ∧
      xfmtOf (bits gr.rowprog.toNat 55 48) = some .d ∧ ((smx gr).part ((smx gr).partOf 0)).feat = 0 ∧ XWord.wf .d false { xr with scale := 0 } = true ∧
      ((smx gr).core 0).mx.length < 8 ∧ ∃ ch u, reply (restoreMatrix 0 .d) ((smx gr).begun (.mres false xr) gr) = some (ch, u) := by
  refine ⟨⟨issues_of (by decide +kernel), by decide +kernel⟩, issues_of (by decide +kernel), by decide +kernel, rfl, by decide +kernel, by decide +kernel, by decide +kernel,
    by decide +kernel, by decide +kernel, ?_⟩
  obtain ⟨ch, u, h, -⟩ := ends_of (m := restoreMatrix 0 .d) (s := (smx gr).begun (.mres false xr) gr) (p := fun _ _ => true) (by decide +kernel)
  exact ⟨ch, u, h⟩

/-! Beam words -/

/-- A call with an allowance, on a Lantern of a machine in which Mooring word 0 of the window holds 7. -/
def call (allow : Nat) (loops : List (Nat × Nat)) : Call := { routine := [0], regs := [], loops := loops, allow := allow, winlog := 4 }
def sb (k : Call) : State := { base with lanterns := [(0, { call := some k })] }
/-- BeamWordsCompute: a call that the allowance covers and one that it does not, at each cost; no loop open, one with a pass left, one with two; Mooring readable. -/
theorem wit_beam : (∀ n ∈ [(1 : Nat), 4, 12], ∀ l ∈ [[], [(0, 1)], [(0, 2), (5, 3)]], ∀ a ∈ [n, n - 1],
      ((sb (call a l)).lantern (sb (call a l)).cur.lan).call = some (call a l) ∧ (call a l).ended = 0 ∧ ((call a l).charge + n ≤ a ∨ a < (call a l).charge + n)) ∧
    (call 1 []).loops = [] ∧ (call 1 [(0, 1)]).loops = [(0, 1)] ∧ (sb (call 12 [])).poison.moor.contains ((call 12 []).moorWord 0 (.imm 15)) = false := by decide +kernel
/-- BeamWordsRoundTrip: words at the ends of their fields. -/
theorem wit_beam_words : ∀ i ∈ [Instr.beamAdd 0 15 (.imm 0x1FFFF), .beamLdi 15 0x3FFFFF, .beamJf 0xFF, .beamRet, .beamMwr 15 0 (.reg 15)], i.wf = true ∧ (encodeBeam i).isSome = true := by
  decide +kernel

/-! Events of groups, cores and blocks -/

/-- The state an instruction leaves. -/
def next (i : Instr) (s : State) : State :=
  match exec i s with
  | .next t => t
  | _ => s
def wst : MWord := ⟨0, 2, .rlx, .group, 0, .sreg 6, .sreg 4, .zero, 0⟩
/-- A store to the shared page that stays outstanding, and a load that follows it. -/
def held1 : State := next (.st .w wst) { on (regs [(4, 0x10000), (6, 5)]) with cur := { defer := true } }
def asleep (w : Wait) : Group := { grp with asleep := some ⟨w, 0⟩ }
def at' (n : Nat) (s : State) : State := { s with cycle := n }
/-- TRAP_ENTRY of a group that is quiet and of one with an outstanding word; the outstanding word performed. -/
theorem wit_trap_entry : let g : Group := { grp with trapping := some ({ cause := 0x10 }, []) }
    let g2 : Group := { g with pend := [{ id := 0, pc := 0, slotB := false, mask := 1, instr := .st .w wst, vals := [], left := 0 }] }
    (∀ h ∈ [g, g2], tlook 0 (on h).groups = some h ∧ h.trapping = some ({ cause := 0x10 }, [])) ∧ (on g).gridOf 0 = some grid ∧ trapEntry? grid = some 144 ∧
    quiet (on g) 0 g = true ∧ g.chain = none ∧ quiet (on g2) 0 g2 = false := by decide +kernel
theorem wit_complete : ∃ g p m, tlook 0 held1.groups = some g ∧ (∀ d a n z, g.asleep ≠ some ⟨.reply d a n, z⟩) ∧ (g.pend.find? fun p => p.id = 0) = some p ∧
    pendOp p = some m ∧ g.performs = true ∧ p.fin = false ∧ waitsFor held1 (coreOfGrp 0) (tenantAt held1 0) (earlierPend g p.id) p = false ∧
    ∃ v, { held1 with cur := { gk := 0, slotB := p.slotB, pc := p.pc, act := p.mask, wasOpen := g.regionOpen, held := true } }.leaves m v := by
  have w : (match tlook 0 held1.groups with
    | none => false
    | some g => g.asleep.isNone && (match g.pend.find? fun p => p.id = 0 with
      | none => false
      | some p => g.performs && !p.fin && !waitsFor held1 (coreOfGrp 0) (tenantAt held1 0) (earlierPend g p.id) p && (match pendOp p with
        | none => false
        | some m => done m { held1 with cur := { gk := 0, slotB := p.slotB, pc := p.pc, act := p.mask, wasOpen := g.regionOpen, held := true } }))) = true := by
    decide +kernel
  cases hg : tlook 0 held1.groups with
  | none => simp [hg] at w
  | some g =>
    simp only [hg, Bool.and_eq_true, Option.isNone_iff_eq_none] at w
    obtain ⟨ha, w⟩ := w
    cases hp : g.pend.find? fun p => p.id = 0 with
    | none => simp [hp] at w
    | some p =>
      simp only [hp, Bool.and_eq_true, Bool.not_eq_true'] at w
      obtain ⟨⟨⟨h1, h2⟩, h3⟩, w⟩ := w
      cases hm : pendOp p with
      | none => simp [hm] at w
      | some m =>
        simp only [hm] at w
        exact ⟨g, p, m, rfl, by simp [ha], hp, hm, h1, h2, h3, leaves_of w⟩
/-- A group that yields. A reply of a service; YIELD before and at its end; WAITLN at its time; a debug stop. -/
def yielding : Group := { grp with yieldTill := 64 }
theorem wit_event_waits : (0 : Nat) < 0x8000 ∧ (∀ g ∈ [asleep (.reply 6 0 0x7FFF), asleep (.line 512 false 6 100 0 512), asleep .debug, yielding], tlook 0 (on g).groups = some g) ∧
    (100 : Nat) ≤ (at' 100 (on (asleep (.line 512 false 6 100 0 512)))).cycle ∧ yielding.yieldTill ≠ 0 ∧ yielding.yieldTill ≤ (at' 64 (on yielding)).cycle ∧
    (at' 63 (on yielding)).cycle < yielding.yieldTill ∧ ∀ z, yielding.asleep ≠ some ⟨.debug, z⟩ := by
  refine ⟨by decide, by decide +kernel, by decide +kernel, by decide +kernel, by decide +kernel, by decide +kernel, by intro z; simp [yielding, grp, launchGroup]⟩
/-- CORE_CLOCK_GATE at the sixteenth cycle, BLOCK_RELEASE with and without a time, the deadline of a pre-emption, an arrival. -/
theorem wit_core_gate : 1407 < cores ∧ ((at' 16 base).core 1407).gated = false ∧ ((at' 16 base).core 1407).idle + 16 ≤ (at' 16 base).cycle ∧
    atWork (at' 16 base) 1407 = false := by decide +kernel
theorem wit_block_release : (∀ r ∈ [none, some 5], ∀ n, r = some n → n ≤ (at' 5 base).cycle) ∧
    let p : Preempt := ⟨10, false⟩
    let b : Block := { blk with preempt := some p }
    let s : State := { at' 100010 base with blocks := [(0, b)] }
    tlook 0 s.blocks = some b ∧ p.since + max 1 (pdWdog s (s.partOf (tenantOf b.grid))) ≤ s.cycle := by
  refine ⟨by simp [at'], by decide +kernel⟩
def parcel : Contrib := { gk := 0, tenant := 0, chain := ⟨.d, 0, false, snapDesc (gmx 0) 8, [], 1, [(5, 0x4018000000000000)]⟩ }
theorem wit_arrival : let s : State := { smx (gmx 0) with contribs := [(3, parcel)] }
    tlook 3 s.contribs = some parcel ∧ tlook parcel.gk s.groups = some (gmx 0) ∧ parcel.stuck = none ∧ parcel.held = false := by decide +kernel
/-! Clocks, floors, ageing, scrubbers -/

/-- LOGICAL_CLOCK_TICK at 1,024 cycles and before; a floor at 4,096; a sector below the floor and one at it; a granule that no allocation covers, one that
the group's control area covers, and the last of a store; a die's end. -/
theorem wit_clocks : (at' 1024 base).dev.ticks < (at' 1024 base).cycle / 1024 ∧ (at' 1023 base).cycle / 1024 ≤ (at' 1023 base).dev.ticks ∧
    (at' 4096 base).dev.floors < (at' 4096 base).cycle / 4096 := by decide +kernel
def aged (r : Nat) : State := { base with sects := [(9, ⟨r, r, 0⟩)], dev := { base.dev with floors := 1, floor := 9000 } }
theorem wit_ageing : (∀ r ∈ [807, 808], tlook 9 (aged r).sects = some ⟨r, r, 0⟩ ∧ (aged r).dev.floors ≠ 0) ∧ earlier 807 (floorOf (aged 807).floorM) = true ∧
    earlier 808 (floorOf (aged 808).floorM) = false := by decide +kernel
def tagged (n tag : Nat) : State := { base with store := [(n, ⟨tag, 0⟩)], cores := [(0, { grid := some 0, places := 1, scrub := n })] }
theorem wit_scrub : (∀ x ∈ [((Config.granulesPerCore - 1, 5) : Nat × Nat), (0, 1), (0, 9), (0, 0)],
      (((tget Granule.clean (tagged x.1 x.2).store x.1).tag ≠ 0 ∧ ((coverOf (tagged x.1 x.2) 0 x.1).any fun y => y.1 = x.2) = false) ↔ x.2 = 5 ∨ x.2 = 9)) ∧
    (base.dstore.find? fun e => e.1 / 2 ^ 40 = 7 && (base.die 7).scrub ≤ e.1 % 2 ^ 40) = none ∧ 7 < Config.dies := by decide +kernel

/-! Pages and faults -/

/-- Tables at 0x2000 (stage 2) and 0x8000 (stage 1) that map the first GiB to itself, the stage-1 leaf with the class given. -/
def tables (cls : Nat) : List Host.Cell :=
  [(0x2000, 0x4003, 0), (0x4000, 0x6003, 0), (0x6000, 0x1D, 0x1C), (0x8000, 0xA003, 0), (0xA000, 0xC003, 0), (0xC000, 0x1D, 512 * cls + 0x1C)].foldl
    (fun m e => wrBytes (wrBytes m 8 e.1 e.2.1) 8 (e.1 + 8) e.2.2) []
def paged (cls : Nat) : State := { base with mem := tables cls, regs := [(0xD000, 0x8000), (1024 * 2 ^ 20 + 0x80008, 0x2000)] }
/-- R411 to R414, R418: both stages map 0x10000 to itself; without tables stage 2 fails on the table read. -/
theorem test_walk : (match walkBoth (paged 1) 0 0x10000 with
    | .ok (e, _, _) => e.phys 0x10000 = 0x10000 && e.cls = 1 && e.perm = 7
    | .error _ => false) = true ∧ (match walkBoth base 0 0x10000 with
    | .ok _ => false
    | .error f => decide (f = ⟨true, 0, 0, true⟩)) = true := by decide +kernel
def moving (cls : Nat) : State := { paged cls with dev := { base.dev with moving := [(0, 16)] } }
/-- PAGE_RECLASSIFY of a page in motion, with its leaf and without tables. -/
theorem wit_reclassify : ∀ s ∈ [moving 3, { moving 3 with mem := [] }], (0, 0x10000 / 4096) ∈ s.dev.moving ∧ pageBusy s 0 (0x10000 / 4096) = false := by decide +kernel
/-- PAGE_SYNC_SWEEP of a mapped page and of one that no table maps. -/
def syncing : State := { paged 1 with groups := [(0, asleep (.reply 6 0x10000 0x8000))], dev := { base.dev with syncs := [(0, 16, 0)] } }
theorem wit_sync : ∀ s ∈ [syncing, { syncing with mem := [] }], s.dev.syncs[0]? = some (0, 16, 0) := by decide +kernel
/-- TABLE_WALK: a page found, and a fault at the highest die, tenant and address, with the fault queue full. -/
def full : State := { base with fns := [(pfn, { fqTail := 16 })] }
theorem wit_walk : (∃ e t, 0 < Config.dies ∧ reply (xlate 0 none 0 0x10000) (paged 1) = some (.ok e, t)) ∧
    ∃ f t, 7 < Config.dies ∧ 1023 < 1024 ∧ 2 ^ 56 - 1 < 2 ^ 56 ∧ reply (xlate 7 none 1023 (2 ^ 56 - 1)) full = some (.bad f, t) := by
  have w1 : ends (xlate 0 none 0 0x10000) (paged 1) (fun r _ => match r with
    | .ok _ => true
    | _ => false) = true := by decide +kernel
  have w2 : ends (xlate 7 none 1023 (2 ^ 56 - 1)) full (fun r _ => match r with
    | .bad _ => true
    | _ => false) = true := by decide +kernel
  obtain ⟨r, t, h1, w1⟩ := ends_of w1
  obtain ⟨q, v, h2, w2⟩ := ends_of w2
  constructor
  · cases r with
    | ok e => exact ⟨e, t, by decide, h1⟩
    | bad f => simp at w1
    | wait => simp at w1
  · cases q with
    | ok e => simp at w2
    | wait => simp at w2
    | bad f => exact ⟨f, v, by decide, by decide, by decide, h2⟩
/-- Invalidations: room for the sixty-fourth, none for the next; the oldest completes; a fault and a page request answered. -/
def invs (f n m : Nat) : State := { base with fns := [(f, { invals := List.replicate m (n, 16, 15) })] }
theorem wit_invalidate : (invSize (bits (0xF00 : W64).toNat 11 8)).isSome = true ∧ (invs pfn 1023 63).dev.state = 4 ∧ ((invs 1023 1023 63).fn 1023).tdisp ≠ 3 ∧
    (∀ f ∈ [1023, pfn], (((invs f 1023 63).fn f).invals.filter fun i => i.1 = 1023).length < 64 ∧ 64 ≤ (((invs f 1023 64).fn f).invals.filter fun i => i.1 = 1023).length) ∧
    ∀ f ∈ [0, pfn], ((invs f 0 2).fn f).invals = (0, 16, 15) :: [(0, 16, 15)] ∧ accessThrough (invs f 0 2) (Tlb.matches (f = pfn) 0 16 15) = false := by decide +kernel
def faulty (f : Nat) : State := { base with fns := [(f, { faults := [⟨9, 0, 16, 0⟩] })], groups := [(0, asleep (.fault f 9 16))] }
theorem wit_answers : (∀ f ∈ [0, pfn], f ≤ pfn ∧ (faulty f).dev.state = 4 ∧ ((faulty f).fn f).tdisp ≠ 3 ∧ ((faulty f).fn f).faults.any (fun y => y.id = 9) = true) ∧
    let s : State := { base with groups := [(0, asleep (.fault hostFn 3 16))], dev := { base.dev with pri := [(3, 16)], absent := [16] } }
    (s.dev.pri.find? fun x => x.1 = 3) = some (3, 16) := by decide +kernel
/-! Jobs -/

/-- A copy between the shared page and the tile page, on its way; with its footprint taken; on an engine. -/
def job (r : List Nat) : Job := { kind := 0, mode := 0, regs := r, evict := 0, gk := 0, core := 0, dst := 9, agent := me, tenant := 0, gds := 0, tds := false, num := 0 }
def rowJob : Job := job [0x10000, 0x11000, 2 ^ 32 + 64, 0]
def tileJob : Job := { job [2 ^ 62, 2 ^ 62, 2 ^ 32 + 64, 0] with mode := 0xF }
def jobs (j : Job) : State := { base with dies := [(0, { jobs := [(5, j)] })] }
/-- JOB_CARD_ARRIVAL; JOB_DISPATCH of rows, of stale handles and of a bad card; JOB_END with each status. -/
theorem wit_arrive : tlook 5 ((jobs rowJob).die 0).jobs = some rowJob ∧ rowJob.arrived = none ∧ cardsFull (jobs rowJob) 0 = false ∧
    (((jobs rowJob).die 0).jobs.any fun k => k.2.gk = rowJob.gk && k.2.arrived.isNone && decide (k.2.num < rowJob.num)) = false := by decide +kernel
theorem wit_dispatch : ∀ j ∈ [{ rowJob with arrived := some 0 }, { rowJob with arrived := some 0, stale := true }, { job [0x10001, 0x11000, 2 ^ 32 + 64, 0] with arrived := some 0 }],
    tlook 5 ((jobs j).die 0).jobs = some j ∧ jobReady (jobs j) 0 j = true ∧ (ownedEngines (jobs j) 0 0 j.kind).contains (20 * 0 + 0) = true ∧
    (((jobs j).die 0).jobs.any fun k => k.2.engine = some 0) = false ∧
    (((jobs j).die 0).jobs.any fun k => jobReady (jobs j) 0 k.2 && (enginesOf k.2.kind).1 = (enginesOf j.kind).1 &&
      (jobs j).partOf k.2.tenant = 0 && decide (k.2.arrived.getD 0 < j.arrived.getD 0)) = false := by decide +kernel
theorem wit_job_end : ∀ n ∈ [0, jsStale, jsBadCard, jsCancelled], let j : Job := { rowJob with arrived := some 0, engine := some 0, status := some n }
    tlook 5 ((jobs j).die 0).jobs = some j ∧ j.status = some n := by decide +kernel
/-! Queues -/

/-- Headers at 0x10000 (valid, no fallback), 0x10080 (for stepping A0, with a fallback), 0x10100 (clusters of 2), 0x10180 (none), 0x10200 (as the second,
without a fallback); a launch record at 0x10400. -/
def header (m : List Host.Cell) (a cluster step fb : Nat) : List Host.Cell :=
  [(0, 4, 0x5A4B4844), (4, 2, 1), (6, 1, 1), (7, 1, 8), (8, 2, 1), (0xA, 1, cluster), (0x28, 4, step), (0x2C, 4, fb)].foldl (fun m e => wrBytes m e.2.1 (a + e.1) e.2.2) m
def objects : List Host.Cell :=
  wrBytes (wrBytes (header (header (header (header (tables 1) 0x10000 1 0 0) 0x10080 1 0xA00 1) 0x10100 2 0 0) 0x10200 1 0xA00 0) 8 0x10400 0x10000) 8 0x10430 1
/-- Queue 0 of tenant 0, its EN and the tenant's as given, with the records, the active grid and the addresses submitted. -/
def sq (en : Nat) (recs : Nat) (act : Option Grid) (subs : List Nat) : State := { paged 1 with
  mem := objects
  regs := [(0xD000, 0x8000), (0x10000, BitVec.ofNat 64 (2 ^ 24 + en)), (1024 * 2 ^ 20 + 0x80000, 0x80000000), (1024 * 2 ^ 20 + 0x80008, 0x2000)]
  queues := [(0, { recs := List.replicate recs grid.record, nextSeq := 1, active := act, submits := subs, saveSz := 0x1000 })] }
/-- QSUBMIT taken, refused by EN, refused at 256 records. -/
theorem wit_submit : (∀ s ∈ [sq 1 255 none [], sq 0 1 none [], sq 1 256 none []], s.dev.state = 4 ∧ (s.fn 0).tdisp ≠ 3) ∧
    (accepts (sq 1 255 none []) 0 = true ∧ queueFull (sq 1 255 none []) 0 = false) ∧ accepts (sq 0 1 none []) 0 = false ∧
    accepts (sq 1 256 none []) 0 = true ∧ queueFull (sq 1 256 none []) 0 = true ∧ (1023 : Nat) < 1024 ∧ (63 : Nat) < 64 := by decide +kernel
/-- SUBMIT_APPEND: an address submitted, at the record's place and in a tag space. -/
theorem wit_append : ∀ a ∈ [0x10400, 2 ^ 57], ((sq 1 255 (some grid) [a]).queue 0).waits = none ∧ ((sq 1 255 (some grid) [a]).queue 0).submits = a :: [] := by decide +kernel
/-- A grid that waits for its header check, with the addresses of a header and a fallback. -/
def waiting (a fb : Nat) : Grid := { record := { words := [a, fb, 0, 0, 0, 0, 1, 0], seq := 0 }, state := .waiting }
/-- HEADER_CHECK: no header, a record that does not fit it, a status without a fallback, the object, the fallback object. -/
def checksB (k : Nat) (s : State) (g : Grid) : Bool :=
  g.state = .waiting && g.retiring.isNone && g.deps.isEmpty && (s.queue 0).waits.isNone && ends (feRead 0 (g.record.word 0) 128) s (fun r u =>
    let fails (st : Nat) : Bool := done (modGrid 0 fun g => { g with retiring := some (st, 0) }) u
    match r.bind headerOf with
    | none => k = 0 && fails stBadHdr
    | some h =>
      let bad := decide (g.record.blocks % h.cluster ≠ 0 ∨ ¬(g.record.word 1 ≠ 0 ↔ h.fallback ≠ 0))
      if bad then k = 1 && fails stBadRec
      else if launchStatus s 0 h = 0 then k = 3 && done (do
          modGrid 0 fun x => { x with hdr := some h, hdrAt := g.record.word 0, fb := false }
          wakeGrid 0
          tickIfIdle (s.partOf 0)) u
      else if h.fallback = 0 then k = 2 && fails (launchStatus s 0 h)
      else k = 4 && ends (feRead 0 (g.record.word 1) 128) u (fun r2 v => match r2.bind headerOf with
        | none => false
        | some h2 => launchStatus s 0 h2 = 0 && g.record.blocks % h2.cluster = 0 && done (do
            modGrid 0 fun x => { x with hdr := some h2, hdrAt := g.record.word 1, fb := true }
            wakeGrid 0
            tickIfIdle (s.partOf 0)) v))
theorem wit_header : ∀ x ∈ [(0, waiting 0x10180 0), (1, waiting 0x10100 0), (1, waiting 0x10000 0x10080), (2, waiting 0x10200 0), (3, waiting 0x10000 0), (4, waiting 0x10080 0x10000)],
    (sq 1 1 (some x.2) []).gridOf 0 = some x.2 ∧ checksB x.1 (sq 1 1 (some x.2) []) x.2 = true := by decide +kernel
/-- A tenant that may write QCTL; the drain's deadline. -/
def draining : Grid := { grid with state := .draining, drainAt := some 7, placedBlks := 1 }
theorem wit_retire : (sq 1 1 (some draining) []).dev.state = 4 ∧ ((sq 1 1 (some draining) []).fn 0).tdisp ≠ 3 ∧
    (sq 1 1 (some draining) []).gridOf 0 = some draining ∧ draining.drainAt = some 7 ∧ draining.state = .draining ∧ draining.due = none ∧
    7 + pdDrain (sq 1 1 (some draining) []) 0 ≤ (at' 200007 (sq 1 1 (some draining) [])).cycle := by decide +kernel
/-! Scheduling -/

/-- A grid of two blocks with the second to place, in the state and the partition given. -/
def twoBlocks (st : GState) (x : Part) : State := { base with
  parts := [(0, x)]
  queues := [(0, { recs := [grid.record], nextSeq := 1, saveSz := 0x1000, active := some { grid with state := st, record := { grid.record with words := [0, 0, 0, 0, 0, 0, 2, 0] } } })] }
def part0 : Part := base.part 0
/-- LANTERN_PICK: a running grid gets its block, a ready one too, and not while a commit waits. -/
def pickB (barred : Bool) (s : State) : Bool :=
  let ps := (s.parts.map (·.1)).filter (canPick s 0)
  let u : State := { s with lanterns := tput {} s.lanterns 0 { s.lantern 0 with lastPart := 0, nextPick := s.cycle + 64 } }
  (s.lantern 0).nextPick ≤ s.cycle && s.dev.power < 2 && ((ps.find? ((s.lantern 0).lastPart < ·)).orElse fun _ => ps.head?) == some 0 && (s.part 0).tenant == some 0 &&
  ends (pickPoint 0 0 0) u (fun r v => match r with
    | none => false
    | some (qk, g) => (g.state = .ready && ((s.part 0).pending.isSome || (s.dev.poolPending && usePool s 0))) == barred && done (do
        featFirst 0
        let k ← placeCluster 0 0 qk
        if k != 0 then modLantern 0 fun l => { l with nextPick := s.cycle + 8 * k }) v)
theorem wit_pick : ∀ x ∈ [(false, GState.running, part0), (false, .ready, part0), (true, .ready, { part0 with pending := some {} })],
    pickB x.1 (twoBlocks x.2.1 x.2.2) = true := by decide +kernel
/-- LANTERN_BLOCK after 4,096 cycles: without a routine, and with one whose decision is 1. -/
def blockB (x : Bool) (s : State) : Bool :=
  let here := s.groups.filter fun e => sectorOf (quadOfCore (coreOfGrp e.1)) = 0 && (match tlook (blkOfGrp e.1) s.blocks with
    | some b => b.grid = 0
    | none => false)
  s.gridOf 0 == some grid && grid.state = .running && grid.retiring.isNone && !here.isEmpty && (here.all fun e => e.2.asleep.any fun z => z.since + 4096 ≤ s.cycle) &&
  ends (blockPoint 0 (s.partOf 0) 0 grid) s (fun y u => y == x && (!x || done (drainGrid 0) u))
def wordOf (i : Instr) : W32 := (encodeBeam i).getD 0
def waitingOn (rs : List Routine) : State := { at' 4096 (on (asleep .home)) with fns := [(0, { routines := rs })] }
theorem wit_block : blockB false (waitingOn []) = true ∧ blockB true (waitingOn [⟨some 0, 3, 0, 0, [wordOf (.beamLdi 1 1), wordOf .beamRet]⟩]) = true := by decide +kernel
/-- The end of a slice and of an epoch at their cycles, with a tenant to choose and with another's grids to drain. -/
def sliced : State := { at' 500 base with
  parts := [(0, { part0 with sliceEnd := 500, epochEnd := 500, epochLen := 64 })]
  usage := [(0, { qcyc := 1 })] }
theorem wit_slice : 0 < 64 ∧ (sliced.part 0).tenant ≠ none ∧ (sliced.part 0).switching = false ∧ (sliced.part 0).sliceEnd ≤ sliced.cycle ∧
    (sliced.part 0).epochEnd ≤ sliced.cycle := by decide +kernel
/-- SHRINK_DEADLINE at its cycle, with a block on the leaving quad. -/
def shrinking : State := { at' 500 base with parts := [(0, { part0 with shrinkAt := some 500, leaving := [0] })] }
theorem wit_shrink : (shrinking.part 0).shrinkAt = some 500 ∧ 500 ≤ shrinking.cycle := by decide +kernel
/-- SWITCH_SEQUENCER: the blocks of the tenant that leaves have gone, its grid is saved with a die store. -/
def switching : State := { base with
  groups := []
  blocks := []
  queues := [(0, { recs := [grid.record], nextSeq := 1, active := some { grid with state := .saved, dieGens := [(0, 1)] } })]
  dies := [(0, { gen := { next := 2, held := [1] } })]
  parts := [(0, { part0 with lastTenant := some 0, switching := true, featPending := true })] }
theorem wit_switch : (switching.part 0).lastTenant = some 0 ∧ (switching.part 0).switching = true ∧ (switching.part 0).switchTill = none ∧
    (switching.blocks.any fun e => tenantOf e.2.grid = 0) = false ∧ (switching.contribs.any fun c => c.2.tenant = 0) = false ∧
    (switching.dies.any fun d => d.2.jobs.any fun j => j.2.tenant = 0) = false ∧
    ((gridsOf switching 0).all fun e => tenantOf e.1 != 0 || (e.2.state != .running && e.2.state != .draining)) = true := by decide +kernel
/-! Loading and partitions -/

/-- An image of a routine at 0x10000: its point, window size and address, and code. -/
def image (point winlog win : Nat) (code : List W32) : List Host.Cell :=
  let h := (0x4D42 + 2 ^ 16 + point * 2 ^ 24 + code.length * 2 ^ 32 + winlog * 2 ^ 48) + win * 2 ^ 64
  code.zipIdx.foldl (fun m w => wrBytes m 4 (0x10010 + 4 * w.2) w.1.toNat) (wrBytes (tables 1) 16 0x10000 h)
def retOnly : List W32 := [wordOf (.beamLdi 1 1), wordOf .beamRet]
/-- A function whose image at the address is being checked; tenants 0 and 1 in partitions without a Mooring range of their own meet nothing here. -/
def checking (f a : Nat) (m : List Host.Cell) : State := { paged 1 with mem := m, fns := [(f, { checking := some a, lnstat := 0xFF })] }
/-- LNLOAD: unload, load; the highest function. -/
theorem wit_lnload : ∀ f ∈ [0, pfn], base.dev.state = 4 ∧ f ≤ pfn ∧ (f = pfn ∨ (base.fn f).tdisp ≠ 3) ∧ (base.fn f).lnstat % 256 ≠ 0xFF ∧
    (5 : W64).toNat / 64 = 0 ∧ (0x10000 : W64).toNat / 64 ≠ 0 := by decide +kernel
/-- OPBEL_CHECK_DONE: the status that each image gets: unreadable or no image 1, code 2, window 6, point 7, loaded 0. -/
def opbelB (k f a : Nat) (s : State) : Bool :=
  (s.fn f).checking == some a && ends (readImage f a) { s with fns := tput {} s.fns f { s.fn f with checking := none } } (fun r u =>
    let after (n : Nat) : State := { u with freeCtr := u.freeCtr + n }
    match r with
    | none => k = 1 && done (setLnStat f 0 0 1) (after 2)
    | some bs => match imageOf bs with
      | none => k = 1 && done (setLnStat f 0 ((bs.drop 3).headD 0).toNat 1) (after 1)
      | some m =>
        let point := ((bs.drop 3).headD 0).toNat
        let b := boundOf m.code
        let st := if codeStatus m.code ≠ 0 then codeStatus m.code else if !winOk u f m.win m.winlog then 6 else if !pointOk f point then 7 else 0
        st = k && done (setLnStat f b point st) u && (k ≠ 0 || done (do
              setLnStat f b point 0
              modFn f fun x => { x with
                routines := x.routines.filter (fun y => y.point != point) ++
                  [⟨if f = pfn then none else some f, point, m.win, m.winlog, m.code⟩] }
              if f = pfn then extendMeas 2 (sha256 bs)) u))
theorem wit_opbel : ∀ x ∈ [(1, checking 0 0x12000 (tables 1), 0, 0x12000), (1, checking 0 0x10000 (tables 1), 0, 0x10000), (2, checking 0 0x10000 (image 0 0 0 [0]), 0, 0x10000),
      (6, checking pfn 0x10000 (image 2 1 262143 retOnly), pfn, 0x10000), (7, checking pfn 0x10000 (image 0 0 262143 retOnly), pfn, 0x10000),
      (0, checking pfn 0x10000 (image 5 0 262143 retOnly), pfn, 0x10000), (0, checking 0 0x10000 (image 4 0 0 retOnly), 0, 0x10000)],
    opbelB x.1 x.2.2.1 x.2.2.2 x.2.1 = true := by decide +kernel
/-- Mooring's last word, the highest partition and tenant. -/
theorem wit_moor : 63 < 64 ∧ 1023 < 1024 ∧ 262143 < 262144 ∧ base.poison.moor.contains 262143 = false := by decide +kernel
/-- COMMIT held and processed; its application with a pending set and with the pool; a channel's end; a feature mask; a pool word. -/
def idle (x : Part) : State := { base with queues := [], blocks := [], groups := [], parts := [(0, x)] }
def pooled : State := { idle { part0 with stat := 1 } with
  regs := [(1024 * 2 ^ 20 + 0x600C0, 0x10000)]
  dev := { base.dev with poolPending := true } }
def applies (s : State) : Prop :=
  let ready (p : Nat) : Bool := quiescent s p && (s.part p).switchTill.isNone
  let pool := s.dev.poolPending && usePool s 0 && ((List.range 64).all fun p => !usePool s p || ready p)
  ready 0 = true ∧ (pool = true ∨ (s.part 0).pending ≠ none)
theorem wit_partition : ((base.part 0).stat ≠ 1 ∧ (base.part 0).switchTill = none) ∧ (pooled.part 0).stat = 1 ∧
    applies (idle { part0 with stat := 1, pending := some { part0.own with chans := [16, 17, 18] } }) ∧ applies pooled ∧
    16 < Config.channels ∧ ((idle { part0 with zeroing := [16] }).parts.find? fun e => e.2.zeroing.contains 16) = some (0, { part0 with zeroing := [16] }) ∧
    ((idle { part0 with featPending := true }).part 0).featPending = true ∧ ((idle { part0 with featPending := true }).part 0).switchTill = none ∧
    ((gridsOf (idle { part0 with featPending := true }) 0).all fun e => e.2.state != .running) = true ∧ 7 < 8 := by
  unfold applies; decide +kernel
/-! The host -/

/-- ATTEST, COUNTERS, CLEAR and EXTEND of the functions that post them, with an empty mailbox. -/
theorem wit_reports : base.dev.state = 4 ∧ base.dev.mail = [] ∧ ∀ f ∈ [0, 1023, pfn], f ≤ pfn ∧ (f = pfn ∨ (base.fn f).tdisp ≠ 3) := by decide +kernel
/-- Registers that hold what is written, and others, of both kinds of function; DEVCTL; SMCMD in READY and in HALTED. -/
theorem wit_registers : (∀ off ∈ [0xB100, 0x20028 + 0x40 * 63, 0x40000 + 0x10 * 1023, 0x600D8 + 0x200 * 63], (pfMask off).isSome = true ∧ off ≠ 0xB008 ∧ off ≠ 0xE000) ∧
    (∀ off ∈ [0xC000, 0xD000, 0x10010 + 0x40 * 63], (vfMask off).isSome = true) ∧
    (∀ off ∈ [0xD020, 0x20010, 0x600C8, 0x5F000, 0x12345678], pfMask off = none) ∧
    (∀ off ∈ [0xD020, 0xE010, 0x10000, 0x10038 + 0x40 * 63, 0x12345678], vfMask off = none) ∧
    (0x400 : W64).getLsbD 63 = false ∧ ∀ f ∈ [0, pfn], mailBusy base f = false := by decide +kernel
/-- The host's bytes at the top of memory: none, and 70 over two sectors; a page under another's tenure is blocked. -/
theorem wit_host_memory : base.dev.power < 2 ∧ ∀ n ∈ [0, 70], devTop - n + n ≤ devTop ∧ memBad base (devTop - n) n = false ∧
    (∀ g ∈ sectorStarts (devTop - n) n, hostCapped base g = false) ∧ hostBlocked base (devTop - n) n = false := by decide +kernel

/-! Resets, power, errors -/

def booting (n : Nat) : State := { State.reset with dev := { State.reset.dev with state := n, fused := 5 * 2 ^ 16 + 5 } }
/-- Bring-up. Whether an image is signed is open; each clause's other conditions hold. -/
theorem wit_reset : (let s : State := { base with parts := [(0, { part0 with switchTill := some 5, lastTenant := some 0 })] };
      (s.part (s.partOf 0)).switchTill ≠ none ∧ (s.part (s.partOf 0)).lastTenant = some 0) ∧
    ¬((base.part 0).switchTill ≠ none ∧ (base.part 0).lastTenant = some 0) ∧
    ((booting 1).dev.state = 1 ∧ (booting 1).dev.power ≠ 3 ∧ 4 < (booting 1).dev.fused % 2 ^ 16 ∧ (booting 1).dev.fused % 2 ^ 16 ≤ 5) ∧
    (booting 2).dev.state = 2 ∧ (booting 3).dev.state = 3 := by decide +kernel
def locked (n : Nat) : State := { base with fns := [(0, { tdisp := n })] }
def devIn (d : Dev) : State := { base with dev := d }
/-- Power: with a running grid and with nothing; the highest cut; thermal steps; TDISP in each state; the seventh and the eighth failed attempt at a flit. -/
theorem wit_power : (let gs := base.queues.filterMap fun e => e.2.active.map fun g => (e.1, g)
      ((gs.all fun e => e.2.state = .saved) && base.blocks.isEmpty) = false) ∧
    (State.readyReset.queues.isEmpty && State.readyReset.blocks.isEmpty) = true ∧ State.readyReset.dev.power < 2 ∧ State.readyReset.dev.state = 4 ∧
    (devIn { base.dev with power := 2 }).dev.power = 2 ∧ (devIn { base.dev with thermal := 1, cut := 12 }).dev.thermal = 1 ∧ base.dev.power ≠ 3 ∧
    (∀ n ∈ [0, 3], ((locked n).fn 0).tdisp ≠ 1 ∧ ((locked n).fn 0).tdisp ≠ 2) ∧ (∀ n ∈ [1, 2], ((locked n).fn 0).tdisp = 1 ∨ ((locked n).fn 0).tdisp = 2) ∧
    ∀ n ∈ [6, 7], (devIn { base.dev with retries := [(17, n)] }).dev.down.contains 17 = false ∧ tget 0 (devIn { base.dev with retries := [(17, n)] }).dev.retries 17 = n := by
  decide +kernel
/-- Errors: of a written-back sector without and with a writer; of the highest slice. -/
theorem wit_errors : tlook 1024 base.writers = none ∧ tlook 1024 ({ base with writers := [(1024, 0)] } : State).writers = some 0 ∧ 255 < 256 := by decide +kernel

/-! Steps -/

/-- StepRunsInstruction: an event, a Beam word, a device word; what follows an act. -/
def placed : State := State.reset.withFetchWord 64 0x260002020001FFFD
def placedGroup : Group := launchGroup fetchGrid fetchHdr ((List.range 8).map (unitGranules 128 * ·)) { rw := 1, sp := 2 }
def iaddWord : W64 := 0x260002020001FFFD
theorem wit_step_event : (let s : State := { base with agenda := [⟨0, .event .coldReset⟩] };
      s.agenda = ⟨0, .event .coldReset⟩ :: [] ∧ aheadOf s (.event .coldReset) = none) ∧
    (let s : State := { State.readyReset with agenda := [⟨5, .event .coldReset⟩] };
      s.agenda = ⟨5, .event .coldReset⟩ :: [] ∧ dueAct s = none ∧ busyNow s = false ∧ (Act.event .coldReset).isIssue = false) ∧
    ∃ v, reply (do
        quietly settle
        flushErrors) State.reset = some ((), v) := by
  refine ⟨by decide +kernel, by decide +kernel, ?_⟩
  obtain ⟨_, v, h, -⟩ := ends_of (m := (do
        quietly settle
        flushErrors : Op Unit)) (s := State.reset) (p := fun _ _ => true) (by decide +kernel)
  exact ⟨v, h⟩
theorem wit_step_beam : let s1 := passed 0 { State.reset.withFetchWord 32 0x5C000000 with agenda := [] }
    ((s1.lantern 0).call.map fun c => (c.ended, c.routine[c.pc]?)) = some (0, some 0x5C000000) ∧ (decodeBeam 0x5C000000).toOption = some .beamRet := by decide +kernel
theorem wit_step_word : placed.agenda = ⟨0, .issue 0 false false⟩ :: [] ∧ (let s1 := passed 0 { placed with agenda := [] }
    let g := placedGroup
    (tlook 0 s1.groups = some g ∧ ((tlook 0 s1.blocks).map (·.grid)) = some 0 ∧ ((s1.gridOf 0).map (·.hdr)) = some (some fetchHdr)) ∧
    mayIssue s1 0 g = true ∧ chosen s1 0 g false = true ∧ (s1.core 0).asks = [] ∧ (g.slot false).mask ≠ 0 ∧ g.replay = [] ∧ g.due = [] ∧ g.pend = [] ∧ g.holds = [] ∧ g.kept = none ∧ g.mx.chain = none ∧
    g.mx.deliver = false ∧ 0 ∉ s1.poison.ctl ∧ (g.slot false).pc.toNat < 2 ^ 56 ∧
    heldLine s1 0 0 1 g false = some (iaddWord.zeroExtend 1024) ∧ classOk fetchHdr.classes s1.dev.stepping iaddWord = true ∧ opcodeAssigned iaddWord = true ∧
    ((List.range 8).all fun k => k = 0 || !inGroup iaddWord k || bitOf (s1.part (s1.partOf 0)).feat k == false) = true ∧ (decode iaddWord).toOption.isSome = true ∧
    (engineOp iaddWord = true → g.futures < 64)) := by decide +kernel
/-- StepKeepsInv: a state that a step leaves. -/
theorem wit_inv : placed.Inv ∧ (match step placed with
    | .next t => t.groups.length == 1
    | _ => false) = true := ⟨⟨by decide +kernel, by decide +kernel⟩, by decide +kernel⟩


end Sys2Proof.Tests
end

section
/-! Lane register elements and predicates: a read after a write (01_machine.md R14, R18, R27; 15_isolation.md R420, R421). -/

namespace Sys2Proof.Machine

variable {s : State} {g g' : Group}

/-! Bits of a granule -/

theorem getLsbD_bitsAt (i n k : Nat) : (bitsAt i n).getLsbD k = (decide (k < 512) && (decide (i ≤ k) && decide (k - i < n))) := by
  simp only [bitsAt, BitVec.getLsbD_ofNat, Nat.testBit_mul_two_pow, Nat.testBit_two_pow_sub_one]

/-- A write takes the bits under its mask from the written value, and the others from what it finds (R421). -/
theorem Granule.getLsbD_write (x : Granule) (gen : Nat) (m v : BitVec 512) (k : Nat) : (x.write gen m v).data.getLsbD k =
    if m.getLsbD k = true then v.getLsbD k else (if x.tag = gen then x.data else 0).getLsbD k := by
  simp only [Granule.write, BitVec.getLsbD_or, BitVec.getLsbD_and, BitVec.getLsbD_not]
  generalize (if x.tag = gen then x.data else 0) = d
  by_cases hm : m.getLsbD k = true
  · simp only [hm, if_true, Bool.not_true, Bool.and_false, Bool.false_or, Bool.and_true]
  · have hlt : d.getLsbD k = true → k < 512 := BitVec.lt_of_getLsbD
    cases hd : d.getLsbD k <;> simp_all

/-- Element `e` of a granule as a reader of generation `gen` sees it: a stale granule reads as zero (R420). -/
def Granule.word (x : Granule) (gen e : Nat) : Nat :=
  if x.tag = gen then (x.data.extractLsb' (32 * e) 32).toNat else 0

/-- The granule after a write of element `e` (R421). -/
def Granule.putWord (x : Granule) (gen e v : Nat) : Granule :=
  x.write gen (bitsAt (32 * e) 32) (BitVec.ofNat 512 (v % 2 ^ 32 * 2 ^ (32 * e)))

@[simp] theorem Granule.putWord_tag (x : Granule) (gen e v : Nat) : (x.putWord gen e v).tag = gen := rfl

theorem Granule.word_putWord_same (x : Granule) (gen v : Nat) {e : Nat} (he : e < 16) :
    (x.putWord gen e v).word gen e = v % 2 ^ 32 := by
  have hbits : (x.putWord gen e v).data.extractLsb' (32 * e) 32 = BitVec.ofNat 32 v := by
    ext j hj
    have hin : (bitsAt (32 * e) 32).getLsbD (32 * e + j) = true := by simp [getLsbD_bitsAt]; omega
    rw [BitVec.getElem_extractLsb', Granule.putWord, Granule.getLsbD_write, if_pos hin, BitVec.getLsbD_ofNat, Nat.testBit_mul_two_pow,
      Nat.testBit_mod_two_pow, ← BitVec.getLsbD_eq_getElem, BitVec.getLsbD_ofNat]
    simp [hj]
    omega
  rw [Granule.word, putWord_tag, if_pos rfl, hbits, BitVec.toNat_ofNat]

theorem Granule.word_putWord_other (x : Granule) (gen v : Nat) {e e' : Nat} (he : e' ≠ e) :
    (x.putWord gen e v).word gen e' = x.word gen e' := by
  have hbits : (x.putWord gen e v).data.extractLsb' (32 * e') 32 = (if x.tag = gen then x.data else 0).extractLsb' (32 * e') 32 := by
    ext j hj
    have hout : (bitsAt (32 * e) 32).getLsbD (32 * e' + j) ≠ true := by simp [getLsbD_bitsAt]; omega
    rw [BitVec.getElem_extractLsb', BitVec.getElem_extractLsb', Granule.putWord, Granule.getLsbD_write, if_neg hout]
  rw [Granule.word, putWord_tag, if_pos rfl, hbits, Granule.word]
  split <;> simp

/-! Elements of lane registers -/

theorem elemAt_eq_word (gk n l : Nat) : elemAt s gk g n l =
    (tget Granule.clean s.store (g.place (coreOfGrp gk) n l).1).word g.gens.rw (g.place (coreOfGrp gk) n l).2 := rfl

theorem putElem_store (gk n l x : Nat) : (s.putElem gk g n l x).store =
    let p := g.place (coreOfGrp gk) n l
    tput Granule.clean s.store p.1 ((tget Granule.clean s.store p.1).putWord g.gens.rw p.2 x) := rfl

theorem State.canonical.store (hs : s.canonical = true) : tcanon Granule.clean s.store = true := by
  simp only [State.canonical, Bool.and_eq_true] at hs
  obtain ⟨⟨-, hstore⟩, -⟩ := hs
  exact hstore

/-- A granule has 16 elements. -/
theorem place_snd_lt (core n l : Nat) : (g.place core n l).2 < 16 := by
  simp only [Group.place]
  omega

theorem elemAt_putElem_same (hs : tcanon Granule.clean s.store = true) (gk n l x : Nat) :
    elemAt (s.putElem gk g n l x) gk g n l = x % 2 ^ 32 := by
  rw [elemAt_eq_word, putElem_store, tget_tput_same _ _ _ hs, Granule.word_putWord_same _ _ _ (place_snd_lt ..)]

/-- A write leaves every element at another place as it was: in another granule, or beside it in the same. -/
theorem elemAt_putElem_other (hs : tcanon Granule.clean s.store = true) {gk gk' n n' l l' : Nat} (x : Nat) (hgen : g'.gens.rw = g.gens.rw)
    (hp : g'.place (coreOfGrp gk') n' l' ≠ g.place (coreOfGrp gk) n l) :
    elemAt (s.putElem gk g n l x) gk' g' n' l' = elemAt s gk' g' n' l' := by
  rw [elemAt_eq_word, elemAt_eq_word, putElem_store, hgen]
  by_cases hk : (g'.place (coreOfGrp gk') n' l').1 = (g.place (coreOfGrp gk) n l).1
  · have he : (g'.place (coreOfGrp gk') n' l').2 ≠ (g.place (coreOfGrp gk) n l).2 := fun he => hp (Prod.ext hk he)
    rw [hk, tget_tput_same _ _ _ hs, Granule.word_putWord_other _ _ _ he]
  · rw [tget_tput_other _ hk _ hs]

/-! Places of a group's elements -/

theorem mul_add_inj_of_lt {w q q' a a' : Nat} (ha : a < w) (ha' : a' < w) (he : w * q + a = w * q' + a') : q = q' ∧ a = a' := by
  have hmod := congrArg (· % w) he
  simp only [Nat.mul_add_mod, Nat.mod_eq_of_lt ha, Nat.mod_eq_of_lt ha'] at hmod
  subst hmod
  exact ⟨Nat.eq_of_mul_eq_mul_left (by omega) (Nat.add_right_cancel he), rfl⟩

/-- The elements of a unit in the order of the store: 16 to a granule. -/
def unitElem (w n l : Nat) : Nat := w * (n % 8) + l

theorem place_eq (core n l : Nat) : g.place core n l =
    (core * Config.granulesPerCore + g.units.getD (n / 8) 0 + unitElem g.width n l / 16, unitElem g.width n l % 16) := by
  have hoff : n % 8 * 4 * g.width + 4 * l = 4 * unitElem g.width n l := by unfold unitElem; ring
  rw [Group.place, hoff, Prod.mk.injEq]
  omega

/-- The elements of a unit fill its W/2 granules (R14). -/
theorem unitElem_lt {w n l : Nat} (hw : w % 2 = 0) (hl : l < w) : unitElem w n l / 16 < unitGranules w := by
  have h8 : w * (n % 8) ≤ w * 7 := Nat.mul_le_mul_left w (by omega)
  unfold unitElem unitGranules
  omega

theorem unitsApart.width_even (ha : unitsApart g) : g.width % 2 = 0 := by
  obtain ⟨-, -, hw⟩ := ha
  omega

theorem unitsApart.unit_multiple (ha : unitsApart g) {i : Nat} (hi : i < g.units.length) : ∃ q, g.units[i] = unitGranules g.width * q := by
  obtain ⟨-, hmul, -⟩ := ha
  exact Nat.dvd_of_mod_eq_zero (hmul _ (List.getElem_mem hi))

theorem unitsApart.nodup (ha : unitsApart g) : g.units.Nodup := ha.1

/-- Two elements of a group whose units stand apart never share a place: the place tells the unit, and the element in it. -/
theorem place_inj {core n l n' l' : Nat} (ha : unitsApart g) (hn : n < g.nreg) (hn' : n' < g.nreg) (hl : l < g.width) (hl' : l' < g.width)
    (hp : g.place core n l = g.place core n' l') : n = n' ∧ l = l' := by
  have hu : n / 8 < g.units.length := by unfold Group.nreg at hn; omega
  have hu' : n' / 8 < g.units.length := by unfold Group.nreg at hn'; omega
  obtain ⟨q, hq⟩ := ha.unit_multiple hu
  obtain ⟨q', hq'⟩ := ha.unit_multiple hu'
  simp only [place_eq, Prod.mk.injEq, List.getD_eq_getElem _ _ hu, List.getD_eq_getElem _ _ hu', Nat.add_assoc, Nat.add_left_cancel_iff] at hp
  obtain ⟨hgran, helem⟩ := hp
  obtain ⟨hqq, hdiv⟩ := mul_add_inj_of_lt (unitElem_lt ha.width_even hl) (unitElem_lt ha.width_even hl') (hq ▸ hq' ▸ hgran)
  have hunit : n / 8 = n' / 8 := (ha.nodup.getElem_inj_iff (hi := hu) (hj := hu')).1 (by rw [hq, hq', hqq])
  have hreg : unitElem g.width n l = unitElem g.width n' l' := by omega
  obtain ⟨hrow, hlane⟩ := mul_add_inj_of_lt hl hl' hreg
  exact ⟨by omega, hlane⟩

/-- Settles O5: a read after a write in the granule, and the injectivity of places. -/
theorem registerFileReadsBack : Obligations.RegisterFileReadsBack := by
  refine ⟨fun s g n l x hs => ?_, fun g core n l n' l' ha hn hn' hl hl' hp => place_inj ha hn hn' hl hl' hp⟩
  have hc : tcanon Granule.clean s.store = true := State.canonical.store hs
  exact ⟨elemAt_putElem_same hc .., fun gk g' n' l' hgen hp => elemAt_putElem_other hc x hgen hp⟩

/-! Predicates -/

theorem getLsbD_allLanes (w : Nat) {l : Nat} (hl : l < 128) : (allLanes w).getLsbD l = decide (l < w) := by
  rw [allLanes, BitVec.getLsbD_ofNat, Nat.testBit_two_pow_sub_one, decide_eq_true hl, Bool.true_and]

/-- The two words of the control area that hold a predicate make it up again. -/
theorem mask_of_halves (x : Mask) :
    BitVec.ofNat 128 ((x.extractLsb' 0 64).toNat + (x.extractLsb' 64 64).toNat * 2 ^ 64) = x := by
  apply BitVec.eq_of_toNat_eq
  simp only [BitVec.toNat_ofNat, BitVec.extractLsb'_toNat, Nat.shiftRight_eq_div_pow]
  omega

@[simp] theorem pred_zero : g.pred 0 = allLanes g.width := rfl
@[simp] theorem setPred_zero (m : Mask) : g.setPred 0 m = g := rfl

theorem pred_pos {j : Nat} (hj : j ≠ 0) :
    g.pred j = BitVec.ofNat 128 ((tget 0 g.ctl (64 + 2 * j)).toNat + (tget 0 g.ctl (65 + 2 * j)).toNat * 2 ^ 64) := if_neg hj

theorem setPred_ctl {j : Nat} (hj : j ≠ 0) (m : Mask) : (g.setPred j m).ctl =
    let x := m &&& allLanes g.width
    tput 0 (tput 0 g.ctl (64 + 2 * j) (x.extractLsb' 0 64)) (65 + 2 * j) (x.extractLsb' 64 64) := by
  simp only [Group.setPred, if_neg hj]

/-- A write of a predicate leaves every other word of the control area as it was. -/
theorem tget_setPred_other {j i : Nat} (hc : tcanon 0 g.ctl = true) (hlo : i ≠ 64 + 2 * j) (hhi : i ≠ 65 + 2 * j) (m : Mask) :
    tget 0 (g.setPred j m).ctl i = tget 0 g.ctl i := by
  by_cases hj : j = 0
  · rw [hj, setPred_zero]
  · rw [setPred_ctl hj, tget_tput_other _ hhi _ (tput_canon _ _ _ hc), tget_tput_other _ hlo _ hc]

theorem pred_setPred_same {j : Nat} (hc : tcanon 0 g.ctl = true) (hj : j ≠ 0) (m : Mask) :
    (g.setPred j m).pred j = m &&& allLanes g.width := by
  rw [pred_pos hj, setPred_ctl hj]
  dsimp only
  rw [tget_tput_same _ _ _ (tput_canon _ _ _ hc), tget_tput_other _ (by omega) _ (tput_canon _ _ _ hc), tget_tput_same _ _ _ hc,
    mask_of_halves]

theorem pred_setPred_other {j k : Nat} (hc : tcanon 0 g.ctl = true) (hk : k ≠ j) (m : Mask) : (g.setPred j m).pred k = g.pred k := by
  by_cases h0 : k = 0
  · rw [h0, pred_zero, pred_zero, setPred_width]
  · rw [pred_pos h0, pred_pos h0, tget_setPred_other hc (by omega) (by omega), tget_setPred_other hc (by omega) (by omega)]

theorem scalar_setPred {j r : Nat} (hc : tcanon 0 g.ctl = true) (hr : r < 64) (m : Mask) : (g.setPred j m).scalar r = g.scalar r :=
  tget_setPred_other hc (by omega) (by omega) m

/-- Settles O6: k0 is no word of the control area, every other predicate two words of its own. -/
theorem predicateRegisters : Obligations.PredicateRegisters := by
  intro g m _
  refine ⟨fun l hl => getLsbD_allLanes g.width hl, setPred_zero m, fun hc j hj _ => ⟨fun l hl => ?_, fun k hk _ => pred_setPred_other hc hk m,
    fun r hr => scalar_setPred hc hr m⟩⟩
  rw [pred_setPred_same hc hj, BitVec.getLsbD_and, getLsbD_allLanes g.width hl, Bool.and_comm]

end Sys2Proof.Machine
end

section
/-! Special registers and counters (01_machine.md R21 to R25; 13_control_sync_ops.md R359, R360). -/

namespace Sys2Proof.Machine

variable {s t : State} {i : Instr} {g : Group} {h : Hdr} {b : Block}

/-- Operations that run alike, each from its state, give a step the same outcome. -/
theorem runOp_of_run_eq {m m' : Op Unit} (he : m.run s = m'.run t) : runOp m s = runOp m' t := by
  unfold runOp
  rw [run_apply m, run_apply m', he]

theorem selfBlock_begun (hb : tlook (blkOfGrp s.cur.gk) s.blocks = some b) : selfBlock.run (s.begun i g) = .ok b (s.begun i g) :=
  selfBlock_run (by simpa using hb)

theorem begun_gridOf (q : Nat) : (s.begun i g).gridOf q = s.gridOf q := by
  simp only [State.gridOf, State.queue, begun_queues]

theorem selfHdr_begun (w : Issues s i g h) : selfHdr.run (s.begun i g) = .ok h (s.begun i g) := by
  obtain ⟨b, x, hb, hx, hh⟩ := w.header
  simp [selfHdr, selfBlock_begun hb, begun_gridOf, hx, hh]

/-! RDSR -/

theorem specialReg_begun (gk num : Nat) : specialReg (s.begun i g) gk g b h num = specialReg s gk g b h num := by
  simp only [specialReg, begun_dev]

/-- What RDSR writes or raises once it has begun, with `x` the value of a register that has one for the group (R359). -/
def rdsrEffect (w : Nat) (dst : Dst) (num : BitVec 8) (m : Mask) (x : Option W64) : Op Unit :=
  if num = 0 then
    match dst with
    | .sreg _ => illegal 8
    | .lane _ => (lanesOf w m).forM fun l => writeDst false l l dst
  else match x with
    | none => illegal 8
    | some v => (workLanes w dst m).forM fun l => writeDst false l (if dst.isLane then v.toNat % 2 ^ 32 else v.toNat) dst

theorem rdsrEffect_laneid_lane (w : Nat) {dst : Dst} (m : Mask) (x : Option W64) (hd : dst.isLane = true) :
    rdsrEffect w dst 0 m x = (lanesOf w m).forM fun l => writeDst false l l dst := by
  cases dst with
  | lane v => rfl
  | sreg v => cases hd

theorem rdsrEffect_laneid_scalar (w : Nat) {dst : Dst} (m : Mask) (x : Option W64) (hd : dst.isLane = false) :
    rdsrEffect w dst 0 m x = illegal 8 := by
  cases dst with
  | lane v => cases hd
  | sreg v => rfl

theorem rdsrEffect_listed (w : Nat) (dst : Dst) {num : BitVec 8} (m : Mask) (v : W64) (h0 : num ≠ 0) :
    rdsrEffect w dst num m (some v) =
      (workLanes w dst m).forM fun l => writeDst false l (if dst.isLane then v.toNat % 2 ^ 32 else v.toNat) dst := if_neg h0

theorem rdsrEffect_unlisted (w : Nat) (dst : Dst) {num : BitVec 8} (m : Mask) (h0 : num ≠ 0) :
    rdsrEffect w dst num m none = illegal 8 := if_neg h0

theorem exec_rdsr {p : BitVec 3} {dst : Dst} {num : BitVec 8} (w : Issues s (.rdsr p dst num) g h)
    (hb : tlook (blkOfGrp s.cur.gk) s.blocks = some b) : exec (.rdsr p dst num) s =
    runOp (rdsrEffect g.width dst num (s.activeOf g p.toNat) (specialReg s s.cur.gk g b h num.toNat)) (s.begun (.rdsr p dst num) g) := by
  refine runOp_of_run_eq ?_
  simp only [bind_run, legal_run w, activeMask_begun w, get_run, self_begun_plain w rfl, selfBlock_begun hb, selfHdr_begun w, begun_gk,
    specialReg_begun]
  rfl

/-- A word that does nothing more than write a value for each lane of a list. -/
theorem runOp_writeDsts (w : Issues s i g h) (he : endsRegion i = false) (d : Dst) (ls : List Nat) (f : Nat → Nat) :
    runOp (ls.forM fun l => writeDst false l (f l) d) (s.begun i g) =
      .next ((s.begun i g).putResults false d (ls.map fun l => (l, f l))) :=
  runOp_ok (writeDsts_run false d ls id f (group_begun w he))

/-! RDCT -/

/-- The counter that RDCT reads (R360). -/
def counterVal (s : State) (g : Group) (b : Block) : Ctr → Nat
  | .cycles => sat48 (s.cycle - b.placedAt)
  | .issued => g.issued
  | .sleep => g.slept
  | .lclock => s.lc (coreOfGrp s.cur.gk)
  | .nv => (s.core (coreOfGrp s.cur.gk)).events.nv
  | .of => (s.core (coreOfGrp s.cur.gk)).events.of
  | .ic => (s.core (coreOfGrp s.cur.gk)).events.ic
  | .sb => (s.core (coreOfGrp s.cur.gk)).events.sb

theorem counterVal_begun (c : Ctr) : counterVal (s.begun i g) g b c = counterVal s g b c := by
  cases c <;> simp only [counterVal, State.lc, State.core, begun_cycle, begun_gk, begun_cores, begun_dev]

theorem exec_rdct {p : BitVec 3} {d : BitVec 6} {c : Ctr} (w : Acts s (.rdct p d c) g h)
    (hb : tlook (blkOfGrp s.cur.gk) s.blocks = some b) : exec (.rdct p d c) s =
    .next (s.after (.rdct p d c) g (g.setScalar d.toNat (BitVec.ofNat 64 (counterVal s g b c)))) := by
  refine runOp_ok ?_
  have hact : s.activeOf g p.toNat ≠ 0 := w.some'
  simp only [bind_run, legal_run w.issues, activeMask_begun w.issues, if_neg hact, get_run,
    self_begun_plain w.issues rfl, selfBlock_begun hb]
  rw [← counterVal_begun (i := .rdct p d c)]
  cases c <;> exact modSelf_begun w.issues _

/-! WRSR -/

theorem exec_wrsr {p : BitVec 3} {num : BitVec 8} {a : SArg} (w : Acts s (.wrsr p num a) g h) :
    exec (.wrsr p num a) s = runOp (writeSpecial num.toNat (sargVal g a)) (s.begun (.wrsr p num a) g) := by
  refine runOp_of_run_eq ?_
  have hact : s.activeOf g p.toNat ≠ 0 := w.some'
  simp only [bind_run, legal_run w.issues, activeMask_begun w.issues, if_neg hact, self_begun_plain w.issues rfl]

/-- Outside a handler no register may be written (R359). -/
theorem writeSpecial_outside {num : Nat} {v : W64} (hg : self.run s = .ok g s) (hh : g.handler = none) :
    (writeSpecial num v).run s = (illegal 8 : Op Unit).run s := by
  simp only [writeSpecial, bind_run, hg, hh, Option.isNone_none, if_true, illegal_run]

theorem exec_wrsr_outside {p : BitVec 3} {num : BitVec 8} {a : SArg} (w : Acts s (.wrsr p num a) g h) (hh : g.handler = none) :
    exec (.wrsr p num a) s = runOp (illegal 8) (s.begun (.wrsr p num a) g) := by
  rw [exec_wrsr w]
  exact runOp_of_run_eq (writeSpecial_outside (self_begun_plain w.issues rfl) hh)

/-- The group after a write of a trap register that neither returns from the handler nor aborts; a number that may not be written
changes nothing (16_recovery.md R434; 07_matrix.md R196). -/
def Group.writeTrapReg (g : Group) (num : Nat) (v : W64) : Group :=
  match num with
  | 0x08 => { g with trapPc := keepRo (~~~7) g.trapPc v }
  | 0x09 => { g with trapCause := keepRo 0xFFFF00 g.trapCause v }
  | 0x0A => { g with trapAddr := v }
  | 0x0B => { g with rowprog := keepRo rowprogRw g.rowprog v }
  | _ => g

theorem writeSpecial_inside {num : Nat} {v : W64} (hg : self.run s = .ok g s) (hh : g.handler ≠ none) (hlo : 8 ≤ num) (hhi : num ≤ 0x0B)
    (hv : num = 9 → v.getLsbD 0 = false ∧ v.getLsbD 1 = false) :
    (writeSpecial num v).run s = (modSelf fun g => g.writeTrapReg num v).run s := by
  have hsome : g.handler.isNone = false := Option.isNone_eq_false_iff.2 (Option.isSome_iff_ne_none.2 hh)
  simp only [writeSpecial, bind_run, hg, hsome, Bool.false_eq_true, if_false]
  obtain rfl | rfl | rfl | rfl : num = 8 ∨ num = 9 ∨ num = 10 ∨ num = 11 := by omega
  · rfl
  · obtain ⟨h0, h1⟩ := hv rfl
    simp only [h0, h1, Bool.false_eq_true, if_false]
    rfl
  · rfl
  · rfl

theorem exec_wrsr_inside {p : BitVec 3} {num : BitVec 8} {a : SArg} (w : Acts s (.wrsr p num a) g h) (hh : g.handler ≠ none)
    (hlo : 8 ≤ num.toNat) (hhi : num.toNat ≤ 0x0B)
    (hv : num.toNat = 9 → (sargVal g a).getLsbD 0 = false ∧ (sargVal g a).getLsbD 1 = false) :
    exec (.wrsr p num a) s = .next (s.after (.wrsr p num a) g (g.writeTrapReg num.toNat (sargVal g a))) := by
  rw [exec_wrsr w]
  exact runOp_ok ((writeSpecial_inside (self_begun_plain w.issues rfl) hh hlo hhi hv).trans (modSelf_begun w.issues _))

/-- Settles O39, word by word. -/
theorem specialRegisters : Obligations.SpecialRegisters := by
  intro s g h b p num hb
  refine ⟨fun dst => ?_, fun d c => ?_, fun a => ?_⟩
  · intro i m w
    rw [exec_rdsr w hb]
    refine ⟨fun h0 hd => ?_, fun h0 hd => ?_, fun h0 v hv => ?_, fun h0 hv => ?_⟩
    · subst h0
      rw [rdsrEffect_laneid_lane _ _ _ hd]
      exact runOp_writeDsts w rfl dst _ fun l => l
    · subst h0
      rw [rdsrEffect_laneid_scalar _ _ _ hd]
    · rw [hv, rdsrEffect_listed _ _ _ _ h0]
      exact runOp_writeDsts w rfl dst _ fun _ => if dst.isLane then v.toNat % 2 ^ 32 else v.toNat
    · rw [hv, rdsrEffect_unlisted _ _ _ h0]
  · intro i e w
    rw [exec_rdct w hb]
    cases c <;> rfl
  · intro i v w
    refine ⟨exec_wrsr_outside w, fun hh => ⟨?_, ?_, ?_, ?_⟩⟩
    · rintro rfl
      exact exec_wrsr_inside w hh (by decide) (by decide) (by simp)
    · rintro rfl h0 h1
      exact exec_wrsr_inside w hh (by decide) (by decide) fun _ => ⟨h0, h1⟩
    · rintro rfl
      exact exec_wrsr_inside w hh (by decide) (by decide) (by simp)
    · rintro rfl
      exact exec_wrsr_inside w hh (by decide) (by decide) (by simp)

end Sys2Proof.Machine
end

section
/-! P words: both halves read before either writes (02_words.md R48, R49). -/

namespace Sys2Proof.Machine

variable {s : State} {i : Instr} {g : Group}

theorem halfVal_begun (x : Half) : halfVal (s.begun i g) (s.begun i g).cur.gk g x = halfVal s s.cur.gk g x := by
  funext l
  simp only [halfVal, elemAt_begun, begun_gk]

theorem pairResults_begun (h0 h1 : Half) (l : Nat) : pairResults (s.begun i g) g h0 h1 l = pairResults s g h0 h1 l := by
  simp only [pairResults, halfVal_begun]

/-- Both halves' results of the given lanes, in one list. -/
theorem zip_halves (h0 h1 : Half) (ls : List Nat) :
    ls.zip ((ls.map (halfVal s s.cur.gk g h0)).zip (ls.map (halfVal s s.cur.gk g h1))) = ls.map fun l => (l, pairResults s g h0 h1 l) := by
  rw [List.zip_map', zip_map_self]
  rfl

/-- The writes of a P word, lane by lane, of results that have been computed. -/
theorem setPairs_run (h0 h1 : Half) (rs : List (Nat × Res × Res)) (hg : tlook s.cur.gk s.groups = some g) :
    (forM rs fun r => do
      setElem s.cur.gk h0.d.toNat r.1 r.2.1.1
      setElem s.cur.gk h1.d.toNat r.1 r.2.2.1 : Op PUnit).run s = .ok () (s.putPairs g h0 h1 rs) := by
  induction rs generalizing s with
  | nil => rfl
  | cons r rs ih =>
    let t := s.putElem s.cur.gk g h0.d.toNat r.1 r.2.1.1
    let u := t.putElem s.cur.gk g h1.d.toNat r.1 r.2.2.1
    have h0' : (setElem s.cur.gk h0.d.toNat r.1 r.2.1.1).run s = .ok () t := setElem_run _ _ _ hg
    have h1' : (setElem s.cur.gk h1.d.toNat r.1 r.2.2.1).run t = .ok () u := setElem_run _ _ _ hg
    rw [forM_cons_run]
    simp only [bind_run, h0', h1']
    exact ih (s := u) hg

/-- Settles O3: the operands pass their check, both halves' results are computed, and the writes follow lane by lane. -/
theorem pairWordWritesBothHalves : Obligations.PairWordWritesBothHalves := by
  intro s g h h0 h1
  dsimp only
  intro w hr
  refine runOp_ok ?_
  simp only [bind_run, legal_run w, activeMask_begun w, get_run, self_begun_plain w rfl, checkElems_begun w rfl hr, halfVal_begun,
    zip_halves, pairResults_begun]
  have hw := setPairs_run h0 h1 ((lanesOf g.width (s.activeOf g 0)).map fun l => (l, pairResults s g h0 h1 l)) (group_begun w rfl)
  simp only [List.forM_eq_forM, hw]
  exact countEvents_run _

end Sys2Proof.Machine
end

section
/-! Events of a group, its core and its block (02_words.md R65, R67; 12_groups_progress.md R340; 16_recovery.md R435, R449). -/

namespace Sys2Proof.Machine

variable {s t u : State} {g : Group} {gk id bk : Nat} {b : Block}

/-! What an event answers, by the operation that it has come to -/

theorem reply_of_run {α : Type} {m : Op α} {a : α} (h : m.run s = .ok a t) : reply m s = some (a, t) := by
  unfold reply
  rw [h]

theorem leaves_of_run {m : Op Unit} (h : m.run s = .ok () t) : s.leaves m t := reply_of_run h

theorem run_of_leaves {m : Op Unit} (h : s.leaves m t) : m.run s = .ok () t := reply_some h

/-- A step whose work is that of `m'` in `u` answers what `m'` makes of `u`. -/
theorem gives_of_run_eq {m m' : Op Unit} (h : m.run s = m'.run u) : u.gives m' (runOp m s) := by
  rw [runOp_of_run_eq h]
  obtain ⟨t, ht⟩ := runOp_next m' u
  exact ⟨t, ht, ht⟩

/-- Where `m'` always answers, it answers the state that it leaves. -/
theorem leaves_of_run_eq {m m' : Op Unit} (ha : Answers m') (h : m.run s = m'.run u) : ∃ t, u.leaves m' t ∧ runOp m s = .next t := by
  obtain ⟨_, t, ht⟩ := ha u
  exact ⟨t, leaves_of_run ht, runOp_ok (h.trans ht)⟩

/-! The handler of a trap (R435) -/

theorem enterHandler_run (entry : W64) (v : TrapInfo) (list : List Recorded) (hg : tlook gk s.groups = some g) :
    (enterHandler gk entry v list).run s = .ok () (s.setGroup gk (g.handling s.cycle entry v list)) :=
  modGroup_S _ hg

/-- A group does not enter its handler while something of it is outstanding. -/
theorem tryEnter_busy (hg : tlook gk s.groups = some g) (ht : g.trapping.isSome = true) (hq : quiet s gk g = false) :
    (tryEnter gk).run s = .ok () s := by
  obtain ⟨⟨v, list⟩, ht⟩ := Option.isSome_iff_exists.1 ht
  unfold tryEnter
  simp only [bind_run, get_run, hg]
  split
  · rename_i heq _
    cases heq
    simp only [ht, hq]
    rfl
  · rfl

theorem exec_trapEntry (hg : tlook gk s.groups = some g) (ht : g.trapping.isSome = true) :
    exec (.trapEntry gk) s = runOp (tryEnter gk) s := by
  refine runOp_of_run_eq ?_
  simp only [bind_run, groupAt_run, hg, need_some_run, require_run, ht, if_true]

/-! Outstanding words and replies (R65) -/

/-- The state in which an outstanding word is performed: the step's word is that word. -/
def State.performing (s : State) (gk : Nat) (g : Group) (p : Pend) : State :=
  { s with cur := { gk := gk, slotB := p.slotB, pc := p.pc, act := p.mask, wasOpen := g.regionOpen, held := true } }

theorem exec_longLatencyComplete_pend {p : Pend} {m : Op Unit} (hg : tlook gk s.groups = some g)
    (ha : ∀ d a n z, g.asleep ≠ some ⟨.reply d a n, z⟩) (hp : (g.pend.find? fun p => p.id = id) = some p) (hm : pendOp p = some m)
    (hs : g.performs = true) (hf : p.fin = false) (hw : waitsFor s (coreOfGrp gk) (tenantAt s gk) (earlierPend g p.id) p = false) :
    exec (.longLatencyComplete gk id) s = runOp (performPend gk p m) (s.performing gk g p) := by
  refine runOp_of_run_eq ?_
  rw [bind_run, groupAt_run, hg]
  dsimp only [need_some_run]
  split
  · exact absurd ‹_› (ha _ _ _ _)
  · simp only [bind_run, hp, hm, need_some_run, get_run, hs, hf, hw, require_run, modify_run]
    rfl

theorem exec_longLatencyComplete_reply {d n z : Nat} {a : W64} (hg : tlook gk s.groups = some g)
    (ha : g.asleep = some ⟨.reply d a n, z⟩) (hn : n < 0x8000) :
    exec (.longLatencyComplete gk id) s = runOp (do
      acquireCore (coreOfGrp gk)
      modGroup gk fun g => g.setScalar d (Config.freeWord s.freeCtr)
      wake gk 1) { s with freeCtr := s.freeCtr + 1 } := by
  refine runOp_of_run_eq ?_
  simp only [bind_run, groupAt_run, hg, need_some_run, ha, require_run, decide_eq_true hn, if_true, freeValue_run]

/-- An outstanding word whose operation ends without a trap or a wait completes. -/
theorem performPend_ok {p : Pend} {m : Op Unit} (h : s.leaves m t) : (performPend gk p m).run s = (completePend gk p.id 1).run t := by
  have hm : m s = .ok () t := run_of_leaves h
  show performPend gk p m s = _
  unfold performPend
  rw [hm]
  rfl

theorem answers_wakeStalled (gk cause : Nat) : Answers (wakeStalled gk cause) := by
  refine answers_bind answers_get fun s => ?_
  split
  · exact answers_pure _
  · split
    · exact answers_wake _ _
    · split
      · exact answers_wake _ _
      · exact answers_pure _
    · exact answers_pure _

theorem answers_completePend (gk id cause : Nat) : Answers (completePend gk id cause) := by
  refine answers_bind answers_get fun s => ?_
  split
  · exact answers_pure _
  · split
    · exact answers_putGroup _ _
    · refine answers_bind (answers_putGroup _ _) fun _ => ?_
      dsimp only
      split
      · exact answers_bind (answers_acquireCore _) fun _ => answers_bind (answers_wakeStalled _ _) fun _ => answers_tryEnter _
      · exact answers_bind (answers_wakeStalled _ _) fun _ => answers_tryEnter _

/-! Sleeps that end -/

theorem exec_yieldExpire_ended (hg : tlook gk s.groups = some g) (hy : g.yieldTill ≠ 0) (ht : g.yieldTill ≤ s.cycle) :
    exec (.yieldExpire gk) s = .next (s.setGroup gk { g with yieldTill := 0 }) := by
  refine runOp_ok ?_
  simp only [bind_run, groupAt_run, hg, need_some_run, get_run, require_run, bne_iff_ne.2 hy, decide_eq_true ht, Bool.and_true, if_true,
    modGroup_S _ hg]

theorem exec_yieldExpire_early (hg : tlook gk s.groups = some g) (ht : s.cycle < g.yieldTill) : exec (.yieldExpire gk) s = .next s := by
  refine runOp_done ?_
  simp only [bind_run, groupAt_run, hg, need_some_run, get_run, require_run, decide_eq_false (Nat.not_le.2 ht), Bool.and_false,
    Bool.false_eq_true, if_false]

theorem exec_waitlnTimeout {a d till k v z : Nat} {l : Bool} (hg : tlook gk s.groups = some g)
    (ha : g.asleep = some ⟨.line a l d till k v, z⟩) (ht : till ≤ s.cycle) :
    exec (.waitlnTimeout gk) s = runOp (endWait gk 2 6) s := by
  refine runOp_of_run_eq ?_
  simp only [bind_run, groupAt_run, hg, need_some_run, ha, get_run, require_run, decide_eq_true ht, if_true]

theorem exec_debugRelease_bkpt {z : Nat} (hg : tlook gk s.groups = some g) (ha : g.asleep = some ⟨.debug, z⟩) :
    exec (.debugRelease gk) s = runOp (wake gk 10) (s.setGroup gk { g with released := true }) := by
  refine runOp_of_run_eq ?_
  simp only [bind_run, groupAt_run, hg, need_some_run, ha, modGroup_S _ hg]

theorem exec_debugRelease_other (hg : tlook gk s.groups = some g) (ha : ∀ z, g.asleep ≠ some ⟨.debug, z⟩) :
    exec (.debugRelease gk) s = runOp (endSleep gk 10) s := by
  refine runOp_of_run_eq ?_
  rw [bind_run, groupAt_run, hg]
  dsimp only [need_some_run]
  split
  · exact absurd ‹_› (ha _)
  · rfl

/-! Cores and blocks -/

theorem exec_coreClockGate {c : Nat} (hc : c < cores) (hg : (s.core c).gated = false) (hi : (s.core c).idle + 16 ≤ s.cycle)
    (hw : atWork s c = false) :
    exec (.coreClockGate c) s = .next { s with cores := tput {} s.cores c { s.core c with gated := true } } := by
  have hu : decide (cores ≤ c) = false := decide_eq_false (by omega)
  show onUnit (decide (cores ≤ c)) _ s = _
  rw [hu]
  refine runOp_ok ?_
  simp only [bind_run, get_run, require_run, hg, hw, decide_eq_true hi, Bool.not_false, Bool.and_true, if_true, modCore_run]

theorem exec_blockRelease {n : Nat} (hb : tlook bk s.blocks = some b) (hr : b.releaseAt = some n) (hn : n ≤ s.cycle) :
    exec (.blockRelease bk) s = runOp (b.live.forM fun gi => modGroup (bk * 64 + gi) fun g => { g with readyAt := s.cycle + 24 })
      { s with blocks := tset bk { b with releaseAt := none } s.blocks } := by
  refine runOp_of_run_eq ?_
  simp only [bind_run, get_run, blockAt_run, hb, hr, need_some_run, require_run, decide_eq_true hn, if_true, putBlock_run]

theorem exec_preemptionTimeout {p : Preempt} (hb : tlook bk s.blocks = some b) (hp : b.preempt = some p)
    (ht : p.since + max 1 (pdWdog s (s.partOf (tenantOf b.grid))) ≤ s.cycle) :
    exec (.preemptionTimeout bk) s = runOp (abortGrid b.grid 0x20) s := by
  refine runOp_of_run_eq ?_
  simp only [bind_run, get_run, blockAt_run, hb, hp, need_some_run, require_run, decide_eq_true ht, if_true]

theorem exec_matrixContributionArrival {c : Contrib} (hc : tlook id s.contribs = some c) (hg : tlook c.gk s.groups = some g)
    (hs : c.stuck = none) (hh : c.held = false) : exec (.matrixContributionArrival id) s = runOp (arriveNow id) s := by
  refine runOp_of_run_eq ?_
  simp only [bind_run, get_run, hc, hg, need_some_run, require_run, hs, hh]
  rfl

/-! The events together -/

/-- An outstanding word is performed, and where its operation ends it completes. -/
theorem longLatencyComplete_performs {p : Pend} {m : Op Unit} (he : exec (.longLatencyComplete gk id) s = runOp (performPend gk p m) u) :
    u.gives (performPend gk p m) (exec (.longLatencyComplete gk id) s) ∧
      ∀ v, u.leaves m v → ∃ t, v.leaves (completePend gk p.id 1) t ∧ exec (.longLatencyComplete gk id) s = .next t := by
  rw [he]
  exact ⟨gives_of_run_eq rfl, fun v hv => leaves_of_run_eq (answers_completePend _ _ _) (performPend_ok hv)⟩

/-- Settles O45, event by event. -/
theorem groupEvents : Obligations.GroupEvents := by
  refine ⟨fun s gk g hg => ⟨?trapEntry, ?pend, ?reply, ?yieldEnded, ?yieldEarly, ?waitln, ?debug, ?asleep⟩, ?gate,
    fun s bk b hb => ⟨?release, ?watchdog⟩, ?arrival⟩
  case trapEntry =>
    intro b x entry v list ht hb hx hentry
    have hsome : g.trapping.isSome = true := by rw [ht]; rfl
    rw [exec_trapEntry hg hsome]
    exact ⟨fun hq hc => runOp_ok ((tryEnter_run hg hb hx hentry ht hq hc).trans (enterHandler_run entry v list hg)),
      fun hq => runOp_ok (tryEnter_busy hg hsome hq)⟩
  case pend =>
    intro id p m ha hp hm hs hf hw
    exact longLatencyComplete_performs (exec_longLatencyComplete_pend hg ha hp hm hs hf hw)
  case reply =>
    intro id d a n z ha hn
    rw [exec_longLatencyComplete_reply hg ha hn]
    exact leaves_of_run_eq (answers_bind (answers_acquireCore _) fun _ => answers_bind (answers_modGroup _ _) fun _ => answers_wake _ _) rfl
  case yieldEnded => exact exec_yieldExpire_ended hg
  case yieldEarly => exact exec_yieldExpire_early hg
  case waitln =>
    intro a l d till k v z ha ht
    rw [exec_waitlnTimeout hg ha ht]
    exact leaves_of_run_eq (answers_endWait _ _ _) rfl
  case debug =>
    intro z ha
    rw [exec_debugRelease_bkpt hg ha]
    exact leaves_of_run_eq (answers_wake _ _) rfl
  case asleep =>
    intro ha
    rw [exec_debugRelease_other hg ha]
    exact gives_of_run_eq rfl
  case gate => exact fun s c hc hg hi hw => exec_coreClockGate hc hg hi hw
  case release =>
    intro n hr hn
    rw [exec_blockRelease hb hr hn]
    exact leaves_of_run_eq (answers_forM (fun _ => answers_modGroup _ _) _) rfl
  case watchdog =>
    intro p hp ht
    rw [exec_preemptionTimeout hb hp ht]
    exact leaves_of_run_eq (answers_abortGrid _ _) rfl
  case arrival =>
    intro s id c g hc hg hs hh
    rw [exec_matrixContributionArrival hc hg hs hh]
    exact gives_of_run_eq rfl

end Sys2Proof.Machine
end

section
/-! A step and the instruction that its turn names (02_words.md R68; 12_groups_progress.md R314 to R316; 14_dispatch_lanterns.md R393). -/

namespace Sys2Proof.Machine

variable {s t u v : State} {g : Group} {b : Block} {x : Grid} {h : Hdr} {gk : Nat} {i : Instr}

/-! The turn -/

/-- At no distance the agenda's first turn is taken, unless an issue comes before it. -/
theorem nextTurn_now {a : Act} {rest : List Turn} (ha : s.agenda = ⟨0, a⟩ :: rest) (hn : aheadOf s a = none) :
    nextTurn s = (⟨0, a⟩, { s with agenda := rest }) := by
  simp only [nextTurn, ha, if_true, hn]

/-- An act that is no issue waits for its cycles, where no core owes an issue and no group is awake. -/
theorem nextTurn_later {dt : Nat} {a : Act} {rest : List Turn} (ha : s.agenda = ⟨dt, a⟩ :: rest) (hdt : dt ≠ 0) (hd : dueAct s = none)
    (hb : busyNow s = false) (hi : a.isIssue = false) : nextTurn s = (⟨dt, a⟩, { s with agenda := rest }) := by
  simp [nextTurn, ha, hdt, hd, hb, hi]

/-! The act -/

/-- The act leads to the instruction `i` in the state `t`. -/
def Act.names (a : Act) (s : State) (i : Instr) (t : State) : Prop :=
  a = .event i ∧ t = s ∨ (∃ n, a = .lantern n ∧ reply (lanternWord n) s = some (i, t)) ∨
    (∃ gk b d, a = .issue gk b d ∧ reply (issueWord gk b d) s = some (i, t))

theorem act_of_names {a : Act} (ha : a.names s i t) : act a s = exec i t := by
  rcases ha with ⟨rfl, rfl⟩ | ⟨n, rfl, hr⟩ | ⟨gk, b, d, rfl, hr⟩
  · rfl
  · exact issueThen_reply hr exec
  · exact issueThen_reply hr exec

theorem follow_of_reply (hr : reply (do
    quietly settle
    flushErrors) u = some ((), v)) : follow s u = .next (closeStep s v) := by
  have hm : (do
    quietly settle
    flushErrors : Op Unit) u = .ok () v := reply_some hr
  unfold follow
  rw [hm]

/-! The word of a Lantern's call (R393) -/

theorem lanternWord_reply {n : Nat} {c : Call} {w : W32} (hc : (s.lantern n).call = some c) (he : c.ended = 0)
    (hw : c.routine[c.pc]? = some w) (hd : decodeBeam w = .ok i) :
    reply (lanternWord n) s = some (i, { s with cur := { s.cur with lan := n } }) := by
  have hcall : (({ s with cur := { s.cur with lan := n } } : State).lantern n).call = some c := hc
  unfold reply lanternWord callNow
  simp only [bind_run, modify_run, get_run, hcall, need_some_run, require_run, he, decide_true, if_true, pure_run, hw, hd]

/-! The word of a slot: fetch, subcode, ports, beginning -/

/-- A word that the buffer holds is fetched from it, and its line is referenced (R328, R329). -/
theorem fetchWord_held {line : BitVec 1024} (hg : tlook s.cur.gk s.groups = some g) (hb : tlook (blkOfGrp s.cur.gk) s.blocks = some b)
    (hpc : s.cur.pc.toNat < 2 ^ 56)
    (hl : heldLine s (coreOfGrp s.cur.gk) (tenantOf b.grid) (s.cur.pc.toNat / 128) g s.cur.slotB = some line) :
    fetchWord.run s = .ok (BitVec.ofNat 64 (line.toNat / 2 ^ (s.cur.pc.toNat % 128 / 8 * 64)))
      (s.setGroup s.cur.gk (g.refsAt s.cur.slotB s.cur.pc.toNat)) := by
  have hhigh : s.cur.pc.toNat / 2 ^ 56 = 0 := Nat.div_eq_of_lt hpc
  have ht : selfTenant.run s = .ok (tenantOf b.grid) s := by simp only [selfTenant, bind_run, selfBlock_run hb, pure_run]
  unfold fetchWord
  simp only [bind_run, get_run, self_run hg, ht, hhigh, bne_self_eq_false, Bool.false_eq_true, if_false, pure_run, hl,
    Option.isNone_some, modSelf_run _ hg, Option.getD_some]
  rfl

theorem forM_inert {α : Type} {f : α → Op PUnit} {l : List α} (hf : ∀ a ∈ l, (f a).run s = .ok () s) : (forM l f : Op PUnit).run s = .ok () s := by
  induction l with
  | nil => rfl
  | cons a l ih =>
    rw [forM_cons_run, hf a List.mem_cons_self]
    exact ih fun b hb => hf b (List.mem_cons_of_mem _ hb)

/-- A word of the grid's classes, of no masked feature group, is its instruction (03_opcode_map.md R72, R73). -/
theorem readWord_run {w : W64} (hb : tlook (blkOfGrp s.cur.gk) s.blocks = some b) (hx : s.gridOf b.grid = some x) (hh : x.hdr = some h)
    (hc : classOk h.classes s.dev.stepping w = true) (ho : opcodeAssigned w = true)
    (hf : ∀ k, 1 ≤ k → k ≤ 7 → inGroup w k = true → bitOf (s.part (s.partOf (tenantOf b.grid))).feat k = false) (hd : decode w = .ok i) :
    (readWord w).run s = .ok i s := by
  have hhdr : selfHdr.run s = .ok h s := by simp only [selfHdr, bind_run, selfBlock_run hb, get_run, hx, hh, need_some_run]
  have hfeat : (forM ((List.range 7).map (· + 1)) fun k => if inGroup w k then needFeature k else pure () : Op PUnit).run s = .ok () s := by
    refine forM_inert fun k hk => ?_
    simp only [List.mem_map, List.mem_range] at hk
    rw [ite_run]
    split
    · exact needFeature_run hb (hf k (by omega) (by omega) ‹_›)
    · rfl
  unfold readWord
  simp only [bind_run, hhdr, get_run, hc, ho, Bool.not_true, Bool.false_eq_true, if_false, pure_run, List.forM_eq_forM, hfeat, hd]

/-- Where no request stands at its core's ports, a word is granted its own (02_words.md R68). -/
theorem askPorts_granted {n : Next} {xs : List (Nat × Span)} (hg : tlook gk s.groups = some g) (ha : (s.core (coreOfGrp gk)).asks = []) :
    ∃ cs, (askPorts gk n i xs).run s = .ok () { s with cores := cs } := by
  have hl (t q : Nat) (a : Ask) : (s.core (coreOfGrp gk)).loses t q a = false := by rw [Core.loses, ha]; rfl
  unfold askPorts
  simp only [bind_run, get_run, groupAt_run, hg, need_some_run, hl, modCore_run, Bool.false_eq_true, if_false, pure_run]
  exact ⟨_, rfl⟩

/-- The group with one more word begun (14_dispatch_lanterns.md R390). -/
def Group.counted (g : Group) : Group := { g with issued := sat48 (g.issued + 1) }

/-- The group that its quadrant has chosen, with the slot that issues (R315, R316). -/
def Group.picked (g : Group) (slotB : Bool) : Group := { g with age := 0, yielded := false, lastB := slotB }

/-- The state with the cores, queues and usage counters as given. -/
def State.withUnits (s : State) (cs : Tab Core) (qs : Tab Queue) (us : Tab Usage) : State := { s with cores := cs, queues := qs, usage := us }

/-- The state whose word in progress counts as begun. -/
def State.counting (s : State) : State := { s with cur := { s.cur with counted := true } }

theorem run_bind_ok {α β : Type} {m : Op α} {f : α → Op β} {a : α} {r : EStateM.Result Stop State β} (hm : m.run s = .ok a t)
    (hf : (f a).run t = r) : (m >>= f).run s = r := by
  rw [bind_run, hm]
  exact hf

/-- An operation under a condition that leaves the state as it was. -/
theorem run_ite_bind_ok {α : Type} {c : Prop} [Decidable c] {m : Op PUnit} {f : PUnit → Op α} {r : EStateM.Result Stop State α}
    (hm : m.run s = .ok () s) (hf : (f ()).run s = r) : (if c then m >>= f else f ()).run s = r := by
  rw [ite_run, run_bind_ok hm hf, hf, ite_self]

/-- A word of a group with nothing outstanding is counted for its group, its grid and its tenant. -/
theorem countWord_run (hg : tlook s.cur.gk s.groups = some g) (hb : tlook (blkOfGrp s.cur.gk) s.blocks = some b) (hp : g.pend = []) :
    ∃ qs us, countWord.run s = .ok () ((s.counting.withUnits s.cores qs us).setGroup s.cur.gk g.counted) := by
  let t : State := s.counting.setGroup s.cur.gk g.counted
  have hmod : (modSelf fun g => { g with issued := sat48 (g.issued + 1), pend := g.pend.map Pend.closer }).run s.counting = .ok () t := by
    rw [modSelf_run (s := s.counting) _ hg, hp, List.map_nil, ← hp]
    rfl
  have hunits : ∃ qs us, (do
      modGrid b.grid fun x => { x with issuedE := x.issuedE + 1 }
      modUse (tenantOf b.grid) fun u => { u with issued := u.issued + 1 } : Op Unit).run t = .ok () (t.withUnits t.cores qs us) := ⟨_, _, rfl⟩
  obtain ⟨qs, us, hu⟩ := hunits
  exact ⟨qs, us, run_bind_ok (t := s.counting) rfl (run_bind_ok hmod (run_bind_ok (selfBlock_run (s := t) hb) hu))⟩

/-- A word begins (R315, R319). -/
theorem beginWord_run {n : Next} (hk : s.cur.gk = gk) (hg : tlook gk s.groups = some g) (hb : tlook (blkOfGrp gk) s.blocks = some b)
    (hp : g.pend = []) : ∃ cs qs us, (beginWord gk n i).run s =
      .ok () ((s.counting.withUnits cs qs us).setGroup gk (g.picked n.slotB).counted) := by
  subst hk
  have hcount (cs : Tab Core) : ∃ qs us, countWord.run (({ s with cores := cs } : State).setGroup s.cur.gk (g.picked n.slotB)) =
      .ok () ((s.counting.withUnits cs qs us).setGroup s.cur.gk (g.picked n.slotB).counted) := by
    obtain ⟨qs, us, hc⟩ := countWord_run (s := ({ s with cores := cs } : State).setGroup s.cur.gk (g.picked n.slotB)) (setGroup_same _) hb hp
    exact ⟨qs, us, hc.trans (congrArg _ (setGroup_setGroup (s := s.counting.withUnits cs qs us) (g := g.picked n.slotB) _))⟩
  obtain ⟨qs, us, hc⟩ := hcount _
  refine ⟨_, qs, us, run_bind_ok rfl (run_bind_ok (a := g) ?_ (run_bind_ok rfl (run_bind_ok (modGroup_S _ hg) hc)))⟩
  simp only [groupAt_run, hg, need_some_run]

/-! The issue of a slot's word -/

/-- The group has a word to issue from the slot, and nothing comes before the word: no recorded entry, waiting write or delivery, no
outstanding word and no request at the core's ports (R314, R315; 16_recovery.md R440, R442; 07_matrix.md R486). -/
structure Stands (s : State) (gk : Nat) (slotB : Bool) (g : Group) : Prop where
  group : tlook gk s.groups = some g
  free : mayIssue s gk g = true
  choice : chosen s gk g slotB = true
  ports : (s.core (coreOfGrp gk)).asks = []
  lanes : (g.slot slotB).mask ≠ 0
  replay : g.replay = []
  due : g.due = []
  pend : g.pend = []
  holds : g.holds = []
  kept : g.kept = none
  deliver : g.mx.deliver = false
  ctl : gk ∉ s.poison.ctl

/-- What the slot issues. -/
def Group.nextWord (g : Group) (slotB : Bool) : Next := ⟨slotB, (g.slot slotB).pc, none⟩

/-- The context of the word that the slot issues. -/
def Group.wordCtx (g : Group) (gk : Nat) (slotB d : Bool) : Ctx :=
  { gk := gk, slotB := slotB, pc := (g.slot slotB).pc, defer := d, act := (g.slot slotB).mask, wasOpen := g.regionOpen }

/-- The state whose word in progress is the slot's. -/
def State.onWord (s : State) (gk : Nat) (slotB d : Bool) (g : Group) : State := { s with cur := g.wordCtx gk slotB d }

/-- The group whose slot has gone on behind its word. -/
def Group.passedWord (g : Group) (slotB : Bool) : Group := g.goTo slotB ((g.slot slotB).pc + 8)

/-- The group whose slot has gone on behind its word, with the reference of the word's line (R328). -/
def Group.fetched (g : Group) (slotB : Bool) : Group := (g.passedWord slotB).refsAt slotB (g.slot slotB).pc.toNat

/-- The state after the fetch of the slot's word. -/
def State.fetched (s : State) (gk : Nat) (slotB d : Bool) (g : Group) : State := (s.onWord gk slotB d g).setGroup gk (g.fetched slotB)

variable {slotB d : Bool}

theorem Stands.next (w : Stands s gk slotB g) : g.next? slotB = some (g.nextWord slotB) := by
  simp only [Group.next?, w.replay, if_neg w.lanes]
  rfl

theorem Stands.mayAsk (w : Stands s gk slotB g) : mayAsk s gk g slotB = true := by
  unfold Machine.mayAsk
  rw [w.ports]
  exact w.choice

theorem Stands.unblocked (w : Stands s gk slotB g) : g.blocked = false := by
  rw [Group.blocked, w.pend]
  rfl

theorem stepPast_run (hg : tlook gk s.groups = some g) :
    (stepPast gk (g.nextWord slotB)).run s = .ok () (s.setGroup gk (g.passedWord slotB)) := modGroup_S _ hg

/-- Nothing is delivered before the word of a group that keeps no partials (07_matrix.md R486). -/
theorem deliverPending_run (hg : tlook s.cur.gk s.groups = some g) (hk : g.kept = none) (hd : g.mx.deliver = false) :
    deliverPending.run s = .ok () s := by
  unfold deliverPending
  simp only [bind_run, self_run hg, get_run, hd, Bool.false_eq_true, if_false, pure_run, hk]

theorem heldLine_passedWord {core n line : Nat} :
    heldLine (s.setGroup gk (g.passedWord slotB)) core n line (g.passedWord slotB) slotB = heldLine s core n line g slotB := by
  unfold heldLine Group.passedWord
  rw [goTo_refs]
  rfl

@[simp] theorem fetched_pend : (g.fetched slotB).pend = g.pend := by cases slotB <;> rfl
@[simp] theorem fetched_holds : (g.fetched slotB).holds = g.holds := by cases slotB <;> rfl
@[simp] theorem fetched_futures : (g.fetched slotB).futures = g.futures := by cases slotB <;> rfl

/-- The reference of a line and the issue from its slot do not depend on each other. -/
theorem fetched_picked_counted : ((g.fetched slotB).picked slotB).counted =
    ({ g.setSlot slotB { g.slot slotB with pc := (g.slot slotB).pc + 8 } with
      age := 0, yielded := false, lastB := slotB, issued := sat48 (g.issued + 1) } : Group).refsAt slotB (g.slot slotB).pc.toNat := by
  cases slotB <;> rfl

/-- The word at which a slot stands, in its line. -/
def Group.wordIn (g : Group) (slotB : Bool) (line : BitVec 1024) : W64 :=
  BitVec.ofNat 64 (line.toNat / 2 ^ ((g.slot slotB).pc.toNat % 128 / 8 * 64))

/-- The slot's word is in the buffer, and is the instruction `i` of the grid's classes, of no masked feature group, below the group's limit of
futures (02_words.md R66; 03_opcode_map.md R72, R73). -/
structure Readable (s : State) (gk : Nat) (slotB : Bool) (g : Group) (b : Block) (h : Hdr) (line : BitVec 1024) (i : Instr) : Prop where
  inside : (g.slot slotB).pc.toNat < 2 ^ 56
  held : heldLine s (coreOfGrp gk) (tenantOf b.grid) ((g.slot slotB).pc.toNat / 128) g slotB = some line
  classes : classOk h.classes s.dev.stepping (g.wordIn slotB line) = true
  assigned : opcodeAssigned (g.wordIn slotB line) = true
  features : ∀ k, 1 ≤ k → k ≤ 7 → inGroup (g.wordIn slotB line) k = true → bitOf (s.part (s.partOf (tenantOf b.grid))).feat k = false
  decodes : decode (g.wordIn slotB line) = .ok i
  futures : engineOp (g.wordIn slotB line) = true → g.futures < 64

/-- The state in which the slot's word takes effect. -/
def State.issued (s : State) (gk : Nat) (slotB d : Bool) (g : Group) (cs : Tab Core) (qs : Tab Queue) (us : Tab Usage) (xs : List Span) : State :=
  let t : State := { s.withUnits cs qs us with cur := { g.wordCtx gk slotB d with counted := true, spans := xs } }
  t.setGroup gk ((g.fetched slotB).picked slotB).counted

/-- The slot's word is fetched. -/
theorem fetchSlot_run {line : BitVec 1024} (hb : tlook (blkOfGrp gk) s.blocks = some b) (r : Readable s gk slotB g b h line i) :
    fetchWord.run ((s.onWord gk slotB d g).setGroup gk (g.passedWord slotB)) = .ok (g.wordIn slotB line) (s.fetched gk slotB d g) := by
  have hf := fetchWord_held (s := (s.onWord gk slotB d g).setGroup gk (g.passedWord slotB)) (b := b) (line := line)
    (setGroup_same gk) hb r.inside (heldLine_passedWord.trans r.held)
  exact hf.trans (congrArg _ (setGroup_setGroup gk))

/-- The slot's word, once fetched and read, is granted its ports and begins. -/
theorem beginSlot_run {xs : List (Nat × Span)} (w : Stands s gk slotB g) (hb : tlook (blkOfGrp gk) s.blocks = some b) :
    ∃ cs qs us, (do
      askPorts gk (g.nextWord slotB) i xs
      beginWord gk (g.nextWord slotB) i
      modify fun s => { s with cur := { s.cur with spans := xs.map (·.2) } }
      return i : Op Instr).run (s.fetched gk slotB d g) = .ok i (s.issued gk slotB d g cs qs us (xs.map (·.2))) := by
  obtain ⟨cp, hports⟩ := askPorts_granted (s := s.fetched gk slotB d g) (n := g.nextWord slotB) (i := i) (xs := xs) (setGroup_same gk) w.ports
  obtain ⟨cs, qs, us, hbegin⟩ := beginWord_run (s := { s.fetched gk slotB d g with cores := cp }) (n := g.nextWord slotB) (i := i) rfl
    (setGroup_same gk) hb (by simpa using w.pend)
  have hput := setGroup_setGroup (s := { s.withUnits cs qs us with cur := { g.wordCtx gk slotB d with counted := true, spans := xs.map (·.2) } })
    (g := g.fetched slotB) (g' := ((g.fetched slotB).picked slotB).counted) gk
  exact ⟨cs, qs, us, run_bind_ok hports (run_bind_ok hbegin (run_bind_ok rfl (congrArg (EStateM.Result.ok i) hput)))⟩

/-- The issue of a slot's word: nothing comes before it, it is fetched and read, it does not stall, and it begins. -/
theorem issueWord_run {line : BitVec 1024} (w : Stands s gk slotB g) (hb : tlook (blkOfGrp gk) s.blocks = some b) (hx : s.gridOf b.grid = some x)
    (hh : x.hdr = some h) (r : Readable s gk slotB g b h line i) :
    ∃ cs qs us xs, (issueWord gk slotB d).run s = .ok i (s.issued gk slotB d g cs qs us xs) := by
  let turned : State := { s with cur := { gk := gk, slotB := slotB, defer := d } }
  let past : State := (s.onWord gk slotB d g).setGroup gk (g.passedWord slotB)
  let fetched : State := s.fetched gk slotB d g
  have hgroup (t : State) (g' : Group) (ht : tlook gk t.groups = some g') : (groupAt gk).run t = .ok g' t := by
    rw [groupAt_run, ht, need_some_run]
  have hready : (require (mayIssue s gk g && !g.blocked && mayAsk s gk g slotB)).run s = .ok () s := by
    rw [w.free, w.unblocked, w.mayAsk]
    rfl
  have hdue : (flushDue gk).run turned = .ok () turned := flushDue_run (s := turned) w.group w.ctl w.due
  have hnext : (need (g.next? slotB)).run turned = .ok (g.nextWord slotB) turned := by rw [w.next]; rfl
  have hpast : (stepPast gk (g.nextWord slotB)).run (s.onWord gk slotB d g) = .ok () past := stepPast_run (s := s.onWord gk slotB d g) w.group
  have hdeliver : deliverPending.run past = .ok () past :=
    deliverPending_run (setGroup_same gk) (by rw [Group.passedWord, goTo_kept, w.kept]) (by rw [Group.passedWord, goTo_mx, w.deliver])
  have hread : (readWord (g.wordIn slotB line)).run fetched = .ok i fetched :=
    readWord_run (s := fetched) hb hx hh r.classes r.assigned r.features r.decodes
  have hstall : stallOf fetched gk (g.fetched slotB) (g.nextWord slotB) (g.wordIn slotB line) i = none :=
    stall_none (by simpa using w.pend) (by simpa using w.holds) (by simpa using r.futures)
  let xs := wordSpans fetched gk (g.fetched slotB) false i ((g.nextWord slotB).active (g.fetched slotB) i)
  obtain ⟨cs, qs, us, hbegin⟩ := beginSlot_run (d := d) (i := i) (xs := xs) w hb
  refine ⟨cs, qs, us, xs.map (·.2), ?_⟩
  unfold issueWord
  refine run_bind_ok (hgroup s g w.group) <| run_bind_ok rfl <| run_bind_ok rfl <| run_bind_ok hready <| run_bind_ok (t := turned) rfl ?_
  refine run_bind_ok hdue <| run_bind_ok (hgroup turned g w.group) <| run_bind_ok hnext <| run_bind_ok (t := s.onWord gk slotB d g) rfl ?_
  refine run_bind_ok hpast <| run_ite_bind_ok hdeliver <| run_bind_ok (fetchSlot_run hb r) <| run_bind_ok hread <| run_bind_ok rfl ?_
  refine run_bind_ok (hgroup fetched _ (setGroup_same gk)) ?_
  simp only [hstall]
  exact hbegin

/-- The issue of a slot's word leads to its instruction, and leaves memory, the stores, the blocks and the homes as they were. -/
theorem issueWord_reply {line : BitVec 1024} (w : Stands s gk slotB g) (hb : tlook (blkOfGrp gk) s.blocks = some b)
    (hx : s.gridOf b.grid = some x) (hh : x.hdr = some h) (r : Readable s gk slotB g b h line i) :
    ∃ t, reply (issueWord gk slotB d) s = some (i, t) ∧
      t.cur = { gk := gk, slotB := slotB, pc := (g.slot slotB).pc, defer := d, act := (g.slot slotB).mask, wasOpen := g.regionOpen
                counted := true, spans := t.cur.spans } ∧
      tlook gk t.groups = some ((g.fetched slotB).picked slotB).counted ∧
      t.mem = s.mem ∧ t.store = s.store ∧ t.dstore = s.dstore ∧ t.blocks = s.blocks ∧ t.homes = s.homes ∧ t.sects = s.sects := by
  obtain ⟨cs, qs, us, xs, hrun⟩ := issueWord_run (d := d) w hb hx hh r
  exact ⟨_, reply_of_run hrun, rfl, setGroup_same gk, rfl, rfl, rfl, rfl, rfl, rfl⟩

/-- Settles O58: the turn, the act that leads to its instruction, what follows the act, and the word of a call and of a slot. -/
theorem stepRunsInstruction : Obligations.StepRunsInstruction := by
  intro s i
  refine ⟨?turn, ?act, fun u v hr => follow_of_reply hr, fun n c w hc he hw hd => lanternWord_reply hc he hw hd, ?word⟩
  case turn =>
    refine fun dt b rest ha => ⟨?_, nextTurn_later ha⟩
    rintro rfl
    exact nextTurn_now ha
  case act =>
    intro t ha
    have hact : act (nextTurn s).1.act (passed (nextTurn s).1.dt (nextTurn s).2) = exec i t := act_of_names ha
    rw [← hact]
    rfl
  case word =>
    intro gk slotB d g b x h line hg hb hx hh hfree hchosen hports hlanes hreplay hdue hpend hholds hkept _ hdeliver hctl pc w hpc hline
      hclass hop hfeat hdecode hfut
    have hstands : Stands (passed (nextTurn s).1.dt (nextTurn s).2) gk slotB g :=
      ⟨hg, hfree, hchosen, hports, hlanes, hreplay, hdue, hpend, hholds, hkept, hdeliver, hctl⟩
    have hword := issueWord_reply (d := d) hstands hb hx hh ⟨hpc, hline, hclass, hop, hfeat, hdecode, hfut⟩
    rw [fetched_picked_counted] at hword
    exact hword

end Sys2Proof.Machine
end

section
/-! Worked encodings (03_opcode_map.md; 02_words.md R37, R48, R51, R55 to R57; 14_dispatch_lanterns.md R387). -/

namespace Sys2Proof.Machine

/-- Settles O57: each word is a literal, which the decoder takes to its instruction or refuses. -/
theorem decodedWords : Obligations.DecodedWords := by
  unfold Obligations.DecodedWords
  decide +kernel

end Sys2Proof.Machine
end

section
/-! Integer results of a lane operation as bit vectors (05_lane_scalar_ops.md R123, R126 to R134). -/

namespace Sys2Proof.Machine

variable {n : Nat}

/-! Patterns and the integers they stand for -/

@[simp] theorem sext_toNat (a : BitVec n) : sext a.toNat n = a.toInt := by
  have ha : a.toNat < 2 ^ n := a.isLt
  cases n with
  | zero => simp [sext, BitVec.of_length_zero]
  | succ n =>
    have hsign : a.toNat < 2 ^ n ↔ 2 * a.toNat < 2 ^ (n + 1) := by omega
    simp only [sext, Nat.mod_eq_of_lt ha, BitVec.toInt_eq_toNat_cond, Nat.add_one_sub_one, Nat.succ_ne_zero, if_false, hsign]
    norm_cast

theorem wrap_eq_ofInt (x : Int) : wrap n x = (BitVec.ofInt n x).toNat := by
  rw [wrap, BitVec.toNat_ofInt]
  norm_cast

@[simp] theorem wrap_toInt (a : BitVec n) : wrap n a.toInt = a.toNat := by
  rw [wrap_eq_ofInt, BitVec.ofInt_toInt]

/-! R126 -/

theorem wrap_sub (a b : BitVec n) : wrap n ((a.toNat : Int) - b.toNat) = (a - b).toNat := by
  rw [wrap_eq_ofInt, Int.sub_eq_add_neg, BitVec.ofInt_add, BitVec.ofInt_neg, BitVec.ofInt_natCast, BitVec.ofInt_natCast,
    BitVec.ofNat_toNat, BitVec.ofNat_toNat, BitVec.setWidth_eq, BitVec.setWidth_eq, ← BitVec.sub_eq_add_neg]

theorem wrap_mul_high (a b : BitVec n) : wrap n (a.toInt * b.toInt / 2 ^ n) =
    ((a.signExtend (2 * n) * b.signExtend (2 * n)) >>> n).toNat % 2 ^ n := by
  rw [BitVec.signExtend, BitVec.signExtend, ← BitVec.ofInt_mul, BitVec.toNat_ushiftRight, BitVec.toNat_ofInt, Nat.shiftRight_eq_div_pow]
  generalize a.toInt * b.toInt = p
  obtain ⟨r, hr⟩ := Int.eq_ofNat_of_zero_le (Int.emod_nonneg p (b := ((2 ^ (2 * n) : Nat) : Int)) (by positivity))
  have hq : p = r + 2 ^ n * (2 ^ n * (p / (2 ^ (2 * n) : Nat))) := by
    have hdiv := Int.emod_add_mul_ediv p (2 ^ (2 * n) : Nat)
    rw [hr] at hdiv
    rw [← Int.mul_assoc, ← pow_add, ← two_mul]
    exact_mod_cast hdiv.symm
  rw [hr, hq, wrap, Int.add_mul_ediv_left _ _ (by positivity), Int.add_mul_emod_self_left]
  norm_cast

theorem mul_high (a b : BitVec n) :
    a.toNat * b.toNat / 2 ^ n = ((a.zeroExtend (2 * n) * b.zeroExtend (2 * n)) >>> n).toNat := by
  have hp : a.toNat * b.toNat < 2 ^ (2 * n) := by
    rw [two_mul, pow_add]
    exact Nat.mul_lt_mul'' a.isLt b.isLt
  rw [BitVec.toNat_ushiftRight, BitVec.toNat_mul, BitVec.toNat_setWidth_of_le (by omega), BitVec.toNat_setWidth_of_le (by omega),
    Nat.mod_eq_of_lt hp, Nat.shiftRight_eq_div_pow]

theorem mul_add_toNat (a b c : BitVec n) : (a.toNat * b.toNat + c.toNat) % 2 ^ n = (a * b + c).toNat := by
  rw [BitVec.toNat_add, BitVec.toNat_mul, Nat.mod_add_mod]

theorem wrap_min (a b : BitVec n) : wrap n (min a.toInt b.toInt) = (if a.slt b then a else b).toNat := by
  simp only [BitVec.slt_iff_toInt_lt]
  split
  · rw [min_eq_left (by omega), wrap_toInt]
  · rw [min_eq_right (by omega), wrap_toInt]

theorem wrap_max (a b : BitVec n) : wrap n (max a.toInt b.toInt) = (if a.slt b then b else a).toNat := by
  simp only [BitVec.slt_iff_toInt_lt]
  split
  · rw [max_eq_right (by omega), wrap_toInt]
  · rw [max_eq_left (by omega), wrap_toInt]

theorem min_toNat (a b : BitVec n) : min a.toNat b.toNat = (if a.ult b then a else b).toNat := by
  simp only [BitVec.ult_iff_toNat_lt]
  split <;> omega

theorem max_toNat (a b : BitVec n) : max a.toNat b.toNat = (if a.ult b then b else a).toNat := by
  simp only [BitVec.ult_iff_toNat_lt]
  split <;> omega

theorem natAbs_toInt_mod (a : BitVec n) : a.toInt.natAbs % 2 ^ n = (if a.slt 0 then -a else a).toNat := by
  have hw : a.toInt.natAbs % 2 ^ n = wrap n a.toInt.natAbs := by rw [wrap_eq_ofInt, BitVec.ofInt_natCast, BitVec.toNat_ofNat]
  have h0 : a.slt 0 ↔ a.toInt < 0 := by rw [BitVec.slt_iff_toInt_lt]; simp
  simp only [hw, h0]
  split
  · rw [Int.ofNat_natAbs_of_nonpos (by omega), wrap_eq_ofInt, BitVec.ofInt_neg, BitVec.ofInt_toInt]
  · rw [Int.natAbs_of_nonneg (by omega), wrap_toInt]

/-! R127 -/

theorem wrap_tdiv (a b : BitVec n) : wrap n (a.toInt.tdiv b.toInt) = (a.sdiv b).toNat := by
  rw [wrap_eq_ofInt]
  congr 1
  apply BitVec.eq_of_toInt_eq
  rw [BitVec.toInt_ofInt, BitVec.toInt_sdiv]

theorem wrap_tdiv_rest (a b : BitVec n) : wrap n (a.toInt - a.toInt.tdiv b.toInt * b.toInt) = (a.srem b).toNat := by
  rw [Int.mul_comm, ← Int.tmod_def, ← BitVec.toInt_srem, wrap_toInt]

theorem divEval_zero (rem us : Bool) (n a : Nat) : divEval rem us n a 0 = if rem then a else 2 ^ n - 1 := rfl

theorem toNat_ne_zero {b : BitVec n} (hb : b ≠ 0) : b.toNat ≠ 0 := fun h => hb (BitVec.eq_of_toNat_eq h)

theorem divEval_quot_signed (a : BitVec n) {b : BitVec n} (hb : b ≠ 0) :
    divEval false false n a.toNat b.toNat = (a.sdiv b).toNat := by
  rw [divEval, if_neg (toNat_ne_zero hb), ← wrap_tdiv, ← sext_toNat a, ← sext_toNat b]
  rfl

theorem divEval_rem_signed (a : BitVec n) {b : BitVec n} (hb : b ≠ 0) :
    divEval true false n a.toNat b.toNat = (a.srem b).toNat := by
  rw [divEval, if_neg (toNat_ne_zero hb), ← wrap_tdiv_rest, ← sext_toNat a, ← sext_toNat b]
  rfl

theorem divEval_quot_unsigned (a : BitVec n) {b : BitVec n} (hb : b ≠ 0) : divEval false true n a.toNat b.toNat = (a / b).toNat :=
  if_neg (toNat_ne_zero hb)

theorem divEval_rem_unsigned (a : BitVec n) {b : BitVec n} (hb : b ≠ 0) : divEval true true n a.toNat b.toNat = (a % b).toNat :=
  if_neg (toNat_ne_zero hb)

/-! R128 -/

theorem bitNot_toNat (a : BitVec n) : bitNot a.toNat n = (~~~a).toNat := by
  rw [bitNot, Nat.mod_eq_of_lt a.isLt, BitVec.toNat_not]

theorem shiftL_toNat (a : BitVec n) (k : Nat) : shiftL n a.toNat k = (a <<< k).toNat := by
  unfold shiftL
  split
  · rw [BitVec.shiftLeft_eq_zero (by omega)]; rfl
  · rw [BitVec.toNat_shiftLeft]

theorem shiftR_toNat (a : BitVec n) (k : Nat) : shiftR n a.toNat k = (a >>> k).toNat := by
  unfold shiftR
  split
  · rw [BitVec.ushiftRight_eq_zero (by omega)]; rfl
  · rw [BitVec.toNat_ushiftRight, Nat.mod_eq_of_lt a.isLt]

/-- A shift by the whole width but one leaves the sign alone. -/
theorem ediv_two_pow_of_wide (a : BitVec n) {k : Nat} (hk : n - 1 ≤ k) :
    a.toInt / 2 ^ k = if a.toInt < 0 then -1 else 0 := by
  have hp : (2 : Int) ^ (n - 1) ≤ 2 ^ k := pow_le_pow_right₀ (by omega) hk
  have hlo : -2 ^ (n - 1) ≤ a.toInt := BitVec.le_toInt a
  have hhi : a.toInt < 2 ^ (n - 1) := BitVec.toInt_lt
  split
  · exact Int.ediv_eq_neg_one_of_neg_of_le (by omega) (by omega)
  · exact Int.ediv_eq_zero_of_lt (by omega) (by omega)

theorem wrap_shift (a : BitVec n) (k : Nat) :
    wrap n (a.toInt / 2 ^ (if n ≤ k then n - 1 else k)) = (a.sshiftRight k).toNat := by
  have hk : a.toInt / 2 ^ (if n ≤ k then n - 1 else k) = a.toInt / 2 ^ k := by
    split
    · rw [ediv_two_pow_of_wide a (by omega), ediv_two_pow_of_wide a (by omega)]
    · rfl
  rw [hk, wrap_eq_ofInt, BitVec.sshiftRight, Int.shiftRight_eq_div_pow]
  norm_cast

theorem rotl_toNat (a : BitVec n) (k : Nat) :
    Nat.lor (shiftL n a.toNat (k % n)) (shiftR n a.toNat (n - k % n)) = (a.rotateLeft (k % n)).toNat := by
  rw [shiftL_toNat, shiftR_toNat, BitVec.rotateLeft_def, Nat.mod_mod, BitVec.toNat_or]
  rfl

theorem popCount_eq_length (n x : Nat) : popCount n x = ((List.range n).filter fun i => x.testBit i).length := by
  induction n generalizing x with
  | zero => rfl
  | succ n ih =>
    rw [popCount, ih, List.range_succ_eq_map, List.filter_cons, List.filter_map, Nat.testBit_zero]
    simp only [Function.comp_def, Nat.succ_eq_add_one, Nat.testBit_succ]
    split <;> simp_all; omega

theorem length_takeWhile_range {p : Nat → Bool} {k : Nat} (hk : k ≤ n) (hp : ∀ i < k, p i = true) (hs : k < n → p k = false) :
    ((List.range n).takeWhile p).length = k := by
  obtain ⟨m, rfl⟩ := Nat.exists_eq_add_of_le hk
  have hrest : ((List.range m).map (k + ·)).takeWhile p = [] := by
    cases m with
    | zero => rfl
    | succ m => simp [List.range_succ_eq_map, hs (by omega)]
  rw [List.range_add, List.takeWhile_append_of_pos (fun i hi => hp i (List.mem_range.1 hi)), hrest, List.append_nil, List.length_range]

/-- The zeros of a pattern from its highest bit on. -/
theorem clz_toNat (a : BitVec n) : (if a.toNat = 0 then n else n - 1 - a.toNat.log2) =
    ((List.range n).takeWhile fun i => !a.getMsbD i).length := by
  symm
  split
  · exact length_takeWhile_range (by omega) (fun i hi => by simp_all [BitVec.getMsbD, BitVec.getLsbD]) (by omega)
  · rename_i h0
    have hlog : a.toNat.log2 < n := (Nat.log2_lt h0).2 a.isLt
    refine length_takeWhile_range (by omega) (fun i hi => ?_) fun _ => ?_
    · have hhigh : a.toNat < 2 ^ (n - 1 - i) := (Nat.log2_lt h0).1 (by omega)
      simp [BitVec.getMsbD, BitVec.getLsbD, Nat.testBit_lt_two_pow hhigh]
    · have hbit : n - 1 - (n - 1 - a.toNat.log2) = a.toNat.log2 := by omega
      simp [BitVec.getMsbD, BitVec.getLsbD, hbit, Nat.testBit_log2 h0]
      omega

theorem bitRev_lt (n x : Nat) : bitRev n x < 2 ^ n := by
  induction n generalizing x with
  | zero => exact Nat.one_pos
  | succ n ih =>
    have hx : x % 2 * 2 ^ n ≤ 1 * 2 ^ n := Nat.mul_le_mul_right _ (by omega)
    have hr := ih (x / 2)
    rw [bitRev, pow_succ]
    omega

theorem testBit_bitRev {n i : Nat} (hi : i < n) (x : Nat) : (bitRev n x).testBit i = x.testBit (n - 1 - i) := by
  induction n generalizing x with
  | zero => omega
  | succ n ih =>
    rw [bitRev, Nat.mul_comm, Nat.testBit_two_pow_mul_add _ (bitRev_lt n _)]
    split
    · rw [ih ‹_›, Nat.testBit_div_two]
      congr 1
      omega
    · obtain rfl : i = n := by omega
      simp [Nat.testBit_zero]

/-! R132 -/

theorem icmpCond_mod (us : Bool) (n a b c : Nat) : icmpCond us n a b c = icmpCond us n a b (c % 8) := by
  simp only [icmpCond, Nat.mod_mod]

theorem toNat_beq (a b : BitVec n) : (a.toNat == b.toNat) = (a == b) := by
  rw [Bool.eq_iff_iff, beq_iff_eq, beq_iff_eq, BitVec.toNat_inj]

theorem ule_eq_ult_or_eq (a b : BitVec n) : a.ule b = (a.ult b || a == b) := by
  rw [BitVec.ule_eq_decide, BitVec.ult_eq_decide, ← toNat_beq, Bool.eq_iff_iff]
  simp [Nat.le_iff_lt_or_eq]

theorem icmpCond_eq (us : Bool) (a b : BitVec n) : icmpCond us n a.toNat b.toNat 0 = (a == b) := toNat_beq a b

theorem icmpCond_ne (us : Bool) (a b : BitVec n) : icmpCond us n a.toNat b.toNat 1 = (a != b) := congrArg not (toNat_beq a b)

theorem icmpCond_disjoint (us : Bool) (a b : BitVec n) : icmpCond us n a.toNat b.toNat 6 = (a &&& b == 0) := toNat_beq (a &&& b) 0

theorem icmpCond_meets (us : Bool) (a b : BitVec n) : icmpCond us n a.toNat b.toNat 7 = (a &&& b != 0) :=
  congrArg not (toNat_beq (a &&& b) 0)

theorem icmpCond_slt (a b : BitVec n) : icmpCond false n a.toNat b.toNat 2 = a.slt b := by
  rw [BitVec.slt_eq_decide, ← sext_toNat a, ← sext_toNat b]
  rfl

theorem icmpCond_ult (a b : BitVec n) : icmpCond true n a.toNat b.toNat 2 = a.ult b := rfl

/-- The other conditions of order, by the one of code 2 (R132). -/
theorem icmpCond_le_of_lt (us : Bool) (a b : BitVec n) :
    icmpCond us n a.toNat b.toNat 3 = (icmpCond us n a.toNat b.toNat 2 || a == b) := congrArg (_ || ·) (toNat_beq a b)

theorem icmpCond_gt_of_le (us : Bool) (a b : BitVec n) : icmpCond us n a.toNat b.toNat 4 = !icmpCond us n a.toNat b.toNat 3 := rfl

theorem icmpCond_ge_of_lt (us : Bool) (a b : BitVec n) : icmpCond us n a.toNat b.toNat 5 = !icmpCond us n a.toNat b.toNat 2 := rfl

theorem icmpCond_sle (a b : BitVec n) : icmpCond false n a.toNat b.toNat 3 = a.sle b := by
  rw [icmpCond_le_of_lt, icmpCond_slt, BitVec.sle_eq_slt_or_eq]

theorem icmpCond_ule (a b : BitVec n) : icmpCond true n a.toNat b.toNat 3 = a.ule b := by
  rw [icmpCond_le_of_lt, icmpCond_ult, ule_eq_ult_or_eq]

theorem icmpCond_sgt (a b : BitVec n) : icmpCond false n a.toNat b.toNat 4 = b.slt a := by
  rw [icmpCond_gt_of_le, icmpCond_sle, BitVec.sle_eq_not_slt, Bool.not_not]

theorem icmpCond_ugt (a b : BitVec n) : icmpCond true n a.toNat b.toNat 4 = b.ult a := by
  rw [icmpCond_gt_of_le, icmpCond_ule, BitVec.ule_eq_not_ult, Bool.not_not]

theorem icmpCond_sge (a b : BitVec n) : icmpCond false n a.toNat b.toNat 5 = b.sle a := by
  rw [icmpCond_ge_of_lt, icmpCond_slt, BitVec.sle_eq_not_slt]

theorem icmpCond_uge (a b : BitVec n) : icmpCond true n a.toNat b.toNat 5 = b.ule a := by
  rw [icmpCond_ge_of_lt, icmpCond_ult, BitVec.ule_eq_not_ult]

/-! The results at 32 bits and, in the .L forms, at 64 -/

/-- The operand width of the .L forms and of the others. -/
abbrev formWidth (l : Bool) : Nat := if l then 64 else 32

theorem opValue_int (j : IntOp) (l : Bool) (a b c : BitVec (formWidth l)) :
    opValue (.int j l) a b c = j.eval (formWidth l) a.toNat b.toNat c.toNat := rfl

theorem opValue_div (rem l us : Bool) (a b c : BitVec (formWidth l)) :
    opValue (.div rem l us) a b c = divEval rem us (formWidth l) a.toNat b.toNat := rfl

theorem opValue_icmp {l us p : Bool} {x : Nat} {a b c : BitVec (formWidth l)} (hp : icmpCond us (formWidth l) a.toNat b.toNat x = p)
    (hc : c.toNat % 8 = x) : opValue (.icmp l us) a b c = if p then 2 ^ formWidth l - 1 else 0 := by
  have hv : opValue (.icmp l us) a b c = onesIf (formWidth l) (icmpCond us (formWidth l) a.toNat b.toNat c.toNat) := rfl
  rw [hv, icmpCond_mod, hc, hp]
  rfl

theorem opValue_sel (l : Bool) (a b c : BitVec (formWidth l)) : opValue (.sel l) a b c = if c = 0 then b.toNat else a.toNat := by
  have hv : opValue (.sel l) a b c = if c.toNat != 0 then a.toNat else b.toNat := rfl
  have hc : c.toNat = 0 ↔ c = 0 := by rw [← BitVec.toNat_inj]; rfl
  rw [hv]
  by_cases h0 : c = 0
  · rw [if_pos h0, hc.2 h0]; rfl
  · rw [if_neg h0, if_pos (bne_iff_ne.2 (mt hc.1 h0))]

/-- Settles O7: the results of R126, each an operation on patterns. -/
theorem integerArithmetic : Obligations.IntegerArithmetic := by
  unfold Obligations.IntegerArithmetic
  intro law
  have hlaw (l : Bool) : law l (formWidth l) := by
    intro a b c
    simp only [opValue_int, IntOp.eval, sext_toNat]
    exact ⟨(BitVec.toNat_add a b).symm, wrap_sub a b, (BitVec.toNat_mul a b).symm, wrap_mul_high a b, mul_high a b, mul_add_toNat a b c,
      wrap_min a b, wrap_max a b, min_toNat a b, max_toNat a b, natAbs_toInt_mod a⟩
  exact ⟨hlaw false, hlaw true⟩

/-- Settles O8: by 0, unsigned, and signed with the rest of the truncated quotient. -/
theorem integerDivision : Obligations.IntegerDivision := by
  unfold Obligations.IntegerDivision
  intro law
  have hlaw (l : Bool) : law l (formWidth l) := by
    intro a b c
    simp only [opValue_div]
    by_cases hb : b = 0
    · simp [hb, divEval_zero]
    · simp only [if_neg hb]
      exact ⟨divEval_quot_signed a hb, divEval_rem_signed a hb, divEval_quot_unsigned a hb, divEval_rem_unsigned a hb⟩
  exact ⟨hlaw false, hlaw true⟩

/-- Settles O9: the results of R128, each an operation on patterns or a count of their bits. -/
theorem logicShiftsCounts : Obligations.LogicShiftsCounts := by
  unfold Obligations.LogicShiftsCounts
  intro law
  have hlaw (l : Bool) : law l (formWidth l) := by
    intro a b c
    simp only [opValue_int, IntOp.eval, sext_toNat, bitNot_toNat]
    exact ⟨rfl, rfl, rfl, rfl, shiftL_toNat a _, shiftR_toNat a _, wrap_shift a _, rotl_toNat a _, popCount_eq_length _ _, clz_toNat a,
      fun i hi => testBit_bitRev hi _⟩
  exact ⟨hlaw false, hlaw true⟩

/-- Settles O10, condition by condition. -/
theorem integerCompareSelect : Obligations.IntegerCompareSelect := by
  unfold Obligations.IntegerCompareSelect
  intro law
  have hlaw (l : Bool) : law l (formWidth l) := by
    intro a b c
    exact ⟨fun us => ⟨opValue_icmp (icmpCond_eq us a b), opValue_icmp (icmpCond_ne us a b), opValue_icmp (icmpCond_disjoint us a b),
      opValue_icmp (icmpCond_meets us a b)⟩, opValue_icmp (icmpCond_slt a b), opValue_icmp (icmpCond_sle a b), opValue_icmp (icmpCond_sgt a b),
      opValue_icmp (icmpCond_sge a b), opValue_icmp (icmpCond_ult a b), opValue_icmp (icmpCond_ule a b), opValue_icmp (icmpCond_ugt a b),
      opValue_icmp (icmpCond_uge a b), opValue_sel l a b c⟩
  exact ⟨hlaw false, hlaw true⟩

end Sys2Proof.Machine
end

section
/-! FMIN and FMAX of one element (05_lane_scalar_ops.md R136). -/

namespace Sys2Proof.Machine

variable {f : NF} {a b : Nat}

theorem minMax_nan_nan (max : Bool) (ha : (fdec f a).isNan = true) (hb : (fdec f b).isNan = true) : minMax f max a b = (f.nanCode, .none) := by
  simp only [minMax, ha, hb]

theorem minMax_nan_left (max : Bool) (ha : (fdec f a).isNan = true) (hb : (fdec f b).isNan = false) : minMax f max a b = (b, .none) := by
  simp only [minMax, ha, hb]

theorem minMax_nan_right (max : Bool) (ha : (fdec f a).isNan = false) (hb : (fdec f b).isNan = true) : minMax f max a b = (a, .none) := by
  simp only [minMax, ha, hb]

/-- Whether the first of two numbers counts as the smaller one: by their values, and by the signs of equal ones. -/
def countsLess (x y : FVal) : Bool := x.cmp y == .lt || (x.cmp y == .eq && (x.neg? || !y.neg?))

theorem countsLess_lt {x y : FVal} (h : x.cmp y = .lt) : countsLess x y = true := by simp [countsLess, h]
theorem countsLess_gt {x y : FVal} (h : x.cmp y = .gt) : countsLess x y = false := by simp [countsLess, h]
theorem countsLess_eq {x y : FVal} (h : x.cmp y = .eq) : countsLess x y = (x.neg? || !y.neg?) := by simp [countsLess, h]

theorem minMax_numbers (max : Bool) (ha : (fdec f a).isNan = false) (hb : (fdec f b).isNan = false) :
    minMax f max a b = (if countsLess (fdec f a) (fdec f b) != max then a else b, .none) := by
  cases hc : (fdec f a).cmp (fdec f b) with
  | lt => simp only [minMax, ha, hb, hc, countsLess_lt hc]
  | eq => simp only [minMax, ha, hb, hc, countsLess_eq hc]
  | gt => simp only [minMax, ha, hb, hc, countsLess_gt hc]

/-- Settles O11: by which of the operands are NaN, and for two numbers by their order. -/
theorem floatMinMax : Obligations.FloatMinMax := by
  intro f max a b nanA nanB r
  have hnum (ha : nanA = false) (hb : nanB = false) :
      minMax f max a b = (if countsLess (fdec f a) (fdec f b) != max then a else b, .none) := minMax_numbers max ha hb
  refine ⟨?events, fun ha hb => congrArg Prod.fst (minMax_nan_nan max ha hb), fun ha hb => congrArg Prod.fst (minMax_nan_left max ha hb),
    fun ha hb => congrArg Prod.fst (minMax_nan_right max ha hb), fun ha hb => ?numbers⟩
  case events =>
    show (minMax f max a b).2 = .none
    cases ha : (fdec f a).isNan <;> cases hb : (fdec f b).isNan
    · rw [hnum ha hb]
    · rw [minMax_nan_right max ha hb]
    · rw [minMax_nan_left max ha hb]
    · rw [minMax_nan_nan max ha hb]
  case numbers =>
    have hr : r.1 = if countsLess (fdec f a) (fdec f b) != max then a else b := congrArg Prod.fst (hnum ha hb)
    rw [hr]
    refine ⟨?either, fun h => ?lt, fun h => ?gt, fun h hx hy => ?negFirst, fun h hx hy => ?negLast⟩
    case either => split <;> simp
    case lt => rw [countsLess_lt h]; cases max <;> rfl
    case gt => rw [countsLess_gt h]; cases max <;> rfl
    case negFirst => rw [countsLess_eq h, hx, hy]; cases max <;> rfl
    case negLast => rw [countsLess_eq h, hx, hy]; cases max <;> rfl

end Sys2Proof.Machine
end

section
/-! Words that compute lane results (05_lane_scalar_ops.md R122 to R144; 06_sweep_quantise.md R156 to R167). -/

namespace Sys2Proof.Machine

variable {s : State} {i : Instr} {g g' : Group} {h : Hdr}

/-! What a word reads does not depend on its beginning -/

@[simp] theorem readSrc_begun (gk : Nat) (wide : Bool) (f : Option Fmt) (par l : Nat) (a : Src) :
    readSrc (s.begun i g) gk g' wide f par l a = readSrc s gk g' wide f par l a := by
  cases a <;> simp only [readSrc, laneVal, elemAt_begun]

@[simp] theorem argVal_begun (gk : Nat) (op : LaneOp) (args : FArgs) (l n : Nat) :
    argVal (s.begun i g) gk g' op args l n = argVal s gk g' op args l n := by
  cases args <;> simp only [argVal, readSrc_begun]

@[simp] theorem laneResults_begun (gk : Nat) (op : LaneOp) (args : FArgs) (ls : List Nat) :
    laneResults (s.begun i g) gk g' op args ls = laneResults s gk g' op args ls := by
  simp only [laneResults, argVal_begun]

@[simp] theorem convSrc_begun (gk : Nat) (src : NumFmt) (par l : Nat) (a : Src) :
    convSrc (s.begun i g) gk g' src par l a = convSrc s gk g' src par l a := by
  cases a <;> simp only [convSrc, readSrc_begun]

@[simp] theorem blockVals_begun (gk par : Nat) (a : Src) (first n : Nat) :
    blockVals (s.begun i g) gk g' par a first n = blockVals s gk g' par a first n := by
  simp only [blockVals, readSrc_begun]

@[simp] theorem sideWord_begun (gk : Nat) (args : FArgs) (first : Nat) :
    sideWord (s.begun i g) gk g' args first = sideWord s gk g' args first := readSrc_begun ..

@[simp] theorem packedCode_begun (gk par : Nat) (a : Src) (f : BlkFmt) (first n : Nat) :
    packedCode (s.begun i g) gk g' par a f first n = packedCode s gk g' par a f first n := by
  simp only [packedCode, readSrc_begun]

/-! Events -/

@[simp] theorem counted_none : s.counted .none = s := if_pos rfl

/-- Results without events count nothing. -/
theorem evsOf_silent (ls : List Nat) (v : Nat → Nat) : evsOf (ls.map fun l => (v l, Ev.none)) = .none := by
  induction ls with
  | nil => rfl
  | cons l ls ih => exact ih

/-! Writes -/

theorem putResults_cons (wide : Bool) (d : Dst) (r : Nat × Nat) (rs : List (Nat × Nat)) :
    s.putResults wide d (r :: rs) = (s.putResult wide d r).putResults wide d rs := rfl

theorem putResults_append (wide : Bool) (d : Dst) (xs ys : List (Nat × Nat)) :
    s.putResults wide d (xs ++ ys) = (s.putResults wide d xs).putResults wide d ys := List.foldl_append

theorem putResults_group (wide : Bool) (d : Dst) (rs : List (Nat × Nat)) (hg : tlook s.cur.gk s.groups = some g) :
    ∃ g', tlook s.cur.gk (s.putResults wide d rs).groups = some g' := by
  induction rs generalizing s g with
  | nil => exact ⟨g, hg⟩
  | cons r rs ih =>
    obtain ⟨g', hg'⟩ := putResult_group wide d r hg
    have hrest := ih (s := s.putResult wide d r) (by simpa using hg')
    rwa [putResult_cur, ← putResults_cons] at hrest

theorem writeEach_run (wide : Bool) (d : Dst) (ls : List Nat) (v : Nat → Nat) (hg : tlook s.cur.gk s.groups = some g) :
    (ls.forM fun l => writeDst wide l (v l) d : Op Unit).run s = .ok () (s.putResults wide d (ls.map fun l => (l, v l))) :=
  writeDsts_run wide d ls id v hg

theorem writeZip_run {β : Type} (wide : Bool) (d : Dst) (ls : List Nat) (f : Nat → β) (b : β → Nat) (hg : tlook s.cur.gk s.groups = some g) :
    ((ls.zip (ls.map f)).forM fun (l, x) => writeDst wide l (b x) d : Op Unit).run s =
      .ok () (s.putResults wide d (ls.map fun l => (l, b (f l)))) := by
  have hw := writeDsts_run wide d (ls.zip (ls.map f)) (fun x => x.1) (fun x => b x.2) hg
  rw [zip_map_self, List.map_map] at hw
  rw [zip_map_self]
  exact hw

/-- The results of working lanes are written, and then their events are counted. -/
theorem writeCount_run (wide : Bool) (d : Dst) (ls : List Nat) (f : Nat → Res) (hg : tlook s.cur.gk s.groups = some g) :
    (do
      (ls.zip (ls.map f)).forM fun (l, r) => writeDst wide l r.1 d
      countEvents (evsOf (ls.map f)) : Op Unit).run s =
    .ok () ((s.putResults wide d (ls.map fun l => (l, (f l).1))).counted (evsOf (ls.map f))) :=
  run_bind_ok (writeZip_run wide d ls f Prod.fst hg) (countEvents_run _)

theorem writeLane_run (d : Dst) (m : Mask) (first : Nat) (xs : List (Nat × Nat)) (hg : tlook s.cur.gk s.groups = some g) :
    (xs.forM fun (x, n) => if m.getLsbD (first + n) then writeDst false (first + n) x d else pure () : Op Unit).run s =
    .ok () (s.putResults false d ((xs.filter fun x => m.getLsbD (first + x.2)).map fun x => (first + x.2, x.1))) := by
  induction xs generalizing s g with
  | nil => rfl
  | cons x xs ih =>
    obtain ⟨v, n⟩ := x
    let active (x : Nat × Nat) : Bool := m.getLsbD (first + x.2)
    by_cases hb : m.getLsbD (first + n) = true
    · obtain ⟨g', hg'⟩ := putResult_group false d (first + n, v) hg
      have hrest := ih (s := s.putResult false d (first + n, v)) (by simpa using hg')
      have hx : (if m.getLsbD (first + n) then writeDst false (first + n) v d else pure ()).run s =
          .ok () (s.putResult false d (first + n, v)) := by
        rw [if_pos hb]
        exact writeDst_run false (first + n) v d hg
      rw [List.filter_cons_of_pos (p := active) hb]
      exact run_bind_ok hx hrest
    · have hx : (if m.getLsbD (first + n) then writeDst false (first + n) v d else pure ()).run s = .ok () s := by
        rw [if_neg hb, pure_run]
      rw [List.filter_cons_of_neg (p := active) hb]
      exact run_bind_ok hx (ih hg)

/-- The results of a block: its first lane's number and the values of its lanes from there on, those of active lanes alone (R160). -/
def blockResults (m : Mask) (first : Nat) (xs : List Nat) : List (Nat × Nat) :=
  (xs.zipIdx.filter fun x => m.getLsbD (first + x.2)).map fun x => (first + x.2, x.1)

theorem writeLanes_run (d : Dst) (m : Mask) (first : Nat) (xs : List Nat) (hg : tlook s.cur.gk s.groups = some g) :
    (writeLanes d m first xs).run s = .ok () (s.putResults false d (blockResults m first xs)) := writeLane_run d m first xs.zipIdx hg

theorem writeBlocks_run {β : Type} (d : Dst) (m : Mask) (bs : List β) (a : β → Nat) (v : β → List Nat)
    (hg : tlook s.cur.gk s.groups = some g) :
    (bs.forM fun b => writeLanes d m (a b) (v b) : Op Unit).run s =
      .ok () (s.putResults false d (bs.flatMap fun b => blockResults m (a b) (v b))) := by
  induction bs generalizing s g with
  | nil => rfl
  | cons b bs ih =>
    obtain ⟨g', hg'⟩ := putResults_group false d (blockResults m (a b) (v b)) hg
    rw [List.flatMap_cons, putResults_append]
    exact run_bind_ok (writeLanes_run d m (a b) (v b) hg) (ih (by simpa using hg'))

/-! The common start of a word -/

theorem selfStart_run (w : Issues s i g h) (he : endsRegion i = false) (p : Nat) (k : Mask → Group → Op Unit) :
    (do
      legal i
      let m ← activeMask p
      let g ← self
      k m g : Op Unit).run s = (k (s.activeOf g p) g).run (s.begun i g) :=
  run_bind_ok (legal_run w) <| run_bind_ok (activeMask_begun w p) <| run_bind_ok (self_begun_plain w he) rfl

theorem wordStart_run (w : Issues s i g h) (he : endsRegion i = false) (p : Nat) (k : Mask → State → Group → Op Unit) :
    (do
      legal i
      let m ← activeMask p
      let s ← get
      let g ← self
      k m s g : Op Unit).run s = (k (s.activeOf g p) (s.begun i g) g).run (s.begun i g) :=
  run_bind_ok (legal_run w) <| run_bind_ok (activeMask_begun w p) <| run_bind_ok (get_run _) <| run_bind_ok (self_begun_plain w he) rfl

/-- The state after a word with an effect on its destination and the counters of its core alone. -/
def State.withEffect (s : State) (i : Instr) (g : Group) (e : LaneEffect) : State :=
  ((s.begun i g).putResults e.wide e.dst e.vals).counted e.ev

/-- A word whose lanes each compute a result: the elements are checked, and the results written and counted. -/
theorem perLane_run (w : Issues s i g h) (he : endsRegion i = false) {ls : List Nat} {elems : Nat → List (Nat × Nat)} {wide : Bool}
    {d : Dst} {f : Nat → Res} (hr : s.readable g (perLane ls elems wide d f).elems) :
    (do
      checkElems (ls.flatMap elems)
      (ls.zip (ls.map f)).forM fun (l, r) => writeDst wide l r.1 d
      countEvents (evsOf (ls.map f)) : Op Unit).run (s.begun i g) = .ok () (s.withEffect i g (perLane ls elems wide d f)) :=
  run_bind_ok (checkElems_begun w he hr) (writeCount_run wide d ls f (group_begun w he))

/-! Words of a lane operation -/

/-- What a lane operation computes in one lane. -/
def opResult (s : State) (g : Group) (op : LaneOp) (o : FWord) (l : Nat) : Res :=
  op.eval (argVal s s.cur.gk g op o.args l 0) (argVal s s.cur.gk g op o.args l 1) (argVal s s.cur.gk g op o.args l 2)

theorem laneWord_run {op : LaneOp} {o : FWord} (w : Issues s i g h) (he : endsRegion i = false) (hr : s.readable g (opEffect s g op o).elems) :
    (laneWord i op o).run s = .ok () (s.withEffect i g (opEffect s g op o)) := by
  have hv : (opEffect s g op o).vals = (workLanes g.width o.dst (s.activeOf g o.pred.toNat)).map fun l => (l, (opResult s g op o l).1) := by
    simp only [opEffect, laneResults, zip_map_self, List.map_map]
    rfl
  rw [State.withEffect, hv]
  refine (wordStart_run w he _ _).trans ?_
  simp only [laneResults_begun, begun_gk]
  exact run_bind_ok (checkElems_begun w he hr) (writeCount_run _ _ _ (opResult s g op o) (group_begun w he))

/-- A word that `laneForm` lists is the word of its lane operation, and ends no region. -/
theorem exec_laneForm {op : LaneOp} {o : FWord} (hf : laneForm i = some (op, o)) :
    exec i s = runOp (laneWord i op o) s ∧ endsRegion i = false := by
  unfold laneForm at hf
  split at hf <;> cases hf <;> exact ⟨rfl, rfl⟩

/-! Words whose lanes each compute a result of their own -/

theorem exec_movi {l : Bool} {p : BitVec 3} {d : Dst} {imm : BitVec 17} {e : LaneEffect} (w : Issues s (.movi l p d imm) g h)
    (he : laneEffect s g (.movi l p d imm) = some e) : exec (.movi l p d imm) s = .next (s.withEffect (.movi l p d imm) g e) := by
  cases he
  rw [State.withEffect, perLane, evsOf_silent, counted_none]
  exact runOp_ok <| (selfStart_run w rfl _ _).trans <|
    writeEach_run l d _ (fun _ => wrap (if l then 64 else 32) imm.toInt) (group_begun w rfl)

theorem exec_movh {p : BitVec 3} {d : Dst} {a : Src} {imm : BitVec 16} {e : LaneEffect} (w : Issues s (.movh p d a imm) g h)
    (he : laneEffect s g (.movh p d a imm) = some e) (hr : s.readable g e.elems) :
    exec (.movh p d a imm) s = .next (s.withEffect (.movh p d a imm) g e) := by
  cases he
  rw [State.withEffect, perLane, evsOf_silent, counted_none]
  refine runOp_ok <| (wordStart_run w rfl _ _).trans <| run_bind_ok (checkElems_begun w rfl hr) ?_
  simp only [readSrc_begun, begun_gk]
  exact writeZip_run false d _ (fun l => imm.toNat * 2 ^ 16 + readSrc s s.cur.gk g false none g.width.log2 l a % 2 ^ 16) id (group_begun w rfl)

theorem modeWord_run {wa wd : Bool} {f : Option Fmt} {o : FMode} {r : Nat → Res} (w : Issues s i g h) (he : endsRegion i = false) :
    let e := perLane (workLanes g.width o.dst (s.activeOf g o.pred.toNat)) (fun l => srcElems g.width wa o.par.toNat l o.a) wd o.dst
      fun l => r (readSrc s s.cur.gk g wa f o.par.toNat l o.a)
    s.readable g e.elems → (modeWord i wa wd f o r).run s = .ok () (s.withEffect i g e) := by
  intro e hr
  refine (wordStart_run w he _ _).trans ?_
  simp only [readSrc_begun, begun_gk]
  exact perLane_run w he hr

theorem exec_frnd {f : Fmt} {rm : Rm} {o : FMode} {e : LaneEffect} (w : Issues s (.frnd f rm o) g h)
    (he : laneEffect s g (.frnd f rm o) = some e) (hr : s.readable g e.elems) :
    exec (.frnd f rm o) s = .next (s.withEffect (.frnd f rm o) g e) := by
  cases he
  exact runOp_ok (modeWord_run w rfl hr)

theorem exec_cvt {src dst : NumFmt} {rm : Rm} {us : Bool} {o : FMode} {e : LaneEffect} (w : Issues s (.cvt src dst rm us o) g h)
    (he : laneEffect s g (.cvt src dst rm us o) = some e) (hr : s.readable g e.elems) :
    exec (.cvt src dst rm us o) s = .next (s.withEffect (.cvt src dst rm us o) g e) := by
  cases he
  refine runOp_ok <| (wordStart_run w rfl _ _).trans ?_
  simp only [convSrc_begun, begun_gk]
  exact perLane_run w rfl hr

theorem exec_cvts {src dst : NumFmt} {o : FMode} {c : Src} {e : LaneEffect} (w : Issues s (.cvts src dst o c) g h)
    (he : laneEffect s g (.cvts src dst o c) = some e) (hr : s.readable g e.elems) :
    exec (.cvts src dst o c) s = .next (s.withEffect (.cvts src dst o c) g e) := by
  cases he
  refine runOp_ok <| (wordStart_run w rfl _ _).trans ?_
  simp only [convSrc_begun, readSrc_begun, begun_gk]
  exact perLane_run w rfl hr

/-! Words that cross lanes -/

theorem readable_append {xs ys : List (Nat × Nat)} : s.readable g (xs ++ ys) ↔ s.readable g xs ∧ s.readable g ys := by
  unfold State.readable
  simp only [List.forall_mem_append]

theorem exec_lshfl {o : FWord} {e : LaneEffect} (w : Issues s (.lshfl o) g h) (he : laneEffect s g (.lshfl o) = some e)
    (hr : s.readable g e.elems) : exec (.lshfl o) s = .next (s.withEffect (.lshfl o) g e) := by
  cases he
  obtain ⟨hfrom, hval⟩ := readable_append.1 hr
  refine runOp_ok <| (wordStart_run w rfl _ _).trans <| run_bind_ok (checkElems_begun w rfl hfrom) ?_
  simp only [readSrc_begun, begun_gk]
  refine run_bind_ok (checkElems_begun w rfl hval) ?_
  rw [State.withEffect, counted_none]
  exact writeZip_run false o.dst _ (fun l => readSrc s s.cur.gk g false none (argsPar g.width o.args)
    (readSrc s s.cur.gk g false none (argsPar g.width o.args) l (o.args.src 1) % g.width) (o.args.src 0)) id (group_begun w rfl)

/-- The values that LVOTE, LSCAN and LRED combine. -/
theorem activeVals_run {wide : Bool} {f : Option Fmt} {o : FMode} (w : Issues s i g h) (he : endsRegion i = false)
    (hr : s.readable g (combined s g wide f o).2) :
    (activeVals wide f o (lanesOf g.width (s.activeOf g o.pred.toNat))).run (s.begun i g) =
      .ok (combined s g wide f o).1 (s.begun i g) := by
  refine run_bind_ok (get_run _) <| run_bind_ok (self_begun_plain w he) <| run_bind_ok (checkElems_begun w he hr) ?_
  simp only [readSrc_begun, begun_gk]
  rfl

theorem exec_lvote {v : Vote} {o : FMode} {e : LaneEffect} (w : Issues s (.lvote v o) g h) (he : laneEffect s g (.lvote v o) = some e)
    (hr : s.readable g e.elems) : exec (.lvote v o) s = .next (s.withEffect (.lvote v o) g e) := by
  cases he
  refine runOp_ok <| (selfStart_run w rfl _ _).trans <| run_bind_ok (activeVals_run w rfl hr) ?_
  rw [State.withEffect, counted_none]
  exact writeEach_run false o.dst _ (fun l => voteVal v g.width _ _ (!o.dst.isLane) l) (group_begun w rfl)

theorem exec_lred {l : Bool} {op : ScanOp} {o : FMode} {e : LaneEffect} (w : Issues s (.lred l op o) g h)
    (he : laneEffect s g (.lred l op o) = some e) (hr : s.readable g e.elems) :
    exec (.lred l op o) s = .next (s.withEffect (.lred l op o) g e) := by
  cases he
  refine runOp_ok <| (selfStart_run w rfl _ _).trans <| run_bind_ok (activeVals_run w rfl hr) ?_
  exact run_bind_ok (writeEach_run l o.dst _ (fun _ => scanOut op l _) (group_begun w rfl)) (countEvents_run _)

theorem exec_lscan {l excl : Bool} {op : ScanOp} {o : FMode} {e : LaneEffect} (w : Issues s (.lscan l op excl o) g h)
    (he : laneEffect s g (.lscan l op excl o) = some e) (hr : s.readable g e.elems) :
    exec (.lscan l op excl o) s = .next (s.withEffect (.lscan l op excl o) g e) := by
  cases he
  refine runOp_ok <| (selfStart_run w rfl _ _).trans <| run_bind_ok (activeVals_run w rfl hr) ?_
  by_cases hd : o.dst.isLane = true
  · simp only [if_pos hd]
    exact run_bind_ok (writeDsts_run l o.dst _ Prod.fst (fun x => scanOut op l x.2) (group_begun w rfl)) (countEvents_run _)
  · simp only [if_neg hd]
    exact run_bind_ok (writeEach_run l o.dst _ (fun _ => scanOut op l _) (group_begun w rfl)) (countEvents_run _)

/-! Words of blocks -/

theorem checkAll_begun {par : Nat} {srcs : List Src} (w : Issues s i g h) (he : endsRegion i = false)
    (hr : s.readable g ((List.range g.width).flatMap fun l => srcs.flatMap fun a => srcElems g.width false par l a)) :
    (checkAll par srcs).run (s.begun i g) = .ok () (s.begun i g) :=
  run_bind_ok (self_begun_plain w he) (checkElems_begun w he hr)

/-- A word of blocks has no effect without an active lane. -/
theorem runOp_blockWord {p : BitVec 3} {d : Dst} {par : Nat} {srcs : List Src} {bs : List (Nat × List Nat × Ev)}
    {k : Mask → State → Group → Op Unit} (w : Issues s i g h) (he : endsRegion i = false)
    (hk : s.activeOf g p.toNat ≠ 0 → (k (s.activeOf g p.toNat) (s.begun i g) g).run (s.begun i g) =
      .ok () (s.withEffect i g (blockEffect s g p d par srcs bs))) :
    runOp (do
      legal i
      let m ← activeMask p.toNat
      if m = 0 then finish
      let s ← get
      let g ← self
      k m s g) s = .next (s.withEffect i g (blockEffect s g p d par srcs bs)) := by
  by_cases hm : s.activeOf g p.toNat = 0
  · have hidle : s.withEffect i g (blockEffect s g p d par srcs bs) = s.begun i g := by
      unfold blockEffect
      simp only [if_pos hm]
      exact counted_none
    refine runOp_done ?_
    rw [hidle]
    simp only [bind_run, legal_run w, activeMask_begun w, hm, if_true, finish_run]
  · refine runOp_ok <| run_bind_ok (legal_run w) <| run_bind_ok (activeMask_begun w _) ?_
    simp only [hm, if_false]
    exact run_bind_ok (get_run _) <| run_bind_ok (self_begun_plain w he) (hk hm)

/-- The elements are checked, and the blocks' results written and counted. -/
theorem blocks_run {β : Type} {p : BitVec 3} {d : Dst} {par : Nat} {srcs : List Src} {bs : List (Nat × List Nat × Ev)} {xs : List β}
    {a : β → Nat} {v : β → List Nat} {ev : β → Ev} (w : Issues s i g h) (he : endsRegion i = false) (hm : s.activeOf g p.toNat ≠ 0)
    (hb : xs.map (fun x => (a x, v x, ev x)) = bs) (hr : s.readable g (blockEffect s g p d par srcs bs).elems) :
    (do
      checkAll par srcs
      xs.forM fun x => writeLanes d (s.activeOf g p.toNat) (a x) (v x)
      countEvents (xs.foldl (fun e x => e.or (ev x)) .none) : Op Unit).run (s.begun i g) =
    .ok () (s.withEffect i g (blockEffect s g p d par srcs bs)) := by
  subst hb
  simp only [blockEffect, if_neg hm] at hr
  simp only [blockEffect, if_neg hm, State.withEffect, List.flatMap_map, List.foldl_map]
  exact run_bind_ok (checkAll_begun w he hr) <| run_bind_ok (writeBlocks_run d _ xs a v (group_begun w he)) (countEvents_run _)

theorem evsOf_map {β : Type} (xs : List β) (f : β → Res) : evsOf (xs.map f) = xs.foldl (fun e x => e.or (f x).2) .none := List.foldl_map

theorem exec_qscl {f : BlkFmt} {o : FMode} {e : LaneEffect} (w : Issues s (.qscl f o) g h) (he : laneEffect s g (.qscl f o) = some e)
    (hr : s.readable g e.elems) : exec (.qscl f o) s = .next (s.withEffect (.qscl f o) g e) := by
  cases he
  refine runOp_blockWord w rfl fun hm => ?_
  simp only [blockVals_begun, begun_gk, evsOf_map]
  exact blocks_run w rfl hm List.map_map hr

/-- The blocks that a packing word computes: the first lane, the packed values and the events of each. -/
def packBlocks (s : State) (g : Group) (o : FWord) (f : Nat → List FVal → List Nat × Ev) : List (Nat × List Nat × Ev) :=
  (blockLanes g.width).map fun first =>
    (first, f (bits (sideWord s s.cur.gk g o.args first) 15 8)
      (blockVals s s.cur.gk g (argsPar g.width o.args) (o.args.src 0) first 32))

theorem runOp_packWord {o : FWord} {f : Nat → List FVal → List Nat × Ev} (w : Issues s i g h) (he : endsRegion i = false) :
    let e := blockEffect s g o.pred o.dst (argsPar g.width o.args) [o.args.src 0, o.args.src 1] (packBlocks s g o f)
    s.readable g e.elems → runOp (packWord i o f) s = .next (s.withEffect i g e) := by
  intro e hr
  refine runOp_blockWord w he fun hm => ?_
  simp only [blockVals_begun, sideWord_begun, begun_gk]
  exact blocks_run w he hm (List.map_id _) hr

theorem exec_qpk4 {o : FWord} {e : LaneEffect} (w : Issues s (.qpk4 o) g h) (he : laneEffect s g (.qpk4 o) = some e)
    (hr : s.readable g e.elems) : exec (.qpk4 o) s = .next (s.withEffect (.qpk4 o) g e) := by
  cases he
  exact runOp_packWord w rfl hr

theorem exec_qpk8 {e5 : Bool} {o : FWord} {e : LaneEffect} (w : Issues s (.qpk8 e5 o) g h) (he : laneEffect s g (.qpk8 e5 o) = some e)
    (hr : s.readable g e.elems) : exec (.qpk8 e5 o) s = .next (s.withEffect (.qpk8 e5 o) g e) := by
  cases he
  exact runOp_packWord w rfl hr

theorem exec_qunp {f : BlkFmt} {o : FWord} {e : LaneEffect} (w : Issues s (.qunp f o) g h) (he : laneEffect s g (.qunp f o) = some e)
    (hr : s.readable g e.elems) : exec (.qunp f o) s = .next (s.withEffect (.qunp f o) g e) := by
  cases he
  refine runOp_blockWord w rfl fun hm => ?_
  simp only [packedCode_begun, sideWord_begun, begun_gk]
  exact blocks_run w rfl hm List.map_map hr

theorem exec_qhad {n : BitVec 2} {inv : Bool} {o : FMode} {c : SArg} {e : LaneEffect} (w : Issues s (.qhad n inv o c) g h)
    (he : laneEffect s g (.qhad n inv o c) = some e) (hr : s.readable g e.elems) :
    exec (.qhad n inv o c) s = .next (s.withEffect (.qhad n inv o c) g e) := by
  cases he
  refine runOp_blockWord w rfl fun hm => ?_
  simp only [blockVals_begun, begun_gk]
  exact blocks_run w rfl hm List.map_map hr

/-! Every word of `laneEffect` -/

/-- Settles O1: the words of a lane operation together, the others one by one. -/
theorem laneWordWritesResults : Obligations.LaneWordWritesResults := by
  intro s g h i e w he hr
  show exec i s = .next (s.withEffect i g e)
  cases hf : laneForm i with
  | some x =>
    obtain ⟨op, o⟩ := x
    obtain ⟨hexec, hends⟩ := exec_laneForm (s := s) hf
    have heff : opEffect s g op o = e := by simpa only [laneEffect, hf, Option.some.injEq] using he
    subst heff
    rw [hexec]
    exact runOp_ok (laneWord_run w hends hr)
  | none =>
    have hlisted := he
    simp only [laneEffect, hf] at hlisted
    split at hlisted
    · exact exec_movi w he
    · exact exec_movh w he hr
    · exact exec_frnd w he hr
    · exact exec_lshfl w he hr
    · exact exec_lvote w he hr
    · exact exec_lscan w he hr
    · exact exec_lred w he hr
    · exact exec_cvt w he hr
    · exact exec_cvts w he hr
    · exact exec_qscl w he hr
    · exact exec_qpk4 w he hr
    · exact exec_qpk8 w he hr
    · exact exec_qunp w he hr
    · exact exec_qhad w he hr
    · cases hlisted

end Sys2Proof.Machine
end

section
/-! Compares into a predicate, and QSEED (05_lane_scalar_ops.md R133; 01_machine.md R18; 06_sweep_quantise.md R159). -/

namespace Sys2Proof.Machine

variable {s : State} {i : Instr} {g : Group} {h : Hdr}

/-- A word that `condForm` lists is the compare of its operation, and ends no region. -/
theorem exec_condForm {op : LaneOp} {k : BitVec 3} {o : FSrc} (hf : condForm i = some (op, k, o)) :
    exec i s = runOp (laneCondWord i op k o) s ∧ endsRegion i = false := by
  unfold condForm at hf
  split at hf <;> cases hf <;> exact ⟨rfl, rfl⟩

theorem laneCondWord_run {op : LaneOp} {k : BitVec 3} {o : FSrc} (w : Issues s i g h) (he : endsRegion i = false)
    (hr : s.readable g (argElems g.width op o.args (lanesOf g.width (s.activeOf g o.pred.toNat)))) :
    (laneCondWord i op k o).run s = .ok () (s.after i g (g.setPred k.toNat (condBits s g op k o))) := by
  refine (wordStart_run w he _ _).trans <| run_bind_ok (checkElems_begun w he hr) ?_
  simp only [argVal_begun, begun_gk]
  rw [modSelf_begun w, group_begun_plain he]
  rfl

theorem exec_qseed_idle {p : BitVec 3} {a : SArg} (w : Issues s (.qseed p a) g h) (hm : s.activeOf g p.toNat = 0) :
    exec (.qseed p a) s = .next (s.begun (.qseed p a) g) := by
  refine runOp_done ?_
  simp only [bind_run, legal_run w, activeMask_begun w, hm, if_true, finish_run]

theorem exec_qseed_active {p : BitVec 3} {a : SArg} (w : Issues s (.qseed p a) g h) (hm : s.activeOf g p.toNat ≠ 0) :
    exec (.qseed p a) s = .next (s.after (.qseed p a) g { g with seed := sargVal g a }) := by
  refine runOp_ok <| run_bind_ok (legal_run w) <| run_bind_ok (activeMask_begun w _) ?_
  simp only [hm, if_false]
  rw [modSelf_begun w, group_begun_plain rfl]
  cases a <;> rfl

/-- Settles O2: the compares by what their operation's word does, QSEED by whether a lane is active. -/
theorem compareAndSeedWords : Obligations.CompareAndSeedWords := by
  refine fun s g h => ⟨fun i op k o w hf hr => ?_, fun p a w => ?_⟩
  · obtain ⟨hexec, hends⟩ := exec_condForm (s := s) hf
    rw [hexec]
    exact runOp_ok (laneCondWord_run w hends hr)
  · split
    · exact exec_qseed_idle w ‹_›
    · exact exec_qseed_active w ‹_›

end Sys2Proof.Machine
end

section
/-! What a word that computes lane results leaves unchanged (05_lane_scalar_ops.md R122, R123). -/

namespace Sys2Proof.Machine

variable {s t u : State} {i : Instr} {g g' : Group} {h : Hdr}

/-! The parts of the state that no such word touches -/

/-- `t` is `s` but for the word in progress, groups, cores and the cores' stores with their marks. -/
def State.agrees (s t : State) : Prop :=
  t = { s with cur := t.cur, groups := t.groups, cores := t.cores, store := t.store, poison := t.poison }

theorem State.agrees.refl (s : State) : s.agrees s := rfl

theorem State.agrees.trans (hst : s.agrees t) (htu : t.agrees u) : s.agrees u := by
  unfold State.agrees at *
  refine htu.trans ?_
  rw [hst]

theorem agrees_begun : s.agrees (s.begun i g) := by
  unfold State.begun
  split <;> rfl

theorem agrees_putLane (gk : Nat) (wide : Bool) (n l x : Nat) : s.agrees (s.putLane gk g wide n l x) := by
  unfold State.putLane
  split <;> rfl

theorem agrees_putResult (wide : Bool) (d : Dst) (r : Nat × Nat) : s.agrees (s.putResult wide d r) := by
  unfold State.putResult
  split
  · rfl
  · cases d with
    | lane v => exact agrees_putLane ..
    | sreg m => rfl

theorem agrees_putResults (wide : Bool) (d : Dst) (rs : List (Nat × Nat)) : s.agrees (s.putResults wide d rs) := by
  induction rs generalizing s with
  | nil => exact .refl s
  | cons r rs ih => exact (agrees_putResult wide d r).trans ih

theorem agrees_counted (e : Ev) : s.agrees (s.counted e) := by
  unfold State.counted
  split <;> rfl

theorem agrees_withEffect (e : LaneEffect) : s.agrees (s.withEffect i g e) :=
  agrees_begun.trans <| (agrees_putResults ..).trans (agrees_counted _)

/-! Other groups -/

theorem begun_other_groups {gk : Nat} (hk : gk ≠ s.cur.gk) : tlook gk (s.begun i g).groups = tlook gk s.groups := by
  unfold State.begun
  split
  · exact tlook_tset_other hk _ _
  · rfl

theorem putResult_other_groups (wide : Bool) (d : Dst) (r : Nat × Nat) {gk : Nat} (hk : gk ≠ s.cur.gk) :
    tlook gk (s.putResult wide d r).groups = tlook gk s.groups := by
  unfold State.putResult
  split
  · rfl
  · cases d with
    | lane v => rw [putLane_groups]
    | sreg m => exact tlook_tset_other hk _ _

theorem putResults_other_groups (wide : Bool) (d : Dst) (rs : List (Nat × Nat)) {gk : Nat} (hk : gk ≠ s.cur.gk) :
    tlook gk (s.putResults wide d rs).groups = tlook gk s.groups := by
  induction rs generalizing s with
  | nil => rfl
  | cons r rs ih => rw [putResults_cons, ih (by rwa [putResult_cur]), putResult_other_groups wide d r hk]

/-! The group itself -/

/-- `g'` is `g` but for words of its control area, and of those no predicate differs and no scalar register but the destination `d`. -/
def Group.agrees (d : Dst) (g g' : Group) : Prop :=
  { g' with ctl := [] } = { g with ctl := [] } ∧ (tcanon 0 g.ctl = true →
    tcanon 0 g'.ctl = true ∧ (∀ j, g'.pred j = g.pred j) ∧ ∀ m : BitVec 6, d ≠ .sreg m → g'.scalar m.toNat = g.scalar m.toNat)

theorem Group.agrees.refl (d : Dst) (g : Group) : g.agrees d g := ⟨rfl, fun hc => ⟨hc, fun _ => rfl, fun _ _ => rfl⟩⟩

theorem Group.agrees.trans {d : Dst} {g'' : Group} (h1 : g.agrees d g') (h2 : g'.agrees d g'') : g.agrees d g'' := by
  obtain ⟨hrest, hctl⟩ := h1
  obtain ⟨hrest', hctl'⟩ := h2
  refine ⟨hrest'.trans hrest, fun hc => ?_⟩
  obtain ⟨hc', hpred, hscal⟩ := hctl hc
  obtain ⟨hc'', hpred', hscal'⟩ := hctl' hc'
  exact ⟨hc'', fun j => (hpred' j).trans (hpred j), fun m hm => (hscal' m hm).trans (hscal m hm)⟩

theorem tget_setScalar_other {m k : Nat} (hc : tcanon 0 g.ctl = true) (hk : k ≠ m) (v : W64) :
    tget 0 (g.setScalar m v).ctl k = tget 0 g.ctl k := tget_tput_other _ hk _ hc

theorem pred_setScalar {m : Nat} (hc : tcanon 0 g.ctl = true) (hm : m < 64) (v : W64) (j : Nat) : (g.setScalar m v).pred j = g.pred j := by
  by_cases h0 : j = 0
  · rw [h0, pred_zero, pred_zero, setScalar_width]
  · rw [pred_pos h0, pred_pos h0, tget_setScalar_other hc (by omega), tget_setScalar_other hc (by omega)]

theorem agrees_setScalar (m : BitVec 6) (v : W64) : g.agrees (.sreg m) (g.setScalar m.toNat v) := by
  refine ⟨rfl, fun hc => ⟨tput_canon _ _ _ hc, pred_setScalar hc m.isLt v, fun k hk => tget_setScalar_other hc (fun he => hk ?_) v⟩⟩
  rw [BitVec.eq_of_toNat_eq he]

theorem putResult_own_group (wide : Bool) (d : Dst) (r : Nat × Nat) (hg : tlook s.cur.gk s.groups = some g) :
    ∃ g', tlook s.cur.gk (s.putResult wide d r).groups = some g' ∧ g.agrees d g' := by
  unfold State.putResult
  rw [hg]
  cases d with
  | lane v => exact ⟨g, by rwa [putLane_groups], .refl ..⟩
  | sreg m => exact ⟨_, setGroup_same _, agrees_setScalar m _⟩

theorem putResults_own_group (wide : Bool) (d : Dst) (rs : List (Nat × Nat)) (hg : tlook s.cur.gk s.groups = some g) :
    ∃ g', tlook s.cur.gk (s.putResults wide d rs).groups = some g' ∧ g.agrees d g' := by
  induction rs generalizing s g with
  | nil => exact ⟨g, hg, .refl ..⟩
  | cons r rs ih =>
    obtain ⟨g1, hg1, h1⟩ := putResult_own_group wide d r hg
    obtain ⟨g2, hg2, h2⟩ := ih (s := s.putResult wide d r) (by rwa [putResult_cur])
    rw [putResult_cur] at hg2
    exact ⟨g2, hg2, h1.trans h2⟩

/-! Cores -/

theorem sat48_eq_zero {x : Nat} (hx : sat48 x = 0) : x = 0 := by
  unfold sat48 at hx
  omega

theorem b2n_eq_zero {b : Bool} (hb : b2n b = 0) : b = false := by cases b <;> simp_all [b2n]

/-- An event that is counted leaves a counter that is not 0. -/
theorem count_ne_zero (c : Events) {e : Ev} (he : e ≠ .none) : c.count e ≠ {} := by
  intro hz
  have hflag {x : Nat} {b : Bool} (hx : sat48 (x + b2n b) = 0) : b = false := b2n_eq_zero (Nat.eq_zero_of_add_eq_zero_left (sat48_eq_zero hx))
  injection hz with hnv hof hic hsb
  apply he
  cases e
  rw [Ev.none, Ev.mk.injEq]
  exact ⟨hflag hnv, hflag hof, hflag hic, hflag hsb⟩

/-- A value that no unlisted key has reads back whatever the table's form. -/
theorem tget_tput_of_ne {α : Type} [DecidableEq α] {d x : α} (hx : x ≠ d) (t : Tab α) (k j : Nat) :
    tget d (tput d t k x) j = if j = k then x else tget d t j := by
  simp only [tput, if_neg hx, tget]
  split
  · rename_i hj
    rw [hj, tlook_tset_same, Option.getD_some]
  · rw [tlook_tset_other ‹_›]

theorem core_counted {e : Ev} (he : e ≠ .none) (c : Nat) : (s.counted e).core c =
    if c = coreOfGrp s.cur.gk then { s.core c with events := (s.core c).events.count e } else s.core c := by
  let k : Core := s.core (coreOfGrp s.cur.gk)
  have hk : ({ k with events := k.events.count e } : Core) ≠ {} := fun hz => count_ne_zero _ he (congrArg Core.events hz)
  have hget : (s.counted e).core c = if c = coreOfGrp s.cur.gk then { k with events := k.events.count e } else s.core c := by
    rw [State.counted, if_neg he]
    exact tget_tput_of_ne hk ..
  rw [hget]
  split
  · rename_i hc
    rw [hc]
  · rfl

/-- Counting touches the counters of the core alone. -/
theorem counted_core (e : Ev) (c : Nat) : { (s.counted e).core c with events := {} } = { s.core c with events := {} } := by
  by_cases he : e = .none
  · rw [he, counted_none]
  · rw [core_counted he]
    split <;> rfl

theorem withEffect_core (e : LaneEffect) (c : Nat) :
    { (s.withEffect i g e).core c with events := {} } = { s.core c with events := {} } := by
  rw [State.withEffect, counted_core]
  simp only [State.core, putResults_cores, begun_cores]

/-! The cores' stores -/

/-- The register elements that results in a lane destination are written to. -/
def writtenElems (wide : Bool) (v : Nat) (rs : List (Nat × Nat)) : List (Nat × Nat) :=
  rs.flatMap fun r => if wide then [(v, r.1), (v + 1, r.1)] else [(v, r.1)]

theorem forall_writtenElems {wide : Bool} {v : Nat} {rs : List (Nat × Nat)} {P : Nat → Nat → Prop}
    (hP : ∀ r ∈ rs, P v r.1 ∧ (wide = true → P (v + 1) r.1)) : ∀ x ∈ writtenElems wide v rs, P x.1 x.2 := by
  intro x hx
  obtain ⟨r, hr, hx⟩ := List.mem_flatMap.1 hx
  obtain ⟨hlow, hhigh⟩ := hP r hr
  cases wide with
  | false =>
    obtain rfl : x = (v, r.1) := by simpa using hx
    exact hlow
  | true =>
    obtain rfl | rfl : x = (v, r.1) ∨ x = (v + 1, r.1) := by simpa using hx
    · exact hlow
    · exact hhigh rfl

theorem putElem_canon (hs : tcanon Granule.clean s.store = true) (gk n l x : Nat) :
    tcanon Granule.clean (s.putElem gk g n l x).store = true := by
  rw [putElem_store]
  exact tput_canon _ _ _ hs

/-- What the write of every element keeps, in a state whose store is in canonical form, a lane's result keeps. -/
theorem putLane_keeps {α : Type} (f : State → α) (gk : Nat) (wide : Bool) (n l x : Nat) (hs : tcanon Granule.clean s.store = true)
    (hf : ∀ e ∈ (if wide then [(n, l), (n + 1, l)] else [(n, l)]), ∀ t y, tcanon Granule.clean t.store = true →
      f (t.putElem gk g e.1 e.2 y) = f t) :
    tcanon Granule.clean (s.putLane gk g wide n l x).store = true ∧ f (s.putLane gk g wide n l x) = f s := by
  unfold State.putLane
  split
  · rename_i hw
    rw [if_pos hw] at hf
    let t := s.putElem gk g n l (x % 2 ^ 32)
    have ht : tcanon Granule.clean t.store = true := putElem_canon hs ..
    have hlow : f t = f s := hf (n, l) (by simp) s _ hs
    have hhigh : f (t.putElem gk g (n + 1) l (x / 2 ^ 32)) = f t := hf (n + 1, l) (by simp) t _ ht
    exact ⟨putElem_canon ht .., hhigh.trans hlow⟩
  · rename_i hw
    rw [if_neg hw] at hf
    exact ⟨putElem_canon hs .., hf (n, l) (by simp) s _ hs⟩

theorem putResults_keeps {α : Type} (f : State → α) (wide : Bool) (v : BitVec 8) (rs : List (Nat × Nat))
    (hg : tlook s.cur.gk s.groups = some g) (hs : tcanon Granule.clean s.store = true)
    (hf : ∀ e ∈ writtenElems wide v.toNat rs, ∀ t y, tcanon Granule.clean t.store = true → f (t.putElem s.cur.gk g e.1 e.2 y) = f t) :
    f (s.putResults wide (.lane v) rs) = f s := by
  induction rs generalizing s with
  | nil => rfl
  | cons r rs ih =>
    have hput : s.putResult wide (.lane v) r = s.putLane s.cur.gk g wide v.toNat r.1 r.2 := by rw [State.putResult, hg]
    obtain ⟨hcanon, hstep⟩ := putLane_keeps f s.cur.gk wide v.toNat r.1 r.2 hs fun e he => hf e (List.mem_append_left _ he)
    rw [putResults_cons, hput, ih (by simpa using hg) hcanon, hstep]
    intro e he
    rw [putLane_cur]
    exact hf e (List.mem_append_right _ he)

/-- A scalar destination leaves the stores as they were. -/
theorem putResults_sreg_store (wide : Bool) (m : BitVec 6) (rs : List (Nat × Nat)) : (s.putResults wide (.sreg m) rs).store = s.store := by
  induction rs generalizing s with
  | nil => rfl
  | cons r rs ih =>
    rw [putResults_cons, ih, State.putResult]
    split <;> rfl

theorem elemAt_of_store (hst : t.store = s.store) (gk n l : Nat) : elemAt t gk g n l = elemAt s gk g n l := by
  rw [elemAt_eq_word, elemAt_eq_word, hst]

/-- An element at another place than those of the destination reads as before. -/
theorem elemAt_putResults (wide : Bool) (d : Dst) (rs : List (Nat × Nat)) (hg : tlook s.cur.gk s.groups = some g)
    (hs : tcanon Granule.clean s.store = true) {n l : Nat}
    (hp : ∀ v : BitVec 8, d = .lane v → ∀ r ∈ rs, g.place (coreOfGrp s.cur.gk) n l ≠ g.place (coreOfGrp s.cur.gk) v.toNat r.1 ∧
      (wide = true → g.place (coreOfGrp s.cur.gk) n l ≠ g.place (coreOfGrp s.cur.gk) (v.toNat + 1) r.1)) :
    elemAt (s.putResults wide d rs) s.cur.gk g n l = elemAt s s.cur.gk g n l := by
  cases d with
  | lane v =>
    have hplaces := forall_writtenElems (P := fun n' l' => g.place (coreOfGrp s.cur.gk) n l ≠ g.place (coreOfGrp s.cur.gk) n' l') (hp v rfl)
    exact putResults_keeps (fun t => elemAt t s.cur.gk g n l) wide v rs hg hs fun e he t y ht =>
      elemAt_putElem_other ht y rfl (hplaces e he)
  | sreg m => exact elemAt_of_store (putResults_sreg_store wide m rs) ..

/-- A granule without an element of the destination is as before. -/
theorem granule_putResults (wide : Bool) (d : Dst) (rs : List (Nat × Nat)) (hg : tlook s.cur.gk s.groups = some g)
    (hs : tcanon Granule.clean s.store = true) {k : Nat}
    (hk : ∀ v : BitVec 8, d = .lane v → ∀ r ∈ rs, k ≠ (g.place (coreOfGrp s.cur.gk) v.toNat r.1).1 ∧
      (wide = true → k ≠ (g.place (coreOfGrp s.cur.gk) (v.toNat + 1) r.1).1)) :
    tget Granule.clean (s.putResults wide d rs).store k = tget Granule.clean s.store k := by
  cases d with
  | lane v =>
    have hplaces := forall_writtenElems (P := fun n' l' => k ≠ (g.place (coreOfGrp s.cur.gk) n' l').1) (hk v rfl)
    refine putResults_keeps (fun t => tget Granule.clean t.store k) wide v rs hg hs fun e he t y ht => ?_
    rw [putElem_store]
    exact tget_tput_other _ (hplaces e he) _ ht
  | sreg m => rw [putResults_sreg_store]

/-! The frame of a word of `laneEffect` -/

theorem endsRegion_of_laneEffect {e : LaneEffect} (he : laneEffect s g i = some e) : endsRegion i = false := by
  cases hf : laneForm i with
  | some x => exact (exec_laneForm (s := s) hf).2
  | none =>
    simp only [laneEffect, hf] at he
    split at he
    case h_15 => cases he
    all_goals rfl

/-- Settles O4: the word's next state is the one of O1, and each part of that state keeps what its writes keep. -/
theorem registerWordsFrame : Obligations.RegisterWordsFrame := by
  intro s t g h i e w he hr ht
  obtain rfl : s.withEffect i g e = t := by
    have hexec : exec i s = .next (s.withEffect i g e) := laneWordWritesResults s g h i e w he hr
    rw [hexec] at ht
    injection ht
  have hends := endsRegion_of_laneEffect he
  have hgroup : tlook (s.begun i g).cur.gk (s.begun i g).groups = some g := group_begun w hends
  refine ⟨fun a => ?mem, agrees_withEffect e, fun gk hk => ?others, withEffect_core e, ?own,
    fun hcanon => ⟨fun n l hp => ?elems, fun k hk => ?granules⟩⟩
  case mem => rw [State.withEffect, counted_mem, putResults_mem, begun_mem]
  case others =>
    rw [State.withEffect, counted_groups, putResults_other_groups _ _ _ (by rwa [begun_gk]), begun_other_groups hk]
  case own =>
    obtain ⟨g', hg', hrest, hctl⟩ := putResults_own_group e.wide e.dst e.vals hgroup
    refine ⟨g', by rwa [State.withEffect, counted_groups, ← begun_gk], hrest, fun hc => ?_⟩
    obtain ⟨-, hpred, hscal⟩ := hctl hc
    exact ⟨fun j _ => hpred j, hscal⟩
  case elems =>
    have hs : tcanon Granule.clean (s.begun i g).store = true := by rw [begun_store]; exact State.canonical.store hcanon
    have hput := elemAt_putResults e.wide e.dst e.vals hgroup hs (n := n) (l := l) (by rwa [begun_gk])
    rw [begun_gk, elemAt_begun] at hput
    rw [State.withEffect, elemAt_of_store (counted_store _), hput]
  case granules =>
    have hs : tcanon Granule.clean (s.begun i g).store = true := by rw [begun_store]; exact State.canonical.store hcanon
    have hput := granule_putResults e.wide e.dst e.vals hgroup hs (k := k) (by rwa [begun_gk])
    rw [State.withEffect, counted_store, hput, begun_store]

end Sys2Proof.Machine
end

section
/-! What leaves the queues of the sweep units alone, and what takes a sweep out of one (06_sweep_quantise.md R152, R155). -/

namespace Sys2Proof.Machine

variable {α β : Type} {s t u : State} {core : Nat}

theorem bind_run_ok {m : Op α} {f : α → Op β} {b : β} (h : (m >>= f).run s = .ok b u) : ∃ a t, m.run s = .ok a t ∧ (f a).run t = .ok b u := by
  rw [bind_run] at h
  split at h
  · exact ⟨_, _, ‹_›, h⟩
  · cases h

/-! The table of cores -/

/-- The table of cores is in canonical form. -/
def State.coresCanonical (s : State) : Prop := tcanon {} s.cores = true

/-- The state with a core as given. -/
def State.putCore (s : State) (c : Nat) (k : Core) : State := { s with cores := tput {} s.cores c k }

theorem coresCanonical_putCore (hs : s.coresCanonical) (c : Nat) (k : Core) : (s.putCore c k).coresCanonical := tput_canon _ _ _ hs

theorem core_putCore_same (hs : s.coresCanonical) (c : Nat) (k : Core) : (s.putCore c k).core c = k := tget_tput_same _ _ _ hs

theorem core_putCore_other (hs : s.coresCanonical) {c j : Nat} (hj : j ≠ c) (k : Core) : (s.putCore c k).core j = s.core j :=
  tget_tput_other _ hj _ hs

/-! Operations that leave the queues of sweeps alone -/

/-- From a canonical table of cores on: the table is still canonical, and every core has the sweeps that it had. -/
def State.sweepsKept (s t : State) : Prop := s.coresCanonical → t.coresCanonical ∧ ∀ c, (t.core c).sw = (s.core c).sw

theorem State.sweepsKept.trans (hst : s.sweepsKept t) (htu : t.sweepsKept u) : s.sweepsKept u := by
  intro hs
  obtain ⟨ht, hsw⟩ := hst hs
  obtain ⟨hu, hsw'⟩ := htu ht
  exact ⟨hu, fun c => (hsw' c).trans (hsw c)⟩

theorem sweepsKept_of_cores (h : t.cores = s.cores) : s.sweepsKept t := by
  intro hs
  unfold State.coresCanonical State.core
  rw [h]
  exact ⟨hs, fun _ => rfl⟩

/-- Where the operation answers, it has left every core's sweeps alone. -/
def KeepsSweeps (m : Op α) : Prop := ∀ s a t, m.run s = .ok a t → s.sweepsKept t

theorem keeps_pure (a : α) : KeepsSweeps (pure a : Op α) := by
  rintro s _ _ ⟨⟩
  exact sweepsKept_of_cores rfl

theorem keeps_get : KeepsSweeps (get : Op State) := by
  rintro s _ _ ⟨⟩
  exact sweepsKept_of_cores rfl

theorem keeps_bind {m : Op α} {f : α → Op β} (hm : KeepsSweeps m) (hf : ∀ a, KeepsSweeps (f a)) : KeepsSweeps (m >>= f) := by
  intro s b u hu
  obtain ⟨a, t, ht, hrest⟩ := bind_run_ok hu
  exact (hm s a t ht).trans (hf a t b u hrest)

theorem keeps_forM {f : α → Op PUnit} (hf : ∀ a, KeepsSweeps (f a)) (l : List α) : KeepsSweeps (l.forM f) := by
  induction l with
  | nil => exact keeps_pure _
  | cons a l ih => exact keeps_bind (hf a) fun _ => ih

theorem keeps_modify {f : State → State} (hf : ∀ s, (f s).cores = s.cores) : KeepsSweeps (modify f : Op PUnit) := by
  rintro s _ _ ⟨⟩
  exact sweepsKept_of_cores (hf s)

theorem keeps_modCore (c : Nat) {f : Core → Core} (hf : ∀ k, (f k).sw = k.sw) : KeepsSweeps (modCore c f) := by
  rintro s _ _ ⟨⟩ hs
  refine ⟨coresCanonical_putCore hs c _, fun j => ?_⟩
  by_cases hj : j = c
  · subst hj
    exact (congrArg Core.sw (core_putCore_same hs j _)).trans (hf _)
  · exact congrArg Core.sw (core_putCore_other hs hj _)

theorem keeps_localCtx (gk : Nat) : KeepsSweeps (localCtx gk) := by
  intro s c t ht
  obtain ⟨rfl, -⟩ := localCtx_fix ht
  exact sweepsKept_of_cores rfl

theorem keeps_putGroup (gk : Nat) (g : Group) : KeepsSweeps (putGroup gk g) := keeps_modify fun _ => rfl

theorem keeps_modGroup (gk : Nat) (f : Group → Group) : KeepsSweeps (modGroup gk f) := by
  refine keeps_bind keeps_get fun s => ?_
  split
  · exact keeps_putGroup _ _
  · exact keeps_pure _

theorem keeps_modBlock (bk : Nat) (f : Block → Block) : KeepsSweeps (modBlock bk f) := by
  refine keeps_bind keeps_get fun s => ?_
  split
  · exact keeps_modify fun _ => rfl
  · exact keeps_pure _

/-! Traps and wakes -/

theorem keeps_flushChain (gk : Nat) (ch : Chain) : KeepsSweeps (flushChain gk ch) :=
  keeps_bind keeps_get fun _ => keeps_bind keeps_get fun _ => keeps_bind (keeps_modify fun _ => rfl) fun _ => keeps_pure _

theorem keeps_trapChain (gk : Nat) : KeepsSweeps (trapChain gk) := by
  refine keeps_bind keeps_get fun s => ?_
  split
  · exact keeps_pure _
  · refine keeps_bind (keeps_modGroup _ _) fun _ => ?_
    split
    · exact keeps_modGroup _ _
    · exact keeps_bind (keeps_flushChain _ _) fun _ => keeps_pure _

theorem keeps_tryEnter (gk : Nat) : KeepsSweeps (tryEnter gk) := by
  have henter (entry : W64) (x : TrapInfo) (list : List Recorded) : KeepsSweeps (enterHandler gk entry x list) :=
    keeps_bind keeps_get fun _ => keeps_modGroup _ _
  refine keeps_bind keeps_get fun s => ?_
  dsimp only
  split
  · split
    · split
      · refine keeps_bind (keeps_trapChain _) fun _ => keeps_bind keeps_get fun _ => ?_
        split
        · exact henter _ _ _
        · exact keeps_pure _
      · exact keeps_pure _
    · exact keeps_pure _
  · exact keeps_pure _

theorem keeps_coreWakes (c cause grp : Nat) : KeepsSweeps (coreWakes c cause grp) := by
  refine keeps_bind keeps_get fun s => ?_
  split
  · exact keeps_bind (keeps_modCore c fun _ => rfl) fun _ => keeps_modify fun _ => rfl
  · exact keeps_modCore c fun _ => rfl

theorem keeps_wake (gk cause : Nat) : KeepsSweeps (wake gk cause) := by
  have hgrid (q : Nat) (f : Grid → Grid) : KeepsSweeps (modGrid q f) := keeps_modify fun _ => rfl
  refine keeps_bind keeps_get fun s => ?_
  split
  · exact keeps_pure _
  · split
    · exact keeps_pure _
    · refine keeps_bind (keeps_putGroup _ _) fun _ => ?_
      have hend (trapping : Bool) : KeepsSweeps (do
          coreWakes (coreOfGrp gk) cause (gk % 64)
          if trapping then tryEnter gk) := by
        refine keeps_bind (keeps_coreWakes _ _ _) fun _ => ?_
        split
        · exact keeps_tryEnter _
        · exact keeps_pure _
      dsimp only
      split
      · exact keeps_bind (hgrid _ _) fun _ => hend _
      · exact hend _

theorem keeps_wakeStalled (gk cause : Nat) : KeepsSweeps (wakeStalled gk cause) := by
  refine keeps_bind keeps_get fun s => ?_
  split
  · exact keeps_pure _
  · split
    · exact keeps_wake _ _
    · split
      · exact keeps_wake _ _
      · exact keeps_pure _
    · exact keeps_pure _

theorem keeps_acquireCore (c : Nat) : KeepsSweeps (acquireCore c) :=
  keeps_bind keeps_get fun _ => keeps_bind (keeps_bind keeps_get fun _ => keeps_modCore c fun _ => rfl) fun _ =>
    keeps_bind keeps_get fun _ => keeps_modify fun _ => rfl

theorem keeps_completePend (gk id cause : Nat) : KeepsSweeps (completePend gk id cause) := by
  have hend : KeepsSweeps (do
      wakeStalled gk cause
      tryEnter gk) := keeps_bind (keeps_wakeStalled _ _) fun _ => keeps_tryEnter _
  refine keeps_bind keeps_get fun s => ?_
  split
  · exact keeps_pure _
  · split
    · exact keeps_putGroup _ _
    · refine keeps_bind (keeps_putGroup _ _) fun _ => ?_
      dsimp only
      split
      · exact keeps_bind (keeps_acquireCore _) fun _ => hend
      · exact hend

theorem keeps_countFresh (core : Nat) (new had : Ev) : KeepsSweeps (countFresh core new had) := by
  unfold countFresh
  split
  · exact keeps_pure _
  · exact keeps_modCore core fun _ => rfl

/-! Writes -/

theorem keeps_writeLoc (n x : Nat) (l : Loc) : KeepsSweeps (writeLoc n x l) := by
  have hunlatch (k : Nat) : KeepsSweeps (unlatch k) := by
    refine keeps_bind keeps_get fun s => ?_
    dsimp only
    split
    · exact keeps_modCore _ fun _ => rfl
    · exact keeps_pure _
  cases l with
  | gran die k byte gen trap =>
    cases die with
    | true => exact keeps_modify fun _ => rfl
    | false => exact keeps_bind (hunlatch k) fun _ => keeps_modify fun _ => rfl
  | ctl gk w byte =>
    rw [writeLoc]
    split
    · exact keeps_pure _
    · refine keeps_bind keeps_get fun s => ?_
      split
      · exact keeps_putGroup _ _
      · exact keeps_modBlock _ _

theorem keeps_lineEvents (p : Nat → Wait → Bool) : KeepsSweeps (lineEvents p) := by
  have hend (gk result cause : Nat) : KeepsSweeps (endWait gk result cause) := by
    refine keeps_bind keeps_get fun s => ?_
    split
    · split
      · exact keeps_bind (keeps_putGroup _ _) fun _ => keeps_wake _ _
      · exact keeps_pure _
    · exact keeps_pure _
  refine keeps_bind keeps_get fun s => keeps_forM (fun e => ?_) _
  dsimp only
  split
  · split
    · split
      · exact hend _ _ _
      · exact keeps_pure _
    · exact keeps_pure _
  · exact keeps_pure _

theorem keeps_sweepWrite (c : LocalCtx) (a n x : Nat) : KeepsSweeps (sweepWrite c a n x) := by
  refine keeps_bind (keeps_bind keeps_get fun s => keeps_forM (fun p => ?_) _) fun _ => keeps_bind keeps_get fun s => keeps_forM (fun p => ?_) _
  · dsimp only
    split
    · exact keeps_writeLoc _ _ _
    · exact keeps_pure _
  · dsimp only
    split
    · exact keeps_lineEvents _
    · exact keeps_pure _

/-! The completion of a sweep -/

/-- The operation takes the head out of the core's queue of sweeps. -/
def DropsSweep (core : Nat) (m : Op α) : Prop :=
  ∀ s a t, s.coresCanonical → m.run s = .ok a t → t.coresCanonical ∧ (t.core core).sw = (s.core core).sw.tail

theorem drops_bind_of_keeps {m : Op α} {f : α → Op β} (hm : KeepsSweeps m) (hf : ∀ a, DropsSweep core (f a)) :
    DropsSweep core (m >>= f) := by
  intro s b u hs hu
  obtain ⟨a, t, ht, hrest⟩ := bind_run_ok hu
  obtain ⟨hct, hsw⟩ := hm s a t ht hs
  rw [← hsw]
  exact hf a t b u hct hrest

theorem drops_bind_keeps {m : Op α} {f : α → Op β} (hm : DropsSweep core m) (hf : ∀ a, KeepsSweeps (f a)) :
    DropsSweep core (m >>= f) := by
  intro s b u hs hu
  obtain ⟨a, t, ht, hrest⟩ := bind_run_ok hu
  obtain ⟨hct, hsw⟩ := hm s a t hs ht
  obtain ⟨hcu, hsw'⟩ := hf a t b u hrest hct
  exact ⟨hcu, (hsw' core).trans hsw⟩

theorem drops_modCore_tail (core : Nat) : DropsSweep core (modCore core fun k => { k with sw := k.sw.tail }) := by
  rintro s _ _ hs ⟨⟩
  exact ⟨coresCanonical_putCore hs .., congrArg Core.sw (core_putCore_same hs core _)⟩

theorem drops_sweepDone (core : Nat) (x : SWork) : DropsSweep core (sweepDone core x) := by
  have hend (f : Group → Group) : KeepsSweeps (do
      countFresh core x.ev x.had
      if x.again then modGroup x.gk f
      completePend x.gk x.pid 1) := by
    refine keeps_bind (keeps_countFresh _ _ _) fun _ => ?_
    dsimp only
    split
    · exact keeps_bind (keeps_modGroup _ _) fun _ => keeps_completePend _ _ _
    · exact keeps_completePend _ _ _
  unfold sweepDone
  dsimp only
  split
  · exact drops_bind_of_keeps (keeps_localCtx _) fun c => drops_bind_of_keeps (keeps_sweepWrite _ _ _ _) fun _ =>
      drops_bind_keeps (drops_modCore_tail core) fun _ => hend _
  · exact drops_bind_keeps (drops_modCore_tail core) fun _ => hend _

end Sys2Proof.Machine
end

section
/-! Sweeps (06_sweep_quantise.md R145 to R153). -/

namespace Sys2Proof.Machine

variable {s t u v : State} {i : Instr} {g : Group} {h : Hdr} {b : Block} {c : LocalCtx} {o : SWord} {x y : SWork}
variable {core gk pid n op left : Nat}

@[simp] theorem begun_nextId : (g.begun i).nextId = g.nextId := by unfold Group.begun; split <;> rfl
@[simp] theorem begun_trapping : (g.begun i).trapping = g.trapping := by unfold Group.begun; split <;> rfl

/-! The context of a group's local accesses -/

theorem localCtx_run {y : Grid} (hg : tlook gk s.groups = some g) (hb : tlook (blkOfGrp gk) s.blocks = some b) (hy : s.gridOf b.grid = some y)
    (hh : y.hdr = some h) : (localCtx gk).run s = .ok ⟨gk, g, b, h⟩ s := by
  simp only [localCtx, bind_run, groupAt_run, blockAt_run, hg, hb, get_run, hy, hh, need_some_run, pure_run]

theorem localCtx_group (hc : (localCtx gk).run s = .ok c t) : tlook gk s.groups = some c.g := by
  obtain ⟨g, _, hg, hc⟩ := bind_run_ok hc
  obtain ⟨b, _, -, hc⟩ := bind_run_ok hc
  obtain ⟨_, _, -, hc⟩ := bind_run_ok hc
  obtain ⟨y, _, -, hc⟩ := bind_run_ok hc
  obtain ⟨h, _, -, hc⟩ := bind_run_ok hc
  cases hc
  rw [groupAt_run] at hg
  cases hl : tlook gk s.groups <;> rw [hl] at hg <;> cases hg
  rfl

theorem localCtx_of_reply (h : (reply (localCtx gk) s).map (·.1) = some c) : (localCtx gk).run s = .ok c s := by
  obtain ⟨⟨_, t⟩, hr, rfl⟩ := Option.map_eq_some_iff.1 h
  have hrun := reply_some hr
  obtain ⟨rfl, -⟩ := localCtx_fix hrun
  exact hrun

/-! Iterations -/

theorem badWord_append (c : LocalCtx) (s : State) (xs ys : List (Nat × Nat)) :
    badWord c s (xs ++ ys) = none ↔ badWord c s xs = none ∧ badWord c s ys = none := by
  rw [badWord, List.flatMap_append, List.find?_append, Option.or_eq_none_iff]
  rfl

theorem segRead_eq_some {a z : Nat} : segRead c s a n = some z ↔ badWord c s [(a, n)] = none ∧ c.read s a n 0 = z := by
  unfold segRead
  cases badWord c s [(a, n)] <;> simp

/-- A segment that is read under a condition, and counts as 0 otherwise. -/
theorem segRead_if {p : Prop} [Decidable p] {a z : Nat} (h : (if p then segRead c s a n else some 0) = some z) :
    badWord c s (if p then [(a, n)] else []) = none ∧ (if p then c.read s a n 0 else 0) = z := by
  split at h
  · simpa only [if_pos ‹p›] using segRead_eq_some.1 h
  · simpa only [if_neg ‹¬p›] using ⟨rfl, Option.some.inj h⟩

theorem segRead_unless {p : Prop} [Decidable p] {a z : Nat} (h : (if p then some 0 else segRead c s a n) = some z) :
    badWord c s (if p then [] else [(a, n)]) = none ∧ (if p then 0 else c.read s a n 0) = z := by
  split at h
  · simpa only [if_pos ‹p›] using ⟨rfl, Option.some.inj h⟩
  · simpa only [if_neg ‹¬p›] using segRead_eq_some.1 h

theorem bind_of_ite {α β : Type} (p : Prop) [Decidable p] (a b : Option α) (k : α → Option β) :
    (if p then a.bind k else b.bind k) = (if p then a else b).bind k := by
  split <;> rfl

/-- One iteration, and then the rest. -/
theorem sweepRuns_succ (core left : Nat) (x : SWork) (s : State) :
    sweepRuns core (left + 1) x s = (sweepRuns core 1 x s).bind fun r => sweepRuns core left r.1 r.2 := by
  simp only [sweepRuns, Option.bind_eq_bind, bind_of_ite, Option.bind_assoc]
  congr; funext c; congr; funext a
  split
  · rfl
  · simp only [Option.bind_assoc, Option.bind_some]

/-- An iteration as the unit performs it, with what it does to the unit: a head that has gone on by one. -/
theorem sweepIterate_run (h : sweepRuns core 1 x s = some (y, t)) : (sweepIterate core x).run s = .ok () t ∧
    ∃ u sum ev, s.sweepsKept u ∧ y = { x with next := x.next + 1, sum := sum, ev := ev } ∧ t = u.sweeping core y := by
  simp only [sweepRuns, Option.bind_eq_bind, bind_of_ite, Option.bind_eq_some_iff] at h
  obtain ⟨c, hc, a, ha, h⟩ := h
  obtain ⟨hbadA, rfl⟩ := segRead_unless ha
  have hctx : (localCtx x.gk).run s = .ok c s := localCtx_of_reply hc
  split at h
  · rename_i hop
    cases h
    have hgood : badWord c s (x.reads x.next) = none := by simpa [SWork.reads, hop, sweepUses] using hbadA
    refine ⟨run_bind_ok hctx (run_bind_ok (get_run _) ?_), s, _, _, sweepsKept_of_cores rfl, rfl, rfl⟩
    simp only [hgood, if_pos hop]
    rfl
  · rename_i hop
    simp only [Option.bind_eq_some_iff, Option.some.injEq, Prod.mk.injEq] at h
    obtain ⟨b, hb, d, hd, ⟨_, w⟩, hw, rfl, rfl⟩ := h
    obtain ⟨hbadB, rfl⟩ := segRead_if hb
    obtain ⟨hbadD, rfl⟩ := segRead_if hd
    have hgood : badWord c s (x.reads x.next) = none := by
      simp only [SWork.reads, badWord_append]
      exact ⟨⟨hbadA, hbadB⟩, hbadD⟩
    have hwrite := reply_some hw
    refine ⟨run_bind_ok hctx (run_bind_ok (get_run _) ?_), w, _, _, keeps_sweepWrite _ _ _ _ _ _ _ hwrite, rfl, rfl⟩
    simp only [hgood, if_neg hop]
    exact run_bind_ok hwrite rfl

/-! Steps of a sweep that is alone in its unit -/

/-- The sweep `x` of a group's word is alone in the core's unit, begun, with `left` iterations to go; the table of cores is canonical. -/
structure Sweeps (s : State) (core gk pid : Nat) (x : SWork) (left : Nat) : Prop where
  canon : s.coresCanonical
  alone : (s.core core).sw = [x]
  group : x.gk = gk
  word : x.pid = pid
  begun : x.begun = true
  left : x.next + left = x.count

/-- What the unit does next with the sweep. -/
theorem sweepStep_of_alone (hx : (s.core core).sw = [x]) : (sweepStep core).run s =
    (if !x.begun then sweepBegin core x else if x.next < x.count then sweepIterate core x else sweepDone core x).run s := by
  simp only [sweepStep, bind_run, get_run, hx]

theorem sweepRun_succ (hx : (s.core core).sw = [x]) (hg : x.gk = gk) (hp : x.pid = pid) (hstep : (sweepStep core).run s = .ok () t) (n : Nat) :
    (sweepRun core gk pid (n + 1)).run s = (sweepRun core gk pid n).run t := by
  have hhead : ((s.core core).sw.head?.any fun z => z.gk = gk && z.pid = pid) = true := by simp [hx, hg, hp]
  simp only [sweepRun, bind_run, get_run, hhead, if_true, hstep]

/-- A unit without a sweep does nothing more. -/
theorem sweepRun_idle (hx : (s.core core).sw = []) (n : Nat) : (sweepRun core gk pid n).run s = .ok () s := by
  cases n with
  | zero => rfl
  | succ n => simp [sweepRun, hx]

theorem core_sweeping (hs : s.coresCanonical) (core : Nat) (x : SWork) : ((s.sweeping core x).core core).sw = x :: (s.core core).sw.tail :=
  congrArg Core.sw (core_putCore_same hs core _)

/-- The unit's next step is the sweep's next iteration. -/
theorem Sweeps.iterate (w : Sweeps s core gk pid x (left + 1)) (h : sweepRuns core 1 x s = some (y, t)) :
    (sweepRun core gk pid (n + 1)).run s = (sweepRun core gk pid n).run t ∧ Sweeps t core gk pid y left := by
  obtain ⟨hcanon, halone, hgroup, hword, hbegun, hleft⟩ := w
  obtain ⟨hrun, u, sum, ev, hkept, rfl, rfl⟩ := sweepIterate_run h
  obtain ⟨hcu, hsw⟩ := hkept hcanon
  constructor
  · refine sweepRun_succ halone hgroup hword ?_ n
    rw [sweepStep_of_alone halone, if_neg (by simp [hbegun]), if_pos (by omega), hrun]
  · refine ⟨coresCanonical_putCore hcu .., ?_, hgroup, hword, hbegun, by dsimp only; omega⟩
    rw [core_sweeping hcu, hsw, halone]
    rfl

/-- All iterations in order. -/
theorem Sweeps.iterations (w : Sweeps s core gk pid x left) (h : sweepRuns core left x s = some (y, v)) :
    (sweepRun core gk pid (left + n)).run s = (sweepRun core gk pid n).run v ∧ Sweeps v core gk pid y 0 := by
  induction left generalizing s x with
  | zero =>
    cases h
    rw [Nat.zero_add]
    exact ⟨rfl, w⟩
  | succ left ih =>
    rw [sweepRuns_succ, Option.bind_eq_some_iff] at h
    obtain ⟨⟨x', s'⟩, hone, hrest⟩ := h
    obtain ⟨hrun, w'⟩ := w.iterate (n := left + n) hone
    obtain ⟨hrun', hend⟩ := ih w' hrest
    rw [Nat.add_right_comm]
    exact ⟨hrun.trans hrun', hend⟩

/-- After the last iteration the unit completes the sweep, and then has nothing to do. -/
theorem Sweeps.done (w : Sweeps v core gk pid y 0) (h : v.leaves (sweepDone core y) t) (n : Nat) :
    (sweepRun core gk pid (n + 1)).run v = .ok () t := by
  obtain ⟨hcanon, halone, hgroup, hword, hbegun, hleft⟩ := w
  have hdone : (sweepDone core y).run v = .ok () t := run_of_leaves h
  have hempty : (t.core core).sw = [] := by rw [(drops_sweepDone core y _ _ _ hcanon hdone).2, halone]; rfl
  refine (sweepRun_succ halone hgroup hword ?_ n).trans (sweepRun_idle hempty n)
  rw [sweepStep_of_alone halone, if_neg (by simp [hbegun]), if_neg (by omega), hdone]

/-! The beginning -/

/-- A sweep from its first iteration on as the unit has begun it, with the sum `z` that an SWSUM starts from (R149). -/
def SWork.atStart (x : SWork) (z : Nat) : SWork := { x with begun := true, sum := if x.op = 7 then some z else none }

/-- Nothing that the sweep reads is stale, and the D of an SWSUM holds `z` and no uncorrectable word (R149, R153). -/
structure SweepClean (c : LocalCtx) (s : State) (x : SWork) (z : Nat) : Prop where
  dest : ((if x.op = 7 then segWords (x.d.base, 128) else []).any fun a => c.stale s a 4 0) = false
  segments : staleFrom c s x x.count 0 [] = none
  start : x.op = 7 → segRead c s x.d.base 128 = some z

/-- The unit begins such a sweep of a group that takes no trap. -/
theorem sweepBegin_run {z : Nat} (hc : (localCtx x.gk).run s = .ok c s) (hx : x.next = 0) (hsum : x.sum = none) (ht : c.g.trapping = none)
    (w : SweepClean c s x z) : (sweepBegin core x).run s = .ok () (s.sweeping core (x.atStart z)) := by
  obtain ⟨hdest, hsegs, hstart⟩ := w
  refine run_bind_ok hc (run_bind_ok (get_run _) ?_)
  by_cases hop : x.op = 7
  · obtain ⟨hbad, hread⟩ := segRead_eq_some.1 (hstart hop)
    rw [if_pos hop, List.any_eq_false] at hdest
    have hfind : (segWords (x.d.base, 128)).find? (fun a => c.stale s a 4 0) = none := List.find?_eq_none.2 hdest
    simp only [hop, hsum, hx, decide_true, Option.isNone_none, Bool.and_self, if_true, List.flatMap_cons, List.flatMap_nil, List.append_nil,
      hfind, Nat.sub_zero, hsegs, ht, Option.isSome_none, Bool.false_and, Bool.false_eq_true, if_false, hbad, hread, SWork.atStart]
    rfl
  · simp only [hop, hsum, hx, decide_false, Bool.false_and, Bool.false_eq_true, if_false, List.flatMap_nil, List.find?_nil,
      Nat.sub_zero, hsegs, ht, Option.isSome_none, SWork.atStart, badWord]
    rfl

/-! The word -/

/-- A word that `sweepForm` lists is the sweep of its opcode. -/
theorem exec_sweepForm (hf : sweepForm i = some (op, o)) : exec i s = runOp (sweepExec i op o) s := by
  unfold sweepForm at hf
  split at hf <;> cases hf <;> rfl

/-- A sweep word goes on: it issues with an active lane, not as one that is issued again, and its operands are valid and aligned (R146). -/
structure SweepGoes (s : State) (i : Instr) (g : Group) (h : Hdr) (b : Block) (op : Nat) (o : SWord) : Prop where
  issues : Issues s i g h
  form : sweepForm i = some (op, o)
  block : tlook (blkOfGrp s.cur.gk) s.blocks = some b
  active : s.activeOf g o.pred.toNat ≠ 0
  fresh : s.cur.only = none
  feet : ∀ f ∈ sweepFeet g op o, footBad ⟨s.cur.gk, g.begun i, b, h⟩ (s.begun i g) f = none ∧ f.base % 16 = 0

/-- The state with the word outstanding and its sweep in the unit's queue. -/
def State.sweepQueued (s : State) (i : Instr) (g : Group) (op : Nat) (o : SWord) : State :=
  s.withSweep i g (s.activeOf g o.pred.toNat) o.la.toNat (sweepWork s g op o)

/-- The word puts its sweep into the queue, and where it may be performed at once the unit runs. -/
theorem SweepGoes.run (w : SweepGoes s i g h b op o) : (sweepExec i op o).run s =
    (if s.cur.defer then pure () else sweepRun (coreOfGrp s.cur.gk) s.cur.gk g.nextId (o.count.toNat + 3) : Op Unit).run
      (s.sweepQueued i g op o) := by
  obtain ⟨hi, -, hb, hm, ho, hfeet⟩ := w
  obtain ⟨b', y, hb', hy, hh⟩ := hi.header
  obtain rfl : b = b' := Option.some.inj (hb.symm.trans hb')
  have hctx : (localCtx s.cur.gk).run (s.begun i g) = .ok ⟨s.cur.gk, g.begun i, b, h⟩ (s.begun i g) :=
    localCtx_run (begun_group hi.group) (by simpa using hb) (by rwa [begun_gridOf]) hh
  have hsame : sweepFeet (g.begun i) op o = sweepFeet g op o := by simp only [sweepFeet, begun_scalar]
  have hvalid : (sweepFeet g op o).filterMap (footBad ⟨s.cur.gk, g.begun i, b, h⟩ (s.begun i g)) = [] :=
    List.filterMap_eq_nil_iff.2 fun f hf => (hfeet f hf).1
  have haligned : (sweepFeet g op o).find? (fun f => f.base % 16 != 0) = none :=
    List.find?_eq_none.2 fun f hf => by simp [(hfeet f hf).2]
  refine run_bind_ok (legal_run hi) (run_bind_ok (activeMask_begun hi _) ?_)
  simp only [hm, if_false]
  refine run_bind_ok (get_run _) (run_bind_ok (self_begun hi) ?_)
  simp only [begun_gk]
  refine run_bind_ok hctx ?_
  simp only [hsame, hvalid, lowest_nil, haligned, begun_only, ho, begun_defer]
  refine run_bind_ok (putPend_begun hi _) ?_
  simp only [State.sweepQueued, State.withSweep, pendOf, newPend, begun_nextId, begun_scalar, Option.isSome_none, Bool.false_and,
    Bool.false_eq_true, if_false]
  cases s.cur.defer <;> rfl

theorem exec_sweep_deferred (w : SweepGoes s i g h b op o) (hd : s.cur.defer = true) : exec i s = .next (s.sweepQueued i g op o) := by
  rw [exec_sweepForm w.form]
  exact runOp_ok (w.run.trans (by rw [hd]; rfl))

theorem exec_sweep_now (w : SweepGoes s i g h b op o) (hd : s.cur.defer = false) :
    exec i s = runOp (sweepRun (coreOfGrp s.cur.gk) s.cur.gk g.nextId (o.count.toNat + 3)) (s.sweepQueued i g op o) := by
  rw [exec_sweepForm w.form]
  exact runOp_of_run_eq (w.run.trans (by rw [hd]; rfl))

theorem coresCanonical_after (hs : s.coresCanonical) (g' : Group) : (s.after i g g').coresCanonical := by
  simpa [State.coresCanonical, State.after] using hs

theorem coresCanonical_sweepQueued (hs : s.coresCanonical) : (s.sweepQueued i g op o).coresCanonical :=
  coresCanonical_putCore (coresCanonical_after hs _) _ _

theorem sweepQueued_sw (hs : s.coresCanonical) :
    ((s.sweepQueued i g op o).core (coreOfGrp s.cur.gk)).sw = (s.core (coreOfGrp s.cur.gk)).sw ++ [sweepWork s g op o] := by
  refine (congrArg Core.sw (core_putCore_same (coresCanonical_after hs _) _ _)).trans ?_
  simp [State.core, State.after]

theorem sweepQueued_trapping (ht : g.trapping = none) (hc : (localCtx s.cur.gk).run (s.sweepQueued i g op o) = .ok c t) :
    c.g.trapping = none := by
  have hq : tlook s.cur.gk (s.sweepQueued i g op o).groups = some ((g.begun i).holding _) := setGroup_same (s := s.begun i g) _
  rw [Option.some.inj ((localCtx_group hc).symm.trans hq), holding_trapping, begun_trapping, ht]

/-- A sweep that is alone in its unit, of a word that may be performed at once, runs all its iterations in order and completes, where the
table of cores is canonical. -/
theorem exec_sweep_alone {z : Nat} (w : SweepGoes s i g h b op o) (hs : s.coresCanonical) (hd : s.cur.defer = false)
    (halone : (s.core (coreOfGrp s.cur.gk)).sw = []) (ht : g.trapping = none)
    (hc : (localCtx s.cur.gk).run (s.sweepQueued i g op o) = .ok c (s.sweepQueued i g op o))
    (hclean : SweepClean c (s.sweepQueued i g op o) (sweepWork s g op o) z)
    (hruns : sweepRuns (coreOfGrp s.cur.gk) o.count.toNat ((sweepWork s g op o).atStart z)
      ((s.sweepQueued i g op o).sweeping (coreOfGrp s.cur.gk) ((sweepWork s g op o).atStart z)) = some (y, v))
    (hdone : v.leaves (sweepDone (coreOfGrp s.cur.gk) y) t) : exec i s = .next t := by
  have hu := coresCanonical_sweepQueued (i := i) (g := g) (op := op) (o := o) hs
  have hsw : ((s.sweepQueued i g op o).core (coreOfGrp s.cur.gk)).sw = [sweepWork s g op o] := by rw [sweepQueued_sw hs, halone]; rfl
  have hbegin := sweepBegin_run (core := coreOfGrp s.cur.gk) hc rfl rfl (sweepQueued_trapping ht hc) hclean
  have hfirst := sweepRun_succ hsw rfl rfl ((sweepStep_of_alone hsw).trans hbegin) (o.count.toNat + 2)
  have hbegun : Sweeps _ _ _ _ ((sweepWork s g op o).atStart z) o.count.toNat :=
    ⟨coresCanonical_putCore hu .., (core_sweeping hu _ _).trans (by rw [hsw]; rfl), rfl, rfl, rfl, Nat.zero_add _⟩
  obtain ⟨hrun, hend⟩ := hbegun.iterations (n := 2) hruns
  rw [exec_sweep_now w hd]
  exact runOp_ok (hfirst.trans (hrun.trans (hend.done hdone 1)))

/-! A table of cores that is not canonical -/

/-- A group whose scalar register s1 holds the first address of the register window. -/
def windowGroup : Group :=
  (launchGroup fetchGrid fetchHdr ((List.range 8).map (unitGranules 128 * ·)) { rw := 1, sp := 2 }).setScalar 1 (BitVec.ofNat 64 (2 ^ 56))

/-- A SWSET of one segment at s1. -/
def oneSegment : SWord := ⟨0, 0, 1, 2, 0, 1, 8, 0, 0, 0⟩

/-- A sweep at its end, of the same group and with the number of the word that `windowGroup` issues next. -/
def straySweep : SWork :=
  { gk := 0, pid := 0, op := 9, sub := 0, d := ⟨0, 0, 0, 0, true⟩, a := ⟨0, 0, 0, 0, false⟩, b := ⟨0, 0, 0, 0, false⟩, v := 0, next := 0,
    count := 0, begun := true }

/-- A state whose table of cores lists core 0 twice, first as an idle core. -/
def doubledState : State :=
  { State.readyReset.withFetchWord 64 0 with groups := [(0, windowGroup)], cores := [(0, {}), (0, { sw := [straySweep] })] }

/-- The state with the SWSET outstanding in core 0's unit. -/
def doubledQueued : State := doubledState.sweepQueued (.swset oneSegment) windowGroup 9 oneSegment

/-- What its iteration and its completion leave. -/
def doubledEnd : Option State := do
  let x : SWork := (sweepWork doubledState windowGroup 9 oneSegment).atStart 0
  let r ← sweepRuns 0 1 x (doubledQueued.sweeping 0 x)
  let e ← reply (sweepDone 0 r.1) r.2
  some e.2

theorem doubledState_issues : Issues doubledState (.swset oneSegment) windowGroup fetchHdr :=
  ⟨rfl, ⟨_, fetchGrid, rfl, rfl, rfl⟩, by decide +kernel, by decide +kernel, by decide +kernel⟩

/-- The completion takes the idle entry of core 0 away, and the second entry is core 0 from then on. -/
theorem doubledEnd_sw : doubledEnd.map (fun t => (t.core 0).sw) = some [straySweep] := by decide +kernel

/-- The step of the unit that is left then performs the sweep of the second entry. -/
theorem exec_doubledState_sw : (match exec (.swset oneSegment) doubledState with
    | .next t => (t.core 0).sw
    | _ => [straySweep]) = [] := by decide +kernel

/-- Refutes O12: `doubledState` meets every hypothesis, but its table of cores is not canonical. The completion makes core 0's first entry
an idle core's, which the table does not list; the second entry shows, and the unit goes on with the sweep in it. The statement's first
two parts hold (`exec_sweep_deferred`, `exec_sweep_now`), and its last one where the table of cores is canonical (`exec_sweep_alone`). -/
theorem not_sweepRunsIterations : ¬ Obligations.SweepRunsIterations := by
  intro hall
  obtain ⟨t, ht, hsw⟩ := Option.map_eq_some_iff.1 doubledEnd_sw
  simp only [doubledEnd, Option.bind_eq_bind, Option.bind_eq_some_iff, Option.some.injEq] at ht
  obtain ⟨⟨y, v⟩, hruns, ⟨⟨⟩, t'⟩, hdone, rfl⟩ := ht
  obtain ⟨-, -, hrun⟩ := hall doubledState windowGroup fetchHdr _ (.swset oneSegment) 9 oneSegment doubledState_issues rfl rfl
    (by decide +kernel) rfl (by decide +kernel)
  have hexec := hrun ⟨0, _, _, fetchHdr⟩ 0 y v t' rfl rfl rfl rfl rfl (by decide +kernel) (fun h => absurd h (by decide)) hruns hdone
  have hlast := exec_doubledState_sw
  rw [hexec] at hlast
  exact absurd (hsw.symm.trans hlast) (by decide)

end Sys2Proof.Machine
end

section
/-! Products: MMA and MMSP (07_matrix.md R169 to R176, R181, R184, R193 to R195). -/

namespace Sys2Proof.Machine

variable {s : State} {i : Instr} {g : Group} {h : Hdr} {b : Block} {f : XFmt} {sparse : Bool} {o : XWord}

/-! What a word of the matrix unit reads at issue -/

@[simp] theorem snapDesc_begun (n : BitVec 6) : snapDesc (g.begun i) n = snapDesc g n := by
  simp only [snapDesc, begun_scalar]

@[simp] theorem snapScales_begun (gk : Nat) (scaled : Bool) (n : BitVec 8) :
    snapScales (s.begun i g) gk (g.begun i) scaled n = snapScales s gk g scaled n := by
  simp only [snapScales, elemAt_begun, elemAt_group_begun]

theorem localCtx_begun (w : Issues s i g h) (hb : tlook (blkOfGrp s.cur.gk) s.blocks = some b) :
    (localCtx s.cur.gk).run (s.begun i g) = .ok ⟨s.cur.gk, g.begun i, b, h⟩ (s.begun i g) := by
  obtain ⟨b', y, hb', hy, hh⟩ := w.header
  obtain rfl : b = b' := Option.some.inj (hb.symm.trans hb')
  exact localCtx_run (begun_group w.group) (by simpa using hb) (by rwa [begun_gridOf]) hh

theorem checkDesc_run {d : List Nat} {ab : Bool} (hd : DescLegal d ab) (s : State) : (checkDesc d ab).run s = .ok () s := by
  obtain ⟨hspaces, hspace, ⟨hres, hmin, hmul⟩, halign, hc⟩ := hd
  cases ab with
  | false => simp [-List.getD_eq_getElem?_getD, checkDesc, hspace, hres, hmul, hc, Nat.not_lt.2 hmin]
  | true =>
    obtain ⟨hspA, hspB⟩ := hspaces rfl
    obtain ⟨halA, halB⟩ := halign rfl
    simp [-List.getD_eq_getElem?_getD, -List.contains_eq_mem, checkDesc, hspA, hspB, hspace, hres, hmul, halA, halB, hc, Nat.not_lt.2 hmin]

theorem matrixPort_run (hroom : (s.core (coreOfGrp s.cur.gk)).mx.length < 8) : matrixPort.run s = .ok () s := by
  simp only [matrixPort, bind_run, get_run, if_neg (Nat.not_le.2 hroom), pure_run]

theorem matrixPort_begun (hroom : (s.core (coreOfGrp s.cur.gk)).mx.length < 8) : matrixPort.run (s.begun i g) = .ok () (s.begun i g) :=
  matrixPort_run (by simpa only [State.core, begun_cores, begun_gk] using hroom)

/-! The queue of the unit (R184) -/

/-- What the unit does with a word that may be performed at once: it goes on with it as far as it can, and a contribution that it sends
arrives. -/
def performQueued (core gk pid : Nat) : Op Unit := do
  matrixRun core gk pid 200
  match (← get).contribs.find? fun e => e.2.gk = gk && e.2.pid = some pid with
  | some e => arriveNow e.1
  | none => pure ()

/-- The word is outstanding and last in the queue of its core's unit, which goes on with it where it may be performed at once. -/
theorem enqueueWork_run (w : Issues s i g h) (la : Nat) (m : Mask) (mk : Nat → XWork) : (enqueueWork i la m mk).run (s.begun i g) =
    (if s.cur.defer then pure () else performQueued (coreOfGrp s.cur.gk) s.cur.gk g.nextId : Op Unit).run
      (s.withWork i g m la (mk g.nextId)) := by
  refine run_bind_ok (get_run _) (run_bind_ok (self_begun w) (run_bind_ok (putPend_begun w _) ?_))
  simp only [begun_gk, begun_defer, begun_nextId]
  cases s.cur.defer <;> rfl

/-! The word -/

/-- A product word goes on: it issues with an active lane, not as one that is issued again, the unit has room, its operands are legal. -/
structure ProductGoes (s : State) (i : Instr) (g : Group) (h : Hdr) (b : Block) (f : XFmt) (sparse : Bool) (o : XWord) : Prop where
  issues : Issues s i g h
  block : tlook (blkOfGrp s.cur.gk) s.blocks = some b
  active : s.activeOf g o.pred.toNat ≠ 0
  fresh : s.cur.only = none
  room : (s.core (coreOfGrp s.cur.gk)).mx.length < 8
  desc : DescLegal (snapDesc g o.desc) true
  validA : operandBadAt ⟨s.cur.gk, g.begun i, b, h⟩ (s.begun i g) (productWork s g i f sparse o).w true = none
  validB : operandBadAt ⟨s.cur.gk, g.begun i, b, h⟩ (s.begun i g) (productWork s g i f sparse o).w false = none
  scales : s.readable g (scaleElems f o.scale.toNat)

/-- Its checks pass, and it goes into the queue with what it has read. -/
theorem ProductGoes.run (w : ProductGoes s i g h b f sparse o) : (productWord i f sparse o).run s =
    (enqueueWork i o.la.toNat (s.activeOf g o.pred.toNat) fun pid => { productWork s g i f sparse o with pid := pid }).run
      (s.begun i g) := by
  obtain ⟨hi, hb, hm, ho, hroom, hdesc, hvalA, hvalB, hscales⟩ := w
  have hscales' : (checkElems (scaleElems f o.scale.toNat)).run (s.begun i g) = .ok () (s.begun i g) :=
    checkElems_run (by simpa using begun_group (i := i) hi.group) (readable_group_begun hscales)
  refine run_bind_ok (legal_run hi) (run_bind_ok (activeMask_begun hi _) ?_)
  simp only [hm, if_false]
  refine run_bind_ok (matrixPort_begun hroom) (run_bind_ok (get_run _) (run_bind_ok (self_begun hi) ?_))
  simp only [begun_only, ho, Option.isSome_none, Bool.false_and, Bool.false_eq_true, if_false, snapDesc_begun, snapScales_begun, begun_gk,
    begun_width]
  refine run_bind_ok (checkDesc_run hdesc _) (run_bind_ok (localCtx_begun hi hb) ?_)
  simp only [productWork] at hvalA hvalB
  simp only [hvalA, hvalB]
  exact run_bind_ok hscales' rfl

/-- The state with the word outstanding and in the unit's queue. -/
def State.productQueued (s : State) (i : Instr) (g : Group) (f : XFmt) (sparse : Bool) (o : XWord) : State :=
  s.withWork i g (s.activeOf g o.pred.toNat) o.la.toNat (productWork s g i f sparse o)

theorem ProductGoes.queues (w : ProductGoes s i g h b f sparse o) : (productWord i f sparse o).run s =
    (if s.cur.defer then pure () else performQueued (coreOfGrp s.cur.gk) s.cur.gk g.nextId : Op Unit).run (s.productQueued i g f sparse o) :=
  w.run.trans (enqueueWork_run w.issues _ _ _)

/-- Settles O41: the word goes into the queue, and its core's unit goes on with it where it may be performed at once. -/
theorem productWordsRun : Obligations.ProductWordsRun := by
  intro s g h b f sparse o
  dsimp only
  intro hi hb hm ho hroom hdesc hvalA hvalB hscales
  have hexec : exec (if sparse then .mmsp f o else .mma f o) s =
      runOp (productWord (if sparse then .mmsp f o else .mma f o) f sparse o) s := by
    cases sparse <;> rfl
  have hrun := ProductGoes.queues ⟨hi, hb, hm, ho, hroom, hdesc, hvalA, hvalB, hscales⟩
  rw [hexec]
  refine ⟨fun hd => ?_, fun hd => ?_⟩
  · rw [hd] at hrun
    exact runOp_ok hrun
  · rw [hd] at hrun
    exact gives_of_run_eq hrun

end Sys2Proof.Machine
end

section
/-! A group's translations: what the core's TLB holds, and the groups left alone (15_isolation.md R408, R416, R418). -/

namespace Sys2Proof.Machine

variable {α β : Type} {s t : State} {g : Group} {n : Need} {gk tn va lane bits' : Nat} {r : VRef}

/-- An address that a TLB entry takes to memory, with the permission that the access needs, is mapped there. -/
theorem mapLane_placed (hg : tlook gk s.groups = some g) (hfail : g.failed.contains (va / 4096) = false) (hsync : syncing s tn va = false)
    (hlp : n.lp = false) (hr : s.placed gk tn n (lane, va) = some (.virt r)) : (mapLane gk tn va n bits').run s = .ok (.ok r) s := by
  have haddr : lpAddr n va = va := by simp [lpAddr, hlp]
  simp only [State.placed, haddr] at hr
  split at hr
  · cases hr
  split at hr
  · cases hr
  rename_i e he
  have hx : (xlate (dieOfCore (coreOfGrp gk)) (some (coreOfGrp gk)) tn va).run s = .ok (.ok e) s := by
    simp only [xlate, bind_run, get_run, he, pure_run]
  split at hr
  · rename_i hfits
    simp only [mapLane, bind_run, get_run, groupAt_run, hg, need_some_run, hfail, hsync, Bool.false_eq_true, if_false, hx, hfits]
    split at hr
    · rename_i hreach
      cases hr
      simp only [hreach, if_true, pure_run]
    · rename_i hreach
      cases hr
      simp only [hreach, if_true, pure_run]
    · cases hr
  · cases hr

/-! Operations that leave the groups alone -/

/-- Where the operation answers, it has left every group as it was. -/
def KeepsGroups (m : Op α) : Prop := ∀ s a t, m.run s = .ok a t → t.groups = s.groups

theorem keepsGroups_pure (a : α) : KeepsGroups (pure a : Op α) := by
  rintro s _ _ ⟨⟩
  rfl

theorem keepsGroups_throw (e : Stop) : KeepsGroups (throw e : Op α) := by
  rintro s _ _ ⟨⟩

theorem keepsGroups_get : KeepsGroups (get : Op State) := by
  rintro s _ _ ⟨⟩
  rfl

theorem keepsGroups_modify {f : State → State} (hf : ∀ s, (f s).groups = s.groups) : KeepsGroups (modify f : Op PUnit) := by
  rintro s _ _ ⟨⟩
  exact hf s

theorem keepsGroups_bind {m : Op α} {f : α → Op β} (hm : KeepsGroups m) (hf : ∀ a, KeepsGroups (f a)) : KeepsGroups (m >>= f) := by
  intro s b u hu
  obtain ⟨a, t, ht, hrest⟩ := bind_run_ok hu
  exact (hf a t b u hrest).trans (hm s a t ht)

theorem keepsGroups_need (x : Option α) : KeepsGroups (need x : Op α) := by
  cases x with
  | none => exact keepsGroups_throw _
  | some a => exact keepsGroups_pure a

theorem keepsGroups_groupAt (gk : Nat) : KeepsGroups (groupAt gk) := keepsGroups_bind keepsGroups_get fun _ => keepsGroups_need _

theorem keepsGroups_selfTenant : KeepsGroups selfTenant :=
  keepsGroups_bind (keepsGroups_bind keepsGroups_get fun _ => keepsGroups_bind keepsGroups_get fun _ => keepsGroups_need _) fun _ =>
    keepsGroups_pure _

/-- A wait ends the step. -/
theorem keepsGroups_waitFor (x : Wait) : KeepsGroups (waitFor x : Op α) := by
  intro s a t ht
  obtain ⟨_, _, -, ht⟩ := bind_run_ok ht
  obtain ⟨_, _, -, ht⟩ := bind_run_ok ht
  cases ht

/-! A translation changes TLBs, tables, and the lists of faults and of pages on the move -/

theorem keepsGroups_walkerMarks (l1 l2 : Leaf) (owner : Option Nat) : KeepsGroups (walkerMarks l1 l2 owner) := by
  refine keepsGroups_bind (keepsGroups_modify fun _ => rfl) fun _ => ?_
  cases owner with
  | none => exact keepsGroups_pure _
  | some o => exact keepsGroups_modify fun _ => rfl

theorem keepsGroups_xlate (die core tn va : Nat) : KeepsGroups (xlate die (some core) tn va) := by
  refine keepsGroups_bind keepsGroups_get fun s => ?_
  dsimp only
  split
  · exact keepsGroups_pure _
  split
  · exact keepsGroups_bind (keepsGroups_modify fun _ => rfl) fun _ => keepsGroups_pure _
  split
  · exact keepsGroups_pure _
  split
  · exact keepsGroups_pure _
  split
  · exact keepsGroups_bind (keepsGroups_modify fun _ => rfl) fun _ => keepsGroups_bind (keepsGroups_modify fun _ => rfl) fun _ =>
      keepsGroups_pure _
  · exact keepsGroups_bind (keepsGroups_walkerMarks _ _ _) fun _ => keepsGroups_bind (keepsGroups_modify fun _ => rfl) fun _ =>
      keepsGroups_bind (keepsGroups_modify fun _ => rfl) fun _ => keepsGroups_pure _

theorem keepsGroups_fire (fn vec : Nat) : KeepsGroups (fire fn vec) :=
  keepsGroups_modify fun s => by split <;> rfl

theorem keepsGroups_putMem (n a x : Nat) : KeepsGroups (putMem n a x) := keepsGroups_modify fun _ => rfl

theorem keepsGroups_writeFault (fn : Nat) (x : PFault) (addr place : Nat) : KeepsGroups (writeFault fn x addr place) := by
  have hend (f : Fn → Fn) : KeepsGroups (do
      modFn fn f
      fire fn 0) := keepsGroups_bind (keepsGroups_modify fun _ => rfl) fun _ => keepsGroups_fire _ _
  refine keepsGroups_bind keepsGroups_get fun s => ?_
  dsimp only
  split
  · exact keepsGroups_bind (keepsGroups_putMem _ _ _) fun _ => keepsGroups_bind (keepsGroups_putMem _ _ _) fun _ =>
      keepsGroups_bind (keepsGroups_putMem _ _ _) fun _ => keepsGroups_bind (keepsGroups_putMem _ _ _) fun _ => hend _
  · exact hend _

theorem keepsGroups_reportFault (tn va : Nat) (x : XFault) (bits' place : Nat) : KeepsGroups (reportFault tn va x bits' place) := by
  refine keepsGroups_bind keepsGroups_get fun s => ?_
  dsimp only
  generalize (if x.s2 then pfn else tn) = fn
  split
  · exact keepsGroups_pure _
  refine keepsGroups_bind (keepsGroups_modify fun _ => rfl) fun _ => ?_
  split
  · exact keepsGroups_bind (keepsGroups_modify fun _ => rfl) fun _ => keepsGroups_pure _
  · exact keepsGroups_bind (keepsGroups_writeFault _ _ _ _) fun _ => keepsGroups_pure _

theorem keepsGroups_askHost (pa va : Nat) : KeepsGroups (askHost pa va) := by
  refine keepsGroups_bind keepsGroups_get fun s => ?_
  dsimp only
  split
  · exact keepsGroups_pure _
  · exact keepsGroups_bind (keepsGroups_modify fun _ => rfl) fun _ => keepsGroups_pure _

theorem keepsGroups_mapLane (gk tn va : Nat) (n : Need) (bits' : Nat) : KeepsGroups (mapLane gk tn va n bits') := by
  refine keepsGroups_bind keepsGroups_get fun s => keepsGroups_bind (keepsGroups_groupAt gk) fun g => ?_
  dsimp only
  split
  · exact keepsGroups_pure _
  split
  · exact keepsGroups_pure _
  refine keepsGroups_bind (keepsGroups_xlate _ _ _ _) fun x => ?_
  cases x with
  | wait => exact keepsGroups_pure _
  | bad f => exact keepsGroups_bind (keepsGroups_reportFault _ _ _ _ _) fun _ => keepsGroups_pure _
  | ok e =>
    refine keepsGroups_bind keepsGroups_get fun t => ?_
    cases reach t tn (e.phys va) with
    | absent pa =>
      dsimp only
      split
      · exact keepsGroups_bind (keepsGroups_askHost _ _) fun _ => keepsGroups_pure _
      · exact keepsGroups_pure _
    | _ => exact keepsGroups_pure _

theorem keepsGroups_sliceOf (caddr : Nat) (wr : Bool) : KeepsGroups (sliceOf caddr wr) := by
  refine keepsGroups_bind keepsGroups_get fun s => keepsGroups_bind keepsGroups_selfTenant fun tn =>
    keepsGroups_bind (keepsGroups_mapLane _ _ _ _ _) fun x => ?_
  cases x with
  | sleep v => exact keepsGroups_waitFor v
  | denied => exact keepsGroups_throw _
  | ok r =>
    refine keepsGroups_bind keepsGroups_get fun t => ?_
    split
    · exact keepsGroups_pure _
    · exact keepsGroups_throw _

end Sys2Proof.Machine
end

section
/-! The slice of an accumulator, and its pieces (07_matrix.md R185, R186). -/

namespace Sys2Proof.Machine

variable {s u : State} {g : Group} {b : Block} {gk tn va caddr slice : Nat} {wr : Bool} {r : VRef}

theorem sliceOf_run (hs : sliceFor s g (tenantOf b.grid) caddr wr slice u) (hg : tlook s.cur.gk s.groups = some g)
    (hb : tlook (blkOfGrp s.cur.gk) s.blocks = some b) : (sliceOf caddr wr).run s = .ok slice u ∧ u.groups = s.groups := by
  have hrun : (sliceOf caddr wr).run s = .ok slice u := by
    obtain ⟨r, hfail, hsync, hplace, hown, rfl⟩ | hs := hs
    · have htenant : selfTenant.run u = .ok (tenantOf b.grid) u := run_bind_ok (selfBlock_run hb) rfl
      refine run_bind_ok (get_run _) (run_bind_ok htenant (run_bind_ok (mapLane_placed hg hfail hsync rfl hplace) ?_))
      simp only [bind_run, get_run, hown, pure_run]
    · exact reply_some hs
  exact ⟨hrun, keepsGroups_sliceOf caddr wr _ _ _ hrun⟩

/-- A piece that an operation may write: in a page cached in the L2 and written back there, under no other agent's tenure, below the cap on
timestamps. -/
structure PieceReady (s : State) (gk : Nat) (r : VRef) : Prop where
  cached : r.e.l2 = true
  back : r.e.pol ≠ 2
  tenure : tenureConflict s r (selfWho s gk) 256 = none
  room : ∀ i, i < 4 → capped s { r with va := r.va + 64 * i, pa := r.pa + 64 * i } (s.lc (coreOfGrp gk)) = false

theorem accMap_run (hg : tlook gk s.groups = some g) (hfail : g.failed.contains (va / 4096) = false) (hsync : syncing s tn va = false)
    (hplace : s.placed gk tn ⟨[0], false, true, 256, false, none⟩ (0, va) = some (.virt r)) (hr : PieceReady s gk r) :
    (accMap gk tn va false).run s = .ok (.ok r) s := by
  obtain ⟨hcached, hback, htenure, hroom⟩ := hr
  have hcap : ((List.range 4).any fun i => capped s { r with va := r.va + 64 * i, pa := r.pa + 64 * i } (s.lc (coreOfGrp gk))) = false :=
    List.any_eq_false.2 fun i hi => by rw [hroom i (List.mem_range.1 hi)]; exact Bool.false_ne_true
  simp only [accMap, bind_run, mapLane_placed hg hfail hsync rfl hplace, hcached, decide_eq_false hback, Bool.not_true, Bool.or_self,
    Bool.false_eq_true, if_false, get_run, htenure, Bool.false_and, hcap, pure_run]

/-- Pieces that each have their mapping. -/
theorem accMaps_run {xs : List Nat} {rs : List VRef} (hg : tlook gk s.groups = some g)
    (hpages : ∀ a ∈ xs, g.failed.contains (a / 4096) = false ∧ syncing s tn a = false)
    (hplaces : xs.map (fun a => s.placed gk tn ⟨[0], false, true, 256, false, none⟩ (0, a)) = rs.map fun r => some (.virt r))
    (hready : ∀ r ∈ rs, PieceReady s gk r) : (xList (fun a => accMap gk tn a false) xs).run s = .ok (.ok rs) s := by
  induction xs generalizing rs with
  | nil =>
    cases rs with
    | nil => rfl
    | cons r rs => cases hplaces
  | cons x xs ih =>
    cases rs with
    | nil => cases hplaces
    | cons r rs =>
      obtain ⟨hplace, hplaces⟩ := List.cons.inj hplaces
      obtain ⟨⟨hfail, hsync⟩, hpages⟩ := List.forall_mem_cons.1 hpages
      obtain ⟨hr, hready⟩ := List.forall_mem_cons.1 hready
      exact run_bind_ok (accMap_run hg hfail hsync hplace hr) (run_bind_ok (ih hpages hplaces hready) rfl)

theorem accFor_run {xs : List Nat} {rs : List VRef} (ha : accFor s g tn xs rs u) (hg : tlook s.cur.gk s.groups = some g) :
    (xList (fun a => accMap s.cur.gk tn a false) xs).run s = .ok (.ok rs) u := by
  obtain ⟨hpages, hplaces, hready, rfl⟩ | ha := ha
  · refine accMaps_run hg hpages hplaces fun r hr => ?_
    obtain ⟨hcached, hback, htenure, hroom⟩ := hready r hr
    exact ⟨hcached, hback, htenure, hroom⟩
  · exact reply_some ha

end Sys2Proof.Machine
end

section
/-! MZERO, MCFG and MRES (07_matrix.md R187, R188, R196, R199). -/

namespace Sys2Proof.Machine

variable {s t u v : State} {i : Instr} {g : Group} {h : Hdr} {b : Block} {tn caddr slice : Nat} {o : XCfg}

/-! MZERO and MCFG -/

theorem cfgStart_run (w : Issues s i g h) (he : endsRegion i = false) (hm : s.activeOf g o.pred.toNat ≠ 0) :
    (cfgStart i o).run s = .ok (s.activeOf g o.pred.toNat, snapDesc g o.desc) (s.begun i g) := by
  refine run_bind_ok (legal_run w) (run_bind_ok (activeMask_begun w _) ?_)
  simp only [hm, if_false]
  exact run_bind_ok (self_begun_plain w he) rfl

theorem closeChain_run (hn : NoChain s g) (hg : tlook s.cur.gk s.groups = some g) : closeChain.run s = .ok none s := by
  obtain ⟨hclosed, hidle⟩ := hn
  simp only [closeChain, bind_run, get_run, hidle, Bool.false_eq_true, if_false, self_run hg, hclosed, pure_run]

theorem closeChain_begun (hn : NoChain s g) (w : Issues s i g h) (he : endsRegion i = false) :
    closeChain.run (s.begun i g) = .ok none (s.begun i g) := by
  refine closeChain_run ⟨hn.closed, ?_⟩ (group_begun w he)
  simpa only [queuedWorks, State.core, begun_cores, begun_gk] using hn.idle

theorem selfTenant_begun (hb : tlook (blkOfGrp s.cur.gk) s.blocks = some b) :
    selfTenant.run (s.begun i g) = .ok (tenantOf b.grid) (s.begun i g) := run_bind_ok (selfBlock_begun hb) rfl

/-- The rows of C zeroed and healed, and the record of C emptied (R187). -/
def zeroRows (gk kind slice tn caddr : Nat) (refs : List VRef) : Op Unit := do
  refs.forM fun r => do
    let _ ← accPiece (coreOfGrp gk) r (kindBytes kind) fun _ _ => some (0, .none)
    healBytes r.pa 256
  match recAt (← get) slice tn caddr with
  | some r =>
    modRec slice tn caddr fun r => { r with next := 0, held := [] }
    r.held.forM fun h => retireContrib h.2
  | none => pure ()

theorem exec_mzero {refs : List VRef} (w : Issues s (.mzero o) g h) (hm : s.activeOf g o.pred.toNat ≠ 0) (hn : NoChain s g)
    (hb : tlook (blkOfGrp s.cur.gk) s.blocks = some b) (hd : DescLegal (snapDesc g o.desc) false)
    (hs : sliceFor (s.begun (.mzero o) g) g (tenantOf b.grid) ((snapDesc g o.desc).getD 2 0) true slice u) (hu : u.cur.gk = s.cur.gk)
    (ha : accFor u g (tenantOf b.grid) ((rowMask g.width (kindRows o.kind.toNat) o.rm (s.activeOf g o.pred.toNat)).flatMap fun r =>
      rowPieces ((snapDesc g o.desc).getD 2 0) (cstrOf (snapDesc g o.desc)) r) refs v) :
    v.gives (zeroRows s.cur.gk o.kind.toNat slice (tenantOf b.grid) ((snapDesc g o.desc).getD 2 0) refs) (exec (.mzero o) s) := by
  have hg := group_begun w rfl
  obtain ⟨hslice, hgroups⟩ := sliceOf_run hs hg (by simpa using hb)
  have hacc := accFor_run ha (by rwa [hgroups, hu, ← begun_gk (i := .mzero o) (g := g)])
  rw [hu] at hacc
  refine gives_of_run_eq (run_bind_ok (cfgStart_run w rfl hm) ?_)
  refine run_bind_ok (checkDesc_run hd _) (run_bind_ok (closeChain_begun hn w rfl) (run_bind_ok (get_run _) ?_))
  refine run_bind_ok (selfTenant_begun hb) (run_bind_ok (self_begun_plain w rfl) (run_bind_ok hslice ?_))
  rw [begun_gk]
  refine run_bind_ok hacc ?_
  simp only [awaitClosed, bind_pure_unit]
  rfl

/-- The records of a slice without the one of an accumulator. -/
def recsBut (s : State) (slice tn caddr : Nat) : List AccRec := (recsAt s slice).filter fun r => !(r.tenant = tn && r.caddr = caddr)

/-- What MCFG does in the slice of C: the record freed, or made anew for `splits` contributions, once it holds none (R188). -/
def putRecord (kind : BitVec 2) (splits spill slice tn caddr : Nat) : Op Unit := do
  let s ← get
  let old := recAt s slice tn caddr
  if old.any (fun r => !r.held.isEmpty) then waitFor .matrix
  else if kind = 3 then
    modify fun s => { s with accs := tput [] s.accs slice (recsBut s slice tn caddr) }
  else
    if old.isNone && 64 ≤ (recsAt s slice).length then raise 0x0A (BitVec.ofNat 64 caddr)
    let b ← selfBlock
    let grid ← need (s.gridOf b.grid)
    let r : AccRec := ⟨tn, caddr, b.grid, grid.record.seq, kind.toNat, splits, 0, spill, []⟩
    modify fun s => { s with accs := tput [] s.accs slice (recsBut s slice tn caddr ++ [r]) }

theorem exec_mcfg (w : Issues s (.mcfg o) g h) (hm : s.activeOf g o.pred.toNat ≠ 0) (hn : NoChain s g)
    (hb : tlook (blkOfGrp s.cur.gk) s.blocks = some b)
    (hspill : o.kind = 3 ∨ o.split.toNat + 1 < 2 ∨ spaceOf ((snapDesc g o.desc).getD 0 0) = 0 ∧ (snapDesc g o.desc).getD 0 0 % 256 = 0)
    (hs : sliceFor (s.begun (.mcfg o) g) g (tenantOf b.grid) ((snapDesc g o.desc).getD 2 0) false slice u) : exec (.mcfg o) s =
    runOp (putRecord o.kind (o.split.toNat + 1) ((snapDesc g o.desc).getD 0 0) slice (tenantOf b.grid) ((snapDesc g o.desc).getD 2 0)) u := by
  obtain ⟨hslice, -⟩ := sliceOf_run hs (group_begun w rfl) (by simpa using hb)
  have hspill' : (o.kind != 3 && 2 ≤ o.split.toNat + 1 &&
      (spaceOf ((snapDesc g o.desc).getD 0 0) != 0 || (snapDesc g o.desc).getD 0 0 % 256 != 0)) = false := by
    obtain hkind | hsplit | ⟨hspace, halign⟩ := hspill
    · simp [hkind]
    · simp only [decide_eq_false (Nat.not_le.2 hsplit), Bool.and_false, Bool.false_and]
    · simp only [hspace, halign, bne_self_eq_false, Bool.or_self, Bool.and_false]
  refine runOp_of_run_eq (run_bind_ok (cfgStart_run w rfl hm) (run_bind_ok (selfTenant_begun hb) ?_))
  simp only [hspill', Bool.false_eq_true, if_false]
  refine run_bind_ok (closeChain_begun hn w rfl) (run_bind_ok hslice (run_bind_ok (get_run _) ?_))
  simp only [awaitClosed, bind_pure_unit]
  rfl

theorem putRecord_free {splits spill : Nat} (hidle : (recAt u slice tn caddr).any (fun r => !r.held.isEmpty) = false) :
    (putRecord 3 splits spill slice tn caddr).run u = .ok () { u with accs := tput [] u.accs slice (recsBut u slice tn caddr) } := by
  simp only [putRecord, bind_run, get_run, hidle, Bool.false_eq_true, if_false, if_true, modify_run]

theorem putRecord_make {kind : BitVec 2} {splits spill : Nat} {x : Grid} (hkind : kind ≠ 3)
    (hidle : (recAt u slice tn caddr).any (fun r => !r.held.isEmpty) = false)
    (hroom : (recAt u slice tn caddr).isSome = true ∨ (recsAt u slice).length < 64)
    (hb : tlook (blkOfGrp u.cur.gk) u.blocks = some b) (hx : u.gridOf b.grid = some x) :
    (putRecord kind splits spill slice tn caddr).run u = .ok () { u with
      accs := tput [] u.accs slice (recsBut u slice tn caddr ++ [⟨tn, caddr, b.grid, x.record.seq, kind.toNat, splits, 0, spill, []⟩]) } := by
  have hfull : ((recAt u slice tn caddr).isNone && 64 ≤ (recsAt u slice).length) = false := by
    obtain hold | hless := hroom
    · rw [Option.isNone_eq_false_iff.2 hold, Bool.false_and]
    · rw [decide_eq_false (Nat.not_le.2 hless), Bool.and_false]
  simp only [putRecord, bind_run, get_run, hidle, hfull, Bool.false_eq_true, if_false, if_neg hkind, selfBlock_run hb, hx, need_some_run,
    modify_run]

/-! MRES -/

/-- Where the partition masks no feature, the opcode that MRES resumes is not refused (03_opcode_map.md R73). -/
theorem savedFeature_run (hg : tlook s.cur.gk s.groups = some g) (hb : tlook (blkOfGrp s.cur.gk) s.blocks = some b)
    (hfeat : g.rowprog.getLsbD 63 = true → (s.part (s.partOf (tenantOf b.grid))).feat = 0) : savedFeature.run s = .ok () s := by
  refine run_bind_ok (self_run hg) ?_
  split
  · rename_i hsaved
    have hneed (k : Nat) : (needFeature k).run s = .ok () s := needFeature_run hb (by rw [hfeat hsaved]; exact Nat.zero_testBit k)
    split
    · rfl
    · simp only [bind_run, ite_run, hneed, pure_run, ite_self]
  · rfl

theorem savedFor_run {α : Type} {m : Op α} {a : α} (hm : m.run s = .ok a t) : (savedFor m).run s = .ok a t := by
  have hm' : m s = .ok a t := hm
  show EStateM.tryCatch m _ s = _
  unfold EStateM.tryCatch
  rw [hm']

@[simp] theorem begun_rowprog : (g.begun i).rowprog = g.rowprog := by unfold Group.begun; split <;> rfl

/-- What MRES does for its active lanes once it has begun: it goes on by what ROWPROG holds (R199). -/
def resumeSaved (sparse : Bool) (o : XWord) (m : Mask) : Op Unit := do
  let g ← self
  if g.rowprog.getLsbD 63 then
    match xfmtOf (bits g.rowprog.toNat 55 48) with
    | none => pure ()
    | some f =>
      if !({ o with scale := 0 } : XWord).wf f sparse then illegal 5
      matrixPort
      resumeWord (.mres sparse o) f sparse o m

section
variable {f : XFmt} {sparse : Bool} {o : XWord}

theorem exec_mres (w : Issues s (.mres sparse o) g h) (hm : s.activeOf g o.pred.toNat ≠ 0)
    (hb : tlook (blkOfGrp s.cur.gk) s.blocks = some b)
    (hfeat : g.rowprog.getLsbD 63 = true → (s.part (s.partOf (tenantOf b.grid))).feat = 0) :
    exec (.mres sparse o) s = runOp (resumeSaved sparse o (s.activeOf g o.pred.toNat)) (s.begun (.mres sparse o) g) := by
  have hactive : (s.activeOf g o.pred.toNat != 0) = true := bne_iff_ne.2 hm
  refine runOp_of_run_eq (run_bind_ok (activeMask_run _ w.group) ?_)
  simp only [hactive, hm, if_true, if_false]
  exact run_bind_ok (savedFeature_run w.group hb hfeat) (run_bind_ok (legal_run w) rfl)

theorem resumeSaved_nothing (m : Mask) (w : Issues s i g h) (hsaved : g.rowprog.getLsbD 63 = false) :
    (resumeSaved sparse o m).run (s.begun i g) = .ok () (s.begun i g) := by
  refine run_bind_ok (self_begun w) ?_
  simp only [begun_rowprog, hsaved, Bool.false_eq_true, if_false, pure_run]

theorem resumeSaved_format (m : Mask) (w : Issues s i g h) (hsaved : g.rowprog.getLsbD 63 = true)
    (hf : xfmtOf (bits g.rowprog.toNat 55 48) = some f) (hwf : XWord.wf f sparse { o with scale := 0 } = true)
    (hroom : (s.core (coreOfGrp s.cur.gk)).mx.length < 8) :
    (resumeSaved sparse o m).run (s.begun i g) = (resumeWord (.mres sparse o) f sparse o m).run (s.begun i g) := by
  refine run_bind_ok (self_begun w) ?_
  simp only [begun_rowprog, hsaved, if_true, hf, hwf, Bool.not_true, Bool.false_eq_true, if_false]
  exact run_bind_ok (matrixPort_begun hroom) rfl

/-- A saved word as the unit takes it again: from row XROWS on, with the saved snapshot and partial (R199). -/
def resumedWork (gk pid : Nat) (i : Instr) (f : XFmt) (sparse : Bool) (o : XWord) (ch : Chain) (start : Nat) : XWork :=
  { gk := gk, pid := pid, word := ((encode i).map BitVec.toNat).getD 0
    w := ⟨f, sparse, o.ta, o.tb, o.kcount.toNat, o.selA.toNat, o.selB.toNat, ch.desc, ch.scales⟩
    rows := (rowsOf (matM f) ch.rows).filter (start ≤ ·)
    all := ch.rows, split := o.split.toNat, det := o.det, chain := o.chain, part := ch.elems, resumed := true }

theorem resumeWord_run {ch : Chain} (m : Mask) (w : Issues s i g h) (hr : reply (restoreMatrix s.cur.gk f) (s.begun i g) = some (ch, u)) :
    (resumeWord i f sparse o m).run (s.begun i g) =
      (enqueueWork i o.la.toNat m fun pid => resumedWork s.cur.gk pid i f sparse o ch (bits g.rowprog.toNat 39 32)).run u := by
  refine run_bind_ok (get_run _) (run_bind_ok (self_begun w) ?_)
  rw [begun_gk, begun_rowprog]
  exact run_bind_ok (savedFor_run (reply_some hr)) rfl

end

/-- Settles O42: MZERO in the slice of C, MCFG in the record there, MRES by what ROWPROG holds. -/
theorem matrixRecordsAndResume : Obligations.MatrixRecordsAndResume := by
  refine ⟨?mzero, ?mcfg, ?mres⟩
  case mzero =>
    intro s u v g h b o slice refs
    dsimp only
    intro w hm hn hb hd hs hu ha
    exact exec_mzero w hm hn hb hd hs hu ha
  case mcfg =>
    intro s u g h b x o slice
    dsimp only
    intro w hm hn hb hspill hs hu hidle
    rw [exec_mcfg w hm hn hb hspill hs]
    refine ⟨fun hkind => ?_, fun hkind hroom hb' hx => ?_⟩
    · rw [hkind]
      exact runOp_ok (putRecord_free hidle)
    · exact runOp_ok (putRecord_make hkind hidle hroom (by rwa [hu]) hx)
  case mres =>
    intro s g h b sparse o
    dsimp only
    intro w hm hb
    refine ⟨fun hsaved => ?_, fun f hsaved hf hfeat hwf hroom => ?_⟩
    · rw [exec_mres w hm hb fun h => absurd (hsaved.symm.trans h) Bool.false_ne_true]
      exact runOp_ok (resumeSaved_nothing _ w hsaved)
    · rw [exec_mres w hm hb fun _ => hfeat]
      have hgoes := resumeSaved_format (s.activeOf g o.pred.toNat) w hsaved hf hwf hroom
      exact ⟨gives_of_run_eq hgoes, fun ch u hr => gives_of_run_eq (hgoes.trans (resumeWord_run _ w hr))⟩

end Sys2Proof.Machine
end

section
/-! Tile words: their common start, the handle and the agent (09_tiles_leases.md R236 to R238; 10_memory_ops.md R284 to R288). -/

namespace Sys2Proof.Machine

variable {s u : State} {i : Instr} {g g' : Group} {h : Hdr} {b : Block} {o : MWord} {me : Agent} {slice e r x tn gk : Nat} {y : Entry}

/-! What a release of the clocks leaves as it was -/

@[simp] theorem begun_home (k : Nat) : (s.begun i g).home k = s.home k := by unfold State.begun; split <;> rfl

/-- A tile word takes effect in the state of its beginning, but for the clocks of cores and quads. -/
theorem tileBegun_units (hb : s.tileBegun i g o u) : ∃ cs qs, u = { s.begun i g with cores := cs, quads := qs } := by
  unfold State.tileBegun at hb
  split at hb
  · obtain ⟨cs, qs, hr⟩ := releaseCore_run (coreOfGrp s.cur.gk) .quad (s.begun i g)
    have hu := (run_of_leaves hb).symm.trans hr
    cases hu
    exact ⟨cs, qs, rfl⟩
  · exact ⟨_, _, hb⟩

theorem tileBegun_gk (hb : s.tileBegun i g o u) : u.cur.gk = s.cur.gk := by
  obtain ⟨cs, qs, rfl⟩ := tileBegun_units hb
  exact begun_gk

theorem tileBegun_group (w : HandleGoes s i g h o) (hb : s.tileBegun i g o u) : tlook u.cur.gk u.groups = some (g.begun i) := by
  rw [tileBegun_gk hb]
  obtain ⟨cs, qs, rfl⟩ := tileBegun_units hb
  exact begun_group w.issues.group

theorem tileBegun_blocks (hb : s.tileBegun i g o u) : u.blocks = s.blocks := by
  obtain ⟨cs, qs, rfl⟩ := tileBegun_units hb
  exact begun_blocks

theorem tileBegun_home (hb : s.tileBegun i g o u) (k : Nat) : u.home k = s.home k := by
  obtain ⟨cs, qs, rfl⟩ := tileBegun_units hb
  exact begun_home k

theorem tileBegun_openHandle (hb : s.tileBegun i g o u) (tn x : Nat) : openHandle u tn x = openHandle s tn x := by
  have hpkg : u.dev = s.dev := by
    obtain ⟨cs, qs, rfl⟩ := tileBegun_units hb
    exact begun_dev
  simp only [openHandle, tileBegun_home hb, hpkg]

theorem tileBegun_agentAt (hb : s.tileBegun i g o u) (gk : Nat) : agentAt u gk = agentAt s gk := by
  have hgrid (q : Nat) : u.gridOf q = s.gridOf q := by
    obtain ⟨cs, qs, rfl⟩ := tileBegun_units hb
    exact begun_gridOf q
  simp only [agentAt, tileBegun_blocks hb, hgrid]

theorem tileBegun_regs (hb : s.tileBegun i g o u) : u.regs = s.regs := by
  obtain ⟨cs, qs, rfl⟩ := tileBegun_units hb
  exact begun_regs

theorem tileBegun_partOf (hb : s.tileBegun i g o u) (tn : Nat) : u.partOf tn = s.partOf tn := by
  simp only [State.partOf, State.tdpart, State.reg, tileBegun_regs hb]

theorem tileBegun_spillSectors (hb : s.tileBegun i g o u) (p : Nat) : spillSectors u p = spillSectors s p := by
  simp only [spillSectors, State.reg, tileBegun_regs hb]

theorem tileBegun_baseVal (hb : s.tileBegun i g o u) (gk l : Nat) (a : Reg) : baseVal u gk (g.begun i) l a = baseVal s gk g l a := by
  have hstore : u.store = s.store := by
    obtain ⟨cs, qs, rfl⟩ := tileBegun_units hb
    exact begun_store
  cases a with
  | lane v => exact (elemAt_group_begun ..).trans (elemAt_of_store hstore ..)
  | sreg m => exact congrArg BitVec.toNat (begun_scalar m.toNat)
  | const c => rfl

/-! The steps of a tile word -/

theorem tileStart_base (w : HandleGoes s i g h o) (hb : s.tileBegun i g o u) :
    (tileStart i o).run s = .ok (baseVal s s.cur.gk g 0 o.base) u := by
  obtain ⟨hrun, -, -⟩ := tileStart_run w hb
  rw [hrun, tileBegun_gk hb, tileBegun_baseVal hb]

theorem agentOf_run (ha : agentAt s gk = some me) : (agentOf gk).run s = .ok me s := by
  simp only [agentOf, bind_run, get_run, ha, need_some_run]

theorem selfTenant_run (hb : tlook (blkOfGrp s.cur.gk) s.blocks = some b) : selfTenant.run s = .ok (tenantOf b.grid) s :=
  run_bind_ok (selfBlock_run hb) rfl

theorem needHandle_run {z : Nat × Nat × Entry × Nat} (hb : tlook (blkOfGrp s.cur.gk) s.blocks = some b)
    (hz : openHandle s (tenantOf b.grid) x = some z) : (needHandle x).run s = .ok z s := by
  refine run_bind_ok (get_run _) (run_bind_ok (selfTenant_run hb) ?_)
  simp only [hz, pure_run]

/-- A word whose remaining work is to write a status. -/
theorem runOp_told {m : Op Unit} (hm : m.run s = (tileReply o x).run u) (hg : tlook u.cur.gk u.groups = some g') :
    runOp m s = .next (u.told g' o x) := runOp_ok (hm.trans (tileReply_run x hg))

/-- The beginning of a tile word whose handle names an entry: its start, then the handle, then what follows with them. -/
theorem tileWord_run {z : Nat × Nat × Entry × Nat} {k : Nat → Nat × Nat × Entry × Nat → Op Unit} (w : HandleGoes s i g h o)
    (hb : s.tileBegun i g o u) (hn : s.names g o me z) :
    (do
      let x ← tileStart i o
      let z ← needHandle x
      k x z : Op Unit).run s = (k (baseVal s s.cur.gk g 0 o.base) z).run u := by
  obtain ⟨-, b, hblk, hopen⟩ := hn
  refine run_bind_ok (tileStart_base w hb) (run_bind_ok (needHandle_run (b := b) ?_ ?_) rfl)
  · rw [tileBegun_gk hb, tileBegun_blocks hb, hblk]
  · rw [tileBegun_openHandle hb, hopen]

theorem agentOf_tileBegun {z : Nat × Nat × Entry × Nat} (hb : s.tileBegun i g o u) (hn : s.names g o me z) :
    (agentOf u.cur.gk).run u = .ok me u := by
  obtain ⟨ha, -⟩ := hn
  exact agentOf_run (by rw [tileBegun_gk hb, tileBegun_agentAt hb, ha])

end Sys2Proof.Machine
end

section
/-! TACQ (09_tiles_leases.md R240 to R243; 10_memory_ops.md R284). -/

namespace Sys2Proof.Machine

variable {s u : State} {i : Instr} {g : Group} {h : Hdr} {o : MWord} {me : Agent} {slice e r : Nat} {y : Entry} {write : Bool}

/-- A request for tenure: the conditions that refuse it, in their order, and else the queue. -/
theorem tacq_run (w : HandleGoes s i g h o) (hb : s.tileBegun i g o u) (hn : s.names g o me (slice, e, y, r)) :
    (tacq i write o).run s =
      (if Nat.land r (if write then rightWr else rightRd) = 0 then tileReply o tsNoRight
      else if selfConflict (s.home slice) me e write then tileReply o tsSelf
      else if write && bufferSectors + spillSectors s (s.partOf y.tenant) < y.desc.sectors then tileReply o tsTooBig
      else enqueue i o slice e (baseVal s s.cur.gk g 0 o.base) write false : Op Unit).run u := by
  refine (tileWord_run w hb hn).trans (run_bind_ok (get_run _) (run_bind_ok (agentOf_tileBegun hb hn) ?_))
  rw [tileBegun_home hb, tileBegun_spillSectors hb, tileBegun_partOf hb]

/-- Settles O21: the request's conditions in their order; where none refuses it, it goes to the queue. -/
theorem tileAcquire : Obligations.TileAcquire := by
  intro s u g h o write me slice e r y
  dsimp only
  intro w hb hn
  have hg := tileBegun_group w hb
  have hexec : exec (if write then Instr.tacqW o else .tacqR o) s = runOp (tacq (if write then Instr.tacqW o else .tacqR o) write o) s := by
    cases write <;> rfl
  have hrun := tacq_run (write := write) w hb hn
  rw [hexec]
  refine ⟨fun hright => ?_, fun hright hself => ?_, fun hright hself hlarge => ?_, fun hright hself hlarge => ?_⟩
  · rw [if_pos (not_not.1 hright)] at hrun
    exact runOp_told hrun hg
  · rw [if_neg hright, if_pos hself] at hrun
    exact runOp_told hrun hg
  · have hlarge : (write && bufferSectors + spillSectors s (s.partOf y.tenant) < y.desc.sectors : Bool) = true := by simpa using hlarge
    rw [if_neg hright, if_neg hself, if_pos hlarge] at hrun
    exact runOp_told hrun hg
  · have hlarge : ¬(write && bufferSectors + spillSectors s (s.partOf y.tenant) < y.desc.sectors : Bool) = true := by simpa using hlarge
    rw [if_neg hright, if_neg hself, if_neg hlarge] at hrun
    exact gives_of_run_eq hrun

end Sys2Proof.Machine
end

section
/-! TREL, TJOIN and TCLOSE (09_tiles_leases.md R243, R245, R249, R250; 10_memory_ops.md R285, R287). -/

namespace Sys2Proof.Machine

variable {s u : State} {i : Instr} {g : Group} {h : Hdr} {o : MWord} {me : Agent} {slice e r : Nat} {y : Entry}

@[simp] theorem begun_writesTile (d : TileDesc) : (g.begun i).writesTile d = g.writesTile d := by simp only [Group.writesTile, begun_pend]

theorem exec_trel (w : HandleGoes s (.trel o) g h o) (hb : s.tileBegun (.trel o) g o u) (hn : s.names g o me (slice, e, y, r))
    (hwrites : g.writesTile y.desc = false) : exec (.trel o) s = runOp
      (if (!y.holds me || y.isSplit) = true then tileReply o tsNotHolder
      else if Nat.land r (if y.writes then rightWr else rightRd) = 0 then tileReply o tsNoRight
      else do
        dropTenure slice e me
        tileDone o tsOk
        grants slice) u := by
  refine runOp_of_run_eq ((tileWord_run w hb hn).trans (run_bind_ok (self_run (tileBegun_group w hb)) ?_))
  simp only [begun_writesTile, hwrites, Bool.false_eq_true, if_false]
  exact run_bind_ok (get_run _) (run_bind_ok (agentOf_tileBegun hb hn) rfl)

theorem exec_tjoin (w : HandleGoes s (.tjoin o) g h o) (hb : s.tileBegun (.tjoin o) g o u) (hn : s.names g o me (slice, e, y, r)) :
    exec (.tjoin o) s = runOp
      (if Nat.land r rightSp = 0 then tileReply o tsNoRight
      else if (!y.isSplit || y.splitter != some me) = true then tileReply o tsNotHolder
      else enqueue (.tjoin o) o slice e (baseVal s s.cur.gk g 0 o.base) y.writes true) u :=
  runOp_of_run_eq ((tileWord_run w hb hn).trans (run_bind_ok (get_run _) (run_bind_ok (agentOf_tileBegun hb hn) rfl)))

theorem exec_tclose (w : HandleGoes s (.tclose o) g h o) (hb : s.tileBegun (.tclose o) g o u) (hn : s.names g o me (slice, e, y, r)) :
    exec (.tclose o) s = runOp
      (if Nat.land r rightCl = 0 then tileReply o tsNoRight
      else if (y.isSplit || y.holders.any (· != me)) = true then tileReply o tsBusy
      else do
        if y.holds me then
          if (← self).writesTile y.desc then loseTurn
          dropTenure slice e me
        tileDone o tsOk
        closeEntry slice e
        grants slice) u :=
  runOp_of_run_eq ((tileWord_run w hb hn).trans (run_bind_ok (get_run _) (run_bind_ok (agentOf_tileBegun hb hn) rfl)))

/-- With no earlier write to the tile outstanding, a close of a tile that its group holds ends the tenure without a wait. -/
theorem closeTenure_run (hg : tlook s.cur.gk s.groups = some g) (hw : y.holds me = true → g.writesTile y.desc = false) {rest : Op Unit} :
    (do
      if y.holds me then
        if (← self).writesTile y.desc then loseTurn
        dropTenure slice e me
      rest : Op Unit).run s =
    (do
      if y.holds me then dropTenure slice e me
      rest : Op Unit).run s := by
  cases hh : y.holds me with
  | false => rfl
  | true =>
    simp only [if_true]
    refine run_bind_ok (self_run hg) ?_
    simp only [hw hh, Bool.false_eq_true, if_false]

/-- Settles O22: each word's conditions in their order, and what it does where none refuses it. -/
theorem tileRelease : Obligations.TileRelease := by
  intro s u g h o me slice e r y hn
  dsimp only
  refine ⟨fun w hb hwrites => ?trel, fun w hb => ?tjoin, fun w hb => ?tclose⟩
  case trel =>
    have hg := tileBegun_group w hb
    rw [exec_trel w hb hn hwrites]
    refine ⟨fun hheld => ?_, fun hheld hwhole hright => ?_, fun hheld hwhole hright => ?_⟩
    · have hheld : (!y.holds me || y.isSplit) = true := by simpa [imp_iff_not_or] using hheld
      rw [if_pos hheld]
      exact runOp_told rfl hg
    · rw [hheld, hwhole, if_neg (by decide), if_pos hright]
      exact runOp_told rfl hg
    · rw [hheld, hwhole, if_neg (by decide), if_neg hright]
      exact gives_of_run_eq rfl
  case tjoin =>
    have hg := tileBegun_group w hb
    rw [exec_tjoin w hb hn]
    refine ⟨fun hright => ?_, fun hright hsplit => ?_, fun hright hsplit hagent => ?_⟩
    · rw [if_pos hright]
      exact runOp_told rfl hg
    · have hsplit : (!y.isSplit || y.splitter != some me) = true := by simpa [imp_iff_not_or] using hsplit
      rw [if_neg hright, if_pos hsplit]
      exact runOp_told rfl hg
    · have hsplit : (!y.isSplit || y.splitter != some me) = false := by simp [hsplit, hagent]
      rw [if_neg hright, hsplit, if_neg Bool.false_ne_true]
      exact gives_of_run_eq rfl
  case tclose =>
    have hg := tileBegun_group w hb
    rw [exec_tclose w hb hn]
    refine ⟨fun hright => ?_, fun hright hbusy => ?_, fun hright hfree hwrites => ?_⟩
    · rw [if_pos hright]
      exact runOp_told rfl hg
    · rw [if_neg hright, if_pos hbusy]
      exact runOp_told rfl hg
    · rw [if_neg hright, hfree, if_neg Bool.false_ne_true]
      exact gives_of_run_eq (closeTenure_run hg (by simpa using hwrites))

end Sys2Proof.Machine
end

section
/-! The checks of a word's lanes, where nothing stands against them (10_memory_ops.md R269, R270). -/

namespace Sys2Proof.Machine

variable {α β : Type} {s u : State} {c : LocalCtx} {n : Need} {g : Group} {gk tn : Nat} {xs : List (Nat × Nat)} {ts : List Tgt} {t : Tgt}

/-- An operation over a list that leaves the state as it is at each element. -/
theorem mapM_run_same {f : α → Op β} {v : α → β} {l : List α} (hf : ∀ x ∈ l, (f x).run s = .ok (v x) s) :
    (l.mapM f).run s = .ok (l.map v) s := by
  induction l with
  | nil => rfl
  | cons a l ih =>
    obtain ⟨ha, hl⟩ := List.forall_mem_cons.1 hf
    rw [List.mapM_cons]
    exact run_bind_ok ha (run_bind_ok (ih hl) rfl)

/-- The place of one lane's access, as `checkLanes` asks for it: its address, where it goes, or what it waits for. -/
def laneTgt (gk tn : Nat) (n : Need) (x : Nat × Nat) : Op (Nat × Option Tgt × Option Wait) := do
  let a := lpAddr n x.2
  if spaceOf a = 0 then
    match ← mapLane gk tn a n (accBits n) with
    | .ok r => return (x.2, some (Tgt.virt r), none)
    | .denied => return (x.2, none, none)
    | .sleep w => return (x.2, none, some w)
  else return (x.2, some (Tgt.loc a x.1), none)

/-- Only an access that is not lane-private goes to virtual memory, and its address stands as it is (R270, R273). -/
theorem lpAddr_virt {a : Nat} (h : spaceOf (lpAddr n a) = 0) : lpAddr n a = a ∧ n.lp = false := by
  unfold lpAddr at h ⊢
  split at h
  · exact absurd h (by unfold spaceOf offOf; omega)
  · rename_i hlp
    rw [if_neg hlp]
    exact ⟨rfl, by simpa [h] using hlp⟩

theorem laneTgt_run {x : Nat × Nat} (hg : tlook gk s.groups = some g) (hfail : g.failed.contains (lpAddr n x.2 / 4096) = false)
    (hsync : syncing s tn (lpAddr n x.2) = false) (ht : s.placed gk tn n x = some t) :
    (laneTgt gk tn n x).run s = .ok (x.2, some t, none) s := by
  unfold laneTgt
  by_cases hv : spaceOf (lpAddr n x.2) = 0
  · obtain ⟨haddr, hlp⟩ := lpAddr_virt hv
    obtain ⟨r, rfl⟩ : ∃ r, t = .virt r := by
      unfold State.placed at ht
      simp only [hv, bne_self_eq_false, Bool.false_eq_true, if_false] at ht
      split at ht
      · cases ht
      split at ht
      · split at ht
        · cases ht
          exact ⟨_, rfl⟩
        · cases ht
          exact ⟨_, rfl⟩
        · cases ht
      · cases ht
    rw [haddr] at hv hfail hsync
    simp only [haddr, hv, if_true]
    exact run_bind_ok (mapLane_placed hg hfail hsync hlp ht) rfl
  · have hloc : s.placed gk tn n x = some (.loc (lpAddr n x.2) x.1) := by
      unfold State.placed
      exact if_pos (bne_iff_ne.2 hv)
    cases hloc.symm.trans ht
    rw [if_neg hv, pure_run]

theorem localCtx_ready (hr : LanesReady s c n xs ts) : (localCtx s.cur.gk).run s = .ok c s := by
  obtain ⟨hgk, hg⟩ := hr.group
  obtain ⟨hb, q, hq, hh⟩ := hr.block
  rw [← hgk]
  exact localCtx_run hg hb hq hh

/-! Conditions on the places: not stale, under no other agent's tenure, below the cap on timestamps -/

def Tgt.staleAt (c : LocalCtx) (s : State) (n : Need) : Tgt → Bool
  | .loc a lane => c.stale s a n.size lane
  | .virt _ => false
def Tgt.conflictAt (s : State) (gk : Nat) (n : Need) : Tgt → Option Nat
  | .virt r => tenureConflict s r (selfWho s gk) n.size
  | .loc _ _ => none
def Tgt.cappedAt (s : State) (gk : Nat) (n : Need) : Tgt → Bool
  | .virt r => capped s r (writeClock s (coreOfGrp gk) n r)
  | .loc _ _ => false

/-- What `checkLanes` asks of the accesses once it has their places. -/
def checkTgts (gk : Nat) (c : LocalCtx) (n : Need) (ts : List Tgt) : Op (List Tgt) := do
  let s ← get
  if n.reads then
    match ts.find? (Tgt.staleAt c s n) with
    | some (.loc a _) => raise 0x05 (BitVec.ofNat 64 a)
    | _ => pure ()
  if n.writes then
    match (ts.filterMap (Tgt.conflictAt s gk n)).head? with
    | some a => raise 0x06 (BitVec.ofNat 64 a)
    | none => pure ()
    if ts.any (Tgt.cappedAt s gk n) then waitFor .home
  return ts

theorem checkTgts_run (hfresh : n.reads = true → ∀ a lane, Tgt.loc a lane ∈ ts → c.stale s a n.size lane = false)
    (htenure : n.writes = true → ∀ r, Tgt.virt r ∈ ts → tenureConflict s r (selfWho s gk) n.size = none)
    (hroom : n.writes = true → ∀ r, Tgt.virt r ∈ ts → capped s r (writeClock s (coreOfGrp gk) n r) = false) :
    (checkTgts gk c n ts).run s = .ok ts s := by
  have hwritten : n.writes = true → (ts.filterMap (Tgt.conflictAt s gk n)).head? = none ∧ ts.any (Tgt.cappedAt s gk n) = false := by
    refine fun hw => ⟨?_, List.any_eq_false.2 fun t ht => ?_⟩
    · have hnone : ts.filterMap (Tgt.conflictAt s gk n) = [] := List.filterMap_eq_nil_iff.2 fun t ht => by
        cases t with
        | loc a lane => rfl
        | virt r => exact htenure hw r ht
      rw [hnone]
      rfl
    · cases t with
      | loc a lane => exact Bool.false_ne_true
      | virt r => exact Bool.eq_false_iff.1 (hroom hw r ht)
  have hread : n.reads = true → ts.find? (Tgt.staleAt c s n) = none := fun hr => List.find?_eq_none.2 fun t ht => by
    cases t with
    | loc a lane => exact Bool.eq_false_iff.1 (hfresh hr a lane ht)
    | virt r => exact Bool.false_ne_true
  refine run_bind_ok (get_run _) ?_
  cases hr : n.reads with
  | false => cases hw : n.writes <;> simp only [hwritten, hw, Bool.false_eq_true, if_true, if_false, pure_run]
  | true => cases hw : n.writes <;> simp only [hread hr, hwritten, hw, Bool.false_eq_true, if_true, if_false, pure_run]

/-- Accesses against which no condition of R269 stands pass their checks. -/
theorem checkLanes_ready (hr : LanesReady s c n xs ts) : (checkLanes n xs).run s = .ok ts s := by
  have hctx := localCtx_ready hr
  obtain ⟨⟨hgk, hg⟩, ⟨hb, -⟩, hspaces, haligned, hpages, hplaces, hfresh, htenure, hroom⟩ := hr
  rw [hgk] at hg hb hplaces
  let place (x : Nat × Nat) : Option Tgt := s.placed s.cur.gk (tenantOf c.b.grid) n x
  have hplaced : ∀ x ∈ xs, ∃ t, place x = some t := fun x hx => by
    obtain ⟨t, -, ht⟩ := List.mem_map.1 (hplaces ▸ List.mem_map_of_mem hx)
    exact ⟨t, ht.symm⟩
  have hlanes : (xs.mapM (laneTgt s.cur.gk (tenantOf c.b.grid) n)).run s = .ok (xs.map fun x => (x.2, place x, none)) s := by
    refine mapM_run_same fun x hx => ?_
    obtain ⟨t, ht⟩ := hplaced x hx
    obtain ⟨hfail, hsync⟩ := hpages x hx
    rw [ht]
    exact laneTgt_run hg hfail hsync ht
  have hspace : (xs.find? fun x => badSpace c s n x.2 x.1) = none := List.find?_eq_none.2 fun x hx => by simp [hspaces x hx]
  have halign : (xs.find? fun x => x.2 % n.size != 0) = none := List.find?_eq_none.2 fun x hx => by simp [haligned x hx]
  unfold checkLanes
  refine run_bind_ok (get_run _) (run_bind_ok hctx (run_bind_ok (selfTenant_run hb) ?_))
  simp only [hspace, halign]
  refine run_bind_ok hlanes ?_
  have hwait : ((xs.map fun x => (x.2, place x, (none : Option Wait))).find? fun m => m.2.2.isSome) = none :=
    List.find?_eq_none.2 fun m hm => by
      obtain ⟨x, -, rfl⟩ := List.mem_map.1 hm
      exact Bool.false_ne_true
  have hdenied : ((xs.map fun x => (x.2, place x, (none : Option Wait))).find? fun m => m.2.1.isNone) = none :=
    List.find?_eq_none.2 fun m hm => by
      obtain ⟨x, hx, rfl⟩ := List.mem_map.1 hm
      obtain ⟨t, ht⟩ := hplaced x hx
      simp [ht]
  have hts : ((xs.map fun x => (x.2, place x, (none : Option Wait))).filterMap fun m => m.2.1) = ts := by
    calc _ = (xs.map place).filterMap id := by simp only [List.filterMap_map]; rfl
      _ = ts := by rw [hplaces, List.filterMap_map]; exact List.filterMap_some
  simp only [hwait, hdenied, hts]
  exact checkTgts_run hfresh (hgk ▸ htenure) (hgk ▸ hroom)

end Sys2Proof.Machine
end

section
/-! Loads always answer (09_tiles_leases.md R254 to R259; 10_memory_ops.md R272, R274). -/

namespace Sys2Proof.Machine

variable {α : Type}

theorem answers_ite {p : Prop} [Decidable p] {m n : Op α} (hm : Answers m) (hn : Answers n) : Answers (if p then m else n) := by
  split
  · exact hm
  · exact hn

/-! Copies and the room for them -/

theorem answers_raiseAt (p : Pt) (t : Nat) : Answers (raiseAt p t) := by
  cases p with
  | l1 c => exact answers_raiseLc c t
  | quad q => exact answers_raiseQc q t
  | l2 d => exact answers_pure ()

theorem answers_putCopy (p : Pt) (sec : Nat) (x : Copy) : Answers (putCopy p sec x) := by
  cases p with
  | l1 c => exact answers_modify _
  | quad q => exact answers_modify _
  | l2 d => exact answers_modify _

theorem answers_dropCopy (p : Pt) (sec : Nat) : Answers (dropCopy p sec) := by
  cases p with
  | l1 c => exact answers_modify _
  | quad q => exact answers_modify _
  | l2 d => exact answers_modify _

theorem answers_raiseHc (h t : Nat) : Answers (raiseHc h t) := answers_bind answers_get fun _ => answers_modHome _ _

theorem answers_atHome (h : Nat) : Answers (atHome h) := answers_bind answers_get fun _ => answers_modHome _ _

theorem answers_homeReply (p : Pt) (h : Nat) : Answers (homeReply p h) := answers_bind answers_get fun _ => answers_raiseAt _ _

theorem answers_touch (p : Pt) (sec lvl : Nat) : Answers (touch p sec lvl) := by
  have hsector (v k : Nat) : Answers (do
      match copyAt (← get) p k with
      | some x => if x.evp = v then pure () else putCopy p k { x with evp := v }
      | none => pure () : Op Unit) := by
    refine answers_bind answers_get fun s => ?_
    split
    · exact answers_ite (answers_pure _) (answers_putCopy _ _ _)
    · exact answers_pure _
  exact answers_bind answers_get fun _ => answers_bind (hsector _ _) fun _ => hsector _ _

theorem answers_mergeDirty (sec : Nat) (x : Copy) (up : Option Pt) : Answers (mergeDirty sec x up) := by
  refine answers_bind answers_get fun s => ?_
  cases up with
  | some p => exact answers_ite (answers_putCopy _ _ _) (answers_pure _)
  | none => exact answers_forM (fun _ => answers_putMem _ _ _) _

theorem answers_writeBack (p : Pt) (sec : Nat) (up : Option Pt) : Answers (writeBack p sec up) := by
  refine answers_bind answers_get fun s => ?_
  split
  · exact answers_ite (answers_bind (answers_mergeDirty _ _ _) fun _ => answers_putCopy _ _ _) (answers_pure _)
  · exact answers_pure _

theorem answers_evict (p : Pt) (sec : Nat) : Answers (evict p sec) := by
  cases p with
  | l1 c => exact answers_bind answers_get fun _ => answers_bind (answers_writeBack _ _ _) fun _ => answers_dropCopy _ _
  | quad q => exact answers_bind (answers_writeBack _ _ _) fun _ => answers_dropCopy _ _
  | l2 d => exact answers_bind (answers_writeBack _ _ _) fun _ => answers_dropCopy _ _

theorem answers_makeRoom (p : Pt) (sec : Nat) : Answers (makeRoom p sec) := by
  refine answers_bind answers_get fun s => ?_
  dsimp only
  split
  · refine answers_ite ?_ (answers_pure _)
    split
    · exact answers_bind (answers_evict _ _) fun _ => answers_evict _ _
    · exact answers_pure _
  · exact answers_pure _

/-! Fills -/

theorem answers_quadYields (core : Nat) (r : VRef) (w : Nat) : Answers (quadYields core r w) := by
  refine answers_bind answers_get fun s => ?_
  split
  · exact answers_ite (answers_dropCopy _ _) (answers_pure _)
  · exact answers_pure _

/-- A copy that comes to a point, and the priority that its line takes there. -/
theorem answers_settleCopy (p : Pt) (sec lvl : Nat) (x : Copy) {m : Op Copy} (hm : Answers m) : Answers (do
    putCopy p sec x
    touch p sec lvl
    m) := answers_bind (answers_putCopy _ _ _) fun _ => answers_bind (answers_touch _ _ _) fun _ => hm

theorem answers_leaseFill (p : Pt) (r : VRef) (evp : Nat) : Answers (leaseFill p r evp) := by
  refine answers_bind (answers_makeRoom _ _) fun _ => answers_bind answers_get fun s => answers_bind (answers_atHome _) fun _ =>
    answers_bind (answers_modify _) fun _ => answers_bind (answers_raiseHc _ _) fun _ => ?_
  refine answers_bind ?_ fun _ => answers_settleCopy _ _ _ _ (answers_pure _)
  split
  · exact answers_ite (answers_bind (answers_modHome _ _) fun _ => answers_pure _) (answers_pure _)
  · exact answers_pure _

theorem answers_plainFill (p : Pt) (die : Nat) (r : VRef) (evp : Nat) : Answers (plainFill p die r evp) := by
  refine answers_bind answers_get fun s => ?_
  split
  · exact answers_bind (answers_touch _ _ _) fun _ => answers_pure _
  · have hend (x : Copy) : Answers (do
        if p != .l2 die || !r.e.l2 then
          makeRoom p r.sec
          putCopy p r.sec x
          touch p r.sec evp
        return x) :=
      answers_ite (answers_bind (answers_makeRoom _ _) fun _ => answers_settleCopy _ _ _ _ (answers_pure _)) (answers_pure _)
    dsimp only
    split
    · exact answers_ite (answers_bind (answers_makeRoom _ _) fun _ => answers_settleCopy _ _ _ _ (hend _))
        (answers_bind (answers_touch _ _ _) fun _ => hend _)
    · exact hend _

theorem answers_loadAt (core : Nat) (r : VRef) (whos : List Agent) (n evict : Nat) : Answers (loadAt core r whos n evict) := by
  refine answers_bind answers_get fun s => ?_
  dsimp only
  split
  · exact answers_pure _
  split
  · split
    · exact answers_bind (answers_plainFill _ _ _ _) fun _ => answers_pure _
    split
    · exact answers_bind (answers_plainFill _ _ _ _) fun _ => answers_pure _
    · exact answers_pure _
  split
  · exact answers_bind (answers_atHome _) fun _ => answers_bind (answers_quadYields _ _ _) fun _ => answers_pure _
  split
  · exact answers_bind (answers_touch _ _ _) fun _ => answers_pure _
  · exact answers_bind (answers_leaseFill _ _ _) fun _ => answers_bind (answers_quadYields _ _ _) fun _ => answers_pure _

/-! Loads of lanes -/

theorem answers_loadTgt (c : LocalCtx) (n evict : Nat) (t : Tgt) : Answers (loadTgt c n evict t) := by
  cases t with
  | loc a lane => exact answers_bind answers_get fun _ => answers_pure _
  | virt r => exact answers_bind answers_get fun _ => answers_loadAt _ _ _ _ _

theorem answers_loadValues (c : LocalCtx) (n evict : Nat) (ts : List Tgt) (memo : Tab Got) : Answers (loadValues c n evict ts memo) := by
  induction ts generalizing memo with
  | nil => exact answers_pure _
  | cons t ts ih =>
    cases t with
    | loc a lane => exact answers_bind (answers_loadTgt _ _ _ _) fun _ => answers_bind (ih _) fun _ => answers_pure _
    | virt r =>
      rw [loadValues]
      split
      · exact answers_bind (ih _) fun _ => answers_pure _
      · exact answers_bind (answers_loadTgt _ _ _ _) fun _ => answers_bind (ih _) fun _ => answers_pure _

theorem answers_noteSeen (core w : Nat) : Answers (noteSeen core w) := answers_bind answers_get fun _ => answers_modCore _ _

theorem answers_loadsDone (core : Nat) (acq : Bool) (gs : List (VRef × Got)) : Answers (loadsDone core acq gs) := by
  refine answers_forM (fun x => ?_) _
  have hend : Answers (do
      match x.2.home with
      | some h => homeReply (.l1 core) h
      | none => pure ()) := by
    split
    · exact answers_homeReply _ _
    · exact answers_pure _
  refine answers_ite (answers_bind (answers_noteSeen _ _) fun _ => ?_) hend
  exact answers_ite (answers_bind (answers_acquireAt _ _) fun _ => hend) hend

theorem answers_loadAll (c : LocalCtx) (n evict : Nat) (acq : Bool) (ts : List Tgt) : Answers (loadAll c n evict acq ts) := by
  refine answers_bind (answers_loadValues _ _ _ _ _) fun gs => answers_bind (answers_loadsDone _ _ _) fun _ => ?_
  exact answers_ite (answers_bind (answers_acquireCore _) fun _ => answers_pure _) (answers_pure _)

end Sys2Proof.Machine
end

section
/-! TOPEN (09_tiles_leases.md R234 to R239; 10_memory_ops.md R283). -/

namespace Sys2Proof.Machine

variable {s r u v w z : State} {g g' : Group} {h : Hdr} {b : Block} {o : MWord} {c : LocalCtx} {n : Need} {xs : List (Nat × Nat)}
variable {ts : List Tgt} {d : TileDesc} {ps : List (Nat × Bool)} {me : Agent} {slice : Nat} {y : Entry}

/-- Accesses that pass their checks: the word has their places, and its context. -/
theorem passes_run (hp : passes s c n xs ts u) : (checkLanes n xs).run s = .ok ts u ∧ (localCtx u.cur.gk).run u = .ok c u := by
  obtain ⟨hr, rfl⟩ | ⟨hts, hc⟩ := hp
  · exact ⟨checkLanes_ready hr, localCtx_ready hr⟩
  · exact ⟨reply_some hts, reply_some hc⟩

/-! The pages of a tile (check 2) -/

/-- The mapping of a page whose place is known. -/
def pageMapped : Option Tgt → Mapped
  | some (.virt r) => .ok r
  | _ => .denied

theorem filterMap_pageMapped {α β : Type} {l : List (Nat × α)} {place : Nat × α → Option Tgt} {rs : List VRef} {q : VRef → β}
    {f : α × Mapped → Option β} (hf : ∀ a r, f (a, .ok r) = some (q r)) (hplaces : l.map place = rs.map fun r => some (.virt r)) :
    (l.map fun x => (x.2, pageMapped (place x))).filterMap f = rs.map q := by
  induction l generalizing rs with
  | nil =>
    cases rs with
    | nil => rfl
    | cons r rs => cases hplaces
  | cons x l ih =>
    cases rs with
    | nil => cases hplaces
    | cons r rs =>
      obtain ⟨hplace, hplaces⟩ := List.cons.inj hplaces
      have hx : pageMapped (place x) = .ok r := congrArg pageMapped hplace
      rw [List.map_cons, hx, List.filterMap_cons_some (hf x.2 r), ih hplaces, List.map_cons]

theorem mapTile_run (hm : tileMapped d v w ps) : (mapTile d).run v = .ok ps w := by
  obtain ⟨g, b, rs, hg, hb, hpages, hplaces, rfl, rfl⟩ | hm := hm
  · let place (x : Nat × Nat) : Option Tgt := w.placed w.cur.gk (tenantOf b.grid) ⟨[0], true, false, 1, false, none⟩ (0, x.2)
    have hplaced : ∀ x ∈ tilePages d, ∃ r, place x = some (.virt r) := fun x hx => by
      obtain ⟨r, -, hr⟩ := List.mem_map.1 (hplaces ▸ List.mem_map_of_mem hx)
      exact ⟨r, hr.symm⟩
    have hmapped : ((tilePages d).mapM fun x : Nat × Nat => do
        return (x.2, ← mapLane w.cur.gk (tenantOf b.grid) x.2 ⟨[0], true, false, 1, false, none⟩ 1)).run w =
        .ok ((tilePages d).map fun x => (x.2, pageMapped (place x))) w := by
      refine mapM_run_same fun x hx => ?_
      obtain ⟨r, hr⟩ := hplaced x hx
      obtain ⟨hfail, hsync⟩ := hpages x hx
      rw [hr]
      exact run_bind_ok (mapLane_placed hg hfail hsync rfl hr) rfl
    unfold mapTile
    refine run_bind_ok (get_run _) (run_bind_ok (selfTenant_run hb) (run_bind_ok hmapped ?_))
    have hok : ∀ m ∈ (tilePages d).map fun x => (x.2, pageMapped (place x)), ∃ r, m.2 = .ok r := fun m hm => by
      obtain ⟨x, hx, rfl⟩ := List.mem_map.1 hm
      obtain ⟨r, hr⟩ := hplaced x hx
      exact ⟨r, congrArg pageMapped hr⟩
    dsimp only
    split
    · rename_i heq
      obtain ⟨m, hm, hsleep⟩ := List.exists_of_findSome?_eq_some heq
      obtain ⟨r, hr⟩ := hok m hm
      rw [hr] at hsleep
      cases hsleep
    split
    · rename_i heq
      obtain ⟨r, hr⟩ := hok _ (List.mem_of_find?_eq_some heq)
      have hdenied := List.find?_some heq
      rw [hr] at hdenied
      cases hdenied
    · exact congrArg (EStateM.Result.ok · w) (filterMap_pageMapped (fun _ _ => rfl) hplaces)
  · exact reply_some hm

/-! An entry of the directory (R250) -/

theorem takeEntry_full (hf : freeCount (s.home slice) = 0) : (takeEntry slice y).run s = .ok none s := by
  obtain ⟨hfresh, hfreed⟩ := Nat.add_eq_zero_iff.1 hf
  have hnew : ¬(s.home slice).fresh < Config.tilesPerSlice := by omega
  simp only [takeEntry, bind_run, get_run, if_neg hnew, List.eq_nil_of_length_eq_zero hfreed, pure_run]

/-- An entry is taken from a directory with a free one: the homes alone change. -/
theorem takeEntry_some (hf : freeCount (s.home slice) ≠ 0) :
    ∃ e hs, (takeEntry slice y).run s = .ok (some e) { s with homes := hs } := by
  by_cases hnew : (s.home slice).fresh < Config.tilesPerSlice
  · let h := s.home slice
    refine ⟨h.fresh, tput {} s.homes slice { h with fresh := h.fresh + 1, entries := tset h.fresh y h.entries },
      run_bind_ok (get_run _) ?_⟩
    rw [if_pos hnew]
    rfl
  · obtain ⟨e, rest, hfreed⟩ : ∃ e rest, (s.home slice).freed = e :: rest := by
      refine List.exists_cons_of_ne_nil fun hnil => hf ?_
      rw [freeCount, hnil, List.length_nil]
      omega
    let h := s.home slice
    refine ⟨e, tput {} s.homes slice { h with freed := rest, entries := tset e y h.entries }, run_bind_ok (get_run _) ?_⟩
    rw [if_neg hnew, hfreed]
    rfl

end Sys2Proof.Machine
end

section
/-! TOPEN and its descriptor (09_tiles_leases.md R234 to R239; 10_memory_ops.md R283). -/

namespace Sys2Proof.Machine

variable {s r u v w z : State} {g g' : Group} {h : Hdr} {b : Block} {o : MWord} {c : LocalCtx} {ts : List Tgt} {d : TileDesc}
variable {ps : List (Nat × Bool)} {me : Agent} {tn e : Nat} {ds xs : List Nat}

/-- The entry that TOPEN takes for an agent's tile: open, with every right. -/
def openedEntry (d : TileDesc) (tn : Nat) (me : Agent) : Entry := ⟨d, tn, me.grid, me.seq, 15, .opened, [], none, none, 0, 0, [], []⟩

/-- TOPEN once it has the classes of the tile's pages: checks 3 and 4, and the entry. -/
def openMapped (o : MWord) (tn : Nat) (d : TileDesc) (ps : List (Nat × Bool)) : Op Unit := do
  let s ← get
  if d.base / 2 ^ 26 != ((d.rows.getLast?.getD d.base) + d.rowBytes - 1) / 2 ^ 26 then tileReply o tsArena
  else if ps.any (fun p => p.1 != 2 || !p.2) then tileReply o tsClass
  else
    let me ← agentOf s.cur.gk
    let slice := arenaSlice s (s.partOf tn) tn d.base
    match ← takeEntry slice (openedEntry d tn me) with
    | none => tileReply o tsFull
    | some e =>
      let s ← get
      tileReply o (tileHandle s slice e (entryGen (s.home slice) e) 15)

/-- TOPEN once it has read the words of the descriptor: its check, then the pages of the tile. -/
def openDesc (o : MWord) (ds : List Nat) : Op Unit :=
  if descBad ds then tileReply o tsBadDesc
  else do
    let tn ← selfTenant
    let ps ← mapTile (descOf ds)
    openMapped o tn (descOf ds) ps

theorem exec_topen (hw : HandleGoes s (.topen o) g h o) (hb : s.tileBegun (.topen o) g o r)
    (hp : passes r c ⟨spacesSig, true, false, 64, false, none⟩ [(0, baseVal s s.cur.gk g 0 o.base)] ts u)
    (hgood : ∀ t ∈ ts, tgtBad c u 64 t = false) (hx : (loadAll c 64 0 false ts).run u = .ok xs v) :
    exec (.topen o) s = runOp (openDesc o (wordsOf (xs.headD 0) 8)) v := by
  obtain ⟨hlanes, hctx⟩ := passes_run hp
  have hfind : ts.find? (tgtBad c u 64) = none := List.find?_eq_none.2 fun t ht => by simp [hgood t ht]
  refine runOp_of_run_eq (run_bind_ok (tileStart_base hw hb) (run_bind_ok hlanes ?_))
  refine run_bind_ok (get_run _) (run_bind_ok hctx (run_bind_ok (get_run _) ?_))
  simp only [hfind]
  exact run_bind_ok hx rfl

theorem openDesc_mapped (hd : descBad ds = false) (hb : tlook (blkOfGrp v.cur.gk) v.blocks = some b) (hm : tileMapped (descOf ds) v w ps) :
    (openDesc o ds).run v = (openMapped o (tenantOf b.grid) (descOf ds) ps).run w := by
  rw [openDesc, hd, if_neg Bool.false_ne_true]
  exact run_bind_ok (selfTenant_run hb) (run_bind_ok (mapTile_run hm) rfl)

theorem openMapped_arena (hfar : d.base / 2 ^ 26 ≠ ((d.rows.getLast?.getD d.base) + d.rowBytes - 1) / 2 ^ 26) :
    (openMapped o tn d ps).run w = (tileReply o tsArena).run w := by
  refine run_bind_ok (get_run _) ?_
  rw [if_pos (bne_iff_ne.2 hfar)]

section
variable (hnear : d.base / 2 ^ 26 = ((d.rows.getLast?.getD d.base) + d.rowBytes - 1) / 2 ^ 26)
include hnear

theorem openMapped_class (hclass : (ps.any fun p => p.1 != 2 || !p.2) = true) :
    (openMapped o tn d ps).run w = (tileReply o tsClass).run w := by
  refine run_bind_ok (get_run _) ?_
  rw [if_neg (by simpa using hnear), if_pos hclass]

variable (hclass : (ps.any fun p => p.1 != 2 || !p.2) = false) (ha : agentAt w w.cur.gk = some me)
include hclass ha

theorem openMapped_full (hf : freeCount (w.home (arenaSlice w (w.partOf tn) tn d.base)) = 0) :
    (openMapped o tn d ps).run w = (tileReply o tsFull).run w := by
  refine run_bind_ok (get_run _) ?_
  rw [if_neg (by simpa using hnear), hclass, if_neg Bool.false_ne_true]
  exact run_bind_ok (agentOf_run ha) (run_bind_ok (takeEntry_full hf) rfl)

theorem openMapped_taken
    (ht : (takeEntry (arenaSlice w (w.partOf tn) tn d.base) (openedEntry d tn me)).run w = .ok (some e) z) :
    (openMapped o tn d ps).run w = (tileReply o (tileHandle z (arenaSlice w (w.partOf tn) tn d.base) e
      (entryGen (z.home (arenaSlice w (w.partOf tn) tn d.base)) e) 15)).run z := by
  refine run_bind_ok (get_run _) ?_
  rw [if_neg (by simpa using hnear), hclass, if_neg Bool.false_ne_true]
  exact run_bind_ok (agentOf_run ha) (run_bind_ok ht (run_bind_ok (get_run _) rfl))

end

/-- Settles O24: the descriptor is read, checked and mapped, and where nothing refuses it an entry is taken. -/
theorem tileOpen : Obligations.TileOpen := by
  intro s r u g h o ts c
  dsimp only
  intro hw hb hp hgood
  obtain ⟨xs, v, hx⟩ := answers_loadAll c 64 0 false ts u
  refine ⟨xs, v, reply_of_run hx, ?_⟩
  rw [exec_topen hw hb hp hgood hx]
  refine ⟨fun g' hbad hg => ?_, fun ps w g' b hd hblk hm hg => ?_⟩
  · exact runOp_told (by rw [openDesc, if_pos hbad]) hg
  rw [runOp_of_run_eq (openDesc_mapped hd hblk hm)]
  refine ⟨fun hfar => ?_, fun hnear hclass => ?_, fun me hnear hclass ha => ⟨fun hf => ?_, fun hf => ?_⟩⟩
  · exact runOp_told (openMapped_arena hfar) hg
  · exact runOp_told (openMapped_class (not_not.1 hnear) hclass) hg
  · exact runOp_told (openMapped_full (not_not.1 hnear) hclass ha hf) hg
  · obtain ⟨e, hs, ht⟩ := takeEntry_some hf
    exact ⟨e, _, reply_of_run ht, runOp_told (openMapped_taken (not_not.1 hnear) hclass ha ht) hg⟩

end Sys2Proof.Machine
end

section
/-! Operations that leave the word in progress as it is. -/

namespace Sys2Proof.Machine

variable {α β : Type} {s t : State}

/-- Where the operation answers, the word in progress is what it was. -/
def KeepsCur (m : Op α) : Prop := ∀ s a t, m.run s = .ok a t → t.cur = s.cur

theorem keepsCur_pure (a : α) : KeepsCur (pure a : Op α) := by
  rintro s _ _ ⟨⟩
  rfl

theorem keepsCur_get : KeepsCur (get : Op State) := by
  rintro s _ _ ⟨⟩
  rfl

theorem keepsCur_modify {f : State → State} (hf : ∀ s, (f s).cur = s.cur) : KeepsCur (modify f : Op PUnit) := by
  rintro s _ _ ⟨⟩
  exact hf s

theorem keepsCur_bind {m : Op α} {f : α → Op β} (hm : KeepsCur m) (hf : ∀ a, KeepsCur (f a)) : KeepsCur (m >>= f) := by
  intro s b u hu
  obtain ⟨a, t, ht, hrest⟩ := bind_run_ok hu
  exact (hf a t b u hrest).trans (hm s a t ht)

theorem keepsCur_forM {f : α → Op PUnit} (hf : ∀ a, KeepsCur (f a)) (l : List α) : KeepsCur (l.forM f) := by
  induction l with
  | nil => exact keepsCur_pure _
  | cons a l ih => exact keepsCur_bind (hf a) fun _ => ih

/-! Entries of a directory, and the publication of a write tenure (09_tiles_leases.md R245, R250) -/

theorem keepsCur_modHome (k : Nat) (f : Home → Home) : KeepsCur (modHome k f) := keepsCur_modify fun _ => rfl

theorem keepsCur_modEntry (slice e : Nat) (f : Entry → Entry) : KeepsCur (modEntry slice e f) := keepsCur_modHome _ _

theorem keepsCur_dropCopy (p : Pt) (sec : Nat) : KeepsCur (dropCopy p sec) := by
  cases p with
  | l1 c => exact keepsCur_modify fun _ => rfl
  | quad q => exact keepsCur_modify fun _ => rfl
  | l2 d => exact keepsCur_modify fun _ => rfl

theorem keepsCur_touchSector (slice sec : Nat) : KeepsCur (touchSector slice sec) :=
  keepsCur_bind keepsCur_get fun _ => keepsCur_bind (keepsCur_modify fun _ => rfl) fun _ =>
    keepsCur_bind keepsCur_get fun _ => keepsCur_modHome _ _

theorem keepsCur_publish (slice e : Nat) : KeepsCur (publish slice e) := by
  refine keepsCur_bind keepsCur_get fun s => ?_
  split
  · exact keepsCur_pure _
  · refine keepsCur_bind (keepsCur_forM (fun _ => keepsCur_touchSector _ _) _) fun _ => keepsCur_bind (keepsCur_forM (fun a => ?_) _) fun _ =>
      keepsCur_modEntry _ _ _
    cases a.who with
    | group gk => exact keepsCur_forM (fun _ => keepsCur_dropCopy _ _) _
    | job d n => exact keepsCur_pure _

theorem keepsCur_takeEntry (slice : Nat) (x : Entry) : KeepsCur (takeEntry slice x) := by
  refine keepsCur_bind keepsCur_get fun s => ?_
  dsimp only
  split
  · exact keepsCur_bind (keepsCur_modHome _ _) fun _ => keepsCur_pure _
  split
  · exact keepsCur_bind (keepsCur_modHome _ _) fun _ => keepsCur_pure _
  · exact keepsCur_pure _

theorem keepsCur_takeParts (slice : Nat) (mk : Nat → Nat → Entry) (is : List Nat) (left : Nat) : KeepsCur (takeParts slice mk is left) := by
  induction is generalizing left with
  | nil => exact keepsCur_pure _
  | cons i is ih =>
    refine keepsCur_bind (keepsCur_takeEntry _ _) fun x => ?_
    cases x with
    | some e => exact keepsCur_bind (ih _) fun _ => keepsCur_pure _
    | none => exact keepsCur_pure _

end Sys2Proof.Machine
end

section
/-! TSPLIT (09_tiles_leases.md R247; 10_memory_ops.md R286). -/

namespace Sys2Proof.Machine

variable {α β : Type} {s t r u : State} {g g' : Group} {h : Hdr} {b : Block} {o : MWord} {slice e rt gk : Nat} {y : Entry} {ts : List Tgt}
variable {c : LocalCtx} {me : Agent}

/-- An operation that answers is not caught. -/
theorem tryCatch_run {m : Op α} {k : Stop → Op α} {a : α} (hm : m.run s = .ok a t) : (tryCatch m k : Op α).run s = .ok a t := by
  have hm : m s = .ok a t := hm
  show EStateM.tryCatch m k s = _
  unfold EStateM.tryCatch
  rw [hm]

/-- Two continuations that run alike after an operation. -/
theorem run_bind_congr {m : Op α} {f f' : α → Op β} (hf : ∀ a t, m.run s = .ok a t → (f a).run t = (f' a).run t) :
    (m >>= f).run s = (m >>= f').run s := by
  rw [bind_run, bind_run]
  split
  · exact hf _ _ ‹_›
  · rfl

/-- The conditions under which a tile cannot be split along a dimension in `n` parts (R247). -/
def badSplit (y : Entry) (dim n : Nat) : Bool := n < 2 || y.desc.rank ≤ dim || y.desc.ext.getD dim 1 % n != 0 || 3 ≤ y.level

theorem badSplit_iff {dim n : Nat} :
    badSplit y dim n = true ↔ n < 2 ∨ y.desc.rank ≤ dim ∨ y.desc.ext.getD dim 1 % n ≠ 0 ∨ 3 ≤ y.level := by
  simp only [badSplit, Bool.or_eq_true, decide_eq_true_eq, bne_iff_ne, or_assoc]

/-- The end of a split: the handles of its parts stored, success reported, and what the slice now grants. -/
def storeParts (o : MWord) (slice rt : Nat) (ts : List Tgt) (parts : List Nat) (s : State) (gk : Nat) : Op Unit := do
  let c ← localCtx gk
  (ts.zip parts).forM fun (t, k) => storeTgt c 8 (tileHandle s slice k (entryGen (s.home slice) k) (Nat.land rt 14)) 0 t
  tileDone o tsOk
  grants slice

/-- The split of a tile, for a group `gk` or for the one whose word is in progress. -/
def makeParts (o : MWord) (slice e rt : Nat) (y : Entry) (me : Agent) (ts : List Tgt) (dim n : Nat) (gk : Option Nat) : Op Unit := do
  let parts ← takeParts slice (splitPart y e rt me dim n) (List.range n) y.reserved
  modEntry slice e fun x => { x with state := if y.writes then .splitW else .splitR, splitter := some me, reserved := 0 }
  let s ← get
  storeParts o slice rt ts parts s (gk.getD s.cur.gk)

theorem makeParts_cur {dim n : Nat} :
    (makeParts o slice e rt y me ts dim n (some u.cur.gk)).run u = (makeParts o slice e rt y me ts dim n none).run u := by
  refine run_bind_congr fun parts v hv => run_bind_congr fun _ w hw => run_bind_congr fun _ x hx => ?_
  cases hx
  rw [Option.getD_some, Option.getD_none, keepsCur_modEntry _ _ _ _ _ _ hw, keepsCur_takeParts _ _ _ _ _ _ _ hv]

/-- A tile whose write tenure is published, and then split. -/
theorem publishParts_cur {dim n : Nat} (hgk : u.cur.gk = gk) :
    (do
      if y.writes then publish slice e
      makeParts o slice e rt y me ts dim n (some gk) : Op Unit).run u =
    (do
      if y.writes then publish slice e
      makeParts o slice e rt y me ts dim n none : Op Unit).run u := by
  subst hgk
  cases y.writes with
  | false => exact makeParts_cur
  | true =>
    refine run_bind_congr fun _ v hv => ?_
    rw [← keepsCur_publish _ _ _ _ _ hv]
    exact makeParts_cur

theorem exec_tsplit (w : HandleGoes s (.tsplit o) g h o) (hb : s.tileBegun (.tsplit o) g o r)
    (hp : passes r c ⟨spacesSig, false, true, 8, false, none⟩
      ((List.range (bits o.off.toNat 7 4 + 1)).map fun k => (0, baseVal s s.cur.gk g 0 o.index + 8 * k)) ts u)
    (hgk : u.cur.gk = s.cur.gk) (hblk : tlook (blkOfGrp s.cur.gk) u.blocks = some b) (ha : agentAt u s.cur.gk = some me)
    (hg : tlook s.cur.gk u.groups = some g')
    (hopen : openHandle u (tenantOf b.grid) (baseVal s s.cur.gk g 0 o.base) = some (slice, e, y, rt)) (hwrites : g'.writesTile y.desc = false) :
    exec (.tsplit o) s = runOp (
      let dim := bits o.off.toNat 1 0
      let n := bits o.off.toNat 7 4 + 1
      if Nat.land rt rightSp = 0 then tileReply o tsNoRight
      else if (!y.holds me || y.isSplit) = true then tileReply o tsNotHolder
      else if badSplit y dim n = true then tileReply o tsBadSplit
      else if freeCount (u.home slice) < n then tileReply o tsFull
      else do
        if y.writes then publish slice e
        makeParts o slice e rt y me ts dim n (some s.cur.gk)) u := by
  obtain ⟨hlanes, -⟩ := passes_run hp
  rw [← hgk] at hblk hg
  refine runOp_of_run_eq (run_bind_ok (tileStart_base w hb) (run_bind_ok (get_run _) (run_bind_ok (self_run (tileBegun_group w hb)) ?_)))
  rw [tileBegun_baseVal hb, tileBegun_gk hb]
  refine run_bind_ok (tryCatch_run hlanes) (run_bind_ok (needHandle_run hblk hopen) (run_bind_ok (self_run hg) ?_))
  simp only [hwrites, Bool.false_eq_true, if_false]
  exact run_bind_ok (agentOf_run ha) (run_bind_ok (get_run _) rfl)

/-- Settles O25: the conditions in their order, and where none refuses it the split. -/
theorem tileSplit : Obligations.TileSplit := by
  intro s r u g g' h b o slice e rt y ts c me
  dsimp only
  intro w hb hp hgk hblk ha hg hopen hwrites
  have hg : tlook u.cur.gk u.groups = some g' := by rw [hgk, hg]
  rw [exec_tsplit w hb hp hgk hblk ha (hgk ▸ hg) hopen hwrites]
  dsimp only
  refine ⟨fun hright => ?_, fun hright hholds => ?_, fun hright hholds hbad => ?_, fun hright hholds hbad hfull => ?_,
    fun hright hholds hbad hfull => ?_⟩
  · rw [if_pos (not_not.1 hright)]
    exact runOp_told rfl hg
  all_goals rw [if_neg hright]
  · have hholds : (!y.holds me || y.isSplit) = true := by simpa [imp_iff_not_or] using hholds
    rw [if_pos hholds]
    exact runOp_told rfl hg
  all_goals
    have hholds : (!y.holds me || y.isSplit) = false := by
      obtain ⟨hheld, hwhole⟩ := hholds
      rw [hheld, hwhole]
      rfl
    rw [hholds, if_neg Bool.false_ne_true]
  · rw [if_pos (badSplit_iff.2 hbad)]
    exact runOp_told rfl hg
  · rw [if_neg (mt badSplit_iff.1 hbad), if_pos hfull]
    exact runOp_told rfl hg
  · rw [if_neg (mt badSplit_iff.1 hbad), if_neg hfull]
    exact gives_of_run_eq (publishParts_cur hgk)

end Sys2Proof.Machine
end

section
/-! Clocks, floors, ageing and scrubbers (09_tiles_leases.md R254, R258, R259; 15_isolation.md R422). -/

namespace Sys2Proof.Machine

variable {s : State} {x : Stamps} {c d sec : Nat}

theorem require_ok {p : Bool} (hp : p = true) : (require p).run s = .ok () s := by rw [require_run, if_pos hp]
theorem require_fails {p : Bool} (hp : p = false) : (require p).run s = .error .done s := by rw [require_run, if_neg (by rw [hp]; decide)]

/-- An event whose condition does not hold ends there. -/
theorem require_bind_fails {p : Bool} {f : PUnit → Op Unit} (hp : p = false) : (require p >>= f).run s = .error .done s := by
  rw [bind_run, require_fails hp]

/-! Clocks -/

/-- The state after a tick, before the monitors look: every clock stands 1 further, and the leases that it passes have ended (R254). -/
def State.ticked (s : State) : State :=
  let b := (s.dev.base + 1) % 65536
  { s with
    dev := { s.dev with ticks := s.dev.ticks + 1, base := b }
    cores := s.cores.map fun e => (e.1, e.2.ticked b)
    quads := s.quads.map fun e => (e.1, e.2.ticked b) }

/-- Monitors on lines that the L1 may not cache report each tick (10_memory_ops.md R279). -/
def uncachedLines : Op Unit :=
  lineEvents fun _ w => match w with
    | .line _ false _ _ watch _ => watch = 0
    | _ => false

theorem exec_logicalClockTick_due (ht : s.dev.ticks < s.cycle / 1024) : exec .logicalClockTick s = runOp uncachedLines s.ticked := by
  refine runOp_of_run_eq (run_bind_ok (get_run _) (run_bind_ok (require_ok (decide_eq_true ht)) ?_))
  exact run_bind_ok (modDev_run _ _) (run_bind_ok (modify_run _ _) rfl)

theorem exec_logicalClockTick_early (ht : s.cycle / 1024 ≤ s.dev.ticks) : exec .logicalClockTick s = .next s := by
  exact runOp_done (run_bind_ok (get_run _) (require_bind_fails (decide_eq_false (Nat.not_lt.2 ht))))

/-- What a floor of the pod does: the clocks raised, the floor noted, and what waits for a home slice looks again (R258). -/
def takeFloor (m : Nat) : Op Unit := do
  raiseClocks (floorOf m)
  modDev fun d => { d with floors := d.floors + 1, floor := (m + 65536 - d.start) % 65536 }
  homeEvent

theorem answers_takeFloor (m : Nat) : Answers (takeFloor m) :=
  answers_bind (answers_raiseClocks _) fun _ => answers_bind (answers_modDev _) fun _ => answers_homeEvent

theorem exec_podFloor {m : BitVec 16} (hf : s.dev.floors < s.cycle / 4096) :
    exec (.podFloor m) s = runOp (takeFloor (later (largestClock s) m.toNat)) s := by
  exact runOp_of_run_eq (run_bind_ok (get_run _) (run_bind_ok (require_ok (decide_eq_true hf)) rfl))

/-! Ageing -/

theorem exec_ageingSweep_below (hx : tlook sec s.sects = some x) (hf : s.dev.floors ≠ 0) (he : earlier x.rts (floorOf s.floorM) = true) :
    exec (.ageingSweep sec) s = .next { s with
      sects := tset sec ⟨floorOf s.floorM, floorOf s.floorM, x.home⟩ s.sects
      homes := tput {} s.homes x.home { s.home x.home with aged := sat48 ((s.home x.home).aged + 1) } } := by
  refine runOp_ok (run_bind_ok (get_run _) ?_)
  simp only [hx, bind_run, need_some_run, bne_iff_ne.2 hf, he, Bool.and_self, if_true, modify_run, modHome_run]
  rfl

theorem exec_ageingSweep_above (hx : tlook sec s.sects = some x) (he : earlier x.rts (floorOf s.floorM) = false) :
    exec (.ageingSweep sec) s = .next s := by
  refine runOp_ok (run_bind_ok (get_run _) ?_)
  simp only [hx, bind_run, need_some_run, he, Bool.and_false, Bool.false_eq_true, if_false, pure_run]

/-! Scrubbers -/

/-- A granule that no allocation covers, with a tag of an earlier one (R422). -/
def deadGranule (s : State) (k : Nat) (cover : Option (Nat × Nat)) : Prop :=
  (tget Granule.clean s.store k).tag ≠ 0 ∧ (cover.any fun y => y.1 = (tget Granule.clean s.store k).tag) = false

theorem scrubKey_dead {k : Nat} {cover : Option (Nat × Nat)} (hd : deadGranule s k cover) : (scrubKey false k cover).run s = .ok () { s with
    store := tdel k s.store
    poison := { s.poison with store := s.poison.store.filter fun w => w / 2 != k, tags := s.poison.tags.filter (· != k) } } := by
  obtain ⟨htag, hcover⟩ := hd
  refine run_bind_ok (get_run _) ?_
  simp only [State.gran, Bool.false_eq_true, if_false, hcover, bne_iff_ne.2 htag, Bool.not_false, Bool.and_self, if_true, modify_run]

theorem scrubKey_live {k : Nat} {cover : Option (Nat × Nat)} (hd : ¬deadGranule s k cover) : (scrubKey false k cover).run s = .ok () s := by
  have hd : ((s.gran false k).tag != 0 && !(cover.any fun y => y.1 = (s.gran false k).tag)) = false := by
    simpa [deadGranule, State.gran] using hd
  refine run_bind_ok (get_run _) ?_
  simp only [hd, Bool.false_eq_true, if_false, pure_run]

/-- A core whose scrubber has gone on to its next granule. -/
def Core.scrubNext (k : Core) : Core :=
  let next := (k.scrub + 1) % Config.granulesPerCore
  { k with scrub := next, passes := if next = 0 then k.passes + 1 else k.passes }

theorem exec_scrubGranule_core {t : State} (hc : c < cores)
    (hk : (scrubKey false (c * Config.granulesPerCore + (s.core c).scrub) (coverOf s c (s.core c).scrub)).run s = .ok () t)
    (ht : t.cores = s.cores) : exec (.scrubGranule c) s = .next { t with cores := tput {} s.cores c (s.core c).scrubNext } := by
  have hcore : t.core c = s.core c := by rw [State.core, State.core, ht]
  have hthere : decide (cores + Config.dies ≤ c) = false := decide_eq_false (by omega)
  show onUnit (decide (cores + Config.dies ≤ c)) _ s = _
  rw [hthere]
  refine runOp_ok (run_bind_ok (get_run _) ?_)
  simp only [if_pos hc]
  refine run_bind_ok hk ?_
  rw [modCore_run, hcore, ht]
  rfl

/-- The scrubber of a die's stores, past the last granule that is listed, begins again (R422; log 59). -/
theorem exec_scrubGranule_die (hd : d < Config.dies)
    (hlast : (s.dstore.find? fun e => e.1 / 2 ^ 40 = d && (s.die d).scrub ≤ e.1 % 2 ^ 40) = none) :
    exec (.scrubGranule (cores + d)) s = .next { s with
      dies := tput {} s.dies d { s.die d with scrub := 0, passes := (s.die d).passes + 1 } } := by
  have hthere : decide (cores + Config.dies ≤ cores + d) = false := decide_eq_false (by omega)
  show onUnit (decide (cores + Config.dies ≤ cores + d)) _ s = _
  rw [hthere]
  refine runOp_ok (run_bind_ok (get_run _) ?_)
  simp only [if_neg (Nat.not_lt.2 (Nat.le_add_right cores d)), Nat.add_sub_cancel_left, hlast, modDie_run]

/-- Settles O46: ticks and floors, the sweep of one sector, the scrubbers of core stores and of die stores. -/
theorem clocksAndScrubbers : Obligations.ClocksAndScrubbers := by
  refine ⟨fun s => ⟨?due, ?early, ?floor⟩, ?ageing, ?store, ?die⟩
  case due =>
    intro ht
    rw [exec_logicalClockTick_due ht]
    exact leaves_of_run_eq (answers_lineEvents _) rfl
  case early => exact exec_logicalClockTick_early
  case floor =>
    intro m hf
    rw [exec_podFloor hf]
    exact leaves_of_run_eq (answers_takeFloor _) rfl
  case ageing =>
    intro s sec x hx hf
    exact ⟨exec_ageingSweep_below hx hf, exec_ageingSweep_above hx⟩
  case store =>
    intro s c hc
    exact ⟨fun hlive => exec_scrubGranule_core hc (scrubKey_live hlive) rfl,
      fun hdead => exec_scrubGranule_core hc (scrubKey_dead hdead) rfl⟩
  case die => exact fun s d hd hlast => exec_scrubGranule_die hd hlast

end Sys2Proof.Machine
end

section
/-! Pages and faults (09_tiles_leases.md R260 to R262; 15_isolation.md R409, R416 to R418; 17_host_fabric.md R462). -/

namespace Sys2Proof.Machine

variable {s t : State} {n va id die fn page size code : Nat} {v : W64} {acc : BitVec 3} {ok : Bool}

/-- An event of a unit that is there. -/
theorem onUnit_there {absent : Bool} {m : Op Unit} (h : absent = false) : onUnit absent m s = runOp m s := by rw [h]; rfl

theorem fnReady_run (hs : s.dev.state = 4) (hf : fn = pfn ∨ (s.fn fn).tdisp ≠ 3) : (fnReady fn).run s = .ok () s := by
  refine run_bind_ok (get_run _) (require_ok ?_)
  simpa [hs] using hf

/-! Walks (R416) -/

theorem tableWalk_there (hd : die < Config.dies) (hn : n < 1024) (hv : va < 2 ^ 56) :
    (Config.dies ≤ die || 1024 ≤ n || 2 ^ 56 ≤ va : Bool) = false := by
  rw [decide_eq_false (Nat.not_le.2 hd), decide_eq_false (Nat.not_le.2 hn), decide_eq_false (Nat.not_le.2 hv)]
  rfl

/-- A walk that gives a mapping, or finds the page on the move: nothing more happens. -/
theorem exec_tableWalk_answered {r : Xlate} (hd : die < Config.dies) (hn : n < 1024) (hv : va < 2 ^ 56)
    (hx : (xlate die none n va).run s = .ok r t) (hr : ∀ f, r ≠ .bad f) : exec (.tableWalk die n va acc) s = .next t := by
  refine (onUnit_there (tableWalk_there hd hn hv)).trans (runOp_ok (run_bind_ok hx ?_))
  cases r with
  | ok e => rfl
  | wait => rfl
  | bad f => exact absurd rfl (hr f)

/-- A walk that fails reports its fault, under a place that is free (R418; log 13). -/
theorem exec_tableWalk_fault {f : XFault} {x : Nat × Nat × Nat} {u : State} (hd : die < Config.dies) (hn : n < 1024) (hv : va < 2 ^ 56)
    (hx : (xlate die none n va).run s = .ok (.bad f) t)
    (hr : (reportFault n va f acc.toNat ((Config.freeWord t.freeCtr).toNat % 2 ^ 32)).run { t with freeCtr := t.freeCtr + 1 } = .ok x u) :
    exec (.tableWalk die n va acc) s = .next u :=
  (onUnit_there (tableWalk_there hd hn hv)).trans (runOp_ok (run_bind_ok hx (run_bind_ok (freeValue_run _) (run_bind_ok hr rfl))))

/-! Invalidations (R409, R417) -/

theorem queueInv_room (hcode : (invSize (bits v.toNat 11 8)).isSome = true)
    (hroom : ((s.fn fn).invals.filter fun i => i.1 = n).length < 64) : (queueInv fn n v).run s = .ok () { s with
      fns := tput {} s.fns fn { s.fn fn with invals := (s.fn fn).invals ++ [(n, v.toNat / 4096, bits v.toNat 11 8)] } } := by
  refine run_bind_ok (require_ok hcode) (run_bind_ok (get_run _) ?_)
  rw [if_pos hroom, modFn_run]

/-- The 65th invalidation of a tenant is dropped with LOST. -/
theorem queueInv_full (hcode : (invSize (bits v.toNat 11 8)).isSome = true)
    (hfull : 64 ≤ ((s.fn fn).invals.filter fun i => i.1 = n).length) : (queueInv fn n v).run s = .ok () { s with
      fns := tput {} s.fns n (if fn = pfn then { s.fn n with inv2Lost := true } else { s.fn n with invLost := true }) } := by
  refine run_bind_ok (require_ok hcode) (run_bind_ok (get_run _) ?_)
  rw [if_neg (Nat.not_lt.2 hfull), modFn_run]

theorem exec_tds2inv (hn : n < 1024) (hs : s.dev.state = 4) (hq : (queueInv pfn n v).run s = .ok () t) : exec (.tds2inv n v) s = .next t :=
  (onUnit_there (decide_eq_false (Nat.not_le.2 hn))).trans (runOp_ok (run_bind_ok (fnReady_run hs (.inl rfl)) hq))

theorem exec_tlbinv (hn : n < 1024) (hs : s.dev.state = 4) (ht : (s.fn n).tdisp ≠ 3) (hq : (queueInv n n v).run s = .ok () t) :
    exec (.tlbinv n v) s = .next t :=
  (onUnit_there (decide_eq_false (Nat.not_le.2 hn))).trans (runOp_ok (run_bind_ok (fnReady_run hs (.inr ht)) hq))

theorem exec_invalidationComplete {rest : List (Nat × Nat × Nat)} (hf : fn ≤ pfn) (hi : (s.fn fn).invals = (n, page, code) :: rest)
    (ha : accessThrough s (Tlb.matches (fn = pfn) n page code) = false) :
    exec (.invalidationComplete fn) s = .next { s with
      cores := s.cores.map fun e => (e.1, e.2.forget (Tlb.matches (fn = pfn) n page code))
      dies := s.dies.map fun e => (e.1, e.2.forget (Tlb.matches (fn = pfn) n page code))
      fns := tput {} s.fns fn { s.fn fn with invals := rest } } := by
  have hhead : (need (s.fn fn).invals.head?).run s = .ok (n, page, code) s := by rw [hi]; rfl
  have htail : (s.fn fn).invals.tail = rest := by rw [hi]; rfl
  have hdue : (!accessThrough s (Tlb.matches (fn = pfn) n page code)) = true := by rw [ha]; rfl
  refine (onUnit_there (decide_eq_false (Nat.not_lt.2 hf))).trans (runOp_ok (run_bind_ok (get_run _) (run_bind_ok hhead ?_)))
  refine run_bind_ok (require_ok hdue) (run_bind_ok (modify_run _ _) ?_)
  rw [modFn_run, ← htail]
  rfl

/-! Answers (R418, R462) -/

/-- The state in which a fault of a function is no longer unanswered. -/
def State.withoutFault (s : State) (fn id : Nat) : State :=
  { s with fns := tput {} s.fns fn { s.fn fn with faults := (s.fn fn).faults.filter fun x => x.id != id } }

theorem answerFault_run (hs : s.dev.state = 4) (hf : fn = pfn ∨ (s.fn fn).tdisp ≠ 3)
    (hx : ((s.fn fn).faults.any fun x => x.id = id) = true) :
    (answerFault fn id ok).run s = (answerAll fn id ok).run (s.withoutFault fn id) :=
  run_bind_ok (fnReady_run hs hf) (run_bind_ok (get_run _) (run_bind_ok (require_ok hx) (run_bind_ok (modFn_run _ _ _) rfl)))

theorem exec_fqresp (hf : fn ≤ pfn) : exec (if ok then .fqrespResolve fn id else .fqrespFail fn id) s = runOp (answerFault fn id ok) s := by
  have hthere : decide (pfn < fn) = false := decide_eq_false (Nat.not_lt.2 hf)
  cases ok with
  | true => exact onUnit_there hthere
  | false => exact onUnit_there hthere

theorem exec_fqctlHeadWrite {head : Nat} (hf : fn ≤ pfn) (hs : s.dev.state = 4) (hr : fn = pfn ∨ (s.fn fn).tdisp ≠ 3) :
    exec (.fqctlHeadWrite fn head) s =
      runOp (setFqctl fn (BitVec.ofNat 64 ((s.reg fn 0xD020 4).toNat % 32 + head % 2 ^ 32 * 2 ^ 32))) s :=
  (onUnit_there (decide_eq_false (Nat.not_lt.2 hf))).trans
    (runOp_of_run_eq (run_bind_ok (fnReady_run hs hr) (run_bind_ok (get_run _) rfl)))

/-- The state in which a page request has its response: its page is present where that succeeds (R462; log 28). -/
def State.responded (s : State) (x : Nat × Nat) (id : Nat) (ok : Bool) : State :=
  { s with dev := { s.dev with
      pri := s.dev.pri.filter fun y => y.1 != id
      absent := if ok then s.dev.absent.filter (· != x.2) else s.dev.absent } }

theorem exec_priResponse {x : Nat × Nat} (hx : (s.dev.pri.find? fun x => x.1 = id) = some x) :
    exec (.priResponse id ok) s = runOp (answerAll hostFn id ok) (s.responded x id ok) := by
  refine runOp_of_run_eq (run_bind_ok (get_run _) ?_)
  rw [hx]
  exact run_bind_ok (need_some_run _ _) (run_bind_ok (modDev_run _ _) rfl)

/-! The events together -/

/-- Settles O47, event by event. -/
theorem pagesAndFaults : Obligations.PagesAndFaults := by
  refine ⟨?reclassify, ?sync, ?walk, ?queue, ?done, ?answers, ?host⟩
  case reclassify =>
    intro s n va hm hb
    have hdue : (s.dev.moving.contains (n, va / 4096) && !pageBusy s n (va / 4096)) = true := by
      rw [List.contains_iff_mem.2 hm, hb]
      rfl
    exact gives_of_run_eq (run_bind_ok (get_run _) (run_bind_ok (require_ok hdue) rfl))
  case sync =>
    intro s id n page gk hs
    refine gives_of_run_eq (run_bind_ok (get_run _) ?_)
    rw [hs]
    rfl
  case walk =>
    intro s die n va acc hd hn hv
    obtain ⟨r, t, hx⟩ := answers_xlate die none n va s
    refine ⟨r, t, reply_of_run hx, exec_tableWalk_answered hd hn hv hx, fun f hr => ?_⟩
    subst hr
    obtain ⟨x, u, hreport⟩ := answers_reportFault n va f acc.toNat ((Config.freeWord t.freeCtr).toNat % 2 ^ 32)
      { t with freeCtr := t.freeCtr + 1 }
    exact ⟨x, u, reply_of_run hreport, exec_tableWalk_fault hd hn hv hx hreport⟩
  case queue =>
    intro s n v hn hs hcode
    refine ⟨⟨fun hroom => exec_tds2inv hn hs (queueInv_room hcode hroom), fun hfull => ?_⟩,
      fun ht => ⟨fun hroom => exec_tlbinv hn hs ht (queueInv_room hcode hroom), fun hfull => ?_⟩⟩
    · rw [exec_tds2inv hn hs (queueInv_full hcode hfull), if_pos rfl]
    · rw [exec_tlbinv hn hs ht (queueInv_full hcode hfull), if_neg (show n ≠ pfn from Nat.ne_of_lt hn)]
  case done => exact fun s f n page code rest hf hi ha => exec_invalidationComplete hf hi ha
  case answers =>
    intro s f id hf hs hr
    refine ⟨fun ok hx => ?_, fun head => ?_⟩
    · rw [exec_fqresp hf]
      exact leaves_of_run_eq (answers_answerAll _ _ _) (answerFault_run hs hr hx)
    · rw [exec_fqctlHeadWrite hf hs hr]
      exact gives_of_run_eq rfl
  case host =>
    intro s id page size ok x
    refine ⟨rfl, fun hx => ?_⟩
    rw [exec_priResponse hx]
    exact leaves_of_run_eq (answers_answerAll _ _ _) rfl

end Sys2Proof.Machine
end

section
/-! TQRY (10_memory_ops.md R288). -/

namespace Sys2Proof.Machine

/-- The flag of a snapshot, as TQRY writes it (R288). -/
theorem b2n_eq_ite (b : Bool) : b2n b = if b = true then 1 else 0 := by cases b <;> rfl

/-- Settles O20: the handle is opened, and the entry as it stands becomes the status. -/
theorem tileQuery : Obligations.TileQuery := by
  intro s u g h o me slice e r y
  dsimp only
  intro w hb hn
  refine runOp_told ((tileWord_run w hb hn).trans (run_bind_ok (get_run _) (run_bind_ok (agentOf_tileBegun hb hn) ?_))) (tileBegun_group w hb)
  simp only [tileBegun_home hb, b2n_eq_ite, Bool.or_eq_true, decide_eq_true_eq]

end Sys2Proof.Machine
end

section
/-! Atomics of local locations (10_memory_ops.md R280, R281; 08_ordering_model.md R209, R214). -/

namespace Sys2Proof.Machine

variable {s t : State} {c : LocalCtx} {sc : Scope} {n ev a lane old : Nat} {acq : Bool} {f : Nat → Nat}

/-- The read-modify-write of a local location: the store of the new value and, where it acquires, the raise of the core's clocks. -/
theorem rmwTgt_local_run : (rmwTgt c sc n ev acq f (.loc a lane)).run s = (do
    storeTgt c n (f (c.read s a n lane)) ev (.loc a lane)
    if acq then acquireCore (coreOfGrp c.gk)
    return c.read s a n lane : Op Nat).run s := by
  unfold rmwTgt
  simp only [Tgt.plain, Bool.and_true, bind_run, get_run, pure_run]
  cases (storeTgt c n (f (c.read s a n lane)) ev (.loc a lane)).run s <;> rfl

/-- One that does not acquire returns what the location held and leaves what the store of the new value leaves. -/
theorem rmwTgt_local_relaxed (h : reply (rmwTgt c sc n ev false f (.loc a lane)) s = some (old, t)) :
    old = c.read s a n lane ∧ s.leaves (storeTgt c n (f (c.read s a n lane)) ev (.loc a lane)) t := by
  have hrun := rmwTgt_local_run.symm.trans (reply_some h)
  obtain ⟨_, u, hstore, hrest⟩ := bind_run_ok hrun
  cases hrest
  exact ⟨rfl, leaves_of_run hstore⟩

/-- The header of a block with 4 KiB of scratchpad, its grid, and its only group. -/
def padHdr : Hdr := { fetchHdr with scratch := 1 }
def padGrid : Grid := { fetchGrid with hdr := some padHdr }
def padGroup : Group := launchGroup padGrid padHdr ((List.range 8).map (unitGranules 128 * ·)) { rw := 1, sp := 2 }

/-- The context of that group's accesses on core 0. -/
def padCtx : LocalCtx := ⟨0, padGroup, { grid := 0, blk := 0, clu := 0, pos := 0, base := 0, gsp := 2, gpool := 3, live := [0] }, padHdr⟩

/-- The group alone in a READY package in which the clock of core 1 is ahead of the others. -/
def aheadState : State :=
  { State.readyReset with
    groups := [(0, padGroup)], blocks := [(0, padCtx.b)], queues := [(0, { active := some padGrid })], cores := [(1, { lc := 7 })] }

/-- The scratchpad's first address. -/
def padAddr : Nat := 2 ^ 57

/-- The exchange of the scratchpad's first word for 5, with an acquire, raises core 0's clock to the package's largest. -/
theorem clock_after_exchange :
    (reply (rmwTgt padCtx .die 4 0 true (fun _ => 5) (.loc padAddr 0)) aheadState).map (fun r => (r.2.core 0).lc) = some 7 := by
  decide +kernel

/-- The store alone leaves that clock as it was. -/
theorem clock_after_store :
    (reply (storeTgt padCtx 4 5 0 (.loc padAddr 0)) aheadState).map (fun r => (r.2.core 0).lc) = some 0 := by
  decide +kernel

/-- Refutes O17: an exchange that acquires also raises the clocks of its core, which a store of the new value does not. The statement holds
of one that does not acquire (`rmwTgt_local_relaxed`). -/
theorem not_localAtomicReturnsOld : ¬ Obligations.LocalAtomicReturnsOld := by
  intro hall
  obtain ⟨⟨old, t⟩, hexchange, hraised⟩ := Option.map_eq_some_iff.1 clock_after_exchange
  obtain ⟨⟨_, u⟩, hstore, hkept⟩ := Option.map_eq_some_iff.1 clock_after_store
  obtain ⟨-, hleaves⟩ := hall aheadState t padCtx .die 4 0 true (fun _ => 5) padAddr 0 old hexchange
  cases hstore.symm.trans hleaves
  exact absurd (hkept.symm.trans hraised) (by decide)

end Sys2Proof.Machine
end

section
/-! The new values of integer atomics (10_memory_ops.md R280). -/

namespace Sys2Proof.Machine

variable {n : Nat}

/-- What an integer atomic stores, at the width of its form. -/
theorem intAtom_new (l r : Bool) (f : Nat → Nat → Nat → Nat) (m x y : Nat) :
    ((intAtom l r f).new m x y).1 = f (formWidth l) m x % 2 ^ formWidth l := by cases l <;> rfl

theorem atomMin_signed (m x : BitVec n) : atomMin false false n m.toNat x.toNat = (if m.slt x then m else x).toNat := by
  rw [BitVec.slt_eq_decide, ← sext_toNat m, ← sext_toNat x, atomMin]
  cases decide (sext m.toNat n < sext x.toNat n) <;> rfl

theorem atomMax_signed (m x : BitVec n) : atomMin false true n m.toNat x.toNat = (if m.slt x then x else m).toNat := by
  rw [BitVec.slt_eq_decide, ← sext_toNat m, ← sext_toNat x, atomMin]
  cases decide (sext m.toNat n < sext x.toNat n) <;> rfl

theorem atomMin_unsigned (m x : BitVec n) : atomMin true false n m.toNat x.toNat = (if m.ult x then m else x).toNat := by
  rw [BitVec.ult_eq_decide, atomMin]
  cases decide (m.toNat < x.toNat) <;> rfl

theorem atomMax_unsigned (m x : BitVec n) : atomMin true true n m.toNat x.toNat = (if m.ult x then x else m).toNat := by
  rw [BitVec.ult_eq_decide, atomMin]
  cases decide (m.toNat < x.toNat) <;> rfl

theorem atomInc_mod (m x : BitVec n) : atomInc m.toNat x.toNat % 2 ^ n = (if x.ule m then 0 else m + 1).toNat := by
  simp only [atomInc, BitVec.ule_iff_toNat_le]
  split
  · exact Nat.zero_mod _
  · simp

/-- Settles O16: each integer form's value on patterns of its width. -/
theorem atomicNewValues : Obligations.AtomicNewValues := by
  unfold Obligations.AtomicNewValues
  intro law
  have hlaw (l : Bool) : law l (formWidth l) := by
    intro r m x y
    have hpattern (p : BitVec (formWidth l)) : p.toNat % 2 ^ formWidth l = p.toNat := Nat.mod_eq_of_lt p.isLt
    have hnew (f : Nat → Nat → Nat → Nat) (p : BitVec (formWidth l)) (hf : f (formWidth l) m.toNat x.toNat = p.toNat) :
        ((intAtom l r f).new m.toNat x.toNat y.toNat).1 = p.toNat := by
      rw [intAtom_new, hf, hpattern]
    refine ⟨?_, hnew _ _ (atomMin_signed m x), hnew _ _ (atomMax_signed m x), hnew _ _ (atomMin_unsigned m x), hnew _ _ (atomMax_unsigned m x),
      hnew _ (m &&& x) rfl, hnew _ (m ||| x) rfl, hnew _ (m ^^^ x) rfl, ?_, rfl, fun _ => ?_⟩
    · exact hnew _ _ (BitVec.toNat_add m x).symm
    · exact (intAtom_new ..).trans (atomInc_mod m x)
    · show (if m.toNat = x.toNat then y.toNat else m.toNat) = _
      simp only [BitVec.toNat_inj, apply_ite BitVec.toNat]
  exact ⟨hlaw false, hlaw true⟩

end Sys2Proof.Machine
end

section
/-! Operations that always end and leave every resident group resident: a group writes the results of its lanes after their accesses, which may
wake others (10_memory_ops.md R272, R279, R281). -/

namespace Sys2Proof.Machine

variable {α β : Type} {s t : State} {m : Op α} {gk : Nat}

/-- Every group resident in `s` is resident in `t`. -/
def State.residentIn (s t : State) : Prop := ∀ gk, (tlook gk s.groups).isSome = true → (tlook gk t.groups).isSome = true

/-- The operation answers from every state, and leaves no group out. -/
def Proceeds (m : Op α) : Prop := ∀ s, ∃ a t, m.run s = .ok a t ∧ s.residentIn t

theorem Proceeds.answers (h : Proceeds m) : Answers m := fun s => by
  obtain ⟨a, t, hrun, -⟩ := h s
  exact ⟨a, t, hrun⟩

/-- Where a group is resident, the operation answers and the group still is. -/
theorem Proceeds.run {g : Group} (h : Proceeds m) (hg : tlook gk s.groups = some g) :
    ∃ a t g', m.run s = .ok a t ∧ tlook gk t.groups = some g' := by
  obtain ⟨a, t, hrun, hres⟩ := h s
  obtain ⟨g', hg'⟩ := Option.isSome_iff_exists.1 (hres gk (by rw [hg]; rfl))
  exact ⟨a, t, g', hrun, hg'⟩

theorem residentIn_of_groups (h : t.groups = s.groups) : s.residentIn t := fun _ hs => h ▸ hs

theorem residentIn_setGroup (gk : Nat) (g : Group) : s.residentIn (s.setGroup gk g) := fun k hk => by
  by_cases h : k = gk
  · subst h
    rw [setGroup_same]
    rfl
  · exact (congrArg Option.isSome (tlook_tset_other h g s.groups)).trans hk

theorem proceeds_pure (a : α) : Proceeds (pure a : Op α) := fun s => ⟨a, s, rfl, residentIn_of_groups rfl⟩

theorem proceeds_get : Proceeds (get : Op State) := fun s => ⟨s, s, rfl, residentIn_of_groups rfl⟩

theorem proceeds_modify {f : State → State} (h : ∀ s, (f s).groups = s.groups) : Proceeds (modify f : Op PUnit) :=
  fun s => ⟨(), f s, rfl, residentIn_of_groups (h s)⟩

theorem proceeds_bind {f : α → Op β} (hm : Proceeds m) (hf : ∀ a, Proceeds (f a)) : Proceeds (m >>= f) := fun s => by
  obtain ⟨a, t, hrun, ht⟩ := hm s
  obtain ⟨b, u, hrest, hu⟩ := hf a t
  exact ⟨b, u, run_bind_ok hrun hrest, fun gk hs => hu gk (ht gk hs)⟩

theorem proceeds_ite {p : Prop} [Decidable p] {m n : Op α} (hm : Proceeds m) (hn : Proceeds n) : Proceeds (if p then m else n) := by
  split
  · exact hm
  · exact hn

/-- Something done under a condition, and then the rest. -/
theorem proceeds_when {p : Prop} [Decidable p] {m : Op PUnit} {rest : PUnit → Op α} (hm : Proceeds m) (hr : ∀ a, Proceeds (rest a)) :
    Proceeds (if p then m >>= rest else rest ()) := proceeds_ite (proceeds_bind hm hr) (hr _)

theorem proceeds_forM {f : α → Op PUnit} (h : ∀ a, Proceeds (f a)) (l : List α) : Proceeds (l.forM f) := by
  induction l with
  | nil => exact proceeds_pure _
  | cons a l ih => exact proceeds_bind (h a) fun _ => ih

theorem proceeds_modCore (c : Nat) (f : Core → Core) : Proceeds (modCore c f) := proceeds_modify fun _ => rfl
theorem proceeds_modQuad (q : Nat) (f : Quad → Quad) : Proceeds (modQuad q f) := proceeds_modify fun _ => rfl
theorem proceeds_modHome (k : Nat) (f : Home → Home) : Proceeds (modHome k f) := proceeds_modify fun _ => rfl
theorem proceeds_putMem (n a x : Nat) : Proceeds (putMem n a x) := proceeds_modify fun _ => rfl

theorem proceeds_putGroup (gk : Nat) (g : Group) : Proceeds (putGroup gk g) := fun s => ⟨(), _, putGroup_run gk g s, residentIn_setGroup gk g⟩

theorem proceeds_modGroup (gk : Nat) (f : Group → Group) : Proceeds (modGroup gk f) := by
  refine proceeds_bind proceeds_get fun s => ?_
  split
  · exact proceeds_putGroup _ _
  · exact proceeds_pure _

theorem proceeds_modBlock (bk : Nat) (f : Block → Block) : Proceeds (modBlock bk f) := by
  refine proceeds_bind proceeds_get fun s => ?_
  split
  · exact proceeds_modify fun _ => rfl
  · exact proceeds_pure _

/-! Wakes (12_groups_progress.md R339, R340; 16_recovery.md R435) -/

theorem proceeds_flushChain (gk : Nat) (ch : Chain) : Proceeds (flushChain gk ch) :=
  proceeds_bind proceeds_get fun _ => proceeds_bind proceeds_get fun _ => proceeds_bind (proceeds_modify fun _ => rfl) fun _ => proceeds_pure _

theorem proceeds_trapChain (gk : Nat) : Proceeds (trapChain gk) := by
  refine proceeds_bind proceeds_get fun s => ?_
  split
  · exact proceeds_pure _
  · exact proceeds_bind (proceeds_modGroup _ _) fun _ =>
      proceeds_ite (proceeds_modGroup _ _) (proceeds_bind (proceeds_flushChain _ _) fun _ => proceeds_pure _)

theorem proceeds_enterHandler (gk : Nat) (entry : W64) (x : TrapInfo) (l : List Recorded) : Proceeds (enterHandler gk entry x l) :=
  proceeds_bind proceeds_get fun _ => proceeds_modGroup _ _

theorem proceeds_tryEnter (gk : Nat) : Proceeds (tryEnter gk) := by
  refine proceeds_bind proceeds_get fun s => ?_
  dsimp only
  split
  · split
    · refine proceeds_ite (proceeds_bind (proceeds_trapChain _) fun _ => proceeds_bind proceeds_get fun _ => ?_) (proceeds_pure _)
      exact proceeds_ite (proceeds_enterHandler _ _ _ _) (proceeds_pure _)
    · exact proceeds_pure _
  · exact proceeds_pure _

theorem ungated_key (c : Nat) (v : W64) (till : Nat) (e : Nat × Group) : (ungated c v till e).1 = e.1 := by
  unfold ungated
  split <;> rfl

theorem proceeds_coreWakes (c cause grp : Nat) : Proceeds (coreWakes c cause grp) := by
  have hmap (v : W64) (till : Nat) : Proceeds (modify fun s => { s with groups := s.groups.map (ungated c v till) } : Op PUnit) :=
    fun s => ⟨(), _, rfl, fun gk hs => by rw [tlook_map (ungated_key c v till), Option.isSome_map, hs]⟩
  exact proceeds_bind proceeds_get fun s => proceeds_ite (proceeds_bind (proceeds_modCore _ _) fun _ => hmap _ _) (proceeds_modCore _ _)

theorem proceeds_wake (gk cause : Nat) : Proceeds (wake gk cause) := by
  refine proceeds_bind proceeds_get fun s => ?_
  split
  · exact proceeds_pure _
  split
  · exact proceeds_pure _
  refine proceeds_bind (proceeds_putGroup _ _) fun _ => ?_
  cases tlook (blkOfGrp gk) s.blocks with
  | some b =>
    exact proceeds_bind (proceeds_modify fun _ => rfl) fun _ => proceeds_bind (proceeds_coreWakes _ _ _) fun _ =>
      proceeds_ite (proceeds_tryEnter _) (proceeds_pure _)
  | none => exact proceeds_bind (proceeds_coreWakes _ _ _) fun _ => proceeds_ite (proceeds_tryEnter _) (proceeds_pure _)

theorem proceeds_endWait (gk result cause : Nat) : Proceeds (endWait gk result cause) := by
  refine proceeds_bind proceeds_get fun s => ?_
  split
  · split
    · exact proceeds_bind (proceeds_putGroup _ _) fun _ => proceeds_wake _ _
    · exact proceeds_pure _
  · exact proceeds_pure _

theorem proceeds_lineEvents (p : Nat → Wait → Bool) : Proceeds (lineEvents p) := by
  refine proceeds_bind proceeds_get fun s => proceeds_forM (fun e => ?_) _
  dsimp only
  split
  · split
    · exact proceeds_ite (proceeds_endWait _ _ _) (proceeds_pure _)
    · exact proceeds_pure _
  · exact proceeds_pure _

end Sys2Proof.Machine
end

section
/-! Copies and clocks leave every group where it is (09_tiles_leases.md R254 to R259; 10_memory_ops.md R274). -/

namespace Sys2Proof.Machine

/-! Clocks -/

theorem proceeds_raiseLc (c t : Nat) : Proceeds (raiseLc c t) := proceeds_bind proceeds_get fun _ => proceeds_modCore _ _

theorem proceeds_raiseQc (q t : Nat) : Proceeds (raiseQc q t) := proceeds_bind proceeds_get fun _ => proceeds_modQuad _ _

theorem proceeds_raiseHc (h t : Nat) : Proceeds (raiseHc h t) := proceeds_bind proceeds_get fun _ => proceeds_modHome _ _

theorem proceeds_raiseAt (p : Pt) (t : Nat) : Proceeds (raiseAt p t) := by
  cases p with
  | l1 c => exact proceeds_raiseLc c t
  | quad q => exact proceeds_raiseQc q t
  | l2 d => exact proceeds_pure _

theorem proceeds_acquireAt (core w : Nat) : Proceeds (acquireAt core w) := proceeds_bind (proceeds_raiseLc _ _) fun _ => proceeds_raiseQc _ _

theorem proceeds_acquireCore (core : Nat) : Proceeds (acquireCore core) := proceeds_bind proceeds_get fun _ => proceeds_acquireAt _ _

theorem proceeds_atHome (h : Nat) : Proceeds (atHome h) := proceeds_bind proceeds_get fun _ => proceeds_modHome _ _

theorem proceeds_homeReply (p : Pt) (h : Nat) : Proceeds (homeReply p h) := proceeds_bind proceeds_get fun _ => proceeds_raiseAt _ _

theorem proceeds_noteSeen (core w : Nat) : Proceeds (noteSeen core w) := proceeds_bind proceeds_get fun _ => proceeds_modCore _ _

/-! Copies and the room for them -/

theorem proceeds_putCopy (p : Pt) (sec : Nat) (x : Copy) : Proceeds (putCopy p sec x) := by
  cases p with
  | l1 c => exact proceeds_modify fun _ => rfl
  | quad q => exact proceeds_modify fun _ => rfl
  | l2 d => exact proceeds_modify fun _ => rfl

theorem proceeds_dropCopy (p : Pt) (sec : Nat) : Proceeds (dropCopy p sec) := by
  cases p with
  | l1 c => exact proceeds_modify fun _ => rfl
  | quad q => exact proceeds_modify fun _ => rfl
  | l2 d => exact proceeds_modify fun _ => rfl

theorem proceeds_touch (p : Pt) (sec lvl : Nat) : Proceeds (touch p sec lvl) := by
  have hsector (v k : Nat) : Proceeds (do
      match copyAt (← get) p k with
      | some x => if x.evp = v then pure () else putCopy p k { x with evp := v }
      | none => pure () : Op Unit) := by
    refine proceeds_bind proceeds_get fun s => ?_
    split
    · exact proceeds_ite (proceeds_pure _) (proceeds_putCopy _ _ _)
    · exact proceeds_pure _
  exact proceeds_bind proceeds_get fun _ => proceeds_bind (hsector _ _) fun _ => hsector _ _

theorem proceeds_mergeDirty (sec : Nat) (x : Copy) (up : Option Pt) : Proceeds (mergeDirty sec x up) := by
  refine proceeds_bind proceeds_get fun s => ?_
  cases up with
  | some p => exact proceeds_ite (proceeds_putCopy _ _ _) (proceeds_pure _)
  | none => exact proceeds_forM (fun _ => proceeds_putMem _ _ _) _

theorem proceeds_writeBack (p : Pt) (sec : Nat) (up : Option Pt) : Proceeds (writeBack p sec up) := by
  refine proceeds_bind proceeds_get fun s => ?_
  split
  · exact proceeds_ite (proceeds_bind (proceeds_mergeDirty _ _ _) fun _ => proceeds_putCopy _ _ _) (proceeds_pure _)
  · exact proceeds_pure _

theorem proceeds_evict (p : Pt) (sec : Nat) : Proceeds (evict p sec) := by
  cases p with
  | l1 c => exact proceeds_bind proceeds_get fun _ => proceeds_bind (proceeds_writeBack _ _ _) fun _ => proceeds_dropCopy _ _
  | quad q => exact proceeds_bind (proceeds_writeBack _ _ _) fun _ => proceeds_dropCopy _ _
  | l2 d => exact proceeds_bind (proceeds_writeBack _ _ _) fun _ => proceeds_dropCopy _ _

theorem proceeds_makeRoom (p : Pt) (sec : Nat) : Proceeds (makeRoom p sec) := by
  refine proceeds_bind proceeds_get fun s => ?_
  dsimp only
  split
  · refine proceeds_ite ?_ (proceeds_pure _)
    split
    · exact proceeds_bind (proceeds_evict _ _) fun _ => proceeds_evict _ _
    · exact proceeds_pure _
  · exact proceeds_pure _

/-! Fills -/

theorem proceeds_quadYields (core : Nat) (r : VRef) (w : Nat) : Proceeds (quadYields core r w) := by
  refine proceeds_bind proceeds_get fun s => ?_
  split
  · exact proceeds_ite (proceeds_dropCopy _ _) (proceeds_pure _)
  · exact proceeds_pure _

/-- A copy that comes to a point, the priority that its line takes there, and then the rest. -/
theorem proceeds_settleCopy {α : Type} (p : Pt) (sec lvl : Nat) (x : Copy) {m : Op α} (hm : Proceeds m) : Proceeds (do
    putCopy p sec x
    touch p sec lvl
    m) := proceeds_bind (proceeds_putCopy _ _ _) fun _ => proceeds_bind (proceeds_touch _ _ _) fun _ => hm

theorem proceeds_leaseFill (p : Pt) (r : VRef) (evp : Nat) : Proceeds (leaseFill p r evp) := by
  refine proceeds_bind (proceeds_makeRoom _ _) fun _ => proceeds_bind proceeds_get fun s => proceeds_bind (proceeds_atHome _) fun _ =>
    proceeds_bind (proceeds_modify fun _ => rfl) fun _ => proceeds_bind (proceeds_raiseHc _ _) fun _ => ?_
  refine proceeds_bind ?_ fun _ => proceeds_settleCopy _ _ _ _ (proceeds_pure _)
  split
  · exact proceeds_ite (proceeds_bind (proceeds_modHome _ _) fun _ => proceeds_pure _) (proceeds_pure _)
  · exact proceeds_pure _

theorem proceeds_plainFill (p : Pt) (die : Nat) (r : VRef) (evp : Nat) : Proceeds (plainFill p die r evp) := by
  refine proceeds_bind proceeds_get fun s => ?_
  split
  · exact proceeds_bind (proceeds_touch _ _ _) fun _ => proceeds_pure _
  · have hend (x : Copy) : Proceeds (do
        if p != .l2 die || !r.e.l2 then
          makeRoom p r.sec
          putCopy p r.sec x
          touch p r.sec evp
        return x) :=
      proceeds_ite (proceeds_bind (proceeds_makeRoom _ _) fun _ => proceeds_settleCopy _ _ _ _ (proceeds_pure _)) (proceeds_pure _)
    dsimp only
    split
    · exact proceeds_ite (proceeds_bind (proceeds_makeRoom _ _) fun _ => proceeds_settleCopy _ _ _ _ (hend _))
        (proceeds_bind (proceeds_touch _ _ _) fun _ => hend _)
    · exact hend _

end Sys2Proof.Machine
end

section
/-! Stores and read-modify-writes always answer (08_ordering_model.md R208, R219, R220; 09_tiles_leases.md R244, R255, R258). -/

namespace Sys2Proof.Machine

variable {α : Type}

/-! Writes at the home -/

theorem proceeds_staleLines (core pa n : Nat) : Proceeds (staleLines core pa n) :=
  proceeds_bind proceeds_get fun _ => proceeds_ite (proceeds_pure _) (proceeds_modCore _ _)

theorem proceeds_saveSector (r : VRef) (n : Nat) : Proceeds (saveSector r n) :=
  proceeds_ite (proceeds_bind proceeds_get fun _ => proceeds_modHome _ _) (proceeds_pure _)

theorem proceeds_homeWrite (r : VRef) (n x clock : Nat) : Proceeds (homeWrite r n x clock) := by
  refine proceeds_bind proceeds_get fun s => proceeds_bind (proceeds_putMem _ _ _) fun _ => proceeds_bind (proceeds_modify fun _ => rfl) fun _ => ?_
  refine proceeds_ite ?_ (proceeds_pure _)
  exact proceeds_bind (proceeds_atHome _) fun _ => proceeds_bind (proceeds_modify fun _ => rfl) fun _ =>
    proceeds_bind (proceeds_raiseHc _ _) fun _ => proceeds_pure _

theorem proceeds_refresh (p : Pt) (r : VRef) (w : Nat) : Proceeds (refresh p r w) := by
  refine proceeds_bind proceeds_get fun s => ?_
  split
  · exact proceeds_ite (proceeds_pure _) (proceeds_putCopy _ _ _)
  · exact proceeds_pure _

theorem proceeds_written (core : Nat) (r : VRef) (w : Nat) : Proceeds (written core r w) := by
  refine proceeds_ite (proceeds_bind proceeds_get fun _ => ?_) (proceeds_pure _)
  exact proceeds_bind (proceeds_raiseLc _ _) fun _ => proceeds_bind (proceeds_homeReply _ _) fun _ =>
    proceeds_bind (proceeds_refresh _ _ _) fun _ => proceeds_quadYields _ _ _

theorem proceeds_dirtyWrite (p : Pt) (die : Nat) (r : VRef) (n x evp : Nat) : Proceeds (dirtyWrite p die r n x evp) :=
  proceeds_bind (proceeds_plainFill _ _ _ _) fun _ => proceeds_putCopy _ _ _

theorem proceeds_storeAt (core : Nat) (r : VRef) (n x evict : Nat) : Proceeds (storeAt core r n x evict) := by
  refine proceeds_bind proceeds_get fun s => proceeds_bind (proceeds_staleLines _ _ _) fun _ =>
    proceeds_ite (proceeds_dirtyWrite _ _ _ _ _ _) ?_
  exact proceeds_bind (proceeds_saveSector _ _) fun _ => proceeds_bind (proceeds_homeWrite _ _ _ _) fun _ => proceeds_written _ _ _

/-! Read-modify-writes -/

/-- A copy that is written back and dropped. -/
theorem proceeds_giveBack (p : Pt) (sec : Nat) (up : Option Pt) {m : Op α} (hm : Proceeds m) : Proceeds (do
    writeBack p sec up
    dropCopy p sec
    m) := proceeds_bind (proceeds_writeBack _ _ _) fun _ => proceeds_bind (proceeds_dropCopy _ _) fun _ => hm

theorem proceeds_bringUp (core : Nat) (r : VRef) (p : Option Pt) : Proceeds (bringUp core r p) := by
  have hbeyond : Proceeds (if p != some (.quad (quadOfCore core)) then do
      writeBack (.quad (quadOfCore core)) r.sec (upOf (dieOfCore core) r)
      dropCopy (.quad (quadOfCore core)) r.sec
      if p = none then
        writeBack (.l2 (dieOfCore core)) r.sec none
        dropCopy (.l2 (dieOfCore core)) r.sec
    else pure () : Op Unit) :=
    proceeds_ite (proceeds_giveBack _ _ _ (proceeds_ite (proceeds_bind (proceeds_writeBack _ _ _) fun _ => proceeds_dropCopy _ _)
      (proceeds_pure _))) (proceeds_pure _)
  refine proceeds_ite (proceeds_bind proceeds_get fun s => ?_) (proceeds_pure _)
  cases copyAt s (.l1 core) r.sec with
  | some x =>
    refine proceeds_bind proceeds_get fun t => ?_
    dsimp only
    split
    · exact proceeds_bind (proceeds_mergeDirty _ _ _) fun _ => proceeds_giveBack _ _ _ hbeyond
    · exact proceeds_giveBack _ _ _ hbeyond
  | none => exact hbeyond

theorem proceeds_rmwAt (core : Nat) (r : VRef) (whos : List Agent) (sc : Scope) (n evict : Nat) (f : Nat → Nat) :
    Proceeds (rmwAt core r whos sc n evict f) := by
  refine proceeds_bind proceeds_get fun s => proceeds_bind (proceeds_staleLines _ _ _) fun _ => ?_
  dsimp only
  split
  · split
    · refine proceeds_bind (proceeds_bringUp _ _ _) fun _ => proceeds_bind (proceeds_plainFill _ _ _ _) fun c =>
        proceeds_bind (proceeds_dirtyWrite _ _ _ _ _ _) fun _ => ?_
      exact proceeds_when (proceeds_writeBack _ _ _) fun _ => proceeds_pure _
    · refine proceeds_bind ?copy fun c => proceeds_bind (proceeds_saveSector _ _) fun _ => proceeds_bind proceeds_get fun _ =>
        proceeds_bind (proceeds_homeWrite _ _ _ _) fun w => proceeds_bind (proceeds_raiseAt _ _) fun _ =>
        proceeds_bind (proceeds_homeReply _ _) fun _ => proceeds_bind (proceeds_refresh _ _ _) fun _ => proceeds_bind ?own fun _ =>
        proceeds_bind (proceeds_noteSeen _ _) fun _ => proceeds_pure _
      case copy =>
        split
        · exact proceeds_bind (proceeds_touch _ _ _) fun _ => proceeds_pure _
        · exact proceeds_bind (proceeds_leaseFill _ _ _) fun _ => proceeds_bind (proceeds_homeReply _ _) fun _ => proceeds_pure _
      case own =>
        split
        · exact proceeds_quadYields _ _ _
        · exact proceeds_refresh _ _ _
  · refine proceeds_when (proceeds_bringUp _ _ _) fun _ => proceeds_bind proceeds_get fun s => ?_
    exact proceeds_bind (proceeds_saveSector _ _) fun _ => proceeds_bind (proceeds_homeWrite _ _ _ _) fun _ =>
      proceeds_bind (proceeds_written _ _ _) fun _ => proceeds_pure _

end Sys2Proof.Machine
end

section
/-! Loads, stores and read-modify-writes of lanes always answer (10_memory_ops.md R272, R280, R281). -/

namespace Sys2Proof.Machine

/-! Local spaces -/

theorem proceeds_unlatch (k : Nat) : Proceeds (unlatch k) := proceeds_bind proceeds_get fun _ => proceeds_ite (proceeds_modCore _ _) (proceeds_pure _)

theorem proceeds_writeLoc (n x : Nat) (l : Loc) : Proceeds (writeLoc n x l) := by
  cases l with
  | gran die k byte gen trap =>
    refine proceeds_when (proceeds_unlatch _) fun _ => proceeds_modify fun s => ?_
    cases die <;> rfl
  | ctl gk w byte =>
    refine proceeds_ite (proceeds_pure _) (proceeds_bind proceeds_get fun s => ?_)
    split
    · exact proceeds_putGroup _ _
    · exact proceeds_modBlock _ _

theorem proceeds_write (c : LocalCtx) (a n lane x : Nat) : Proceeds (c.write a n lane x) := by
  refine proceeds_bind proceeds_get fun s => proceeds_forM (fun p => ?_) _
  dsimp only
  split
  · exact proceeds_writeLoc _ _ _
  · exact proceeds_pure _

/-! Lanes -/

theorem proceeds_storeTgt (c : LocalCtx) (n x evict : Nat) (t : Tgt) : Proceeds (storeTgt c n x evict t) := by
  cases t with
  | loc a lane =>
    refine proceeds_bind (proceeds_write _ _ _ _ _) fun _ => proceeds_bind proceeds_get fun s => ?_
    split
    · exact proceeds_lineEvents _
    · exact proceeds_pure _
  | virt r => exact proceeds_bind (proceeds_storeAt _ _ _ _ _) fun _ => proceeds_lineEvents _

theorem proceeds_rmwTgt (c : LocalCtx) (sc : Scope) (n evict : Nat) (acq : Bool) (f : Nat → Nat) (t : Tgt) :
    Proceeds (rmwTgt c sc n evict acq f t) := by
  have hend (m : Nat) : Proceeds (do
      if acq && t.plain then acquireCore (coreOfGrp c.gk)
      return m : Op Nat) := proceeds_when (proceeds_acquireCore _) fun _ => proceeds_pure _
  refine proceeds_bind ?_ hend
  cases t with
  | loc a lane => exact proceeds_bind proceeds_get fun _ => proceeds_bind (proceeds_storeTgt _ _ _ _ _) fun _ => proceeds_pure _
  | virt r =>
    refine proceeds_bind proceeds_get fun _ => proceeds_bind (proceeds_rmwAt _ _ _ _ _ _ _) fun x => proceeds_bind (proceeds_noteSeen _ _) fun _ => ?_
    exact proceeds_when (proceeds_acquireAt _ _) fun _ => proceeds_bind (proceeds_lineEvents _) fun _ => proceeds_pure _

theorem proceeds_loadAt (core : Nat) (r : VRef) (whos : List Agent) (n evict : Nat) : Proceeds (loadAt core r whos n evict) := by
  refine proceeds_bind proceeds_get fun s => ?_
  dsimp only
  split
  · exact proceeds_pure _
  split
  · split
    · exact proceeds_bind (proceeds_plainFill _ _ _ _) fun _ => proceeds_pure _
    split
    · exact proceeds_bind (proceeds_plainFill _ _ _ _) fun _ => proceeds_pure _
    · exact proceeds_pure _
  split
  · exact proceeds_bind (proceeds_atHome _) fun _ => proceeds_bind (proceeds_quadYields _ _ _) fun _ => proceeds_pure _
  split
  · exact proceeds_bind (proceeds_touch _ _ _) fun _ => proceeds_pure _
  · exact proceeds_bind (proceeds_leaseFill _ _ _) fun _ => proceeds_bind (proceeds_quadYields _ _ _) fun _ => proceeds_pure _

theorem proceeds_loadTgt (c : LocalCtx) (n evict : Nat) (t : Tgt) : Proceeds (loadTgt c n evict t) := by
  cases t with
  | loc a lane => exact proceeds_bind proceeds_get fun _ => proceeds_pure _
  | virt r => exact proceeds_bind proceeds_get fun _ => proceeds_loadAt _ _ _ _ _

theorem proceeds_loadValues (c : LocalCtx) (n evict : Nat) (ts : List Tgt) (memo : Tab Got) : Proceeds (loadValues c n evict ts memo) := by
  induction ts generalizing memo with
  | nil => exact proceeds_pure _
  | cons t ts ih =>
    cases t with
    | loc a lane => exact proceeds_bind (proceeds_loadTgt _ _ _ _) fun _ => proceeds_bind (ih _) fun _ => proceeds_pure _
    | virt r =>
      rw [loadValues]
      split
      · exact proceeds_bind (ih _) fun _ => proceeds_pure _
      · exact proceeds_bind (proceeds_loadTgt _ _ _ _) fun _ => proceeds_bind (ih _) fun _ => proceeds_pure _

theorem proceeds_loadsDone (core : Nat) (acq : Bool) (gs : List (VRef × Got)) : Proceeds (loadsDone core acq gs) := by
  refine proceeds_forM (fun x => ?_) _
  have hend : Proceeds (do
      match x.2.home with
      | some h => homeReply (.l1 core) h
      | none => pure ()) := by
    split
    · exact proceeds_homeReply _ _
    · exact proceeds_pure _
  exact proceeds_ite (proceeds_bind (proceeds_noteSeen _ _) fun _ => proceeds_when (proceeds_acquireAt _ _) fun _ => hend) hend

theorem proceeds_loadAll (c : LocalCtx) (n evict : Nat) (acq : Bool) (ts : List Tgt) : Proceeds (loadAll c n evict acq ts) :=
  proceeds_bind (proceeds_loadValues _ _ _ _ _) fun _ => proceeds_bind (proceeds_loadsDone _ _ _) fun _ =>
    proceeds_when (proceeds_acquireCore _) fun _ => proceeds_pure _

end Sys2Proof.Machine
end

section
/-! Words that load, store and combine (02_words.md R62 to R65; 10_memory_ops.md R267 to R273, R280 to R282). -/

namespace Sys2Proof.Machine

variable {s r u : State} {i : Instr} {g : Group} {h : Hdr} {sh : MShape} {n : Need} {sx : Bool} {a : Atom} {o : MWord} {v : MVals} {c : LocalCtx}
variable {ts : List Tgt} {now : MVals → Op Unit}

/-! The word -/

/-- A memory word: its operands read, it is kept outstanding or performed (R62, R267). -/
def memWord (i : Instr) (sh : MShape) (o : MWord) (now : MVals → Op Unit) : Op Unit := do
  let (m, v) ← memStart i sh o
  performOr i o m v.list (now v)

theorem exec_loadForm (hf : loadForm i = some (sh, n, sx, o)) : exec i s = runOp (memWord i sh o (doLoad n sx o)) s := by
  unfold loadForm at hf
  split at hf <;> cases hf <;> rfl

theorem exec_storeForm (hf : storeForm i = some (sh, n, o)) : exec i s = runOp (memWord i sh o (doStore n o)) s := by
  unfold storeForm at hf
  split at hf <;> cases hf <;> rfl

theorem exec_atomOf (hf : atomOf i = some (a, o)) : exec i s = runOp (memWord i (atomShape a) o (doAtom a o)) s := by
  unfold atomOf at hf
  split at hf <;> cases hf <;> rfl

/-- A memory word that goes on and waits is kept outstanding. -/
theorem memWord_waits (hm : MemGoes s i g h sh o) (hx : exec i s = runOp (memWord i sh o now) s) (hw : memWaits s g i o (memOperands s g sh o)) :
    staysOut s g i o (memOperands s g sh o) :=
  hx.trans (runOp_ok (run_bind_ok (memStart_run hm) ((performOr_run hm.issues _).1 hw)))

/-- One that does not wait is performed. -/
theorem exec_memWord (hm : MemGoes s i g h sh o) (hx : exec i s = runOp (memWord i sh o now) s) (hw : ¬memWaits s g i o (memOperands s g sh o)) :
    exec i s = runOp (now (memOperands s g sh o)) (s.begun i g) :=
  hx.trans (runOp_of_run_eq (run_bind_ok (memStart_run hm) ((performOr_run hm.issues _).2 hw)))

/-! What performs it -/

theorem gives_runOp (m : Op Unit) (u : State) : u.gives m (runOp m u) := gives_of_run_eq rfl

theorem find?_tgtBad {z : Nat} (hgood : ∀ t ∈ ts, tgtBad c u z t = false) : ts.find? (tgtBad c u z) = none :=
  List.find?_eq_none.2 fun t ht => Bool.eq_false_iff.1 (hgood t ht)

/-- A load whose lanes pass their checks, and meet no uncorrectable word. -/
theorem doLoad_run (hp : passes s c n v.pairs ts u) (hgood : ∀ t ∈ ts, tgtBad c u n.size t = false) :
    ∃ xs w, reply (loadAll c n.size o.evict.toNat (acquires o.ord) ts) u = some (xs, w) ∧ (doLoad n sx o v).run s =
      .ok () ((v.lanes.zip xs).foldl (fun t r => t.putData c.gk n.size sx o.data r) w) := by
  obtain ⟨hlanes, hctx⟩ := passes_run hp
  obtain ⟨-, hgk, -⟩ := localCtx_fix hctx
  obtain ⟨xs, w, g', hload, hg'⟩ := (proceeds_loadAll c n.size o.evict.toNat (acquires o.ord) ts).run (localCtx_group (hgk ▸ hctx))
  refine ⟨xs, w, reply_of_run hload, run_bind_ok hlanes (run_bind_ok (get_run _) (run_bind_ok hctx (run_bind_ok (get_run _) ?_)))⟩
  simp only [find?_tgtBad hgood]
  exact run_bind_ok hload (writeDatas_run n.size sx o.data (v.lanes.zip xs) hg')

/-- Settles O13: kept outstanding, or performed; then the values of its lanes go to the data register. -/
theorem loadWritesRegister : Obligations.LoadWritesRegister := by
  intro s g h i sh n sx o
  dsimp only
  intro hf hm
  have hx := exec_loadForm (s := s) hf
  refine ⟨memWord_waits hm hx, fun hw => ?_⟩
  rw [exec_memWord hm hx hw]
  refine ⟨gives_runOp _ _, fun c ts u hp hgood => ?_⟩
  obtain ⟨xs, w, hload, hrun⟩ := doLoad_run hp hgood
  exact ⟨xs, w, hload, runOp_ok hrun⟩

/-- A word's release, where its ordering asks for one, before the rest. -/
theorem release_run {α : Type} {sc : Scope} {rest : Op α}
    (hr : if releases o.ord = true then s.leaves (releaseCore (coreOfGrp s.cur.gk) sc) r else r = s) :
    (do
      if releases o.ord then releaseCore (coreOfGrp (← get).cur.gk) sc
      rest : Op α).run s = rest.run r := by
  split at hr
  · rename_i ho
    simp only [ho, if_true]
    exact run_bind_ok (get_run _) (run_bind_ok (run_of_leaves hr) rfl)
  · rename_i ho
    simp only [ho, hr]
    rfl

/-- A store whose lanes pass their checks, from the writes on. -/
theorem doStore_run (hr : if releases o.ord = true then s.leaves (releaseCore (coreOfGrp s.cur.gk) .core) r else r = s)
    (hp : passes r c n v.pairs ts u) : (doStore n o v).run s = (do
      (ts.zip v.data).forM fun (t, x) => storeTgt c n.size x o.evict.toNat t
      healMarks c n.size ts : Op Unit).run u := by
  obtain ⟨hlanes, hctx⟩ := passes_run hp
  exact (release_run hr).trans (run_bind_ok hlanes (run_bind_ok (get_run _) (run_bind_ok hctx rfl)))

theorem answers_storeTgts (c : LocalCtx) (z evict : Nat) (xs : List (Tgt × Nat)) :
    Answers (xs.forM fun (t, x) => storeTgt c z x evict t) := answers_forM (fun _ => (proceeds_storeTgt _ _ _ _ _).answers) _

theorem answers_healMarks (c : LocalCtx) (z : Nat) (ts : List Tgt) : Answers (healMarks c z ts) :=
  answers_bind answers_get fun _ => answers_ite (answers_pure _) (answers_modify _)

/-- Settles O14: kept outstanding, or performed; then every lane's write answers. -/
theorem storeWritesLocations : Obligations.StoreWritesLocations := by
  intro s g h i sh n o
  dsimp only
  intro hf hm
  have hx := exec_storeForm (s := s) hf
  refine ⟨memWord_waits hm hx, fun hw => ?_⟩
  rw [exec_memWord hm hx hw]
  refine ⟨gives_runOp _ _, fun c ts r u hr hp => ?_⟩
  obtain ⟨_, w, hstores⟩ := answers_storeTgts c n.size o.evict.toNat (ts.zip (memOperands s g sh o).data) u
  obtain ⟨_, t, hheal⟩ := answers_healMarks c n.size ts w
  refine ⟨w, t, leaves_of_run hstores, leaves_of_run hheal, runOp_ok ?_⟩
  rw [doStore_run (by rwa [begun_gk]) hp]
  exact run_bind_ok hstores hheal

/-! Atomics -/

/-- One lane's step answers where the group is resident, and leaves it resident. -/
theorem atomLane_run {t : Tgt} {l d y : Nat} (hg : tlook c.gk s.groups = some g) :
    ∃ e w g', (atomLane c a o t l d y).run s = .ok e w ∧ tlook c.gk w.groups = some g' := by
  obtain ⟨m, w, g', hrmw, hg'⟩ :=
    (proceeds_rmwTgt c o.scope a.size o.evict.toNat (acquires o.ord) (fun m => (a.new m d y).1) t).run hg
  unfold atomLane
  by_cases hret : a.ret = true
  · obtain ⟨g'', hg''⟩ := putData_group (gk := c.gk) a.size false o.data (l, m) hg'
    refine ⟨(a.new m d y).2, _, g'', run_bind_ok hrmw ?_, hg''⟩
    rw [if_pos hret]
    exact run_bind_ok (writeData_run a.size false l m o.data hg') rfl
  · refine ⟨(a.new m d y).2, w, g', run_bind_ok hrmw ?_, hg'⟩
    rw [if_neg hret]
    rfl

theorem atomLanes_run {α : Type} {t : α → Tgt} {l d y : α → Nat} (xs : List α) (hg : tlook c.gk s.groups = some g) :
    ∃ es w, (xs.mapM fun x => atomLane c a o (t x) (l x) (d x) (y x)).run s = .ok es w := by
  induction xs generalizing s g with
  | nil => exact ⟨[], s, rfl⟩
  | cons x xs ih =>
    obtain ⟨e, w, g', hlane, hg'⟩ := atomLane_run (a := a) (o := o) (t := t x) (l := l x) (d := d x) (y := y x) hg
    obtain ⟨es, z, hrest⟩ := ih hg'
    refine ⟨e :: es, z, ?_⟩
    rw [List.mapM_cons]
    exact run_bind_ok hlane (run_bind_ok hrest rfl)

/-- An atomic whose lanes pass their checks, and meet no uncorrectable word. -/
theorem doAtom_run (hr : if releases o.ord = true then s.leaves (releaseCore (coreOfGrp s.cur.gk) o.scope) r else r = s)
    (hp : passes r c (atomNeed a o) v.pairs ts u) (hgood : ∀ t ∈ ts, tgtBad c u a.size t = false) :
    ∃ es t, reply (atomRuns c a o ts v) u = some (es, t) ∧ (doAtom a o v).run s = .ok () (t.counted (es.foldl Ev.or .none)) := by
  obtain ⟨hlanes, hctx⟩ := passes_run hp
  obtain ⟨-, hgk, -⟩ := localCtx_fix hctx
  obtain ⟨es, t, hatoms⟩ := atomLanes_run (a := a) (o := o) (t := fun x => x.1.1) (l := fun x => x.1.2) (d := fun x => v.data.getD x.2 0)
    (y := fun x => v.data2.getD x.2 0) (ts.zip v.lanes).zipIdx (localCtx_group (hgk ▸ hctx))
  refine ⟨es, t, reply_of_run hatoms, (release_run hr).trans ?_⟩
  have hall : ((ts.zip v.lanes).zipIdx.filter fun x => !tgtBad c u a.size x.1.1) = (ts.zip v.lanes).zipIdx :=
    List.filter_eq_self.2 fun x hx => by rw [hgood x.1.1 (List.of_mem_zip (List.fst_mem_of_mem_zipIdx hx)).1]; rfl
  refine run_bind_ok hlanes (run_bind_ok (get_run _) (run_bind_ok hctx (run_bind_ok (get_run _) ?_)))
  dsimp only
  rw [hall, find?_tgtBad hgood]
  exact run_bind_ok hatoms (run_bind_ok (countEvents_run _) rfl)

/-- Settles O15: kept outstanding, or performed; then every lane's step answers. -/
theorem atomicsApplyInLaneOrder : Obligations.AtomicsApplyInLaneOrder := by
  intro s g h i a o
  dsimp only
  intro hf hm
  have hx := exec_atomOf (s := s) hf
  refine ⟨memWord_waits hm hx, fun hw => ?_⟩
  rw [exec_memWord hm hx hw]
  refine ⟨gives_runOp _ _, fun c ts r u hr hp hgood => ?_⟩
  obtain ⟨es, t, hatoms, hrun⟩ := doAtom_run (by rwa [begun_gk]) hp hgood
  exact ⟨es, t, hatoms, runOp_ok hrun⟩

end Sys2Proof.Machine
end

section
/-! The checks of a word's lanes leave the word in progress as it is (10_memory_ops.md R269, R270; 15_isolation.md R408, R416, R418). -/

namespace Sys2Proof.Machine

variable {α β : Type} {s u : State} {c : LocalCtx} {n : Need} {xs : List (Nat × Nat)} {ts : List Tgt}

theorem keepsCur_throw (e : Stop) : KeepsCur (throw e : Op α) := by
  rintro s _ _ ⟨⟩

theorem keepsCur_ite {p : Prop} [Decidable p] {m n : Op α} (hm : KeepsCur m) (hn : KeepsCur n) : KeepsCur (if p then m else n) := by
  split
  · exact hm
  · exact hn

theorem keepsCur_mapM {f : α → Op β} (hf : ∀ a, KeepsCur (f a)) (l : List α) : KeepsCur (l.mapM f) := by
  induction l with
  | nil => exact keepsCur_pure _
  | cons a l ih =>
    rw [List.mapM_cons]
    exact keepsCur_bind (hf a) fun _ => keepsCur_bind ih fun _ => keepsCur_pure _

theorem keepsCur_need (x : Option α) : KeepsCur (need x : Op α) := by
  cases x with
  | none => exact keepsCur_throw _
  | some a => exact keepsCur_pure a

/-- What follows an operation that never answers does not matter. -/
theorem keepsCur_of_stops {m : Op α} {f : α → Op β} (hm : ∀ s a t, m.run s ≠ .ok a t) : KeepsCur (m >>= f) := by
  intro s b u hu
  obtain ⟨a, t, ht, -⟩ := bind_run_ok hu
  exact absurd ht (hm s a t)

theorem raise_stops (cause sub : Nat) (addr : W64) (s : State) (a : α) (t : State) : (raise cause addr sub : Op α).run s ≠ .ok a t := by
  rintro ⟨⟩

/-- A wait ends the step. -/
theorem waitFor_stops (x : Wait) (s : State) (a : α) (t : State) : (waitFor x : Op α).run s ≠ .ok a t := by
  intro ht
  obtain ⟨_, _, -, ht⟩ := bind_run_ok ht
  obtain ⟨_, _, -, ht⟩ := bind_run_ok ht
  cases ht

theorem keepsCur_groupAt (gk : Nat) : KeepsCur (groupAt gk) := keepsCur_bind keepsCur_get fun _ => keepsCur_need _

theorem keepsCur_blockAt (bk : Nat) : KeepsCur (blockAt bk) := keepsCur_bind keepsCur_get fun _ => keepsCur_need _

theorem keepsCur_selfTenant : KeepsCur selfTenant :=
  keepsCur_bind (keepsCur_bind keepsCur_get fun _ => keepsCur_blockAt _) fun _ => keepsCur_pure _

theorem keepsCur_localCtx (gk : Nat) : KeepsCur (localCtx gk) := fun s c t hc => by
  obtain ⟨rfl, -⟩ := localCtx_fix hc
  rfl

/-! Translations -/

theorem keepsCur_walkerMarks (l1 l2 : Leaf) (owner : Option Nat) : KeepsCur (walkerMarks l1 l2 owner) := by
  refine keepsCur_bind (keepsCur_modify fun _ => rfl) fun _ => ?_
  cases owner with
  | none => exact keepsCur_pure _
  | some o => exact keepsCur_modify fun _ => rfl

theorem keepsCur_xlate (die core tn va : Nat) : KeepsCur (xlate die (some core) tn va) := by
  refine keepsCur_bind keepsCur_get fun s => ?_
  dsimp only
  split
  · exact keepsCur_pure _
  split
  · exact keepsCur_bind (keepsCur_modify fun _ => rfl) fun _ => keepsCur_pure _
  refine keepsCur_ite (keepsCur_pure _) ?_
  split
  · exact keepsCur_pure _
  · refine keepsCur_ite ?_ ?_
    · exact keepsCur_bind (keepsCur_modify fun _ => rfl) fun _ => keepsCur_bind (keepsCur_modify fun _ => rfl) fun _ => keepsCur_pure _
    · exact keepsCur_bind (keepsCur_walkerMarks _ _ _) fun _ => keepsCur_bind (keepsCur_modify fun _ => rfl) fun _ =>
        keepsCur_bind (keepsCur_modify fun _ => rfl) fun _ => keepsCur_pure _

theorem keepsCur_fire (fn vec : Nat) : KeepsCur (fire fn vec) := keepsCur_modify fun s => by split <;> rfl

theorem keepsCur_putMem (n a x : Nat) : KeepsCur (putMem n a x) := keepsCur_modify fun _ => rfl

theorem keepsCur_writeFault (fn : Nat) (x : PFault) (addr place : Nat) : KeepsCur (writeFault fn x addr place) := by
  have hend (f : Fn → Fn) : KeepsCur (do
      modFn fn f
      fire fn 0) := keepsCur_bind (keepsCur_modify fun _ => rfl) fun _ => keepsCur_fire _ _
  refine keepsCur_bind keepsCur_get fun s => ?_
  dsimp only
  split
  · exact keepsCur_bind (keepsCur_putMem _ _ _) fun _ => keepsCur_bind (keepsCur_putMem _ _ _) fun _ =>
      keepsCur_bind (keepsCur_putMem _ _ _) fun _ => keepsCur_bind (keepsCur_putMem _ _ _) fun _ => hend _
  · exact hend _

theorem keepsCur_reportFault (tn va : Nat) (x : XFault) (bits' place : Nat) : KeepsCur (reportFault tn va x bits' place) := by
  refine keepsCur_bind keepsCur_get fun s => ?_
  dsimp only
  split
  · exact keepsCur_pure _
  refine keepsCur_bind (keepsCur_modify fun _ => rfl) fun _ => ?_
  exact keepsCur_ite (keepsCur_bind (keepsCur_modify fun _ => rfl) fun _ => keepsCur_pure _)
    (keepsCur_bind (keepsCur_writeFault _ _ _ _) fun _ => keepsCur_pure _)

theorem keepsCur_askHost (pa va : Nat) : KeepsCur (askHost pa va) := by
  refine keepsCur_bind keepsCur_get fun s => ?_
  dsimp only
  split
  · exact keepsCur_pure _
  · exact keepsCur_bind (keepsCur_modify fun _ => rfl) fun _ => keepsCur_pure _

theorem keepsCur_mapLane (gk tn va : Nat) (n : Need) (bits' : Nat) : KeepsCur (mapLane gk tn va n bits') := by
  refine keepsCur_bind keepsCur_get fun s => keepsCur_bind (keepsCur_groupAt gk) fun g => ?_
  refine keepsCur_ite (keepsCur_pure _) (keepsCur_ite (keepsCur_pure _) (keepsCur_bind (keepsCur_xlate _ _ _ _) fun x => ?_))
  cases x with
  | wait => exact keepsCur_pure _
  | bad f => exact keepsCur_bind (keepsCur_reportFault _ _ _ _ _) fun _ => keepsCur_pure _
  | ok e =>
    refine keepsCur_bind keepsCur_get fun t => ?_
    cases reach t tn (e.phys va) with
    | absent pa => exact keepsCur_ite (keepsCur_bind (keepsCur_askHost _ _) fun _ => keepsCur_pure _) (keepsCur_pure _)
    | _ => exact keepsCur_pure _

/-! The checks -/

theorem keepsCur_laneTgt (gk tn : Nat) (n : Need) (x : Nat × Nat) : KeepsCur (laneTgt gk tn n x) := by
  refine keepsCur_ite (keepsCur_bind (keepsCur_mapLane _ _ _ _ _) fun r => ?_) (keepsCur_pure _)
  cases r <;> exact keepsCur_pure _

theorem keepsCur_checkTgts (gk : Nat) (c : LocalCtx) (n : Need) (ts : List Tgt) : KeepsCur (checkTgts gk c n ts) := by
  have hwrites (s : State) : KeepsCur (do
      if n.writes then
        match (ts.filterMap (Tgt.conflictAt s gk n)).head? with
        | some a => raise 0x06 (BitVec.ofNat 64 a)
        | none => pure ()
        if ts.any (Tgt.cappedAt s gk n) then waitFor .home
      return ts : Op (List Tgt)) := by
    refine keepsCur_ite ?_ (keepsCur_pure _)
    dsimp only
    split
    · exact keepsCur_of_stops (raise_stops _ _ _)
    · exact keepsCur_ite (keepsCur_of_stops (waitFor_stops _)) (keepsCur_pure _)
  refine keepsCur_bind keepsCur_get fun s => keepsCur_ite ?_ (hwrites s)
  split
  · exact keepsCur_of_stops (raise_stops _ _ _)
  · exact hwrites s

theorem keepsCur_checkLanes (n : Need) (xs : List (Nat × Nat)) : KeepsCur (checkLanes n xs) := by
  refine keepsCur_bind keepsCur_get fun s => keepsCur_bind (keepsCur_localCtx _) fun c => keepsCur_bind keepsCur_selfTenant fun tn => ?_
  dsimp only
  split
  · exact keepsCur_of_stops (raise_stops _ _ _)
  split
  · exact keepsCur_of_stops (raise_stops _ _ _)
  refine keepsCur_bind (keepsCur_mapM (keepsCur_laneTgt s.cur.gk tn n) xs) fun ms => ?_
  split
  · exact keepsCur_of_stops (waitFor_stops _)
  split
  · exact keepsCur_of_stops (raise_stops _ _ _)
  · exact keepsCur_checkTgts s.cur.gk c n _

/-- A word whose lanes pass their checks is still the one in progress. -/
theorem passes_cur (hp : passes s c n xs ts u) : u.cur = s.cur := by
  obtain ⟨hlanes, -⟩ := passes_run hp
  exact keepsCur_checkLanes n xs _ _ _ hlanes

end Sys2Proof.Machine
end

section
/-! PREF, WB, INV and FENCE (10_memory_ops.md R275 to R277; 08_ordering_model.md R217, R218). -/

namespace Sys2Proof.Machine

variable {s u : State} {i : Instr} {g g' : Group} {h : Hdr} {b : Block} {o : MWord} {v : MVals} {c : LocalCtx} {ts : List Tgt}

/-! Prefetch -/

theorem answers_quietMap (core tn va : Nat) : Answers (quietMap core tn va) := by
  refine answers_bind (answers_xlate _ _ _ _) fun x => ?_
  cases x with
  | ok e => exact answers_bind answers_get fun _ => answers_pure _
  | bad f => exact answers_pure _
  | wait => exact answers_pure _

theorem answers_presentAt (r : VRef) : Answers (presentAt r) :=
  answers_bind answers_get fun _ => answers_bind (answers_atHome _) fun _ => answers_ite (answers_modify _) (answers_pure _)

theorem answers_loadOne (core : Nat) (r : VRef) (whos : List Agent) (n evict : Nat) : Answers (loadOne core r whos n evict) :=
  answers_bind (answers_loadAt _ _ _ _ _) fun _ => answers_bind (answers_loadsDone _ _ _) fun _ => answers_pure _

/-- An operation that answers here, and then one that answers there. -/
theorem exists_run_bind {α β : Type} {m : Op α} {f : α → Op β} {a : α} (hm : m.run s = .ok a u) (hf : ∃ b t, (f a).run u = .ok b t) :
    ∃ b t, (m >>= f).run s = .ok b t := by
  obtain ⟨b, t, hrest⟩ := hf
  exact ⟨b, t, run_bind_ok hm hrest⟩

/-- A prefetch of a group with a block ends: at each line's sectors, it loads, fills the L2's copy, brings the sector to its home's cache, or
drops it. -/
theorem doPref_answers (hb : tlook (blkOfGrp s.cur.gk) s.blocks = some b) : ∃ x t, (doPref o v).run s = .ok x t := by
  refine exists_run_bind (get_run _) (exists_run_bind (selfTenant_run hb) (answers_forM (fun a => ?line) _ s))
  refine answers_ite (answers_bind (answers_quietMap _ _ _) fun r => ?_) (answers_pure _)
  cases r with
  | none => exact answers_pure _
  | some r =>
    refine answers_forM (fun x => answers_ite (answers_pure _) (answers_ite (answers_ite ?core (answers_pure _))
      (answers_ite (answers_ite (answers_ite ?die (answers_presentAt _)) (answers_pure _)) (answers_presentAt _)))) _
    case core => exact answers_bind answers_get fun _ => answers_bind (answers_loadOne _ _ _ _ _) fun _ => answers_pure _
    case die => exact answers_bind (answers_plainFill _ _ _ _) fun _ => answers_pure _

/-! Write-back and invalidation -/

theorem answers_lineBack (core : Nat) (sc : Scope) (drop : Bool) (r : VRef) : Answers (lineBack core sc drop r) := by
  have hnear : Answers (do
      writeBack (.l1 core) r.sec (upOf (dieOfCore core) r)
      if drop then
        dropCopy (.l1 core) r.sec
        dropCopy (.quad (quadOfCore core)) r.sec) :=
    answers_bind (answers_writeBack _ _ _) fun _ =>
      answers_ite (answers_bind (answers_dropCopy _ _) fun _ => answers_dropCopy _ _) (answers_pure _)
  have hfar : Answers (do
      writeBack (.l1 core) r.sec (upOf (dieOfCore core) r)
      writeBack (.l2 (dieOfCore core)) r.sec none
      if drop then
        dropCopy (.l1 core) r.sec
        dropCopy (.quad (quadOfCore core)) r.sec
        dropCopy (.l2 (dieOfCore core)) r.sec) :=
    answers_bind (answers_writeBack _ _ _) fun _ => answers_bind (answers_writeBack _ _ _) fun _ =>
      answers_ite (answers_bind (answers_dropCopy _ _) fun _ => answers_bind (answers_dropCopy _ _) fun _ => answers_dropCopy _ _) (answers_pure _)
  cases sc with
  | group => exact answers_pure _
  | core => exact answers_pure _
  | quad => exact hnear
  | die => exact hnear
  | package => exact hfar
  | pod => exact hfar
  | system => exact hfar

/-- Write-back of a lane's line, where it has one. -/
def backTgt (core : Nat) (sc : Scope) (drop : Bool) : Tgt → Op Unit
  | .loc _ _ => pure ()
  | .virt r => (lineSectors r).forM (lineBack core sc drop)

theorem answers_backTgt (core : Nat) (sc : Scope) (drop : Bool) (t : Tgt) : Answers (backTgt core sc drop t) := by
  cases t with
  | loc a lane => exact answers_pure _
  | virt r => exact answers_forM (answers_lineBack core sc drop) _

/-- WB and INV once their lanes have passed their checks. -/
theorem doBack_run {drop : Bool} (hp : passes s c ⟨spacesAll, false, false, 1, false, none⟩ v.pairs ts u) :
    (doBack o drop v).run s = (ts.forM (backTgt (coreOfGrp s.cur.gk) o.scope drop)).run u := by
  obtain ⟨hlanes, -⟩ := passes_run hp
  refine run_bind_ok hlanes (run_bind_ok (get_run _) ?_)
  rw [passes_cur hp]
  rfl

theorem doBack_leaves {drop : Bool} {gk : Nat} (hp : passes s c ⟨spacesAll, false, false, 1, false, none⟩ v.pairs ts u) (hgk : s.cur.gk = gk) :
    ∃ t, u.leaves (ts.forM (backTgt (coreOfGrp gk) o.scope drop)) t ∧ runOp (doBack o drop v) s = .next t :=
  leaves_of_run_eq (answers_forM (answers_backTgt _ _ _) _) (hgk ▸ doBack_run hp)

theorem exec_lineForm {m : MVals → Op Unit} (hf : lineForm i = some (o, m)) : exec i s = runOp (memWord i lineShape o m) s := by
  unfold lineForm at hf
  split at hf <;> cases hf <;> rfl

/-! Fences -/

theorem answers_doFence (o : MWord) : Answers (doFence o) := by
  have hacquire (core : Nat) : Answers (if acquires o.ord then acquireCore core else pure ()) := answers_ite (answers_acquireCore _) (answers_pure _)
  exact answers_bind answers_get fun _ => answers_ite (answers_bind (answers_releaseCore _ _) fun _ => hacquire _) (hacquire _)

/-- The group as an acquire fence leaves it: what is outstanding completes as an acquire (R217, R218). -/
def Group.fenced (g : Group) (o : MWord) : Group :=
  if acquires o.ord then { g with pend := g.pend.map fun p => if p.spans.isEmpty then p else { p with fence := .acquire } } else g

theorem after_self (hg : tlook s.cur.gk s.groups = some g) : s.after i g (g.begun i) = s.begun i g := by
  have hsame : tset s.cur.gk (g.begun i) (s.begun i g).groups = (s.begun i g).groups := tset_tlook (begun_group hg)
  unfold State.after State.setGroup
  rw [hsame]

/-- An acquire fence's mark on the accesses before it, and then the rest. -/
theorem fenceEarlier_run {rest : Op Unit} (hi : Issues s (.fence o) g h) :
    (do
      if acquires o.ord then fenceEarlier s.cur.gk
      rest : Op Unit).run (s.begun (.fence o) g) = rest.run (s.after (.fence o) g (g.fenced o)) := by
  unfold Group.fenced
  by_cases ho : acquires o.ord = true
  · simp only [ho, if_true]
    exact run_bind_ok (modGroup_S _ (begun_gk (i := .fence o) ▸ group_begun hi rfl)) rfl
  · simp only [ho]
    rw [← after_self (i := .fence o) hi.group]
    rfl

theorem exec_fence (hi : Issues s (.fence o) g h) (hm : s.activeOf g o.pred.toNat ≠ 0) : exec (.fence o) s = runOp (
    if s.cur.defer || g.accessing then
      putPend { pendOf s g (.fence o) (s.activeOf g o.pred.toNat) o.la.toNat [[0]] with
        fence := if acquires o.ord then .acquire else .writes
        after := true }
    else doFence o) (s.after (.fence o) g (g.fenced o)) := by
  refine runOp_of_run_eq (run_bind_ok (legal_run hi) (run_bind_ok (activeMask_begun hi _) ?_))
  simp only [hm, if_false]
  refine run_bind_ok (get_run _) (run_bind_ok (self_begun hi) ?_)
  rw [begun_gk, begun_defer]
  exact fenceEarlier_run hi

/-- Settles O18: a line word is kept outstanding or performed, its prefetches or write-backs all answering; a fence is held or does its part. -/
theorem cacheWordsComplete : Obligations.CacheWordsComplete := by
  refine ⟨fun s g h i o m => ?line, fun s g h o => ?fence⟩
  case line =>
    dsimp only
    intro hf hm
    have hx := exec_lineForm (s := s) hf
    refine ⟨memWord_waits hm hx, fun hw => ?_⟩
    rw [exec_memWord hm hx hw]
    refine ⟨gives_runOp _ _, fun hpref => ?_, fun c ts u hback hp => ?_⟩
    · obtain ⟨_, rfl⟩ := hpref
      cases hf
      obtain ⟨b, -, hb, -⟩ := hm.issues.header
      obtain ⟨_, t, hrun⟩ := doPref_answers (s := s.begun (.pref o) g) (o := o) (v := memOperands s g lineShape o) (b := b)
        (by rwa [begun_gk, begun_blocks])
      exact ⟨t, leaves_of_run hrun, runOp_ok hrun⟩
    · unfold lineForm at hf
      split at hf <;> cases hf
      · exact absurd rfl (hback o)
      · exact doBack_leaves hp begun_gk
      · exact doBack_leaves hp begun_gk
  case fence =>
    dsimp only
    intro hi hm
    have hx := exec_fence hi hm
    refine ⟨fun hw => ?_, fun hw => ?_⟩
    · rw [if_pos (by simpa using hw)] at hx
      exact hx.trans (runOp_ok (modSelf_after _ _))
    · rw [if_neg (by simpa using hw)] at hx
      rw [hx]
      exact leaves_of_run_eq (answers_doFence o) rfl

end Sys2Proof.Machine
end

section
/-! WSIG (10_memory_ops.md R278; 08_ordering_model.md R225). -/

namespace Sys2Proof.Machine

variable {s u w : State} {i : Instr} {g : Group} {h : Hdr} {d : Bool} {o : MWord} {v : MVals} {c : LocalCtx} {ts fs : List Tgt} {z : Nat}

theorem baseVal_begun (gk l : Nat) (r : Reg) : baseVal (s.begun i g) gk (g.begun i) l r = baseVal s gk g l r := by
  cases r <;> simp [baseVal]

/-- The register elements that WSIG reads for its payload. -/
def wsigElems (s : State) (g : Group) (d : Bool) (o : MWord) : List (Nat × Nat) :=
  (wsigVals s g d o).lanes.flatMap fun l => regElems (wd d).bytes l o.data ++ regElems 4 l o.base

/-- WSIG, its operands read: it is kept outstanding or performed. -/
theorem exec_wsig (hi : Issues s (.wsig d o) g h) (hm : s.activeOf g o.pred.toNat ≠ 0) (hr : s.readable g (wsigElems s g d o)) :
    exec (.wsig d o) s = runOp (performOr (.wsig d o) o (s.activeOf g o.pred.toNat) (wsigVals s g d o).list
      (doWsig (wd d).bytes o (wsigVals s g d o))) (s.begun (.wsig d o) g) := by
  have hcheck := checkElems_run (by simpa using begun_group (i := .wsig d o) hi.group) (readable_group_begun (i := .wsig d o) (g' := g) hr)
  refine runOp_of_run_eq (run_bind_ok (legal_run hi) (run_bind_ok (activeMask_begun hi _) ?_))
  simp only [hm, if_false]
  refine run_bind_ok (get_run _) (run_bind_ok (self_begun hi) ?_)
  simp only [begun_width, begun_gk, effAddr_begun, dataVal_begun, baseVal_begun]
  exact run_bind_ok hcheck rfl

/-- The flag's advance by the number of lanes, as a release of what was stored (R278). -/
def advanceFlag (c : LocalCtx) (core z : Nat) (o : MWord) (lanes : Nat) (ts fs : List Tgt) : Op Unit := do
  healMarks c z ts
  releaseCore core o.scope
  fs.forM fun t => do
    let _ ← rmwTgt c o.scope z 0 (acquires o.ord) (fun x => (x + lanes) % 2 ^ (8 * z)) t

theorem answers_advanceFlag (core lanes : Nat) : Answers (advanceFlag c core z o lanes ts fs) :=
  answers_bind (answers_healMarks _ _ _) fun _ => answers_bind (answers_releaseCore _ _) fun _ => answers_forM (fun _ =>
    answers_bind (proceeds_rmwTgt _ _ _ _ _ _ _).answers fun _ => answers_pure _) _

/-- WSIG once its payload's lanes and its flag have passed their checks. -/
theorem doWsig_run (hp : passes s c ⟨spacesSig, false, true, z, false, none⟩ v.pairs ts u)
    (hf : passes u c ⟨spacesSig, true, true, z, false, some o.scope⟩ (v.data2.map fun f => (0, f)) fs w)
    (hgood : ∀ t ∈ fs, tgtBad c w z t = false) : (doWsig z o v).run s = (do
      (ts.zip v.data).forM fun (t, x) => storeTgt c z x o.evict.toNat t
      advanceFlag c (coreOfGrp s.cur.gk) z o v.lanes.length ts fs : Op Unit).run w := by
  obtain ⟨hlanes, -⟩ := passes_run hp
  obtain ⟨hflag, hctx⟩ := passes_run hf
  rw [passes_cur hf, passes_cur hp] at hctx
  refine run_bind_ok (get_run _) (run_bind_ok hlanes (run_bind_ok hflag (run_bind_ok hctx (run_bind_ok (get_run _) ?_))))
  simp only [find?_tgtBad hgood]
  rfl

end Sys2Proof.Machine
end

section
/-! WAITLN (10_memory_ops.md R279). -/

namespace Sys2Proof.Machine

variable {s u : State} {g g' : Group} {h : Hdr} {o : MWord} {c : LocalCtx} {t : Tgt} {r : BitVec 6} {x : VRef}

/-- The timeout that a register gives is 0 where the register is. -/
theorem timeout_eq_zero (x : W64) : min x.toNat (2 ^ 32 - 1) = 0 ↔ x = 0 := by
  have hzero : x = 0 ↔ x.toNat = 0 := BitVec.toNat_inj.symm
  rw [hzero]
  omega

/-- The beginning of WAITLN: its checks, and then what follows with the group and the place of its line. -/
theorem waitln_run {k : State → Group → List Tgt → Op Unit} (hi : Issues s (.waitln o) g h) (hm : s.activeOf g o.pred.toNat ≠ 0)
    (hp : passes (s.begun (.waitln o) g) c ⟨spacesSig, false, false, 1, false, none⟩ [(0, effAddr s s.cur.gk g 0 1 o)] [t] u) :
    (do
      legal (.waitln o)
      let m ← activeMask o.pred.toNat
      if m = 0 then finish
      let s ← get
      let g ← self
      let ts ← checkLanes ⟨spacesSig, false, false, 1, false, none⟩ [(0, effAddr s s.cur.gk g 0 1 o)]
      k s g ts : Op Unit).run s = (k (s.begun (.waitln o) g) (g.begun (.waitln o)) [t]).run u := by
  obtain ⟨hlanes, -⟩ := passes_run hp
  refine run_bind_ok (legal_run hi) (run_bind_ok (activeMask_begun hi _) ?_)
  simp only [hm, if_false]
  refine run_bind_ok (get_run _) (run_bind_ok (self_begun hi) ?_)
  rw [begun_gk, effAddr_begun]
  exact run_bind_ok hlanes rfl

/-- WAITLN ends at once where its timeout is 0. -/
theorem exec_waitln_timeout0 (hi : Issues s (.waitln o) g h) (hm : s.activeOf g o.pred.toNat ≠ 0)
    (hp : passes (s.begun (.waitln o) g) c ⟨spacesSig, false, false, 1, false, none⟩ [(0, effAddr s s.cur.gk g 0 1 o)] [t] u)
    (hd : o.data = .sreg r) (h0 : g.scalar r.toNat = 0) : exec (.waitln o) s = runOp (modSelf fun g => g.setScalar r.toNat 2) u := by
  obtain ⟨-, hctx⟩ := passes_run hp
  rw [passes_cur hp] at hctx
  refine runOp_of_run_eq ((waitln_run hi hm hp).trans (run_bind_ok (get_run _) ?_))
  cases t with
  | virt x =>
    refine run_bind_ok (get_run _) ?_
    simp only [hd, begun_scalar, timeout_eq_zero, h0, if_true]
    rfl
  | loc a lane =>
    refine run_bind_ok hctx ?_
    simp only [hd, begun_scalar, timeout_eq_zero, h0, if_true]
    rfl

/-- With another timeout it ends at once where its line of virtual memory has no watched copy, and sleeps on the line otherwise. -/
theorem exec_waitln_virt (hi : Issues s (.waitln o) g h) (hm : s.activeOf g o.pred.toNat ≠ 0)
    (hp : passes (s.begun (.waitln o) g) c ⟨spacesSig, false, false, 1, false, none⟩ [(0, effAddr s s.cur.gk g 0 1 o)] [.virt x] u)
    (hd : o.data = .sreg r) (h0 : g.scalar r.toNat ≠ 0) : exec (.waitln o) s = runOp (
      let l := x.pa / 128
      let cached := x.e.l1 && !x.host
      let watch := if cached then liveSectors u (coreOfGrp s.cur.gk) l else 0
      if cached && watch = 0 then modSelf fun g => g.setScalar r.toNat 1
      else sleepOn (.line l false r.toNat (u.cycle + min (g.scalar r.toNat).toNat (2 ^ 32 - 1)) watch (x.va / 128))) u := by
  refine runOp_of_run_eq ((waitln_run hi hm hp).trans (run_bind_ok (get_run _) (run_bind_ok (get_run _) ?_)))
  simp only [hd, begun_scalar, timeout_eq_zero, h0, if_false, begun_gk]
  rfl

theorem sleepOn_run {w : Wait} (hg : tlook s.cur.gk s.groups = some g) :
    (sleepOn w).run s = .ok () (s.setGroup s.cur.gk (g.sleeps w s.cycle)) := run_bind_ok (get_run _) (modGroup_S _ hg)

/-- Settles O19: WSIG is kept outstanding or stores its payload and advances its flag; WAITLN ends or sleeps by its timeout and its line's copies. -/
theorem signalAndWait : Obligations.SignalAndWait := by
  refine ⟨fun s g h d o => ?signal, fun s u g g' h o r c t => ?wait⟩
  case signal =>
    dsimp only
    intro hi hm hr
    have hx := exec_wsig hi hm hr
    obtain ⟨hwaits, hnow⟩ := performOr_run (o := o) (v := wsigVals s g d o) hi (doWsig (wd d).bytes o (wsigVals s g d o))
    refine ⟨fun hw => hx.trans (runOp_ok (hwaits hw)), fun hw => ?_⟩
    rw [hx, runOp_of_run_eq (hnow hw)]
    refine ⟨gives_runOp _ _, fun c ts fs u w hp hf hgood => ?_⟩
    obtain ⟨_, a, hstores⟩ := answers_storeTgts c (wd d).bytes o.evict.toNat (ts.zip (wsigVals s g d o).data) w
    obtain ⟨_, t, hflag⟩ := answers_advanceFlag (c := c) (z := (wd d).bytes) (o := o) (ts := ts) (fs := fs) (coreOfGrp s.cur.gk)
      (wsigVals s g d o).lanes.length a
    refine ⟨a, t, leaves_of_run hstores, leaves_of_run hflag, runOp_ok ?_⟩
    rw [doWsig_run hp hf hgood, begun_gk]
    exact run_bind_ok hstores hflag
  case wait =>
    dsimp only
    intro hd hi hm hp hg
    refine ⟨fun h0 => ?_, fun x h0 hx => ?_⟩
    · exact (exec_waitln_timeout0 hi hm hp hd h0).trans (runOp_ok (modGroup_S _ hg))
    · subst hx
      have hexec := exec_waitln_virt hi hm hp hd h0
      refine ⟨fun hcached hwatch => ?_, fun hwatch => ?_⟩
      · rw [if_pos ((Bool.and_eq_true _ _).mpr ⟨hcached, decide_eq_true hwatch⟩)] at hexec
        exact hexec.trans (runOp_ok (modGroup_S _ hg))
      · rw [if_neg fun hnone => ?_] at hexec
        · exact hexec.trans (runOp_ok (sleepOn_run hg))
        · obtain ⟨hcached, hlive⟩ := (Bool.and_eq_true _ _).mp hnone
          obtain huncached | hlive' := hwatch
          · exact absurd hcached (Bool.eq_false_iff.1 huncached)
          · exact hlive' (of_decide_eq_true hlive)

end Sys2Proof.Machine
end

section
/-! The jobs of a die: its table as one part of the state, and the events of a job (11_engines_futures.md R291 to R296, R302, R310). -/

namespace Sys2Proof.Machine

variable {s : State} {die slot : Nat} {d e : Die} {j : Job}

/-- The state with a die as given. -/
def State.withDie (s : State) (k : Nat) (d : Die) : State := { s with dies := tput {} s.dies k d }

/-- A die with a listed job is not the default one, so that its entry is kept, whatever the form of the table. -/
theorem die_ne_of_job (hj : tlook slot d.jobs = some j) : d ≠ {} := by
  rintro rfl
  cases hj

theorem die_ne_of_slot {x : FSlot} (hx : tlook slot d.slots = some x) : d ≠ {} := by
  rintro rfl
  cases hx

theorem withDie_die (hd : d ≠ {}) : (s.withDie die d).die die = d := (tget_tput_of_ne hd ..).trans (if_pos rfl)

theorem withDie_withDie (hd : d ≠ {}) (he : e ≠ {}) : (s.withDie die d).withDie die e = s.withDie die e := by
  simp only [State.withDie, tput, if_neg hd, if_neg he, tset_tset]

theorem modDie_withDie (hd : d ≠ {}) {f : Die → Die} (hf : f d ≠ {}) : (modDie die f).run (s.withDie die d) = .ok () (s.withDie die (f d)) := by
  rw [modDie_run, withDie_die hd, ← withDie_withDie hd hf]
  rfl

theorem modJob_run (hj : tlook slot (s.die die).jobs = some j) (f : Job → Job) :
    (modJob die slot f).run s = .ok () (s.withDie die { s.die die with jobs := tset slot (f j) (s.die die).jobs }) := by
  simp only [modJob, modDie_run, hj]
  rfl

/-! The events -/

theorem need_run {α : Type} {o : Option α} {a : α} (ho : o = some a) : (need o).run s = .ok a s := by rw [ho, need_some_run]

theorem require_holds {p : Bool} (hp : p = true) : (require p).run s = .ok () s := by rw [require_run, if_pos hp]

/-- A job's card as its arrival leaves it (R291, R293, R294). -/
def Job.carded (j : Job) (s : State) (die : Nat) : Job :=
  { j with
    arrived := some (s.die die).arrivals
    stale := j.handles.any fun h => (openHandle s j.tenant h.2).isNone
    feet := footOf s j
    deps := ((s.die die).jobs.filter fun k => k.2.arrived.isSome && feetMeet k.2.feet (footOf s j)).map fun k => (k.1, k.2.num) }

theorem exec_jobCardArrival (hj : tlook slot (s.die die).jobs = some j) (hnew : j.arrived = none) (hroom : cardsFull s die = false)
    (hfirst : ((s.die die).jobs.any fun k => k.2.gk = j.gk && k.2.arrived.isNone && decide (k.2.num < j.num)) = false) :
    exec (.jobCardArrival die slot) s = .next (s.withDie die { s.die die with
      arrivals := (s.die die).arrivals + 1
      jobs := tset slot (j.carded s die) (s.die die).jobs }) := by
  have hkept : ({ s.die die with jobs := tset slot (j.carded s die) (s.die die).jobs } : Die) ≠ {} := die_ne_of_job (tlook_tset_same ..)
  have hcounted := modDie_withDie (s := s) (die := die) (f := fun d => { d with arrivals := d.arrivals + 1 }) hkept
    (die_ne_of_job (tlook_tset_same ..))
  refine runOp_ok (run_bind_ok (get_run _) (run_bind_ok (need_run hj) (run_bind_ok (require_holds ?_)
    (run_bind_ok (modJob_run hj _) hcounted))))
  rw [hnew, hroom, hfirst]
  rfl

/-- The tile that a side of a CPY names, with the rights that its handle carries, where the side is a handle (R302). -/
def Job.side (j : Job) (s : State) (on : Bool) (a : Nat) : Option (TileDesc × Nat) :=
  if on then (openHandle s j.tenant a).map fun y => (y.2.2.1.desc, y.2.2.2) else none

/-- A job as its start on an engine leaves it (R291, R302). -/
def Job.started (j : Job) (s : State) (engine : Nat) : Job :=
  let src := j.side s j.block.sh j.block.a
  let dst := j.side s j.block.dh j.block.b
  { j with
    engine := some engine
    stile := src.map (·.1)
    dtile := dst.map (·.1)
    status :=
      if j.stale || (j.block.sh && src.isNone) || (j.block.dh && dst.isNone) then some jsStale
      else if cpyBadCard ((s.gridOf j.agent.grid).bind (·.hdr)) j src dst then some jsBadCard
      else none }

theorem exec_jobDispatch {engine : Nat} (hj : tlook slot (s.die die).jobs = some j) (hready : jobReady s die j = true)
    (howned : (ownedEngines s (s.partOf j.tenant) die j.kind).contains (20 * die + engine) = true)
    (hidle : ((s.die die).jobs.any fun k => k.2.engine = some engine) = false)
    (hfirst : ((s.die die).jobs.any fun k => jobReady s die k.2 && (enginesOf k.2.kind).1 = (enginesOf j.kind).1 &&
      s.partOf k.2.tenant = s.partOf j.tenant && decide (k.2.arrived.getD 0 < j.arrived.getD 0)) = false) :
    exec (.jobDispatch die slot engine) s = .next (s.withDie die { s.die die with
      jobs := tset slot (j.started s engine) (s.die die).jobs }) := by
  refine runOp_ok (run_bind_ok (get_run _) (run_bind_ok (need_run hj) (run_bind_ok (require_holds ?_) (modJob_run hj _))))
  rw [hready, howned, hidle, hfirst]
  rfl

theorem exec_jobEnd {st : Nat} (hj : tlook slot (s.die die).jobs = some j) (hst : j.status = some st) :
    exec (.jobEnd die slot) s = runOp (do
      endJob die slot (if jobAborted s j then jsAborted else st)
      resolveDeps j.tenant) s :=
  runOp_of_run_eq (run_bind_ok (get_run _) (run_bind_ok (need_run hj) (run_bind_ok (need_run hst) rfl)))

/-- Settles O48, event by event. -/
theorem jobEvents : Obligations.JobEvents := by
  refine ⟨fun s die slot j => ?arrival, fun s die slot engine j => ?start, fun s die slot st j hj hst => ?finish⟩
  case arrival => exact exec_jobCardArrival
  case start => exact exec_jobDispatch
  case finish =>
    rw [exec_jobEnd hj hst]
    exact gives_of_run_eq rfl

end Sys2Proof.Machine
end

section
/-! FTST, FWT and FCAN (11_engines_futures.md R307, R309; 08_ordering_model.md R229). -/

namespace Sys2Proof.Machine

variable {s u : State} {i : Instr} {g : Group} {h : Hdr} {b : Block} {o : MWord} {act : Nat → Nat → Nat → Option Nat → Op Unit}
  {die slot y : Nat} {j : Job}

/-! What the beginning of a word leaves as it was -/

@[simp] theorem begun_die (k : Nat) : (s.begun i g).die k = s.die k := by simp only [State.die, begun_dies]
@[simp] theorem begun_part (p : Nat) : (s.begun i g).part p = s.part p := by simp only [State.part, begun_parts]
@[simp] theorem begun_partOf (t : Nat) : (s.begun i g).partOf t = s.partOf t := by
  simp only [State.partOf, State.tdpart, State.reg, begun_regs]
@[simp] theorem futureOf_begun (v : Nat) : futureOf (s.begun i g) v = futureOf s v := by simp only [futureOf, begun_die]
@[simp] theorem foreign_begun (t v : Nat) : foreign (s.begun i g) t v = foreign s t v := by
  simp only [foreign, ownsDie, begun_dev, begun_part, begun_partOf]

/-- An acquire that no timestamp carries changes clocks alone. -/
theorem acquireCore_run (c : Nat) (s : State) : ∃ cs qs, (acquireCore c).run s = .ok () { s with cores := cs, quads := qs } := ⟨_, _, rfl⟩

/-! The common part of the words -/

/-- The value that a future word reads. -/
def futureVal (g : Group) (o : MWord) : Nat := (g.scalar (regNum o.base)).toNat

/-- What a future word does with the value `v` that it has read: a completion value is copied, a foreign handle is refused, an expired one
answered, and else `act` is given the slot. -/
def futureDone (s : State) (t : Nat) (o : MWord) (act : Nat → Nat → Nat → Option Nat → Op Unit) (v : Nat) : Op Unit :=
  if v < 2 ^ 63 then tileReply o v
  else if foreign s t v then raise 0x07 (BitVec.ofNat 64 v) 2
  else match futureOf s v with
    | none => tileReply o (completion jsExpired 0)
    | some (die, slot, x) => act v die slot x

theorem futureDone_value {t v : Nat} (hv : v < 2 ^ 63) : futureDone s t o act v = tileReply o v := if_pos hv

theorem futureDone_expired {t v : Nat} (hv : 2 ^ 63 ≤ v) (hf : foreign s t v = false) (hr : futureOf s v = none) :
    futureDone s t o act v = tileReply o (completion jsExpired 0) := by
  rw [futureDone, if_neg (Nat.not_lt.2 hv), hf, if_neg Bool.false_ne_true, hr]

theorem futureDone_slot {t v : Nat} {x : Option Nat} (hv : 2 ^ 63 ≤ v) (hf : foreign s t v = false) (hr : futureOf s v = some (die, slot, x)) :
    futureDone s t o act v = act v die slot x := by
  rw [futureDone, if_neg (Nat.not_lt.2 hv), hf, if_neg Bool.false_ne_true, hr]

/-- A future word with an active lane takes effect in the state of its beginning. -/
theorem futureWord_run (w : Acts s i g h) (hp : predOf i = o.pred.toNat) (hb : tlook (blkOfGrp s.cur.gk) s.blocks = some b) :
    (futureWord i o act).run s = (futureDone s (tenantOf b.grid) o act (futureVal g o)).run (s.begun i g) := by
  have hm : s.activeOf g o.pred.toNat ≠ 0 := hp ▸ w.some'
  refine run_bind_ok (legal_run w.issues) (run_bind_ok (activeMask_begun w.issues _) ?_)
  simp only [hm, if_false]
  refine run_bind_ok (get_run _) (run_bind_ok (self_begun w.issues) ?_)
  simp only [begun_scalar]
  by_cases hv : futureVal g o < 2 ^ 63
  · rw [futureDone_value hv]
    exact congrArg (EStateM.run · _) (if_pos hv)
  · refine (congrArg (EStateM.run · _) (if_neg hv)).trans (run_bind_ok (selfTenant_begun hb) ?_)
    rw [foreign_begun, futureOf_begun]
    exact congrArg (EStateM.run · _) (if_neg hv).symm

/-- The handle names a slot, and is no other tenant's. -/
theorem futureWord_slot {x : Option Nat} (w : Acts s i g h) (hp : predOf i = o.pred.toNat) (hb : tlook (blkOfGrp s.cur.gk) s.blocks = some b)
    (hv : 2 ^ 63 ≤ futureVal g o) (hf : foreign s (tenantOf b.grid) (futureVal g o) = false)
    (hr : futureOf s (futureVal g o) = some (die, slot, x)) :
    (futureWord i o act).run s = (act (futureVal g o) die slot x).run (s.begun i g) := by
  rw [futureWord_run w hp hb, futureDone_slot hv hf hr]

/-- The future words by what they do with a slot; where its job has ended, FCAN copies the completion value, and the others do so after an
acquire. -/
theorem exec_futureForm (hi : futureForm i = some o) : ∃ act, predOf i = o.pred.toNat ∧ (∀ s, exec i s = runOp (futureWord i o act) s) ∧
    (∀ v die slot y, i = .fcan o → act v die slot (some y) = tileReply o y) ∧
    ∀ v die slot y, i ≠ .fcan o → act v die slot (some y) = (do
      acquireCore (coreOfGrp (← get).cur.gk)
      tileReply o y) := by
  unfold futureForm at hi
  split at hi <;> cases hi
  case h_1 => exact ⟨_, rfl, fun _ => rfl, nofun, fun _ _ _ _ _ => rfl⟩
  case h_2 => exact ⟨_, rfl, fun _ => rfl, nofun, fun _ _ _ _ _ => rfl⟩
  case h_3 => exact ⟨_, rfl, fun _ => rfl, fun _ _ _ _ _ => rfl, fun _ _ _ _ hne => absurd rfl hne⟩

theorem tileReply_begun (w : Acts s i g h) (x : Nat) :
    (tileReply o x).run (s.begun i g) = .ok () ((s.begun i g).told (g.begun i) o x) :=
  tileReply_run x (by simpa using begun_group w.issues.group)

/-- A completion value is copied after an acquire, which leaves the group as it was. -/
theorem acquireReply_begun (w : Acts s i g h) (x : Nat) : ∃ u, (s.begun i g).leaves (acquireCore (coreOfGrp s.cur.gk)) u ∧
    (do
      acquireCore (coreOfGrp (← get).cur.gk)
      tileReply o x : Op Unit).run (s.begun i g) = .ok () (u.told (g.begun i) o x) := by
  obtain ⟨cs, qs, hacq⟩ := acquireCore_run (coreOfGrp s.cur.gk) (s.begun i g)
  refine ⟨_, leaves_of_run hacq, run_bind_ok (get_run _) (run_bind_ok (by rwa [begun_gk]) (tileReply_run x ?_))⟩
  simpa using begun_group w.issues.group

/-! A slot whose job goes on -/

theorem exec_ftst_running (w : Acts s (.ftst o) g h) (hb : tlook (blkOfGrp s.cur.gk) s.blocks = some b) (hv : 2 ^ 63 ≤ futureVal g o)
    (hf : foreign s (tenantOf b.grid) (futureVal g o) = false) (hr : futureOf s (futureVal g o) = some (die, slot, none)) :
    exec (.ftst o) s = .next ((s.begun (.ftst o) g).told (g.begun (.ftst o)) o (futureVal g o)) :=
  runOp_ok ((futureWord_slot w rfl hb hv hf hr).trans (tileReply_begun w _))

/-- FWT sleeps whatever its lookahead (log 58). -/
theorem exec_fwt_running (w : Acts s (.fwt o) g h) (hb : tlook (blkOfGrp s.cur.gk) s.blocks = some b) (hv : 2 ^ 63 ≤ futureVal g o)
    (hf : foreign s (tenantOf b.grid) (futureVal g o) = false) (hr : futureOf s (futureVal g o) = some (die, slot, none)) :
    exec (.fwt o) s = .next (s.after (.fwt o) g (g.sleeps (.future die slot (some (regNum o.data))) s.cycle)) :=
  runOp_ok ((futureWord_slot w rfl hb hv hf hr).trans (sleepOn_run w.issues.group))

theorem exec_fcan_running (w : Acts s (.fcan o) g h) (hb : tlook (blkOfGrp s.cur.gk) s.blocks = some b) (hv : 2 ^ 63 ≤ futureVal g o)
    (hf : foreign s (tenantOf b.grid) (futureVal g o) = false) (hr : futureOf s (futureVal g o) = some (die, slot, none))
    (hj : tlook slot (s.die die).jobs = some j) : exec (.fcan o) s = runOp (do
      endJob die slot (j.status.getD jsCancelled)
      tileReply o (completion (j.status.getD jsCancelled) j.count)) (s.begun (.fcan o) g) := by
  refine runOp_of_run_eq ((futureWord_slot w rfl hb hv hf hr).trans (run_bind_ok (get_run _) ?_))
  simp only [begun_die, hj]

/-- Settles O26: what the handle says, and what each word does with a slot whose job goes on. -/
theorem futureWords : Obligations.FutureWords := by
  intro s g h b o
  dsimp only
  intro hb
  refine ⟨fun i hi w => ?ended, fun die slot hv hf hr => ⟨fun w => ?test, fun w => ?wait, fun j w hj => ?cancel⟩⟩
  case ended =>
    obtain ⟨act, hp, hexec, hcopies, hacquires⟩ := exec_futureForm hi
    have hrun := futureWord_run (act := act) w hp hb
    rw [hexec]
    refine ⟨fun hv => ?_, fun hv hf hr => ?_, fun die slot y hv hf hr => ?_⟩
    · rw [futureDone_value (v := futureVal g o) hv] at hrun
      exact runOp_ok (hrun.trans (tileReply_begun w _))
    · rw [futureDone_expired (v := futureVal g o) hv hf hr] at hrun
      exact runOp_ok (hrun.trans (tileReply_begun w _))
    · rw [futureDone_slot (v := futureVal g o) hv hf hr] at hrun
      refine ⟨fun hcan => ?_, fun hnot => ?_⟩
      · rw [hcopies _ _ _ _ hcan] at hrun
        exact runOp_ok (hrun.trans (tileReply_begun w _))
      · rw [hacquires _ _ _ _ hnot] at hrun
        obtain ⟨u, hu, hreply⟩ := acquireReply_begun w y
        exact ⟨u, hu, runOp_ok (hrun.trans hreply)⟩
  case test => exact exec_ftst_running w hb hv hf hr
  case wait => exact exec_fwt_running w hb hv hf hr
  case cancel =>
    rw [exec_fcan_running w hb hv hf hr hj]
    exact gives_of_run_eq rfl

end Sys2Proof.Machine
end

section
/-! CPY, GATH, SCAT and COLL (11_engines_futures.md R291, R296 to R301, R305). -/

namespace Sys2Proof.Machine

variable {s : State} {i : Instr} {g : Group} {h : Hdr} {b : Block} {q : Grid} {o : MWord} {x : Block4} {kind die slot t : Nat} {d : Die}
  {grid : Nat × Nat}

/-! What the beginning of a word leaves as it was -/

@[simp] theorem begun_futures : (g.begun i).futures = g.futures := by unfold Group.begun; split <;> rfl
@[simp] theorem cardsFull_begun : cardsFull (s.begun i g) die = cardsFull s die := by simp only [cardsFull, begun_die]
@[simp] theorem ownedEngines_begun (p : Nat) : ownedEngines (s.begun i g) p die kind = ownedEngines s p die kind := by
  simp only [ownedEngines, begun_part]
@[simp] theorem futureHandle_begun (gen : Nat) : futureHandle (s.begun i g) die slot gen t = futureHandle s die slot gen t := by
  simp only [futureHandle, begun_dev]

theorem agentOf_begun (hb : tlook (blkOfGrp s.cur.gk) s.blocks = some b) (hq : s.gridOf b.grid = some q) :
    (agentOf s.cur.gk).run (s.begun i g) = .ok ⟨.group s.cur.gk, b.grid, q.record.seq⟩ (s.begun i g) :=
  agentOf_run (by simp only [agentAt, begun_blocks, hb, Option.bind_eq_bind, Option.bind_some, begun_gridOf, hq])

/-! The slot and the job -/

/-- The die with the head of its free list taken for a job of a grid (R298). -/
def Die.taken (d : Die) (slot : Nat) (grid : Nat × Nat) : Die :=
  { d with
    fresh := if d.fresh < 16384 then d.fresh + 1 else d.fresh
    freed := if d.fresh < 16384 then d.freed else d.freed.tail
    slots := tset slot ⟨d.headGen slot, none, false, some grid⟩ d.slots }

/-- The die with a job last in the order of issue (R291). -/
def Die.issued (d : Die) (slot : Nat) (j : Job) : Die := { d with jobs := tset slot j d.jobs, issues := d.issues + 1 }

theorem takeSlot_run (hd : (s.die die).head = some slot) :
    (takeSlot die grid).run s = .ok (some (slot, (s.die die).headGen slot)) (s.withDie die ((s.die die).taken slot grid)) := by
  unfold Die.head at hd
  refine run_bind_ok (get_run _) ?_
  simp only [hd]
  rfl

/-- In a die of which a slot has been taken, a job goes into the table of jobs. -/
theorem issueJob_run (j : Job) : (modDie die (·.issued slot j)).run (s.withDie die (d.taken slot grid)) =
    .ok () (s.withDie die ((d.taken slot grid).issued slot j)) :=
  modDie_withDie (die_ne_of_slot (tlook_tset_same ..)) (die_ne_of_job (tlook_tset_same ..))

/-- The job that an engine word issues (R292, R300). -/
def jobOf (s : State) (g : Group) (b : Block) (q : Grid) (kind : Nat) (o : MWord) : Job :=
  let x := engineBlock g kind o
  { kind := kind, mode := o.off.toNat, regs := [x.a, x.b, x.c, x.d], evict := o.evict.toNat, gk := s.cur.gk
    core := coreOfGrp s.cur.gk, dst := regNum o.data, agent := ⟨.group s.cur.gk, b.grid, q.record.seq⟩
    tenant := tenantOf b.grid, gds := g.gens.ds, tds := g.gens.tds, num := (s.die (dieOfCore (coreOfGrp s.cur.gk))).issues
    before := (g.pend.filter fun p => !p.spans.isEmpty).map (·.id) }

/-- The group with the handle of a future in a data register under a hold (R295, R297). -/
def Group.withFuture (g : Group) (dst die slot v : Nat) : Group :=
  let g' := g.setScalar dst (BitVec.ofNat 64 v)
  { g' with holds := (dst, die, slot) :: g'.holds, futures := g'.futures + 1 }

/-! The checks -/

/-- Nothing stands against the register block of an engine word (R301 to R305). -/
structure BlockLegal (s : State) (h : Hdr) (t die : Nat) (x : Block4) : Prop where
  allowed : engineAllowed s t x
  fields : x.bad = none
  owned : (ownedEngines s (s.partOf t) die x.kind).isEmpty = false
  ranges : ∀ r ∈ x.ranges, rangeInvalid h r.2.1 r.2.2 = false
  aligns : ∀ r ∈ x.aligns, r.1 % r.2 = 0

theorem BlockLegal.no_range (w : BlockLegal s h t die x) : x.ranges.find? (fun r => rangeInvalid h r.2.1 r.2.2) = none :=
  List.find?_eq_none.2 fun r hr => Bool.eq_false_iff.1 (w.ranges r hr)

theorem BlockLegal.no_align (w : BlockLegal s h t die x) : x.aligns.find? (fun r => r.1 % r.2 != 0) = none :=
  List.find?_eq_none.2 fun r hr => by simp only [w.aligns r hr, bne_self_eq_false, Bool.false_eq_true, not_false_eq_true]

theorem engineAllowed_mode (ha : engineAllowed s t x) : ¬(decide (x.kind = 3) && decide (x.op = 0) && bitOf x.mode 0) = true := by
  obtain ⟨-, hmode⟩ := ha
  simpa only [Bool.and_eq_true, decide_eq_true_eq, and_assoc] using hmode

/-- COLL whose reduction is FADDD needs its feature group, which the partition has. -/
theorem collFeature_run (hg : tlook s.cur.gk s.groups = some g) (hb : tlook (blkOfGrp s.cur.gk) s.blocks = some b)
    (ha : engineAllowed s (tenantOf b.grid) (engineBlock g 3 o)) : (collFeature (regNum o.base)).run s = .ok () s := by
  obtain ⟨hfeature, -⟩ := ha
  refine run_bind_ok (self_run hg) ?_
  rw [ite_run]
  split
  case isTrue hc =>
    obtain ⟨-, hop⟩ := (Bool.and_eq_true _ _).mp hc
    exact needFeature_run hb (hfeature rfl (of_decide_eq_true hop))
  case isFalse => rfl

/-- A check of a word that nothing stands against: what follows it goes on in the same state. -/
theorem check_run {p : Prop} [Decidable p] {m : Op Unit} {k : Unit → Op Unit} {r : EStateM.Result Stop State Unit}
    (hm : p → m.run s = .ok () s) (hk : (k ()).run s = r) : (if p then m >>= k else k ()).run s = r := by
  split
  case isTrue hp => exact run_bind_ok (hm hp) hk
  case isFalse => exact hk

/-! The word -/

/-- The four registers that an engine word reads, as it reads them, are its register block. -/
theorem blockOfRegs_scalars :
    (let regs := (List.range 4).map fun n => (g.scalar (regNum o.base + n)).toNat
     (⟨kind, o.off.toNat, regs.getD 0 0, regs.getD 1 0, regs.getD 2 0, regs.getD 3 0⟩ : Block4)) = engineBlock g kind o := rfl

theorem modSelf_withDie (w : Issues s i g h) (d : Die) (f : Group → Group) : (modSelf f).run ((s.begun i g).withDie die d) =
    .ok () { s.after i g (f (g.begun i)) with dies := tput {} s.dies die d } := by
  have hgk : ((s.begun i g).withDie die d).cur.gk = s.cur.gk := begun_gk
  rw [modSelf_run (g := g.begun i) f (by rw [hgk]; exact begun_group w.group), hgk, State.withDie, begun_dies]
  rfl

/-- The state with a job of the current group issued: its slot taken, its place in the order of issue, its handle in the group. -/
def State.jobIssued (s : State) (i : Instr) (g : Group) (b : Block) (q : Grid) (kind slot : Nat) (o : MWord) : State :=
  let die := dieOfCore (coreOfGrp s.cur.gk)
  let d := s.die die
  let g' := (g.begun i).withFuture (regNum o.data) die slot (futureHandle s die slot (d.headGen slot) (tenantOf b.grid))
  { s.after i g g' with dies := tput {} s.dies die ((d.taken slot (b.grid, q.record.seq)).issued slot (jobOf s g b q kind o)) }

/-- An engine word with an active lane, a legal block, fewer than 64 futures before it, room for its card and a free slot. -/
theorem engineWord_run (w : Issues s i g h) (hb : tlook (blkOfGrp s.cur.gk) s.blocks = some b) (hq : s.gridOf b.grid = some q)
    (hm : s.activeOf g o.pred.toNat ≠ 0)
    (hx : BlockLegal s h (tenantOf b.grid) (dieOfCore (coreOfGrp s.cur.gk)) (engineBlock g kind o)) (hn : g.futures < 64)
    (hroom : cardsFull s (dieOfCore (coreOfGrp s.cur.gk)) = false) (hslot : (s.die (dieOfCore (coreOfGrp s.cur.gk))).head = some slot) :
    (engineWord i kind o).run s = .ok () (s.jobIssued i g b q kind slot o) := by
  have howned : (ownedEngines s (s.partOf (tenantOf b.grid)) (dieOfCore (coreOfGrp s.cur.gk)) kind).isEmpty = false := hx.owned
  have htake := takeSlot_run (s := s.begun i g) (grid := (b.grid, q.record.seq)) ((congrArg Die.head (begun_die _)).trans hslot)
  rw [begun_die] at htake
  refine run_bind_ok (activeMask_run _ w.group) (check_run (fun hc => ?feature) (run_bind_ok (legal_run w) (check_run (absurd · hm) ?rest)))
  case feature =>
    obtain ⟨hk, -⟩ := (Bool.and_eq_true _ _).mp hc
    obtain rfl := of_decide_eq_true hk
    exact collFeature_run w.group hb hx.allowed
  case rest =>
    refine run_bind_ok (get_run _) (run_bind_ok (self_begun w) (run_bind_ok (selfHdr_begun w) (run_bind_ok (selfTenant_begun hb) ?_)))
    simp only [begun_scalar, begun_gk, begun_futures, begun_partOf, ownedEngines_begun, cardsFull_begun, begun_die, begun_gens, begun_pend,
      futureHandle_begun, blockOfRegs_scalars, hx.fields, hx.no_range, hx.no_align, howned, Nat.not_le.2 hn, hroom, if_false, Bool.false_eq_true]
    refine check_run (absurd · (engineAllowed_mode hx.allowed)) (run_bind_ok (agentOf_begun hb hq) ?_)
    exact run_bind_ok htake (run_bind_ok (issueJob_run _) (modSelf_withDie w _ _))

/-- An engine word by the kind of its job. -/
theorem exec_engineForm (hi : engineForm i = some (kind, o)) : exec i s = runOp (engineWord i kind o) s := by
  unfold engineForm at hi
  split at hi <;> cases hi <;> rfl

/-- Settles O23: the block passes its checks, the die's first free slot is taken, and the job issued in it. -/
theorem engineWordIssuesJob : Obligations.EngineWordIssuesJob := by
  intro s g h b q i kind slot o
  dsimp only
  intro hi w hb hq hm hallowed hfields howned hranges haligns hn hroom hslot
  rw [exec_engineForm hi]
  exact runOp_ok (engineWord_run w hb hq hm ⟨hallowed, hfields, howned, hranges, haligns⟩ hn hroom hslot)

end Sys2Proof.Machine
end

section
/-! What every step leaves: no unsafe latch, and no error without its record (12_groups_progress.md R319, R320; 16_recovery.md R458). -/

namespace Sys2Proof.Machine

variable {s t u : State}

/-! The end of a step -/

/-- A latch that a core keeps at the end of a step is safe. -/
theorem keepLatches_safe (k : Core) : ∀ e ∈ (Core.keepLatches s t k).latches, latchSafe t e.2 = true := by
  intro e he
  unfold Core.keepLatches at he
  split at he
  case isTrue hempty => exact absurd (List.isEmpty_iff.1 hempty ▸ he) List.not_mem_nil
  case isFalse => exact latchKept_safe (List.mem_filter.1 he).2

theorem latchesSafe_closeStep : (closeStep s t).latchesSafe = true := by
  refine List.all_eq_true.2 fun c hc => List.all_eq_true.2 fun e he => ?_
  obtain ⟨c', -, rfl⟩ := List.mem_map.1 hc
  exact keepLatches_safe c'.2 e he

theorem inv_closeStep : (closeStep s t).Inv := ⟨latchesSafe_closeStep, rfl⟩

theorem follow_eq_closeStep (s t : State) : ∃ u, follow s t = .next (closeStep s u) := by
  unfold follow
  split <;> exact ⟨_, rfl⟩

/-- A step that answers a next state ends with `closeStep`. -/
theorem step_ends (h : step s = .next t) : ∃ v u, t = closeStep v u := by
  unfold step at h
  dsimp only at h
  split at h
  case h_1 s2 _ =>
    obtain ⟨u, hu⟩ := follow_eq_closeStep (passed (nextTurn s).1.dt (nextTurn s).2) s2
    rw [hu] at h
    injection h with h
    exact ⟨_, u, h.symm⟩
  case h_2 hnext => exact absurd h (hnext t)

/-- Settles O59: after a reset no core has a latch, and no error is noted. -/
theorem invAtReset : Obligations.InvAtReset := ⟨rfl, rfl⟩

/-- Settles O60: whatever the step did, its end drops the latches that are no longer safe, and empties the list of errors. -/
theorem stepKeepsInv : Obligations.StepKeepsInv := by
  intro s t _ hstep
  obtain ⟨v, u, rfl⟩ := step_ends hstep
  exact inv_closeStep

end Sys2Proof.Machine
end

section
/-! YIELD, QUOTA.GIVE and QUOTA.TAKE (12_groups_progress.md R337, R338; 13_control_sync_ops.md R358, R365). -/

namespace Sys2Proof.Machine

variable {s : State} {g : Group} {h : Hdr} {b : Block} {p : BitVec 3} {i : Instr}

/-! The beginning of a word with an active lane -/

/-- A word with an active lane goes on with its effect on its active lanes. -/
theorem acts_mask_run (w : Acts s i g h) {q : Nat} (hq : predOf i = q) {r : EStateM.Result Stop State Unit} {m : Mask → Op Unit}
    (hm : (m (s.activeOf g q)).run (s.begun i g) = r) : (do
      legal i
      let x ← activeMask q
      if x = 0 then finish
      m x : Op Unit).run s = r := by
  subst hq
  refine run_bind_ok (legal_run w.issues) (run_bind_ok (activeMask_begun w.issues _) ?_)
  simp only [w.some', if_false]
  exact hm

/-- A word whose effect does not name its lanes goes on with it. -/
theorem acts_run (w : Acts s i g h) {q : Nat} (hq : predOf i = q) {r : EStateM.Result Stop State Unit} {m : Op Unit}
    (hm : m.run (s.begun i g) = r) : (do
      legal i
      if (← activeMask q) = 0 then finish
      m : Op Unit).run s = r := acts_mask_run w hq hm

theorem gives_of_eq {m : Op Unit} {u : State} {x : Host.Outcome State Fault Refusal} (hx : x = runOp m u) : u.gives m x := hx ▸ gives_runOp m u

/-! The pool's queue -/

theorem wake_awake {gk cause : Nat} (hg : tlook gk s.groups = some g) (ha : g.asleep = none) : (wake gk cause).run s = .ok () s := by
  refine run_bind_ok (get_run _) ?_
  simp only [hg, ha, pure_run]

theorem serveTakes_empty {bk n : Nat} (hb : tlook bk s.blocks = some b) (ht : b.takes = []) : (serveTakes bk n).run s = .ok () s := by
  cases n with
  | zero => rfl
  | succ n =>
    refine run_bind_ok (get_run _) ?_
    simp only [hb, ht, pure_run]

/-- The first of the queue gets its units where the pool holds them, and the queue is served on. -/
theorem serveTakes_first {bk gi n fuel : Nat} {rest : List (Nat × Nat)} (hb : tlook bk s.blocks = some b) (ht : b.takes = (gi, n) :: rest)
    (hn : n ≤ b.pool.length) (hg : tlook (bk * 64 + gi) s.groups = some g) (ha : g.asleep = none) :
    (serveTakes bk (fuel + 1)).run s = (serveTakes bk fuel).run { s with
      blocks := tset bk { b with pool := b.pool.drop n, takes := rest } s.blocks
      groups := tset (bk * 64 + gi) { g with units := g.units ++ b.pool.take n } s.groups } := by
  refine run_bind_ok (get_run _) ?_
  simp only [hb, ht, hn, decide_true, Bool.true_or, if_true]
  exact run_bind_ok (putBlock_run ..) (run_bind_ok (modGroup_run _ hg) (run_bind_ok (wake_awake (tlook_tset_same ..) ha) rfl))

/-! The words -/

theorem exec_yield {n : BitVec 16} (w : Acts s (.yield p n) g h) : exec (.yield p n) s = .next (s.after (.yield p n) g { g with
    yieldTill := if n = 0 then 0 else s.cycle + n.toNat + 1, yielded := n = 0 }) := by
  refine runOp_ok (acts_run w rfl (run_bind_ok (get_run _) ?_))
  rw [modSelf_begun w.issues, begun_cycle, group_begun_plain rfl]

/-- No outstanding word that writes a unit from `keep` on: QUOTA.GIVE does not wait. -/
theorem no_top_writer {keep : Nat} (hfree : ∀ x ∈ g.pend, ∀ r, 8 * keep ≤ r → RKey.v r ∉ x.wr ∧ RKey.v r ∉ x.kept) (top : RKey → Bool)
    (htop : ∀ k, top k = true → ∃ r, k = .v r ∧ 8 * keep ≤ r) : ¬(g.pend.any fun x => x.wr.any top || x.kept.any top) = true := by
  simp only [List.any_eq_true, Bool.or_eq_true, not_exists, not_and, not_or]
  intro x hx
  constructor
  · intro k hk ht
    obtain ⟨r, rfl, hr⟩ := htop k ht
    exact (hfree x hx r hr).1 hk
  · intro k hk ht
    obtain ⟨r, rfl, hr⟩ := htop k ht
    exact (hfree x hx r hr).2 hk

theorem exec_quotaGive {n : BitVec 5} (w : Acts s (.quotaGive p n) g h) (hfree : ∀ x ∈ g.pend, ∀ r, 8 * (g.units.length - n.toNat) ≤ r →
    RKey.v r ∉ x.wr ∧ RKey.v r ∉ x.kept) : exec (.quotaGive p n) s = runOp (do
      poolUnits (blkOfGrp s.cur.gk) g.width (g.units.drop (g.units.length - n.toNat))
      serveTakes (blkOfGrp s.cur.gk) 65) (s.after (.quotaGive p n) g { g.begun (.quotaGive p n) with
        units := g.units.take (g.units.length - n.toNat) }) := by
  refine runOp_of_run_eq (acts_run w rfl (run_bind_ok (get_run _) (run_bind_ok (self_begun w.issues) ?_)))
  simp only [begun_gk, begun_units, begun_pend, begun_width]
  rw [if_neg (no_top_writer hfree _ fun k hk => ?top)]
  case top =>
    cases k with
    | v r => exact ⟨r, rfl, of_decide_eq_true hk⟩
    | _ => cases hk
  exact run_bind_ok (modSelf_begun w.issues _) rfl

theorem exec_quotaTake {n : BitVec 5} (w : Acts s (.quotaTake p n) g h) (hb : tlook (blkOfGrp s.cur.gk) s.blocks = some b) :
    exec (.quotaTake p n) s = runOp (serveTakes (blkOfGrp s.cur.gk) 65) { s.after (.quotaTake p n) g ((g.begun (.quotaTake p n)).sleeps .units s.cycle) with
      blocks := tset (blkOfGrp s.cur.gk) { b with takes := b.takes ++ [(s.cur.gk % 64, n.toNat)] } s.blocks } := by
  refine runOp_of_run_eq (acts_run w rfl (run_bind_ok (get_run _) ?_))
  rw [begun_gk]
  refine run_bind_ok (modBlock_run _ (by rwa [begun_blocks])) (run_bind_ok (sleepOn_run (g := g.begun (.quotaTake p n)) ?_) ?_)
  · rw [begun_gk]
    exact begun_group w.issues.group
  · simp only [begun_gk, begun_cycle, begun_blocks]
    rfl

/-- Settles O35: each word by its own equation, and the pool's queue by its first. -/
theorem yieldAndQuota : Obligations.YieldAndQuota := by
  refine ⟨fun s g h p => ⟨fun n w => exec_yield w, fun n w hfree => gives_of_eq (exec_quotaGive w hfree),
    fun n b w hb => gives_of_eq (exec_quotaTake w hb)⟩, fun s g b bk gi n hb ht hn hg ha => leaves_of_run ?_⟩
  rw [serveTakes_first hb ht hn hg ha, serveTakes_empty (tlook_tset_same ..) rfl]

end Sys2Proof.Machine
end

section
/-! Register-mapped queues: QPUSH, QPOP, QCLOSE, QSTAT and QBIND (12_groups_progress.md R330 to R334; 13_control_sync_ops.md R356, R357). -/

namespace Sys2Proof.Machine

variable {s : State} {g : Group} {h : Hdr} {b : Block} {p q : BitVec 3} {d : BitVec 6} {src : Reg} {dst : Dst} {i : Instr}

/-! The common start -/

@[simp] theorem begun_binding (j : Nat) : (g.begun i).binding j = g.binding j := by unfold Group.binding; rw [begun_ctl]

/-- The start of a word on a bound queue answers its lanes and the binding's entry. -/
theorem queueStart_bound (w : Acts s i g h) (hp : predOf i = p.toNat) (hb : bitOf (g.binding q.toNat) 63 = true) :
    (queueStart i p q).run s = .ok (s.activeOf g p.toNat, g.binding q.toNat % 2 ^ 32) (s.begun i g) := by
  refine run_bind_ok (legal_run w.issues) (run_bind_ok (activeMask_begun w.issues _) ?_)
  rw [← hp]
  simp only [w.some', if_false]
  refine run_bind_ok (self_begun w.issues) ?_
  simp only [begun_binding, hb, Bool.not_true, Bool.false_eq_true, if_false, pure_run]

/-- That of a word on an unbound queue raises Queue Unbound. -/
theorem queueStart_unbound {rest : Mask × Nat → Op Unit} (w : Acts s i g h) (hp : predOf i = p.toNat) (hb : bitOf (g.binding q.toNat) 63 = false) :
    (queueStart i p q >>= rest).run s = (raise 0x0F (BitVec.ofNat 64 q.toNat) : Op Unit).run (s.begun i g) := by
  have hstart : (queueStart i p q).run s = (raise 0x0F (BitVec.ofNat 64 q.toNat) : Op (Mask × Nat)).run (s.begun i g) := by
    refine run_bind_ok (legal_run w.issues) (run_bind_ok (activeMask_begun w.issues _) ?_)
    rw [← hp]
    simp only [w.some', if_false]
    refine run_bind_ok (self_begun w.issues) ?_
    simp only [begun_binding, hb, Bool.not_false, if_true]
    rfl
  rw [bind_run, hstart]
  rfl

theorem awaitAccesses_begun (w : Issues s i g h) (hq : g.accessing = false) : awaitAccesses.run (s.begun i g) = .ok () (s.begun i g) := by
  refine awaitAccesses_run (g := g.begun i) (by rw [begun_gk]; exact begun_group w.group) ?_
  unfold Group.accessing
  rw [begun_pend]
  exact hq

theorem pushData_begun (gk : Nat) (m : Mask) (z : Nat) (src : Reg) :
    pushData (s.begun i g) gk (g.begun i) m z src = pushData s gk g m z src := by
  cases src with
  | lane v => simp only [pushData, begun_width, elemAt_begun, elemAt_group_begun]
  | sreg k => simp only [pushData, begun_scalar]
  | const k => rfl

/-! Push, pop and close -/

theorem exec_queuePush (w : Acts s (.queuePush p q src) g h) (hb : bitOf (g.binding q.toNat) 63 = true) (hq : g.accessing = false)
    (hr : s.readable g (((lanesOf g.width (s.activeOf g p.toNat)).filter (· < (ringOf (g.binding q.toNat % 2 ^ 32)).size / 4)).flatMap fun l =>
      regElems 4 l src)) : exec (.queuePush p q src) s = runOp (queueStep ⟨s.cur.gk, 0, s.cur.pc, s.cur.slotB, s.activeOf g p.toNat, none,
        pushData s s.cur.gk g (s.activeOf g p.toNat) (ringOf (g.binding q.toNat % 2 ^ 32)).size src, g.binding q.toNat % 2 ^ 32⟩)
      (s.begun (.queuePush p q src) g) := by
  have helems := checkElems_run (by rw [begun_gk]; exact begun_group w.issues.group) (readable_group_begun (i := .queuePush p q src) (g' := g) hr)
  refine runOp_of_run_eq (run_bind_ok (queueStart_bound w rfl hb) (run_bind_ok (get_run _) (run_bind_ok (self_begun w.issues) ?_)))
  rw [begun_width]
  refine run_bind_ok helems (run_bind_ok (awaitAccesses_begun w.issues hq) ?_)
  rw [begun_gk, begun_pc, begun_slotB, pushData_begun]

theorem exec_queuePop (w : Acts s (.queuePop p dst q) g h) (hb : bitOf (g.binding q.toNat) 63 = true) : exec (.queuePop p dst q) s =
    runOp (queueStep ⟨s.cur.gk, 1, s.cur.pc, s.cur.slotB, s.activeOf g p.toNat, some dst, 0, g.binding q.toNat % 2 ^ 32⟩)
      (s.begun (.queuePop p dst q) g) := by
  refine runOp_of_run_eq (run_bind_ok (queueStart_bound w rfl hb) (run_bind_ok (get_run _) ?_))
  simp only [begun_gk, begun_pc, begun_slotB]

theorem exec_qclose (w : Acts s (.qclose p q) g h) (hb : bitOf (g.binding q.toNat) 63 = true) (hq : g.accessing = false) :
    exec (.qclose p q) s = runOp (queueStep ⟨s.cur.gk, 2, s.cur.pc, s.cur.slotB, s.activeOf g p.toNat, none, 0, g.binding q.toNat % 2 ^ 32⟩)
      (s.begun (.qclose p q) g) := by
  refine runOp_of_run_eq (run_bind_ok (queueStart_bound w rfl hb) (run_bind_ok (awaitAccesses_begun w.issues hq) (run_bind_ok (get_run _) ?_)))
  simp only [begun_gk, begun_pc, begun_slotB]

/-- A push, a pop or a close of an unbound queue. -/
theorem exec_unbound (hi : i = .queuePush p q src ∨ i = .queuePop p dst q ∨ i = .qclose p q) (w : Acts s i g h)
    (hb : bitOf (g.binding q.toNat) 63 = false) : exec i s = runOp (raise 0x0F (BitVec.ofNat 64 q.toNat)) (s.begun i g) := by
  obtain rfl | rfl | rfl := hi
  · exact runOp_of_run_eq (queueStart_unbound w rfl hb)
  · exact runOp_of_run_eq (queueStart_unbound w rfl hb)
  · exact runOp_of_run_eq (queueStart_unbound w rfl hb)

/-! QSTAT and QBIND -/

/-- What QSTAT reads: 0 of an unbound queue, else the entry, the ring's count, its CLOSED and BOUND. -/
def queueStatus (lc : LocalCtx) (s : State) (e : Nat) : Nat :=
  if bitOf e 63 then
    e % 2 ^ 32 + ringCount lc s (ringOf (e % 2 ^ 32)) % 256 * 2 ^ 32 + b2n (ringClosed lc s (ringOf (e % 2 ^ 32))) * 2 ^ 40 + 2 ^ 41
  else 0

theorem exec_qstat (w : Acts s (.qstat p d q) g h) (hb : tlook (blkOfGrp s.cur.gk) s.blocks = some b) : exec (.qstat p d q) s =
    .next (s.after (.qstat p d q) g (g.setScalar d.toNat (BitVec.ofNat 64
      (queueStatus ⟨s.cur.gk, g.begun (.qstat p d q), b, h⟩ (s.begun (.qstat p d q) g) (g.binding q.toNat))))) := by
  refine runOp_ok (acts_run w rfl (run_bind_ok (self_begun w.issues) (run_bind_ok (get_run _) ?_)))
  rw [begun_gk]
  refine run_bind_ok (localCtx_begun w.issues hb) (run_bind_ok (get_run _) ?_)
  rw [modSelf_begun w.issues, begun_binding, group_begun_plain rfl]
  rfl

/-- The entry that QBIND binds. -/
def boundEntry (g : Group) (x : QEntry) : Nat :=
  match x with
  | .imm y => y.toNat
  | .reg m => (g.scalar m.toNat).toNat % 2 ^ 32

/-- The bytes of the space in which the ring of an entry lies, and the offset in it at which the ring ends. -/
def ringRoom (h : Hdr) (entry : Nat) : Nat := if bitOf entry 31 then 4 * h.qmem * 16384 else h.scratch * 4096
def ringEnd (entry : Nat) : Nat := offOf (ringOf entry).base + 64 + (ringOf entry).slots * (ringOf entry).size

/-- The group with a queue bound to a ring. -/
def Group.bind (g : Group) (j entry : Nat) : Group :=
  { g with ctl := tput 0 g.ctl (80 + 2 * j) (BitVec.ofNat 64 (2 ^ 63 + entry)) }

/-- The trap of a ring that its space does not hold. -/
def ringFault (h : Hdr) (entry : Nat) : Op Unit := raise 0x02 (BitVec.ofNat 64 (spaceOf (ringOf entry).base * 2 ^ 56 + ringRoom h entry))

theorem boundEntry_begun (x : QEntry) : boundEntry (g.begun i) x = boundEntry g x := by
  cases x with
  | imm y => rfl
  | reg m => simp only [boundEntry, begun_scalar]

/-- QBIND after its reads. -/
theorem exec_qbind {x : QEntry} (w : Acts s (.qbind p q x) g h) : exec (.qbind p q x) s = runOp (do
    if ringRoom h (boundEntry g x) < ringEnd (boundEntry g x) then ringFault h (boundEntry g x)
    modSelf fun g' => g'.bind q.toNat (boundEntry g x)) (s.begun (.qbind p q x) g) := by
  refine runOp_of_run_eq (acts_run w rfl (run_bind_ok (selfHdr_begun w.issues) (run_bind_ok (self_begun w.issues) ?_)))
  rw [← boundEntry_begun (i := .qbind p q x)]
  rfl

theorem exec_qbind_fits {x : QEntry} (w : Acts s (.qbind p q x) g h) (hx : ¬ringRoom h (boundEntry g x) < ringEnd (boundEntry g x)) :
    exec (.qbind p q x) s = .next (s.after (.qbind p q x) g ((g.begun (.qbind p q x)).bind q.toNat (boundEntry g x))) := by
  rw [exec_qbind w, if_neg hx]
  exact runOp_ok (modSelf_begun w.issues _)

theorem exec_qbind_beyond {x : QEntry} (w : Acts s (.qbind p q x) g h) (hx : ringRoom h (boundEntry g x) < ringEnd (boundEntry g x)) :
    exec (.qbind p q x) s = runOp (ringFault h (boundEntry g x)) (s.begun (.qbind p q x) g) := by
  rw [exec_qbind w, if_pos hx]
  rfl

/-- Settles O34: each word by its own equation. -/
theorem queueWords : Obligations.QueueWords := by
  intro s g h b p q src dst d
  exact ⟨fun hb => ⟨fun w hq hr => gives_of_eq (exec_queuePush w hb hq hr), fun w => gives_of_eq (exec_queuePop w hb),
    fun w hq => gives_of_eq (exec_qclose w hb hq)⟩, fun hb i hi w => exec_unbound hi w hb, fun w hblk => exec_qstat w hblk,
    fun x w => ⟨exec_qbind_fits w, exec_qbind_beyond w⟩⟩

end Sys2Proof.Machine
end

section
/-! Operations that leave a part of the state as it is. -/

namespace Sys2Proof.Machine

variable {α β γ δ : Type} {part : State → γ} {s t : State}

/-- Where the operation answers, a part of the state is what it was. -/
def Fixes (part : State → γ) (m : Op α) : Prop := ∀ s a t, m.run s = .ok a t → part t = part s

theorem fixes_pure (a : α) : Fixes part (pure a : Op α) := by
  rintro s _ _ ⟨⟩
  rfl

theorem fixes_get : Fixes part (get : Op State) := by
  rintro s _ _ ⟨⟩
  rfl

theorem fixes_modify {f : State → State} (hf : ∀ s, part (f s) = part s) : Fixes part (modify f : Op PUnit) := by
  rintro s _ _ ⟨⟩
  exact hf s

theorem fixes_bind {m : Op α} {f : α → Op β} (hm : Fixes part m) (hf : ∀ a, Fixes part (f a)) : Fixes part (m >>= f) := by
  intro s b u hu
  obtain ⟨a, t, ht, hrest⟩ := bind_run_ok hu
  exact (hf a t b u hrest).trans (hm s a t ht)

theorem fixes_ite {p : Prop} [Decidable p] {m n : Op α} (hm : Fixes part m) (hn : Fixes part n) : Fixes part (if p then m else n) := by
  split
  · exact hm
  · exact hn

theorem fixes_forM {f : α → Op PUnit} (hf : ∀ a, Fixes part (f a)) (l : List α) : Fixes part (l.forM f) := by
  induction l with
  | nil => exact fixes_pure _
  | cons a l ih => exact fixes_bind (hf a) fun _ => ih

/-- What an operation leaves as it is, is left so with all that it determines. -/
theorem Fixes.mono {m : Op α} {part' : State → δ} (h : Fixes part m) (hp : ∀ s t, part t = part s → part' t = part' s) : Fixes part' m :=
  fun s a t ht => hp s t (h s a t ht)

end Sys2Proof.Machine
end

section
/-! Wakes leave the word in progress and the places of blocks as they are (12_groups_progress.md R339, R340; 16_recovery.md R435). -/

namespace Sys2Proof.Machine

/-- The word in progress, and the resident blocks. -/
def State.scene (s : State) : Ctx × Tab Block := (s.cur, s.blocks)

theorem scene_putGroup (gk : Nat) (g : Group) : Fixes State.scene (putGroup gk g) := fixes_modify fun _ => rfl

theorem scene_modGroup (gk : Nat) (f : Group → Group) : Fixes State.scene (modGroup gk f) := by
  refine fixes_bind fixes_get fun s => ?_
  split
  · exact scene_putGroup _ _
  · exact fixes_pure _

theorem scene_flushChain (gk : Nat) (ch : Chain) : Fixes State.scene (flushChain gk ch) :=
  fixes_bind fixes_get fun _ => fixes_bind fixes_get fun _ => fixes_bind (fixes_modify fun _ => rfl) fun _ => fixes_pure _

theorem scene_trapChain (gk : Nat) : Fixes State.scene (trapChain gk) := by
  refine fixes_bind fixes_get fun s => ?_
  split
  · exact fixes_pure _
  · exact fixes_bind (scene_modGroup _ _) fun _ => fixes_ite (scene_modGroup _ _) (fixes_bind (scene_flushChain _ _) fun _ => fixes_pure _)

theorem scene_tryEnter (gk : Nat) : Fixes State.scene (tryEnter gk) := by
  have henter (entry : W64) (x : TrapInfo) (list : List Recorded) : Fixes State.scene (enterHandler gk entry x list) :=
    fixes_bind fixes_get fun _ => scene_modGroup _ _
  refine fixes_bind fixes_get fun s => ?_
  dsimp only
  split
  · split
    · refine fixes_ite (fixes_bind (scene_trapChain _) fun _ => fixes_bind fixes_get fun _ => ?_) (fixes_pure _)
      exact fixes_ite (henter _ _ _) (fixes_pure _)
    · exact fixes_pure _
  · exact fixes_pure _

theorem scene_coreWakes (c cause grp : Nat) : Fixes State.scene (coreWakes c cause grp) := by
  refine fixes_bind fixes_get fun s => fixes_ite ?_ (fixes_modify fun _ => rfl)
  exact fixes_bind (fixes_modify fun _ => rfl) fun _ => fixes_modify fun _ => rfl

theorem scene_wake (gk cause : Nat) : Fixes State.scene (wake gk cause) := by
  refine fixes_bind fixes_get fun s => ?_
  split
  · exact fixes_pure _
  split
  · exact fixes_pure _
  have hend (trapping : Bool) : Fixes State.scene (do
      coreWakes (coreOfGrp gk) cause (gk % 64)
      if trapping then tryEnter gk) := fixes_bind (scene_coreWakes _ _ _) fun _ => fixes_ite (scene_tryEnter _) (fixes_pure _)
  refine fixes_bind (scene_putGroup _ _) fun _ => ?_
  cases tlook (blkOfGrp gk) s.blocks with
  | some b => exact fixes_bind (fixes_modify fun _ => rfl) fun _ => hend _
  | none => exact hend _

theorem scene_wakeAll (f : Nat → Group → Wait → Bool) : Fixes State.scene (wakeAll f) := by
  refine fixes_bind fixes_get fun s => fixes_forM (fun e => ?_) _
  dsimp only
  split
  · exact fixes_ite (scene_wake _ _) (fixes_pure _)
  · exact fixes_pure _

theorem scene_acquireCore (c : Nat) : Fixes State.scene (acquireCore c) := fun s a t ht => by
  obtain ⟨cs, qs, hrun⟩ := acquireCore_run c s
  cases hrun.symm.trans ht
  rfl

end Sys2Proof.Machine
end

section
/-! BARA, BARS and BARW (12_groups_progress.md R335, R336; 13_control_sync_ops.md R355). -/

namespace Sys2Proof.Machine

variable {s t : State} {g : Group} {h : Hdr} {b : Block} {p : BitVec 3} {lvl : BarLevel} {n : BitVec 4} {i : Instr} {bk k me : Nat}

/-! The end of a phase -/

theorem answers_modBlock (bk : Nat) (f : Block → Block) : Answers (modBlock bk f) := fun s => by
  cases hb : tlook bk s.blocks with
  | none => exact ⟨_, _, modBlock_absent f hb⟩
  | some b => exact ⟨_, _, modBlock_run f hb⟩

theorem answers_putBarrier (bk l k : Nat) (b : Block) (x : Barrier) : Answers (putBarrier bk l k b x) := by
  unfold putBarrier
  split
  · exact answers_modBlock _ _
  · exact answers_modQuad _ _
  · exact answers_modGrid _ _
  · exact answers_modGrid _ _
  · exact answers_modGrid _ _

theorem answers_checkPhase (bk l k : Nat) : Answers (checkPhase bk l k) := by
  refine answers_bind answers_get fun s => ?_
  split
  · exact answers_pure _
  split
  · exact answers_pure _
  refine answers_ite ?_ (answers_pure _)
  refine answers_bind (answers_putBarrier _ _ _ _ _) fun _ => answers_bind answers_get fun t => answers_bind (answers_forM (fun e => ?_) _) fun _ =>
    answers_wakeAll _
  dsimp only
  split
  · exact answers_ite (answers_acquireCore _) (answers_pure _)
  · exact answers_pure _

/-- The word in progress, and whether a block is resident. -/
def State.seat (bk : Nat) (s : State) : Ctx × Bool := (s.cur, (tlook bk s.blocks).isSome)

theorem seat_of_scene {α : Type} {m : Op α} (hm : Fixes State.scene m) (bk : Nat) : Fixes (State.seat bk) m :=
  hm.mono fun s t h => by
    obtain ⟨hcur, hblocks⟩ := Prod.mk.inj h
    simp only [State.seat, hcur, hblocks]

theorem seat_modBlock (bk k : Nat) (f : Block → Block) : Fixes (State.seat bk) (modBlock k f) := by
  intro s _ t ht
  cases hb : tlook k s.blocks with
  | none =>
    rw [modBlock_absent f hb] at ht
    cases ht
    rfl
  | some b =>
    rw [modBlock_run f hb] at ht
    cases ht
    unfold State.seat
    by_cases hk : bk = k
    · rw [hk, tlook_tset_same, hb]
      rfl
    · rw [tlook_tset_other hk]

theorem seat_putBarrier (bk l k : Nat) (b : Block) (x : Barrier) : Fixes (State.seat bk) (putBarrier bk l k b x) := by
  unfold putBarrier
  split
  · exact seat_modBlock _ _ _
  · exact fixes_modify fun _ => rfl
  · exact fixes_modify fun _ => rfl
  · exact fixes_modify fun _ => rfl
  · exact fixes_modify fun _ => rfl

theorem seat_checkPhase (bk l k : Nat) : Fixes (State.seat bk) (checkPhase bk l k) := by
  refine fixes_bind fixes_get fun s => ?_
  split
  · exact fixes_pure _
  split
  · exact fixes_pure _
  refine fixes_ite ?_ (fixes_pure _)
  refine fixes_bind (seat_putBarrier _ _ _ _ _) fun _ => fixes_bind fixes_get fun t => fixes_bind (fixes_forM (fun e => ?_) _) fun _ =>
    seat_of_scene (scene_wakeAll _) _
  dsimp only
  split
  · exact fixes_ite (seat_of_scene (scene_acquireCore _) _) (fixes_pure _)
  · exact fixes_pure _

/-- Where no group sleeps, none wakes. -/
theorem wakeAll_awake (f : Nat → Group → Wait → Bool) (ha : ∀ e ∈ s.groups, e.2.asleep = none) : (wakeAll f).run s = .ok () s := by
  refine run_bind_ok (get_run _) (forM_inert fun e he => ?_)
  simp only [ha e he, pure_run]

/-- The phase of a block barrier ends when the block's only live group has arrived. -/
theorem checkPhase_alone {x : Grid} (hb : tlook bk s.blocks = some b) (hx : s.gridOf b.grid = some x) (hh : x.hdr = some h) (hl : b.live = [me])
    (hy : (tget {} b.bars k).arrived = [me]) (ha : ∀ e ∈ s.groups, e.2.asleep = none) : (checkPhase bk 0 k).run s = .ok () { s with
      blocks := tset bk { b with bars := tput {} b.bars k { arrived := [], phase := !(tget {} b.bars k).phase } } s.blocks } := by
  have hall : allArrived s bk 0 b h (tget {} b.bars k) = true := by simp only [allArrived, hl, hy, List.all_cons, List.all_nil, List.contains_cons, BEq.rfl, Bool.true_or, Bool.and_true]
  refine run_bind_ok (get_run _) ?_
  simp only [hb, hx, hh, Option.bind_some, getBarrier, hall, hy, List.isEmpty_cons, Bool.not_false, Bool.and_true, if_true]
  refine run_bind_ok (modBlock_run _ hb) (run_bind_ok (get_run _) (run_bind_ok (forM_inert fun e he => ?_) (wakeAll_awake _ ha)))
  simp only [ha e he, pure_run]

/-! An arrival -/

/-- The arrival of the current group at a barrier's phase (R336). -/
def arrival (bk l k me : Nat) (b : Block) (x : Barrier) : Op Unit := do
  putBarrier bk l k b { x with arrived := me :: x.arrived }
  modSelf fun g => { g with arrived := tset (l * 16 + k) x.phase g.arrived }
  checkPhase bk l k

theorem answers_arrival (bk l k me : Nat) (b : Block) (x : Barrier) : Answers (arrival bk l k me b x) :=
  answers_bind (answers_putBarrier _ _ _ _ _) fun _ => answers_bind (answers_bind answers_get fun _ => answers_modGroup _ _) fun _ =>
    answers_checkPhase _ _ _

theorem seat_arrival (bk l k me : Nat) (b : Block) (x : Barrier) : Fixes (State.seat bk) (arrival bk l k me b x) :=
  fixes_bind (seat_putBarrier _ _ _ _ _) fun _ => fixes_bind (seat_of_scene (fixes_bind fixes_get fun _ => scene_modGroup _ _) _) fun _ =>
    seat_checkPhase _ _ _

@[simp] theorem getBarrier_begun (l : Nat) : getBarrier (s.begun i g) bk l k b = getBarrier s bk l k b := by
  simp only [getBarrier, clusterOf, State.quad, begun_quads, begun_gridOf]

theorem barrierHere_run (hb : tlook (blkOfGrp s.cur.gk) s.blocks = some b) : (barrierHere lvl n).run s =
    .ok (blkOfGrp s.cur.gk, b, barMember lvl.code (s.cur.gk % 64) b, getBarrier s (blkOfGrp s.cur.gk) lvl.code n.toNat b) s := by
  refine run_bind_ok (get_run _) (run_bind_ok (a := b) (t := s) ?_ rfl)
  rw [blockAt_run, hb, need_some_run]

theorem barrierHere_begun (hb : tlook (blkOfGrp s.cur.gk) s.blocks = some b) : (barrierHere lvl n).run (s.begun i g) =
    .ok (blkOfGrp s.cur.gk, b, barMember lvl.code (s.cur.gk % 64) b, getBarrier s (blkOfGrp s.cur.gk) lvl.code n.toNat b) (s.begun i g) := by
  rw [barrierHere_run (by rwa [begun_blocks, begun_gk]), begun_gk, getBarrier_begun]

/-- A group with no access outstanding that is not among the arrivals arrives. -/
theorem barArrive_begun (w : Issues s i g h) (hb : tlook (blkOfGrp s.cur.gk) s.blocks = some b) (hq : g.accessing = false)
    (hx : (getBarrier s (blkOfGrp s.cur.gk) lvl.code n.toNat b).arrived.contains (barMember lvl.code (s.cur.gk % 64) b) = false) :
    (barArrive lvl n).run (s.begun i g) = (arrival (blkOfGrp s.cur.gk) lvl.code n.toNat (barMember lvl.code (s.cur.gk % 64) b) b
      (getBarrier s (blkOfGrp s.cur.gk) lvl.code n.toNat b)).run (s.begun i g) := by
  refine run_bind_ok (awaitAccesses_begun w hq) (run_bind_ok (barrierHere_begun hb) ?_)
  simp only [hx, Bool.false_eq_true, if_false]
  rfl

/-! The wait for a phase -/

/-- The end of BARS and BARW: the group waits for the phase at which it has arrived, or goes on with an acquire. -/
def phaseWait (lvl : BarLevel) (n : BitVec 4) : Op Unit := do
  let (bk, b, me, x) ← barrierHere lvl n
  if x.arrived.contains me then sleepOn (.phase lvl.code (barKey bk lvl.code b) n.toNat true)
  else acquireCore (coreOfBlk bk)

theorem answers_sleepOn (x : Wait) : Answers (sleepOn x) := answers_bind answers_get fun _ => answers_bind answers_get fun _ => answers_modGroup _ _

theorem phaseWait_over (hb : tlook (blkOfGrp s.cur.gk) s.blocks = some b)
    (hx : (getBarrier s (blkOfGrp s.cur.gk) lvl.code n.toNat b).arrived.contains (barMember lvl.code (s.cur.gk % 64) b) = false) :
    (phaseWait lvl n).run s = (acquireCore (coreOfBlk (blkOfGrp s.cur.gk))).run s := by
  refine run_bind_ok (barrierHere_run hb) ?_
  simp only [hx, Bool.false_eq_true, if_false]

theorem phaseWait_open (hb : tlook (blkOfGrp s.cur.gk) s.blocks = some b)
    (hx : (getBarrier s (blkOfGrp s.cur.gk) lvl.code n.toNat b).arrived.contains (barMember lvl.code (s.cur.gk % 64) b) = true) :
    (phaseWait lvl n).run s = (sleepOn (.phase lvl.code (barKey (blkOfGrp s.cur.gk) lvl.code b) n.toNat true)).run s := by
  refine run_bind_ok (barrierHere_run hb) ?_
  simp only [hx, if_true]

/-! The words -/

theorem exec_bara (w : Acts s (.bara p lvl n) g h) : exec (.bara p lvl n) s = runOp (barArrive lvl n) (s.begun (.bara p lvl n) g) :=
  runOp_of_run_eq (acts_run w rfl rfl)

theorem exec_barw (w : Acts s (.barw p lvl n) g h) : exec (.barw p lvl n) s = runOp (phaseWait lvl n) (s.begun (.barw p lvl n) g) :=
  runOp_of_run_eq (acts_run w rfl rfl)

theorem exec_bars (w : Acts s (.bars p lvl n) g h) : exec (.bars p lvl n) s = runOp (do
    barArrive lvl n
    phaseWait lvl n) (s.begun (.bars p lvl n) g) := runOp_of_run_eq (acts_run w rfl rfl)

/-- BARS after its arrival: the block is still resident, and the wait for the phase goes on in what the arrival leaves. -/
theorem exec_bars_arrived {u : State} (w : Acts s (.bars p lvl n) g h) (hb : tlook (blkOfGrp s.cur.gk) s.blocks = some b) (hq : g.accessing = false)
    (hx : (getBarrier s (blkOfGrp s.cur.gk) lvl.code n.toNat b).arrived.contains (barMember lvl.code (s.cur.gk % 64) b) = false)
    (hu : (arrival (blkOfGrp s.cur.gk) lvl.code n.toNat (barMember lvl.code (s.cur.gk % 64) b) b (getBarrier s (blkOfGrp s.cur.gk) lvl.code n.toNat b)).run
      (s.begun (.bars p lvl n) g) = .ok () u) :
    u.cur.gk = s.cur.gk ∧ (∃ b', tlook (blkOfGrp s.cur.gk) u.blocks = some b') ∧ exec (.bars p lvl n) s = runOp (phaseWait lvl n) u := by
  obtain ⟨hcur, hres⟩ := Prod.mk.inj (seat_arrival _ _ _ _ _ _ _ _ _ hu)
  refine ⟨by rw [hcur, begun_gk], Option.isSome_iff_exists.1 ?_, (exec_bars w).trans (runOp_of_run_eq (run_bind_ok (a := ()) ?_ rfl))⟩
  · rw [hres, begun_blocks, hb]
    rfl
  · rw [barArrive_begun w.issues hb hq hx, hu]

/-- Settles O33: an arrival always answers and leaves the block resident; the last of the live groups ends the phase. -/
theorem barriersArriveAndWait : Obligations.BarriersArriveAndWait := by
  refine ⟨fun s g h b p lvl n => ?words, fun s b x h bk me n hb hx hh hl hy ha => leaves_of_run (checkPhase_alone hb hx hh hl hy ha)⟩
  dsimp only
  intro hb
  refine ⟨fun hx => ⟨fun w hq => ?bara, fun w hq => ?bars, fun w => ?barw⟩, fun hx w => ?waits⟩
  case bara =>
    rw [exec_bara w]
    exact leaves_of_run_eq (answers_arrival _ _ _ _ _ _) (barArrive_begun w.issues hb hq hx)
  case bars =>
    obtain ⟨_, u, hu⟩ := answers_arrival (blkOfGrp s.cur.gk) lvl.code n.toNat (barMember lvl.code (s.cur.gk % 64) b) b
      (getBarrier s (blkOfGrp s.cur.gk) lvl.code n.toNat b) (s.begun (.bars p lvl n) g)
    obtain ⟨hgk, ⟨b', hb'⟩, hexec⟩ := exec_bars_arrived w hb hq hx hu
    refine ⟨u, b', leaves_of_run hu, hb', fun hover => ?_, fun hopen => ?_⟩
    · rw [hexec, ← hgk]
      exact leaves_of_run_eq (answers_acquireCore _) (phaseWait_over (by rwa [hgk]) (by rwa [hgk]))
    · rw [hexec, ← hgk]
      exact leaves_of_run_eq (answers_sleepOn _) (phaseWait_open (by rwa [hgk]) (by rwa [hgk]))
  case barw =>
    rw [exec_barw w]
    refine leaves_of_run_eq (answers_acquireCore _) ((phaseWait_over (b := b) ?_ ?_).trans (by rw [begun_gk]))
    · rwa [begun_blocks, begun_gk]
    · rwa [begun_gk, getBarrier_begun]
  case waits =>
    rw [exec_barw w]
    refine runOp_ok ((phaseWait_open (b := b) ?_ ?_).trans ?_)
    · rwa [begun_blocks, begun_gk]
    · rwa [begun_gk, getBarrier_begun]
    · rw [sleepOn_run (group_begun w.issues rfl), begun_gk, begun_cycle]
      rfl

end Sys2Proof.Machine
end

section
/-! BRC and JTBL (12_groups_progress.md R321, R322; 13_control_sync_ops.md R346, R347). -/

namespace Sys2Proof.Machine

variable {s u : State} {g : Group} {h : Hdr} {p : BitVec 3} {i : Instr} {neg : Bool}

/-! BRC -/

/-- Lanes that all go one way move their slot. -/
theorem divide_one (w : Issues s i g h) (he : endsRegion i = false) (j a : W64) (m : Mask) :
    (divide j [(a, m)]).run (s.begun i g) = .ok () (s.after i g (g.goTo s.cur.slotB a)) := by
  refine run_bind_ok (get_run _) (run_bind_ok (self_begun_plain w he) ?_)
  have hpc := setPc_begun w a
  rwa [group_begun_plain he] at hpc

/-- The lanes of the issuing slot for which BRC's predicate holds. -/
def brcTaken (s : State) (g : Group) (p : BitVec 3) (neg : Bool) : Mask :=
  (g.slot s.cur.slotB).mask &&& if neg then ~~~(g.pred p.toNat) else g.pred p.toNat
/-- And those for which it does not. -/
def brcLeft (s : State) (g : Group) (p : BitVec 3) (neg : Bool) : Mask :=
  (g.slot s.cur.slotB).mask &&& ~~~(if neg then ~~~(g.pred p.toNat) else g.pred p.toNat)

variable {join : BitVec 18} {off : BitVec 32}

theorem exec_brc (w : Issues s (.brc p neg join off) g h) : exec (.brc p neg join off) s = runOp (divide (s.cur.pc + join.signExtend 64 * 8)
    (pathsOf [(target s.cur.pc off, brcTaken s g p neg), (s.cur.pc + 8, brcLeft s g p neg)])) (s.begun (.brc p neg join off) g) := by
  refine runOp_of_run_eq (run_bind_ok (legal_run w) (run_bind_ok (get_run _) (run_bind_ok (self_begun_plain w rfl) (run_bind_ok (get_run _) ?_))))
  simp only [begun_pc, begun_slotB]
  rfl

theorem exec_brc_of_one {a : W64} {m : Mask} (w : Issues s (.brc p neg join off) g h)
    (hp : pathsOf [(target s.cur.pc off, brcTaken s g p neg), (s.cur.pc + 8, brcLeft s g p neg)] = [(a, m)]) :
    exec (.brc p neg join off) s = .next (s.after (.brc p neg join off) g (g.goTo s.cur.slotB a)) := by
  rw [exec_brc w, hp]
  exact runOp_ok (divide_one w rfl _ _ _)

/-- The group whose issuing slot has split in two: a JOIN entry at SP, the lower path in the slot and the higher in the other (R322). -/
def Group.splitIn (g : Group) (slotB : Bool) (j a0 a1 : W64) (m0 m1 : Mask) : Group :=
  { (g.putEntry g.sp ⟨j.toNat, (g.slot slotB).mask, (g.slot slotB).join, 2, false⟩).setSlot slotB ⟨a0, m0, some g.sp⟩ with sp := g.sp + 1 }.setSlot
    (!slotB) ⟨a1, m1, some g.sp⟩

theorem exec_brc_of_two {a0 a1 : W64} {m0 m1 : Mask} (w : Issues s (.brc p neg join off) g h)
    (hp : pathsOf [(target s.cur.pc off, brcTaken s g p neg), (s.cur.pc + 8, brcLeft s g p neg)] = [(a0, m0), (a1, m1)])
    (hf : (g.slot (!s.cur.slotB)).mask = 0) (hsp : g.sp < 32) : exec (.brc p neg join off) s = .next (s.after (.brc p neg join off) g
      (g.splitIn s.cur.slotB (s.cur.pc + join.signExtend 64 * 8) a0 a1 m0 m1)) := by
  rw [exec_brc w, hp]
  exact runOp_ok (divide_two w rfl _ _ _ _ _ hf hsp)

/-! The paths of BRC -/

variable {a b : W64} {m n : Mask}

theorem pathsOf_all (hm : m ≠ 0) (hn : n = 0) : pathsOf [(a, m), (b, n)] = [(a, m)] := by rw [pathsOf_two, if_neg hm, if_pos hn]
theorem pathsOf_none (hm : m = 0) (hn : n ≠ 0) : pathsOf [(a, m), (b, n)] = [(b, n)] := by rw [pathsOf_two, if_pos hm, if_neg hn]
theorem pathsOf_same (hm : m ≠ 0) (hn : n ≠ 0) (hab : b = a) : pathsOf [(a, m), (b, n)] = [(a, n ||| m)] := by
  rw [pathsOf_two, if_neg hm, if_neg hn, if_pos hab]
theorem pathsOf_above (hm : m ≠ 0) (hn : n ≠ 0) (hab : a.toNat < b.toNat) : pathsOf [(a, m), (b, n)] = [(a, m), (b, n)] := by
  rw [pathsOf_two, if_neg hm, if_neg hn, if_neg (by rintro rfl; omega), if_neg (by omega)]
theorem pathsOf_below (hm : m ≠ 0) (hn : n ≠ 0) (hab : b.toNat < a.toNat) : pathsOf [(a, m), (b, n)] = [(b, n), (a, m)] := by
  rw [pathsOf_two, if_neg hm, if_neg hn, if_neg (by rintro rfl; omega), if_pos hab]

/-! JTBL -/

theorem tableIndex_begun (gk l : Nat) (idx : Reg) : tableIndex (s.begun i g) gk g l idx = tableIndex s gk g l idx := by
  cases idx with
  | lane v => exact elemAt_begun ..
  | sreg m => rfl
  | const j => rfl

/-- JTBL with indices in range, and entries that pass their checks and hold no uncorrectable word, splits its lanes over the targets that it loads. -/
theorem exec_jtbl {idx : Reg} {tb : BitVec 6} {join count : BitVec 16} {ts : List Tgt} {c : LocalCtx} {xs : List Nat}
    (w : Issues s (.jtbl p idx tb join count) g h)
    (hr : s.readable g ((lanesOf g.width (s.activeOf g p.toNat)).flatMap fun l => regElems 4 l idx))
    (hxs : ((lanesOf g.width (s.activeOf g p.toNat)).map fun l => tableIndex s s.cur.gk g l idx) = xs) (hcount : ∀ x ∈ xs, x < count.toNat)
    (hp : passes (s.begun (.jtbl p idx tb join count) g) c needTable ((lanesOf g.width (s.activeOf g p.toNat)).zip
      (xs.map fun x => ((g.scalar tb.toNat).toNat + 4 * x) % 2 ^ 64)) ts u)
    (hgk : u.cur.gk = s.cur.gk) (hgood : ∀ t ∈ ts, tgtBad c u 4 t = false) :
    ∃ es v, reply (loadAll c 4 0 false ts) u = some (es, v) ∧ exec (.jtbl p idx tb join count) s =
      runOp (divide (s.cur.pc + join.signExtend 64 * 8) (pathsOf ((s.cur.pc + 8, (g.slot s.cur.slotB).mask &&& ~~~(s.activeOf g p.toNat)) ::
        ((lanesOf g.width (s.activeOf g p.toNat)).zip es).map fun x => (target s.cur.pc (BitVec.ofNat 32 x.2), BitVec.ofNat 128 (2 ^ x.1))))) v := by
  obtain ⟨hlanes, hctx⟩ := passes_run hp
  obtain ⟨es, v, hload⟩ := answers_loadAll c 4 0 false ts u
  have hin : xs.find? (fun x => decide (count.toNat ≤ x)) = none :=
    List.find?_eq_none.2 fun x hx => by simpa using hcount x hx
  refine ⟨es, v, reply_of_run hload, runOp_of_run_eq (run_bind_ok (legal_run w) (run_bind_ok (activeMask_begun w _) (run_bind_ok (get_run _)
    (run_bind_ok (self_begun_plain w rfl) (run_bind_ok (checkElems_begun w rfl hr) ?_)))))⟩
  simp only [begun_gk, begun_pc, begun_slotB, tableIndex_begun, hxs, hin]
  refine run_bind_ok hlanes (run_bind_ok (hgk ▸ hctx) (run_bind_ok (get_run _) ?_))
  simp only [find?_tgtBad hgood]
  exact run_bind_ok hload rfl

/-- Settles O29: BRC by the paths of its two targets, JTBL by those of its table. -/
theorem branchesDiverge : Obligations.BranchesDiverge := by
  refine ⟨fun s g h p neg join off => ?brc, fun s u g h p idx tb join count ts c => ?jtbl⟩
  case brc =>
    dsimp only
    intro w
    refine ⟨fun hy hn => exec_brc_of_one w (pathsOf_all hy hn), fun hy hn => exec_brc_of_one w (pathsOf_none hy hn), ?above, ?below,
      fun hy hn hsame => exec_brc_of_one w (pathsOf_same hy hn hsame.symm), gives_of_eq (exec_brc w)⟩
    case above =>
      rintro ⟨hy, hn, hf, hsp⟩ hlt
      exact exec_brc_of_two w (pathsOf_above hy hn hlt) hf hsp
    case below =>
      rintro ⟨hy, hn, hf, hsp⟩ hlt
      exact exec_brc_of_two w (pathsOf_below hy hn hlt) hf hsp
  case jtbl =>
    dsimp only
    intro w hr hcount hp hgk hgood
    obtain ⟨es, v, hload, hexec⟩ := exec_jtbl w hr rfl hcount hp hgk hgood
    exact ⟨es, v, hload, gives_of_eq hexec⟩

end Sys2Proof.Machine
end

section
/-! JOIN (12_groups_progress.md R323; 13_control_sync_ops.md R350). -/

namespace Sys2Proof.Machine

variable {s : State} {g : Group} {h : Hdr} {j : Nat}

/-- JOIN of a slot that an entry of the control area names, at the entry's word, is an arrival. -/
theorem exec_join_arrives (w : Issues s .join g h) (hj : (g.slot s.cur.slotB).join = some j) (hlt : j < 32) (hpc : (g.entry j).pc = s.cur.pc.toNat) :
    exec .join s = runOp (arriveJoin j) (s.begun .join g) := by
  refine runOp_of_run_eq (run_bind_ok (legal_run w) (run_bind_ok (get_run _) (run_bind_ok (self_begun_plain w rfl) ?_)))
  simp only [begun_slotB, hj, begun_gk]
  refine run_bind_ok (touch_small _ (by omega) _) (run_bind_ok (getEntry_begun w hlt) ?_)
  rw [begun_pc, if_pos hpc]

/-- The group with its top entry popped and the entry's lanes gone on, in a slot, after its address. -/
def Group.joined (g : Group) (slotB : Bool) (e : DivEntry) : Group :=
  { g.setSlot slotB ⟨e.at + 8, e.mask, e.link⟩ with sp := g.sp - 1 }

/-- The last arrival pops the entry and takes its lanes on after the entry's address, bits 2:0 of which are dropped. -/
theorem exec_join_last (w : Issues s .join g h) (hj : (g.slot s.cur.slotB).join = some j) (hlt : j < 32) (hpc : (g.entry j).pc = s.cur.pc.toNat)
    (hlast : (g.entry j).pending = 1) : exec .join s = .next (s.after .join g
      ((g.putEntry j { g.entry j with pending := ((g.entry j).pending + 65535) % 65536 }).joined s.cur.slotB (g.entry j))) := by
  rw [exec_join_arrives w hj hlt hpc]
  refine runOp_ok (run_bind_ok (get_run _) ?_)
  simp only [begun_gk, begun_slotB]
  refine run_bind_ok (getEntry_begun w hlt) (run_bind_ok (setEntry_begun w hlt _) ?_)
  rw [if_pos hlast, group_begun_plain rfl]
  exact modSelf_after _ (·.joined s.cur.slotB (g.entry j))

/-! A word at an address that is no multiple of 8 -/

/-- A group at the end of its only divergence, whose entry's address is 1. -/
def oddGroup : Group := { padGroup.putEntry 0 ⟨1, 1, none, 1, false⟩ with a := { padGroup.a with join := some 0 }, sp := 1 }

/-- That group alone, its JOIN at address 1 in progress. -/
def oddState : State :=
  { State.readyReset with
    cur := { pc := 1 }, groups := [(0, oddGroup)], blocks := [(0, padCtx.b)], queues := [(0, { active := some padGrid })] }

theorem issues_oddState : Issues oddState .join oddGroup padHdr where
  group := rfl
  header := ⟨padCtx.b, padGrid, rfl, rfl, rfl⟩
  operands := by decide +kernel
  range := by decide +kernel
  pairs := by decide +kernel

theorem entry_oddGroup : oddGroup.entry 0 = ⟨1, 1, none, 1, false⟩ := by decide +kernel

/-- Refutes O30: the continuation has bits 2:0 of the entry's address dropped (log 42), so that a JOIN at address 1 goes on at 8, where the
statement, which does not ask for a multiple of 8, has 9. Its other cases are not at issue. -/
theorem not_joinReconverges : ¬ Obligations.JoinReconverges := by
  intro hall
  obtain ⟨-, hentry⟩ := hall oddState oddGroup padHdr issues_oddState
  obtain ⟨-, hlast, -⟩ := hentry 0 rfl (by omega)
  have hpc : (oddGroup.entry 0).pc = oddState.cur.pc.toNat := by rw [entry_oddGroup]; rfl
  have hpending : (oddGroup.entry 0).pending = 1 := by rw [entry_oddGroup]
  have hnext := (exec_join_last issues_oddState rfl (by omega) hpc hpending).symm.trans (hlast hpc hpending)
  injection hnext with hnext
  have hslots := congrArg (fun t : State => (tlook 0 t.groups).map fun g => g.a.pc) hnext
  rw [entry_oddGroup] at hslots
  exact absurd hslots (by decide +kernel)

end Sys2Proof.Machine
end

section
/-! EXIT (12_groups_progress.md R325; 13_control_sync_ops.md R351). -/

namespace Sys2Proof.Machine

variable {s : State} {g : Group} {h : Hdr} {p : BitVec 3} {j : Nat}

/-! The waits of the last lanes -/

theorem awaitContribs_run (hc : (s.contribs.any fun e => e.2.gk = s.cur.gk) = false) : awaitContribs.run s = .ok () s := by
  refine run_bind_ok (get_run _) ?_
  rw [hc]
  rfl

theorem awaitFutures_run (hg : self.run s = .ok g s) (hh : g.holds = []) : awaitFutures.run s = .ok () s := by
  refine run_bind_ok hg ?_
  rw [hh]
  rfl

/-- The group with these lanes left in a slot. -/
def Group.leaving (g : Group) (slotB : Bool) (m : Mask) : Group := g.setSlot slotB { g.slot slotB with mask := m }

/-- The lanes that an EXIT leaves in its slot. -/
def exitLeft (s : State) (g : Group) (p : BitVec 3) : Mask := (g.slot s.cur.slotB).mask &&& ~~~(s.activeOf g p.toNat)

theorem dropLanes_none (gk fuel : Nat) (x : Mask) (t : State) : (dropLanes gk x fuel none).run t = .ok () t := by
  cases fuel <;> rfl

theorem leave_begun (w : Issues s (.exit p) g h) : (modSelf fun g' => g'.setSlot s.cur.slotB { g'.slot s.cur.slotB with mask := exitLeft s g p }).run
    (s.begun (.exit p) g) = .ok () (s.after (.exit p) g (g.leaving s.cur.slotB (exitLeft s g p))) := by
  rw [modSelf_begun w, group_begun_plain rfl]
  rfl

/-- What EXIT does after its checks, for the active lanes that leave. -/
def exitLanes (x : Mask) : Op Unit := do
  let c := (← get).cur
  let g ← self
  let sl := g.slot c.slotB
  if sl.join.isSome then touchEntries 0 g.sp
  let e : Option DivEntry ← (match sl.join with
    | none => pure none
    | some j => do return some (← getEntry c.gk j))
  let ends := exitEnds g c x e
  if ends then
    let _ ← closeChain
    awaitPending
    awaitContribs
    awaitFutures
  dropLanes c.gk x 1024 sl.join
  modSelf fun g => g.setSlot c.slotB { g.slot c.slotB with mask := sl.mask &&& ~~~x }
  if sl.mask &&& ~~~x = 0 then
    match sl.join with
    | none => pure ()
    | some j => arriveJoin j
  if ends then endGroup c.gk

theorem exec_exit (w : Acts s (.exit p) g h) : exec (.exit p) s = runOp (exitLanes (s.activeOf g p.toNat)) (s.begun (.exit p) g) :=
  runOp_of_run_eq (acts_mask_run w rfl rfl)

@[simp] theorem exitEnds_begun (i : Instr) (g' : Group) (x : Mask) (e : Option DivEntry) :
    exitEnds g' (s.begun i g).cur x e = exitEnds g' s.cur x e := by simp only [exitEnds, begun_slotB]

/-- Lanes leave a slot that no JOIN holds, and others remain. -/
theorem exec_exit_some (w : Acts s (.exit p) g h) (hj : (g.slot s.cur.slotB).join = none) (hends : exitEnds g s.cur (s.activeOf g p.toNat) none = false) :
    exec (.exit p) s = .next (s.after (.exit p) g (g.leaving s.cur.slotB (exitLeft s g p))) := by
  rw [exec_exit w]
  refine runOp_ok (run_bind_ok (get_run _) (run_bind_ok (self_begun_plain w.issues rfl) ?_))
  simp only [begun_slotB, hj, exitEnds_begun]
  refine run_bind_ok (a := none) rfl ?_
  simp only [hends, Bool.false_eq_true, if_false, ite_self]
  exact run_bind_ok (dropLanes_none _ _ _ _) (run_bind_ok (leave_begun w.issues) rfl)

/-- Lanes leave a slot and the entries of its JOIN, and the last of the slot are an arrival. -/
theorem exec_exit_joined (w : Acts s (.exit p) g h) (hj : (g.slot s.cur.slotB).join = some j) (hsp : g.sp ≤ 32) (hlt : j < 32)
    (hends : exitEnds g s.cur (s.activeOf g p.toNat) (some (g.entry j)) = false) : exec (.exit p) s = runOp (do
      dropLanes s.cur.gk (s.activeOf g p.toNat) 1024 (some j)
      modSelf (·.leaving s.cur.slotB (exitLeft s g p))
      if exitLeft s g p = 0 then arriveJoin j) (s.begun (.exit p) g) := by
  rw [exec_exit w]
  refine runOp_of_run_eq (run_bind_ok (get_run _) (run_bind_ok (self_begun_plain w.issues rfl) ?_))
  simp only [begun_slotB, begun_gk, hj, exitEnds_begun]
  refine run_bind_ok (touch_small _ hsp _) (run_bind_ok (a := some (g.entry j)) (run_bind_ok (getEntry_begun w.issues hlt) rfl) ?_)
  simp only [hends, Bool.false_eq_true, if_false, bind_pure_unit]
  rfl

/-- The last lanes of a group with nothing outstanding end it. -/
theorem exec_exit_last (w : Acts s (.exit p) g h) (hj : (g.slot s.cur.slotB).join = none) (hends : exitEnds g s.cur (s.activeOf g p.toNat) none = true)
    (hn : NoChain s g) (hp : g.pend = []) (hh : g.holds = []) (hc : (s.contribs.any fun e => e.2.gk = s.cur.gk) = false) :
    exec (.exit p) s = runOp (endGroup s.cur.gk) (s.after (.exit p) g (g.leaving s.cur.slotB (exitLeft s g p))) := by
  rw [exec_exit w]
  refine runOp_of_run_eq (run_bind_ok (get_run _) (run_bind_ok (self_begun_plain w.issues rfl) ?_))
  simp only [begun_slotB, begun_gk, hj, exitEnds_begun]
  refine run_bind_ok (a := none) rfl ?_
  simp only [hends, if_true, ite_self]
  refine run_bind_ok (closeChain_begun hn w.issues rfl) (run_bind_ok (awaitPending_run (group_begun w.issues rfl) hp) (run_bind_ok
    (awaitContribs_run ?_) (run_bind_ok (awaitFutures_run (self_begun_plain w.issues rfl) hh) (run_bind_ok (dropLanes_none _ _ _ _)
    (run_bind_ok (leave_begun w.issues) rfl)))))
  rw [begun_contribs, begun_gk, hc]

/-- Settles O31: by whether a JOIN holds the slot, and whether the last lanes leave. -/
theorem exitRemovesLanes : Obligations.ExitRemovesLanes := by
  intro s g h p
  dsimp only
  intro w
  exact ⟨fun hj hends => exec_exit_some w hj hends, fun j hj hsp hlt hends => gives_of_eq (exec_exit_joined w hj hsp hlt (by rwa [hj] at hends)),
    fun hj hends hn hp hh hc => gives_of_eq (exec_exit_last w hj hends hn hp hh hc)⟩

end Sys2Proof.Machine
end

section
/-! BRA, CALL, RET, NOP and LOOPB (13_control_sync_ops.md R345, R348, R349, R352). -/

namespace Sys2Proof.Machine

variable {s : State} {i : Instr} {g : Group} {h : Hdr} {off : BitVec 32}

/-- The issuing slot of a word that leaves the group as it found it goes on at an address. -/
theorem setPc_begun_plain (w : Issues s i g h) (he : endsRegion i = false) (a : W64) :
    (setPc a).run (s.begun i g) = .ok () (s.after i g (g.goTo s.cur.slotB a)) := by
  rw [setPc_begun w, group_begun_plain he]

theorem modSelf_begun_plain (w : Issues s i g h) (he : endsRegion i = false) (f : Group → Group) :
    (modSelf f).run (s.begun i g) = .ok () (s.after i g (f g)) := by
  rw [modSelf_begun w, group_begun_plain he]

theorem exec_bra (w : Issues s (.bra off) g h) :
    exec (.bra off) s = .next (s.after (.bra off) g (g.goTo s.cur.slotB (target s.cur.pc off))) := by
  refine runOp_ok (run_bind_ok (legal_run w) (run_bind_ok (get_run _) ?_))
  rw [begun_pc, setPc_begun_plain w rfl]

theorem exec_call {l : BitVec 6} (w : Issues s (.call l off) g h) : exec (.call l off) s =
    .next (s.after (.call l off) g ((g.setScalar l.toNat (s.cur.pc + 8)).goTo s.cur.slotB (target s.cur.pc off))) := by
  refine runOp_ok (run_bind_ok (legal_run w) (run_bind_ok (get_run _) (run_bind_ok (modSelf_begun_plain w rfl _) ?_)))
  rw [begun_pc, setPc_after]

/-- RET after its read. -/
theorem exec_ret {a : BitVec 6} (w : Issues s (.ret a) g h) : exec (.ret a) s = runOp (do
    if g.scalar a.toNat &&& 7 != 0 then raise 0x03 (g.scalar a.toNat)
    setPc (g.scalar a.toNat)) (s.begun (.ret a) g) :=
  runOp_of_run_eq (run_bind_ok (legal_run w) (run_bind_ok (self_begun_plain w rfl) rfl))

theorem exec_ret_aligned {a : BitVec 6} (w : Issues s (.ret a) g h) (ha : g.scalar a.toNat &&& 7 = 0) :
    exec (.ret a) s = .next (s.after (.ret a) g (g.goTo s.cur.slotB (g.scalar a.toNat))) := by
  rw [exec_ret w, if_neg (by simpa using ha)]
  exact runOp_ok (setPc_begun_plain w rfl _)

theorem exec_ret_misaligned {a : BitVec 6} (w : Issues s (.ret a) g h) (ha : g.scalar a.toNat &&& 7 ≠ 0) :
    exec (.ret a) s = runOp (raise 0x03 (g.scalar a.toNat)) (s.begun (.ret a) g) := by
  rw [exec_ret w, if_pos (bne_iff_ne.2 ha)]
  rfl

theorem exec_nop {p : BitVec 3} (w : Issues s (.nop p) g h) : exec (.nop p) s = .next (s.begun (.nop p) g) := runOp_ok (legal_run w)

/-- Settles O27: each word by its own equation, RET by its target's alignment. -/
theorem branchCallReturn : Obligations.BranchCallReturn := fun _ _ _ =>
  ⟨fun _ w => exec_bra w, fun _ _ w => exec_call w, fun _ w => ⟨exec_ret_aligned w, exec_ret_misaligned w⟩, fun _ w => exec_nop w⟩

/-! LOOPB -/

theorem run_if_pos {α : Type} {c : Prop} [Decidable c] {m n : Op α} (hc : c) : (if c then m else n).run s = m.run s := by rw [if_pos hc]
theorem run_if_neg {α : Type} {c : Prop} [Decidable c] {m n : Op α} (hc : ¬c) : (if c then m else n).run s = n.run s := by rw [if_neg hc]

/-- The value that LOOPB leaves in its register. -/
def loopLeft (n : W64) : W64 := if n = 0 then n else n - 1

/-- The address at which a LOOPB that leaves this value goes on. -/
def loopNext (s : State) (off : BitVec 32) (n : W64) : W64 := if n = 0 then s.cur.pc + 8 else target s.cur.pc off

/-- The loop that a taken LOOPB puts its slot into: the slot, and the addresses of the loop's first and last words (12_groups_progress.md R328). -/
def loopHere (s : State) (off : BitVec 32) : Bool × Nat × Nat := (s.cur.slotB, (target s.cur.pc off).toNat, s.cur.pc.toNat)

/-- The lines of a loop that the buffer holds fresh, and to which the loop's slot has no reference yet. -/
def loopLines (k : Core) (l : Bool × Nat × Nat) (refs : List Ref) : List Nat :=
  ((List.range 4).map (l.2.1 / 128 + ·)).filter fun x =>
    inLoops [l] l.1 x && (tlook x k.ibuf).any (fun y => !y.stale) && !refs.any fun r => r.slotB = l.1 && r.line = x

/-- The group with a loop entered, and with a loop left. -/
def Group.entersLoop (g : Group) (k : Core) (l : Bool × Nat × Nat) : Group :=
  { g with loops := l :: g.loops.filter (· != l), refs := g.refs ++ (loopLines k l g.refs).map fun x => ⟨l.1, x, none⟩ }
def Group.leavesLoop (g : Group) (l : Bool × Nat × Nat) : Group := { g with loops := g.loops.filter (· != l) }

/-- The group with LOOPB's register counted down and its slot gone on. -/
def Group.countsDown (g : Group) (s : State) (c : BitVec 6) (off : BitVec 32) : Group :=
  (g.setScalar c.toNat (loopLeft (g.scalar c.toNat))).goTo s.cur.slotB (loopNext s off (loopLeft (g.scalar c.toNat)))

variable {c : BitVec 6}

theorem exec_loopb_taken (w : Issues s (.loopb c off) g h) (hn : loopLeft (g.scalar c.toNat) ≠ 0) : exec (.loopb c off) s =
    .next (s.after (.loopb c off) g ((g.countsDown s c off).entersLoop (s.core (coreOfGrp s.cur.gk)) (loopHere s off))) := by
  refine runOp_ok (run_bind_ok (legal_run w) (run_bind_ok (get_run _) (run_bind_ok (self_begun_plain w rfl)
    (run_bind_ok (modSelf_begun_plain w rfl _) ((run_if_pos (bne_iff_ne.2 hn)).trans
    (run_bind_ok (setPc_after _ _) (run_bind_ok (get_run _) ((modSelf_after _ _).trans ?_))))))))
  simp only [begun_pc, begun_slotB, begun_gk, State.core, State.after, setGroup_cores, begun_cores, Group.countsDown, loopNext, if_neg hn]
  rfl

theorem exec_loopb_done (w : Issues s (.loopb c off) g h) (hn : loopLeft (g.scalar c.toNat) = 0) : exec (.loopb c off) s =
    .next (s.after (.loopb c off) g ((g.countsDown s c off).leavesLoop (loopHere s off))) := by
  refine runOp_ok (run_bind_ok (legal_run w) (run_bind_ok (get_run _) (run_bind_ok (self_begun_plain w rfl)
    (run_bind_ok (modSelf_begun_plain w rfl _) ((run_if_neg fun hne => bne_iff_ne.1 hne hn).trans
    (run_bind_ok (setPc_after _ _) ((modSelf_after _ _).trans ?_)))))))
  simp only [begun_pc, begun_slotB, Group.countsDown, loopNext, if_pos hn]
  rfl

/-- Settles O28: by whether the register has come to 0. -/
theorem loopCountsDown : Obligations.LoopCountsDown := by
  intro s g h c off
  dsimp only
  intro w
  by_cases hn : loopLeft (g.scalar c.toNat) = 0
  · exact ⟨_, _, exec_loopb_done w hn⟩
  · exact ⟨_, _, exec_loopb_taken w hn⟩

end Sys2Proof.Machine
end

section
/-! IDEM, IPREF and ISYNC (13_control_sync_ops.md R352, R353, R366). -/

namespace Sys2Proof.Machine

variable {s : State} {i : Instr} {g : Group} {h : Hdr} {p : BitVec 3}

/-! IDEM -/

@[simp] theorem unitImage_begun (gk u : Nat) : unitImage (s.begun i g) gk g u = unitImage s gk g u := by
  simp only [unitImage, elemAt_begun]

@[simp] theorem checkpoint_begun (m : BitVec 32) : checkpoint g (s.begun i g).cur m = checkpoint g s.cur m := by
  simp only [checkpoint, begun_slotB, begun_pc]

/-- The units that IDEM saves beside the checkpoint, by offset in the group's part of the save region (R353). -/
def unitImages (s : State) (g : Group) (m : BitVec 32) : List (Nat × List Nat) :=
  ((List.range g.units.length).filter fun u => m.getLsbD u).map fun u => (0x1A000 + 32 * g.width * u, unitImage s s.cur.gk g u)

/-- The group with a region open, and what the region's checkpoint holds still to be written. -/
def Group.opensRegion (g : Group) (s : State) (m : BitVec 32) : Group :=
  { g with regionOpen := true, due := g.due ++ (0, checkpoint g s.cur m) :: unitImages s g m }

theorem exec_idem {m : BitVec 32} (w : Issues s (.idem m) g h) (hother : (g.slot (!s.cur.slotB)).mask = 0) (hp : g.pend = []) (hh : g.holds = []) :
    exec (.idem m) s = runOp (flushDue s.cur.gk) (s.after (.idem m) g (g.opensRegion s m)) := by
  have hself := self_begun_plain w rfl
  refine runOp_of_run_eq (run_bind_ok (legal_run w) (run_bind_ok (get_run _) (run_bind_ok hself ?_)))
  rw [begun_slotB, hother, if_neg (by simp)]
  refine run_bind_ok (awaitPending_run (group_begun w rfl) hp) (run_bind_ok (awaitFutures_run hself hh)
    (run_bind_ok (get_run _) (run_bind_ok hself (run_bind_ok (modSelf_begun_plain w rfl _) ?_))))
  simp only [unitImage_begun, checkpoint_begun, begun_gk]
  rfl

/-! IPREF and ISYNC -/

theorem exec_ipref {n : BitVec 4} {off : BitVec 32} (w : Acts s (.ipref p n off) g h) : exec (.ipref p n off) s =
    runOp ((List.range (n.toNat + 1)).forM fun k => prefetchLine ((target s.cur.pc off).toNat / 128 + k)) (s.begun (.ipref p n off) g) := by
  refine runOp_of_run_eq (acts_run w rfl (run_bind_ok (get_run _) ?_))
  rw [begun_pc]

/-- The state in which every line of a core's instruction buffer is stale. -/
def State.staleCode (s : State) (c : Nat) : State :=
  { s with cores := tput {} s.cores c { s.core c with ibuf := (s.core c).ibuf.map fun l => (l.1, { l.2 with stale := true }) } }

theorem syncCode_begun (w : Issues s i g h) (he : endsRegion i = false) :
    syncCode.run (s.begun i g) = .ok () ((s.after i g { g with refs := [], loops := [] }).staleCode (coreOfGrp s.cur.gk)) := by
  refine run_bind_ok (get_run _) (run_bind_ok (modSelf_begun_plain w he _) ?_)
  rw [begun_gk]
  rfl

theorem exec_isync (w : Acts s (.isync p) g h) (hp : g.pend = []) (hh : g.holds = []) : exec (.isync p) s =
    .next ((s.after (.isync p) g { g with refs := [], loops := [] }).staleCode (coreOfGrp s.cur.gk)) :=
  runOp_ok (acts_run w rfl (run_bind_ok (awaitPending_run (group_begun w.issues rfl) hp)
    (run_bind_ok (awaitFutures_run (self_begun_plain w.issues rfl) hh) (syncCode_begun w.issues rfl))))

/-- Settles O32: each word by its own equation. -/
theorem regionAndCodeWords : Obligations.RegionAndCodeWords := by
  refine ⟨fun s g h m w hother hp hh => gives_of_eq (exec_idem w hother hp hh), fun s g h p n off w => gives_of_eq (exec_ipref w),
    fun s g h p w hp hh => (exec_isync w hp hh).trans ?_⟩
  simp only [State.staleCode, State.core, State.after, setGroup_cores, begun_cores]

end Sys2Proof.Machine
end

section
/-! TRAP and BKPT, RESUME and ABORT (13_control_sync_ops.md R359, R361; 16_recovery.md R434 to R441). -/

namespace Sys2Proof.Machine

variable {s u : State} {i : Instr} {g : Group} {h : Hdr} {b : Block} {p : BitVec 3} {code : BitVec 16} {x : TrapInfo} {entry : W64}

/-! The trap of the word in progress -/

/-- A trap that is no Illegal Instruction takes back no count of its word. -/
theorem takeTrap_run (hg : tlook s.cur.gk s.groups = some g) (h1 : x.cause ≠ 1) : (takeTrap x).run s =
    (takeTrapOf s.cur.gk x ⟨s.cur.pc, s.cur.slotB, s.cur.act, none⟩ g.replay).run s := by
  refine run_bind_ok (get_run _) ?_
  rw [if_neg h1]
  exact run_bind_ok (self_run hg) rfl

/-- It enters the handler of a group with nothing else under way. -/
theorem takeTrap_enters (hg : tlook s.cur.gk s.groups = some g) (h1 : x.cause ≠ 1) (h8 : x.cause ≠ 8) (r : TrapReady s g entry) :
    (takeTrap x).run s = .ok () ((s.unlatched s.cur.gk).setGroup s.cur.gk
      ((g.excused x).handling s.cycle entry x (⟨s.cur.pc, s.cur.slotB, s.cur.act, none⟩ :: g.replay))) := by
  obtain ⟨b, y, hb, hy, -⟩ := r.header
  rw [takeTrap_run hg h1, take_run rfl hg hb hy h8 r]

/-- A Breakpoint of a group that is in no handler, and whose grid has no trap entry, changes nothing (16_recovery.md R437). -/
theorem takeTrap_breakpoint {y : Grid} (hg : tlook s.cur.gk s.groups = some g) (hb : tlook (blkOfGrp s.cur.gk) s.blocks = some b)
    (hy : s.gridOf b.grid = some y) (he : trapEntry? y = none) (hh : g.handler = none) (hx : x.cause = 0x11) : (takeTrap x).run s = .ok () s := by
  rw [takeTrap_run hg (by omega)]
  refine run_bind_ok (noteTrap_run hg (by omega)) ?_
  rw [if_neg (by omega)]
  simp only [bind_run, get_run, groupAt_run, blockAt_run, hg, hb, hy, need_some_run, hh, Option.isSome_none,
    Bool.false_eq_true, if_false, he, hx, if_true, pure_run]

/-- The outcome of operations that end in a trap. -/
theorem runOp_trap {m : Op Unit} {t : State} (hm : m.run s = .error (.trap x) t) (hx : (takeTrap x).run t = .ok () u) : runOp m s = .next u := by
  have hend : takeTrap x t = .ok () u := hx
  unfold runOp
  rw [run_apply m, hm]
  simp only [hend]

theorem trapReady_begun (r : TrapReady s g entry) : TrapReady (s.begun i g) g entry := by
  obtain ⟨normal, ⟨b, y, hb, hy, hentry⟩, quiet, awake, sent, chain⟩ := r
  exact ⟨normal, ⟨b, y, by simpa using hb, by rwa [begun_gridOf], hentry⟩, quiet, awake, by simpa using sent, chain⟩

/-- The trap of a word, but for the lowest causes, of a group that is ready for it, with nothing done: it names the word and its active lanes. -/
theorem throw_enters (w : Issues s i g h) (he : endsRegion i = false) (hx : 8 < x.cause) (r : TrapReady s g entry) :
    runOp (throw (.trap x)) (s.begun i g) = .next (((s.begun i g).unlatched s.cur.gk).setGroup s.cur.gk
      (g.handling s.cycle entry x (⟨s.cur.pc, s.cur.slotB, s.activeOf g (predOf i), none⟩ :: g.replay))) := by
  refine runOp_trap (throw_run _ _) ((takeTrap_enters (group_begun w he) (by omega) (by omega) (trapReady_begun r)).trans ?_)
  simp only [begun_gk, begun_pc, begun_slotB, begun_act, begun_cycle, Group.excused, if_neg (show x.cause ≠ 4 by omega)]

/-! TRAP and BKPT -/

/-- The trap that TRAP and BKPT raise. -/
def codeTrap (cause : Nat) (code : BitVec 16) : TrapInfo := { cause := cause, addr := code.setWidth 64, perf := true }

theorem exec_trap_enters (w : Acts s (.trap p code) g h) (r : TrapReady s g entry) : exec (.trap p code) s =
    .next (((s.begun (.trap p code) g).unlatched s.cur.gk).setGroup s.cur.gk (g.handling s.cycle entry (codeTrap 0x10 code)
      (⟨s.cur.pc, s.cur.slotB, s.activeOf g p.toNat, none⟩ :: g.replay))) :=
  (runOp_of_run_eq (acts_run w rfl rfl)).trans (throw_enters w.issues rfl (show 8 < 0x10 by decide) r)

theorem exec_bkpt_released (w : Acts s (.bkpt p code) g h) (hr : g.released = true) :
    exec (.bkpt p code) s = .next (s.after (.bkpt p code) g { g with released := false }) := by
  refine runOp_ok (acts_run w rfl (run_bind_ok (self_begun_plain w.issues rfl) ?_))
  rw [hr, if_pos rfl, modSelf_begun_plain w.issues rfl]

theorem debugOn_begun (qk : Nat) : debugOn (s.begun i g) qk = debugOn s qk := by simp only [debugOn, State.reg, begun_regs]

/-- BKPT of a group that the debugger neither watches nor has released raises its trap. -/
theorem exec_bkpt (w : Acts s (.bkpt p code) g h) (hb : tlook (blkOfGrp s.cur.gk) s.blocks = some b) (hr : g.released = false)
    (hd : debugOn s b.grid = false) : exec (.bkpt p code) s = runOp (throw (.trap (codeTrap 0x11 code))) (s.begun (.bkpt p code) g) := by
  refine runOp_of_run_eq (acts_run w rfl (run_bind_ok (self_begun_plain w.issues rfl) ?_))
  rw [hr, if_neg Bool.false_ne_true]
  refine run_bind_ok (get_run _) (run_bind_ok (selfBlock_begun hb) ?_)
  rw [debugOn_begun, hd]
  rfl

theorem exec_bkpt_enters (w : Acts s (.bkpt p code) g h) (hb : tlook (blkOfGrp s.cur.gk) s.blocks = some b) (hr : g.released = false)
    (hd : debugOn s b.grid = false) (r : TrapReady s g entry) : exec (.bkpt p code) s =
    .next (((s.begun (.bkpt p code) g).unlatched s.cur.gk).setGroup s.cur.gk (g.handling s.cycle entry (codeTrap 0x11 code)
      (⟨s.cur.pc, s.cur.slotB, s.activeOf g p.toNat, none⟩ :: g.replay))) := by
  rw [exec_bkpt w hb hr hd]
  exact throw_enters w.issues rfl (show 8 < 0x11 by decide) r

theorem exec_bkpt_passes {y : Grid} (w : Acts s (.bkpt p code) g h) (hb : tlook (blkOfGrp s.cur.gk) s.blocks = some b) (hr : g.released = false)
    (hd : debugOn s b.grid = false) (hy : s.gridOf b.grid = some y) (he : trapEntry? y = none) (hh : g.handler = none) :
    exec (.bkpt p code) s = .next (s.begun (.bkpt p code) g) := by
  rw [exec_bkpt w hb hr hd]
  exact runOp_trap (throw_run _ _) (takeTrap_breakpoint (group_begun w.issues rfl) (by simpa using hb) (by rwa [begun_gridOf]) he hh rfl)

/-- Settles O36: TRAP and BKPT by the trap that they raise, a released BKPT by its own equation. -/
theorem trapAndBreakpoint : Obligations.TrapAndBreakpoint := by
  intro s g h b p code
  exact ⟨fun w entry r => exec_trap_enters w r, fun hb w => ⟨exec_bkpt_released w, fun hr hd =>
    ⟨fun entry r => exec_bkpt_enters w hb hr hd r, fun y hy he hh => exec_bkpt_passes w hb hr hd hy he hh⟩⟩⟩

/-! RESUME and ABORT -/

/-- Both words go on in a handler, with an active lane. -/
theorem acts_handler_run (w : Acts s i g h) (he : endsRegion i = false) (hh : g.handler ≠ none) {q : Nat} (hq : predOf i = q)
    {r : EStateM.Result Stop State Unit} {m : Op Unit} (hm : m.run (s.begun i g) = r) : (do
      legal i
      if (← self).handler.isNone then illegal 8
      if (← activeMask q) = 0 then finish
      m : Op Unit).run s = r := by
  subst hq
  refine run_bind_ok (legal_run w.issues) (run_bind_ok (self_begun_plain w.issues he) ?_)
  rw [if_neg (by simpa using hh)]
  refine run_bind_ok (activeMask_begun w.issues _) ?_
  rw [if_neg w.some']
  exact hm

/-- Neither is legal outside one, whatever its lanes (log 34). -/
theorem exec_outside_handler {n : BitVec 6} (hi : i = .resume p n ∨ i = .abort p n) (w : Issues s i g h) (hh : g.handler = none) :
    exec i s = runOp (illegal 8) (s.begun i g) := by
  have houtside (m : Op Unit) : (do
      legal i
      if (← self).handler.isNone then illegal 8
      m : Op Unit).run s = (illegal 8 : Op Unit).run (s.begun i g) := by
    refine run_bind_ok (legal_run w) (run_bind_ok (self_begun w) ?_)
    rw [begun_handler, hh]
    rfl
  obtain rfl | rfl := hi <;> exact runOp_of_run_eq (houtside _)

/-- The return from a handler whose frame holds an SP in range. -/
theorem returnFromTrap_run (hg : tlook s.cur.gk s.groups = some g) (hb : tlook (blkOfGrp s.cur.gk) s.blocks = some b)
    (hsp : (tget 0 g.ctl 99).toNat / 2 ^ 32 ≤ 1024) : returnFromTrap.run s = .ok () (s.setGroup s.cur.gk g.returned) := by
  refine run_bind_ok (get_run _) (run_bind_ok (self_run hg) (run_bind_ok (selfBlock_run hb) ?_))
  rw [if_neg (Nat.not_lt.2 hsp)]
  rfl

/-- What RESUME and ABORT write to TRAPCAUSE. -/
def causeWord (n : BitVec 6) : W64 := BitVec.ofNat 64 (constInt 64 n.toNat)

theorem exec_resume {n : BitVec 6} (w : Acts s (.resume p n) g h) (hb : tlook (blkOfGrp s.cur.gk) s.blocks = some b) (hh : g.handler ≠ none)
    (hp : g.pend = []) (hsp : (tget 0 g.ctl 99).toNat / 2 ^ 32 ≤ 1024) : exec (.resume p n) s =
    .next (s.after (.resume p n) g { g.returned with trapCause := keepRo 0xFFFF00 g.trapCause (causeWord n) }) := by
  have hg := group_begun w.issues rfl
  have hreturn : resumeHere.run (s.begun (.resume p n) g) = .ok () (s.after (.resume p n) g g.returned) := by
    refine run_bind_ok (awaitPending_run hg hp) ((returnFromTrap_run hg (by simpa using hb) hsp).trans ?_)
    rw [begun_gk]
    rfl
  exact runOp_ok (acts_handler_run w rfl hh rfl (run_bind_ok hreturn (modSelf_after _ _)))

/-- The cause with which ABORT ends its grid: the one written, or Program Abort where that is 0 (16_recovery.md R441). -/
def abortCause (v : W64) : Nat := if bits v.toNat 15 8 = 0 then 0x24 else bits v.toNat 15 8

theorem exec_abort {n : BitVec 6} (w : Acts s (.abort p n) g h) (hb : tlook (blkOfGrp s.cur.gk) s.blocks = some b) (hh : g.handler ≠ none) :
    ∃ t, (s.begun (.abort p n) g).leaves (abortGrid b.grid (abortCause (causeWord n))) t ∧ exec (.abort p n) s = .next t := by
  obtain ⟨_, t, ht⟩ := answers_abortGrid b.grid (abortCause (causeWord n)) (s.begun (.abort p n) g)
  have habort : (abortHere (causeWord n)).run (s.begun (.abort p n) g) = .error .done t :=
    run_bind_ok (selfBlock_begun hb) (run_bind_ok ht rfl)
  exact ⟨t, leaves_of_run ht, runOp_done (acts_handler_run w rfl hh rfl habort)⟩

/-- Settles O38: each word by its own equation in a handler, and both alike outside. -/
theorem resumeAndAbort : Obligations.ResumeAndAbort := by
  intro s g h b p n
  dsimp only
  intro hb
  exact ⟨fun hh w hp hsp => exec_resume w hb hh hp hsp, fun hh w => exec_abort w hb hh, fun hh i hi w => exec_outside_handler hi w hh⟩

end Sys2Proof.Machine
end

section
/-! SVC, PAGESYNC and LAUNCH (13_control_sync_ops.md R362 to R364; 09_tiles_leases.md R261). -/

namespace Sys2Proof.Machine

variable {s u : State} {i : Instr} {g : Group} {h : Hdr} {b : Block} {p : BitVec 3} {d a : BitVec 6}

/-! SVC and PAGESYNC -/

theorem sleepOn_begun (w : Issues s i g h) (x : Wait) :
    (sleepOn x).run (s.begun i g) = .ok () (s.after i g ((g.begun i).sleeps x s.cycle)) := by
  rw [sleepOn_run (g := g.begun i) (by simpa using begun_group w.group), begun_gk, begun_cycle]
  rfl

theorem exec_svc_sleeps {n : BitVec 16} (w : Acts s (.svc p d a n) g h) (hq : g.accessing = false) (hn : n.toNat < 0x8000) :
    exec (.svc p d a n) s =
      .next (s.after (.svc p d a n) g ((g.begun (.svc p d a n)).sleeps (.reply d.toNat (g.scalar a.toNat) n.toNat) s.cycle)) := by
  refine runOp_ok (acts_run w rfl (run_bind_ok (awaitAccesses_begun w.issues hq) ((run_if_pos hn).trans
    (run_bind_ok (self_begun w.issues) ?_))))
  rw [begun_scalar]
  exact sleepOn_begun w.issues _

/-- A service that is none of the tenant's writes 1, after an acquire. -/
def unserved (core : Nat) (d : BitVec 6) : Op Unit := do
  acquireCore core
  modSelf fun g => g.setScalar d.toNat 1

theorem answers_modSelf (f : Group → Group) : Answers (modSelf f) := answers_bind answers_get fun _ => answers_modGroup _ _

theorem exec_svc_unserved {n : BitVec 16} (w : Acts s (.svc p d a n) g h) (hq : g.accessing = false) (hn : 0x8000 ≤ n.toNat) :
    ∃ t, (s.begun (.svc p d a n) g).leaves (unserved (coreOfGrp s.cur.gk) d) t ∧ exec (.svc p d a n) s = .next t := by
  refine leaves_of_run_eq (answers_bind (answers_acquireCore _) fun _ => answers_modSelf _) (acts_run w rfl
    (run_bind_ok (awaitAccesses_begun w.issues hq) ((run_if_neg (Nat.not_lt.2 hn)).trans (run_bind_ok (get_run _) ?_))))
  rw [begun_gk]
  rfl

theorem exec_pagesync (w : Acts s (.pagesync p d a) g h) (hb : tlook (blkOfGrp s.cur.gk) s.blocks = some b) (hq : g.accessing = false) :
    exec (.pagesync p d a) s = .next { s.after (.pagesync p d a) g
      ((g.begun (.pagesync p d a)).sleeps (.reply d.toNat (g.scalar a.toNat) 0x8000) s.cycle) with
      dev := { s.dev with syncs := s.dev.syncs ++ [(tenantOf b.grid, (g.scalar a.toNat).toNat / 4096, s.cur.gk)] } } := by
  refine runOp_ok (acts_run w rfl (run_bind_ok (awaitAccesses_begun w.issues hq) (run_bind_ok (get_run _)
    (run_bind_ok (selfTenant_begun hb) (run_bind_ok (self_begun w.issues) (run_bind_ok (modDev_run _ _) ?_))))))
  rw [sleepOn_run (g := g.begun (.pagesync p d a)) (by simpa using begun_group w.issues.group)]
  simp only [begun_gk, begun_cycle, begun_scalar, begun_dev]
  rfl

/-! LAUNCH -/

variable {dst : Dst} {idx : Reg} {ts : List Tgt} {c : LocalCtx}

theorem indexVal_begun (gk l : Nat) (r : Reg) : indexVal (s.begun i g) gk (g.begun i) l r = indexVal s gk g l r := by
  cases r <;> simp [indexVal]

/-- LAUNCH's lanes in ascending order, but those that it has served before it waited. -/
def serveLanes (c : LocalCtx) (dst : Dst) (xs : List (Nat × Tgt)) : Op Unit := do
  xs.forM fun x => do
    if !(← self).launched.getLsbD x.1 then launchLane c dst x.1 x.2
  modSelf fun g => { g with launched := 0 }

/-- The lanes that LAUNCH serves, with the addresses of their records (R363). -/
def recordAddrs (s : State) (g : Group) (a : BitVec 6) (idx : Reg) (ls : List Nat) : List (Nat × Nat) :=
  ls.map fun l => (l, ((g.scalar a.toNat).toNat + 64 * indexVal s s.cur.gk g l idx) % 2 ^ 64)

theorem recordAddrs_begun (ls : List Nat) : recordAddrs (s.begun i g) (g.begun i) a idx ls = recordAddrs s g a idx ls := by
  simp only [recordAddrs, begun_scalar, begun_gk, indexVal_begun]

/-- Two branches that run alike. -/
theorem run_ite_same {α : Type} {k : Prop} [Decidable k] {m n : Op α} {r : EStateM.Result Stop State α} (hm : m.run s = r) (hn : n.run s = r) :
    (if k then m else n).run s = r := by rw [ite_run, hm, hn, ite_self]

theorem exec_launch {ls : List Nat} (w : Acts s (.launch p dst a idx) g h) (hls : launchLanes g.width dst idx (s.activeOf g p.toNat) = ls)
    (hr : s.readable g (ls.flatMap fun l => regElems 4 l idx))
    (hp : passes (s.begun (.launch p dst a idx) g) c needRecord (recordAddrs s g a idx ls) ts u) (hgk : u.cur.gk = s.cur.gk)
    (hg : tlook s.cur.gk u.groups = some c.g) (hq : c.g.accessing = false) (hgood : ∀ t ∈ ts, tgtBad c u 64 t = false) :
    exec (.launch p dst a idx) s = runOp (serveLanes c dst (ls.zip ts)) u := by
  obtain ⟨hlanes, hctx⟩ := passes_run hp
  have helems := checkElems_run (by simpa using begun_group w.issues.group) (readable_group_begun (i := .launch p dst a idx) hr)
  rw [← recordAddrs_begun (i := .launch p dst a idx)] at hlanes
  refine runOp_of_run_eq (acts_mask_run w (q := p.toNat) rfl (run_bind_ok (get_run _) (run_bind_ok (self_begun w.issues) ?_)))
  simp only [begun_width, hls]
  refine run_bind_ok helems (run_bind_ok hlanes (run_bind_ok (awaitAccesses_run (hgk ▸ hg) hq) (run_bind_ok (by rwa [begun_gk, ← hgk])
    (run_ite_same (run_bind_ok (get_run _) ?_) rfl))))
  rw [find?_tgtBad hgood]
  rfl

/-- Settles O40: SVC by whether its service is the tenant's, PAGESYNC and LAUNCH by their own equations. -/
theorem servicesAndLaunch : Obligations.ServicesAndLaunch := by
  intro s g h b p d a hb
  exact ⟨fun n w hq => ⟨exec_svc_sleeps w hq, exec_svc_unserved w hq⟩, fun w hq => exec_pagesync w hb hq,
    fun u dst idx ts c w hr hp hgk hg hq hgood => gives_of_eq (exec_launch w rfl hr hp hgk hg hq hgood)⟩

end Sys2Proof.Machine
end

section
/-! Beam words: decode of encode (14_dispatch_lanterns.md R387, R388). -/

namespace Sys2Proof.Machine

/-! Fields as numbers -/

variable {op : Nat} {d a : BReg} {x : BitVec 18} {f : BitVec 8} {i : Instr}

theorem toNat_append_eq_add {m n : Nat} (u : BitVec m) (v : BitVec n) : (u ++ v).toNat = u.toNat * 2 ^ n + v.toNat := by
  rw [BitVec.toNat_append, Nat.shiftLeft_eq, Nat.mul_comm, Nat.two_pow_add_eq_or_of_lt v.isLt]

theorem toNat_bw : (bw op d a x).toNat = op % 64 * 2 ^ 26 + d.toNat * 2 ^ 22 + a.toNat * 2 ^ 18 + x.toNat := by
  refine (toNat_append_eq_add _ _).trans ?_
  rw [toNat_append_eq_add, toNat_append_eq_add, BitVec.toNat_ofNat]
  omega

theorem toNat_bfld (w : W32) (lo n : Nat) : (bfld w lo n).toNat = w.toNat / 2 ^ lo % 2 ^ n := by
  rw [bfld, BitVec.extractLsb'_toNat, Nat.shiftRight_eq_div_pow]

@[simp] theorem bfld_bw_op : (bfld (bw op d a x) 26 6).toNat = op % 64 := by
  rw [toNat_bfld, toNat_bw]; omega

@[simp] theorem bfld_bw_d : bfld (bw op d a x) 22 4 = d := BitVec.eq_of_toNat_eq (by rw [toNat_bfld, toNat_bw]; omega)
@[simp] theorem bfld_bw_a : bfld (bw op d a x) 18 4 = a := BitVec.eq_of_toNat_eq (by rw [toNat_bfld, toNat_bw]; omega)
@[simp] theorem bfld_bw_x : bfld (bw op d a x) 0 18 = x := BitVec.eq_of_toNat_eq (by rw [toNat_bfld, toNat_bw]; omega)

theorem toNat_offset : (0#10 ++ f : BitVec 18).toNat = f.toNat := (toNat_append_eq_add 0#10 f).trans (by simp)

theorem bfld_bw_offset : bfld (bw op d a (0#10 ++ f)) 0 8 = f :=
  BitVec.eq_of_toNat_eq (by rw [toNat_bfld, toNat_bw, toNat_offset]; omega)

theorem bfld_bw_offset_above : bfld (bw op 0#4 0#4 (0#10 ++ f)) 8 18 = 0#18 :=
  BitVec.eq_of_toNat_eq (by rw [toNat_bfld, toNat_bw, toNat_offset]; simp; omega)

theorem offset_above : (0#10 ++ f : BitVec 18).extractLsb' 8 10 = 0#10 :=
  BitVec.eq_of_toNat_eq (by rw [BitVec.extractLsb'_toNat, toNat_offset, Nat.shiftRight_eq_div_pow]; simp; omega)

theorem bfld_bw_counter (c : BitVec 17) : bfld (bw op d a (1#1 ++ c)) 0 17 = c :=
  BitVec.eq_of_toNat_eq (by rw [toNat_bfld, toNat_bw, toNat_append_eq_add]; omega)

theorem getLsbD_bw_counter (c : BitVec 17) : (bw op d a (1#1 ++ c)).getLsbD 17 = true := by
  rw [BitVec.getLsbD, Nat.testBit_eq_decide_div_mod_eq, toNat_bw, toNat_append_eq_add]
  simp; omega

theorem bfld_bw_dec : bfld (bw op d 0#4 0#18) 0 22 = 0#22 :=
  BitVec.eq_of_toNat_eq (by rw [toNat_bfld, toNat_bw]; simp; omega)

@[simp] theorem bargOf_enc (y : BArg) : bargOf y.enc = some y := by
  cases y with
  | reg r =>
    have hr : (BArg.reg r).enc.toNat = r.toNat := (toNat_append_eq_add 0#14 r).trans (by simp)
    have h17 : (BArg.reg r).enc.getLsbD 17 = false := by
      rw [BitVec.getLsbD, Nat.testBit_eq_decide_div_mod_eq, hr]; simp; omega
    have h4 : (BArg.reg r).enc.extractLsb' 4 13 = 0 :=
      BitVec.eq_of_toNat_eq (by rw [BitVec.extractLsb'_toNat, hr, Nat.shiftRight_eq_div_pow]; simp; omega)
    have h0 : (BArg.reg r).enc.extractLsb' 0 4 = r :=
      BitVec.eq_of_toNat_eq (by rw [BitVec.extractLsb'_toNat, hr, Nat.shiftRight_eq_div_pow]; omega)
    simp only [bargOf, h17, h4, h0]
    rfl
  | imm n =>
    have hn : (BArg.imm n).enc.toNat = 2 ^ 17 + n.toNat := (toNat_append_eq_add 1#1 n).trans (by simp)
    have h17 : (BArg.imm n).enc.getLsbD 17 = true := by
      rw [BitVec.getLsbD, Nat.testBit_eq_decide_div_mod_eq, hn]; simp; omega
    have h0 : (BArg.imm n).enc.extractLsb' 0 17 = n :=
      BitVec.eq_of_toNat_eq (by rw [BitVec.extractLsb'_toNat, hn, Nat.shiftRight_eq_div_pow]; omega)
    simp only [bargOf, h17, h0]
    rfl

/-- A three-operand word is read through the table of its opcodes. -/
theorem decodeBeam_alu {y : BArg} (h : beamAlu op d a y = some i) : decodeBeam (bw op d a y.enc) = .ok i := by
  unfold beamAlu at h
  split at h
  case h_15 => nomatch h
  all_goals
    obtain rfl := Option.some.inj h
    simp only [decodeBeam, bfld_bw_op, bfld_bw_d, bfld_bw_a, bfld_bw_x, bargOf_enc]
    rfl

theorem decodeBeam_ldi (n : BitVec 22) : decodeBeam (BitVec.ofNat 6 0x01 ++ d ++ n) = .ok (.beamLdi d n) := by
  have hw : (BitVec.ofNat 6 0x01 ++ d ++ n : W32).toNat = 2 ^ 26 + d.toNat * 2 ^ 22 + n.toNat := by
    refine (toNat_append_eq_add _ n).trans ?_
    rw [toNat_append_eq_add, BitVec.toNat_ofNat]
    omega
  have hop : (bfld (BitVec.ofNat 6 0x01 ++ d ++ n) 26 6).toNat = 0x01 := by rw [toNat_bfld, hw]; omega
  have hd : bfld (BitVec.ofNat 6 0x01 ++ d ++ n) 22 4 = d := BitVec.eq_of_toNat_eq (by rw [toNat_bfld, hw]; omega)
  have hn : bfld (BitVec.ofNat 6 0x01 ++ d ++ n) 0 22 = n := BitVec.eq_of_toNat_eq (by rw [toNat_bfld, hw]; omega)
  simp only [decodeBeam, hop, hd, hn]

theorem decodeBeam_mov : decodeBeam (bw 0x02 d a 0) = .ok (.beamMov d a) := by
  simp [decodeBeam]

theorem decodeBeam_bf : decodeBeam (bw 0x0F 0 a (0#10 ++ f)) = .ok (.beamBf a f) := by
  simp [decodeBeam, bfld_bw_offset, offset_above]

theorem decodeBeam_jf : decodeBeam (bw 0x10 0 0 (0#10 ++ f)) = .ok (.beamJf f) := by
  simp [decodeBeam, bfld_bw_offset, bfld_bw_offset_above]

theorem decodeBeam_loop : decodeBeam (bw 0x11 0 0 (0#10 ++ f)) = .ok (.beamLoop f) := by
  simp [decodeBeam, bfld_bw_offset, bfld_bw_offset_above]

theorem decodeBeam_ctr {c : BitVec 17} (hc : c.toNat < 12) : decodeBeam (bw 0x13 d a (1#1 ++ c)) = .ok (.beamCtr d a c) := by
  simp [decodeBeam, bfld_bw_counter, getLsbD_bw_counter, hc]

theorem decodeBeam_dec : decodeBeam (bw 0x16 d 0 0) = .ok (.beamDec d) := by
  simp [decodeBeam, bfld_bw_dec]

/-- Settles O44, word by word; the three-operand words through their table. -/
theorem beamWordsRoundTrip : Obligations.BeamWordsRoundTrip := by
  intro i w hwf h
  cases i
  case beamLdi d n => exact Option.some.inj h ▸ decodeBeam_ldi n
  case beamMov d a => exact Option.some.inj h ▸ decodeBeam_mov
  case beamBf a f => exact Option.some.inj h ▸ decodeBeam_bf
  case beamJf f => exact Option.some.inj h ▸ decodeBeam_jf
  case beamLoop n => exact Option.some.inj h ▸ decodeBeam_loop
  case beamEndl => exact Option.some.inj h ▸ rfl
  case beamCtr d a c => exact Option.some.inj h ▸ decodeBeam_ctr (of_decide_eq_true hwf)
  case beamDec d => exact Option.some.inj h ▸ decodeBeam_dec
  case beamRet => exact Option.some.inj h ▸ rfl
  case beamAdd | beamSub | beamMul | beamAnd | beamOr | beamXor | beamShl | beamShr | beamMin | beamMax | beamClt | beamCeq | beamMrd | beamMwr =>
    exact Option.some.inj h ▸ decodeBeam_alu rfl
  all_goals exact absurd h.symm (Option.some_ne_none w)

end Sys2Proof.Machine
end

section
/-! What each Beam word computes (14_dispatch_lanterns.md R387 to R393). -/

namespace Sys2Proof.Machine

variable {s : State} {k : Call} {i : Instr} {d a : BReg} {x : BArg}

/-! Results, as the words compute them and as R388 has them -/

theorem ite_shiftLeft_eq (u v : W32) : (if v.toNat < 32 then u <<< v.toNat else 0) = u <<< v := by
  split
  · rfl
  · exact (BitVec.shiftLeft_eq_zero (by omega)).symm

theorem ite_ushiftRight_eq (u v : W32) : (if v.toNat < 32 then u >>> v.toNat else 0) = u >>> v := by
  split
  · rfl
  · exact (BitVec.ushiftRight_eq_zero (by omega)).symm

theorem ite_toNat_lt_eq {α : Type} (u v : W32) (y z : α) : (if u.toNat < v.toNat then y else z) = if u.ult v then y else z := by
  simp [BitVec.ult]

/-- The test of MRD for an uncorrectable word. -/
theorem unpoisoned_run {w : Nat} (hw : s.poison.moor.contains w = false) (y z : Op Unit) :
    (do
      let s ← get
      if s.poison.moor.contains w then y else z : Op Unit).run s = z.run s := by
  rw [run_bind_ok (get_run s) rfl, hw]
  rfl

/-! The call in progress and its charge (R392) -/

section

variable (hk : (s.lantern s.cur.lan).call = some k) (he : k.ended = 0)
include hk he

theorem callNow_run : callNow.run s = .ok k s :=
  run_bind_ok (get_run s) (run_bind_ok (show (need (s.lantern s.cur.lan).call).run s = .ok k s by rw [hk]; rfl)
    (run_bind_ok (t := s) (a := ()) (by simp [he]) rfl))

theorem charge_covered {n : Nat} (hn : k.charge + n ≤ k.allow) :
    (charge n).run s = .ok { k with charge := k.charge + n } s :=
  run_bind_ok (callNow_run hk he) ((ite_run ..).trans (if_neg (Nat.not_lt.2 hn)))

theorem charge_overrun {n : Nat} (hn : k.allow < k.charge + n) :
    (charge n).run s = .error .done (s.putCall { k with ended := 2 } s.mooring s.poison) :=
  run_bind_ok (callNow_run hk he) ((ite_run ..).trans (if_pos hn))

/-- A word is its charge and what it does with the call that has been charged. -/
theorem beamRuns_of_charge {r : BeamResult} {m : Call → Op Unit} (hi : exec i s = runOp (charge r.cost >>= m) s)
    (hm : (m { k with charge := k.charge + r.cost }).run s =
      .ok () (s.putCall { r.call with charge := k.charge + r.cost } r.mooring r.poison)) : beamRuns s k i r :=
  ⟨fun hn => hi.trans (runOp_ok (run_bind_ok (charge_covered hk he hn) hm)),
    fun hn => hi.trans (runOp_done (by rw [bind_run, charge_overrun hk he hn]))⟩

/-- A three-operand word. -/
theorem beamRuns_bin {f : W32 → W32 → W32} (hi : exec i s = runOp (beamBin d a x f) s) {v : W32} (hv : f (k.reg a) (k.arg x) = v) :
    beamRuns s k i (beamPlain s (k.setReg d v).step) := by
  subst hv
  exact beamRuns_of_charge (m := fun c => putCall (c.setReg d (f (c.reg a) (c.arg x))).step) hk he hi rfl

/-- A word whose whole effect is on its call. -/
theorem beamRuns_plain {φ : Call → Call} {y : Call} (hi : exec i s = runOp (charge 1 >>= fun c => putCall (φ c)) s)
    (hy : φ { k with charge := k.charge + 1 } = { y with charge := k.charge + 1 }) : beamRuns s k i (beamPlain s y) :=
  beamRuns_of_charge (m := fun c => putCall (φ c)) hk he hi (by
    show (putCall (φ { k with charge := k.charge + 1 })).run s = _
    rw [hy]
    rfl)

theorem beamRuns_bf {f : BitVec 8} :
    beamRuns s k (.beamBf a f) (beamPlain s (if k.reg a = 0 then k.goto (k.pc + f.toNat) else k.step)) := by
  refine beamRuns_plain hk he rfl ?_
  show (if k.reg a = 0 then _ else _) = _
  split <;> rfl

theorem beamRuns_endl_outside (hl : k.loops = []) :
    beamRuns s k .beamEndl (beamPlain s k.step) := by
  refine beamRuns_of_charge hk he rfl ?_
  split
  · next h => cases hl.symm.trans h
  · rfl

theorem beamRuns_endl_inside {p n : Nat} {rest : List (Nat × Nat)} (hl : k.loops = (p, n) :: rest) :
    beamRuns s k .beamEndl (beamPlain s (if n ≤ 1 then { k with pc := k.pc + 1, loops := rest }
      else { k with pc := p + 1, loops := (p, n - 1) :: rest })) := by
  refine beamRuns_of_charge hk he rfl ?_
  split
  · next h =>
    cases hl.symm.trans h
    split <;> rfl
  · next h => cases hl.symm.trans h

theorem beamRuns_mrd (hw : s.poison.moor.contains (k.moorWord a x) = false) :
    beamRuns s k (.beamMrd d a x) ⟨12, (k.setReg d (tget 0 s.mooring (k.moorWord a x))).step, s.mooring, s.poison⟩ :=
  beamRuns_of_charge hk he rfl (unpoisoned_run hw _ _)

end

/-- Settles O43, word by word: the three-operand words alike, those on the call alone alike. -/
theorem beamWordsCompute : Obligations.BeamWordsCompute := by
  intro s k hk he
  refine ⟨fun d a x => ⟨?add, ?sub, ?mul, ?and, ?or, ?xor, ?shl, ?shr, ?min, ?max, ?clt, ?ceq, ?mov, ?dec, fun n => ?ldi⟩,
    fun a f => ⟨beamRuns_bf hk he, ?jf, ?loop⟩, beamRuns_endl_outside hk he, fun p n rest => beamRuns_endl_inside hk he, ?ret,
    fun d a c => beamRuns_of_charge hk he rfl rfl, fun d a x => ⟨beamRuns_mrd hk he, beamRuns_of_charge hk he rfl rfl⟩⟩
  case add | sub | mul | and | or | xor | ceq => exact beamRuns_bin hk he rfl rfl
  case shl => exact beamRuns_bin hk he rfl (ite_shiftLeft_eq _ _)
  case shr => exact beamRuns_bin hk he rfl (ite_ushiftRight_eq _ _)
  case min | max | clt => exact beamRuns_bin hk he rfl (ite_toNat_lt_eq _ _ _ _)
  case mov | dec | ldi | jf | loop | ret => exact beamRuns_plain hk he rfl rfl

end Sys2Proof.Machine
end

section
/-! Submission, header check and retirement (14_dispatch_lanterns.md R369, R370, R372, R374, R399; 16_recovery.md R453, R454). -/

namespace Sys2Proof.Machine

variable {s u v : State} {n j qk a : Nat} {g : Grid} {h h2 : Hdr}

/-- A queue of a tenant that the package has. -/
theorem queue_there (hn : n < 1024) (hj : j < 64) : (1024 ≤ n || 64 ≤ j : Bool) = false := by
  rw [decide_eq_false (Nat.not_le.2 hn), decide_eq_false (Nat.not_le.2 hj)]
  rfl

theorem tenantOf_queue (hj : j < 64) : tenantOf (n * 64 + j) = n := by
  unfold tenantOf
  omega

/-! Submissions (R369) -/

/-- A submission is taken, or refused because its queue does not accept records or is full. -/
def takeSubmit (s : State) (qk : Nat) (v : W64) : Op Unit :=
  if !accepts s qk then refuseSubmit qk 2
  else if queueFull s qk then refuseSubmit qk 1
  else modQueue qk fun q => { q with submits := q.submits ++ [v.toNat / 64 * 64] }

theorem exec_qsubmit {v : W64} (hn : n < 1024) (hj : j < 64) (hs : s.dev.state = 4) (ht : (s.fn n).tdisp ≠ 3) :
    exec (.qsubmit n j v) s = runOp (takeSubmit s (n * 64 + j) v) s := by
  refine (onUnit_there (queue_there hn hj)).trans (runOp_of_run_eq (run_bind_ok (get_run _) (run_bind_ok (require_ok ?_) rfl)))
  rw [tenantOf_queue hj]
  simpa [hs] using ht

theorem takeSubmit_taken {v : W64} (ha : accepts s qk = true) (hf : queueFull s qk = false) :
    takeSubmit s qk v = modQueue qk fun q => { q with submits := q.submits ++ [v.toNat / 64 * 64] } := by
  simp [takeSubmit, ha, hf]

theorem takeSubmit_closed {v : W64} (ha : accepts s qk = false) : takeSubmit s qk v = refuseSubmit qk 2 := by
  simp [takeSubmit, ha]

theorem takeSubmit_full {v : W64} (ha : accepts s qk = true) (hf : queueFull s qk = true) : takeSubmit s qk v = refuseSubmit qk 1 := by
  simp [takeSubmit, ha, hf]

/-! The header check (R372 steps 3 to 5) -/

/-- The grid is to retire with a status. -/
def failGrid (qk st : Nat) : Op Unit := modGrid qk fun g => { g with retiring := some (st, 0) }

/-- The grid has its header, and enters READY. -/
def passGrid (qk p : Nat) (h : Hdr) (at' : Nat) (fb : Bool) : Op Unit := do
  modGrid qk fun g => { g with hdr := some h, hdrAt := at', fb := fb }
  wakeGrid qk
  tickIfIdle p

/-- The check of the fallback's header, as it was read; `st` is the status of the first header. -/
def checkFallback (s : State) (qk p st : Nat) (r : LRec) (x : Option Nat) : Op Unit :=
  match x.bind headerOf with
  | none => failGrid qk st
  | some h => if launchStatus s qk h = 0 && r.blocks % h.cluster = 0 then passGrid qk p h (r.word 1) true else failGrid qk st

/-- The check of a header, as it was read. -/
def checkHeader (s : State) (qk p : Nat) (r : LRec) (x : Option Nat) : Op Unit :=
  match x.bind headerOf with
  | none => failGrid qk stBadHdr
  | some h =>
    if r.blocks % h.cluster != 0 || (r.word 1 != 0) != (h.fallback != 0) then failGrid qk stBadRec
    else if launchStatus s qk h = 0 then passGrid qk p h (r.word 0) false
    else if h.fallback = 0 then failGrid qk (launchStatus s qk h)
    else feRead qk (r.word 1) 128 >>= checkFallback s qk p (launchStatus s qk h) r

theorem answers_failGrid (qk st : Nat) : Answers (failGrid qk st) := answers_modGrid _ _

section

variable {p st : Nat} {r : LRec} {x : Option Nat}

theorem checkHeader_invalid (hx : x.bind headerOf = none) : checkHeader s qk p r x = failGrid qk stBadHdr := by
  unfold checkHeader
  rw [hx]

/-- A record does not fit its header by its clusters or by its fallback (R372 step 4). -/
theorem badRecord_iff : (r.blocks % h.cluster != 0 || (r.word 1 != 0) != (h.fallback != 0)) = true ↔
    r.blocks % h.cluster ≠ 0 ∨ ¬(r.word 1 ≠ 0 ↔ h.fallback ≠ 0) := by
  have hfb : (r.word 1 != 0) = (h.fallback != 0) ↔ (r.word 1 ≠ 0 ↔ h.fallback ≠ 0) := by rw [Bool.eq_iff_iff, bne_iff_ne, bne_iff_ne]
  simp only [Bool.or_eq_true, bne_iff_ne, ne_eq, hfb]

theorem checkHeader_misfit (hx : x.bind headerOf = some h) (hb : r.blocks % h.cluster ≠ 0 ∨ ¬(r.word 1 ≠ 0 ↔ h.fallback ≠ 0)) :
    checkHeader s qk p r x = failGrid qk stBadRec := by
  unfold checkHeader
  rw [hx]
  exact if_pos (badRecord_iff.2 hb)

/-- A record that fits its header: what follows depends on whether the object may launch. -/
theorem checkHeader_fits (hx : x.bind headerOf = some h) (hb : ¬(r.blocks % h.cluster ≠ 0 ∨ ¬(r.word 1 ≠ 0 ↔ h.fallback ≠ 0))) :
    checkHeader s qk p r x = if launchStatus s qk h = 0 then passGrid qk p h (r.word 0) false
      else if h.fallback = 0 then failGrid qk (launchStatus s qk h)
      else feRead qk (r.word 1) 128 >>= checkFallback s qk p (launchStatus s qk h) r := by
  unfold checkHeader
  rw [hx]
  exact if_neg (badRecord_iff.not.2 hb)

theorem checkFallback_passes (hx : x.bind headerOf = some h2) (hs : launchStatus s qk h2 = 0) (hc : r.blocks % h2.cluster = 0) :
    checkFallback s qk p st r x = passGrid qk p h2 (r.word 1) true := by
  unfold checkFallback
  rw [hx]
  exact if_pos (by simp [hs, hc])

end

/-- A queue's grid whose header is to be checked. -/
structure ChecksHeader (s : State) (qk : Nat) (g : Grid) : Prop where
  grid : s.gridOf qk = some g
  waiting : g.state = .waiting
  goes : g.retiring = none
  deps : g.deps = []
  answered : (s.queue qk).waits = none

theorem exec_headerCheck (hn : n < 1024) (hj : j < 64) (w : ChecksHeader s (n * 64 + j) g) : exec (.headerCheck n j) s =
    runOp (feRead (n * 64 + j) (g.record.word 0) 128 >>= checkHeader s (n * 64 + j) (s.partOf n) g.record) s := by
  refine (onUnit_there (queue_there hn hj)).trans (runOp_of_run_eq (run_bind_ok (get_run _) (run_bind_ok (t := s) (a := g) ?_
    (run_bind_ok (require_ok ?_) rfl))))
  · rw [w.grid]; rfl
  · simp [w.waiting, w.goes, w.deps, w.answered]

/-- What the check makes of the header that the front end reads. -/
theorem headerCheck_read {r : Option Nat} (hn : n < 1024) (hj : j < 64) (w : ChecksHeader s (n * 64 + j) g)
    (hr : reply (feRead (n * 64 + j) (g.record.word 0) 128) s = some (r, u)) :
    exec (.headerCheck n j) s = runOp (checkHeader s (n * 64 + j) (s.partOf n) g.record r) u :=
  (exec_headerCheck hn hj w).trans (runOp_of_run_eq (run_bind_ok (reply_some hr) rfl))

theorem fails_of_eq {m : Op Unit} {x : Host.Outcome State Fault Refusal} {st : Nat} (hx : x = runOp m u) (hm : m = failGrid qk st) :
    ∃ t, u.leaves (failGrid qk st) t ∧ x = .next t :=
  hx ▸ leaves_of_run_eq (answers_failGrid qk st) (congrArg (EStateM.run · u) hm)

/-- Settles O49, event by event; the header check by what it makes of each header read. -/
theorem queueEvents : Obligations.QueueEvents := by
  intro s n j hn hj
  refine ⟨fun v hs ht => ⟨fun ha hf => ?taken, fun ha => ?closed, fun ha hf => ?full⟩, fun a rest hw hq => ?append,
    fun g hg hwait hret hdeps hw => ?check, fun g h u r hg hwait hret hdeps hw hr => ?read, ?retire, ?abort, fun v hs ht => ?qctl,
    fun g a hg ha hd hdue hlate => ?deadline⟩
  case taken => rw [exec_qsubmit hn hj hs ht, takeSubmit_taken ha hf]; rfl
  case closed => rw [exec_qsubmit hn hj hs ht, takeSubmit_closed ha]; rfl
  case full => rw [exec_qsubmit hn hj hs ht, takeSubmit_full ha hf]; rfl
  case append =>
    refine gives_of_eq ((onUnit_there (queue_there hn hj)).trans (runOp_of_run_eq (run_bind_ok (get_run _)
      (run_bind_ok (require_ok ?_) (run_bind_ok (t := s) (a := a) ?_ rfl)))))
    · rw [hw]; rfl
    · rw [hq]; rfl
  case check => exact gives_of_eq (exec_headerCheck hn hj ⟨hg, hwait, hret, hdeps, hw⟩)
  case read =>
    have hx := headerCheck_read hn hj ⟨hg, hwait, hret, hdeps, hw⟩ hr
    refine ⟨fun hnone => fails_of_eq hx (checkHeader_invalid hnone), fun hsome =>
      ⟨fun hbad => fails_of_eq hx (checkHeader_misfit hsome hbad), ?_⟩⟩
    have hfits := checkHeader_fits (s := s) (qk := n * 64 + j) (p := s.partOf n) (r := g.record) hsome
    refine ⟨fun hb hst hfb => ?_, fun hb hst => ?_, fun r2 h2 v hb hst hfb hr2 hh2 hst2 hc2 => ?_⟩
    · rw [hfits hb, if_neg hst, if_pos hfb] at hx
      exact fails_of_eq hx rfl
    · rw [hfits hb, if_pos hst] at hx
      exact gives_of_eq hx
    · rw [hfits hb, if_neg hst, if_neg hfb] at hx
      refine gives_of_eq (hx.trans (runOp_of_run_eq (run_bind_ok (reply_some hr2) ?_)))
      rw [checkFallback_passes hh2 hst2 hc2]
      rfl
  case retire => exact gives_of_eq (onUnit_there (queue_there hn hj))
  case abort =>
    rw [show exec (.qgridAbort n j) s = runOp (abortGrid (n * 64 + j) 0x25) s from onUnit_there (queue_there hn hj)]
    exact leaves_of_run_eq (answers_abortGrid _ _) rfl
  case qctl => exact gives_of_eq ((onUnit_there (queue_there hn hj)).trans (runOp_of_run_eq (run_bind_ok (fnReady_run hs (.inr ht)) rfl)))
  case deadline =>
    refine gives_of_eq ((onUnit_there (queue_there hn hj)).trans (runOp_of_run_eq (run_bind_ok (get_run _)
      (run_bind_ok (t := s) (a := g) ?_ (run_bind_ok (t := s) (a := a) ?_ (run_bind_ok (require_ok ?_) rfl))))))
    · rw [hg]; rfl
    · rw [ha]; rfl
    · simp [hd, hdue, hlate]

end Sys2Proof.Machine
end

section
/-! Loading of Lantern routines, and Mooring (14_dispatch_lanterns.md R391, R394 to R397; 15_isolation.md R409). -/

namespace Sys2Proof.Machine

variable {s u : State} {f a : Nat} {v : W64} {m : Image} {bs : List Byte}

theorem fn_there (hf : f ≤ pfn) : decide (pfn < f) = false := decide_eq_false (Nat.not_lt.2 hf)

/-! LNLOAD (R396) -/

/-- A function's registers take effect, and Opbel is not at work for it. -/
structure Loads (s : State) (f : Nat) : Prop where
  there : f ≤ pfn
  ready : s.dev.state = 4
  trusted : f = pfn ∨ (s.fn f).tdisp ≠ 3
  free : (s.fn f).lnstat % 256 ≠ 0xFF

theorem exec_lnload_unload (w : Loads s f) (hv : v.toNat / 64 = 0) : exec (.lnload f v) s = runOp (lnUnload f (v.toNat % 8)) s :=
  (onUnit_there (fn_there w.there)).trans (runOp_of_run_eq (run_bind_ok (fnReady_run w.ready w.trusted) (run_bind_ok (get_run _)
    (run_bind_ok (require_ok (bne_iff_ne.2 w.free)) (run_if_pos hv)))))

/-- Opbel begins with an image. -/
def beginCheck (f a bound point : Nat) : Op Unit := do
  setLnStat f bound point 0xFF
  modFn f fun x => { x with checking := some a }

theorem exec_lnload_check (w : Loads s f) (hv : v.toNat / 64 ≠ 0) : exec (.lnload f v) s =
    runOp (beginCheck f (v.toNat / 64 * 64) ((s.fn f).lnstat / 2 ^ 32) ((s.fn f).lnstat / 256)) s :=
  (onUnit_there (fn_there w.there)).trans (runOp_of_run_eq (run_bind_ok (fnReady_run w.ready w.trusted) (run_bind_ok (get_run _)
    (run_bind_ok (require_ok (bne_iff_ne.2 w.free)) (run_if_neg hv)))))

theorem answers_beginCheck (f a bound point : Nat) : Answers (beginCheck f a bound point) :=
  answers_bind (answers_setLnStat _ _ _ _) fun _ => answers_modFn _ _

theorem exec_lnloadUnload (w : Loads s f) (n : Nat) : exec (.lnloadUnload f n) s = runOp (lnUnload f (n % 8)) s :=
  (onUnit_there (fn_there w.there)).trans (runOp_of_run_eq (run_bind_ok (fnReady_run w.ready w.trusted) (run_bind_ok (get_run _)
    (run_bind_ok (require_ok (bne_iff_ne.2 w.free)) rfl))))

/-! Opbel's answer (R395, R396) -/

/-- A routine is loaded at its point; the hypervisor's is measured. -/
def loadRoutine (f b point : Nat) (m : Image) (bs : List Byte) : Op Unit := do
  setLnStat f b point 0
  modFn f fun x => { x with
    routines := x.routines.filter (fun y => y.point != point) ++ [⟨if f = pfn then none else some f, point, m.win, m.winlog, m.code⟩] }
  if f = pfn then extendMeas 2 (sha256 bs)

theorem answers_loadRoutine (f b point : Nat) (m : Image) (bs : List Byte) : Answers (loadRoutine f b point m bs) := by
  refine answers_bind (answers_setLnStat _ _ _ _) fun _ => answers_bind (answers_modFn _ _) fun _ => ?_
  split
  · exact answers_extendMeas _ _
  · exact answers_pure _

/-- A failure whose BOUND is open (log 13). -/
def reportOpen (f point st : Nat) : Op Unit := do setLnStat f ((← freeValue).toNat % 2 ^ 32) point st

/-- Opbel's answer to a valid image. -/
def judgeImage (f point : Nat) (m : Image) (bs : List Byte) : Op Unit :=
  if codeStatus m.code != 0 then reportOpen f point (codeStatus m.code)
  else do
    let s ← get
    if !winOk s f m.win m.winlog then setLnStat f (boundOf m.code) point 6
    else if !pointOk f point then setLnStat f (boundOf m.code) point 7
    else loadRoutine f (boundOf m.code) point m bs

/-- Opbel's answer to an image as far as it could be read. -/
def judge (f : Nat) : Option (List Byte) → Op Unit
  | none => do setLnStat f ((← freeValue).toNat % 2 ^ 32) (← freeValue).toNat 1
  | some bs =>
    let point := ((bs.drop 3).headD 0).toNat
    match imageOf bs with
    | none => reportOpen f point 1
    | some m => judgeImage f point m bs

/-- The state in which Opbel has taken up an image. -/
def State.judging (s : State) (f : Nat) : State := { s with fns := tput {} s.fns f { s.fn f with checking := none } }

theorem exec_opbelCheckDone {r : Option (List Byte)} (hf : f ≤ pfn) (hc : (s.fn f).checking = some a)
    (hr : (readImage f a).run (s.judging f) = .ok r u) : exec (.opbelCheckDone f) s = runOp (judge f r) u := by
  refine (onUnit_there (fn_there hf)).trans (runOp_of_run_eq (run_bind_ok (get_run _) (run_bind_ok (t := s) (a := a) ?_
    (run_bind_ok (modFn_run _ _ _) (run_bind_ok hr ?_)))))
  · rw [hc]; rfl
  · cases r <;> rfl

/-- What Opbel tells: the state that its answer leaves. -/
theorem told_of_eq {x : Host.Outcome State Fault Refusal} {m : Op Unit} {t : State} {b p st : Nat} (hx : x = runOp m u)
    (hm : m.run u = (setLnStat f b p st).run t) : ∃ w, t.leaves (setLnStat f b p st) w ∧ x = .next w :=
  hx ▸ leaves_of_run_eq (answers_setLnStat _ _ _ _) hm

theorem reportOpen_run (f point st : Nat) (u : State) : (reportOpen f point st).run u =
    (setLnStat f ((Config.freeWord u.freeCtr).toNat % 2 ^ 32) point st).run { u with freeCtr := u.freeCtr + 1 } := rfl

theorem judge_unread (f : Nat) (u : State) : (judge f none).run u =
    (setLnStat f ((Config.freeWord u.freeCtr).toNat % 2 ^ 32) (Config.freeWord (u.freeCtr + 1)).toNat 1).run
      { u with freeCtr := u.freeCtr + 2 } := rfl

theorem judge_invalid (hm : imageOf bs = none) : judge f (some bs) = reportOpen f ((bs.drop 3).headD 0).toNat 1 := by
  simp only [judge, hm]

theorem judge_image (hm : imageOf bs = some m) : judge f (some bs) = judgeImage f ((bs.drop 3).headD 0).toNat m bs := by
  simp only [judge, hm]

section

variable {point : Nat}

theorem judgeImage_code (hc : codeStatus m.code ≠ 0) : judgeImage f point m bs = reportOpen f point (codeStatus m.code) :=
  if_pos (bne_iff_ne.2 hc)

/-- An image whose words pass: what follows depends on its window and its point. -/
theorem judgeImage_run (hc : codeStatus m.code = 0) : (judgeImage f point m bs).run u =
    (if !winOk u f m.win m.winlog then setLnStat f (boundOf m.code) point 6
      else if !pointOk f point then setLnStat f (boundOf m.code) point 7
      else loadRoutine f (boundOf m.code) point m bs).run u := by
  unfold judgeImage
  rw [hc]
  rfl

theorem judgeImage_window (hc : codeStatus m.code = 0) (hw : winOk u f m.win m.winlog = false) :
    (judgeImage f point m bs).run u = (setLnStat f (boundOf m.code) point 6).run u := by
  rw [judgeImage_run hc, hw]
  rfl

theorem judgeImage_point (hc : codeStatus m.code = 0) (hw : winOk u f m.win m.winlog = true) (hp : pointOk f point = false) :
    (judgeImage f point m bs).run u = (setLnStat f (boundOf m.code) point 7).run u := by
  rw [judgeImage_run hc, hw, hp]
  rfl

theorem judgeImage_loads (hc : codeStatus m.code = 0) (hw : winOk u f m.win m.winlog = true) (hp : pointOk f point = true) :
    (judgeImage f point m bs).run u = (loadRoutine f (boundOf m.code) point m bs).run u := by
  rw [judgeImage_run hc, hw, hp]
  rfl

end

/-! Mooring (R391) -/

theorem moor_there {w : Nat} (hw : w < 262144) : decide (262144 ≤ w) = false := decide_eq_false (Nat.not_le.2 hw)

theorem exec_hvMooring_write {w : Nat} (hw : w < 262144) (hs : s.dev.state = 4) (x : W32) : exec (.hvMooringAccess w (some x)) s = .next { s with
    mooring := tput 0 s.mooring w x, poison := { s.poison with moor := s.poison.moor.filter (· != w) } } :=
  (onUnit_there (moor_there hw)).trans (runOp_ok (run_bind_ok (fnReady_run hs (.inl rfl)) (run_bind_ok (get_run _) rfl)))

theorem exec_hvMooring_read {w : Nat} (hw : w < 262144) (hs : s.dev.state = 4) (hp : s.poison.moor.contains w = false) :
    exec (.hvMooringAccess w none) s = .next { s with out := toBytes 4 (tget 0 s.mooring w).toNat :: s.out } := by
  refine (onUnit_there (moor_there hw)).trans (runOp_ok (run_bind_ok (fnReady_run hs (.inl rfl)) (run_bind_ok (get_run _) ?_)))
  dsimp only
  rw [hp]
  rfl

/-- Settles O51, event by event; Opbel's answer by what could be read of the image. -/
theorem loadingEvents : Obligations.LoadingEvents := by
  intro s hs
  refine ⟨fun f v hf ht hfree => ?lnload, fun f a hf hc => ?opbel, fun p v hp => ?pdmoor, fun n v hn => ?tdpart,
    fun w hw => ⟨exec_hvMooring_write hw hs, exec_hvMooring_read hw hs⟩⟩
  case lnload =>
    have w : Loads s f := ⟨hf, hs, ht, hfree⟩
    refine ⟨fun hv => exec_lnload_unload w hv, fun hv => ?_, fun n => exec_lnloadUnload w n⟩
    rw [exec_lnload_check w hv]
    exact leaves_of_run_eq (answers_beginCheck _ _ _ _) rfl
  case opbel =>
    obtain ⟨r, u, hr⟩ := answers_readImage f a (s.judging f)
    have hx := exec_opbelCheckDone hf hc hr
    refine ⟨r, u, reply_of_run hr, fun hnone => ?_, fun bs hbs => ?_⟩
    · subst hnone
      exact told_of_eq hx (judge_unread f u)
    subst hbs
    refine ⟨fun hm => told_of_eq (hx.trans (congrArg (runOp · u) (judge_invalid hm))) (reportOpen_run ..), fun m hm => ?_⟩
    rw [judge_image hm] at hx
    refine ⟨fun hcode => told_of_eq (hx.trans (congrArg (runOp · u) (judgeImage_code hcode))) (reportOpen_run ..), fun hcode => ?_⟩
    refine ⟨fun hw => told_of_eq hx (judgeImage_window hcode hw), fun hw hp => told_of_eq hx (judgeImage_point hcode hw hp), fun hw hp => ?_⟩
    exact hx ▸ leaves_of_run_eq (answers_loadRoutine _ _ _ _ _) (judgeImage_loads hcode hw hp)
  case pdmoor => exact gives_of_eq (onUnit_there (decide_eq_false (Nat.not_le.2 hp)))
  case tdpart => exact gives_of_eq (onUnit_there (decide_eq_false (Nat.not_le.2 hn)))

end Sys2Proof.Machine
end

section
/-! Scheduling events (14_dispatch_lanterns.md R379 to R382, R390, R398; 15_isolation.md R424; 16_recovery.md R452). -/

namespace Sys2Proof.Machine

variable {s u v : State} {lan p n j : Nat} {g : Grid}

/-! PICK (R379) -/

/-- Whether a chosen grid may not begin: its partition's resources are about to change (15_isolation.md R406). -/
def barredIn (s : State) (p : Nat) (g : Grid) : Bool :=
  g.state = .ready && ((s.part p).pending.isSome || (s.dev.poolPending && usePool s p))

/-- The chosen grid's next cluster is placed. -/
def placeNext (s : State) (lan p qk : Nat) : Op Unit := do
  featFirst p
  let k ← placeCluster lan p qk
  if k != 0 then modLantern lan fun l => { l with nextPick := s.cycle + 8 * k }

/-- What follows PICK's choice. -/
def placeChosen (s : State) (lan p : Nat) : Option (Nat × Grid) → Op Unit
  | none => pure ()
  | some (qk, g) => if barredIn s p g then pure () else placeNext s lan p qk

/-- PICK is due at a Lantern, and partition `p` with its tenant `n` is next. -/
structure Picks (s : State) (lan p n : Nat) : Prop where
  there : lan < 32
  due : (s.lantern lan).nextPick ≤ s.cycle
  powered : s.dev.power < 2
  next : (((s.parts.map (·.1)).filter (canPick s lan)).find? ((s.lantern lan).lastPart < ·)).orElse
    (fun _ => ((s.parts.map (·.1)).filter (canPick s lan)).head?) = some p
  tenant : (s.part p).tenant = some n

/-- The state in which PICK calls a partition's routine. -/
def State.picking (s : State) (lan p : Nat) : State :=
  { s with lanterns := tput {} s.lanterns lan { s.lantern lan with lastPart := p, nextPick := s.cycle + 64 } }

theorem exec_lanternPick (w : Picks s lan p n) :
    exec (.lanternPick lan) s = runOp (pickPoint lan p n >>= placeChosen s lan p) (s.picking lan p) := by
  refine (onUnit_there (decide_eq_false (Nat.not_le.2 w.there))).trans (runOp_of_run_eq (run_bind_ok (get_run _)
    (run_bind_ok (require_ok ?_) (run_bind_ok (t := s) (a := p) ?_ (run_bind_ok (t := s) (a := n) ?_ (run_bind_ok (modLantern_run _ _ _) rfl))))))
  · simp [w.due, w.powered]
  · rw [w.next]; rfl
  · rw [w.tenant]; rfl

/-! BLOCK (R382) -/

/-- The resident groups of a queue's grid in a sector. -/
def groupsHere (s : State) (lan qk : Nat) : List (Nat × Group) :=
  s.groups.filter fun e => sectorOf (quadOfCore (coreOfGrp e.1)) = lan &&
    (match tlook (blkOfGrp e.1) s.blocks with
    | some b => b.grid = qk
    | none => false)

theorem exec_lanternBlock (hl : lan < 32) (hn : n < 1024) (hj : j < 64) (hg : s.gridOf (n * 64 + j) = some g) (hrun : g.state = .running)
    (hret : g.retiring = none) (hhere : groupsHere s lan (n * 64 + j) ≠ [])
    (hsleep : ∀ e ∈ groupsHere s lan (n * 64 + j), ∃ z, e.2.asleep = some z ∧ z.since + 4096 ≤ s.cycle) :
    exec (.lanternBlock lan n j) s = runOp (do if ← blockPoint lan (s.partOf n) (n * 64 + j) g then drainGrid (n * 64 + j)) s := by
  have hthere : (32 ≤ lan || 1024 ≤ n || 64 ≤ j : Bool) = false := by simp [hl, hn, hj]
  have hall : ((groupsHere s lan (n * 64 + j)).all fun e => match e.2.asleep with
      | some z => z.since + 4096 ≤ s.cycle
      | none => false) = true := by
    refine List.all_eq_true.2 fun e he => ?_
    obtain ⟨z, hz, hlate⟩ := hsleep e he
    rw [hz]
    exact decide_eq_true hlate
  have hsome : (!(groupsHere s lan (n * 64 + j)).isEmpty) = true := by simpa using hhere
  refine (onUnit_there hthere).trans (runOp_of_run_eq (run_bind_ok (get_run _) (run_bind_ok (t := s) (a := g) ?_
    (run_bind_ok (require_ok ?_) rfl))))
  · rw [hg]; rfl
  · rw [decide_eq_true hrun, hret]
    exact Bool.and_eq_true_iff.2 ⟨hsome, hall⟩

/-! Slices, epochs and shrinks (R381, R390, R398; 16_recovery.md R452) -/

theorem part_there (hp : p < 64) : decide (64 ≤ p) = false := decide_eq_false (Nat.not_le.2 hp)

theorem placing_due (ht : (s.part p).tenant ≠ none) (hw : (s.part p).switching = false) {d : Prop} [Decidable d] (hd : d) :
    ((s.part p).tenant.isSome && !(s.part p).switching && decide d) = true := by
  rw [Option.isSome_iff_ne_none.2 ht, hw, decide_eq_true hd]
  rfl

theorem exec_sliceEnd (hp : p < 64) (ht : (s.part p).tenant ≠ none) (hw : (s.part p).switching = false)
    (hd : (s.part p).sliceEnd ≤ s.cycle) : exec (.sliceEnd p) s = runOp (chooseTenant p) s :=
  (onUnit_there (part_there hp)).trans (runOp_of_run_eq (run_bind_ok (get_run _) (run_bind_ok (require_ok (placing_due ht hw hd)) rfl)))

/-! The switch sequencer (15_isolation.md R424) -/

/-- The outgoing tenant `n` gives up its die stores, and the partition takes its feature mask. -/
def clearTenant (s : State) (p n : Nat) : Op Unit := do
  if (s.part p).featPending then applyFeat p
  (queuesOf s n).forM fun e => match e.2.active with
    | some g => do
      g.dieGens.forM fun (d, v) => endDieGen d v
      modGrid e.1 fun g => { g with dieGens := [] }
    | none => pure ()

theorem answers_clearTenant (s : State) (p n : Nat) : Answers (clearTenant s p n) := by
  have hqueues : Answers ((queuesOf s n).forM fun e => match e.2.active with
      | some g => do
        g.dieGens.forM fun (d, v) => endDieGen d v
        modGrid e.1 fun g => { g with dieGens := [] }
      | none => pure ()) := by
    refine answers_forM (fun e => ?_) _
    split
    · exact answers_bind (answers_forM (fun _ => answers_endDieGen _ _) _) fun _ => answers_modGrid _ _
    · exact answers_pure _
  exact answers_ite (answers_bind (answers_applyFeat _) fun _ => hqueues) hqueues

/-- The outgoing tenant has drained. -/
structure Switches (s : State) (p n : Nat) : Prop where
  there : p < 64
  last : (s.part p).lastTenant = some n
  switching : (s.part p).switching = true
  begins : (s.part p).switchTill = none
  blocks : (s.blocks.any fun e => tenantOf e.2.grid = n) = false
  contribs : (s.contribs.any fun c => c.2.tenant = n) = false
  jobs : (s.dies.any fun d => d.2.jobs.any fun j => j.2.tenant = n) = false
  grids : ((gridsOf s p).all fun e => tenantOf e.1 != n || (e.2.state != .running && e.2.state != .draining)) = true

/-- An operation between an optional one before it and the rest. -/
theorem run_opt_bind {α : Type} {c : Prop} [Decidable c] {m : Op PUnit} {k : Op PUnit} {f : PUnit → Op α} {r : EStateM.Result Stop State α}
    (h : (if c then m >>= fun _ => k else k).run s = .ok () u) (hf : (f ()).run u = r) :
    (if c then m >>= fun _ => k >>= f else k >>= f).run s = r := by
  split at h
  · next hc =>
    rw [if_pos hc, ← bind_assoc]
    exact run_bind_ok h hf
  · next hc =>
    rw [if_neg hc]
    exact run_bind_ok h hf

/-- The state in which the sequencer is at work: what is left in the partition's cores, dies and Lanterns of tenant `n` is dropped (R424). -/
def State.clearing (u s : State) (p n : Nat) : State :=
  { u with
    freeCtr := u.freeCtr + 1
    cores := u.cores.map fun e => (e.1, if (s.part p).own.quads.contains (quadOfCore e.1)
      then { e.2 with tlb := [], ibuf := e.2.ibuf.map fun l => (l.1, { l.2 with stale := true }) } else e.2)
    dies := u.dies.map fun e => (e.1, if (dieCands s p).contains e.1 then { e.2 with tlb := e.2.tlb.filter fun y => y.tenant != n } else e.2)
    lanterns := u.lanterns.map fun e => (e.1, if ((s.part p).own.quads.map sectorOf).contains e.1 then e.2.without n else e.2)
    usage := tput {} u.usage n { u.use n with
      clear := (u.use n).clear + 2600 * (s.part p).own.quads.length
      energy := (u.use n).energy + (Config.freeWord u.freeCtr).toNat }
    parts := tput {} u.parts p { u.part p with switchTill := some (s.cycle + 2600) } }

theorem exec_switchSequencer (w : Switches s p n) (hu : (clearTenant s p n).run s = .ok () u) :
    exec (.switchSequencer p) s = .next (u.clearing s p n) := by
  refine (onUnit_there (part_there w.there)).trans (runOp_ok (run_bind_ok (get_run _) (run_bind_ok (t := s) (a := n) ?_
    (run_bind_ok (require_ok ?_) (run_opt_bind hu rfl)))))
  · rw [w.last]; rfl
  · rw [w.switching, w.begins, w.blocks, w.jobs, w.contribs]
    exact w.grids

/-- Settles O50, event by event. -/
theorem schedulingEvents : Obligations.SchedulingEvents := by
  refine ⟨fun s u lan p n hl hdue hpow hnext hten hu => ?pick, fun s lan n j g hl hn hj hg hrun hret hhere hsleep => ?block,
    fun s p hp => ⟨fun ht hw hd => gives_of_eq (exec_sliceEnd hp ht hw hd), fun ht hw hd => ?epoch, fun n hsh hd => ?shrink,
      fun n hlast hsw hbeg hblocks hcon hjobs hgrids => ?switch⟩⟩
  case pick =>
    have hx := exec_lanternPick (s := s) (lan := lan) ⟨hl, hdue, hpow, hnext, hten⟩
    subst hu
    refine ⟨gives_of_eq hx, fun qk g v hv => ?_⟩
    have hchosen := hx.trans (runOp_of_run_eq (run_bind_ok (reply_some hv) rfl))
    exact ⟨fun hb => hchosen.trans (runOp_ok (run_if_pos hb)),
      fun hb => gives_of_eq (hchosen.trans (runOp_of_run_eq (run_if_neg (Bool.not_eq_true _ ▸ hb))))⟩
  case block =>
    have hx := exec_lanternBlock hl hn hj hg hrun hret hhere hsleep
    refine ⟨gives_of_eq hx, fun x u hr => ?_⟩
    have hread := hx.trans (runOp_of_run_eq (run_bind_ok (reply_some hr) rfl))
    refine ⟨fun hno => ?_, fun hyes => ?_⟩
    · subst hno
      exact hread.trans (runOp_ok rfl)
    · subst hyes
      exact hread ▸ leaves_of_run_eq (answers_drainGrid _) rfl
  case epoch =>
    exact gives_of_eq ((onUnit_there (part_there hp)).trans (runOp_of_run_eq (run_bind_ok (get_run _)
      (run_bind_ok (require_ok (placing_due ht hw hd)) rfl))))
  case shrink =>
    refine gives_of_eq ((onUnit_there (part_there hp)).trans (runOp_of_run_eq (run_bind_ok (get_run _) (run_bind_ok (t := s) (a := n) ?_
      (run_bind_ok (require_ok (decide_eq_true hd)) (run_bind_ok (modPart_run _ _ _) rfl))))))
    rw [hsh]; rfl
  case switch =>
    obtain ⟨_, u, hu⟩ := answers_clearTenant s p n s
    exact ⟨u, leaves_of_run hu, _, _, exec_switchSequencer ⟨hp, hlast, hsw, hbeg, hblocks, hcon, hjobs, hgrids⟩ hu⟩

end Sys2Proof.Machine
end

section
/-! Taking a trap (16_recovery.md R433 to R438; 12_groups_progress.md R320; 15_isolation.md R418). -/

namespace Sys2Proof.Machine

variable {s : State} {g : Group} {b : Block} {x : Grid} {t : TrapInfo}

section

variable (hg : tlook s.cur.gk s.groups = some g) (hb : tlook (blkOfGrp s.cur.gk) s.blocks = some b) (hx : s.gridOf b.grid = some x)
variable (h1 : t.cause ≠ 1) (h8 : t.cause ≠ 8) (h4 : t.cause ≠ 4)
include hg hb hx h1 h8 h4

/-- A trap of a group that cannot enter a handler: one in its handler nests, another finds no entry (R437). -/
theorem takeTrap_notEntered (hno : g.handler.isSome ∨ trapEntry? x = none) : (takeTrap t).run s =
    (if g.handler.isSome then abortGrid b.grid 0x21 else if t.cause = 0x11 then pure () else abortGrid b.grid t.cause).run s := by
  have hnoted : (noteTrap s.cur.gk t).run s = .ok () s := by rw [noteTrap_run hg h8, if_neg h4]
  have hgroup : (groupAt s.cur.gk).run s = .ok g s := (groupAt_run _ _).trans (need_run hg)
  have hblock : (blockAt (blkOfGrp s.cur.gk)).run s = .ok b s := (blockAt_run _ _).trans (need_run hb)
  rw [takeTrap_run hg h1]
  refine run_bind_ok hnoted (run_bind_ok (get_run _) (run_bind_ok hgroup (run_bind_ok hblock (run_bind_ok (need_run hx) ?_))))
  split
  · rfl
  · next hnormal => rw [hno.resolve_left hnormal]

theorem takeTrap_nested (hh : g.handler ≠ none) : (takeTrap t).run s = (abortGrid b.grid 0x21).run s := by
  have hin : g.handler.isSome := Option.isSome_iff_ne_none.2 hh
  rw [takeTrap_notEntered hg hb hx h1 h8 h4 (.inl hin), if_pos hin]

theorem takeTrap_noEntry (hh : g.handler = none) (he : trapEntry? x = none) (hc : t.cause ≠ 0x11) :
    (takeTrap t).run s = (abortGrid b.grid t.cause).run s := by
  rw [takeTrap_notEntered hg hb hx h1 h8 h4 (.inr he), hh, if_neg (by decide), if_neg hc]

end

/-- Settles O37: the handler entered, the nested trap, the trap without an entry. -/
theorem takingATrap : Obligations.TakingATrap := by
  intro s g b x t hg hb hx h1 h8
  exact ⟨fun entry r => takeTrap_enters hg h1 h8 r, fun h4 hh => takeTrap_nested hg hb hx h1 h8 h4 hh,
    fun h4 hh he hc => takeTrap_noEntry hg hb hx h1 h8 h4 hh he hc⟩

end Sys2Proof.Machine
end

section
/-! Commits of a partition's resources (15_isolation.md R404 to R408, R431). -/

namespace Sys2Proof.Machine

variable {s : State} {p c w : Nat} {v : W64} {n : Own}

/-! What writes lines back leaves the partitions as they are -/

theorem fixes_parts_putMem (len a x : Nat) : Fixes State.parts (putMem len a x) := fixes_modify fun _ => rfl

theorem fixes_parts_putCopy (at' : Pt) (sec : Nat) (x : Copy) : Fixes State.parts (putCopy at' sec x) := by
  cases at' with
  | l1 c | quad q | l2 d => exact fixes_modify fun _ => rfl

theorem fixes_parts_dropCopy (at' : Pt) (sec : Nat) : Fixes State.parts (dropCopy at' sec) := by
  cases at' with
  | l1 c | quad q | l2 d => exact fixes_modify fun _ => rfl

theorem fixes_parts_mergeDirty (sec : Nat) (x : Copy) (up : Option Pt) : Fixes State.parts (mergeDirty sec x up) := by
  refine fixes_bind fixes_get fun s => ?_
  cases up with
  | some q => exact fixes_ite (fixes_parts_putCopy _ _ _) (fixes_pure _)
  | none => exact fixes_forM (fun _ => fixes_parts_putMem _ _ _) _

theorem fixes_parts_writeBack (at' : Pt) (sec : Nat) (up : Option Pt) : Fixes State.parts (writeBack at' sec up) := by
  refine fixes_bind fixes_get fun s => ?_
  split
  · exact fixes_ite (fixes_bind (fixes_parts_mergeDirty _ _ _) fun _ => fixes_parts_putCopy _ _ _) (fixes_pure _)
  · exact fixes_pure _

theorem fixes_parts_evict_l2 (d sec : Nat) : Fixes State.parts (evict (.l2 d) sec) :=
  fixes_bind (fixes_parts_writeBack _ _ _) fun _ => fixes_parts_dropCopy _ _

theorem fixes_parts_need {α : Type} (o : Option α) : Fixes State.parts (need o) := by
  cases o with
  | some a => exact fixes_pure a
  | none => rintro s a t ⟨⟩

theorem fixes_parts_dropHome (sec : Nat) : Fixes State.parts (dropHome sec) :=
  fixes_bind fixes_get fun _ => fixes_bind (fixes_parts_need _) fun _ =>
    fixes_bind (fixes_modify fun _ => rfl) fun _ => fixes_modify fun _ => rfl

theorem fixes_parts_dropLines (chans homes : List Nat) : Fixes State.parts (dropLines chans homes) :=
  fixes_bind fixes_get fun _ => fixes_bind (fixes_forM (fun _ => fixes_ite (fixes_parts_evict_l2 _ _) (fixes_pure _)) _) fun _ =>
    fixes_forM (fun _ => fixes_ite (fixes_parts_dropHome _) (fixes_pure _)) _

/-- The die stores of SAVED grids are given up: they stay in their save regions (R406). -/
def giveUpStores (gs : List (Nat × Grid)) : Op Unit :=
  gs.forM fun (qk, g) => if g.state = .saved then do
      g.dieGens.forM fun (d, v) => endDieGen d v
      modGrid qk fun g => { g with dieGens := [] }
    else pure ()

theorem fixes_parts_endDieGen (d x : Nat) : Fixes State.parts (endDieGen d x) := fixes_bind fixes_get fun _ => fixes_modify fun _ => rfl

theorem fixes_parts_giveUpStores (gs : List (Nat × Grid)) : Fixes State.parts (giveUpStores gs) := by
  refine fixes_forM (fun e => ?_) _
  exact fixes_ite (fixes_bind (fixes_forM (fun _ => fixes_parts_endDieGen _ _) _) fun _ => fixes_modify fun _ => rfl) (fixes_pure _)

/-! COMMIT (R406) -/

theorem exec_commit (hp : p < 64) (hs : s.dev.state = 4) : exec (.commit p) s = runOp (commitOp p) s :=
  (onUnit_there (part_there hp)).trans (runOp_of_run_eq (run_bind_ok (fnReady_run hs (.inl rfl)) rfl))

/-- A commit is held while the last one is pending or the switch sequencer runs. -/
theorem commitOp_held (h : (s.part p).stat = 1 ∨ (s.part p).switchTill ≠ none) :
    (commitOp p).run s = .ok () { s with parts := tput {} s.parts p { s.part p with held := true } } := by
  refine run_bind_ok (get_run _) ((run_if_pos ?_).trans (modPart_run _ _ _))
  simpa [Option.isSome_iff_ne_none] using h

theorem commitOp_now (h : (s.part p).stat ≠ 1) (h' : (s.part p).switchTill = none) : (commitOp p).run s = (commitNow p).run s := by
  refine run_bind_ok (get_run _) (run_if_neg ?_)
  simp [h, h']

/-! Its application at quiescence (R406 step 4) -/

/-- What precedes the change of a partition leaves it as the event found it. -/
theorem beforeChange_run {chans homes : List Nat} {gs : List (Nat × Grid)} {m m' : Op Unit}
    (hm : ∀ u : State, u.part p = s.part p → m.run u = m'.run u) :
    (do
      dropLines chans homes
      giveUpStores gs
      m : Op Unit).run s = (do
      dropLines chans homes
      giveUpStores gs
      m' : Op Unit).run s := by
  refine run_bind_congr fun _ t ht => run_bind_congr fun _ u hu => hm u ?_
  have hparts : u.parts = s.parts := (fixes_parts_giveUpStores _ t _ u hu).trans (fixes_parts_dropLines _ _ s _ t ht)
  simp only [State.part, hparts]

/-- Settles O52, event by event. -/
theorem partitionEvents : Obligations.PartitionEvents := by
  intro s
  refine ⟨fun p hp hs => ⟨fun h => ?_, fun h h' => ?_⟩, fun p hp hidle hdue => ?apply, fun c p x hc hx => ?zeroed,
    fun p hp hf hw hg => ?masks, fun w v hw => gives_of_eq (onUnit_there (decide_eq_false (Nat.not_le.2 hw)))⟩
  · rw [exec_commit hp hs]
    exact runOp_ok (commitOp_held h)
  · exact gives_of_eq ((exec_commit hp hs).trans (runOp_of_run_eq (commitOp_now h h')))
  case apply =>
    refine gives_of_eq ((onUnit_there (part_there hp)).trans (runOp_of_run_eq (run_bind_ok (get_run _) (run_bind_ok (require_ok ?_) ?_))))
    · exact Bool.and_eq_true_iff.2 ⟨hidle, Bool.or_eq_true_iff.2 (hdue.imp id Option.isSome_iff_ne_none.2)⟩
    cases hn : (s.part p).pending with
    | none => rfl
    | some n =>
      refine beforeChange_run (p := p) fun u hu => ?_
      rw [bind_run, modPart_run, bind_run, modPart_run, hu]
  case zeroed =>
    refine gives_of_eq ((onUnit_there (decide_eq_false (Nat.not_le.2 hc))).trans (runOp_of_run_eq (run_bind_ok (get_run _)
      (run_bind_ok (t := s) (a := (p, x)) ?_ rfl))))
    rw [hx, need_some_run]
  case masks =>
    refine (onUnit_there (part_there hp)).trans (runOp_ok (run_bind_ok (get_run _) (run_bind_ok (require_ok ?_) (modPart_run _ _ _))))
    rw [hf, hw, hg]
    rfl

end Sys2Proof.Machine
end

section
/-! The mailbox, the debug port, and registers and memory as the host reaches them (15_isolation.md R423, R428 to R430; 17_host_fabric.md R470,
R473; 08_ordering_model.md R222, R231). -/

namespace Sys2Proof.Machine

variable {α : Type} {s : State} {f buf off : Nat} {v : W64}

/-! Steps that end early -/

/-- Two continuations with the same outcome after an operation. -/
theorem runOp_bind_congr {m : Op α} {k k' : α → Op Unit} (h : ∀ a t, m.run s = .ok a t → runOp (k a) t = runOp (k' a) t) :
    runOp (m >>= k) s = runOp (m >>= k') s := by
  cases hm : m.run s with
  | ok a t =>
    rw [runOp_of_run_eq (run_bind_ok hm (rfl : (k a).run t = _)), runOp_of_run_eq (run_bind_ok hm (rfl : (k' a).run t = _))]
    exact h a t hm
  | error e t => exact runOp_of_run_eq (by rw [bind_run, bind_run, hm])

/-- What follows the end of a step is nothing. -/
theorem runOp_then_finish {m : Op PUnit} (h : Answers m) {k : PUnit → Op Unit} : runOp (do
    m
    let x ← finish
    k x) s = runOp m s := by
  obtain ⟨_, t, ht⟩ := h s
  rw [runOp_ok ht]
  exact runOp_done (run_bind_ok ht rfl)

/-! Requests of the mailbox (R429) -/

theorem takeMail_run {op : Nat} (hs : s.dev.state = 4) (hm : s.dev.mail = []) (hf : f = pfn ∨ (s.fn f).tdisp ≠ 3) (hop : op < 3 ∨ f = pfn) :
    (takeMail f op buf).run s = .ok () s := by
  have hready : (mailReady f).run s = .ok () s := run_bind_ok (get_run _) (require_ok (by simp [hs, hf]))
  have hhas : ¬((3 ≤ op && f != pfn) = true) := by
    simp only [Bool.and_eq_true, decide_eq_true_eq, bne_iff_ne]
    omega
  refine run_bind_ok (get_run _) ?_
  rw [hm]
  exact run_bind_ok hready ((run_if_neg hhas).trans rfl)

/-- A request whose turn has come goes on with its work. -/
theorem onUnit_served {op : Nat} {k : PUnit → Op Unit} (hf : f ≤ pfn) (hs : s.dev.state = 4) (hm : s.dev.mail = [])
    (ht : f = pfn ∨ (s.fn f).tdisp ≠ 3) (hop : op < 3 ∨ f = pfn) : onUnit (pfn < f) (takeMail f op buf >>= k) s = runOp (k ()) s :=
  (onUnit_there (fn_there hf)).trans (runOp_of_run_eq (run_bind_ok (takeMail_run hs hm ht hop) rfl))

/-- The status of a request that names no tenant is open (log 13). -/
def openStatus (f : Nat) : Op Unit := do setSm f ((← freeValue).toNat % 256)

theorem answers_openStatus (f : Nat) : Answers (openStatus f) := answers_bind answers_freeValue fun _ => answers_modFn _ _

/-- A request that names a tenant is served; another ends with its status. -/
theorem runOp_named {t : Nat} {m : Op Unit} : runOp (do
    if 1024 ≤ t then
      setSm f ((← freeValue).toNat % 256)
      finish
    m) s = runOp (if t < 1024 then m else openStatus f) s := by
  by_cases ht : t < 1024
  · rw [if_pos ht, if_neg (Nat.not_le.2 ht)]
  · rw [if_neg ht, if_pos (Nat.not_lt.1 ht)]
    refine Eq.trans ?_ (runOp_then_finish (k := fun _ => m) (answers_openStatus f))
    rw [openStatus, bind_assoc]

/-! Registers (R4; 17_host_fabric.md R470) -/

theorem exec_registerWrite (hf : f ≤ pfn) (hs : s.dev.state = 4) (ht : f = pfn ∨ (s.fn f).tdisp ≠ 3)
    (hctl : off ≠ 0xB008) (hmail : off ≠ 0xE000) :
    exec (.registerWrite f off v) s = runOp (if f = pfn then pfWrite off v else vfWrite f off v) s := by
  refine (onUnit_there (fn_there hf)).trans (runOp_of_run_eq ?_)
  rw [if_neg (by simp [hctl]), if_neg hmail]
  exact run_bind_ok (fnReady_run hs ht) rfl

/-- The state in which a register holds the fields of a mask. -/
def State.stored (s : State) (f off : Nat) (v : W64) (m : Nat) : State :=
  { s with regs := tput (resetOf f off) s.regs (f * 2 ^ 20 + off) (v &&& BitVec.ofNat 64 m) }

theorem pfWrite_held {m : Nat} (hm : pfMask off = some m) : (pfWrite off v).run s = .ok () (s.stored pfn off v m) := by
  unfold pfWrite
  rw [hm]
  rfl

theorem vfWrite_held {m : Nat} (hm : vfMask off = some m) : (vfWrite f off v).run s = .ok () (s.stored f off v m) := by
  unfold vfWrite
  rw [hm]
  rfl

/-- DEVCTL without PKGRST: the clock's cap, where it is in range, and the start time. -/
theorem devctlOp_run (h : v.getLsbD 63 = false) : (devctlOp v).run s = .ok () (
    let w := bits v.toNat 44 32
    let cap := if 1000 ≤ w ∧ w ≤ 4400 then w else 4400
    { s with regs := tput (resetOf pfn 0xB008) s.regs (pfn * 2 ^ 20 + 0xB008) (BitVec.ofNat 64 (cap * 2 ^ 32 + v.toNat % 2 ^ 16)) }) := by
  refine run_bind_ok (setReg_run ..) ((run_if_neg (by rw [h]; decide)).trans ?_)
  simp only [Bool.and_eq_true, decide_eq_true_eq, pure_run]

/-- A write of SMCMD. -/
theorem exec_smcmd (hf : f ≤ pfn) : exec (.registerWrite f 0xE000 v) s = runOp (postMail f v) s := by
  refine (onUnit_there (fn_there hf)).trans ?_
  rw [if_neg (by simp)]
  rfl

/-- The operations that a function may post. -/
def mailOp (f op : Nat) : Prop := op = 1 ∨ op = 2 ∨ (op = 3 ∨ op = 4) ∧ f = pfn

theorem mailOp_iff {op : Nat} : (op = 1 || op = 2 || ((op = 3 || op = 4) && f = pfn) : Bool) = true ↔ mailOp f op := by
  simp [mailOp, or_assoc]

section

variable (hr : s.dev.state = 4 ∧ (f = pfn ∨ (s.fn f).tdisp ≠ 3) ∨ s.dev.state = 7 ∧ f = pfn) (hb : mailBusy s f = false)
include hr hb

/-- A post of a function whose mailbox answers and is not busy. -/
theorem postMail_run : (postMail f v).run s =
    (if v.toNat % 16 = 1 || v.toNat % 16 = 2 || ((v.toNat % 16 = 3 || v.toNat % 16 = 4) && f = pfn) then
      modDev fun d => { d with mail := d.mail ++ [(f, v.toNat % 16, v.toNat / 64 * 64)] }
    else setSm f 2).run s := by
  refine run_bind_ok (run_bind_ok (get_run _) (require_ok ?_)) (run_bind_ok (get_run _) (run_bind_ok (require_ok ?_) rfl))
  · simpa using hr
  · rw [hb]
    rfl

theorem postMail_taken (hop : mailOp f (v.toNat % 16)) : (postMail f v).run s = .ok () { s with
    dev := { s.dev with mail := s.dev.mail ++ [(f, v.toNat % 16, v.toNat / 64 * 64)] } } := by
  rw [postMail_run hr hb, if_pos (mailOp_iff.2 hop), modDev_run]

theorem postMail_refused (hop : ¬mailOp f (v.toNat % 16)) : (postMail f v).run s = (setSm f 2).run s := by
  rw [postMail_run hr hb, if_neg (mailOp_iff.not.2 hop)]

end

/-! Memory (08_ordering_model.md R222, R231) -/

section

variable {a : Nat} (hs : s.dev.state = 4) (hp : s.dev.power < 2)
include hs hp

theorem exec_hostWrite {bs : List Byte} (hn : a + bs.length ≤ devTop) (hc : ∀ g ∈ sectorStarts a bs.length, hostCapped s g = false)
    (hb : hostBlocked s a bs.length = false) : exec (.hostWrite a bs) s = runOp (hostWriteAt (bs.length + 1) bs a) s := by
  have hfree : (sectorStarts a bs.length).any (hostCapped s) = false := by simpa only [List.any_eq_false, Bool.not_eq_true] using hc
  refine (onUnit_there (decide_eq_false (Nat.not_lt.2 hn))).trans (runOp_of_run_eq (run_bind_ok (get_run _) (run_bind_ok (require_ok ?_) rfl)))
  rw [hfree, hb, hs, decide_eq_true hp]
  rfl

theorem exec_hostRead {n : Nat} (hn : a + n ≤ devTop) (hb : memBad s a n = false) :
    exec (.hostRead a n) s = .next { s with out := (List.range n).map (fun i => hostByte s (a + i)) :: s.out } := by
  refine (onUnit_there (decide_eq_false (Nat.not_lt.2 hn))).trans (runOp_ok (run_bind_ok (get_run _) (run_bind_ok (require_ok ?_) ?_)))
  · rw [hs, decide_eq_true hp]
    rfl
  · rw [hb]
    rfl

end

/-- Settles O53, event by event; the requests of the mailbox after their turn has come. -/
theorem hostEvents : Obligations.HostEvents := by
  refine ⟨fun s f buf hf hs hm ht => ⟨?attest, fun hv => ?counters, fun hp => ?countersAll⟩,
    fun s buf hs hm => ⟨?clear, ?extend⟩,
    fun s f hf hs ht => ⟨?dbgRead, ?dbgWrite, fun off v hctl hmail =>
      ⟨fun m hp hm => ?pfHeld, fun m hp hm => ?vfHeld, fun hp hm => ?pf, fun hp hm => ?vf⟩⟩,
    fun s f v hf => ⟨fun h => ?clock, ?devctl, fun hr hb => ⟨fun hop => ?post, fun hop => ?badop⟩⟩,
    fun s a hs hp => ⟨fun bs hn hc hb => ?write, fun n hn hb => ?read⟩⟩
  case attest => exact gives_of_eq (onUnit_served hf hs hm ht (.inl (by decide)))
  case counters =>
    have htenant : ¬1024 ≤ f := Nat.not_le.2 (lt_of_le_of_ne hf hv)
    exact gives_of_eq ((onUnit_served hf hs hm ht (.inl (by decide))).trans (runOp_of_run_eq (run_bind_congr fun _ _ _ =>
      run_bind_ok (run_if_neg hv) (run_if_neg htenant))))
  case countersAll =>
    refine gives_of_eq ((onUnit_served hf hs hm ht (.inl (by decide))).trans (runOp_bind_congr fun _ _ _ => ?_))
    rw [if_pos hp, bind_assoc]
    exact runOp_bind_congr fun _ _ _ => runOp_named
  case clear =>
    exact gives_of_eq ((onUnit_served le_rfl hs hm (.inl rfl) (.inr rfl)).trans (runOp_bind_congr fun _ _ _ => runOp_named))
  case extend =>
    refine gives_of_eq ((onUnit_served le_rfl hs hm (.inl rfl) (.inr rfl)).trans
      (runOp_of_run_eq (run_bind_congr fun _ _ _ => run_bind_congr fun _ _ _ => ?_)))
    simp only [Bool.and_eq_true, decide_eq_true_eq]
  case dbgRead => exact gives_of_eq (onUnit_there (fn_there hf))
  case dbgWrite => exact gives_of_eq (onUnit_there (fn_there hf))
  case pfHeld =>
    subst hp
    rw [exec_registerWrite hf hs ht hctl hmail, if_pos rfl]
    exact runOp_ok (pfWrite_held hm)
  case vfHeld =>
    rw [exec_registerWrite hf hs ht hctl hmail, if_neg hp]
    exact runOp_ok (vfWrite_held hm)
  case pf =>
    subst hp
    exact gives_of_eq ((exec_registerWrite hf hs ht hctl hmail).trans (by rw [if_pos rfl]))
  case vf => exact gives_of_eq ((exec_registerWrite hf hs ht hctl hmail).trans (by rw [if_neg hp]))
  case clock => exact (onUnit_there (fn_there le_rfl)).trans (runOp_ok (devctlOp_run h))
  case devctl => exact gives_of_eq (onUnit_there (fn_there le_rfl))
  case post =>
    rw [exec_smcmd hf]
    exact runOp_ok (postMail_taken hr hb hop)
  case badop =>
    rw [exec_smcmd hf]
    exact gives_of_eq (runOp_of_run_eq (postMail_refused hr hb hop))
  case write => exact gives_of_eq (exec_hostWrite hs hp hn hc hb)
  case read => exact exec_hostRead hs hp hn hb

end Sys2Proof.Machine
end

section
/-! Resets and bring-up (15_isolation.md R426, R428; 17_host_fabric.md R468 to R470). -/

namespace Sys2Proof.Machine

variable {s : State} {n : Nat} {img : List Byte}

/-- A step that is one operation, which always answers, ends in the state that it leaves. -/
theorem leaves_of_eq {m : Op Unit} {u : State} {x : Host.Outcome State Fault Refusal} (hm : Answers m) (hx : x = runOp m u) :
    ∃ t, u.leaves m t ∧ x = .next t :=
  hx ▸ leaves_of_run_eq hm rfl

/-! Enabling and resetting a virtual function (R469) -/

theorem tenant_there (hn : n < 1024) : decide (1024 ≤ n) = false := decide_eq_false (Nat.not_le.2 hn)

theorem ready_required (hs : s.dev.state = 4) : (require (s.dev.state = 4)).run s = .ok () s := require_ok (decide_eq_true hs)

/-- The reset of a tenant whose switch sequence is under way waits for its end (15_isolation.md R426). -/
theorem exec_vfFlr (hn : n < 1024) (hs : s.dev.state = 4) : exec (.vfFlr n) s =
    runOp (if (s.part (s.partOf n)).switchTill ≠ none ∧ (s.part (s.partOf n)).lastTenant = some n then modFn n fun f => { f with flr := true }
      else flrNow n) s := by
  refine (onUnit_there (tenant_there hn)).trans (runOp_of_run_eq (run_bind_ok (get_run _) (run_bind_ok (ready_required hs) ?_)))
  simp only [Bool.and_eq_true, decide_eq_true_eq, Option.isSome_iff_ne_none]

/-! Bring-up (R428, R470) -/

/-- The package may take its next step of bring-up. -/
theorem booting_required {k : Nat} (hs : s.dev.state = k) (hp : s.dev.power ≠ 3) :
    (require (s.dev.state = k && s.dev.power != 3)).run s = .ok () s := require_ok (by simp [hs, hp])

/-- The trusted firmware is measured, and takes over. -/
def bootTrusted (img : List Byte) (n : Nat) : Op Unit := do
  extendMeas 0 (sha256 img)
  modDev fun d => { d with bootVer := n }
  setDevState 2 0

theorem answers_bootTrusted (img : List Byte) (n : Nat) : Answers (bootTrusted img n) :=
  answers_bind (answers_extendMeas _ _) fun _ => answers_bind (answers_modDev _) fun _ => answers_setDevState _ _

theorem exec_bootRomVerify (hs : s.dev.state = 1) (hp : s.dev.power ≠ 3) : exec (.bootRomVerify img n) s = runOp (
    if !Config.rootSigned img then setDevState 7 1
    else if n < s.dev.fused % 2 ^ 16 then setDevState 7 2
    else bootTrusted img n) s :=
  runOp_of_run_eq (run_bind_ok (get_run _) (run_bind_ok (booting_required hs hp) rfl))

/-- The service firmware is measured, and takes over where it is signed and new enough. -/
def bootService (fused : Nat) (img : List Byte) (n : Nat) : Op Unit := do
  extendMeas 1 (sha256 img)
  if !Config.trustedSigned img then setDevState 7 1
  else if n < fused / 2 ^ 16 then setDevState 7 2
  else
    modDev fun d => { d with svcVer := n }
    setDevState 3 0

theorem answers_bootService (fused : Nat) (img : List Byte) (n : Nat) : Answers (bootService fused img n) :=
  answers_bind (answers_extendMeas _ _) fun _ => answers_ite (answers_setDevState _ _) (answers_ite (answers_setDevState _ _)
    (answers_bind (answers_modDev _) fun _ => answers_setDevState _ _))

/-- Settles O54, event by event. -/
theorem resetEvents : Obligations.ResetEvents := by
  intro s
  refine ⟨rfl, rfl, rfl, rfl, fun n hn hs => ⟨?enable, fun h h' => ?flrWaits, fun h => ?flr⟩,
    fun img n hs hp => ⟨fun hi => ?unsigned, fun hi hv => ?old, fun hi hv => ?boots⟩, fun img n hs hp => ?service, fun failed hs hp => ?bringup⟩
  case enable =>
    exact leaves_of_eq (answers_resetQueues n)
      ((onUnit_there (tenant_there hn)).trans (runOp_of_run_eq (run_bind_ok (get_run _) (run_bind_ok (ready_required hs) rfl))))
  case flrWaits =>
    rw [exec_vfFlr hn hs, if_pos ⟨h, h'⟩]
    exact runOp_ok (modFn_run _ _ _)
  case flr => exact gives_of_eq ((exec_vfFlr hn hs).trans (by rw [if_neg h]))
  case unsigned =>
    refine leaves_of_eq (answers_setDevState 7 1) ((exec_bootRomVerify hs hp).trans ?_)
    rw [hi]
    rfl
  case old =>
    refine leaves_of_eq (answers_setDevState 7 2) ((exec_bootRomVerify hs hp).trans ?_)
    rw [hi, if_neg (by decide), if_pos hv]
  case boots =>
    refine leaves_of_eq (answers_bootTrusted img n) ((exec_bootRomVerify hs hp).trans ?_)
    rw [hi, if_neg (by decide), if_neg (Nat.not_lt.2 hv)]
    rfl
  case service =>
    exact leaves_of_eq (answers_bootService s.dev.fused img n) (runOp_of_run_eq (run_bind_ok (get_run _) (run_bind_ok (booting_required hs hp) rfl)))
  case bringup =>
    exact leaves_of_eq (answers_setDevState _ _) (runOp_of_run_eq (run_bind_ok (get_run _) (run_bind_ok (booting_required hs hp) rfl)))

end Sys2Proof.Machine
end

section
/-! Power, cooling, TDISP, the link and errors without a requester (16_recovery.md R456 to R458; 17_host_fabric.md R463, R464, R471, R472). -/

namespace Sys2Proof.Machine

variable {s : State} {n : Nat}

theorem tlook_mapSnd {α β : Type} (f : α → β) (k : Nat) (t : Tab α) : tlook k (t.map fun e => (e.1, f e.2)) = (tlook k t).map f := by
  induction t with
  | nil => rfl
  | cons e t ih =>
    simp only [List.map_cons, tlook]
    split
    · rfl
    · split
      · rfl
      · exact ih

/-! Power and cooling (R471, R472) -/

theorem exec_d3hotExit (hp : s.dev.power = 2) : exec .d3hotExit s = .next { s with dev := { s.dev with power := 0 } } :=
  runOp_ok (run_bind_ok (get_run _) (run_bind_ok (require_ok (decide_eq_true hp)) (modDev_run _ _)))

/-- The active grids, by queue. -/
def activeGrids (s : State) : List (Nat × Grid) := s.queues.filterMap fun e => e.2.active.map fun g => (e.1, g)

/-- The move to D3hot is made where nothing runs; else the running grids are drained first. -/
theorem exec_d3hotEntry (hs : s.dev.state = 4) (hp : s.dev.power < 2) : exec .d3hotEntry s = runOp (
    if (activeGrids s).all (fun e => e.2.state = .saved) && s.blocks.isEmpty then modDev fun d => { d with power := 2 }
    else do
      modDev fun d => { d with power := 1 }
      (activeGrids s).forM fun e => drainGrid e.1) s :=
  runOp_of_run_eq (run_bind_ok (get_run _) (run_bind_ok (require_ok (by simp [hs, hp])) rfl))

/-! The thermal halt (R472) -/

/-- A message is signalled, or is pending where it is masked. -/
theorem fire_run (f vec : Nat) : ∃ fired pending, (fire f vec).run s = .ok () { s with irqs := fired, irqPend := pending } := by
  by_cases hm : s.irqMask.contains ⟨f, vec⟩ = true
  · exact ⟨_, _, congrArg (EStateM.Result.ok ()) (if_pos hm)⟩
  · exact ⟨_, _, congrArg (EStateM.Result.ok ()) (if_neg hm)⟩

theorem setDevState_run (st err : Nat) : ∃ fired pending, (setDevState st err).run s =
    .ok () { s with dev := { s.dev with state := st, err := err }, irqs := fired, irqPend := pending } := by
  by_cases hst : (s.dev.state != st) = true
  · obtain ⟨fired, pending, hf⟩ := fire_run (s := { s with dev := { s.dev with state := st, err := err } }) pfn 2
    exact ⟨fired, pending, run_bind_ok (get_run _) (run_bind_ok (modDev_run _ _) ((run_if_pos hst).trans hf))⟩
  · exact ⟨_, _, run_bind_ok (get_run _) (run_bind_ok (modDev_run _ _) (run_if_neg hst))⟩

/-- A queue whose active grid is lost, with its record and what was submitted. -/
def Queue.dropped (q : Queue) : Queue :=
  { q with active := none, recs := q.recs.drop (if q.active.isSome then 1 else 0), waits := none, submits := [] }

/-- The state in which a halt has dropped every grid and its work (R472). -/
def State.dropped (s : State) : State :=
  { s with
    groups := []
    blocks := []
    contribs := []
    rings := []
    accs := []
    quads := s.quads.map fun e => (e.1, { e.2 with clusters := [] })
    cores := s.cores.map fun e => (e.1, { e.2 with grid := none, places := 0 }.without fun _ => true)
    dies := s.dies.map fun e => (e.1, { e.2 with jobs := [] })
    queues := s.queues.map fun e => (e.1, e.2.dropped)
    dev := { s.dev with syncs := [] } }

theorem exec_thermalHalt (hp : s.dev.power ≠ 3) : exec .thermalHalt s = runOp (setDevState 7 4) s.dropped :=
  runOp_of_run_eq (run_bind_ok (get_run _) (run_bind_ok (require_ok (bne_iff_ne.2 hp))
    (run_bind_ok (modify_run _ _) (run_bind_ok (modDev_run _ _) rfl))))

theorem dropped_inactive (qk : Nat) : (s.dropped.queue qk).active = none := by
  have hqueue : s.dropped.queue qk = ((tlook qk s.queues).map Queue.dropped).getD {} :=
    congrArg (fun o : Option Queue => o.getD {}) (tlook_mapSnd Queue.dropped qk s.queues)
  rw [hqueue]
  cases tlook qk s.queues with
  | none => rfl
  | some q => rfl

/-! TDISP and the link (R463, R464) -/

theorem exec_tdispError (hn : n < 1024) (hs : s.dev.state = 4) : exec (.tdispError n) s = runOp (lockedWrite n) s :=
  (onUnit_there (tenant_there hn)).trans (runOp_of_run_eq (run_bind_ok (get_run _) (run_bind_ok (ready_required hs) rfl)))

theorem lockedWrite_unlocked (h1 : (s.fn n).tdisp ≠ 1) (h2 : (s.fn n).tdisp ≠ 2) : (lockedWrite n).run s = .ok () s :=
  run_bind_ok (get_run _) (run_if_neg (by simp [h1, h2]))

theorem lockedWrite_locked (h : (s.fn n).tdisp = 1 ∨ (s.fn n).tdisp = 2) : (lockedWrite n).run s = (tdispFail n).run s :=
  run_bind_ok (get_run _) (run_if_pos (by simpa using h))

theorem exec_tdispRequest {m : Nat} (hn : n < 1024) (hs : s.dev.state = 4) : exec (.tdispRequest n m) s =
    let x := (s.fn n).tdisp
    .next { s with fns := tput {} s.fns n { s.fn n with
      tdisp := if m = 0 ∧ x = 0 then 1 else if m = 1 ∧ x = 1 then 2 else if m = 2 ∧ x ≠ 3 then 0 else x } } := by
  refine (onUnit_there (tenant_there hn)).trans (runOp_ok (run_bind_ok (get_run _) (run_bind_ok (ready_required hs) ?_)))
  simp only [modFn_run, Bool.and_eq_true, decide_eq_true_eq, bne_iff_ne]

/-- The count of a port's failures after an attempt at a flit. -/
def flitTried (n p : Nat) (good : Bool) : Op Unit :=
  if good then modDev fun d => { d with retries := tdel p d.retries }
  else if n < 8 then modDev fun d => { d with retries := tset p n d.retries }
  else modDev fun d => { d with retries := tdel p d.retries, down := d.down ++ [p] }

theorem exec_flitRetry {p : Nat} {good : Bool} (hp : p < 18) (hd : s.dev.down.contains p = false) :
    exec (.flitRetry p good) s = runOp (flitTried (tget 0 s.dev.retries p + 1) p good) s := by
  refine (onUnit_there (decide_eq_false (Nat.not_le.2 hp))).trans (runOp_of_run_eq (run_bind_ok (get_run _) (run_bind_ok (require_ok ?_) rfl)))
  rw [hd]
  rfl

/-! Errors without a requester (16_recovery.md R457) -/

/-- The state in which one of the words of a written-back sector is marked, and the error's record. -/
def State.wordLost (s : State) (sec : Nat) : State :=
  let w := 2 * sec + (Config.freeWord s.freeCtr).toNat % 2
  { s with
    freeCtr := s.freeCtr + 1
    poison := { s.poison with mem := if s.poison.mem.contains w then s.poison.mem else s.poison.mem ++ [w] } }
def lostRecord (s : State) (sec : Nat) : ErrRec :=
  let home := (tlook sec s.sects).map (·.home)
  { pa := 64 * sec, num := home.getD (channelOf (64 * sec)), unit := if home.isSome then 2 else 0, kind := 2 }

theorem exec_writebackError (sec : Nat) : exec (.writebackError sec) s = runOp (match tlook sec s.writers with
    | some n => do
      modify fun s => { s with writers := tdel sec s.writers }
      killTenant n
      writeError { lostRecord s sec with tenant := n, action := 2, parts := 2 ^ s.partOf n }
    | none => writeError (lostRecord s sec)) (s.wordLost sec) :=
  runOp_of_run_eq (run_bind_ok (freeValue_run _) (run_bind_ok (get_run _) (run_bind_ok (modify_run _ _) rfl)))

/-- Settles O55, event by event. -/
theorem powerLinkAndErrors : Obligations.PowerLinkAndErrors := by
  intro s
  refine ⟨fun hs hp => ⟨fun hi => ?idle, fun hi => ?busy⟩, fun hp => exec_d3hotExit hp,
    fun hs => ⟨fun n hn => ?cut, ?raise, fun ht => ?lower⟩,
    fun hp => ?halt, fun n hn hs => ⟨fun h1 h2 => ?unlocked, fun h => ?locked, fun m => exec_tdispRequest hn hs⟩,
    fun p hp hd => ⟨?good, fun hn => ?retry, fun hn => ?down⟩, fun sec => ⟨fun hw => ?unwritten, fun n hw => ?written⟩,
    fun unit idx dir hi hu => ?parity⟩
  case idle =>
    rw [exec_d3hotEntry hs hp]
    exact runOp_ok (run_if_pos hi)
  case busy =>
    rw [exec_d3hotEntry hs hp]
    exact leaves_of_run_eq (answers_forM (fun _ => answers_drainGrid _) _) (run_if_neg (Bool.not_eq_true _ ▸ hi))
  case cut => exact runOp_ok (run_bind_ok (get_run _) (run_bind_ok (require_ok (by simp [hs, hn])) (modDev_run _ _)))
  case raise => exact runOp_ok (run_bind_ok (get_run _) (run_bind_ok (ready_required hs) (modDev_run _ _)))
  case lower =>
    exact runOp_ok (run_bind_ok (get_run _) (run_bind_ok (get_run _) (run_bind_ok (require_ok (by simp [hs, ht])) (modDev_run _ _))))
  case halt =>
    obtain ⟨fired, pending, hr⟩ := setDevState_run (s := s.dropped) 7 4
    exact ⟨_, (exec_thermalHalt hp).trans (runOp_ok hr), rfl, rfl, rfl, rfl, dropped_inactive, rfl, rfl⟩
  case unlocked =>
    rw [exec_tdispError hn hs]
    exact runOp_ok (lockedWrite_unlocked h1 h2)
  case locked => exact gives_of_eq ((exec_tdispError hn hs).trans (runOp_of_run_eq (lockedWrite_locked h)))
  case good =>
    rw [exec_flitRetry hp hd]
    rfl
  case retry =>
    rw [exec_flitRetry hp hd]
    exact runOp_ok (run_if_pos hn)
  case down =>
    rw [exec_flitRetry hp hd]
    exact runOp_ok (run_if_neg (Nat.not_lt.2 hn))
  case unwritten =>
    refine gives_of_eq ((exec_writebackError sec).trans ?_)
    rw [hw]
    rfl
  case written =>
    refine gives_of_eq ((exec_writebackError sec).trans ?_)
    rw [hw]
    rfl
  case parity =>
    have hthere : (256 ≤ idx || (unit != 1 && unit != 2) : Bool) = false := by
      obtain rfl | rfl := hu <;> simp [hi]
    refine gives_of_eq ((onUnit_there hthere).trans (runOp_of_run_eq (run_bind_ok (get_run _) ?_)))
    obtain rfl | rfl := hu <;> rfl

end Sys2Proof.Machine
end

section
/-! Registers after reset (17_host_fabric.md R470 and the rules that list each register's value). -/

namespace Sys2Proof.Machine

variable {f p k off base size n i : Nat}

/-! Blocks of registers -/

theorem inBlock_at (h : off = base + size * i + k) (hk : k < size) (hi : i < n) : inBlock off base size n = some (i, k) := by
  have hend : size * i + k < size * n := calc
    size * i + k < size * (i + 1) := by rw [Nat.mul_succ]; omega
    _ ≤ size * n := Nat.mul_le_mul_left _ hi
  have hoff : off - base = k + size * i := by omega
  unfold inBlock
  rw [if_pos (by simp only [Bool.and_eq_true, decide_eq_true_eq]; omega), hoff, Nat.add_mul_div_left _ _ (by omega),
    Nat.add_mul_mod_self_left, Nat.div_eq_of_lt hk, Nat.mod_eq_of_lt hk, Nat.zero_add]

theorem inBlock_none (h : off < base ∨ base + size * n ≤ off) : inBlock off base size n = none :=
  if_neg (by simp only [Bool.and_eq_true, decide_eq_true_eq]; omega)

theorem inBlock_bounds (h : inBlock off base size n = some (i, k)) : base ≤ off ∧ off < base + size * n := by
  unfold inBlock at h
  split at h
  · next hin => simpa using hin
  · cases h

/-! Before READY -/

theorem regRead_booting (h0 : off ≠ 0xB000) (h8 : off ≠ 0xB008) : regRead .reset pfn off = 0 := by
  simp [regRead, h0, h8, State.reset]

theorem regRead_absent (hf : f < 1024) (off : Nat) : regRead .reset f off = BitVec.allOnes 64 := if_neg (Nat.ne_of_lt hf)

/-! In READY -/

theorem readyReset_reg (f off : Nat) (reset : W64) : State.readyReset.reg f off reset = reset := rfl
theorem readyReset_fn (f : Nat) : State.readyReset.fn f = {} := rfl
theorem readyReset_queue (qk : Nat) : State.readyReset.queue qk = {} := rfl
theorem readyReset_part (p : Nat) : State.readyReset.part p = {} := rfl

theorem regRead_pf (off : Nat) : regRead .readyReset pfn off = BitVec.ofNat 64 (pfRead .readyReset off) := by
  simp [regRead, State.readyReset]

theorem regRead_vf (hf : f < 1024) (off : Nat) : regRead .readyReset f off = BitVec.ofNat 64 (vfRead .readyReset f off) :=
  if_neg (Nat.ne_of_lt hf)

/-- The registers that both kinds of function have lie below the blocks of registers. -/
theorem sharedRead_block {s : State} (h : 0x10000 ≤ off) : sharedRead s f off = none := by
  unfold sharedRead
  split
  case h_8 => rfl
  all_goals omega

/-! Values of the physical function's registers -/

/-- FQCTL and EQCTL, which have values of their own, lie below the blocks of registers. -/
theorem listed_below (h : 0x10000 ≤ off) : ¬(off = 0xD020 || (pfn = pfn && off = 0xD108) : Bool) = true := by
  simp only [Bool.or_eq_true, Bool.and_eq_true, decide_eq_true_eq]
  omega

/-- In the blocks, only policy registers have a value other than 0. -/
theorem resetOf_block (h : 0x10000 ≤ off) (hn : inBlock off 0x20000 0x40 64 = none) : resetOf pfn off = 0 := by
  unfold resetOf
  rw [if_neg (listed_below (by omega)), if_pos rfl, hn]
  exact if_neg (by omega)

/-! Policy registers of a partition -/

def policyOffs : List Nat := [0, 8, 0x10, 0x18, 0x20, 0x28]

/-- The policy registers of every partition have the same values at reset. -/
theorem resetOf_policy (hb : inBlock off 0x20000 0x40 64 = some (p, k)) (hk : k ∈ policyOffs) :
    resetOf pfn off = resetOf pfn (0x20000 + k) := by
  have hoff := inBlock_bounds hb
  conv_lhs => unfold resetOf
  rw [if_neg (listed_below (by omega)), if_pos rfl, hb]
  simp only [policyOffs, List.mem_cons, List.not_mem_nil, or_false] at hk
  obtain rfl | rfl | rfl | rfl | rfl | rfl := hk
  case inr.inr.inr.inl => exact if_neg (by omega)
  all_goals rfl

theorem pfRead_policy (hb : inBlock off 0x20000 0x40 64 = some (p, k)) (hk : k ≤ 0x28) : pfRead .readyReset off = (resetOf pfn off).toNat := by
  have hoff := inBlock_bounds hb
  unfold pfRead
  rw [sharedRead_block (by omega), hb]
  split
  · rfl
  · contradiction
  · iterate 5 rw [if_neg (by omega)]
    exact if_pos hk

theorem regRead_policy (h : off = 0x20000 + 0x40 * p + k) (hp : p < 64) (hk : k ∈ policyOffs) :
    regRead .readyReset pfn off = resetOf pfn (0x20000 + k) := by
  have hle : k ≤ 0x28 := (by decide : ∀ x ∈ policyOffs, x ≤ 0x28) k hk
  have hb : inBlock off 0x20000 0x40 64 = some (p, k) := inBlock_at h (by omega) hp
  rw [regRead_pf, pfRead_policy hb hle, resetOf_policy hb hk, BitVec.ofNat_toNat, BitVec.setWidth_eq]

/-! Registers of the physical function past those -/

theorem regRead_past (h : 0x21000 ≤ off) : regRead .readyReset pfn off = 0 := by
  rw [regRead_pf]
  have hp : inBlock off 0x20000 0x40 64 = none := inBlock_none (.inr h)
  unfold pfRead
  rw [sharedRead_block (by omega), hp, resetOf_block (by omega) hp]
  split
  · rfl
  · contradiction
  · iterate 5 rw [if_neg (by omega)]
    split
    · contradiction
    · split <;> rfl
    · split
      · rfl
      · split <;> rfl
    · split <;> rfl
    · exact congrArg _ ((List.getD_eq_getElem?_getD ..).trans (List.getElem?_getD_replicate_default_eq 0 5 _))
    · split <;> rfl

/-! Queue registers -/

theorem queueRead_reset (qk : Nat) : queueRead .readyReset qk k = if k = 0 then 0x1000000 else 0 := by
  unfold queueRead
  split
  case h_1 => exact congrArg BitVec.toNat (readyReset_reg _ _ _)
  case h_5 hk _ _ _ => exact (if_neg hk).symm
  case h_2 | h_3 =>
    rw [readyReset_queue]
    rfl
  case h_4 => rfl

/-- QCTL is no register that only holds what is written. -/
theorem vfMask_qctl (hb : inBlock off 0x10000 0x40 64 = some (i, 0)) : vfMask off = none := by
  have hoff := inBlock_bounds hb
  unfold vfMask
  split
  case h_5 => rw [hb]; rfl
  all_goals omega

theorem vfRead_queue (hb : inBlock off 0x10000 0x40 64 = some (i, k)) : vfRead .readyReset f off = if k = 0 then 0x1000000 else 0 := by
  have hoff := inBlock_bounds hb
  unfold vfRead
  rw [sharedRead_block hoff.1, hb]
  split
  · next hm =>
    have hk : k ≠ 0 := fun h0 => by
      subst h0
      cases (vfMask_qctl hb).symm.trans hm
    exact (if_neg hk).symm
  · contradiction
  · rw [if_neg (by omega)]
    exact queueRead_reset _

/-! Registers of a virtual function outside its blocks -/

theorem vfRead_shared {s : State} {x : Nat} (hm : vfMask off = none) (hs : sharedRead s f off = some x) : vfRead s f off = x := by
  unfold vfRead
  rw [hm, hs]

/-- The engine groups that a function sees: all where its partition hides none (15_isolation.md R431). -/
theorem sharedRead_features : sharedRead .readyReset f 0xE010 = some 0xFF := by
  have hshown : ¬(f != pfn && (State.readyReset.part (State.readyReset.partOf f)).reveal) = true := by simp [readyReset_part]
  exact congrArg some (if_neg hshown)

/-- LNSTAT of a function without routines. -/
theorem sharedRead_lnstat : sharedRead .readyReset f 0xF008 = some 0 := by
  unfold sharedRead
  rw [readyReset_fn]
  rfl

/-- Settles O56: each register by its block, those outside blocks one by one. -/
theorem resetState : Obligations.ResetState := by
  refine ⟨rfl, rfl, fun off h0 h8 => regRead_booting h0 h8, fun f off hf => regRead_absent hf off,
    rfl, rfl, rfl, rfl, rfl, rfl, rfl, rfl, rfl, fun _ => rfl, fun _ => rfl,
    rfl, rfl, rfl, rfl, rfl, rfl, rfl, rfl, rfl, rfl, rfl, rfl, fun w _ => regRead_past (by omega), fun p hp => ?part, fun f hf => ?fn⟩
  case part =>
    have policy (k : Nat) (hk : k ∈ policyOffs) {off : Nat} (h : off = 0x20000 + 0x40 * p + k) :
        regRead .readyReset pfn off = resetOf pfn (0x20000 + k) := regRead_policy h hp hk
    exact ⟨policy 0 (by decide) rfl, policy 8 (by decide) (by omega), policy 0x10 (by decide) (by omega), policy 0x18 (by decide) (by omega),
      policy 0x20 (by decide) (by omega), policy 0x28 (by decide) (by omega), fun k hk => regRead_past (by omega)⟩
  case fn =>
    refine ⟨regRead_past (by omega), regRead_past (by omega), fun k _ => regRead_past (by omega), ?_⟩
    simp only [regRead_vf hf]
    rw [vfRead_shared rfl sharedRead_features, vfRead_shared rfl sharedRead_lnstat]
    refine ⟨rfl, rfl, rfl, rfl, rfl, rfl, rfl, rfl, rfl, fun j hj =>
      ⟨congrArg (BitVec.ofNat 64) (vfRead_queue (k := 0) (inBlock_at rfl (by decide) hj)), fun k hk h1 => ?_⟩⟩
    rw [vfRead_queue (inBlock_at rfl (by omega) hj), if_neg (by omega)]
    rfl

end Sys2Proof.Machine
end
